-- ==== Sys2Proof/Word.lean ====
section
/-! DEFINITION. Word types of the Hyver 9, the names of parties and agents, and the plainest list tables. -/
namespace Sys2Proof

/-- A 32-bit register value (R21). -/
abbrev Word := BitVec 32
/-- A byte of memory. -/
abbrev Byte := BitVec 8
/-- A 64-bit value: a register pair, a special register, a global address before the check of R139. -/
abbrev DWord := BitVec 64
/-- A 55-bit program counter (R16). -/
abbrev Addr := BitVec 55
/-- A set of lanes of one warp, bit L for lane L. -/
abbrev Lanes := BitVec 64

/-- Who issues inside a block: warp n, or the block's MCC (R267 calls it a party). -/
inductive Who where
  | warp (n : Nat)
  | mcc
deriving DecidableEq, Repr

/-- Who reaches the hub range (R373): a host core or a lantern core. -/
inductive HubAgent where
  | host (n : Nat)
  | lantern (n : Nat)
deriving DecidableEq, Repr

/-- Whose write of TLBICTL it is, and of which partition's register (R287). -/
structure TlbiPort where
  who : HubAgent
  part : Nat
deriving DecidableEq, Repr

/-- A block's name: partition, launch ID, linear block index (R345, R397). -/
structure Key where
  part : Nat
  grid : Nat
  blk  : Nat
deriving DecidableEq, Repr

/-- A fragment named by its block, its party and one lane it holds (lane 0 for the MCC). -/
structure FragRef where
  key  : Key
  who  : Who
  lane : Nat
deriving DecidableEq, Repr

/-- A register name of the pending set of R60. -/
inductive RegName where
  | v (n : Nat)
  | s (n : Nat)
  | p (n : Nat)
deriving DecidableEq, Repr

/-- Which waiting posted access an event acts on: a stream access, a RED of a pool, a `.mr` entry (R143). -/
inductive Posted where
  | stream
  | red
  | redm
deriving DecidableEq, Repr

/-- What a check of storage finds (R292, R293, R324). -/
inductive Finding where
  | clean
  | corrected
  | uncorrectable
deriving DecidableEq, Repr

/-- A storage element of a block, or of its cluster's L1 by the number of its word in HBM, that carries a poison mark (R324). -/
inductive Element where
  | lane (warp reg lane : Nat)
  | uniform (who : Who) (reg : Nat)
  | scratch (word : Nat)
  | tile (t word : Nat)
  | acc (a word : Nat)
  | l1 (word : Nat)
deriving DecidableEq, Repr, Inhabited

/-- A partition register whose write R374 checks. -/
inductive PartReg where
  | ctl
  | clus (k : Nat)
  | pq
deriving DecidableEq, Repr

/-- A table: pairs of a number and a record, ascending. -/
abbrev Tab (α : Type) := List (Nat × α)

end Sys2Proof
end

