-- ==== Sys2Proof/Config.lean ====
section
/-! DEFINITION. What an implementation fixes and the spec leaves open: constants without a body. Nothing can be proved
about their values, so a statement that mentions one holds whatever the hardware does there. -/
namespace Sys2Proof.Config

/-- A 32-bit word of a context of R329 as the debug window shows it (R332, R372); `half`, `part` and `i` count words of a field, bytes
upwards, `n` counts records. -/
inductive CtxWord where
  /-- A storage element. -/
  | storage (e : Element)
  /-- Poison marks: of lanes of a register, of uniform registers, of 32 words of scratchpad, tile or accumulator. -/
  | poisV (warp reg half : Nat)
  | poisS (who : Who) (i : Nat)
  | poisScr (i : Nat)
  | poisTile (t i : Nat)
  | poisAcc (a i : Nat)
  /-- A predicate, the lanes that have exited, FMODE, the limits and OPT, the window. -/
  | pred (who : Who) (reg half : Nat)
  | exited (who : Who) (half : Nat)
  | fmode (who : Who)
  | limit (who : Who) (i : Nat)
  | window (who : Who)
  /-- A fragment: its lanes, PC, pending set, progress state and the record on which it is parked. -/
  | fragLanes (who : Who) (n half : Nat)
  | fragPc (who : Who) (n half : Nat)
  | fragPend (who : Who) (n i : Nat)
  | fragPrg (who : Who) (n i : Nat)
  | fragSeq (who : Who) (n : Nat)
  /-- A join record, a return-stack entry, a call record, the trap record, the arrival record. -/
  | join (who : Who) (n i : Nat)
  | ret (who : Who) (lane n half : Nat)
  | call (who : Who) (n i : Nat)
  | trap (who : Who) (i : Nat)
  | arrival (who : Who) (half : Nat)
  /-- CSLR, the pool, a waiting REGTAKE, the idempotent status. -/
  | cslr
  | pool
  | taker (n i : Nat)
  | idem
  /-- The address of a live barrier word, a gang barrier's GEN, a tile's shape record and counts, a channel, a ticket record, the
  address of a held access. -/
  | bar (n : Nat)
  | gangBar (n : Nat)
  | shape (t i : Nat)
  | chan (ch i : Nat)
  | ticket (n i : Nat)
  | heldVa (n half : Nat)
  /-- Padding, and what the model keeps no field for. -/
  | pad
deriving DecidableEq, Repr, Inhabited

/-- A free 64-bit value, applied to the counter State.fresh (log 6). -/
opaque freeValue : Nat → BitVec 64
/-- An element of a remote rank's SRC in a collective: by the collective's seed, the rank and the element (log 44). -/
opaque remoteValue : Nat → Nat → Nat → BitVec 64
/-- What HBM holds after the n-th change of HMAP.MODE: addresses and bytes (R281, log 30). -/
opaque scrambled : Nat → List (Nat × BitVec 8)
/-- The hash that names the L2 slice of a line within its die, by the value of HMAP, reduced to 128 where it is used (R281,
R291, log 16). -/
opaque slice : BitVec 32 → Nat → Nat
/-- 2 to an f32 power where R125 bounds the error and does not fix the bits (log 15). -/
opaque exp2 : BitVec 32 → BitVec 32
/-- Base-2 logarithm of an f32, inside the bound of R125 (log 15). -/
opaque log2 : BitVec 32 → BitVec 32
/-- Reciprocal of an f32, inside the bound of R125 (log 15). -/
opaque rcp : BitVec 32 → BitVec 32
/-- Reciprocal square root of an f32, inside the bound of R125 (log 15). -/
opaque rsq : BitVec 32 → BitVec 32
/-- Sine of an f32, inside the bound of R125 (log 15). -/
opaque sin : BitVec 32 → BitVec 32
/-- Cosine of an f32, inside the bound of R125 (log 15). -/
opaque cos : BitVec 32 → BitVec 32
/-- Hyperbolic tangent of an f32, inside the bound of R125 (log 15). -/
opaque tanh : BitVec 32 → BitVec 32
/-- Initial value of the flit CRC: R383 gives the polynomial only (log 17). -/
opaque crcInit : BitVec 16
/-- Value XORed onto the final flit CRC (log 17). -/
opaque crcXor : BitVec 16
/-- Whether the flit CRC takes the bits of a byte lowest first (log 17). -/
opaque crcReflect : Bool
/-- Whether the flit CRC takes the bytes from the highest down (log 17). -/
opaque crcBytesDown : Bool
/-- The Fenlink port through which a module is reached: the spec gives no topology (R383, log 17). -/
opaque linkPort : Nat → Nat
/-- Whether a flit for another module terminates at this one all the same (R383, log 17). -/
opaque linkEnds : Nat → Bool
/-- The partition in whose health record a finding of the patrol scrubber is logged (R293 names none, log 26). -/
opaque scrubPart : Nat → Nat
/-- The next access, address and bytes, that an instruction of RVA23 reads with, from the core's registers, its other control registers
by number, and what it has read so far: the spec names the profile only (R371, log 10). -/
opaque rvReads : List (BitVec 64) → List (Nat × BitVec 64) → List (BitVec 8) → Option (Nat × Nat)
/-- What such an instruction leaves: the registers, the control registers, what it stores and where, whether it is a fence of stores
(R371, log 10). -/
opaque rvRuns : List (BitVec 64) → List (Nat × BitVec 64) → List (BitVec 8) →
  List (BitVec 64) × List (Nat × BitVec 64) × List (Nat × List (BitVec 8)) × Bool
/-- The private exponent of an identity modulus: it never leaves the hub (R380, log 18). -/
opaque identityExponent : Nat → Nat
/-- The save layouts a firmware version accepts, the one it writes first: its release defines them (R332, R369, log 21). -/
opaque fwLayouts : BitVec 32 → List Nat
/-- The bytes of a save image's sections, which the layout's release defines (R332, log 21): image address and offset. -/
opaque imageByte : Nat → Nat → BitVec 8
/-- The bytes of the sections of a save image, reduced to the bound of R332 where it is used (log 21). -/
opaque imageSize : Nat → Nat
/-- What of a context stands in the word at a byte offset of the debug window: layout 0x0001 leaves the arrangement open (R332,
R372, log 21). -/
opaque windowElement : Nat → CtxWord
/-- The bytes of a peat log, by the name of the log and the offset (R350, log 25). -/
opaque peatByte : Nat → Nat → BitVec 8
/-- Entries a peat log of a size holds: R350 gives no size of an entry (log 25). -/
opaque peatCap : Nat → Nat

end Sys2Proof.Config
end

