-- ==== Sys2Proof/Syntax.lean ====
section
/-! DEFINITION. The instructions and steps of the Hyver 9: one constructor per row of spec/opcode_table.json, in its order.
Encoded rows carry the fields of their word (R55, R56, R63, R65, R367); event rows carry what the step acts on and what
the outside of the model decides in it. -/
namespace Sys2Proof

/-- Every row of the opcode table. `s` is the switch marker (R60), `g` the guard (R74); the other letters are the fields
of the row in the order of its bits. -/
inductive Instr where
  /-- NOP (R58). The all-zero word, or the word with only the switch marker set, does nothing. -/
  | nop (s : BitVec 1)
  /-- IADD (R77). Adds the B operand to vA with wrap-around in each lane that takes effect. -/
  | iadd (s : BitVec 1) (g : BitVec 2) (d : BitVec 6) (a : BitVec 6) (b : BitVec 6) (u : BitVec 1)
  /-- IADD_SAT (R77). Adds with signed or unsigned saturation, selected by F. -/
  | iaddSat (s : BitVec 1) (g : BitVec 2) (d : BitVec 6) (a : BitVec 6) (b : BitVec 6) (u : BitVec 1) (t : BitVec 2)
  /-- ISUB (R77). Subtracts the B operand from vA with wrap-around. -/
  | isub (s : BitVec 1) (g : BitVec 2) (d : BitVec 6) (a : BitVec 6) (b : BitVec 6) (u : BitVec 1)
  /-- ISUB_SAT (R77). Subtracts with signed or unsigned saturation. -/
  | isubSat (s : BitVec 1) (g : BitVec 2) (d : BitVec 6) (a : BitVec 6) (b : BitVec 6) (u : BitVec 1) (t : BitVec 2)
  /-- IADD_IMM (R77). Adds a sign-extended immediate, or the LIMM value, to vA. -/
  | iaddImm (s : BitVec 1) (g : BitVec 2) (d : BitVec 6) (a : BitVec 6) (i : BitVec 10)
  /-- IMUL (R77). Writes the low word of the product of vA and B. -/
  | imul (s : BitVec 1) (g : BitVec 2) (d : BitVec 6) (a : BitVec 6) (b : BitVec 6) (u : BitVec 1)
  /-- IMULH (R77). Writes the high word of the signed or unsigned product. -/
  | imulh (s : BitVec 1) (g : BitVec 2) (d : BitVec 6) (a : BitVec 6) (b : BitVec 6) (u : BitVec 1) (t : BitVec 2)
  /-- IMAD (R77). Writes the low word of vA times vB plus vC in every active lane. -/
  | imad (s : BitVec 1) (d : BitVec 6) (a : BitVec 6) (b : BitVec 6) (c : BitVec 6)
  /-- IMIN (R77). Writes the lesser of vA and B as i32 or n32. -/
  | imin (s : BitVec 1) (g : BitVec 2) (d : BitVec 6) (a : BitVec 6) (b : BitVec 6) (u : BitVec 1) (t : BitVec 1)
  /-- IMAX (R77). Writes the greater of vA and B as i32 or n32. -/
  | imax (s : BitVec 1) (g : BitVec 2) (d : BitVec 6) (a : BitVec 6) (b : BitVec 6) (u : BitVec 1) (t : BitVec 1)
  /-- IABS (R77). Writes the absolute value of vA modulo 2^32. -/
  | iabs (s : BitVec 1) (g : BitVec 2) (d : BitVec 6) (a : BitVec 6)
  /-- IABS_SAT (R77). Writes the saturated absolute value of vA. -/
  | iabsSat (s : BitVec 1) (g : BitVec 2) (d : BitVec 6) (a : BitVec 6)
  /-- RNDH (R84). Writes the counter-based hash of counter vA under key B. -/
  | rndh (s : BitVec 1) (g : BitVec 2) (d : BitVec 6) (a : BitVec 6) (b : BitVec 6) (u : BitVec 1)
  /-- AND (R78). Bitwise AND of vA and B. -/
  | andL (s : BitVec 1) (g : BitVec 2) (d : BitVec 6) (a : BitVec 6) (b : BitVec 6) (u : BitVec 1)
  /-- OR (R78). Bitwise OR of vA and B. -/
  | orL (s : BitVec 1) (g : BitVec 2) (d : BitVec 6) (a : BitVec 6) (b : BitVec 6) (u : BitVec 1)
  /-- XOR (R78). Bitwise XOR of vA and B. -/
  | xorL (s : BitVec 1) (g : BitVec 2) (d : BitVec 6) (a : BitVec 6) (b : BitVec 6) (u : BitVec 1)
  /-- ANDN (R78). Bitwise vA AND NOT B. -/
  | andn (s : BitVec 1) (g : BitVec 2) (d : BitVec 6) (a : BitVec 6) (b : BitVec 6) (u : BitVec 1)
  /-- SHL (R79). Shifts vA left by the whole count N(B). -/
  | shl (s : BitVec 1) (g : BitVec 2) (d : BitVec 6) (a : BitVec 6) (b : BitVec 6) (u : BitVec 1)
  /-- SHR (R79). Shifts vA right logically by N(B). -/
  | shr (s : BitVec 1) (g : BitVec 2) (d : BitVec 6) (a : BitVec 6) (b : BitVec 6) (u : BitVec 1)
  /-- SAR (R79). Shifts vA right arithmetically by N(B). -/
  | sar (s : BitVec 1) (g : BitVec 2) (d : BitVec 6) (a : BitVec 6) (b : BitVec 6) (u : BitVec 1)
  /-- ROL (R79). Rotates vA left by N(B) modulo 32. -/
  | rol (s : BitVec 1) (g : BitVec 2) (d : BitVec 6) (a : BitVec 6) (b : BitVec 6) (u : BitVec 1)
  /-- SHL_IMM (R79). Shifts vA left by an immediate count 0 to 31. -/
  | shlImm (s : BitVec 1) (g : BitVec 2) (d : BitVec 6) (a : BitVec 6) (c : BitVec 5)
  /-- SHR_IMM (R79). Shifts vA right logically by an immediate count. -/
  | shrImm (s : BitVec 1) (g : BitVec 2) (d : BitVec 6) (a : BitVec 6) (c : BitVec 5)
  /-- SAR_IMM (R79). Shifts vA right arithmetically by an immediate count. -/
  | sarImm (s : BitVec 1) (g : BitVec 2) (d : BitVec 6) (a : BitVec 6) (c : BitVec 5)
  /-- ROL_IMM (R79). Rotates vA left by an immediate count. -/
  | rolImm (s : BitVec 1) (g : BitVec 2) (d : BitVec 6) (a : BitVec 6) (c : BitVec 5)
  /-- POPC (R80). Counts the one bits of vA. -/
  | popc (s : BitVec 1) (g : BitVec 2) (d : BitVec 6) (a : BitVec 6)
  /-- CLZ (R80). Counts the leading zero bits of vA. -/
  | clz (s : BitVec 1) (g : BitVec 2) (d : BitVec 6) (a : BitVec 6)
  /-- BREV (R80). Reverses the bit order of vA. -/
  | brev (s : BitVec 1) (g : BitVec 2) (d : BitVec 6) (a : BitVec 6)
  /-- BFX (R81). Extracts a bit field of vA, zero- or sign-extended, under control word K. -/
  | bfx (s : BitVec 1) (g : BitVec 2) (d : BitVec 6) (a : BitVec 6) (b : BitVec 6) (u : BitVec 1) (t : BitVec 1)
  /-- BFI (R81). Inserts a field of vB into vA under control word vC. -/
  | bfi (s : BitVec 1) (d : BitVec 6) (a : BitVec 6) (b : BitVec 6) (c : BitVec 6)
  /-- PRMB (R82). Builds each result byte from a chosen source byte, copied or widened from q4. -/
  | prmb (s : BitVec 1) (d : BitVec 6) (a : BitVec 6) (b : BitVec 6) (c : BitVec 6)
  /-- LEA (R83). Forms the 64-bit address vdA plus the sign-extended index shifted by F. -/
  | lea (s : BitVec 1) (g : BitVec 2) (d : BitVec 6) (a : BitVec 6) (b : BitVec 6) (u : BitVec 1) (h : BitVec 3)
  /-- ICMP (R85). Writes a predicate with an integer comparison of vA and B. -/
  | icmp (s : BitVec 1) (g : BitVec 2) (t : BitVec 2) (p : BitVec 2) (a : BitVec 6) (b : BitVec 6) (u : BitVec 1) (c : BitVec 3)
  /-- SEL (R86). Writes vA or B according to a selecting predicate. -/
  | sel (s : BitVec 1) (g : BitVec 2) (d : BitVec 6) (a : BitVec 6) (b : BitVec 6) (u : BitVec 1) (p : BitVec 2)
  /-- PLOG (R87). Combines two predicates with AND, OR, XOR or ANDN. -/
  | plog (s : BitVec 1) (g : BitVec 2) (d : BitVec 2) (a : BitVec 2) (b : BitVec 2) (o : BitVec 2)
  /-- PMOV_GET (R88). Copies all predicates into a lane register. -/
  | pmovGet (s : BitVec 1) (g : BitVec 2) (d : BitVec 6)
  /-- PMOV_PUT (R88). Sets p1 to p3 from bits of a lane register. -/
  | pmovPut (s : BitVec 1) (g : BitVec 2) (a : BitVec 6)
  /-- MOV (R89). Copies a lane register. -/
  | mov (s : BitVec 1) (g : BitVec 2) (d : BitVec 6) (b : BitVec 6)
  /-- MOVS (R89). Broadcasts a uniform register s0-s63 into lanes. -/
  | movs (s : BitVec 1) (g : BitVec 2) (d : BitVec 6) (b : BitVec 6)
  /-- MOV_IMM (R89). Writes a sign-extended immediate or LIMM value into lanes. -/
  | movImm (s : BitVec 1) (g : BitVec 2) (d : BitVec 6) (i : BitVec 10)
  /-- VSRD (R90). Reads a per-lane special register such as LANE or TID. -/
  | vsrd (s : BitVec 1) (g : BitVec 2) (d : BitVec 6) (n : BitVec 8)
  /-- FADD (R122). Adds in f32 with one rounding. -/
  | fadd (s : BitVec 1) (g : BitVec 2) (d : BitVec 6) (a : BitVec 6) (b : BitVec 6) (u : BitVec 1)
  /-- FSUB (R122). Subtracts in f32 with one rounding. -/
  | fsub (s : BitVec 1) (g : BitVec 2) (d : BitVec 6) (a : BitVec 6) (b : BitVec 6) (u : BitVec 1)
  /-- FMUL (R122). Multiplies in f32 with one rounding. -/
  | fmul (s : BitVec 1) (g : BitVec 2) (d : BitVec 6) (a : BitVec 6) (b : BitVec 6) (u : BitVec 1)
  /-- FFMA (R122). Fused multiply-add in f32 with one rounding. -/
  | ffma (s : BitVec 1) (d : BitVec 6) (a : BitVec 6) (b : BitVec 6) (c : BitVec 6)
  /-- FMIN (R122). f32 minimumNumber. -/
  | fmin (s : BitVec 1) (g : BitVec 2) (d : BitVec 6) (a : BitVec 6) (b : BitVec 6) (u : BitVec 1)
  /-- FMAX (R122). f32 maximumNumber. -/
  | fmax (s : BitVec 1) (g : BitVec 2) (d : BitVec 6) (a : BitVec 6) (b : BitVec 6) (u : BitVec 1)
  /-- FSCL (R122). Scales vA by 2 to the power of the i32 B. -/
  | fscl (s : BitVec 1) (g : BitVec 2) (d : BitVec 6) (a : BitVec 6) (b : BitVec 6) (u : BitVec 1)
  /-- FCMP (R124). Writes a predicate with an f32 comparison. -/
  | fcmp (s : BitVec 1) (g : BitVec 2) (p : BitVec 2) (a : BitVec 6) (b : BitVec 6) (u : BitVec 1) (c : BitVec 3)
  /-- HCMP2 (R124). Writes two predicates with comparisons of f16 or bf16 pairs. -/
  | hcmp2 (s : BitVec 1) (g : BitVec 2) (t : BitVec 2) (p : BitVec 2) (a : BitVec 6) (b : BitVec 6) (u : BitVec 1) (c : BitVec 3)
  /-- FRND (R122). Rounds vA to an integral f32 by the mode in F. -/
  | frnd (s : BitVec 1) (g : BitVec 2) (d : BitVec 6) (a : BitVec 6) (r : BitVec 2)
  /-- HADD2 (R123). Adds packed half pairs. -/
  | hadd2 (s : BitVec 1) (g : BitVec 2) (d : BitVec 6) (a : BitVec 6) (b : BitVec 6) (u : BitVec 1) (h : BitVec 1)
  /-- HMUL2 (R123). Multiplies packed half pairs. -/
  | hmul2 (s : BitVec 1) (g : BitVec 2) (d : BitVec 6) (a : BitVec 6) (b : BitVec 6) (u : BitVec 1) (h : BitVec 1)
  /-- HMIN2 (R123). Minimum of packed half pairs. -/
  | hmin2 (s : BitVec 1) (g : BitVec 2) (d : BitVec 6) (a : BitVec 6) (b : BitVec 6) (u : BitVec 1) (h : BitVec 1)
  /-- HMAX2 (R123). Maximum of packed half pairs. -/
  | hmax2 (s : BitVec 1) (g : BitVec 2) (d : BitVec 6) (a : BitVec 6) (b : BitVec 6) (u : BitVec 1) (h : BitVec 1)
  /-- HFMA2 (R123). Fused multiply-add of f16 pairs. -/
  | hfma2 (s : BitVec 1) (d : BitVec 6) (a : BitVec 6) (b : BitVec 6) (c : BitVec 6)
  /-- HFMA2_BF16 (R123). Fused multiply-add of bf16 pairs. -/
  | hfma2Bf16 (s : BitVec 1) (d : BitVec 6) (a : BitVec 6) (b : BitVec 6) (c : BitVec 6)
  /-- EXP2 (R125). Base-2 exponential. -/
  | exp2 (s : BitVec 1) (g : BitVec 2) (d : BitVec 6) (a : BitVec 6)
  /-- LOG2 (R125). Base-2 logarithm. -/
  | log2 (s : BitVec 1) (g : BitVec 2) (d : BitVec 6) (a : BitVec 6)
  /-- RCP (R125). Reciprocal. -/
  | rcp (s : BitVec 1) (g : BitVec 2) (d : BitVec 6) (a : BitVec 6)
  /-- RSQ (R125). Reciprocal square root. -/
  | rsq (s : BitVec 1) (g : BitVec 2) (d : BitVec 6) (a : BitVec 6)
  /-- SQRT (R125). Correctly rounded square root. -/
  | sqrt (s : BitVec 1) (g : BitVec 2) (d : BitVec 6) (a : BitVec 6)
  /-- SIN (R125). Sine. -/
  | sin (s : BitVec 1) (g : BitVec 2) (d : BitVec 6) (a : BitVec 6)
  /-- COS (R125). Cosine. -/
  | cos (s : BitVec 1) (g : BitVec 2) (d : BitVec 6) (a : BitVec 6)
  /-- TANH (R125). Hyperbolic tangent. -/
  | tanh (s : BitVec 1) (g : BitVec 2) (d : BitVec 6) (a : BitVec 6)
  /-- CVT (R128). Converts between float and integer types with the rounding in F. -/
  | cvt (s : BitVec 1) (g : BitVec 2) (d : BitVec 6) (a : BitVec 6) (x : BitVec 3) (y : BitVec 3) (r : BitVec 3)
  /-- CVTH2 (R129). Rounds two f32 values into an f16 or bf16 pair. -/
  | cvth2 (s : BitVec 1) (g : BitVec 2) (d : BitVec 6) (a : BitVec 6) (b : BitVec 6) (u : BitVec 1) (h : BitVec 1)
  /-- CVTH2_WIDEN (R129). Widens an f16 or bf16 pair exactly into a register pair of f32. -/
  | cvth2Widen (s : BitVec 1) (g : BitVec 2) (d : BitVec 6) (a : BitVec 6) (h : BitVec 1)
  /-- CVTQ (R134). Quantises lanes through a format slot, with optional Hadamard transform. -/
  | cvtq (s : BitVec 1) (g : BitVec 2) (d : BitVec 6) (a : BitVec 6) (n : BitVec 3)
  /-- CVTD (R135). Dequantises a slot-format code to its exact f32 value. -/
  | cvtd (s : BitVec 1) (g : BitVec 2) (d : BitVec 6) (a : BitVec 6) (n : BitVec 3)
  /-- MONO (R137). Writes the monotone integer image of a float. -/
  | mono (s : BitVec 1) (g : BitVec 2) (d : BitVec 6) (a : BitVec 6) (t : BitVec 2)
  /-- MONOI (R137). Inverts the monotone integer image. -/
  | monoi (s : BitVec 1) (g : BitVec 2) (d : BitVec 6) (a : BitVec 6) (t : BitVec 2)
  /-- DP4 (R136). Accumulates a four-element q8 dot product as i32 or f32. -/
  | dp4 (s : BitVec 1) (g : BitVec 2) (d : BitVec 6) (a : BitVec 6) (b : BitVec 6) (u : BitVec 1) (t : BitVec 1)
  /-- DP8 (R136). Accumulates an eight-element q4 dot product as i32 or f32. -/
  | dp8 (s : BitVec 1) (g : BitVec 2) (d : BitVec 6) (a : BitVec 6) (b : BitVec 6) (u : BitVec 1) (t : BitVec 1)
  /-- DP2H (R136). Accumulates a two-element f16 dot product into f32. -/
  | dp2h (s : BitVec 1) (g : BitVec 2) (d : BitVec 6) (a : BitVec 6) (b : BitVec 6) (u : BitVec 1)
  /-- DP4E_E4M3 (R136). Accumulates a four-element e4m3 dot product into f32. -/
  | dp4eE4m3 (s : BitVec 1) (g : BitVec 2) (d : BitVec 6) (a : BitVec 6) (b : BitVec 6) (u : BitVec 1)
  /-- DP4E_E5M2 (R136). Accumulates a four-element e5m2 dot product into f32. -/
  | dp4eE5m2 (s : BitVec 1) (g : BitVec 2) (d : BitVec 6) (a : BitVec 6) (b : BitVec 6) (u : BitVec 1)
  /-- DP2H_BF16 (R136). Accumulates a two-element bf16 dot product into f32. -/
  | dp2hBf16 (s : BitVec 1) (g : BitVec 2) (d : BitVec 6) (a : BitVec 6) (b : BitVec 6) (u : BitVec 1)
  /-- SHFL (R108). Reads vA from another participant lane by idx, up, down or xor. -/
  | shfl (s : BitVec 1) (g : BitVec 2) (d : BitVec 6) (a : BitVec 6) (b : BitVec 6) (u : BitVec 1) (m : BitVec 2)
  /-- VOTE_ANY (R109). Writes the OR of a predicate over participants. -/
  | voteAny (s : BitVec 1) (g : BitVec 2) (d : BitVec 2) (p : BitVec 2)
  /-- VOTE_ALL (R109). Writes the AND of a predicate over participants. -/
  | voteAll (s : BitVec 1) (g : BitVec 2) (d : BitVec 2) (p : BitVec 2)
  /-- VOTE_BALLOT (R109). Writes the bit mask of participants whose predicate is true. -/
  | voteBallot (s : BitVec 1) (g : BitVec 2) (d : BitVec 6) (p : BitVec 2)
  /-- WRED (R110). Reduces vA over participants in a fixed pairing tree. -/
  | wred (s : BitVec 1) (g : BitVec 2) (d : BitVec 6) (a : BitVec 6) (o : BitVec 2)
  /-- WSCAN (R110). Inclusive scan of vA over participants in ascending order. -/
  | wscan (s : BitVec 1) (g : BitVec 2) (d : BitVec 6) (a : BitVec 6) (o : BitVec 2)
  /-- MATCH (R111). Writes the mask of participants holding an equal vA. -/
  | matchL (s : BitVec 1) (g : BitVec 2) (d : BitVec 6) (a : BitVec 6)
  /-- BRL (R100). Branches the lanes whose guard holds, possibly splitting the fragment. -/
  | brl (s : BitVec 1) (g : BitVec 2) (o : BitVec 22)
  /-- JSET (R101). Allocates a join record with reconvergence PC and join mask. -/
  | jset (s : BitVec 1) (g : BitVec 2) (o : BitVec 22)
  /-- LCALL (R100). Pushes a return address and branches in lanes whose guard holds. -/
  | lcall (s : BitVec 1) (g : BitVec 2) (o : BitVec 22)
  /-- JOIN (R102). Waits for results and arrives at the matching join record, reconverging when complete. -/
  | join (s : BitVec 1)
  /-- LRET (R100). Pops each active lane's return stack and branches. -/
  | lret (s : BitVec 1)
  /-- LDG (R144). Loads from global memory per lane in a stream. -/
  | ldg (s : BitVec 1) (g : BitVec 2) (d : BitVec 6) (a : BitVec 6) (t : BitVec 4) (p : BitVec 2) (w : BitVec 4)
  /-- STG (R144). Posts a store to global memory per lane in a stream. -/
  | stg (s : BitVec 1) (g : BitVec 2) (d : BitVec 6) (a : BitVec 6) (t : BitVec 4) (p : BitVec 2) (w : BitVec 4)
  /-- LDS (R144). Loads from the block's scratchpad per lane. -/
  | lds (s : BitVec 1) (g : BitVec 2) (d : BitVec 6) (a : BitVec 6) (t : BitVec 4) (w : BitVec 4)
  /-- STS (R144). Posts a store to the block's scratchpad per lane. -/
  | sts (s : BitVec 1) (g : BitVec 2) (d : BitVec 6) (a : BitVec 6) (t : BitVec 4) (w : BitVec 4)
  /-- LDC (R144). Loads from the launch's constant segment per lane. -/
  | ldc (s : BitVec 1) (g : BitVec 2) (d : BitVec 6) (a : BitVec 6) (t : BitVec 4) (p : BitVec 2) (w : BitVec 4)
  /-- ATOM (R149). Performs an atomic read-modify-write at the L2 bank per lane, returning the old value. -/
  | atom (s : BitVec 1) (g : BitVec 2) (d : BitVec 6) (a : BitVec 6) (t : BitVec 4) (o : BitVec 4)
  /-- ACAS (R150). Atomic compare-and-swap per lane, setting a success predicate. -/
  | acas (s : BitVec 1) (g : BitVec 2) (d : BitVec 6) (a : BitVec 6) (t : BitVec 4) (p : BitVec 2) (w : BitVec 1)
  /-- RED (R152). Posts a reduction into the cluster's combining buffer. -/
  | red (s : BitVec 1) (g : BitVec 2) (d : BitVec 6) (a : BitVec 6) (t : BitVec 4) (o : BitVec 4)
  /-- REDM (R153). Posts a reduction to the memory-side unit on the .mr path. -/
  | redm (s : BitVec 1) (g : BitVec 2) (d : BitVec 6) (a : BitVec 6) (o : BitVec 4)
  /-- PFG (R146). Prefetches a line towards the cluster without faulting. -/
  | pfg (s : BitVec 1) (g : BitVec 2) (a : BitVec 6) (p : BitVec 2)
  /-- ZLINE (R147). Posts a store of 128 zero bytes that sets the line's Z flag. -/
  | zline (s : BitVec 1) (g : BitVec 2) (a : BitVec 6) (t : BitVec 4) (p : BitVec 2)
  /-- TFILL (R175). Writes counted words from lanes into a tile under its fill state. -/
  | tfill (s : BitVec 1) (g : BitVec 2) (k : BitVec 3) (a : BitVec 6) (b : BitVec 6) (u : BitVec 1) (w : BitVec 2)
  /-- ADRAIN (R179). Reads accumulator elements into lanes once the accumulator's count is zero. -/
  | adrain (s : BitVec 1) (g : BitVec 2) (d : BitVec 6) (a : BitVec 6) (b : BitVec 6) (w : BitVec 2)
  /-- REP (R64). Prefix that issues the next word N times with stepped register fields. -/
  | rep (n : BitVec 6) (w : BitVec 1) (x : BitVec 1) (y : BitVec 1) (z : BitVec 1) (s : BitVec 4)
  /-- LIMM (R65). Prefix that supplies a sign-extended 24-bit immediate to the next word. -/
  | limm (i : BitVec 24)
  /-- SADD (R92). Uniform add. -/
  | sadd (s : BitVec 1) (d : BitVec 7) (a : BitVec 7) (b : BitVec 7)
  /-- SSUB (R92). Uniform subtract. -/
  | ssub (s : BitVec 1) (d : BitVec 7) (a : BitVec 7) (b : BitVec 7)
  /-- SADD_IMM (R92). Uniform add of an immediate. -/
  | saddImm (s : BitVec 1) (d : BitVec 7) (a : BitVec 7) (i : BitVec 10)
  /-- SMUL (R92). Uniform multiply, low word. -/
  | smul (s : BitVec 1) (d : BitVec 7) (a : BitVec 7) (b : BitVec 7)
  /-- SMULH (R92). Uniform multiply, high word signed or unsigned. -/
  | smulh (s : BitVec 1) (d : BitVec 7) (a : BitVec 7) (b : BitVec 7) (t : BitVec 2)
  /-- SAND (R92). Uniform bitwise AND. -/
  | sand (s : BitVec 1) (d : BitVec 7) (a : BitVec 7) (b : BitVec 7)
  /-- SOR (R92). Uniform bitwise OR. -/
  | sor (s : BitVec 1) (d : BitVec 7) (a : BitVec 7) (b : BitVec 7)
  /-- SXOR (R92). Uniform bitwise XOR. -/
  | sxor (s : BitVec 1) (d : BitVec 7) (a : BitVec 7) (b : BitVec 7)
  /-- SSHL (R92). Uniform shift left. -/
  | sshl (s : BitVec 1) (d : BitVec 7) (a : BitVec 7) (b : BitVec 7)
  /-- SSHR (R92). Uniform logical shift right. -/
  | sshr (s : BitVec 1) (d : BitVec 7) (a : BitVec 7) (b : BitVec 7)
  /-- SSAR (R92). Uniform arithmetic shift right. -/
  | ssar (s : BitVec 1) (d : BitVec 7) (a : BitVec 7) (b : BitVec 7)
  /-- SSHL_IMM (R92). Uniform shift left by an immediate count. -/
  | sshlImm (s : BitVec 1) (d : BitVec 7) (a : BitVec 7) (c : BitVec 5)
  /-- SSHR_IMM (R92). Uniform logical shift right by an immediate count. -/
  | sshrImm (s : BitVec 1) (d : BitVec 7) (a : BitVec 7) (c : BitVec 5)
  /-- SSAR_IMM (R92). Uniform arithmetic shift right by an immediate count. -/
  | ssarImm (s : BitVec 1) (d : BitVec 7) (a : BitVec 7) (c : BitVec 5)
  /-- SMIN (R92). Uniform minimum as i32 or n32. -/
  | smin (s : BitVec 1) (d : BitVec 7) (a : BitVec 7) (b : BitVec 7) (t : BitVec 1)
  /-- SMAX (R92). Uniform maximum as i32 or n32. -/
  | smax (s : BitVec 1) (d : BitVec 7) (a : BitVec 7) (b : BitVec 7) (t : BitVec 1)
  /-- SCMP (R92). Writes 1 or 0 to a uniform register by comparison. -/
  | scmp (s : BitVec 1) (d : BitVec 7) (a : BitVec 7) (b : BitVec 7) (c : BitVec 3)
  /-- SSEL (R92). Selects sA or B by the value of sD. -/
  | ssel (s : BitVec 1) (d : BitVec 7) (a : BitVec 7) (b : BitVec 7)
  /-- SMOV (R92). Copies a uniform register. -/
  | smov (s : BitVec 1) (d : BitVec 7) (a : BitVec 7)
  /-- SPOPC (R92). Uniform population count. -/
  | spopc (s : BitVec 1) (d : BitVec 7) (a : BitVec 7)
  /-- SCLZ (R92). Uniform count of leading zeros. -/
  | sclz (s : BitVec 1) (d : BitVec 7) (a : BitVec 7)
  /-- SMOVL (R93). Sets a uniform register to a zero-extended 16-bit immediate. -/
  | smovl (s : BitVec 1) (d : BitVec 7) (i : BitVec 16)
  /-- SMOVH (R93). Sets the upper half of a uniform register, keeping the lower. -/
  | smovh (s : BitVec 1) (d : BitVec 7) (i : BitVec 16)
  /-- SRD (R94). Reads a special register into uniform registers. -/
  | srd (s : BitVec 1) (d : BitVec 7) (n : BitVec 8)
  /-- SWR (R94). Writes a writable special register from uniform registers. -/
  | swr (s : BitVec 1) (a : BitVec 7) (n : BitVec 8)
  /-- BRA (R98). Branches the fragment to a fetch-block target. -/
  | bra (s : BitVec 1) (o : BitVec 24)
  /-- BRC (R98). Branches the fragment when a uniform register compares with zero as COND says. -/
  | brc (s : BitVec 1) (c : BitVec 4) (a : BitVec 7) (o : BitVec 13)
  /-- CALL (R98). Pushes the return address in each active lane and branches. -/
  | call (s : BitVec 1) (o : BitVec 24)
  /-- RET (R98). Pops each lane's return stack and branches. -/
  | ret (s : BitVec 1)
  /-- JMPI (R98). Branches to an address held in a uniform pair, after page and alignment checks. -/
  | jmpi (s : BitVec 1) (a : BitVec 7)
  /-- EXIT (R104). Ends the fragment's lanes, or the MCC's matrix program. -/
  | exit (s : BitVec 1)
  /-- YIELD (R105). Parks the fragment at a pre-emption point when YR is set. -/
  | yield (s : BitVec 1)
  /-- YIELD_LY (R105). Parks the fragment at a pre-emption and phase point when YR or LY is set. -/
  | yieldLy (s : BitVec 1)
  /-- PAUSE (R106). Stops the fragment issuing for n to n+64 cycles. -/
  | pause (s : BitVec 1) (i : BitVec 10)
  /-- BAR (R155). Arrives at a block barrier and waits for its opening. -/
  | bar (s : BitVec 1) (a : BitVec 7) (i : BitVec 10)
  /-- BARA (R155). Reads GEN and arrives at a block barrier without waiting. -/
  | bara (s : BitVec 1) (d : BitVec 7) (a : BitVec 7) (i : BitVec 10)
  /-- BARW (R155). Waits until the barrier's GEN differs from a given value. -/
  | barw (s : BitVec 1) (d : BitVec 7) (a : BitVec 7) (i : BitVec 10)
  /-- BARINIT (R155). Makes a scratchpad word a live barrier or resets its EXP. -/
  | barinit (s : BitVec 1) (d : BitVec 7) (a : BitVec 7) (i : BitVec 10)
  /-- GBAR (R161). Arrives at one of the gang's four barriers and waits. -/
  | gbar (s : BitVec 1) (n : BitVec 2)
  /-- WAITCMP (R162). Waits until a global word satisfies a comparison, registering in a monitor. -/
  | waitcmp (s : BitVec 1) (d : BitVec 7) (a : BitVec 7) (b : BitVec 7) (c : BitVec 3)
  /-- FENCE (R166). Orders the thread's accesses within named streams at a scope. -/
  | fence (s : BitVec 1) (k : BitVec 2) (sc : BitVec 3) (l : BitVec 1) (t : BitVec 4)
  /-- XFENCE (R168). Orders accesses between two streams or paths at a scope. -/
  | xfence (s : BitVec 1) (sc : BitVec 3) (x : BitVec 5) (y : BitVec 5)
  /-- SLD (R148). One uniform load from global memory. -/
  | sld (s : BitVec 1) (d : BitVec 7) (a : BitVec 7) (t : BitVec 4) (p : BitVec 2) (w : BitVec 3)
  /-- SST (R148). One posted uniform store to global memory. -/
  | sst (s : BitVec 1) (d : BitVec 7) (a : BitVec 7) (t : BitVec 4) (p : BitVec 2) (w : BitVec 3)
  /-- SATOM (R148). One uniform atomic to global memory. -/
  | satom (s : BitVec 1) (d : BitVec 7) (a : BitVec 7) (t : BitVec 4) (p : BitVec 2) (o : BitVec 3)
  /-- REGGIVE (R112). Moves register blocks from the warp's window to the block's pool and serves the FIFO. -/
  | reggive (s : BitVec 1) (n : BitVec 10)
  /-- REGTAKE (R112). Queues a request for register blocks from the pool and waits to be served. -/
  | regtake (s : BitVec 1) (n : BitVec 10)
  /-- AALLOC_N (R177). Holds and zeroes the named accumulator. -/
  | aallocN (s : BitVec 1) (d : BitVec 7) (n : BitVec 7)
  /-- AALLOC (R177). Holds and zeroes the lowest-numbered free accumulator. -/
  | aalloc (s : BitVec 1) (d : BitVec 7)
  /-- AFREE (R177). Frees an accumulator once its outstanding count is zero. -/
  | afree (s : BitVec 1) (a : BitVec 7)
  /-- TCFG (R172). Writes an EMPTY tile's shape record and clears its fill count. -/
  | tcfg (s : BitVec 1) (t : BitVec 3) (a : BitVec 7)
  /-- TLD (R180). Macro that loads tile rows from global memory, making the tile FULL. -/
  | tld (s : BitVec 1) (t : BitVec 3) (a : BitVec 7)
  /-- TST (R180). Macro that stores tile rows to global memory as a reader. -/
  | tst (s : BitVec 1) (t : BitVec 3) (a : BitVec 7)
  /-- TREL (R181). Releases a tile, emptying it or marking release pending. -/
  | trel (s : BitVec 1) (t : BitVec 3)
  /-- MMA (R184). Macro that dispatches K-groups of a tile product into an accumulator. -/
  | mma (s : BitVec 1) (n : BitVec 7) (a : BitVec 3) (b : BitVec 3) (z : BitVec 1) (v : BitVec 1) (x : BitVec 1) (y : BitVec 1) (w : BitVec 1)
  /-- MMAQ (R184). Macro that dispatches K-groups of a scaled quantised tile product. -/
  | mmaq (s : BitVec 1) (n : BitVec 7) (a : BitVec 3) (b : BitVec 3) (l : BitVec 3) (z : BitVec 1) (v : BitVec 1) (x : BitVec 1) (y : BitVec 1) (w : BitVec 1)
  /-- AZERO (R189). Sets every element of an accumulator to +0. -/
  | azero (s : BitVec 1) (d : BitVec 7)
  /-- ASCALE (R189). Multiplies every accumulator element by a uniform value. -/
  | ascale (s : BitVec 1) (d : BitVec 7) (a : BitVec 7)
  /-- MRED (R190). Reduces the rows or columns of an accumulator into another. -/
  | mred (s : BitVec 1) (d : BitVec 7) (a : BitVec 7) (o : BitVec 7) (c : BitVec 1)
  /-- MSYNC (R191). Holds the MCC until its accumulator operations have performed their last writes. -/
  | msync (s : BitVec 1)
  /-- CPA (R205). Checks and queues an asynchronous copy on a copy channel, writing its ticket. -/
  | cpa (s : BitVec 1) (d : BitVec 7) (a : BitVec 7) (f : BitVec 2)
  /-- CPWP (R210). Reads a copy channel's write pointer at one instant. -/
  | cpwp (s : BitVec 1) (d : BitVec 7) (c : BitVec 3)
  /-- GTH (R212). Macro that gathers indexed elements into scratchpad. -/
  | gth (s : BitVec 1) (a : BitVec 7)
  /-- SCT (R212). Macro that scatters scratchpad elements to indexed addresses. -/
  | sct (s : BitVec 1) (a : BitVec 7)
  /-- SELQ (R216). Macro that finds a weighted quantile by walking bit planes of the image. -/
  | selq (s : BitVec 1) (d : BitVec 7) (a : BitVec 7)
  /-- SELK (R216). Macro that finds the K-th largest value and marks the top K. -/
  | selk (s : BitVec 1) (d : BitVec 7) (a : BitVec 7)
  /-- CLV (R221). Checks and queues a collective operation on a collective channel. -/
  | clv (s : BitVec 1) (d : BitVec 7) (a : BitVec 7) (f : BitVec 2)
  /-- TKW (R201). Waits for a ticket to complete and raises any latched failure. -/
  | tkw (s : BitVec 1) (a : BitVec 7)
  /-- TKQ (R202). Reads a ticket's state, progress and failing element without waiting. -/
  | tkq (s : BitVec 1) (d : BitVec 7) (a : BitVec 7)
  /-- VCALL (R235). Selects an entry of a variant table under the limits and calls it. -/
  | vcall (s : BitVec 1) (d : BitVec 7) (a : BitVec 7) (b : BitVec 7)
  /-- VFORCE (R235). Calls a named entry of a variant table. -/
  | vforce (s : BitVec 1) (d : BitVec 7) (a : BitVec 7) (b : BitVec 7)
  /-- VRET (R240). Returns from a variant call, restores limits and posts a tag update. -/
  | vret (s : BitVec 1)
  /-- VRET_Q (R240). Returns from a variant call with a quality sample. -/
  | vretQ (s : BitVec 1) (a : BitVec 7)
  /-- VLIM (R232). Sets the axis to optimise and the other two limits. -/
  | vlim (s : BitVec 1) (a : BitVec 7) (b : BitVec 7) (x : BitVec 2)
  /-- VTAG (R244). Reads an entry's measured tags from a variant table. -/
  | vtag (s : BitVec 1) (d : BitVec 7) (a : BitVec 7) (b : BitVec 7)
  /-- VMETER (R244). Reads a call record's meters and effective limits. -/
  | vmeter (s : BitVec 1) (d : BitVec 7) (a : BitVec 7)
  /-- TRAP (R255). Raises TRAPI with an immediate to the trap handler. -/
  | trap (s : BitVec 1) (n : BitVec 16)
  /-- ERET (R252). Returns from the trap handler, restoring progress and pending state. -/
  | eret (s : BitVec 1) (r : BitVec 1) (x : BitVec 1)
  /-- BRK (R256). Freezes the cluster for a debugger, or raises BRKPT when debug is not armed. -/
  | brk (s : BitVec 1) (n : BitVec 16)
  /-- TRACE (R257). Posts a trace record when tracing is enabled. -/
  | trace (s : BitVec 1) (a : BitVec 7) (n : BitVec 9)
  /-- MBOX (R258). Releases at .sy and hands a 64-byte record to the Wisp mailbox, waiting for a slot. -/
  | mbox (s : BitVec 1) (a : BitVec 7)
  /-- SYSC (R259). Posts a system call to the host cores and waits for its reply. -/
  | sysc (s : BitVec 1) (a : BitVec 7) (n : BitVec 9)
  /-- LEASEQ (R260). Reads the boost lease state, clock and end time. -/
  | leaseq (s : BitVec 1) (d : BitVec 7)
  /-- RFETCH (R367). Lantern instruction that checks and copies a queue's head packet into core SRAM. -/
  | rfetch (t : BitVec 5) (s : BitVec 5) (d : BitVec 5)
  /-- BFXT (R367). Lantern instruction that extracts a bit field. -/
  | bfxt (t : BitVec 5) (s : BitVec 5) (d : BitVec 5)
  /-- SWAIT (R367). Lantern instruction that waits until a memory word reaches a value. -/
  | swait (t : BitVec 5) (s : BitVec 5) (d : BitVec 5)
  /-- DISP (R368). Lantern instruction that hands a placement descriptor to a die's placement unit. -/
  | disp (t : BitVec 5) (s : BitVec 5) (d : BitVec 5)
  /-- SWAIT_WAKE (R367). A waiting SWAIT re-reads its word after a write or poll and completes when satisfied. -/
  | swaitWake (n : Nat)
  /-- PERFORM (R271). An access at the head of its stream queues performs at its home and advances the stream clock. -/
  | performAcc (i : Nat) (found : Bool)
  /-- MERGE (R271). A RED leaves its pool and merges into a combining-buffer partial. -/
  | mergeRed (i : Nat)
  /-- FLUSH (R271). A combining-buffer partial is applied to memory at the home. -/
  | flushCb (i : Nat)
  /-- RUN (R271). The next element of an engine operation runs on its path. -/
  | runElem (op : Nat)
  /-- DRAIN (R271). A path-buffer write reaches memory. -/
  | drainPath (i : Nat)
  /-- EXPORT (R276). A device write becomes visible to system observers. -/
  | exportW (i : Nat)
  /-- IMPORT (R276). A host-core write reaches device memory. -/
  | importW (i : Nat)
  /-- POSTED_ACCESS_FAULT (R143). A posted access faults at translation after issue, holding its stream and parking the thread. -/
  | postedAccessFault (kind : Posted) (i : Nat)
  /-- CHANNEL_PLACE_FREED (R199). A fragment held at a full channel issues its operation once a place frees. -/
  | channelPlaceFreed (cluster ch : Nat)
  /-- CHARGE_PROCEED (R358). The head of a cluster's charge FIFO proceeds when the balance covers its cost, starting its element. -/
  | chargeProceed (cluster : Nat) (dup : Nat)
  /-- KGROUP_COMPLETE (R187). A dispatched K-group completes its writes, lowering the accumulator count and dropping readers. -/
  | kgroupComplete (key : Key)
  /-- TILE_WAIT_RESUME (R173). An operation held at a tile state is applied afresh when the state changes. -/
  | tileWaitResume (key : Key) (tile : Nat)
  /-- DRAIN_WAIT_RESUME (R179). An ADRAIN held by an outstanding count reads when the count reaches zero. -/
  | drainWaitResume (key : Key) (acc : Nat)
  /-- SELECTION_ENGINE_START (R213). A waiting SELQ or SELK starts when the cluster's selection engine becomes free. -/
  | selectionEngineStart (cluster : Nat)
  /-- WAVE_RELEASE (R158). A wave of barrier waiters is released GAP cycles after the previous one. -/
  | waveRelease (key : Key)
  /-- WAITCMP_WAKE (R162). A write reaching a watched word reschedules its waiters to re-read. -/
  | waitcmpWake (f : FragRef)
  /-- WAITCMP_POLL (R163). A polling WAITCMP re-reads its word when its interval expires. -/
  | waitcmpPoll (f : FragRef)
  /-- PAUSE_END (R106). A pausing fragment may issue again when its count has run out. -/
  | pauseEnd (f : FragRef)
  /-- WARP_FREE (R15). A draining warp becomes FREE when its last acknowledgement returns. -/
  | warpFree (key : Key) (warp : Nat)
  /-- BLOCK_END (R104). A block ends when its warps are FREE, its MCC has ended and its tickets are complete. -/
  | blockEnd (key : Key)
  /-- LAMPLIGHTER_UPDATE (R241). The Lamplighter applies a posted variant update to an entry's tags atomically. -/
  | lamplighterUpdate (i : Nat)
  /-- TRAP_ENTRY (R250). A parked fragment enters the handler when the trap record is free. -/
  | trapEntry (key : Key) (who : Who)
  /-- FAULT_RECORD_WRITE (R320). The lantern cores write a waiting fault record into the fault queue ring. -/
  | faultRecordWrite (part : Nat)
  /-- FRESUME_RETRY (R322). A host write of FRESUME with ACT 0 retries the parked party or held operation. -/
  | fresumeRetry (part : Nat) (seq : Word)
  /-- FRESUME_END_LAUNCH (R322). A host write of FRESUME with ACT 1 kills every block of the launch and completes it with fault status. -/
  | fresumeEndLaunch (part : Nat) (seq : Word)
  /-- BREAKPOINT_HIT (R341). A party about to issue a word at an enabled PC breakpoint stops before it. -/
  | breakpointHit (f : FragRef)
  /-- WATCHPOINT_HIT (R341). An access overlapping an enabled watch range stops before its instruction or element. -/
  | watchpointHit (f : FragRef)
  /-- FREEZE_SPREAD (R343). With BCAST, other clusters of the launch freeze at a boundary. -/
  | freezeSpread (part cluster : Nat)
  /-- DEBUG_WINDOW_WRITE (R372). A host write to the debug window selects a block or changes its frozen or saved context. -/
  | debugWindowWrite (part : Nat) (off : Nat) (val : DWord)
  /-- PC_SAMPLE (R346). At each sampling period a cluster samples one pipe and its MCC. -/
  | pcSample (cluster : Nat)
  /-- LAUNCH (R364). A LAUNCH packet places a bundle unit by unit. -/
  | launchPk (q : Nat)
  /-- GRAPH (R364). A GRAPH packet starts the walk of a device-resident graph. -/
  | graphPk (q : Nat)
  /-- SIGNAL (R364). A SIGNAL packet sets or adds to a 64-bit word with a .sy release. -/
  | signalPk (q : Nat)
  /-- WAIT (R364). A WAIT packet blocks its queue until a word reaches a value. -/
  | waitPk (q : Nat)
  /-- LEASE (R353). A LEASE packet requests a boost lease from the arbiter. -/
  | leasePk (q : Nat)
  /-- RESYNC (R369). A RESYNC packet writes a summary record of the partition. -/
  | resyncPk (q : Nat)
  /-- FWACT (R370). An FWACT packet verifies a firmware image and holds it pending activation. -/
  | fwactPk (q : Nat)
  /-- TIMEREC (R364). A TIMEREC packet stores DTIME at an address. -/
  | timerecPk (q : Nat)
  /-- WAIT_SIGNAL_FIRES (R299). A WAIT's word reaches its value, clearing BLK and ending the ticket loan. -/
  | waitSignalFires (q : Nat)
  /-- ARBITRATION_ROUND (R297). The partition takes the runnable queue with the lowest pass and performs one unit of its work. -/
  | arbitrationRound (part : Nat)
  /-- QUEUE_BECOMES_RUNNABLE (R298). A queue that becomes runnable takes a pass no lower than the lowest runnable pass. -/
  | queueBecomesRunnable (q : Nat)
  /-- TASK_QUEUE_PLACEMENT (R306). A cluster places the head entry of its task queue when it has capacity. -/
  | taskQueuePlacement (cluster : Nat)
  /-- BALANCING_EXCHANGE (R306). Every 256 fabric cycles neighbouring clusters move task entries to balance depths. -/
  | balancingExchange (die : Nat)
  /-- BUNDLE_START (R300). At the end of the first placement round the bundle's parts start and its copies are queued. -/
  | bundleStart (part grid : Nat)
  /-- LAUNCH_COMPLETION (R301). A launch completes with a .sy release and writes its time record, status and signal. -/
  | launchCompletion (part grid : Nat)
  /-- GRAPH_NODE_START (R302). A graph node starts when its predecessors have completed. -/
  | graphNodeStart (q node : Nat)
  /-- LOOP_CONDITION_READ (R303). A loop node reads its condition word and completes or issues its body again. -/
  | loopConditionRead (q node : Nat)
  /-- GRAPH_COMPLETION (R302). A graph completes and writes its status and signal. -/
  | graphCompletion (q : Nat)
  /-- FIRMWARE_ACTIVATION (R333). A held FWACT activates once no blocking save images remain, restarting the lantern cores. -/
  | firmwareActivation (part : Nat)
  /-- WARP_EXCHANGE (R311). An active warp waiting long is exchanged with the longest-ready pending warp. -/
  | warpExchange (cluster pipe : Nat)
  /-- PENDING_PROMOTION (R312). A pending warp ready for 4096 issue cycles is promoted at once. -/
  | pendingPromotion (cluster pipe : Nat)
  /-- PHASE_SLICE_EXPIRY (R314). A phase context's slice expires and its blocks are asked to yield at YIELD.ly. -/
  | phaseSliceExpiry (part : Nat)
  /-- PHASE_SWAP (R331). Once the resident set is halted and saved, every cluster exchanges it with the shadow set. -/
  | phaseSwap (part : Nat)
  /-- BLOCK_YIELD (R105). A block whose parties are all parked or blocked yields and is saved. -/
  | blockYield (key : Key)
  /-- FORCED_SAVE (R328). At the YDL deadline a block is halted and its context saved. -/
  | forcedSave (key : Key)
  /-- SAVED_UNIT_RESTORE (R396). The lantern cores restore a saved unit that may be restored, oldest first. -/
  | savedUnitRestore (part : Nat)
  /-- TIME_LIMIT_EXPIRY (R366). A launch not complete at TLIM is ended with FAULT and TLIMIT. -/
  | timeLimitExpiry (part grid : Nat)
  /-- PREEMPT_REQUEST (R326). A write of PRECTL.GO sets YREQ.YR in the targeted blocks and starts their deadlines. -/
  | preemptRequest (part : Nat) (val : Word)
  /-- QUEUE_RESET (R361). A write of QRST sets RPTR to WPTR and clears HALT and BLK. -/
  | queueReset (q : Nat) (val : DWord)
  /-- TLBI_PAGE (R287). A TLBICTL request of KIND 0 invalidates one page or contiguous group. -/
  | tlbiPage (port : TlbiPort) (asid : BitVec 10)
  /-- TLBI_REGION (R287). A TLBICTL request of KIND 1 invalidates a 512 MiB region. -/
  | tlbiRegion (port : TlbiPort) (asid : BitVec 10)
  /-- TLBI_ASID (R287). A TLBICTL request of KIND 2 invalidates a whole ASID. -/
  | tlbiAsid (port : TlbiPort) (asid : BitVec 10)
  /-- TLBI_PARTITION (R287). A TLBICTL request of KIND 3 invalidates every ASID of the partition. -/
  | tlbiPartition (port : TlbiPort) (asid : BitVec 10)
  /-- TLBI_COMPLETE (R287). An invalidation completes after the host writes are imported, clearing GO. -/
  | tlbiComplete (part : Nat)
  /-- SYSC_ENTRY_WRITE (R375). A waiting system call writes its entry into the system-call ring when room exists. -/
  | syscEntryWrite (part : Nat)
  /-- SCACT_REPLY (R375). A SCACT with ACT 0 delivers the reply words to the waiting fragment. -/
  | scactReply (part : Nat) (seq : Word)
  /-- SCACT_MARK_IO (R375). A SCACT with ACT 1 marks the call's wait as I/O. -/
  | scactMarkIo (part : Nat) (seq : Word)
  /-- SCACT_END_LAUNCH (R375). A SCACT with ACT 2 ends the launch. -/
  | scactEndLaunch (part : Nat) (seq : Word)
  /-- MAILBOX_RECORD_WRITE (R258). A waiting MBOX writes its record into a freed mailbox slot. -/
  | mailboxRecordWrite (part : Nat)
  /-- MAILBOX_HEAD_WRITE (R382). A host write of MBPOS.HEAD frees slots or is refused with ERR. -/
  | mailboxHeadWrite (part : Nat) (head : BitVec 16)
  /-- MEASEXT_WRITE (R379). A host write to MEASEXT extends MEAS9 with a digest. -/
  | measextWrite (digest : BitVec 256)
  /-- SVNRAISE_WRITE (R378). A host write to SVNRAISE raises the fused MINSVN. -/
  | svnraiseWrite (svn : Word)
  /-- ATTESTATION (R381). A write of ATTGO makes the hub write a signed attestation report. -/
  | attestation
  /-- PARTCTL_WRITE (R374). A host write to a partition's configuration is applied or refused with PARTERR. -/
  | partctlWrite (part : Nat) (reg : PartReg) (val : DWord)
  /-- HMAP_WRITE (R281). A host write to HMAP sets the interleave mode unless locked. -/
  | hmapWrite (val : Word)
  /-- REGISTER_WRITE (R373). A write to a hub register without behaviour of its own. -/
  | registerWrite (who : HubAgent) (addr : BitVec 48) (val : DWord)
  /-- LEASE_DECISION (R353). The arbiter grants or refuses a pending lease request. -/
  | leaseDecision (milliwatts : Nat)
  /-- LEASE_REVOCATION (R354). The arbiter notifies revocation of leases when module power exceeds 4.6 kW. -/
  | leaseRevocation (milliwatts : Nat)
  /-- LEASE_END (R354). A lease ends at its granted or notified end. -/
  | leaseEnd (part : Nat)
  /-- OPERATING_POINT_CHANGE (R352). The rails move to a new operating point within 10 µs. -/
  | operatingPointChange
  /-- ENERGY_APPORTION (R349). A cluster's energy meter is apportioned among resident blocks and DEVEACC. -/
  | energyApportion (cluster spent : Nat)
  /-- MODULE_RESET (R378). At reset the boot ROM verifies an image, loads its stages and starts the cores, or halts. -/
  | moduleReset
  /-- PATROL_SCRUB (R293). The scrubber reads and corrects each line of its stack once per period. -/
  | patrolScrub (sector : Nat) (found : Finding)
  /-- FLIT_RECEIVE (R383). A Fenlink flit is received, checked and delivered, replayed or dropped. -/
  | flitReceive (port : Nat) (hdr : DWord) (payload : BitVec 512)
  /-- LINK_RETRAIN_FAIL (R383). A Fenlink port that fails retraining is marked down. -/
  | linkRetrainFail (port : Nat)
  /-- DMA_REQUEST (R385). A PCIe endpoint DMA is translated by the IOMMU or refused. -/
  | dmaRequest (pa : Option Nat) (bytes : List Byte)
  /-- RESULT_RETURN (R60). An outstanding result of an issued instruction returns, and a stream parked at a switch marker resumes once its last result is in. -/
  | resultReturn (f : FragRef) (reg : RegName)
  /-- CURRENT_BUCKET_REFILL (R356). At the start of each fabric cycle BAL becomes min(65536, BAL + RATE) in every cluster. -/
  | currentBucketRefill
  /-- HOST_CORE_STORE (R276). A host-core store to device memory enters the import set Y, ordered by the host's own fences. -/
  | hostCoreStore (hart : Nat) (fenced : Bool) (pa : Nat) (bytes : List Byte)
  /-- COLLECTIVE_GROUP_ABORT (R225). System software aborts a collective group, and every rank's RUNNING ticket ends FAILED with ENGDESC at the chunk reached. -/
  | collectiveGroupAbort (part group : Nat)
  /-- FENLINK_PORT_TRAINED (R373). A Fenlink port completes training after it is enabled or after a loss, and FLCTL.UP becomes 1. -/
  | fenlinkPortTrained (port : Nat)
  /-- BACKGROUND_CHECK (R324). A background check of on-cluster storage finds an error, corrects it or marks the element poisoned, and logs it. -/
  | backgroundCheck (key : Key) (element : Element) (found : Finding)
  /-- LANTERN_INTERRUPT (R367). An interrupt is taken by a lantern core, and an SWAIT in progress leaves mepc at itself and waits afresh afterwards. -/
  | lanternInterrupt (n : Nat) (cause : DWord)
deriving DecidableEq, Repr

end Sys2Proof
end

