-- ==== Sys2Proof/WellFormed.lean ====
section
/-! DEFINITION. Which instruction terms are words of the opcode map: the limits on fields that R67, R68, R70 and the
instruction entries state and the field widths alone do not. A word that breaks one is not an instruction (R70: ILLOP). -/
namespace Sys2Proof

/-- An agent of the hub range is one of the 32 host cores or the 16 lantern cores (R1). -/
def HubAgent.wf : HubAgent → Bool
  | .host n => n < 32
  | .lantern n => n < 16

/-- A writer there is, and one of the 16 partitions (R2). -/
def TlbiPort.wf (t : TlbiPort) : Bool := t.who.wf && t.part < 16

/-- A field naming a pair holds an even number (R22). -/
def evenR {n : Nat} (x : BitVec n) : Bool := x.toNat % 2 == 0

/-- The data field of a load or store of width code w (R140): b64 even, b128 a multiple of four. -/
def dataOk (w d : Nat) : Bool :=
  if w == 5 then d % 2 == 0 else if w == 6 then d % 4 == 0 else true

/-- The width codes of lane stores (R67): b8, b16, b32, b64, b128. -/
def storeW (w : Nat) : Bool := w == 0 || w == 2 || w == 4 || w == 5 || w == 6

/-- TFILL and ADRAIN (R175, R179): width code 0 to 2, two registers even, four a multiple of four. -/
def groupOk (w r : Nat) : Bool :=
  w == 0 || (w == 1 && r % 2 == 0) || (w == 2 && r % 4 == 0)

/-- The assigned special registers (R29). -/
def srdOk (n : Nat) : Bool := n < 0x1B || (0x20 ≤ n && n < 0x28)

/-- The 64-bit special registers (R29): CYC, DTIME, PRG, PRGPC, PRGX and the slots. -/
def srdWide (n : Nat) : Bool :=
  n == 0x00 || n == 0x01 || n == 0x0E || n == 0x0F || n == 0x10 || (0x20 ≤ n && n < 0x28)

/-- The special registers marked RW in R29: PRG, PRGPC, PRGX, FMODE, CSLR. -/
def swrOk (n : Nat) : Bool := n == 0x0E || n == 0x0F || n == 0x10 || n == 0x11 || n == 0x1A

/-- The limits on the fields of each word, and on the numbers by which a step without a word names its agents: 16 partitions, lantern
cores and ports, 32 host cores, 256 clusters of 4 pipes and 12 channels, 4 dies, 4096 queues, 64 groups, the sectors of HBM (R1, R2,
R198, R219, R295, R309, R374). -/
def Instr.wf : Instr → Bool
  | .nop _ => true
  | .iadd _ _ _ _ _ _ => true
  | .iaddSat _ _ _ _ _ _ t => t == 1 || t == 2
  | .isub _ _ _ _ _ _ => true
  | .isubSat _ _ _ _ _ _ t => t == 1 || t == 2
  | .iaddImm _ _ _ _ _ => true
  | .imul _ _ _ _ _ _ => true
  | .imulh _ _ _ _ _ _ t => t == 1 || t == 2
  | .imad _ _ _ _ _ => true
  | .imin _ _ _ _ _ _ _ => true
  | .imax _ _ _ _ _ _ _ => true
  | .iabs _ _ _ _ => true
  | .iabsSat _ _ _ _ => true
  | .rndh _ _ _ _ _ _ => true
  | .andL _ _ _ _ _ _ => true
  | .orL _ _ _ _ _ _ => true
  | .xorL _ _ _ _ _ _ => true
  | .andn _ _ _ _ _ _ => true
  | .shl _ _ _ _ _ _ => true
  | .shr _ _ _ _ _ _ => true
  | .sar _ _ _ _ _ _ => true
  | .rol _ _ _ _ _ _ => true
  | .shlImm _ _ _ _ _ => true
  | .shrImm _ _ _ _ _ => true
  | .sarImm _ _ _ _ _ => true
  | .rolImm _ _ _ _ _ => true
  | .popc _ _ _ _ => true
  | .clz _ _ _ _ => true
  | .brev _ _ _ _ => true
  | .bfx _ _ _ _ _ _ _ => true
  | .bfi _ _ _ _ _ => true
  | .prmb _ _ _ _ _ => true
  | .lea _ _ d a _ _ _ => evenR d && evenR a
  | .icmp _ _ t _ _ _ _ c => t.toNat < 2 && c.toNat < 6
  | .sel _ _ _ _ _ _ _ => true
  | .plog _ _ _ _ _ _ => true
  | .pmovGet _ _ _ => true
  | .pmovPut _ _ _ => true
  | .mov _ _ _ _ => true
  | .movs _ _ _ _ => true
  | .movImm _ _ _ _ => true
  | .vsrd _ _ _ n => n.toNat < 5
  | .fadd _ _ _ _ _ _ => true
  | .fsub _ _ _ _ _ _ => true
  | .fmul _ _ _ _ _ _ => true
  | .ffma _ _ _ _ _ => true
  | .fmin _ _ _ _ _ _ => true
  | .fmax _ _ _ _ _ _ => true
  | .fscl _ _ _ _ _ _ => true
  | .fcmp _ _ _ _ _ _ c => c.toNat < 6
  | .hcmp2 _ _ t p _ _ _ c => (t == 1 || t == 2) && (p == 1 || p == 2) && c.toNat < 6
  | .frnd _ _ _ _ _ => true
  | .hadd2 _ _ _ _ _ _ _ => true
  | .hmul2 _ _ _ _ _ _ _ => true
  | .hmin2 _ _ _ _ _ _ _ => true
  | .hmax2 _ _ _ _ _ _ _ => true
  | .hfma2 _ _ _ _ _ => true
  | .hfma2Bf16 _ _ _ _ _ => true
  | .exp2 _ _ _ _ => true
  | .log2 _ _ _ _ => true
  | .rcp _ _ _ _ => true
  | .rsq _ _ _ _ => true
  | .sqrt _ _ _ _ => true
  | .sin _ _ _ _ => true
  | .cos _ _ _ _ => true
  | .tanh _ _ _ _ => true
  | .cvt _ _ _ _ x y r => x.toNat < 7 && y.toNat < 7 && r.toNat < 5
  | .cvth2 _ _ _ _ _ _ _ => true
  | .cvth2Widen _ _ d _ _ => evenR d
  | .cvtq _ _ _ _ _ => true
  | .cvtd _ _ _ _ _ => true
  | .mono _ _ _ _ t => t != 3
  | .monoi _ _ _ _ t => t != 3
  | .dp4 _ _ _ _ _ _ _ => true
  | .dp8 _ _ _ _ _ _ _ => true
  | .dp2h _ _ _ _ _ _ => true
  | .dp4eE4m3 _ _ _ _ _ _ => true
  | .dp4eE5m2 _ _ _ _ _ _ => true
  | .dp2hBf16 _ _ _ _ _ _ => true
  | .shfl _ _ _ _ _ _ _ => true
  | .voteAny _ _ _ _ => true
  | .voteAll _ _ _ _ => true
  | .voteBallot _ _ _ _ => true
  | .wred _ _ _ _ _ => true
  | .wscan _ _ _ _ _ => true
  | .matchL _ _ _ _ => true
  | .brl _ _ _ => true
  | .jset _ _ _ => true
  | .lcall _ _ _ => true
  | .join _ => true
  | .lret _ => true
  | .ldg _ _ d a _ _ w => w.toNat < 7 && evenR a && dataOk w.toNat d.toNat
  | .stg _ _ d a _ _ w => storeW w.toNat && evenR a && dataOk w.toNat d.toNat
  | .lds _ _ d a _ w => w.toNat < 7 && evenR a && dataOk w.toNat d.toNat
  | .sts _ _ d a _ w => storeW w.toNat && evenR a && dataOk w.toNat d.toNat
  | .ldc _ _ d a _ _ w => w.toNat < 7 && evenR a && dataOk w.toNat d.toNat
  | .atom _ _ d a _ o => o.toNat < 12 && evenR a && (o.toNat < 10 || evenR d)
  | .acas _ _ d a _ _ w => evenR a && (if w == 0 then evenR d else d.toNat % 4 == 0)
  | .red _ _ d a _ o => (o.toNat < 9 || o == 10) && evenR a && (o.toNat < 10 || evenR d)
  | .redm _ _ _ a o => o.toNat < 6 && evenR a
  | .pfg _ _ a _ => evenR a
  | .zline _ _ a _ _ => evenR a
  | .tfill _ _ _ a _ _ w => groupOk w.toNat a.toNat
  | .adrain _ _ d _ _ w => groupOk w.toNat d.toNat
  | .rep _ _ _ _ _ _ => true
  | .limm _ => true
  | .sadd _ _ _ _ => true
  | .ssub _ _ _ _ => true
  | .saddImm _ _ _ _ => true
  | .smul _ _ _ _ => true
  | .smulh _ _ _ _ t => t == 1 || t == 2
  | .sand _ _ _ _ => true
  | .sor _ _ _ _ => true
  | .sxor _ _ _ _ => true
  | .sshl _ _ _ _ => true
  | .sshr _ _ _ _ => true
  | .ssar _ _ _ _ => true
  | .sshlImm _ _ _ _ => true
  | .sshrImm _ _ _ _ => true
  | .ssarImm _ _ _ _ => true
  | .smin _ _ _ _ _ => true
  | .smax _ _ _ _ _ => true
  | .scmp _ _ _ _ c => c.toNat < 6
  | .ssel _ _ _ _ => true
  | .smov _ _ _ => true
  | .spopc _ _ _ => true
  | .sclz _ _ _ => true
  | .smovl _ _ _ => true
  | .smovh _ _ _ => true
  | .srd _ d n => srdOk n.toNat && (!srdWide n.toNat || evenR d)
  | .swr _ a n => swrOk n.toNat && (!srdWide n.toNat || evenR a)
  | .bra _ _ => true
  | .brc _ c _ _ => c.toNat < 6
  | .call _ _ => true
  | .ret _ => true
  | .jmpi _ a => evenR a
  | .exit _ => true
  | .yield _ => true
  | .yieldLy _ => true
  | .pause _ _ => true
  | .bar _ _ _ => true
  | .bara _ _ _ _ => true
  | .barw _ _ _ _ => true
  | .barinit _ _ _ _ => true
  | .gbar _ _ => true
  | .waitcmp _ _ a _ c => c != 7 && evenR a
  | .fence _ k sc l t => k != 0 && sc.toNat < 5 && (l == 0 || t == 0)
  | .xfence _ sc x y => sc.toNat < 5 && x.toNat < 22 && y.toNat < 22
  | .sld _ d a _ _ w => w.toNat < 6 && evenR a && (w != 5 || evenR d)
  | .sst _ d a _ _ w => (w == 0 || w == 2 || w == 4 || w == 5) && evenR a && (w != 5 || evenR d)
  | .satom _ _ a _ _ _ => evenR a
  | .reggive _ _ => true
  | .regtake _ _ => true
  | .aallocN _ _ _ => true
  | .aalloc _ _ => true
  | .afree _ _ => true
  | .tcfg _ _ a => a.toNat % 4 == 0
  | .tld _ _ a => evenR a && a.toNat + 5 < 128
  | .tst _ _ a => evenR a && a.toNat + 5 < 128
  | .trel _ _ => true
  | .mma _ _ _ _ _ _ _ _ _ => true
  | .mmaq _ _ _ _ _ _ _ _ _ _ => true
  | .azero _ _ => true
  | .ascale _ _ _ => true
  | .mred _ _ _ o _ => o.toNat < 3
  | .msync _ => true
  | .cpa _ _ a f => f.toNat < 3 && evenR a && a.toNat + 7 < 128
  | .cpwp _ d _ => d.toNat + 1 < 128
  | .gth _ a => evenR a && a.toNat + 5 < 128
  | .sct _ a => evenR a && a.toNat + 5 < 128
  | .selq _ d a => evenR a && a.toNat + 15 < 128 && d.toNat + 3 < 128
  | .selk _ d a => evenR a && a.toNat + 15 < 128 && d.toNat + 3 < 128
  | .clv _ _ a _ => evenR a && a.toNat + 7 < 128
  | .tkw _ _ => true
  | .tkq _ d _ => d.toNat + 2 < 128
  | .vcall _ _ a b => evenR a && b.toNat < 16
  | .vforce _ _ a b => evenR a && b.toNat < 16
  | .vret _ => true
  | .vretQ _ _ => true
  | .vlim _ _ _ x => x.toNat < 3
  | .vtag _ d a _ => evenR a && d.toNat + 3 < 128
  | .vmeter _ d _ => d.toNat + 4 < 128
  | .trap _ _ => true
  | .eret _ _ _ => true
  | .brk _ _ => true
  | .trace _ a _ => evenR a
  | .mbox _ a => a.toNat % 4 == 0 && a.toNat < 113
  | .sysc _ a _ => a.toNat % 4 == 0 && a.toNat < 121
  | .leaseq _ d => d.toNat % 4 == 0 && d.toNat < 125
  | .rfetch _ _ _ => true
  | .bfxt _ _ _ => true
  | .swait _ _ _ => true
  | .disp _ _ _ => true
  | .swaitWake n => n < 16
  | .performAcc _ _ => true
  | .mergeRed _ => true
  | .flushCb _ => true
  | .runElem _ => true
  | .drainPath _ => true
  | .exportW _ => true
  | .importW _ => true
  | .postedAccessFault _ _ => true
  | .channelPlaceFreed cluster ch => decide (cluster < 256) && decide (ch < 12)
  | .chargeProceed cluster _ => cluster < 256
  | .kgroupComplete key => key.part < 16
  | .tileWaitResume key _ => key.part < 16
  | .drainWaitResume key _ => key.part < 16
  | .selectionEngineStart cluster => cluster < 256
  | .waveRelease key => key.part < 16
  | .waitcmpWake f => f.key.part < 16
  | .waitcmpPoll f => f.key.part < 16
  | .pauseEnd f => f.key.part < 16
  | .warpFree key _ => key.part < 16
  | .blockEnd key => key.part < 16
  | .lamplighterUpdate _ => true
  | .trapEntry key _ => key.part < 16
  | .faultRecordWrite part => part < 16
  | .fresumeRetry part _ => part < 16
  | .fresumeEndLaunch part _ => part < 16
  | .breakpointHit f => f.key.part < 16
  | .watchpointHit f => f.key.part < 16
  | .freezeSpread part cluster => decide (part < 16) && decide (cluster < 256)
  | .debugWindowWrite part _ _ => part < 16
  | .pcSample cluster => cluster < 256
  | .launchPk q => q < 4096
  | .graphPk q => q < 4096
  | .signalPk q => q < 4096
  | .waitPk q => q < 4096
  | .leasePk q => q < 4096
  | .resyncPk q => q < 4096
  | .fwactPk q => q < 4096
  | .timerecPk q => q < 4096
  | .waitSignalFires q => q < 4096
  | .arbitrationRound part => part < 16
  | .queueBecomesRunnable q => q < 4096
  | .taskQueuePlacement cluster => cluster < 256
  | .balancingExchange die => die < 4
  | .bundleStart part _ => part < 16
  | .launchCompletion part _ => part < 16
  | .graphNodeStart q _ => q < 4096
  | .loopConditionRead q _ => q < 4096
  | .graphCompletion q => q < 4096
  | .firmwareActivation part => part < 16
  | .warpExchange cluster pipe => decide (cluster < 256) && decide (pipe < 4)
  | .pendingPromotion cluster pipe => decide (cluster < 256) && decide (pipe < 4)
  | .phaseSliceExpiry part => part < 16
  | .phaseSwap part => part < 16
  | .blockYield key => key.part < 16
  | .forcedSave key => key.part < 16
  | .savedUnitRestore part => part < 16
  | .timeLimitExpiry part _ => part < 16
  | .preemptRequest part _ => part < 16
  | .queueReset q _ => q < 4096
  | .tlbiPage port _ => port.wf
  | .tlbiRegion port _ => port.wf
  | .tlbiAsid port _ => port.wf
  | .tlbiPartition port _ => port.wf
  | .tlbiComplete part => part < 16
  | .syscEntryWrite part => part < 16
  | .scactReply part _ => part < 16
  | .scactMarkIo part _ => part < 16
  | .scactEndLaunch part _ => part < 16
  | .mailboxRecordWrite part => part < 16
  | .mailboxHeadWrite part _ => part < 16
  | .measextWrite _ => true
  | .svnraiseWrite _ => true
  | .attestation => true
  | .partctlWrite part _ _ => part < 16
  | .hmapWrite _ => true
  | .registerWrite who _ _ => who.wf
  | .leaseDecision _ => true
  | .leaseRevocation _ => true
  | .leaseEnd part => part < 16
  | .operatingPointChange => true
  | .energyApportion cluster _ => cluster < 256
  | .moduleReset => true
  | .patrolScrub sector _ => sector < 2 ^ 35
  | .flitReceive port _ _ => port < 16
  | .linkRetrainFail port => port < 16
  | .dmaRequest _ _ => true
  | .resultReturn f _ => f.key.part < 16
  | .currentBucketRefill => true
  | .hostCoreStore hart _ _ _ => hart < 32
  | .collectiveGroupAbort part group => decide (part < 16) && decide (group < 64)
  | .fenlinkPortTrained port => port < 16
  | .backgroundCheck key _ _ => key.part < 16
  | .lanternInterrupt n _ => n < 16

end Sys2Proof
end

