-- ==== Sys2Proof/Decode.lean ====
section
/-! DEFINITION. From words to instructions and back. `decodeWord` reads one Sikai word (R51–R70), `decodeLantern` one
command word of a lantern core (R367), `encode` writes the word of a well-formed instruction. Both follow the encoding
tables R67, R68 and R367; a word that is no instruction is rejected by name (R70). -/
namespace Sys2Proof

/-- Why a word is no instruction. -/
inductive DecodeError where
  /-- The major opcode is reserved (R67, R68). -/
  | reservedMajor (cls op : Nat)
  /-- A value, a reserved field or an operand limit the map does not list (R70). -/
  | reservedField (cls op : Nat)
  /-- Not a command word of a lantern core (R367). -/
  | notCommand
  /-- Fewer than four bytes. -/
  | tooShort
deriving DecidableEq, Repr

/-- Bits [lo+n-1:lo] of a word. -/
def bitsAt (w lo n : Nat) : Nat := w / 2 ^ lo % 2 ^ n

/-- Field of a word as a bit vector. -/
def fld (w lo n : Nat) : BitVec n := BitVec.ofNat n (bitsAt w lo n)

/-- An instruction if its limits hold. -/
def okIf (c : Bool) (i : Instr) : Option Instr := if c && i.wf then some i else none

/-- The first candidate that stands, or the word is refused. -/
def firstOf (cls op : Nat) : List (Option Instr) → Except DecodeError Instr
  | [] => .error (.reservedField cls op)
  | some i :: _ => .ok i
  | none :: r => firstOf cls op r

/-- Major 0x00 of the L class (NOP). -/
def decodeL00 (w : Nat) : Except DecodeError Instr := firstOf 0 0 [
  okIf (bitsAt w 0 24 == 0) (.nop (fld w 30 1))]

/-- Major 0x01 of the L class (IADD, IADD_SAT). -/
def decodeL01 (w : Nat) : Except DecodeError Instr := firstOf 0 1 [
  okIf (bitsAt w 0 3 == 0) (.iadd (fld w 30 1) (fld w 22 2) (fld w 16 6) (fld w 10 6) (fld w 4 6) (fld w 3 1)),
  okIf (bitsAt w 2 1 == 0) (.iaddSat (fld w 30 1) (fld w 22 2) (fld w 16 6) (fld w 10 6) (fld w 4 6) (fld w 3 1) (fld w 0 2))]

/-- Major 0x02 of the L class (ISUB, ISUB_SAT). -/
def decodeL02 (w : Nat) : Except DecodeError Instr := firstOf 0 2 [
  okIf (bitsAt w 0 3 == 0) (.isub (fld w 30 1) (fld w 22 2) (fld w 16 6) (fld w 10 6) (fld w 4 6) (fld w 3 1)),
  okIf (bitsAt w 2 1 == 0) (.isubSat (fld w 30 1) (fld w 22 2) (fld w 16 6) (fld w 10 6) (fld w 4 6) (fld w 3 1) (fld w 0 2))]

/-- Major 0x03 of the L class (IADD_IMM). -/
def decodeL03 (w : Nat) : Except DecodeError Instr := firstOf 0 3 [
  okIf (true) (.iaddImm (fld w 30 1) (fld w 22 2) (fld w 16 6) (fld w 10 6) (fld w 0 10))]

/-- Major 0x04 of the L class (IMUL, IMULH). -/
def decodeL04 (w : Nat) : Except DecodeError Instr := firstOf 0 4 [
  okIf (bitsAt w 0 3 == 0) (.imul (fld w 30 1) (fld w 22 2) (fld w 16 6) (fld w 10 6) (fld w 4 6) (fld w 3 1)),
  okIf (bitsAt w 2 1 == 0) (.imulh (fld w 30 1) (fld w 22 2) (fld w 16 6) (fld w 10 6) (fld w 4 6) (fld w 3 1) (fld w 0 2))]

/-- Major 0x05 of the L class (IMAD). -/
def decodeL05 (w : Nat) : Except DecodeError Instr := firstOf 0 5 [
  okIf (true) (.imad (fld w 30 1) (fld w 18 6) (fld w 12 6) (fld w 6 6) (fld w 0 6))]

/-- Major 0x06 of the L class (IMIN, IMAX, IABS, IABS_SAT). -/
def decodeL06 (w : Nat) : Except DecodeError Instr := firstOf 0 6 [
  okIf (bitsAt w 1 2 == 0) (.imin (fld w 30 1) (fld w 22 2) (fld w 16 6) (fld w 10 6) (fld w 4 6) (fld w 3 1) (fld w 0 1)),
  okIf (bitsAt w 1 2 == 1) (.imax (fld w 30 1) (fld w 22 2) (fld w 16 6) (fld w 10 6) (fld w 4 6) (fld w 3 1) (fld w 0 1)),
  okIf (bitsAt w 0 10 == 4) (.iabs (fld w 30 1) (fld w 22 2) (fld w 16 6) (fld w 10 6)),
  okIf (bitsAt w 0 10 == 5) (.iabsSat (fld w 30 1) (fld w 22 2) (fld w 16 6) (fld w 10 6))]

/-- Major 0x07 of the L class (RNDH). -/
def decodeL07 (w : Nat) : Except DecodeError Instr := firstOf 0 7 [
  okIf (bitsAt w 0 3 == 0) (.rndh (fld w 30 1) (fld w 22 2) (fld w 16 6) (fld w 10 6) (fld w 4 6) (fld w 3 1))]

/-- Major 0x08 of the L class (AND, OR, XOR, ANDN). -/
def decodeL08 (w : Nat) : Except DecodeError Instr := firstOf 0 8 [
  okIf (bitsAt w 0 3 == 0) (.andL (fld w 30 1) (fld w 22 2) (fld w 16 6) (fld w 10 6) (fld w 4 6) (fld w 3 1)),
  okIf (bitsAt w 0 3 == 1) (.orL (fld w 30 1) (fld w 22 2) (fld w 16 6) (fld w 10 6) (fld w 4 6) (fld w 3 1)),
  okIf (bitsAt w 0 3 == 2) (.xorL (fld w 30 1) (fld w 22 2) (fld w 16 6) (fld w 10 6) (fld w 4 6) (fld w 3 1)),
  okIf (bitsAt w 0 3 == 3) (.andn (fld w 30 1) (fld w 22 2) (fld w 16 6) (fld w 10 6) (fld w 4 6) (fld w 3 1))]

/-- Major 0x09 of the L class (SHL, SHR, SAR, ROL). -/
def decodeL09 (w : Nat) : Except DecodeError Instr := firstOf 0 9 [
  okIf (bitsAt w 0 3 == 0) (.shl (fld w 30 1) (fld w 22 2) (fld w 16 6) (fld w 10 6) (fld w 4 6) (fld w 3 1)),
  okIf (bitsAt w 0 3 == 1) (.shr (fld w 30 1) (fld w 22 2) (fld w 16 6) (fld w 10 6) (fld w 4 6) (fld w 3 1)),
  okIf (bitsAt w 0 3 == 2) (.sar (fld w 30 1) (fld w 22 2) (fld w 16 6) (fld w 10 6) (fld w 4 6) (fld w 3 1)),
  okIf (bitsAt w 0 3 == 3) (.rol (fld w 30 1) (fld w 22 2) (fld w 16 6) (fld w 10 6) (fld w 4 6) (fld w 3 1))]

/-- Major 0x0A of the L class (SHL_IMM, SHR_IMM, SAR_IMM, ROL_IMM). -/
def decodeL0A (w : Nat) : Except DecodeError Instr := firstOf 0 10 [
  okIf (bitsAt w 5 5 == 0) (.shlImm (fld w 30 1) (fld w 22 2) (fld w 16 6) (fld w 10 6) (fld w 0 5)),
  okIf (bitsAt w 5 5 == 4) (.shrImm (fld w 30 1) (fld w 22 2) (fld w 16 6) (fld w 10 6) (fld w 0 5)),
  okIf (bitsAt w 5 5 == 8) (.sarImm (fld w 30 1) (fld w 22 2) (fld w 16 6) (fld w 10 6) (fld w 0 5)),
  okIf (bitsAt w 5 5 == 12) (.rolImm (fld w 30 1) (fld w 22 2) (fld w 16 6) (fld w 10 6) (fld w 0 5))]

/-- Major 0x0B of the L class (POPC, CLZ, BREV). -/
def decodeL0B (w : Nat) : Except DecodeError Instr := firstOf 0 11 [
  okIf (bitsAt w 0 10 == 0) (.popc (fld w 30 1) (fld w 22 2) (fld w 16 6) (fld w 10 6)),
  okIf (bitsAt w 0 10 == 1) (.clz (fld w 30 1) (fld w 22 2) (fld w 16 6) (fld w 10 6)),
  okIf (bitsAt w 0 10 == 2) (.brev (fld w 30 1) (fld w 22 2) (fld w 16 6) (fld w 10 6))]

/-- Major 0x0C of the L class (BFX). -/
def decodeL0C (w : Nat) : Except DecodeError Instr := firstOf 0 12 [
  okIf (bitsAt w 1 2 == 0) (.bfx (fld w 30 1) (fld w 22 2) (fld w 16 6) (fld w 10 6) (fld w 4 6) (fld w 3 1) (fld w 0 1))]

/-- Major 0x0D of the L class (BFI). -/
def decodeL0D (w : Nat) : Except DecodeError Instr := firstOf 0 13 [
  okIf (true) (.bfi (fld w 30 1) (fld w 18 6) (fld w 12 6) (fld w 6 6) (fld w 0 6))]

/-- Major 0x0E of the L class (PRMB). -/
def decodeL0E (w : Nat) : Except DecodeError Instr := firstOf 0 14 [
  okIf (true) (.prmb (fld w 30 1) (fld w 18 6) (fld w 12 6) (fld w 6 6) (fld w 0 6))]

/-- Major 0x0F of the L class (LEA). -/
def decodeL0F (w : Nat) : Except DecodeError Instr := firstOf 0 15 [
  okIf (true) (.lea (fld w 30 1) (fld w 22 2) (fld w 16 6) (fld w 10 6) (fld w 4 6) (fld w 3 1) (fld w 0 3))]

/-- Major 0x10 of the L class (ICMP). -/
def decodeL10 (w : Nat) : Except DecodeError Instr := firstOf 0 16 [
  okIf (bitsAt w 20 2 == 0) (.icmp (fld w 30 1) (fld w 22 2) (fld w 18 2) (fld w 16 2) (fld w 10 6) (fld w 4 6) (fld w 3 1) (fld w 0 3))]

/-- Major 0x11 of the L class (SEL). -/
def decodeL11 (w : Nat) : Except DecodeError Instr := firstOf 0 17 [
  okIf (bitsAt w 2 1 == 0) (.sel (fld w 30 1) (fld w 22 2) (fld w 16 6) (fld w 10 6) (fld w 4 6) (fld w 3 1) (fld w 0 2))]

/-- Major 0x12 of the L class (PLOG). -/
def decodeL12 (w : Nat) : Except DecodeError Instr := firstOf 0 18 [
  okIf (bitsAt w 18 4 == 0 && bitsAt w 12 4 == 0 && bitsAt w 6 4 == 0 && bitsAt w 2 2 == 0) (.plog (fld w 30 1) (fld w 22 2) (fld w 16 2) (fld w 10 2) (fld w 4 2) (fld w 0 2))]

/-- Major 0x13 of the L class (PMOV_GET, PMOV_PUT). -/
def decodeL13 (w : Nat) : Except DecodeError Instr := firstOf 0 19 [
  okIf (bitsAt w 0 16 == 0) (.pmovGet (fld w 30 1) (fld w 22 2) (fld w 16 6)),
  okIf (bitsAt w 16 6 == 0 && bitsAt w 0 10 == 1) (.pmovPut (fld w 30 1) (fld w 22 2) (fld w 10 6))]

/-- Major 0x14 of the L class (MOV, MOVS). -/
def decodeL14 (w : Nat) : Except DecodeError Instr := firstOf 0 20 [
  okIf (bitsAt w 10 6 == 0 && bitsAt w 0 4 == 0) (.mov (fld w 30 1) (fld w 22 2) (fld w 16 6) (fld w 4 6)),
  okIf (bitsAt w 10 6 == 0 && bitsAt w 0 4 == 8) (.movs (fld w 30 1) (fld w 22 2) (fld w 16 6) (fld w 4 6))]

/-- Major 0x15 of the L class (MOV_IMM). -/
def decodeL15 (w : Nat) : Except DecodeError Instr := firstOf 0 21 [
  okIf (bitsAt w 10 6 == 0) (.movImm (fld w 30 1) (fld w 22 2) (fld w 16 6) (fld w 0 10))]

/-- Major 0x16 of the L class (VSRD). -/
def decodeL16 (w : Nat) : Except DecodeError Instr := firstOf 0 22 [
  okIf (bitsAt w 8 8 == 0) (.vsrd (fld w 30 1) (fld w 22 2) (fld w 16 6) (fld w 0 8))]

/-- Major 0x18 of the L class (FADD, FSUB, FMUL). -/
def decodeL18 (w : Nat) : Except DecodeError Instr := firstOf 0 24 [
  okIf (bitsAt w 0 3 == 0) (.fadd (fld w 30 1) (fld w 22 2) (fld w 16 6) (fld w 10 6) (fld w 4 6) (fld w 3 1)),
  okIf (bitsAt w 0 3 == 1) (.fsub (fld w 30 1) (fld w 22 2) (fld w 16 6) (fld w 10 6) (fld w 4 6) (fld w 3 1)),
  okIf (bitsAt w 0 3 == 2) (.fmul (fld w 30 1) (fld w 22 2) (fld w 16 6) (fld w 10 6) (fld w 4 6) (fld w 3 1))]

/-- Major 0x19 of the L class (FFMA). -/
def decodeL19 (w : Nat) : Except DecodeError Instr := firstOf 0 25 [
  okIf (true) (.ffma (fld w 30 1) (fld w 18 6) (fld w 12 6) (fld w 6 6) (fld w 0 6))]

/-- Major 0x1A of the L class (FMIN, FMAX, FSCL). -/
def decodeL1A (w : Nat) : Except DecodeError Instr := firstOf 0 26 [
  okIf (bitsAt w 0 3 == 0) (.fmin (fld w 30 1) (fld w 22 2) (fld w 16 6) (fld w 10 6) (fld w 4 6) (fld w 3 1)),
  okIf (bitsAt w 0 3 == 1) (.fmax (fld w 30 1) (fld w 22 2) (fld w 16 6) (fld w 10 6) (fld w 4 6) (fld w 3 1)),
  okIf (bitsAt w 0 3 == 2) (.fscl (fld w 30 1) (fld w 22 2) (fld w 16 6) (fld w 10 6) (fld w 4 6) (fld w 3 1))]

/-- Major 0x1B of the L class (FCMP, HCMP2). -/
def decodeL1B (w : Nat) : Except DecodeError Instr := firstOf 0 27 [
  okIf (bitsAt w 18 4 == 0) (.fcmp (fld w 30 1) (fld w 22 2) (fld w 16 2) (fld w 10 6) (fld w 4 6) (fld w 3 1) (fld w 0 3)),
  okIf (bitsAt w 20 2 == 0) (.hcmp2 (fld w 30 1) (fld w 22 2) (fld w 18 2) (fld w 16 2) (fld w 10 6) (fld w 4 6) (fld w 3 1) (fld w 0 3))]

/-- Major 0x1C of the L class (FRND). -/
def decodeL1C (w : Nat) : Except DecodeError Instr := firstOf 0 28 [
  okIf (bitsAt w 2 8 == 0) (.frnd (fld w 30 1) (fld w 22 2) (fld w 16 6) (fld w 10 6) (fld w 0 2))]

/-- Major 0x1D of the L class (HADD2, HMUL2, HMIN2, HMAX2). -/
def decodeL1D (w : Nat) : Except DecodeError Instr := firstOf 0 29 [
  okIf (bitsAt w 0 2 == 0) (.hadd2 (fld w 30 1) (fld w 22 2) (fld w 16 6) (fld w 10 6) (fld w 4 6) (fld w 3 1) (fld w 2 1)),
  okIf (bitsAt w 0 2 == 1) (.hmul2 (fld w 30 1) (fld w 22 2) (fld w 16 6) (fld w 10 6) (fld w 4 6) (fld w 3 1) (fld w 2 1)),
  okIf (bitsAt w 0 2 == 2) (.hmin2 (fld w 30 1) (fld w 22 2) (fld w 16 6) (fld w 10 6) (fld w 4 6) (fld w 3 1) (fld w 2 1)),
  okIf (bitsAt w 0 2 == 3) (.hmax2 (fld w 30 1) (fld w 22 2) (fld w 16 6) (fld w 10 6) (fld w 4 6) (fld w 3 1) (fld w 2 1))]

/-- Major 0x1E of the L class (HFMA2). -/
def decodeL1E (w : Nat) : Except DecodeError Instr := firstOf 0 30 [
  okIf (true) (.hfma2 (fld w 30 1) (fld w 18 6) (fld w 12 6) (fld w 6 6) (fld w 0 6))]

/-- Major 0x1F of the L class (HFMA2_BF16). -/
def decodeL1F (w : Nat) : Except DecodeError Instr := firstOf 0 31 [
  okIf (true) (.hfma2Bf16 (fld w 30 1) (fld w 18 6) (fld w 12 6) (fld w 6 6) (fld w 0 6))]

/-- Major 0x20 of the L class (EXP2, LOG2, RCP, RSQ, SQRT, SIN, COS, TANH). -/
def decodeL20 (w : Nat) : Except DecodeError Instr := firstOf 0 32 [
  okIf (bitsAt w 0 10 == 0) (.exp2 (fld w 30 1) (fld w 22 2) (fld w 16 6) (fld w 10 6)),
  okIf (bitsAt w 0 10 == 1) (.log2 (fld w 30 1) (fld w 22 2) (fld w 16 6) (fld w 10 6)),
  okIf (bitsAt w 0 10 == 2) (.rcp (fld w 30 1) (fld w 22 2) (fld w 16 6) (fld w 10 6)),
  okIf (bitsAt w 0 10 == 3) (.rsq (fld w 30 1) (fld w 22 2) (fld w 16 6) (fld w 10 6)),
  okIf (bitsAt w 0 10 == 4) (.sqrt (fld w 30 1) (fld w 22 2) (fld w 16 6) (fld w 10 6)),
  okIf (bitsAt w 0 10 == 5) (.sin (fld w 30 1) (fld w 22 2) (fld w 16 6) (fld w 10 6)),
  okIf (bitsAt w 0 10 == 6) (.cos (fld w 30 1) (fld w 22 2) (fld w 16 6) (fld w 10 6)),
  okIf (bitsAt w 0 10 == 7) (.tanh (fld w 30 1) (fld w 22 2) (fld w 16 6) (fld w 10 6))]

/-- Major 0x24 of the L class (CVT). -/
def decodeL24 (w : Nat) : Except DecodeError Instr := firstOf 0 36 [
  okIf (bitsAt w 3 1 == 0) (.cvt (fld w 30 1) (fld w 22 2) (fld w 16 6) (fld w 10 6) (fld w 7 3) (fld w 4 3) (fld w 0 3))]

/-- Major 0x25 of the L class (CVTH2, CVTH2_WIDEN). -/
def decodeL25 (w : Nat) : Except DecodeError Instr := firstOf 0 37 [
  okIf (bitsAt w 1 2 == 0) (.cvth2 (fld w 30 1) (fld w 22 2) (fld w 16 6) (fld w 10 6) (fld w 4 6) (fld w 3 1) (fld w 0 1)),
  okIf (bitsAt w 1 9 == 1) (.cvth2Widen (fld w 30 1) (fld w 22 2) (fld w 16 6) (fld w 10 6) (fld w 0 1))]

/-- Major 0x26 of the L class (CVTQ, CVTD, MONO, MONOI). -/
def decodeL26 (w : Nat) : Except DecodeError Instr := firstOf 0 38 [
  okIf (bitsAt w 7 3 == 0 && bitsAt w 0 4 == 0) (.cvtq (fld w 30 1) (fld w 22 2) (fld w 16 6) (fld w 10 6) (fld w 4 3)),
  okIf (bitsAt w 7 3 == 0 && bitsAt w 0 4 == 1) (.cvtd (fld w 30 1) (fld w 22 2) (fld w 16 6) (fld w 10 6) (fld w 4 3)),
  okIf (bitsAt w 6 4 == 0 && bitsAt w 0 4 == 2) (.mono (fld w 30 1) (fld w 22 2) (fld w 16 6) (fld w 10 6) (fld w 4 2)),
  okIf (bitsAt w 6 4 == 0 && bitsAt w 0 4 == 3) (.monoi (fld w 30 1) (fld w 22 2) (fld w 16 6) (fld w 10 6) (fld w 4 2))]

/-- Major 0x27 of the L class (DP4, DP8, DP2H, DP4E_E4M3, DP4E_E5M2, DP2H_BF16). -/
def decodeL27 (w : Nat) : Except DecodeError Instr := firstOf 0 39 [
  okIf (bitsAt w 1 2 == 0) (.dp4 (fld w 30 1) (fld w 22 2) (fld w 16 6) (fld w 10 6) (fld w 4 6) (fld w 3 1) (fld w 0 1)),
  okIf (bitsAt w 1 2 == 1) (.dp8 (fld w 30 1) (fld w 22 2) (fld w 16 6) (fld w 10 6) (fld w 4 6) (fld w 3 1) (fld w 0 1)),
  okIf (bitsAt w 0 3 == 4) (.dp2h (fld w 30 1) (fld w 22 2) (fld w 16 6) (fld w 10 6) (fld w 4 6) (fld w 3 1)),
  okIf (bitsAt w 0 3 == 5) (.dp4eE4m3 (fld w 30 1) (fld w 22 2) (fld w 16 6) (fld w 10 6) (fld w 4 6) (fld w 3 1)),
  okIf (bitsAt w 0 3 == 6) (.dp4eE5m2 (fld w 30 1) (fld w 22 2) (fld w 16 6) (fld w 10 6) (fld w 4 6) (fld w 3 1)),
  okIf (bitsAt w 0 3 == 7) (.dp2hBf16 (fld w 30 1) (fld w 22 2) (fld w 16 6) (fld w 10 6) (fld w 4 6) (fld w 3 1))]

/-- Major 0x28 of the L class (SHFL). -/
def decodeL28 (w : Nat) : Except DecodeError Instr := firstOf 0 40 [
  okIf (bitsAt w 2 1 == 0) (.shfl (fld w 30 1) (fld w 22 2) (fld w 16 6) (fld w 10 6) (fld w 4 6) (fld w 3 1) (fld w 0 2))]

/-- Major 0x29 of the L class (VOTE_ANY, VOTE_ALL, VOTE_BALLOT). -/
def decodeL29 (w : Nat) : Except DecodeError Instr := firstOf 0 41 [
  okIf (bitsAt w 18 4 == 0 && bitsAt w 12 4 == 0 && bitsAt w 0 10 == 0) (.voteAny (fld w 30 1) (fld w 22 2) (fld w 16 2) (fld w 10 2)),
  okIf (bitsAt w 18 4 == 0 && bitsAt w 12 4 == 0 && bitsAt w 0 10 == 1) (.voteAll (fld w 30 1) (fld w 22 2) (fld w 16 2) (fld w 10 2)),
  okIf (bitsAt w 12 4 == 0 && bitsAt w 0 10 == 2) (.voteBallot (fld w 30 1) (fld w 22 2) (fld w 16 6) (fld w 10 2))]

/-- Major 0x2A of the L class (WRED, WSCAN). -/
def decodeL2A (w : Nat) : Except DecodeError Instr := firstOf 0 42 [
  okIf (bitsAt w 2 8 == 0) (.wred (fld w 30 1) (fld w 22 2) (fld w 16 6) (fld w 10 6) (fld w 0 2)),
  okIf (bitsAt w 2 8 == 1) (.wscan (fld w 30 1) (fld w 22 2) (fld w 16 6) (fld w 10 6) (fld w 0 2))]

/-- Major 0x2B of the L class (MATCH). -/
def decodeL2B (w : Nat) : Except DecodeError Instr := firstOf 0 43 [
  okIf (bitsAt w 0 10 == 0) (.matchL (fld w 30 1) (fld w 22 2) (fld w 16 6) (fld w 10 6))]

/-- Major 0x2C of the L class (BRL). -/
def decodeL2C (w : Nat) : Except DecodeError Instr := firstOf 0 44 [
  okIf (true) (.brl (fld w 30 1) (fld w 22 2) (fld w 0 22))]

/-- Major 0x2D of the L class (JSET). -/
def decodeL2D (w : Nat) : Except DecodeError Instr := firstOf 0 45 [
  okIf (true) (.jset (fld w 30 1) (fld w 22 2) (fld w 0 22))]

/-- Major 0x2E of the L class (LCALL). -/
def decodeL2E (w : Nat) : Except DecodeError Instr := firstOf 0 46 [
  okIf (true) (.lcall (fld w 30 1) (fld w 22 2) (fld w 0 22))]

/-- Major 0x2F of the L class (JOIN, LRET). -/
def decodeL2F (w : Nat) : Except DecodeError Instr := firstOf 0 47 [
  okIf (bitsAt w 0 24 == 0) (.join (fld w 30 1)),
  okIf (bitsAt w 0 24 == 1) (.lret (fld w 30 1))]

/-- Major 0x30 of the L class (LDG). -/
def decodeL30 (w : Nat) : Except DecodeError Instr := firstOf 0 48 [
  okIf (true) (.ldg (fld w 30 1) (fld w 22 2) (fld w 16 6) (fld w 10 6) (fld w 6 4) (fld w 4 2) (fld w 0 4))]

/-- Major 0x31 of the L class (STG). -/
def decodeL31 (w : Nat) : Except DecodeError Instr := firstOf 0 49 [
  okIf (true) (.stg (fld w 30 1) (fld w 22 2) (fld w 16 6) (fld w 10 6) (fld w 6 4) (fld w 4 2) (fld w 0 4))]

/-- Major 0x32 of the L class (LDS). -/
def decodeL32 (w : Nat) : Except DecodeError Instr := firstOf 0 50 [
  okIf (bitsAt w 4 2 == 0) (.lds (fld w 30 1) (fld w 22 2) (fld w 16 6) (fld w 10 6) (fld w 6 4) (fld w 0 4))]

/-- Major 0x33 of the L class (STS). -/
def decodeL33 (w : Nat) : Except DecodeError Instr := firstOf 0 51 [
  okIf (bitsAt w 4 2 == 0) (.sts (fld w 30 1) (fld w 22 2) (fld w 16 6) (fld w 10 6) (fld w 6 4) (fld w 0 4))]

/-- Major 0x34 of the L class (LDC). -/
def decodeL34 (w : Nat) : Except DecodeError Instr := firstOf 0 52 [
  okIf (true) (.ldc (fld w 30 1) (fld w 22 2) (fld w 16 6) (fld w 10 6) (fld w 6 4) (fld w 4 2) (fld w 0 4))]

/-- Major 0x35 of the L class (ATOM). -/
def decodeL35 (w : Nat) : Except DecodeError Instr := firstOf 0 53 [
  okIf (bitsAt w 4 2 == 0) (.atom (fld w 30 1) (fld w 22 2) (fld w 16 6) (fld w 10 6) (fld w 6 4) (fld w 0 4))]

/-- Major 0x36 of the L class (ACAS). -/
def decodeL36 (w : Nat) : Except DecodeError Instr := firstOf 0 54 [
  okIf (bitsAt w 1 3 == 2) (.acas (fld w 30 1) (fld w 22 2) (fld w 16 6) (fld w 10 6) (fld w 6 4) (fld w 4 2) (fld w 0 1))]

/-- Major 0x37 of the L class (RED). -/
def decodeL37 (w : Nat) : Except DecodeError Instr := firstOf 0 55 [
  okIf (bitsAt w 4 2 == 0) (.red (fld w 30 1) (fld w 22 2) (fld w 16 6) (fld w 10 6) (fld w 6 4) (fld w 0 4))]

/-- Major 0x38 of the L class (REDM). -/
def decodeL38 (w : Nat) : Except DecodeError Instr := firstOf 0 56 [
  okIf (bitsAt w 4 6 == 0) (.redm (fld w 30 1) (fld w 22 2) (fld w 16 6) (fld w 10 6) (fld w 0 4))]

/-- Major 0x39 of the L class (PFG). -/
def decodeL39 (w : Nat) : Except DecodeError Instr := firstOf 0 57 [
  okIf (bitsAt w 16 6 == 0 && bitsAt w 6 4 == 0 && bitsAt w 0 4 == 0) (.pfg (fld w 30 1) (fld w 22 2) (fld w 10 6) (fld w 4 2))]

/-- Major 0x3A of the L class (ZLINE). -/
def decodeL3A (w : Nat) : Except DecodeError Instr := firstOf 0 58 [
  okIf (bitsAt w 16 6 == 0 && bitsAt w 0 4 == 0) (.zline (fld w 30 1) (fld w 22 2) (fld w 10 6) (fld w 6 4) (fld w 4 2))]

/-- Major 0x3C of the L class (TFILL). -/
def decodeL3C (w : Nat) : Except DecodeError Instr := firstOf 0 60 [
  okIf (bitsAt w 19 3 == 0 && bitsAt w 2 1 == 0) (.tfill (fld w 30 1) (fld w 22 2) (fld w 16 3) (fld w 10 6) (fld w 4 6) (fld w 3 1) (fld w 0 2))]

/-- Major 0x3D of the L class (ADRAIN). -/
def decodeL3D (w : Nat) : Except DecodeError Instr := firstOf 0 61 [
  okIf (bitsAt w 2 2 == 2) (.adrain (fld w 30 1) (fld w 22 2) (fld w 16 6) (fld w 10 6) (fld w 4 6) (fld w 0 2))]

/-- The L-class majors (R67). -/
def decodeL (op w : Nat) : Except DecodeError Instr :=
  match op with
  | 0 => decodeL00 w
  | 1 => decodeL01 w
  | 2 => decodeL02 w
  | 3 => decodeL03 w
  | 4 => decodeL04 w
  | 5 => decodeL05 w
  | 6 => decodeL06 w
  | 7 => decodeL07 w
  | 8 => decodeL08 w
  | 9 => decodeL09 w
  | 10 => decodeL0A w
  | 11 => decodeL0B w
  | 12 => decodeL0C w
  | 13 => decodeL0D w
  | 14 => decodeL0E w
  | 15 => decodeL0F w
  | 16 => decodeL10 w
  | 17 => decodeL11 w
  | 18 => decodeL12 w
  | 19 => decodeL13 w
  | 20 => decodeL14 w
  | 21 => decodeL15 w
  | 22 => decodeL16 w
  | 24 => decodeL18 w
  | 25 => decodeL19 w
  | 26 => decodeL1A w
  | 27 => decodeL1B w
  | 28 => decodeL1C w
  | 29 => decodeL1D w
  | 30 => decodeL1E w
  | 31 => decodeL1F w
  | 32 => decodeL20 w
  | 36 => decodeL24 w
  | 37 => decodeL25 w
  | 38 => decodeL26 w
  | 39 => decodeL27 w
  | 40 => decodeL28 w
  | 41 => decodeL29 w
  | 42 => decodeL2A w
  | 43 => decodeL2B w
  | 44 => decodeL2C w
  | 45 => decodeL2D w
  | 46 => decodeL2E w
  | 47 => decodeL2F w
  | 48 => decodeL30 w
  | 49 => decodeL31 w
  | 50 => decodeL32 w
  | 51 => decodeL33 w
  | 52 => decodeL34 w
  | 53 => decodeL35 w
  | 54 => decodeL36 w
  | 55 => decodeL37 w
  | 56 => decodeL38 w
  | 57 => decodeL39 w
  | 58 => decodeL3A w
  | 60 => decodeL3C w
  | 61 => decodeL3D w
  | _ => .error (.reservedMajor 0 op)

/-- Major 0x00 of the U class (REP). -/
def decodeU00 (w : Nat) : Except DecodeError Instr := firstOf 1 0 [
  okIf (bitsAt w 30 1 == 0 && bitsAt w 0 10 == 0) (.rep (fld w 18 6) (fld w 17 1) (fld w 16 1) (fld w 15 1) (fld w 14 1) (fld w 10 4))]

/-- Major 0x01 of the U class (LIMM). -/
def decodeU01 (w : Nat) : Except DecodeError Instr := firstOf 1 1 [
  okIf (bitsAt w 30 1 == 0) (.limm (fld w 0 24))]

/-- Major 0x04 of the U class (SADD, SSUB). -/
def decodeU04 (w : Nat) : Except DecodeError Instr := firstOf 1 4 [
  okIf (bitsAt w 0 3 == 0) (.sadd (fld w 30 1) (fld w 17 7) (fld w 10 7) (fld w 3 7)),
  okIf (bitsAt w 0 3 == 1) (.ssub (fld w 30 1) (fld w 17 7) (fld w 10 7) (fld w 3 7))]

/-- Major 0x05 of the U class (SADD_IMM). -/
def decodeU05 (w : Nat) : Except DecodeError Instr := firstOf 1 5 [
  okIf (true) (.saddImm (fld w 30 1) (fld w 17 7) (fld w 10 7) (fld w 0 10))]

/-- Major 0x06 of the U class (SMUL, SMULH). -/
def decodeU06 (w : Nat) : Except DecodeError Instr := firstOf 1 6 [
  okIf (bitsAt w 0 3 == 0) (.smul (fld w 30 1) (fld w 17 7) (fld w 10 7) (fld w 3 7)),
  okIf (bitsAt w 2 1 == 0) (.smulh (fld w 30 1) (fld w 17 7) (fld w 10 7) (fld w 3 7) (fld w 0 2))]

/-- Major 0x07 of the U class (SAND, SOR, SXOR). -/
def decodeU07 (w : Nat) : Except DecodeError Instr := firstOf 1 7 [
  okIf (bitsAt w 0 3 == 0) (.sand (fld w 30 1) (fld w 17 7) (fld w 10 7) (fld w 3 7)),
  okIf (bitsAt w 0 3 == 1) (.sor (fld w 30 1) (fld w 17 7) (fld w 10 7) (fld w 3 7)),
  okIf (bitsAt w 0 3 == 2) (.sxor (fld w 30 1) (fld w 17 7) (fld w 10 7) (fld w 3 7))]

/-- Major 0x08 of the U class (SSHL, SSHR, SSAR). -/
def decodeU08 (w : Nat) : Except DecodeError Instr := firstOf 1 8 [
  okIf (bitsAt w 0 3 == 0) (.sshl (fld w 30 1) (fld w 17 7) (fld w 10 7) (fld w 3 7)),
  okIf (bitsAt w 0 3 == 1) (.sshr (fld w 30 1) (fld w 17 7) (fld w 10 7) (fld w 3 7)),
  okIf (bitsAt w 0 3 == 2) (.ssar (fld w 30 1) (fld w 17 7) (fld w 10 7) (fld w 3 7))]

/-- Major 0x09 of the U class (SSHL_IMM, SSHR_IMM, SSAR_IMM). -/
def decodeU09 (w : Nat) : Except DecodeError Instr := firstOf 1 9 [
  okIf (bitsAt w 5 5 == 0) (.sshlImm (fld w 30 1) (fld w 17 7) (fld w 10 7) (fld w 0 5)),
  okIf (bitsAt w 5 5 == 8) (.sshrImm (fld w 30 1) (fld w 17 7) (fld w 10 7) (fld w 0 5)),
  okIf (bitsAt w 5 5 == 16) (.ssarImm (fld w 30 1) (fld w 17 7) (fld w 10 7) (fld w 0 5))]

/-- Major 0x0A of the U class (SMIN, SMAX). -/
def decodeU0A (w : Nat) : Except DecodeError Instr := firstOf 1 10 [
  okIf (bitsAt w 1 2 == 0) (.smin (fld w 30 1) (fld w 17 7) (fld w 10 7) (fld w 3 7) (fld w 0 1)),
  okIf (bitsAt w 1 2 == 1) (.smax (fld w 30 1) (fld w 17 7) (fld w 10 7) (fld w 3 7) (fld w 0 1))]

/-- Major 0x0B of the U class (SCMP). -/
def decodeU0B (w : Nat) : Except DecodeError Instr := firstOf 1 11 [
  okIf (true) (.scmp (fld w 30 1) (fld w 17 7) (fld w 10 7) (fld w 3 7) (fld w 0 3))]

/-- Major 0x0C of the U class (SSEL). -/
def decodeU0C (w : Nat) : Except DecodeError Instr := firstOf 1 12 [
  okIf (bitsAt w 0 3 == 0) (.ssel (fld w 30 1) (fld w 17 7) (fld w 10 7) (fld w 3 7))]

/-- Major 0x0D of the U class (SMOV, SPOPC, SCLZ). -/
def decodeU0D (w : Nat) : Except DecodeError Instr := firstOf 1 13 [
  okIf (bitsAt w 0 10 == 0) (.smov (fld w 30 1) (fld w 17 7) (fld w 10 7)),
  okIf (bitsAt w 0 10 == 1) (.spopc (fld w 30 1) (fld w 17 7) (fld w 10 7)),
  okIf (bitsAt w 0 10 == 2) (.sclz (fld w 30 1) (fld w 17 7) (fld w 10 7))]

/-- Major 0x0E of the U class (SMOVL, SMOVH). -/
def decodeU0E (w : Nat) : Except DecodeError Instr := firstOf 1 14 [
  okIf (bitsAt w 16 1 == 0) (.smovl (fld w 30 1) (fld w 17 7) (fld w 0 16)),
  okIf (bitsAt w 16 1 == 1) (.smovh (fld w 30 1) (fld w 17 7) (fld w 0 16))]

/-- Major 0x0F of the U class (SRD, SWR). -/
def decodeU0F (w : Nat) : Except DecodeError Instr := firstOf 1 15 [
  okIf (bitsAt w 8 9 == 0) (.srd (fld w 30 1) (fld w 17 7) (fld w 0 8)),
  okIf (bitsAt w 17 7 == 0 && bitsAt w 8 2 == 1) (.swr (fld w 30 1) (fld w 10 7) (fld w 0 8))]

/-- Major 0x10 of the U class (BRA). -/
def decodeU10 (w : Nat) : Except DecodeError Instr := firstOf 1 16 [
  okIf (true) (.bra (fld w 30 1) (fld w 0 24))]

/-- Major 0x11 of the U class (BRC). -/
def decodeU11 (w : Nat) : Except DecodeError Instr := firstOf 1 17 [
  okIf (true) (.brc (fld w 30 1) (fld w 20 4) (fld w 13 7) (fld w 0 13))]

/-- Major 0x12 of the U class (CALL). -/
def decodeU12 (w : Nat) : Except DecodeError Instr := firstOf 1 18 [
  okIf (true) (.call (fld w 30 1) (fld w 0 24))]

/-- Major 0x13 of the U class (RET). -/
def decodeU13 (w : Nat) : Except DecodeError Instr := firstOf 1 19 [
  okIf (bitsAt w 0 24 == 0) (.ret (fld w 30 1))]

/-- Major 0x14 of the U class (JMPI). -/
def decodeU14 (w : Nat) : Except DecodeError Instr := firstOf 1 20 [
  okIf (bitsAt w 17 7 == 0 && bitsAt w 0 10 == 0) (.jmpi (fld w 30 1) (fld w 10 7))]

/-- Major 0x15 of the U class (EXIT). -/
def decodeU15 (w : Nat) : Except DecodeError Instr := firstOf 1 21 [
  okIf (bitsAt w 0 24 == 0) (.exit (fld w 30 1))]

/-- Major 0x16 of the U class (YIELD, YIELD_LY). -/
def decodeU16 (w : Nat) : Except DecodeError Instr := firstOf 1 22 [
  okIf (bitsAt w 0 24 == 0) (.yield (fld w 30 1)),
  okIf (bitsAt w 0 24 == 1) (.yieldLy (fld w 30 1))]

/-- Major 0x17 of the U class (PAUSE). -/
def decodeU17 (w : Nat) : Except DecodeError Instr := firstOf 1 23 [
  okIf (bitsAt w 10 14 == 0) (.pause (fld w 30 1) (fld w 0 10))]

/-- Major 0x18 of the U class (BAR). -/
def decodeU18 (w : Nat) : Except DecodeError Instr := firstOf 1 24 [
  okIf (bitsAt w 17 7 == 0) (.bar (fld w 30 1) (fld w 10 7) (fld w 0 10))]

/-- Major 0x19 of the U class (BARA). -/
def decodeU19 (w : Nat) : Except DecodeError Instr := firstOf 1 25 [
  okIf (true) (.bara (fld w 30 1) (fld w 17 7) (fld w 10 7) (fld w 0 10))]

/-- Major 0x1A of the U class (BARW). -/
def decodeU1A (w : Nat) : Except DecodeError Instr := firstOf 1 26 [
  okIf (true) (.barw (fld w 30 1) (fld w 17 7) (fld w 10 7) (fld w 0 10))]

/-- Major 0x1B of the U class (BARINIT). -/
def decodeU1B (w : Nat) : Except DecodeError Instr := firstOf 1 27 [
  okIf (true) (.barinit (fld w 30 1) (fld w 17 7) (fld w 10 7) (fld w 0 10))]

/-- Major 0x1C of the U class (GBAR). -/
def decodeU1C (w : Nat) : Except DecodeError Instr := firstOf 1 28 [
  okIf (bitsAt w 2 22 == 0) (.gbar (fld w 30 1) (fld w 0 2))]

/-- Major 0x1D of the U class (WAITCMP). -/
def decodeU1D (w : Nat) : Except DecodeError Instr := firstOf 1 29 [
  okIf (true) (.waitcmp (fld w 30 1) (fld w 17 7) (fld w 10 7) (fld w 3 7) (fld w 0 3))]

/-- Major 0x1E of the U class (FENCE). -/
def decodeU1E (w : Nat) : Except DecodeError Instr := firstOf 1 30 [
  okIf (bitsAt w 16 8 == 0 && bitsAt w 4 6 == 0) (.fence (fld w 30 1) (fld w 14 2) (fld w 11 3) (fld w 10 1) (fld w 0 4))]

/-- Major 0x1F of the U class (XFENCE). -/
def decodeU1F (w : Nat) : Except DecodeError Instr := firstOf 1 31 [
  okIf (bitsAt w 16 8 == 0 && bitsAt w 10 3 == 0) (.xfence (fld w 30 1) (fld w 13 3) (fld w 5 5) (fld w 0 5))]

/-- Major 0x20 of the U class (SLD). -/
def decodeU20 (w : Nat) : Except DecodeError Instr := firstOf 1 32 [
  okIf (bitsAt w 3 1 == 0) (.sld (fld w 30 1) (fld w 17 7) (fld w 10 7) (fld w 6 4) (fld w 4 2) (fld w 0 3))]

/-- Major 0x21 of the U class (SST). -/
def decodeU21 (w : Nat) : Except DecodeError Instr := firstOf 1 33 [
  okIf (bitsAt w 3 1 == 0) (.sst (fld w 30 1) (fld w 17 7) (fld w 10 7) (fld w 6 4) (fld w 4 2) (fld w 0 3))]

/-- Major 0x22 of the U class (SATOM). -/
def decodeU22 (w : Nat) : Except DecodeError Instr := firstOf 1 34 [
  okIf (bitsAt w 3 1 == 0) (.satom (fld w 30 1) (fld w 17 7) (fld w 10 7) (fld w 6 4) (fld w 4 2) (fld w 0 3))]

/-- Major 0x23 of the U class (REGGIVE). -/
def decodeU23 (w : Nat) : Except DecodeError Instr := firstOf 1 35 [
  okIf (bitsAt w 10 14 == 0) (.reggive (fld w 30 1) (fld w 0 10))]

/-- Major 0x24 of the U class (REGTAKE). -/
def decodeU24 (w : Nat) : Except DecodeError Instr := firstOf 1 36 [
  okIf (bitsAt w 10 14 == 0) (.regtake (fld w 30 1) (fld w 0 10))]

/-- Major 0x25 of the U class (AALLOC_N, AALLOC). -/
def decodeU25 (w : Nat) : Except DecodeError Instr := firstOf 1 37 [
  okIf (bitsAt w 7 10 == 1) (.aallocN (fld w 30 1) (fld w 17 7) (fld w 0 7)),
  okIf (bitsAt w 0 17 == 0) (.aalloc (fld w 30 1) (fld w 17 7))]

/-- Major 0x26 of the U class (AFREE). -/
def decodeU26 (w : Nat) : Except DecodeError Instr := firstOf 1 38 [
  okIf (bitsAt w 17 7 == 0 && bitsAt w 0 10 == 0) (.afree (fld w 30 1) (fld w 10 7))]

/-- Major 0x28 of the U class (TCFG). -/
def decodeU28 (w : Nat) : Except DecodeError Instr := firstOf 1 40 [
  okIf (bitsAt w 20 4 == 0 && bitsAt w 0 10 == 0) (.tcfg (fld w 30 1) (fld w 17 3) (fld w 10 7))]

/-- Major 0x29 of the U class (TLD, TST). -/
def decodeU29 (w : Nat) : Except DecodeError Instr := firstOf 1 41 [
  okIf (bitsAt w 20 4 == 0 && bitsAt w 0 10 == 0) (.tld (fld w 30 1) (fld w 17 3) (fld w 10 7)),
  okIf (bitsAt w 20 4 == 0 && bitsAt w 0 10 == 1) (.tst (fld w 30 1) (fld w 17 3) (fld w 10 7))]

/-- Major 0x2A of the U class (TREL). -/
def decodeU2A (w : Nat) : Except DecodeError Instr := firstOf 1 42 [
  okIf (bitsAt w 20 4 == 0 && bitsAt w 0 17 == 0) (.trel (fld w 30 1) (fld w 17 3))]

/-- Major 0x2B of the U class (MMA). -/
def decodeU2B (w : Nat) : Except DecodeError Instr := firstOf 1 43 [
  okIf (bitsAt w 8 3 == 0 && bitsAt w 0 3 == 0) (.mma (fld w 30 1) (fld w 17 7) (fld w 14 3) (fld w 11 3) (fld w 7 1) (fld w 6 1) (fld w 5 1) (fld w 4 1) (fld w 3 1))]

/-- Major 0x2C of the U class (MMAQ). -/
def decodeU2C (w : Nat) : Except DecodeError Instr := firstOf 1 44 [
  okIf (bitsAt w 0 3 == 0) (.mmaq (fld w 30 1) (fld w 17 7) (fld w 14 3) (fld w 11 3) (fld w 8 3) (fld w 7 1) (fld w 6 1) (fld w 5 1) (fld w 4 1) (fld w 3 1))]

/-- Major 0x2D of the U class (AZERO, ASCALE). -/
def decodeU2D (w : Nat) : Except DecodeError Instr := firstOf 1 45 [
  okIf (bitsAt w 0 17 == 0) (.azero (fld w 30 1) (fld w 17 7)),
  okIf (bitsAt w 0 10 == 1) (.ascale (fld w 30 1) (fld w 17 7) (fld w 10 7))]

/-- Major 0x2E of the U class (MRED). -/
def decodeU2E (w : Nat) : Except DecodeError Instr := firstOf 1 46 [
  okIf (bitsAt w 1 2 == 0) (.mred (fld w 30 1) (fld w 17 7) (fld w 10 7) (fld w 3 7) (fld w 0 1))]

/-- Major 0x2F of the U class (MSYNC). -/
def decodeU2F (w : Nat) : Except DecodeError Instr := firstOf 1 47 [
  okIf (bitsAt w 0 24 == 0) (.msync (fld w 30 1))]

/-- Major 0x30 of the U class (CPA). -/
def decodeU30 (w : Nat) : Except DecodeError Instr := firstOf 1 48 [
  okIf (bitsAt w 2 8 == 0) (.cpa (fld w 30 1) (fld w 17 7) (fld w 10 7) (fld w 0 2))]

/-- Major 0x31 of the U class (CPWP). -/
def decodeU31 (w : Nat) : Except DecodeError Instr := firstOf 1 49 [
  okIf (bitsAt w 3 14 == 0) (.cpwp (fld w 30 1) (fld w 17 7) (fld w 0 3))]

/-- Major 0x32 of the U class (GTH, SCT). -/
def decodeU32 (w : Nat) : Except DecodeError Instr := firstOf 1 50 [
  okIf (bitsAt w 17 7 == 0 && bitsAt w 0 10 == 0) (.gth (fld w 30 1) (fld w 10 7)),
  okIf (bitsAt w 17 7 == 0 && bitsAt w 0 10 == 1) (.sct (fld w 30 1) (fld w 10 7))]

/-- Major 0x33 of the U class (SELQ, SELK). -/
def decodeU33 (w : Nat) : Except DecodeError Instr := firstOf 1 51 [
  okIf (bitsAt w 0 10 == 0) (.selq (fld w 30 1) (fld w 17 7) (fld w 10 7)),
  okIf (bitsAt w 0 10 == 1) (.selk (fld w 30 1) (fld w 17 7) (fld w 10 7))]

/-- Major 0x34 of the U class (CLV). -/
def decodeU34 (w : Nat) : Except DecodeError Instr := firstOf 1 52 [
  okIf (bitsAt w 2 8 == 0) (.clv (fld w 30 1) (fld w 17 7) (fld w 10 7) (fld w 0 2))]

/-- Major 0x35 of the U class (TKW, TKQ). -/
def decodeU35 (w : Nat) : Except DecodeError Instr := firstOf 1 53 [
  okIf (bitsAt w 17 7 == 0 && bitsAt w 0 10 == 0) (.tkw (fld w 30 1) (fld w 10 7)),
  okIf (bitsAt w 0 10 == 1) (.tkq (fld w 30 1) (fld w 17 7) (fld w 10 7))]

/-- Major 0x36 of the U class (VCALL, VFORCE). -/
def decodeU36 (w : Nat) : Except DecodeError Instr := firstOf 1 54 [
  okIf (bitsAt w 0 3 == 0) (.vcall (fld w 30 1) (fld w 17 7) (fld w 10 7) (fld w 3 7)),
  okIf (bitsAt w 0 3 == 1) (.vforce (fld w 30 1) (fld w 17 7) (fld w 10 7) (fld w 3 7))]

/-- Major 0x37 of the U class (VRET, VRET_Q). -/
def decodeU37 (w : Nat) : Except DecodeError Instr := firstOf 1 55 [
  okIf (bitsAt w 0 24 == 0) (.vret (fld w 30 1)),
  okIf (bitsAt w 17 7 == 0 && bitsAt w 0 10 == 1) (.vretQ (fld w 30 1) (fld w 10 7))]

/-- Major 0x38 of the U class (VLIM). -/
def decodeU38 (w : Nat) : Except DecodeError Instr := firstOf 1 56 [
  okIf (bitsAt w 17 7 == 0 && bitsAt w 2 1 == 0) (.vlim (fld w 30 1) (fld w 10 7) (fld w 3 7) (fld w 0 2))]

/-- Major 0x39 of the U class (VTAG, VMETER). -/
def decodeU39 (w : Nat) : Except DecodeError Instr := firstOf 1 57 [
  okIf (bitsAt w 0 3 == 0) (.vtag (fld w 30 1) (fld w 17 7) (fld w 10 7) (fld w 3 7)),
  okIf (bitsAt w 0 10 == 1) (.vmeter (fld w 30 1) (fld w 17 7) (fld w 10 7))]

/-- Major 0x3A of the U class (TRAP). -/
def decodeU3A (w : Nat) : Except DecodeError Instr := firstOf 1 58 [
  okIf (bitsAt w 16 8 == 0) (.trap (fld w 30 1) (fld w 0 16))]

/-- Major 0x3B of the U class (ERET, BRK). -/
def decodeU3B (w : Nat) : Except DecodeError Instr := firstOf 1 59 [
  okIf (bitsAt w 2 22 == 0) (.eret (fld w 30 1) (fld w 1 1) (fld w 0 1)),
  okIf (bitsAt w 16 8 == 1) (.brk (fld w 30 1) (fld w 0 16))]

/-- Major 0x3C of the U class (TRACE). -/
def decodeU3C (w : Nat) : Except DecodeError Instr := firstOf 1 60 [
  okIf (bitsAt w 16 8 == 0) (.trace (fld w 30 1) (fld w 9 7) (fld w 0 9))]

/-- Major 0x3D of the U class (MBOX). -/
def decodeU3D (w : Nat) : Except DecodeError Instr := firstOf 1 61 [
  okIf (bitsAt w 16 8 == 0 && bitsAt w 0 9 == 0) (.mbox (fld w 30 1) (fld w 9 7))]

/-- Major 0x3E of the U class (SYSC). -/
def decodeU3E (w : Nat) : Except DecodeError Instr := firstOf 1 62 [
  okIf (bitsAt w 16 8 == 0) (.sysc (fld w 30 1) (fld w 9 7) (fld w 0 9))]

/-- Major 0x3F of the U class (LEASEQ). -/
def decodeU3F (w : Nat) : Except DecodeError Instr := firstOf 1 63 [
  okIf (bitsAt w 16 8 == 0 && bitsAt w 0 9 == 0) (.leaseq (fld w 30 1) (fld w 9 7))]

/-- The U-class majors (R68). -/
def decodeU (op w : Nat) : Except DecodeError Instr :=
  match op with
  | 0 => decodeU00 w
  | 1 => decodeU01 w
  | 4 => decodeU04 w
  | 5 => decodeU05 w
  | 6 => decodeU06 w
  | 7 => decodeU07 w
  | 8 => decodeU08 w
  | 9 => decodeU09 w
  | 10 => decodeU0A w
  | 11 => decodeU0B w
  | 12 => decodeU0C w
  | 13 => decodeU0D w
  | 14 => decodeU0E w
  | 15 => decodeU0F w
  | 16 => decodeU10 w
  | 17 => decodeU11 w
  | 18 => decodeU12 w
  | 19 => decodeU13 w
  | 20 => decodeU14 w
  | 21 => decodeU15 w
  | 22 => decodeU16 w
  | 23 => decodeU17 w
  | 24 => decodeU18 w
  | 25 => decodeU19 w
  | 26 => decodeU1A w
  | 27 => decodeU1B w
  | 28 => decodeU1C w
  | 29 => decodeU1D w
  | 30 => decodeU1E w
  | 31 => decodeU1F w
  | 32 => decodeU20 w
  | 33 => decodeU21 w
  | 34 => decodeU22 w
  | 35 => decodeU23 w
  | 36 => decodeU24 w
  | 37 => decodeU25 w
  | 38 => decodeU26 w
  | 40 => decodeU28 w
  | 41 => decodeU29 w
  | 42 => decodeU2A w
  | 43 => decodeU2B w
  | 44 => decodeU2C w
  | 45 => decodeU2D w
  | 46 => decodeU2E w
  | 47 => decodeU2F w
  | 48 => decodeU30 w
  | 49 => decodeU31 w
  | 50 => decodeU32 w
  | 51 => decodeU33 w
  | 52 => decodeU34 w
  | 53 => decodeU35 w
  | 54 => decodeU36 w
  | 55 => decodeU37 w
  | 56 => decodeU38 w
  | 57 => decodeU39 w
  | 58 => decodeU3A w
  | 59 => decodeU3B w
  | 60 => decodeU3C w
  | 61 => decodeU3D w
  | 62 => decodeU3E w
  | 63 => decodeU3F w
  | _ => .error (.reservedMajor 1 op)

/-- A Sikai word (R51): the class bit and the major choose the map. -/
def decodeWord (w : Nat) : Except DecodeError Instr :=
  if bitsAt w 31 1 == 0 then decodeL (bitsAt w 24 6) w else decodeU (bitsAt w 24 6) w

/-- A command word of a lantern core (R367): opcode 0x0B, funct7 zero, funct3 0 to 3. -/
def decodeLantern (w : Nat) : Except DecodeError Instr :=
  if bitsAt w 0 7 == 0x0B && bitsAt w 25 7 == 0 then
    match bitsAt w 12 3 with
    | 0 => .ok (.rfetch (fld w 20 5) (fld w 15 5) (fld w 7 5))
    | 1 => .ok (.bfxt (fld w 20 5) (fld w 15 5) (fld w 7 5))
    | 2 => .ok (.swait (fld w 20 5) (fld w 15 5) (fld w 7 5))
    | 3 => .ok (.disp (fld w 20 5) (fld w 15 5) (fld w 7 5))
    | _ => .error .notCommand
  else .error .notCommand

/-- The number a list of bytes stands for, the first byte lowest (R4, R51). -/
def leNat : List Byte → Nat
  | [] => 0
  | b :: r => b.toNat + 256 * leNat r

/-- The n lowest bytes of a number, lowest first. -/
def leBytes : Nat → Nat → List Byte
  | 0, _ => []
  | n + 1, x => BitVec.ofNat 8 (x % 256) :: leBytes n (x / 256)

/-- Decode at the head of any list of bytes: the word's instruction and the bytes after it. -/
def decodeBytes : List Byte → Except DecodeError (Instr × List Byte)
  | b0 :: b1 :: b2 :: b3 :: r => (decodeWord (leNat [b0, b1, b2, b3])).map fun i => (i, r)
  | _ => .error .tooShort

/-- What the decoder reads from an instruction whose bits are w (every row of the table is one 32-bit word): its
bytes are laid out as R51 stores them and given to the decoders. No word is both a Sikai word and a command word. -/
def decodeTableWord (nbits w : Nat) : Option Instr :=
  match decodeBytes (leBytes 4 (w % 2 ^ nbits)) with
  | .ok (i, _) => some i
  | .error _ =>
    match decodeLantern (w % 2 ^ nbits % 2 ^ 32) with
    | .ok i => some i
    | .error _ => none

/-- A field at its place in the word. -/
def put {n : Nat} (x : BitVec n) (lo : Nat) : Nat := x.toNat * 2 ^ lo

/-- The word of an instruction (R51, R55, R56, R67, R68, R367), its fields in their places. Event rows have no word. -/
def encode? : Instr → Option Nat
  | .nop s =>
    some (0x00000000 + put s 30)
  | .iadd s g d a b u =>
    some (0x01000000 + put s 30 + put g 22 + put d 16 + put a 10 + put b 4 + put u 3)
  | .iaddSat s g d a b u t =>
    some (0x01000000 + put s 30 + put g 22 + put d 16 + put a 10 + put b 4 + put u 3 + put t 0)
  | .isub s g d a b u =>
    some (0x02000000 + put s 30 + put g 22 + put d 16 + put a 10 + put b 4 + put u 3)
  | .isubSat s g d a b u t =>
    some (0x02000000 + put s 30 + put g 22 + put d 16 + put a 10 + put b 4 + put u 3 + put t 0)
  | .iaddImm s g d a i =>
    some (0x03000000 + put s 30 + put g 22 + put d 16 + put a 10 + put i 0)
  | .imul s g d a b u =>
    some (0x04000000 + put s 30 + put g 22 + put d 16 + put a 10 + put b 4 + put u 3)
  | .imulh s g d a b u t =>
    some (0x04000000 + put s 30 + put g 22 + put d 16 + put a 10 + put b 4 + put u 3 + put t 0)
  | .imad s d a b c =>
    some (0x05000000 + put s 30 + put d 18 + put a 12 + put b 6 + put c 0)
  | .imin s g d a b u t =>
    some (0x06000000 + put s 30 + put g 22 + put d 16 + put a 10 + put b 4 + put u 3 + put t 0)
  | .imax s g d a b u t =>
    some (0x06000002 + put s 30 + put g 22 + put d 16 + put a 10 + put b 4 + put u 3 + put t 0)
  | .iabs s g d a =>
    some (0x06000004 + put s 30 + put g 22 + put d 16 + put a 10)
  | .iabsSat s g d a =>
    some (0x06000005 + put s 30 + put g 22 + put d 16 + put a 10)
  | .rndh s g d a b u =>
    some (0x07000000 + put s 30 + put g 22 + put d 16 + put a 10 + put b 4 + put u 3)
  | .andL s g d a b u =>
    some (0x08000000 + put s 30 + put g 22 + put d 16 + put a 10 + put b 4 + put u 3)
  | .orL s g d a b u =>
    some (0x08000001 + put s 30 + put g 22 + put d 16 + put a 10 + put b 4 + put u 3)
  | .xorL s g d a b u =>
    some (0x08000002 + put s 30 + put g 22 + put d 16 + put a 10 + put b 4 + put u 3)
  | .andn s g d a b u =>
    some (0x08000003 + put s 30 + put g 22 + put d 16 + put a 10 + put b 4 + put u 3)
  | .shl s g d a b u =>
    some (0x09000000 + put s 30 + put g 22 + put d 16 + put a 10 + put b 4 + put u 3)
  | .shr s g d a b u =>
    some (0x09000001 + put s 30 + put g 22 + put d 16 + put a 10 + put b 4 + put u 3)
  | .sar s g d a b u =>
    some (0x09000002 + put s 30 + put g 22 + put d 16 + put a 10 + put b 4 + put u 3)
  | .rol s g d a b u =>
    some (0x09000003 + put s 30 + put g 22 + put d 16 + put a 10 + put b 4 + put u 3)
  | .shlImm s g d a c =>
    some (0x0A000000 + put s 30 + put g 22 + put d 16 + put a 10 + put c 0)
  | .shrImm s g d a c =>
    some (0x0A000080 + put s 30 + put g 22 + put d 16 + put a 10 + put c 0)
  | .sarImm s g d a c =>
    some (0x0A000100 + put s 30 + put g 22 + put d 16 + put a 10 + put c 0)
  | .rolImm s g d a c =>
    some (0x0A000180 + put s 30 + put g 22 + put d 16 + put a 10 + put c 0)
  | .popc s g d a =>
    some (0x0B000000 + put s 30 + put g 22 + put d 16 + put a 10)
  | .clz s g d a =>
    some (0x0B000001 + put s 30 + put g 22 + put d 16 + put a 10)
  | .brev s g d a =>
    some (0x0B000002 + put s 30 + put g 22 + put d 16 + put a 10)
  | .bfx s g d a b u t =>
    some (0x0C000000 + put s 30 + put g 22 + put d 16 + put a 10 + put b 4 + put u 3 + put t 0)
  | .bfi s d a b c =>
    some (0x0D000000 + put s 30 + put d 18 + put a 12 + put b 6 + put c 0)
  | .prmb s d a b c =>
    some (0x0E000000 + put s 30 + put d 18 + put a 12 + put b 6 + put c 0)
  | .lea s g d a b u h =>
    some (0x0F000000 + put s 30 + put g 22 + put d 16 + put a 10 + put b 4 + put u 3 + put h 0)
  | .icmp s g t p a b u c =>
    some (0x10000000 + put s 30 + put g 22 + put t 18 + put p 16 + put a 10 + put b 4 + put u 3 + put c 0)
  | .sel s g d a b u p =>
    some (0x11000000 + put s 30 + put g 22 + put d 16 + put a 10 + put b 4 + put u 3 + put p 0)
  | .plog s g d a b o =>
    some (0x12000000 + put s 30 + put g 22 + put d 16 + put a 10 + put b 4 + put o 0)
  | .pmovGet s g d =>
    some (0x13000000 + put s 30 + put g 22 + put d 16)
  | .pmovPut s g a =>
    some (0x13000001 + put s 30 + put g 22 + put a 10)
  | .mov s g d b =>
    some (0x14000000 + put s 30 + put g 22 + put d 16 + put b 4)
  | .movs s g d b =>
    some (0x14000008 + put s 30 + put g 22 + put d 16 + put b 4)
  | .movImm s g d i =>
    some (0x15000000 + put s 30 + put g 22 + put d 16 + put i 0)
  | .vsrd s g d n =>
    some (0x16000000 + put s 30 + put g 22 + put d 16 + put n 0)
  | .fadd s g d a b u =>
    some (0x18000000 + put s 30 + put g 22 + put d 16 + put a 10 + put b 4 + put u 3)
  | .fsub s g d a b u =>
    some (0x18000001 + put s 30 + put g 22 + put d 16 + put a 10 + put b 4 + put u 3)
  | .fmul s g d a b u =>
    some (0x18000002 + put s 30 + put g 22 + put d 16 + put a 10 + put b 4 + put u 3)
  | .ffma s d a b c =>
    some (0x19000000 + put s 30 + put d 18 + put a 12 + put b 6 + put c 0)
  | .fmin s g d a b u =>
    some (0x1A000000 + put s 30 + put g 22 + put d 16 + put a 10 + put b 4 + put u 3)
  | .fmax s g d a b u =>
    some (0x1A000001 + put s 30 + put g 22 + put d 16 + put a 10 + put b 4 + put u 3)
  | .fscl s g d a b u =>
    some (0x1A000002 + put s 30 + put g 22 + put d 16 + put a 10 + put b 4 + put u 3)
  | .fcmp s g p a b u c =>
    some (0x1B000000 + put s 30 + put g 22 + put p 16 + put a 10 + put b 4 + put u 3 + put c 0)
  | .hcmp2 s g t p a b u c =>
    some (0x1B000000 + put s 30 + put g 22 + put t 18 + put p 16 + put a 10 + put b 4 + put u 3 + put c 0)
  | .frnd s g d a r =>
    some (0x1C000000 + put s 30 + put g 22 + put d 16 + put a 10 + put r 0)
  | .hadd2 s g d a b u h =>
    some (0x1D000000 + put s 30 + put g 22 + put d 16 + put a 10 + put b 4 + put u 3 + put h 2)
  | .hmul2 s g d a b u h =>
    some (0x1D000001 + put s 30 + put g 22 + put d 16 + put a 10 + put b 4 + put u 3 + put h 2)
  | .hmin2 s g d a b u h =>
    some (0x1D000002 + put s 30 + put g 22 + put d 16 + put a 10 + put b 4 + put u 3 + put h 2)
  | .hmax2 s g d a b u h =>
    some (0x1D000003 + put s 30 + put g 22 + put d 16 + put a 10 + put b 4 + put u 3 + put h 2)
  | .hfma2 s d a b c =>
    some (0x1E000000 + put s 30 + put d 18 + put a 12 + put b 6 + put c 0)
  | .hfma2Bf16 s d a b c =>
    some (0x1F000000 + put s 30 + put d 18 + put a 12 + put b 6 + put c 0)
  | .exp2 s g d a =>
    some (0x20000000 + put s 30 + put g 22 + put d 16 + put a 10)
  | .log2 s g d a =>
    some (0x20000001 + put s 30 + put g 22 + put d 16 + put a 10)
  | .rcp s g d a =>
    some (0x20000002 + put s 30 + put g 22 + put d 16 + put a 10)
  | .rsq s g d a =>
    some (0x20000003 + put s 30 + put g 22 + put d 16 + put a 10)
  | .sqrt s g d a =>
    some (0x20000004 + put s 30 + put g 22 + put d 16 + put a 10)
  | .sin s g d a =>
    some (0x20000005 + put s 30 + put g 22 + put d 16 + put a 10)
  | .cos s g d a =>
    some (0x20000006 + put s 30 + put g 22 + put d 16 + put a 10)
  | .tanh s g d a =>
    some (0x20000007 + put s 30 + put g 22 + put d 16 + put a 10)
  | .cvt s g d a x y r =>
    some (0x24000000 + put s 30 + put g 22 + put d 16 + put a 10 + put x 7 + put y 4 + put r 0)
  | .cvth2 s g d a b u h =>
    some (0x25000000 + put s 30 + put g 22 + put d 16 + put a 10 + put b 4 + put u 3 + put h 0)
  | .cvth2Widen s g d a h =>
    some (0x25000002 + put s 30 + put g 22 + put d 16 + put a 10 + put h 0)
  | .cvtq s g d a n =>
    some (0x26000000 + put s 30 + put g 22 + put d 16 + put a 10 + put n 4)
  | .cvtd s g d a n =>
    some (0x26000001 + put s 30 + put g 22 + put d 16 + put a 10 + put n 4)
  | .mono s g d a t =>
    some (0x26000002 + put s 30 + put g 22 + put d 16 + put a 10 + put t 4)
  | .monoi s g d a t =>
    some (0x26000003 + put s 30 + put g 22 + put d 16 + put a 10 + put t 4)
  | .dp4 s g d a b u t =>
    some (0x27000000 + put s 30 + put g 22 + put d 16 + put a 10 + put b 4 + put u 3 + put t 0)
  | .dp8 s g d a b u t =>
    some (0x27000002 + put s 30 + put g 22 + put d 16 + put a 10 + put b 4 + put u 3 + put t 0)
  | .dp2h s g d a b u =>
    some (0x27000004 + put s 30 + put g 22 + put d 16 + put a 10 + put b 4 + put u 3)
  | .dp4eE4m3 s g d a b u =>
    some (0x27000005 + put s 30 + put g 22 + put d 16 + put a 10 + put b 4 + put u 3)
  | .dp4eE5m2 s g d a b u =>
    some (0x27000006 + put s 30 + put g 22 + put d 16 + put a 10 + put b 4 + put u 3)
  | .dp2hBf16 s g d a b u =>
    some (0x27000007 + put s 30 + put g 22 + put d 16 + put a 10 + put b 4 + put u 3)
  | .shfl s g d a b u m =>
    some (0x28000000 + put s 30 + put g 22 + put d 16 + put a 10 + put b 4 + put u 3 + put m 0)
  | .voteAny s g d p =>
    some (0x29000000 + put s 30 + put g 22 + put d 16 + put p 10)
  | .voteAll s g d p =>
    some (0x29000001 + put s 30 + put g 22 + put d 16 + put p 10)
  | .voteBallot s g d p =>
    some (0x29000002 + put s 30 + put g 22 + put d 16 + put p 10)
  | .wred s g d a o =>
    some (0x2A000000 + put s 30 + put g 22 + put d 16 + put a 10 + put o 0)
  | .wscan s g d a o =>
    some (0x2A000004 + put s 30 + put g 22 + put d 16 + put a 10 + put o 0)
  | .matchL s g d a =>
    some (0x2B000000 + put s 30 + put g 22 + put d 16 + put a 10)
  | .brl s g o =>
    some (0x2C000000 + put s 30 + put g 22 + put o 0)
  | .jset s g o =>
    some (0x2D000000 + put s 30 + put g 22 + put o 0)
  | .lcall s g o =>
    some (0x2E000000 + put s 30 + put g 22 + put o 0)
  | .join s =>
    some (0x2F000000 + put s 30)
  | .lret s =>
    some (0x2F000001 + put s 30)
  | .ldg s g d a t p w =>
    some (0x30000000 + put s 30 + put g 22 + put d 16 + put a 10 + put t 6 + put p 4 + put w 0)
  | .stg s g d a t p w =>
    some (0x31000000 + put s 30 + put g 22 + put d 16 + put a 10 + put t 6 + put p 4 + put w 0)
  | .lds s g d a t w =>
    some (0x32000000 + put s 30 + put g 22 + put d 16 + put a 10 + put t 6 + put w 0)
  | .sts s g d a t w =>
    some (0x33000000 + put s 30 + put g 22 + put d 16 + put a 10 + put t 6 + put w 0)
  | .ldc s g d a t p w =>
    some (0x34000000 + put s 30 + put g 22 + put d 16 + put a 10 + put t 6 + put p 4 + put w 0)
  | .atom s g d a t o =>
    some (0x35000000 + put s 30 + put g 22 + put d 16 + put a 10 + put t 6 + put o 0)
  | .acas s g d a t p w =>
    some (0x36000004 + put s 30 + put g 22 + put d 16 + put a 10 + put t 6 + put p 4 + put w 0)
  | .red s g d a t o =>
    some (0x37000000 + put s 30 + put g 22 + put d 16 + put a 10 + put t 6 + put o 0)
  | .redm s g d a o =>
    some (0x38000000 + put s 30 + put g 22 + put d 16 + put a 10 + put o 0)
  | .pfg s g a p =>
    some (0x39000000 + put s 30 + put g 22 + put a 10 + put p 4)
  | .zline s g a t p =>
    some (0x3A000000 + put s 30 + put g 22 + put a 10 + put t 6 + put p 4)
  | .tfill s g k a b u w =>
    some (0x3C000000 + put s 30 + put g 22 + put k 16 + put a 10 + put b 4 + put u 3 + put w 0)
  | .adrain s g d a b w =>
    some (0x3D000008 + put s 30 + put g 22 + put d 16 + put a 10 + put b 4 + put w 0)
  | .rep n w x y z s =>
    some (0x80000000 + put n 18 + put w 17 + put x 16 + put y 15 + put z 14 + put s 10)
  | .limm i =>
    some (0x81000000 + put i 0)
  | .sadd s d a b =>
    some (0x84000000 + put s 30 + put d 17 + put a 10 + put b 3)
  | .ssub s d a b =>
    some (0x84000001 + put s 30 + put d 17 + put a 10 + put b 3)
  | .saddImm s d a i =>
    some (0x85000000 + put s 30 + put d 17 + put a 10 + put i 0)
  | .smul s d a b =>
    some (0x86000000 + put s 30 + put d 17 + put a 10 + put b 3)
  | .smulh s d a b t =>
    some (0x86000000 + put s 30 + put d 17 + put a 10 + put b 3 + put t 0)
  | .sand s d a b =>
    some (0x87000000 + put s 30 + put d 17 + put a 10 + put b 3)
  | .sor s d a b =>
    some (0x87000001 + put s 30 + put d 17 + put a 10 + put b 3)
  | .sxor s d a b =>
    some (0x87000002 + put s 30 + put d 17 + put a 10 + put b 3)
  | .sshl s d a b =>
    some (0x88000000 + put s 30 + put d 17 + put a 10 + put b 3)
  | .sshr s d a b =>
    some (0x88000001 + put s 30 + put d 17 + put a 10 + put b 3)
  | .ssar s d a b =>
    some (0x88000002 + put s 30 + put d 17 + put a 10 + put b 3)
  | .sshlImm s d a c =>
    some (0x89000000 + put s 30 + put d 17 + put a 10 + put c 0)
  | .sshrImm s d a c =>
    some (0x89000100 + put s 30 + put d 17 + put a 10 + put c 0)
  | .ssarImm s d a c =>
    some (0x89000200 + put s 30 + put d 17 + put a 10 + put c 0)
  | .smin s d a b t =>
    some (0x8A000000 + put s 30 + put d 17 + put a 10 + put b 3 + put t 0)
  | .smax s d a b t =>
    some (0x8A000002 + put s 30 + put d 17 + put a 10 + put b 3 + put t 0)
  | .scmp s d a b c =>
    some (0x8B000000 + put s 30 + put d 17 + put a 10 + put b 3 + put c 0)
  | .ssel s d a b =>
    some (0x8C000000 + put s 30 + put d 17 + put a 10 + put b 3)
  | .smov s d a =>
    some (0x8D000000 + put s 30 + put d 17 + put a 10)
  | .spopc s d a =>
    some (0x8D000001 + put s 30 + put d 17 + put a 10)
  | .sclz s d a =>
    some (0x8D000002 + put s 30 + put d 17 + put a 10)
  | .smovl s d i =>
    some (0x8E000000 + put s 30 + put d 17 + put i 0)
  | .smovh s d i =>
    some (0x8E010000 + put s 30 + put d 17 + put i 0)
  | .srd s d n =>
    some (0x8F000000 + put s 30 + put d 17 + put n 0)
  | .swr s a n =>
    some (0x8F000100 + put s 30 + put a 10 + put n 0)
  | .bra s o =>
    some (0x90000000 + put s 30 + put o 0)
  | .brc s c a o =>
    some (0x91000000 + put s 30 + put c 20 + put a 13 + put o 0)
  | .call s o =>
    some (0x92000000 + put s 30 + put o 0)
  | .ret s =>
    some (0x93000000 + put s 30)
  | .jmpi s a =>
    some (0x94000000 + put s 30 + put a 10)
  | .exit s =>
    some (0x95000000 + put s 30)
  | .yield s =>
    some (0x96000000 + put s 30)
  | .yieldLy s =>
    some (0x96000001 + put s 30)
  | .pause s i =>
    some (0x97000000 + put s 30 + put i 0)
  | .bar s a i =>
    some (0x98000000 + put s 30 + put a 10 + put i 0)
  | .bara s d a i =>
    some (0x99000000 + put s 30 + put d 17 + put a 10 + put i 0)
  | .barw s d a i =>
    some (0x9A000000 + put s 30 + put d 17 + put a 10 + put i 0)
  | .barinit s d a i =>
    some (0x9B000000 + put s 30 + put d 17 + put a 10 + put i 0)
  | .gbar s n =>
    some (0x9C000000 + put s 30 + put n 0)
  | .waitcmp s d a b c =>
    some (0x9D000000 + put s 30 + put d 17 + put a 10 + put b 3 + put c 0)
  | .fence s k sc l t =>
    some (0x9E000000 + put s 30 + put k 14 + put sc 11 + put l 10 + put t 0)
  | .xfence s sc x y =>
    some (0x9F000000 + put s 30 + put sc 13 + put x 5 + put y 0)
  | .sld s d a t p w =>
    some (0xA0000000 + put s 30 + put d 17 + put a 10 + put t 6 + put p 4 + put w 0)
  | .sst s d a t p w =>
    some (0xA1000000 + put s 30 + put d 17 + put a 10 + put t 6 + put p 4 + put w 0)
  | .satom s d a t p o =>
    some (0xA2000000 + put s 30 + put d 17 + put a 10 + put t 6 + put p 4 + put o 0)
  | .reggive s n =>
    some (0xA3000000 + put s 30 + put n 0)
  | .regtake s n =>
    some (0xA4000000 + put s 30 + put n 0)
  | .aallocN s d n =>
    some (0xA5000080 + put s 30 + put d 17 + put n 0)
  | .aalloc s d =>
    some (0xA5000000 + put s 30 + put d 17)
  | .afree s a =>
    some (0xA6000000 + put s 30 + put a 10)
  | .tcfg s t a =>
    some (0xA8000000 + put s 30 + put t 17 + put a 10)
  | .tld s t a =>
    some (0xA9000000 + put s 30 + put t 17 + put a 10)
  | .tst s t a =>
    some (0xA9000001 + put s 30 + put t 17 + put a 10)
  | .trel s t =>
    some (0xAA000000 + put s 30 + put t 17)
  | .mma s n a b z v x y w =>
    some (0xAB000000 + put s 30 + put n 17 + put a 14 + put b 11 + put z 7 + put v 6 + put x 5 + put y 4 + put w 3)
  | .mmaq s n a b l z v x y w =>
    some (0xAC000000 + put s 30 + put n 17 + put a 14 + put b 11 + put l 8 + put z 7 + put v 6 + put x 5 + put y 4 + put w 3)
  | .azero s d =>
    some (0xAD000000 + put s 30 + put d 17)
  | .ascale s d a =>
    some (0xAD000001 + put s 30 + put d 17 + put a 10)
  | .mred s d a o c =>
    some (0xAE000000 + put s 30 + put d 17 + put a 10 + put o 3 + put c 0)
  | .msync s =>
    some (0xAF000000 + put s 30)
  | .cpa s d a f =>
    some (0xB0000000 + put s 30 + put d 17 + put a 10 + put f 0)
  | .cpwp s d c =>
    some (0xB1000000 + put s 30 + put d 17 + put c 0)
  | .gth s a =>
    some (0xB2000000 + put s 30 + put a 10)
  | .sct s a =>
    some (0xB2000001 + put s 30 + put a 10)
  | .selq s d a =>
    some (0xB3000000 + put s 30 + put d 17 + put a 10)
  | .selk s d a =>
    some (0xB3000001 + put s 30 + put d 17 + put a 10)
  | .clv s d a f =>
    some (0xB4000000 + put s 30 + put d 17 + put a 10 + put f 0)
  | .tkw s a =>
    some (0xB5000000 + put s 30 + put a 10)
  | .tkq s d a =>
    some (0xB5000001 + put s 30 + put d 17 + put a 10)
  | .vcall s d a b =>
    some (0xB6000000 + put s 30 + put d 17 + put a 10 + put b 3)
  | .vforce s d a b =>
    some (0xB6000001 + put s 30 + put d 17 + put a 10 + put b 3)
  | .vret s =>
    some (0xB7000000 + put s 30)
  | .vretQ s a =>
    some (0xB7000001 + put s 30 + put a 10)
  | .vlim s a b x =>
    some (0xB8000000 + put s 30 + put a 10 + put b 3 + put x 0)
  | .vtag s d a b =>
    some (0xB9000000 + put s 30 + put d 17 + put a 10 + put b 3)
  | .vmeter s d a =>
    some (0xB9000001 + put s 30 + put d 17 + put a 10)
  | .trap s n =>
    some (0xBA000000 + put s 30 + put n 0)
  | .eret s r x =>
    some (0xBB000000 + put s 30 + put r 1 + put x 0)
  | .brk s n =>
    some (0xBB010000 + put s 30 + put n 0)
  | .trace s a n =>
    some (0xBC000000 + put s 30 + put a 9 + put n 0)
  | .mbox s a =>
    some (0xBD000000 + put s 30 + put a 9)
  | .sysc s a n =>
    some (0xBE000000 + put s 30 + put a 9 + put n 0)
  | .leaseq s d =>
    some (0xBF000000 + put s 30 + put d 9)
  | .rfetch t s d =>
    some (0x0000000B + put t 20 + put s 15 + put d 7)
  | .bfxt t s d =>
    some (0x0000100B + put t 20 + put s 15 + put d 7)
  | .swait t s d =>
    some (0x0000200B + put t 20 + put s 15 + put d 7)
  | .disp t s d =>
    some (0x0000300B + put t 20 + put s 15 + put d 7)
  | .swaitWake _ => none
  | .performAcc _ _ => none
  | .mergeRed _ => none
  | .flushCb _ => none
  | .runElem _ => none
  | .drainPath _ => none
  | .exportW _ => none
  | .importW _ => none
  | .postedAccessFault _ _ => none
  | .channelPlaceFreed _ _ => none
  | .chargeProceed _ _ => none
  | .kgroupComplete _ => none
  | .tileWaitResume _ _ => none
  | .drainWaitResume _ _ => none
  | .selectionEngineStart _ => none
  | .waveRelease _ => none
  | .waitcmpWake _ => none
  | .waitcmpPoll _ => none
  | .pauseEnd _ => none
  | .warpFree _ _ => none
  | .blockEnd _ => none
  | .lamplighterUpdate _ => none
  | .trapEntry _ _ => none
  | .faultRecordWrite _ => none
  | .fresumeRetry _ _ => none
  | .fresumeEndLaunch _ _ => none
  | .breakpointHit _ => none
  | .watchpointHit _ => none
  | .freezeSpread _ _ => none
  | .debugWindowWrite _ _ _ => none
  | .pcSample _ => none
  | .launchPk _ => none
  | .graphPk _ => none
  | .signalPk _ => none
  | .waitPk _ => none
  | .leasePk _ => none
  | .resyncPk _ => none
  | .fwactPk _ => none
  | .timerecPk _ => none
  | .waitSignalFires _ => none
  | .arbitrationRound _ => none
  | .queueBecomesRunnable _ => none
  | .taskQueuePlacement _ => none
  | .balancingExchange _ => none
  | .bundleStart _ _ => none
  | .launchCompletion _ _ => none
  | .graphNodeStart _ _ => none
  | .loopConditionRead _ _ => none
  | .graphCompletion _ => none
  | .firmwareActivation _ => none
  | .warpExchange _ _ => none
  | .pendingPromotion _ _ => none
  | .phaseSliceExpiry _ => none
  | .phaseSwap _ => none
  | .blockYield _ => none
  | .forcedSave _ => none
  | .savedUnitRestore _ => none
  | .timeLimitExpiry _ _ => none
  | .preemptRequest _ _ => none
  | .queueReset _ _ => none
  | .tlbiPage _ _ => none
  | .tlbiRegion _ _ => none
  | .tlbiAsid _ _ => none
  | .tlbiPartition _ _ => none
  | .tlbiComplete _ => none
  | .syscEntryWrite _ => none
  | .scactReply _ _ => none
  | .scactMarkIo _ _ => none
  | .scactEndLaunch _ _ => none
  | .mailboxRecordWrite _ => none
  | .mailboxHeadWrite _ _ => none
  | .measextWrite _ => none
  | .svnraiseWrite _ => none
  | .attestation => none
  | .partctlWrite _ _ _ => none
  | .hmapWrite _ => none
  | .registerWrite _ _ _ => none
  | .leaseDecision _ => none
  | .leaseRevocation _ => none
  | .leaseEnd _ => none
  | .operatingPointChange => none
  | .energyApportion _ _ => none
  | .moduleReset => none
  | .patrolScrub _ _ => none
  | .flitReceive _ _ _ => none
  | .linkRetrainFail _ => none
  | .dmaRequest _ _ => none
  | .resultReturn _ _ => none
  | .currentBucketRefill => none
  | .hostCoreStore _ _ _ _ => none
  | .collectiveGroupAbort _ _ => none
  | .fenlinkPortTrained _ => none
  | .backgroundCheck _ _ _ => none
  | .lanternInterrupt _ _ => none

/-- The words of an instruction: one word, or none for an event row. -/
def encode (i : Instr) : List (BitVec 32) :=
  match encode? i with
  | some w => [BitVec.ofNat 32 w]
  | none => []

/-- Is this instruction a word (of a warp, the MCC or a lantern core), not an event row? -/
def Instr.isWord (i : Instr) : Bool := (encode? i).isSome

/-- The class bit and major opcode of a Sikai word (R51); none for the lantern words and the events. -/
def Instr.major : Instr → Option (Nat × Nat)
  | .nop _ => some (0, 0x00)
  | .iadd _ _ _ _ _ _ => some (0, 0x01)
  | .iaddSat _ _ _ _ _ _ _ => some (0, 0x01)
  | .isub _ _ _ _ _ _ => some (0, 0x02)
  | .isubSat _ _ _ _ _ _ _ => some (0, 0x02)
  | .iaddImm _ _ _ _ _ => some (0, 0x03)
  | .imul _ _ _ _ _ _ => some (0, 0x04)
  | .imulh _ _ _ _ _ _ _ => some (0, 0x04)
  | .imad _ _ _ _ _ => some (0, 0x05)
  | .imin _ _ _ _ _ _ _ => some (0, 0x06)
  | .imax _ _ _ _ _ _ _ => some (0, 0x06)
  | .iabs _ _ _ _ => some (0, 0x06)
  | .iabsSat _ _ _ _ => some (0, 0x06)
  | .rndh _ _ _ _ _ _ => some (0, 0x07)
  | .andL _ _ _ _ _ _ => some (0, 0x08)
  | .orL _ _ _ _ _ _ => some (0, 0x08)
  | .xorL _ _ _ _ _ _ => some (0, 0x08)
  | .andn _ _ _ _ _ _ => some (0, 0x08)
  | .shl _ _ _ _ _ _ => some (0, 0x09)
  | .shr _ _ _ _ _ _ => some (0, 0x09)
  | .sar _ _ _ _ _ _ => some (0, 0x09)
  | .rol _ _ _ _ _ _ => some (0, 0x09)
  | .shlImm _ _ _ _ _ => some (0, 0x0A)
  | .shrImm _ _ _ _ _ => some (0, 0x0A)
  | .sarImm _ _ _ _ _ => some (0, 0x0A)
  | .rolImm _ _ _ _ _ => some (0, 0x0A)
  | .popc _ _ _ _ => some (0, 0x0B)
  | .clz _ _ _ _ => some (0, 0x0B)
  | .brev _ _ _ _ => some (0, 0x0B)
  | .bfx _ _ _ _ _ _ _ => some (0, 0x0C)
  | .bfi _ _ _ _ _ => some (0, 0x0D)
  | .prmb _ _ _ _ _ => some (0, 0x0E)
  | .lea _ _ _ _ _ _ _ => some (0, 0x0F)
  | .icmp _ _ _ _ _ _ _ _ => some (0, 0x10)
  | .sel _ _ _ _ _ _ _ => some (0, 0x11)
  | .plog _ _ _ _ _ _ => some (0, 0x12)
  | .pmovGet _ _ _ => some (0, 0x13)
  | .pmovPut _ _ _ => some (0, 0x13)
  | .mov _ _ _ _ => some (0, 0x14)
  | .movs _ _ _ _ => some (0, 0x14)
  | .movImm _ _ _ _ => some (0, 0x15)
  | .vsrd _ _ _ _ => some (0, 0x16)
  | .fadd _ _ _ _ _ _ => some (0, 0x18)
  | .fsub _ _ _ _ _ _ => some (0, 0x18)
  | .fmul _ _ _ _ _ _ => some (0, 0x18)
  | .ffma _ _ _ _ _ => some (0, 0x19)
  | .fmin _ _ _ _ _ _ => some (0, 0x1A)
  | .fmax _ _ _ _ _ _ => some (0, 0x1A)
  | .fscl _ _ _ _ _ _ => some (0, 0x1A)
  | .fcmp _ _ _ _ _ _ _ => some (0, 0x1B)
  | .hcmp2 _ _ _ _ _ _ _ _ => some (0, 0x1B)
  | .frnd _ _ _ _ _ => some (0, 0x1C)
  | .hadd2 _ _ _ _ _ _ _ => some (0, 0x1D)
  | .hmul2 _ _ _ _ _ _ _ => some (0, 0x1D)
  | .hmin2 _ _ _ _ _ _ _ => some (0, 0x1D)
  | .hmax2 _ _ _ _ _ _ _ => some (0, 0x1D)
  | .hfma2 _ _ _ _ _ => some (0, 0x1E)
  | .hfma2Bf16 _ _ _ _ _ => some (0, 0x1F)
  | .exp2 _ _ _ _ => some (0, 0x20)
  | .log2 _ _ _ _ => some (0, 0x20)
  | .rcp _ _ _ _ => some (0, 0x20)
  | .rsq _ _ _ _ => some (0, 0x20)
  | .sqrt _ _ _ _ => some (0, 0x20)
  | .sin _ _ _ _ => some (0, 0x20)
  | .cos _ _ _ _ => some (0, 0x20)
  | .tanh _ _ _ _ => some (0, 0x20)
  | .cvt _ _ _ _ _ _ _ => some (0, 0x24)
  | .cvth2 _ _ _ _ _ _ _ => some (0, 0x25)
  | .cvth2Widen _ _ _ _ _ => some (0, 0x25)
  | .cvtq _ _ _ _ _ => some (0, 0x26)
  | .cvtd _ _ _ _ _ => some (0, 0x26)
  | .mono _ _ _ _ _ => some (0, 0x26)
  | .monoi _ _ _ _ _ => some (0, 0x26)
  | .dp4 _ _ _ _ _ _ _ => some (0, 0x27)
  | .dp8 _ _ _ _ _ _ _ => some (0, 0x27)
  | .dp2h _ _ _ _ _ _ => some (0, 0x27)
  | .dp4eE4m3 _ _ _ _ _ _ => some (0, 0x27)
  | .dp4eE5m2 _ _ _ _ _ _ => some (0, 0x27)
  | .dp2hBf16 _ _ _ _ _ _ => some (0, 0x27)
  | .shfl _ _ _ _ _ _ _ => some (0, 0x28)
  | .voteAny _ _ _ _ => some (0, 0x29)
  | .voteAll _ _ _ _ => some (0, 0x29)
  | .voteBallot _ _ _ _ => some (0, 0x29)
  | .wred _ _ _ _ _ => some (0, 0x2A)
  | .wscan _ _ _ _ _ => some (0, 0x2A)
  | .matchL _ _ _ _ => some (0, 0x2B)
  | .brl _ _ _ => some (0, 0x2C)
  | .jset _ _ _ => some (0, 0x2D)
  | .lcall _ _ _ => some (0, 0x2E)
  | .join _ => some (0, 0x2F)
  | .lret _ => some (0, 0x2F)
  | .ldg _ _ _ _ _ _ _ => some (0, 0x30)
  | .stg _ _ _ _ _ _ _ => some (0, 0x31)
  | .lds _ _ _ _ _ _ => some (0, 0x32)
  | .sts _ _ _ _ _ _ => some (0, 0x33)
  | .ldc _ _ _ _ _ _ _ => some (0, 0x34)
  | .atom _ _ _ _ _ _ => some (0, 0x35)
  | .acas _ _ _ _ _ _ _ => some (0, 0x36)
  | .red _ _ _ _ _ _ => some (0, 0x37)
  | .redm _ _ _ _ _ => some (0, 0x38)
  | .pfg _ _ _ _ => some (0, 0x39)
  | .zline _ _ _ _ _ => some (0, 0x3A)
  | .tfill _ _ _ _ _ _ _ => some (0, 0x3C)
  | .adrain _ _ _ _ _ _ => some (0, 0x3D)
  | .rep _ _ _ _ _ _ => some (1, 0x00)
  | .limm _ => some (1, 0x01)
  | .sadd _ _ _ _ => some (1, 0x04)
  | .ssub _ _ _ _ => some (1, 0x04)
  | .saddImm _ _ _ _ => some (1, 0x05)
  | .smul _ _ _ _ => some (1, 0x06)
  | .smulh _ _ _ _ _ => some (1, 0x06)
  | .sand _ _ _ _ => some (1, 0x07)
  | .sor _ _ _ _ => some (1, 0x07)
  | .sxor _ _ _ _ => some (1, 0x07)
  | .sshl _ _ _ _ => some (1, 0x08)
  | .sshr _ _ _ _ => some (1, 0x08)
  | .ssar _ _ _ _ => some (1, 0x08)
  | .sshlImm _ _ _ _ => some (1, 0x09)
  | .sshrImm _ _ _ _ => some (1, 0x09)
  | .ssarImm _ _ _ _ => some (1, 0x09)
  | .smin _ _ _ _ _ => some (1, 0x0A)
  | .smax _ _ _ _ _ => some (1, 0x0A)
  | .scmp _ _ _ _ _ => some (1, 0x0B)
  | .ssel _ _ _ _ => some (1, 0x0C)
  | .smov _ _ _ => some (1, 0x0D)
  | .spopc _ _ _ => some (1, 0x0D)
  | .sclz _ _ _ => some (1, 0x0D)
  | .smovl _ _ _ => some (1, 0x0E)
  | .smovh _ _ _ => some (1, 0x0E)
  | .srd _ _ _ => some (1, 0x0F)
  | .swr _ _ _ => some (1, 0x0F)
  | .bra _ _ => some (1, 0x10)
  | .brc _ _ _ _ => some (1, 0x11)
  | .call _ _ => some (1, 0x12)
  | .ret _ => some (1, 0x13)
  | .jmpi _ _ => some (1, 0x14)
  | .exit _ => some (1, 0x15)
  | .yield _ => some (1, 0x16)
  | .yieldLy _ => some (1, 0x16)
  | .pause _ _ => some (1, 0x17)
  | .bar _ _ _ => some (1, 0x18)
  | .bara _ _ _ _ => some (1, 0x19)
  | .barw _ _ _ _ => some (1, 0x1A)
  | .barinit _ _ _ _ => some (1, 0x1B)
  | .gbar _ _ => some (1, 0x1C)
  | .waitcmp _ _ _ _ _ => some (1, 0x1D)
  | .fence _ _ _ _ _ => some (1, 0x1E)
  | .xfence _ _ _ _ => some (1, 0x1F)
  | .sld _ _ _ _ _ _ => some (1, 0x20)
  | .sst _ _ _ _ _ _ => some (1, 0x21)
  | .satom _ _ _ _ _ _ => some (1, 0x22)
  | .reggive _ _ => some (1, 0x23)
  | .regtake _ _ => some (1, 0x24)
  | .aallocN _ _ _ => some (1, 0x25)
  | .aalloc _ _ => some (1, 0x25)
  | .afree _ _ => some (1, 0x26)
  | .tcfg _ _ _ => some (1, 0x28)
  | .tld _ _ _ => some (1, 0x29)
  | .tst _ _ _ => some (1, 0x29)
  | .trel _ _ => some (1, 0x2A)
  | .mma _ _ _ _ _ _ _ _ _ => some (1, 0x2B)
  | .mmaq _ _ _ _ _ _ _ _ _ _ => some (1, 0x2C)
  | .azero _ _ => some (1, 0x2D)
  | .ascale _ _ _ => some (1, 0x2D)
  | .mred _ _ _ _ _ => some (1, 0x2E)
  | .msync _ => some (1, 0x2F)
  | .cpa _ _ _ _ => some (1, 0x30)
  | .cpwp _ _ _ => some (1, 0x31)
  | .gth _ _ => some (1, 0x32)
  | .sct _ _ => some (1, 0x32)
  | .selq _ _ _ => some (1, 0x33)
  | .selk _ _ _ => some (1, 0x33)
  | .clv _ _ _ _ => some (1, 0x34)
  | .tkw _ _ => some (1, 0x35)
  | .tkq _ _ _ => some (1, 0x35)
  | .vcall _ _ _ _ => some (1, 0x36)
  | .vforce _ _ _ _ => some (1, 0x36)
  | .vret _ => some (1, 0x37)
  | .vretQ _ _ => some (1, 0x37)
  | .vlim _ _ _ _ => some (1, 0x38)
  | .vtag _ _ _ _ => some (1, 0x39)
  | .vmeter _ _ _ => some (1, 0x39)
  | .trap _ _ => some (1, 0x3A)
  | .eret _ _ _ => some (1, 0x3B)
  | .brk _ _ => some (1, 0x3B)
  | .trace _ _ _ => some (1, 0x3C)
  | .mbox _ _ => some (1, 0x3D)
  | .sysc _ _ _ => some (1, 0x3E)
  | .leaseq _ _ => some (1, 0x3F)
  | .rfetch _ _ _ => none
  | .bfxt _ _ _ => none
  | .swait _ _ _ => none
  | .disp _ _ _ => none
  | .swaitWake _ => none
  | .performAcc _ _ => none
  | .mergeRed _ => none
  | .flushCb _ => none
  | .runElem _ => none
  | .drainPath _ => none
  | .exportW _ => none
  | .importW _ => none
  | .postedAccessFault _ _ => none
  | .channelPlaceFreed _ _ => none
  | .chargeProceed _ _ => none
  | .kgroupComplete _ => none
  | .tileWaitResume _ _ => none
  | .drainWaitResume _ _ => none
  | .selectionEngineStart _ => none
  | .waveRelease _ => none
  | .waitcmpWake _ => none
  | .waitcmpPoll _ => none
  | .pauseEnd _ => none
  | .warpFree _ _ => none
  | .blockEnd _ => none
  | .lamplighterUpdate _ => none
  | .trapEntry _ _ => none
  | .faultRecordWrite _ => none
  | .fresumeRetry _ _ => none
  | .fresumeEndLaunch _ _ => none
  | .breakpointHit _ => none
  | .watchpointHit _ => none
  | .freezeSpread _ _ => none
  | .debugWindowWrite _ _ _ => none
  | .pcSample _ => none
  | .launchPk _ => none
  | .graphPk _ => none
  | .signalPk _ => none
  | .waitPk _ => none
  | .leasePk _ => none
  | .resyncPk _ => none
  | .fwactPk _ => none
  | .timerecPk _ => none
  | .waitSignalFires _ => none
  | .arbitrationRound _ => none
  | .queueBecomesRunnable _ => none
  | .taskQueuePlacement _ => none
  | .balancingExchange _ => none
  | .bundleStart _ _ => none
  | .launchCompletion _ _ => none
  | .graphNodeStart _ _ => none
  | .loopConditionRead _ _ => none
  | .graphCompletion _ => none
  | .firmwareActivation _ => none
  | .warpExchange _ _ => none
  | .pendingPromotion _ _ => none
  | .phaseSliceExpiry _ => none
  | .phaseSwap _ => none
  | .blockYield _ => none
  | .forcedSave _ => none
  | .savedUnitRestore _ => none
  | .timeLimitExpiry _ _ => none
  | .preemptRequest _ _ => none
  | .queueReset _ _ => none
  | .tlbiPage _ _ => none
  | .tlbiRegion _ _ => none
  | .tlbiAsid _ _ => none
  | .tlbiPartition _ _ => none
  | .tlbiComplete _ => none
  | .syscEntryWrite _ => none
  | .scactReply _ _ => none
  | .scactMarkIo _ _ => none
  | .scactEndLaunch _ _ => none
  | .mailboxRecordWrite _ => none
  | .mailboxHeadWrite _ _ => none
  | .measextWrite _ => none
  | .svnraiseWrite _ => none
  | .attestation => none
  | .partctlWrite _ _ _ => none
  | .hmapWrite _ => none
  | .registerWrite _ _ _ => none
  | .leaseDecision _ => none
  | .leaseRevocation _ => none
  | .leaseEnd _ => none
  | .operatingPointChange => none
  | .energyApportion _ _ => none
  | .moduleReset => none
  | .patrolScrub _ _ => none
  | .flitReceive _ _ _ => none
  | .linkRetrainFail _ => none
  | .dmaRequest _ _ => none
  | .resultReturn _ _ => none
  | .currentBucketRefill => none
  | .hostCoreStore _ _ _ _ => none
  | .collectiveGroupAbort _ _ => none
  | .fenlinkPortTrained _ => none
  | .backgroundCheck _ _ _ => none
  | .lanternInterrupt _ _ => none

/-- The MCC runs these majors and no others (R69). -/
def Instr.mccRuns (i : Instr) : Bool :=
  match i.major with
  | some (1, op) => op ≤ 0x22 || op == 0x25 || op == 0x26 || (0x28 ≤ op && op ≤ 0x2F) || op == 0x35 ||
      (0x3A ≤ op && op ≤ 0x3C)
  | _ => false

/-- Warps run L-class words and every U-class major except 0x28–0x2F (R69). -/
def Instr.warpRuns (i : Instr) : Bool :=
  match i.major with
  | some (1, op) => !(0x28 ≤ op && op ≤ 0x2F)
  | some (_, _) => true
  | none => false

end Sys2Proof
end

