-- ==== Sys2Proof/Machine/State.lean ====
section
/-! DEFINITION. The state of the module as plain data, its reasons to stop, and the machine after reset. Each record
cites the rule of spec/ that names its fields; INVENTORY.md lists them one by one with their reset values. -/
namespace Sys2Proof.Machine
open Sys2Proof

/-- Byte memory in canonical form: addresses strictly rising, no entry equal to 0 (what an unlisted byte reads as). -/
abbrev Mem := List Host.Cell

/-! ## Memory machine (R267) -/

/-- The engine paths of R196. -/
inductive Path where
  | cp | gt | sl | mx | cl | mr
deriving DecidableEq, Repr

/-- The spaces of R139. -/
inductive Space where
  | global | scratch | const
deriving DecidableEq, Repr

/-- Where a byte of an engine element lies: HBM by physical address, or a block's scratchpad. -/
inductive Loc where
  | hbm (pa : Nat)
  | scr (key : Key) (off : Nat)
deriving DecidableEq, Repr

/-- What a WAITCMP asks (R162): its comparison, the word's address, the value compared with, the result register; its
polling interval in ns, 0 when it does not poll (R163). -/
structure CondWait where
  cond : Nat
  d    : Nat
  b    : Word
  va   : DWord
  gap  : Nat
deriving DecidableEq, Repr

/-- What a stream access does when it performs (R269, R271). -/
inductive AccKind where
  | load (size : Nat) (signed : Bool) (dst : Nat)
  | loadS (size : Nat) (signed : Bool) (dst : Nat)
  | store (data : List Byte)
  | zline
  | atom (op size : Nat) (x : DWord) (dst : Nat)
  | atomS (op : Nat) (x : Word) (dst : Nat)
  | acas (size : Nat) (expected new : DWord) (pred dst : Nat)
  | tileLoad (tile off : Nat)
  | tileStore (data : List Byte)
  | waitRead (w : CondWait)
  | tableRead
  | update (idx : Nat) (t e : Word) (q : Option (BitVec 16))
deriving DecidableEq, Repr

/-- One access of a stream queue Q(P, s). `serial` numbers the instruction that issued it; `lanes` are the threads in
whose queues it stands (R270); `held` is the record it waits on (R143); `dbl` is the code that entered the handler when a handler
fragment issued it (R253). -/
structure Access where
  serial : Nat
  key    : Key
  who    : Who
  lanes  : Lanes
  stream : Nat
  pc     : Addr
  space  : Space
  va     : DWord
  pa     : Option Nat
  kind   : AccKind
  held   : Option Word
  dbl    : Option Nat
deriving DecidableEq, Repr

/-- A RED in its pool (R267), or a REDM on its way to the base die (R269). `again` marks one that is retried after fault service:
it comes before every later access of its thread and stream (R143). -/
structure RedEntry where
  serial : Nat
  key    : Key
  who    : Who
  lane   : Nat
  stream : Nat
  pc     : Addr
  va     : DWord
  pa     : Option Nat
  op     : Nat
  x      : DWord
  held   : Option Word
  dbl    : Option Nat
  again  : Bool := false
deriving DecidableEq, Repr

/-- A combining-buffer partial of one cluster (R267) and the REDs merged into it. -/
structure Partial where
  cluster : Nat
  pa      : Nat
  op      : Nat
  val     : DWord
  owners  : List RedEntry
deriving DecidableEq, Repr

/-- An entry of a path buffer B(p): a write of an engine operation, oldest first (R267); `run` is the serial number that stood when
its element ran (R276). -/
structure PathWrite where
  path : Path
  op   : Nat
  key  : Key
  who  : Who
  lanes : Lanes
  pos  : Nat
  loc  : Loc
  data : List Byte
  run  : Nat := 0
deriving DecidableEq, Repr

/-- A device write that system observers cannot yet see, with the party, side and operation it came from (R276); a flushed
partial came from several REDs. -/
structure XWrite where
  serial : Nat
  key    : Key
  who    : Who
  lanes  : Lanes
  stream : Option Nat
  path   : Option Path
  op     : Nat
  pa     : Nat
  data   : List Byte
  reds   : List RedEntry := []
deriving DecidableEq, Repr

/-- A `.sy` release standing in the export set: it orders the writes it covers before it and after it (R276), each stream by
itself when a FENCE made it; `obs` are the operations its threads had observed. -/
structure SyMark where
  serial  : Nat
  key     : Key
  who     : Who
  lanes   : Lanes
  streams : BitVec 16
  each    : Bool
  paths   : List Path
  obs     : List Nat
deriving DecidableEq, Repr

/-- The export set X, oldest first. -/
inductive XItem where
  | write (w : XWrite)
  | mark (m : SyMark)
deriving DecidableEq, Repr

/-- A host-core store of the import set Y; `before` are the stores the host's own ordering places before it (R371). -/
structure HostWrite where
  id     : Nat
  hart   : Nat
  epoch  : Nat
  pa     : Nat
  data   : List Byte
  done   : Bool
  before : List Nat
deriving DecidableEq, Repr

/-- A host write that threads have read: party lanes, stream, store (for the acquire of R276). -/
structure SeenWrite where
  key    : Key
  who    : Who
  lanes  : Lanes
  stream : Nat
  id     : Nat
deriving DecidableEq, Repr

/-- A condition-monitor entry (R291): its word, its waiters, and those that a write has rescheduled (R162). -/
structure Monitor where
  slice   : Nat
  pa      : Nat
  waiters : List FragRef
  woken   : List FragRef
deriving DecidableEq, Repr

/-- A cached translation (R285): its holder (cluster 0–255, die 256–259, hub 260), the pages it covers, the leaf. -/
structure TlbEntry where
  holder : Nat
  asid   : Nat
  part   : Nat
  base   : Nat
  size   : Nat
  frame  : Nat
  cont   : Bool
  r      : Bool
  w      : Bool
  x      : Bool
deriving DecidableEq, Repr

/-! ## Faults of threads -/

/-- A fault of R317: its code, element, address, and the walk level and malformed mark of R321. -/
structure Flt where
  code  : Nat
  elem  : Word
  addr  : DWord
  level : Nat
  mal   : Bool
deriving DecidableEq, Repr

/-- A word of an instruction-cache line, tagged with its address space and virtual address (R289). -/
structure ILine where
  cluster : Nat
  asid    : Nat
  part    : Nat
  va      : Nat
  word    : Word
deriving DecidableEq, Repr

/-- A parked fragment (R319): its fault, whether the host answers it, its record, whether a posted access parked it,
TIMM and whether the instruction has a prefix (R251). -/
structure Park where
  flt    : Flt
  host   : Bool
  seq    : Option Word
  posted : Bool
  timm   : BitVec 16
  pfx    : Bool
  retPc  : Addr
deriving DecidableEq, Repr

/-- The table reads of a VCALL, VFORCE or VTAG in progress (R235, R243). -/
structure TableWait where
  form  : Nat
  d     : Nat
  frac  : Nat
  sel   : Word
  table : DWord
  stage : Nat
  hdr   : List Byte
  ents  : List (List Byte × DWord)
  cr    : Nat
  cyc0  : Nat
  em0   : DWord
  is0   : Nat
  elT   : Word
  elE   : Word
  elQ   : BitVec 16
  swm   : Bool
deriving DecidableEq, Repr

/-- A macro-instruction in progress (R39): its class, the operation number of its path, the result register, the operand
block as read at issue (R195; for a product the accumulator, tiles, slot and MOD), its switch marker; in the mask pass of a
selection the word under construction and the next element to read for it (R216). -/
structure MacroRun where
  cls   : Nat
  op    : Nat
  d     : Nat
  a     : Nat
  words : List Word
  mask  : Word
  redo  : Nat
  swm   : Bool
deriving DecidableEq, Repr

/-- The registers a fragment has written since its last switch marker, or whose results are outstanding (R60). -/
structure RegSet where
  v : BitVec 64
  s : BitVec 128
  p : BitVec 4
deriving DecidableEq, Repr

/-- What a held instruction waits for before it issues again: its fragment's outstanding results (R61), those of some
registers (R64); every access of its threads (R159); the streams of a release, the reads of an acquire, and the paths of a fence (R273, R276), with the words
an MBOX or SYSC read at issue (R258, R259); the MCC's array work (R104, R191); the writes of its block still on their way to
the word a BARINIT is to make live (R160); nothing more, at a TKW whose ticket is read and complete (R201). -/
inductive Hold where
  | results
  | coming (r : RegSet)
  | performed
  | fence (rel acq : BitVec 16) (paths : List Path) (args : List Word)
  | array
  | word (addr : Nat)
  | ticket (t : Word)
deriving DecidableEq, Repr

/-- Why a fragment, or the MCC, does not issue (R17, R60, R106, R319, R342). -/
inductive Wait where
  | run
  | hold (h : Hold)
  | switch
  | pause (from_ n : Nat) (sw : Bool)
  | join (rec : Nat)
  | bar (addr gen : Nat)
  | barHeld (addr gen : Nat)
  | gbar (n gen : Nat)
  | gbarHeld (n gen : Nat)
  | wave
  | regtake
  | tkw (t : Word)
  | chan (ch : Nat)
  | selection (m : MacroRun)
  | tile (t : Nat)
  | drain (a : Nat)
  | mbox (data : List Word)
  | sysc (seq : Word)
  | syscFull
  | yielded
  | charge (m : MacroRun)
  | array (m : MacroRun)
  | rows (m : MacroRun)
  | condRead (w : CondWait)
  | monitor (w : CondWait)
  | poll (from_ : Nat) (w : CondWait)
  | table (t : TableWait)
  | parked (p : Park)
  | stopped
deriving DecidableEq, Repr

/-- A fragment (R16): its lanes, PC, pending set, outstanding results, progress state (R37–R40), wait, and whether it
runs the handler (R249). -/
structure Frag where
  lanes   : Lanes
  pc      : Addr
  pend    : RegSet
  out     : RegSet
  prg     : DWord
  prgpc   : DWord
  prgx    : DWord
  wait    : Wait
  handler : Bool
deriving DecidableEq, Repr

/-- A join record (R101): mask and arrived lanes. -/
structure JoinRec where
  id      : Nat
  pc      : Addr
  mask    : Lanes
  arrived : Lanes
deriving DecidableEq, Repr

/-- A call record (R233) with its meters (R239). -/
structure CallRec where
  id    : Nat
  table : DWord
  idx   : Nat
  bound : Bool
  fallb : Bool
  force : Bool
  ret   : Addr
  savT  : Word
  savE  : Word
  savQ  : BitVec 16
  elT   : Word
  elE   : Word
  elQ   : BitVec 16
  opt   : Nat
  cyc0  : Nat
  em0   : DWord
  is0   : Nat
  fs    : Nat
  tacc  : Nat
  eacc  : Nat
deriving DecidableEq, Repr

/-- A trap record (R250); `code` is the code that entered the handler (R253). -/
structure TrapRec where
  lanes : Lanes
  pend  : RegSet
  prg   : DWord
  prgpc : DWord
  prgx  : DWord
  ret   : Addr
  nxt   : Addr
  code  : Nat
deriving DecidableEq, Repr

/-- A barrier an arrival names: a scratchpad word or one of the gang's four. -/
inductive BarName where
  | blk (addr : Nat)
  | gang (n : Nat)
deriving DecidableEq, Repr

/-- The warp's one arrival record (R156). -/
structure Arrival where
  bar   : BarName
  lanes : Lanes
deriving DecidableEq, Repr

/-- The warp states of R15. -/
inductive WarpState where
  | active | pending | waiting | draining | saved | free
deriving DecidableEq, Repr

/-- An observation of R168, R196 and R210: lanes, operation, and below which position its writes are observed. -/
structure Observed where
  lanes : Lanes
  op    : Nat
  below : Option Nat
deriving DecidableEq, Repr

/-- A warp, or the MCC of a block (R21, R29, R31): registers, window, fragments and everything R329 saves of it. `since`
is one more than the CYC (in tenths) since which a pending warp has been ready (R311, R312), or an active warp has waited at
a switch marker (R311), else 0; `issues` counts issues since it entered the active set. -/
structure Party where
  v       : Vector (Vector Word 64) 64
  s       : Vector Word 128
  p       : Vector Lanes 4
  poisV   : Vector Lanes 64
  poisS   : BitVec 128
  win     : Nat
  exited  : Lanes
  all     : Lanes
  frags   : List Frag
  joins   : List JoinRec
  rets    : Vector (List Addr) 64
  fmode   : Word
  limT    : Word
  limE    : Word
  limQ    : BitVec 16
  opt     : Nat
  calls   : List CallRec
  reserved : List Nat
  callIds : Vector (List Nat) 64
  trap    : Option TrapRec
  arrive  : Option Arrival
  obs     : List Observed
  ws      : WarpState
  pipe    : Nat
  slot    : Nat
  half    : Nat
  lastIssue : Nat
  issues  : Nat
  since   : Nat
deriving DecidableEq, Repr

/-! ## Block (R10, R329) -/

/-- Where a block's context lies (R15, R330, R332). -/
inductive Place where
  | resident (cluster : Nat)
  | shadow (cluster : Nat)
  | image (addr size : Nat)
deriving DecidableEq, Repr

/-- One waiter or arrival of a barrier. -/
structure BarWaiter where
  key   : Key
  who   : Who
  lanes : Lanes
  gen   : Nat
deriving DecidableEq, Repr

/-- A live barrier word (R154): its tag is this entry; GEN, ARR and EXP are the word's own bits. -/
structure Bar where
  addr    : Nat
  arrived : List Who
  waiters : List BarWaiter
deriving DecidableEq, Repr

/-- A wave of waiters not yet released (R158); `due` in tenths of a vector cycle of the cluster. -/
structure Wave where
  due     : Nat
  waiters : List BarWaiter
deriving DecidableEq, Repr

/-- The tile states of R173. -/
inductive TileState where
  | empty | filling | loading | full | busy
deriving DecidableEq, Repr

/-- A tile register with its shape record (R170–R174). -/
structure Tile where
  data    : Mem
  st      : TileState
  count   : Nat
  w0      : Word
  w1      : Word
  w2      : Word
  w3      : Word
  readers : Nat
  rel     : Bool
  pois    : List Nat
deriving DecidableEq, Repr

/-- A held accumulator (R176): 4096 f32 words as bytes. Its outstanding count (R178) is the number of its entries in the
block's flights and of a product being dispatched to it. -/
structure Accum where
  data : Mem
  pois : List Nat
deriving DecidableEq, Repr

/-- Array work issued and not yet performed, in issue order (R178, R186, R189, R190). A dispatched K-group holds its sums
G(m, n), row by row, and the tiles whose reader ends with it; `reduced` is an MRED whose source has been freed, with the values
it writes. -/
inductive Flight where
  | group (a m n : Nat) (fresh : Bool) (sums : List Word) (tiles : List Nat) (last : Bool)
  | zero (a : Nat)
  | scale (a : Nat) (x : Word)
  | reduce (rows : Bool) (op d a : Nat)
  | reduced (rows : Bool) (d : Nat) (vals : List Word)
deriving DecidableEq, Repr

/-- A macro of the MCC, or of its handler, that is a reader of tiles (R174, R180, R183). -/
structure MccMacro where
  handler : Bool
  tiles   : List Nat
deriving DecidableEq, Repr

/-- Ticket states (R200). -/
inductive Tick where
  | done | queued | running | held | failed
deriving DecidableEq, Repr

/-- An asynchronous engine operation and its ticket record (R198–R203): `word` counts the words of a copy's row that are done
(R209); `doom` marks a collective that ends FAILED when its turn on the channel comes (R225); `bundle` marks a copy sub-launch (R300). -/
structure EngOp where
  id      : Nat
  key     : Key
  who     : Who
  lanes   : Lanes
  pc      : Addr
  ch      : Nat
  seq     : Nat
  f       : Nat
  words   : List Word
  st      : Tick
  elem    : Nat
  code    : Nat
  errElem : Nat
  charged : Bool
  waiting : Bool
  nth     : Nat
  heldSeq : Option Word
  word    : Nat
  doom    : Bool
  bundle  : Bool
  pas     : List Nat := []
deriving DecidableEq, Repr

/-- A channel of a block (R198, R200, R209). -/
structure Chan where
  isq   : Nat
  csq   : Nat
  latch : Option Nat
  wpT   : Word
  wpB   : Nat
deriving DecidableEq, Repr

/-- A REGTAKE waiting in the block's FIFO (R112), with one more than the vector cycle of its cluster in which it
arrived (R113), and 0 once it has been saved. -/
structure Taker where
  warp : Nat
  n    : Nat
  at_  : Nat
deriving DecidableEq, Repr

/-- A placed block with everything it owns (R26–R36, R329). `halted` stops it for a save or a swap (R328, R331); `bySwap`
marks one saved by a phase swap (R396); `savedAt` is the fabric cycle of the save; `cslrBy` are one more than the
vector cycle, and the rank of the party, of the last SWR to CSLR (R95), 0 once saved; `answers` are the records answered since the block halted, with those that end
the launch marked, which take effect at its restore (R322, R335). -/
structure Block where
  key     : Key
  place   : Place
  started : Bool
  warps   : List Party
  mcc     : Option Party
  mccEnded : Bool
  cslr    : Word
  cslrNew : Option Word
  cslrBy  : Nat × Nat
  yr      : Bool
  ly      : Bool
  deadline : Option Nat
  dest    : Nat
  pool    : Nat
  takers  : List Taker
  scr     : Mem
  scrSize : Nat
  scrPois : List Nat
  bars    : List Bar
  waves   : List Wave
  tiles   : List Tile
  accs    : Tab Accum
  flights : List Flight
  mmac    : List MccMacro
  chans   : List Chan
  ops     : List EngOp
  clvs    : Tab Nat
  idem    : Bool
  issues  : Nat
  savedAt : Nat
  halted  : Bool
  bySwap  : Bool
  answers : List (Word × Bool)
deriving DecidableEq, Repr

/-- One of a gang's four barriers (R161). -/
structure GangBar where
  gen     : Nat
  arrived : List (Key × Who)
  waiters : List BarWaiter
deriving DecidableEq, Repr

/-- The barriers of a gang. -/
structure Gang where
  part : Nat
  grid : Nat
  gang : Nat
  bars : List GangBar
deriving DecidableEq, Repr

/-! ## Cluster, launch, graph, queue, partition -/

/-- Who waits in a cluster's charge FIFO (R358), in the order of its ranks. -/
inductive Charger where
  | mcc (key : Key)
  | chan (ch op : Nat)
  | gather (f : FragRef)
  | select (f : FragRef)
  | coll (ch op : Nat)
deriving DecidableEq, Repr

/-- A charge (R358): who asks, its cost, the fabric cycle in which it arrived. -/
structure Charge where
  who  : Charger
  cost : Nat
  at_  : Nat
deriving DecidableEq, Repr

/-- A cluster (R1, R199, R213, R238, R306, R342, R356). `cyc` counts tenths of a rail cycle; `vcyc` the vector cycles that
have ended (R95, R113); `arrayAt` is the instant, counted as `cyc`, at which the array is free for another K-group (R187);
`lastRun` are the issues of the vector cycle: pipe, fragment, its PC and lanes (R346); `chBack` are restored copies, with
their channels, that wait for a place (R199, R204); `skid` are the replies that arrived while it was frozen, oldest first (R342). -/
structure Cluster where
  cyc     : Nat
  vcyc    : Nat
  em      : DWord
  is      : Nat
  emBase  : DWord
  bal     : Nat
  charges : List Charge
  tried   : Option Nat
  cbwait  : Nat
  chq     : List (Nat × Nat)
  chWait  : List (Nat × FragRef)
  chBack  : List (Nat × Nat)
  selOwner : Option FragRef
  selWait : List FragRef
  tasks   : List Key
  arrayAt : Nat
  frozen  : Bool
  skid    : List (FragRef × RegName)
  sample  : Nat
  lastRun : List (Nat × FragRef × Addr × Lanes)
deriving DecidableEq, Repr

/-- The launch record (R365) and the fields of the kernel header (R43, R44), zero fields resolved (R45). -/
structure LaunchRec where
  kaddr : Nat
  caddr : Nat
  csize : Nat
  scratch : Nat
  acc   : Nat
  pool  : Nat
  asid  : Nat
  cslr  : Word
  gx    : Nat
  gy    : Nat
  gz    : Nat
  dx    : Nat
  dy    : Nat
  dz    : Nat
  gangsz : Nat
  flags : Byte
  tlim  : Nat
  whnd  : Nat
  mhnd  : Nat
  trec  : Nat
  tsys  : Nat
  tque  : Nat
  paddr : Nat
  psize : Nat
  grpmask : DWord
  stat  : Nat
  slots : List DWord
  width : Nat
  c16   : Bool
  win   : Nat
  hasMcc : Bool
  mccOff : Nat
deriving DecidableEq, Repr

/-- An entry of a peat log (R350): its kind (0 atomic, 1 WAITCMP wake, 2 variant choice, 3 VRET, 4 update), the logical
thread and PC, the bank whose order it belongs to, the values recorded, and whether a replay has used it. -/
structure PeatEntry where
  kind   : Nat
  blk    : Nat
  thread : BitVec 16
  pc     : Addr
  bank   : Nat
  vals   : List DWord
  used   : Bool
deriving DecidableEq, Repr

/-- A peat log as a launch left it at an address of an address space: its `size` bytes are those that `seed` names, and what they
stand for are its entries (R350 gives no layout; log 25). -/
structure PeatLog where
  part    : Nat
  asid    : Nat
  addr    : Nat
  size    : Nat
  seed    : Nat
  entries : List PeatEntry
  ovf     : Bool
deriving DecidableEq, Repr

/-- A launch begun and not completed (R300, R301, R347, R350, R366). `stage` is the next write of its completion: 0 while it
runs, 1 the time record, 2 the status, 3 the signal; `raddr` is the address of its record; `again` are killed gangs to be placed afresh (R308); `aborts` are the collectives
of its groups, group and number, that have been aborted (R225); `leaves` says that its packet is to leave the queue's head because it has ended (R296); `first` counts the
blocks placed by the run of rounds that is its first placement round (R300); `bundle` are the packet's copies, `copies` those not yet queued. -/
structure Launch where
  part    : Nat
  grid    : Nat
  queue   : Nat
  raddr   : Nat
  lr      : LaunchRec
  next    : Nat
  noMore  : Bool
  started : Bool
  inRun   : Bool
  leaves  : Bool
  first   : Nat
  copies  : List (List Word × Nat)
  bundle  : List (List Word × Nat)
  sigc    : Bool
  sigAddr : Nat
  sigVal  : DWord
  node    : Option (Nat × Nat)
  begin_  : Nat
  fault   : Bool
  peatovf : Bool
  repdiv  : Bool
  tlimit  : Bool
  energy  : Nat
  sFault  : Nat
  sIo     : Nat
  sExec   : Nat
  tend    : Nat
  stage   : Nat
  stuck   : Option Word
  peat    : List PeatEntry
  prefix_ : Bool
  groups  : List (Nat × Nat × Nat × Nat × List Nat)
  again   : List Nat
  aborts  : List (Nat × Nat) := []
deriving DecidableEq, Repr

/-- A node of a graph (R386). -/
structure Node where
  kind  : Nat
  body  : Bool
  pred  : DWord
  addr  : Nat
  value : DWord
  op    : Nat
deriving DecidableEq, Repr

/-- The state of a node in a walk (R302, R303): 0 not started, 1 running, 2 complete, 3 a loop whose body runs; loop
iterations done. -/
structure NodeRun where
  st   : Nat
  iter : Nat
deriving DecidableEq, Repr

/-- A walk in progress (R302). `units` are its bundle nodes that wait to be placed, the first in placement; `stage` is 1 when
the graph's status has been written. -/
structure Graph where
  queue  : Nat
  part   : Nat
  nodes  : List Node
  runs   : List NodeRun
  sigc   : Bool
  sigAddr : Nat
  sigVal : DWord
  stat   : Nat
  fault  : Bool
  lmax   : Bool
  energy : Nat
  units  : List Nat
  stage  : Nat
deriving DecidableEq, Repr

/-- A queue (R295, R361). `held` are the header address and the bytes of a started packet; `wait` is the word, value and owner of a WAIT at
the head with BLK set. -/
structure Queue where
  qring  : DWord
  qsched : Word
  qpass  : DWord
  held   : Option (Nat × List Byte)
  launch : Option Nat
  wiped  : Bool
  wait   : Option (Nat × DWord × Nat)
  was    : Bool
deriving DecidableEq, Repr

/-- What a fault record answers for (R322, R344, R398). -/
inductive FTarget where
  | party (key : Key) (who : Who) (lanes : Lanes)
  | posted (kind : Posted) (serial : Nat) (key : Key) (who : Who) (lane : Nat)
  | engine (key : Key) (op : Nat)
  | stop (key : Key) (who : Who) (lanes : Lanes) (unit : Nat) (watch : Bool)
  | completion (grid : Nat)
  | leaseWord
  | command (q : Nat)
deriving DecidableEq, Repr

/-- A fault record or stop report (R321, R343), written or waiting to be written. -/
structure FaultRec where
  seq    : Word
  code   : Nat
  code2  : Nat
  kind   : Byte
  elem   : Word
  asid   : Nat
  pc     : DWord
  addr   : DWord
  grid   : Word
  blk    : Word
  thread : BitVec 16
  ticket : Word
  dtime  : DWord
  written : Bool
  answered : Bool
  target : FTarget
deriving DecidableEq, Repr

/-- A system call (R259, R375): `reg` receives the reply, which a saved block's call keeps until the restore. -/
structure Call where
  seq  : Option Word
  svc  : Nat
  args : List Word
  reg  : Nat
  f    : FragRef
  pc   : Addr
  reply : Option (List Word)
  io   : Bool
deriving DecidableEq, Repr

/-- A mailbox slot (R382). -/
structure Slot where
  data   : List Word
  grid   : Word
  blk    : Word
  thread : BitVec 16
  dtime  : DWord
deriving DecidableEq, Repr

/-- A lease of a partition (R353–R355): the pending request (µs, signal word, ASID), the grant with its granted end, whether it is
revoked and, once the notice is written, the notified end, the signal word, and the writes still to be made behind one that failed:
ASID, address, value (R398). -/
structure LeaseState where
  pend   : Option (Nat × Nat × Nat)
  held   : Bool
  endAt  : Nat
  rvk    : Bool
  notice : Option Nat
  sig    : Nat
  asid   : Nat
  owed   : List (Nat × Nat × Nat)
  stuck  : Bool
deriving DecidableEq, Repr

/-- A freeze (R342–R344): the sequence numbers of its unanswered reports, and the clusters it holds. -/
structure Freeze where
  seqs     : List Word
  clusters : List Nat
deriving DecidableEq, Repr

/-- A partition: its hub registers (R373) and the work the device does for it. -/
structure Partition where
  schedctl : Word
  llthr    : Word
  qtm0     : Word
  qtm1     : Word
  phovr    : Word
  fqbase   : DWord
  fqctl    : Word
  fqhead   : BitVec 16
  fqtail   : BitVec 16
  ydl      : Word
  pretgt   : Word
  prectl   : Word
  savebase : DWord
  savesz   : Word
  tlbiva   : DWord
  tlbictl  : Word
  tlbiWait : List Nat
  dbgctl   : Word
  bpc      : List DWord
  wpa      : List DWord
  wpl      : List Word
  trbase   : DWord
  trctl    : Word
  trpos    : Word
  trdrop   : Word
  sampctl  : Word
  deveacc  : DWord
  gtbase   : DWord
  scbase   : DWord
  scctl    : Word
  scpos    : Word
  scrply   : List Word
  partctl  : DWord
  pclus    : List DWord
  pq       : Word
  slots    : List Slot
  mbpos    : Word
  mbctl    : Word
  mbWait   : List FragRef
  faults   : List FaultRec
  nextSeq  : Word
  freezes  : List Freeze
  calls    : List Call
  nextCall : Word
  nextGrid : Word
  phase    : Nat
  sliceEnd : Nat
  expired  : Option Nat
  yieldAt  : Option Nat
  lease    : LeaseState
  health   : List DWord
  hold     : Nat
  holdLay  : Nat
  holdQ    : Nat
  fwPending : List (Nat × Nat)
  run      : Option Nat
  blocked  : Option Nat
  target   : List Key
  ringAsid : Nat
  winGrid  : Word
  winBlk   : Word
  overs    : List Nat
deriving DecidableEq, Repr

/-- A load of a host core that has issued and not yet returned its value (RVWMO, R371). -/
structure HostLoad where
  rd     : BitVec 5
  pa     : Nat
  n      : Nat
  signed : Bool
deriving DecidableEq, Repr

/-- A core of the hub die: a lantern core (R367), which has none of what stands behind `swait`, or a host core (R371), whose SRAM stays
empty and which never waits in an SWAIT. The registers of its exceptions are those of RISC-V (log 4), and so are the floating-point and
vector registers, the mode and the other control registers of RVA23 (log 10). -/
structure HubCore where
  x      : Vector DWord 32
  pc     : DWord
  sram   : Mem
  mepc   : DWord
  mcause : DWord
  mtval  : DWord
  mtvec  : DWord
  mstatus : DWord
  mie    : DWord
  mscratch : DWord
  swait  : Option (DWord × DWord × Nat)
  f      : Vector DWord 32
  v      : Vector (BitVec 128) 32
  priv   : BitVec 2
  virt   : Bool
  csrs   : List (Nat × DWord)
  late   : List HostLoad
deriving DecidableEq, Repr

/-- A Fenlink port (R373, R383): what it has received, the SEQ it sends next, and its retry buffer. -/
structure Port where
  en     : Bool
  up     : Bool
  down   : Bool
  drop   : Word
  nextRx : BitVec 16
  replays : Nat
  rx     : List (DWord × BitVec 512)
  nextTx : BitVec 16
  retry  : List (DWord × BitVec 512)
deriving DecidableEq, Repr

/-- The device registers and the boot state (R373, R376–R381); `measBuf` is what has been written of a digest for MEASEXT (R379,
log 104). -/
structure Hub where
  asidt   : DWord
  hmap    : Word
  scrubp  : Word
  flid    : Word
  minsvn  : Word
  keyhash : BitVec 256
  attgo   : Bool
  nonce   : BitVec 256
  attbuf  : Mem
  meas    : List (BitVec 256)
  measBuf : BitVec 256
  idcert  : Mem
  parterr : Bool
  flashA  : Mem
  flashB  : Mem
  image   : Nat
  fwver   : Word
  svn     : Word
  layouts : List Nat
  halted  : Bool
  faultn  : Bool
  lanternStart : DWord
  hostStart : DWord
  leaseQ  : List Nat
deriving DecidableEq, Repr

/-! ## The whole machine -/

/-- Who issues in a step: a pipe of a cluster, a cluster's MCC, a lantern core, a host core. -/
inductive Agent where
  | pipe (cluster pipe : Nat)
  | mcc (cluster : Nat)
  | lantern (n : Nat)
  | hart (n : Nat)
deriving DecidableEq, Repr

/-- One entry of the agenda: an agent issues (with its posted accesses translated later or at once, R143), a step of
the opcode table without an encoding happens, a cached translation (R285), a Z tag (R290), a cached instruction word (R289) or a
poisoned L1 word (R324) is dropped, a translation is walked to before an access needs it (R285), or an HBM sector acquires an error that its ECC corrects or only detects (R292). -/
inductive Move where
  | issue (a : Agent) (late : Bool)
  | event (i : Instr)
  | evict (n : Nat)
  | zevict (line : Nat)
  | ievict (n : Nat)
  | levict (n : Nat)
  | walk (holder part asid va : Nat)
  | decay (sector : Nat) (fixable : Bool)
deriving DecidableEq, Repr

/-- The fragment or lantern core on whose behalf the instruction of this step runs. -/
inductive Turn where
  | none
  | frag (key : Key) (who : Who) (index : Nat)
  | lantern (n : Nat)
deriving DecidableEq, Repr

/-- The memory machine of R267 with translation; `l1Pois` are the poisoned words of the clusters' L1 (R324), by cluster and word
number; `errs` are sectors with an error that nothing has met yet, and whether the ECC
corrects it (R292). -/
structure MemSys where
  mem      : Mem
  sys      : Mem
  queue    : List Access
  pool     : List RedEntry
  redm     : List RedEntry
  cb       : List Partial
  paths    : List PathWrite
  clocks   : List Nat
  exports  : List XItem
  hostw    : List HostWrite
  epochs   : Tab Nat
  prov     : Tab Nat
  seen     : List SeenWrite
  zlines   : List Nat
  badSect  : List Nat
  errs     : List (Nat × Bool)
  monitors : List Monitor
  tlb      : List TlbEntry
  icache   : List ILine
  l1Pois   : List (Nat × Nat)
  serial   : Nat
deriving DecidableEq, Repr

/-- A collective in progress on this module (R219–R225): the launch, the group and which CLV of it; the name under which
values of other modules are free (`seed`); the SRC elements of the ranks that are DONE, by rank. -/
structure Coll where
  part  : Nat
  grid  : Nat
  group : Nat
  nth   : Nat
  seed  : Nat
  sent  : List (Nat × List Nat)
deriving DecidableEq, Repr

/-- The module. `rail` is the time, in tenths of a cycle of the vector rail, since reset: CYC of a cluster that the table
does not list (R29); `exch` is the fabric cycle of each die's last balancing exchange (R306). -/
structure State where
  agenda   : List Move
  fresh    : Nat
  turn     : Turn
  late     : Bool
  pass     : List (FragRef × Bool × Nat)
  fcyc     : Nat
  rail     : Nat
  boost    : Bool
  ms       : MemSys
  blocks   : List Block
  gangs    : List Gang
  launches : List Launch
  graphs   : List Graph
  clusters : Tab Cluster
  parts    : Tab Partition
  queues   : Tab Queue
  lanterns : Tab HubCore
  harts    : Tab HubCore
  ports    : Tab Port
  hub      : Hub
  peats    : List PeatLog
  exch     : Tab Nat
  colls    : List Coll
deriving DecidableEq, Repr

/-- Why the machine stops. Both reasons are the model's own; the hardware never meets them in a step of `step`. -/
inductive Fault where
  /-- Raised by a meaning of a Sikai word when no fragment, and no MCC, is issuing (the turn names none). Safe: `step`
  sets the turn before it runs an instruction, so no run meets it. -/
  | noIssuer
  /-- Raised by a meaning of a lantern word when the turn names no lantern core. Safe, as noIssuer. -/
  | noLantern
deriving DecidableEq, Repr

/-- Why the machine declines an instruction. -/
inductive Refusal where
  /-- The arm of `exec` has no meaning yet. Safe. -/
  | notModelled (mnemonic : String)
deriving DecidableEq, Repr

/-! ## Reset -/

/-- A cluster after reset: BAL 65 536 (R356), everything else empty or 0. -/
def Cluster.reset : Cluster :=
  { cyc := 0, vcyc := 0, em := 0, is := 0, emBase := 0, bal := 65536, charges := [], tried := none, cbwait := 0, chq := [],
    chWait := [], chBack := [], selOwner := none, selWait := [], tasks := [], arrayAt := 0, frozen := false, skid := [], sample := 0, lastRun := [] }

/-- A partition after reset (R287, R294, R320, R326, R340, R346, R374, R375, R382): partition 0 holds the device. -/
def Partition.reset (p : Nat) : Partition :=
  { schedctl := 0x400, llthr := 256, qtm0 := 0, qtm1 := 0, phovr := 0, fqbase := 0, fqctl := 0, fqhead := 0,
    fqtail := 0, ydl := 40000, pretgt := 0, prectl := 0, savebase := 0, savesz := 0, tlbiva := 0, tlbictl := 0,
    tlbiWait := [], dbgctl := 0, bpc := List.replicate 8 0, wpa := List.replicate 8 0, wpl := List.replicate 8 0,
    trbase := 0, trctl := 0, trpos := 0, trdrop := 0, sampctl := 0, deveacc := 0, gtbase := 0, scbase := 0,
    scctl := 0, scpos := 0, scrply := List.replicate 4 0,
    partctl := if p = 0 then 0x8000FFFF else 0,
    pclus := List.replicate 4 (if p = 0 then 0xFFFFFFFFFFFFFFFF else 0),
    pq := if p = 0 then 4096 else 0,
    slots := List.replicate 64 { data := List.replicate 16 0, grid := 0, blk := 0, thread := 0, dtime := 0 },
    mbpos := 0, mbctl := 0, mbWait := [], faults := [], nextSeq := 0, freezes := [], calls := [], nextCall := 0,
    nextGrid := 1, phase := 0, sliceEnd := 0, expired := none, yieldAt := none,
    lease := { pend := none, held := false, endAt := 0, rvk := false, notice := none, sig := 0, asid := 0, owed := [], stuck := false },
    health := List.replicate 4 0, hold := 0, holdLay := 0, holdQ := 0, fwPending := [], run := none,
    blocked := none, target := [], ringAsid := p, winGrid := 0, winBlk := 0, overs := [0, 0] }

/-- A queue after reset (R295, R361): every register 0. -/
def Queue.reset : Queue :=
  { qring := 0, qsched := 0, qpass := 0, held := none, launch := none, wiped := false, wait := none, was := false }

/-- A core of the hub die after reset. -/
def HubCore.reset : HubCore :=
  { x := Vector.replicate 32 0, pc := 0, sram := [], mepc := 0, mcause := 0, mtval := 0, mtvec := 0, mstatus := 0,
    mie := 0, mscratch := 0, swait := none, f := Vector.replicate 32 0, v := Vector.replicate 32 0, priv := 3, virt := false,
    csrs := [], late := [] }

/-- A Fenlink port after reset (R373). -/
def Port.reset : Port :=
  { en := false, up := false, down := false, drop := 0, nextRx := 0, replays := 0, rx := [], nextTx := 0, retry := [] }

/-- The hub after reset, before the boot ROM runs (R281, R293, R374, R379). -/
def Hub.reset : Hub :=
  { asidt := 0, hmap := 0, scrubp := 86400, flid := 0, minsvn := 0, keyhash := 0, attgo := false, nonce := 0,
    attbuf := [], meas := List.replicate 10 0, measBuf := 0, idcert := [], parterr := false, flashA := [], flashB := [], image := 0,
    fwver := 0, svn := 0, layouts := [1], halted := false, faultn := true, lanternStart := 0, hostStart := 0,
    leaseQ := [] }

/-- The memory machine at its start (R268): queues, pools and buffers empty, E equal to M, clocks 0. -/
def MemSys.reset : MemSys :=
  { mem := [], sys := [], queue := [], pool := [], redm := [], cb := [], paths := [],
    clocks := List.replicate 16 0, exports := [], hostw := [], epochs := [], prov := [], seen := [], zlines := [],
    badSect := [], errs := [], monitors := [], tlb := [], icache := [], l1Pois := [], serial := 0 }

/-- The module right after reset. Clusters, partitions, queues, hub cores and ports that a table does not list are
at their reset records (Ops reads a table so); no block is placed. -/
def State.reset : State :=
  { agenda := [], fresh := 0, turn := .none, late := false, pass := [], fcyc := 0, rail := 0, boost := false,
    ms := MemSys.reset, blocks := [], gangs := [], launches := [], graphs := [], clusters := [], parts := [],
    queues := [], lanterns := [], harts := [], ports := [], hub := Hub.reset,
    peats := [], exch := [], colls := [] }

end Sys2Proof.Machine
end

