-- ==== Sys2Proof/Machine/Ops.lean ====
section
/-! DEFINITION. The named operations over State: tables, byte memory, registers, blocks and fragments, translation,
the queues of the memory machine, parking on a fault, taking a trap and returning from it. -/
namespace Sys2Proof.Machine
open Sys2Proof

/-! ## Lists, vectors and tables -/

/-- Element i of a vector, or a default beyond its end. -/
def vget {α : Type} {n : Nat} (v : Vector α n) (i : Nat) (d : α) : α := if h : i < n then v[i] else d

/-- The vector with element i replaced, unchanged when i is beyond its end. -/
def vset {α : Type} {n : Nat} (v : Vector α n) (i : Nat) (x : α) : Vector α n := if h : i < n then v.set i x else v

/-- The list with element i changed. -/
def lmod {α : Type} : List α → Nat → (α → α) → List α
  | [], _, _ => []
  | a :: r, 0, f => f a :: r
  | a :: r, n + 1, f => a :: lmod r n f

/-- The list without element i. -/
def ldrop {α : Type} : List α → Nat → List α
  | [], _ => []
  | _ :: r, 0 => r
  | a :: r, n + 1 => a :: ldrop r n

/-- Look a number up in a table; an unlisted number has the default record. -/
def tabGet {α : Type} (d : α) : Tab α → Nat → α
  | [], _ => d
  | (k, v) :: r, n => if k = n then v else tabGet d r n

/-- Enter a record in a table, keeping it ascending. -/
def tabSet {α : Type} : Tab α → Nat → α → Tab α
  | [], n, x => [(n, x)]
  | (k, v) :: r, n, x => if n < k then (n, x) :: (k, v) :: r else if n = k then (n, x) :: r else (k, v) :: tabSet r n x

/-- Remove a number from a table. -/
def tabDel {α : Type} (t : Tab α) (n : Nat) : Tab α := t.filter fun e => e.1 != n

/-- Is the number listed? -/
def tabHas {α : Type} (t : Tab α) (n : Nat) : Bool := t.any fun e => e.1 == n

/-- The lanes of a set, ascending. -/
def laneList (m : Lanes) : List Nat := (List.range 64).filter fun L => m.getLsbD L

/-- The set of the lanes for which f holds. -/
def lanesOf (f : Nat → Bool) : Lanes := (List.range 64).foldl (fun m L => if f L then m ||| (1#64 <<< L) else m) 0

/-- The place of a party among those of its block: the warps ascending (R95, R158), and the MCC before them: a warp's SWR to CSLR in
the cycle of one by the MCC, which R95 does not order, is the later one (DESIGN CHOICE, log 113). -/
def whoRank : Who → Nat
  | .mcc => 0
  | .warp n => n + 1

/-- The lowest lane of a set (0 for the empty set). -/
def lowLane (m : Lanes) : Nat := ((List.range 64).find? fun L => m.getLsbD L).getD 0

/-- The set of one lane. -/
def laneBit (L : Nat) : Lanes := 1#64 <<< L

/-- 2^32 - 1 at most (Sat32 of R216, R239, R241). -/
def sat32 (x : Nat) : Word := BitVec.ofNat 32 (min x 0xFFFFFFFF)

/-- The set bits of a 128-bit register mask from r, n registers. -/
def sMask (r n : Nat) : BitVec 128 := (BitVec.ofNat 128 (2 ^ n - 1)) <<< r

/-- The lane registers r to r + n - 1 as a mask. -/
def vMask (r n : Nat) : BitVec 64 := (BitVec.ofNat 64 (2 ^ n - 1)) <<< r

/-- A predicate as a mask: p0 is never written and never pending (R21, R60). -/
def pMask (r : Nat) : BitVec 4 := if r = 0 then 0 else 1#4 <<< r

/-! ## Byte memory -/

/-- The byte at an address: an unlisted byte reads 0 (log 2). -/
def memGet : Mem → Nat → Byte
  | [], _ => 0
  | (a, b) :: r, x => if x = a then b else if x < a then 0 else memGet r x

/-- Write one byte, keeping the canonical form. -/
def memSet : Mem → Nat → Byte → Mem
  | [], x, b => if b = 0 then [] else [(x, b)]
  | (a, c) :: r, x, b =>
    if x < a then (if b = 0 then (a, c) :: r else (x, b) :: (a, c) :: r)
    else if x = a then (if b = 0 then r else (x, b) :: r)
    else (a, c) :: memSet r x b

/-- n bytes from an address, ascending. -/
def memRead (m : Mem) (a : Nat) : Nat → List Byte
  | 0 => []
  | n + 1 => memGet m a :: memRead m (a + 1) n

/-- Write bytes from an address upwards. -/
def memWrite (m : Mem) (a : Nat) : List Byte → Mem
  | [] => m
  | b :: r => memWrite (memSet m a b) (a + 1) r

/-- Addresses rise from at least `lo`, and no entry is 0. -/
def memFrom (lo : Nat) : Mem → Bool
  | [] => true
  | (a, b) :: r => lo ≤ a && b != 0 && memFrom (a + 1) r

/-- The canonical form of a byte memory: addresses strictly rising, no entry equal to what an unlisted byte reads as. -/
def Memory.wf (m : Mem) : Bool := memFrom 0 m

/-- A 32-bit little-endian word of a byte memory (R4). -/
def memWord (m : Mem) (a : Nat) : Word := BitVec.ofNat 32 (leNat (memRead m a 4))

/-- A 64-bit little-endian word of a byte memory. -/
def memDword (m : Mem) (a : Nat) : DWord := BitVec.ofNat 64 (leNat (memRead m a 8))

/-- The bytes of a 32-bit word. -/
def wordBytes (w : Word) : List Byte := leBytes 4 w.toNat

/-- The bytes of a 64-bit word. -/
def dwordBytes (w : DWord) : List Byte := leBytes 8 w.toNat

/-! ## State: tables and records -/

/-- Cluster c. -/
def State.cluster (s : State) (c : Nat) : Cluster := tabGet { Cluster.reset with cyc := s.rail } s.clusters c
/-- Replace cluster c. -/
def State.setCluster (s : State) (c : Nat) (v : Cluster) : State := { s with clusters := tabSet s.clusters c v }
/-- Change cluster c. -/
def State.modCluster (s : State) (c : Nat) (f : Cluster → Cluster) : State := s.setCluster c (f (s.cluster c))
/-- Partition p. -/
def State.part (s : State) (p : Nat) : Partition := tabGet (Partition.reset p) s.parts p
/-- Replace partition p. -/
def State.setPart (s : State) (p : Nat) (v : Partition) : State := { s with parts := tabSet s.parts p v }
/-- Change partition p. -/
def State.modPart (s : State) (p : Nat) (f : Partition → Partition) : State := s.setPart p (f (s.part p))
/-- Queue q. -/
def State.queue (s : State) (q : Nat) : Queue := tabGet Queue.reset s.queues q
/-- Replace queue q. -/
def State.setQueue (s : State) (q : Nat) (v : Queue) : State := { s with queues := tabSet s.queues q v }
/-- Change queue q. -/
def State.modQueue (s : State) (q : Nat) (f : Queue → Queue) : State := s.setQueue q (f (s.queue q))
/-- Lantern core n. -/
def State.lantern (s : State) (n : Nat) : HubCore := tabGet HubCore.reset s.lanterns n
/-- Replace lantern core n. -/
def State.setLantern (s : State) (n : Nat) (v : HubCore) : State := { s with lanterns := tabSet s.lanterns n v }
/-- Host core n. -/
def State.hart (s : State) (n : Nat) : HubCore := tabGet HubCore.reset s.harts n
/-- Replace host core n. -/
def State.setHart (s : State) (n : Nat) (v : HubCore) : State := { s with harts := tabSet s.harts n v }
/-- Fenlink port n. -/
def State.port (s : State) (n : Nat) : Port := tabGet Port.reset s.ports n
/-- Change Fenlink port n. -/
def State.modPort (s : State) (n : Nat) (f : Port → Port) : State := { s with ports := tabSet s.ports n (f (s.port n)) }
/-- Change the memory machine. -/
def State.modMs (s : State) (f : MemSys → MemSys) : State := { s with ms := f s.ms }
/-- Change the hub. -/
def State.modHub (s : State) (f : Hub → Hub) : State := { s with hub := f s.hub }

/-- DTIME: 1 ns a tick, two fabric cycles of 2.0 GHz (R2, R29; log 7). -/
def State.dtime (s : State) : Nat := s.fcyc / 2

/-- The block of a key. -/
def State.block? (s : State) (k : Key) : Option Block := s.blocks.find? fun b => b.key = k
/-- Change the block of a key. -/
def State.modBlock (s : State) (k : Key) (f : Block → Block) : State :=
  { s with blocks := s.blocks.map fun b => if b.key = k then f b else b }
/-- The launch of a partition with an ID. -/
def State.launch? (s : State) (p g : Nat) : Option Launch := s.launches.find? fun l => l.part = p && l.grid = g
/-- Change a launch. -/
def State.modLaunch (s : State) (p g : Nat) (f : Launch → Launch) : State :=
  { s with launches := s.launches.map fun l => if l.part = p && l.grid = g then f l else l }

/-- The party of a block. -/
def Block.party? (b : Block) : Who → Option Party
  | .warp n => b.warps[n]?
  | .mcc => b.mcc
/-- Change a party of a block. -/
def Block.modParty (b : Block) (w : Who) (f : Party → Party) : Block :=
  match w with
  | .warp n => { b with warps := lmod b.warps n f }
  | .mcc => { b with mcc := b.mcc.map f }
/-- The fragments of a block for which a test holds. -/
def Block.fragsWhere (b : Block) (f : Frag → Bool) : List (Who × Nat) :=
  let of (w : Who) (p : Party) : List (Who × Nat) :=
    (List.range p.frags.length).filterMap fun i =>
      match p.frags[i]? with
      | some g => if f g then some (w, i) else none
      | none => none
  ((List.range b.warps.length).flatMap fun n => match b.warps[n]? with
    | some p => of (.warp n) p
    | none => []) ++
    (match b.mcc with
     | some p => of .mcc p
     | none => [])

/-- Change every fragment of a block. -/
def Block.mapFrags (b : Block) (f : Frag → Frag) : Block :=
  let g (p : Party) : Party := { p with frags := p.frags.map f }
  { b with warps := b.warps.map g, mcc := b.mcc.map g }

/-- Change a party. -/
def State.modParty (s : State) (k : Key) (w : Who) (f : Party → Party) : State :=
  s.modBlock k fun b => b.modParty w f
/-- Change a fragment of a party. -/
def Party.modFrag (p : Party) (i : Nat) (f : Frag → Frag) : Party := { p with frags := lmod p.frags i f }
/-- Change a fragment. -/
def State.modFrag (s : State) (k : Key) (w : Who) (i : Nat) (f : Frag → Frag) : State :=
  s.modParty k w fun p => p.modFrag i f

/-- The party of a key. -/
def State.party? (s : State) (k : Key) (w : Who) : Option Party := (s.block? k).bind fun b => b.party? w

/-- The cluster a block is resident on. -/
def Block.cluster? (b : Block) : Option Nat :=
  match b.place with
  | .resident c => some c
  | _ => none

/-- The index of the fragment that holds a lane. -/
def Party.fragOf (p : Party) (lane : Nat) : Option Nat := p.frags.findIdx? fun f => f.lanes.getLsbD lane

/-- The lanes that have not exited. -/
def Party.live (p : Party) : Lanes := p.all &&& ~~~p.exited

/-! ## Registers -/

/-- A lane register (R21). -/
def Party.getV (p : Party) (r L : Nat) : Word := vget (vget p.v r (Vector.replicate 64 0)) L 0
/-- A uniform register. -/
def Party.getS (p : Party) (r : Nat) : Word := vget p.s r 0
/-- The pair of uniform registers r, r + 1, low word first (R21). -/
def Party.getSD (p : Party) (r : Nat) : DWord := (p.getS (r + 1) ++ p.getS r).setWidth 64
/-- The pair of lane registers r, r + 1. -/
def Party.getVD (p : Party) (r L : Nat) : DWord := (p.getV (r + 1) L ++ p.getV r L).setWidth 64
/-- A predicate: p0 reads true (R21). -/
def Party.getP (p : Party) (r L : Nat) : Bool := r == 0 || (vget p.p r 0).getLsbD L
/-- The lanes in which a predicate is true. -/
def Party.predLanes (p : Party) (r : Nat) : Lanes := if r = 0 then BitVec.allOnes 64 else vget p.p r 0

/-- Write a lane register in a set of lanes; a write of the whole element clears its poison mark (R325). -/
def Party.setV (p : Party) (r : Nat) (m : Lanes) (f : Nat → Word) : Party :=
  { p with v := vset p.v r (Vector.ofFn fun i : Fin 64 => if m.getLsbD i then f i else p.getV r i),
           poisV := vset p.poisV r (vget p.poisV r 0 &&& ~~~m) }
/-- Write a uniform register. -/
def Party.setS (p : Party) (r : Nat) (x : Word) : Party :=
  { p with s := vset p.s r x, poisS := p.poisS &&& ~~~(sMask r 1) }
/-- Write a pair of uniform registers. -/
def Party.setSD (p : Party) (r : Nat) (x : DWord) : Party :=
  (p.setS r (x.setWidth 32)).setS (r + 1) ((x >>> 32).setWidth 32)
/-- Write consecutive uniform registers. -/
def Party.setSs (p : Party) (r : Nat) : List Word → Party
  | [] => p
  | x :: xs => (p.setS r x).setSs (r + 1) xs
/-- Write a predicate in a set of lanes; p0 discards the write (R21). -/
def Party.setP (p : Party) (r : Nat) (m : Lanes) (f : Nat → Bool) : Party :=
  if r = 0 then p
  else { p with p := vset p.p r (lanesOf fun L => if m.getLsbD L then f L else (vget p.p r 0).getLsbD L) }

/-! ## Register sets (R60) -/

/-- No register. -/
def RegSet.none : RegSet := { v := 0, s := 0, p := 0 }
/-- Union of register sets. -/
def RegSet.or (a b : RegSet) : RegSet := { v := a.v ||| b.v, s := a.s ||| b.s, p := a.p ||| b.p }
/-- Do two register sets share a register? -/
def RegSet.meets (a b : RegSet) : Bool := (a.v &&& b.v != 0) || (a.s &&& b.s != 0) || (a.p &&& b.p != 0)
/-- Is the set empty? -/
def RegSet.isNone (a : RegSet) : Bool := a.v == 0 && a.s == 0 && a.p == 0
/-- The set of one register. -/
def RegSet.one : RegName → RegSet
  | .v n => { RegSet.none with v := vMask n 1 }
  | .s n => { RegSet.none with s := sMask n 1 }
  | .p n => { RegSet.none with p := pMask n }
/-- The set without the registers of another. -/
def RegSet.minus (a b : RegSet) : RegSet := { v := a.v &&& ~~~b.v, s := a.s &&& ~~~b.s, p := a.p &&& ~~~b.p }
/-- Lane registers r to r + n - 1. -/
def RegSet.vs (r n : Nat) : RegSet := { RegSet.none with v := vMask r n }
/-- Uniform registers r to r + n - 1. -/
def RegSet.ss (r n : Nat) : RegSet := { RegSet.none with s := sMask r n }
/-- A predicate. -/
def RegSet.pr (r : Nat) : RegSet := { RegSet.none with p := pMask r }

/-! ## Fault codes (R317) -/

def cILLOP : Nat := 0x01
def cALIGN : Nat := 0x02
def cHAZARD : Nat := 0x03
def cREGWIN : Nat := 0x04
def cPRIV : Nat := 0x05
def cPAGE : Nat := 0x10
def cPROT : Nat := 0x11
def cMISALN : Nat := 0x12
def cBARCLOB : Nat := 0x13
def cTILESHAPE : Nat := 0x20
def cTILESTATE : Nat := 0x21
def cACCOVER : Nat := 0x22
def cMMAMIS : Nat := 0x23
def cENGDESC : Nat := 0x30
def cTKBAD : Nat := 0x31
def cVNONE : Nat := 0x40
def cVDEPTH : Nat := 0x41
def cVTABLE : Nat := 0x42
def cECCU : Nat := 0x50
def cPOISON : Nat := 0x51
def cBRKPT : Nat := 0x60
def cWATCH : Nat := 0x61
def cTRAPI : Nat := 0x62
def cCMDLEN : Nat := 0x70
def cCMDOP : Nat := 0x71

/-- A fault with a code only. -/
def flt (code : Nat) : Flt := { code := code, elem := 0, addr := 0, level := 0, mal := false }
/-- A fault at an element. -/
def fltAt (code elem : Nat) : Flt := { flt code with elem := BitVec.ofNat 32 elem }

/-- The codes R317 delivers to the host cores whatever the handler. -/
def hostCode (c : Nat) : Bool := c == cPAGE || c == cPROT || c == cECCU

/-! ## Geometry -/

/-- Warps of a block (R12). -/
def LaunchRec.nwarps (r : LaunchRec) : Nat := r.dx * r.dy * r.dz / r.width
/-- Blocks of the grid (R13). -/
def LaunchRec.nblocks (r : LaunchRec) : Nat := r.gx * r.gy * r.gz
/-- The gang a block belongs to (R13). -/
def LaunchRec.gangOf (r : LaunchRec) (blk : Nat) : Nat := blk / max 1 r.gangsz
/-- Blocks in the gang of a block (R13): the last gang may be short. -/
def LaunchRec.gangSize (r : LaunchRec) (blk : Nat) : Nat :=
  if r.gangsz = 0 then 1 else min r.gangsz (r.nblocks - r.gangOf blk * r.gangsz)
/-- The lanes of a whole warp of the width. -/
def widthMask (w : Nat) : Lanes := BitVec.ofNat 64 (2 ^ w - 1)
/-- THREAD of R345: the thread index of the lowest lane, 0xFFFF for the MCC. -/
def threadOf (width : Nat) (who : Who) (lanes : Lanes) : BitVec 16 :=
  match who with
  | .warp n => BitVec.ofNat 16 (n * width + lowLane lanes)
  | .mcc => 0xFFFF

/-! ## Words of memory -/

/-- Do n bytes at a and m bytes at b have a 32-bit word in common (R267, R276, R371)? -/
def wordsMeet (a n b m : Nat) : Bool := decide (a / 4 * 4 < b + m) && decide (b / 4 * 4 < a + n)

/-! ## Writes that reach HBM -/

/-- Does line l meet n bytes at pa? -/
def lineMeets (l pa n : Nat) : Bool := decide (l * 128 < pa + n) && decide (pa < l * 128 + 128)

/-- Does a write of n bytes at pa give sector c new contents: it covers the sector whole (R292), or the sector's line is a Z
line, which the write fills with zeros first (R290)? -/
def coverMeets (z : List Nat) (c pa n : Nat) : Bool :=
  (decide (pa ≤ c * 32) && decide (c * 32 + 32 ≤ pa + n)) || (z.contains (c / 4) && lineMeets (c / 4) pa n)

/-- What every write that reaches M brings about: errors and poison marks of sectors, and marks of L1 words, to which it gives new
contents go (R292, R325), Z flags
of lines it touches (R290), and the waiters of a watched word are rescheduled (R291). -/
def coverSectors (ms : MemSys) (pa n : Nat) : MemSys :=
  { ms with
    monitors := ms.monitors.map fun m => if m.pa < pa + n && pa < m.pa + 4 then { m with woken := m.waiters } else m,
    zlines := ms.zlines.filter fun l => !lineMeets l pa n,
    badSect := ms.badSect.filter fun c => !coverMeets ms.zlines c pa n,
    errs := ms.errs.filter fun e => !coverMeets ms.zlines e.1 pa n,
    l1Pois := ms.l1Pois.filter fun e => !(decide (pa ≤ 4 * e.2) && decide (4 * e.2 + 4 ≤ pa + n)),
    prov := ms.prov.filter fun e => !(pa ≤ e.1 && e.1 < pa + n) }

/-- A device write at its home: M changes and the write joins X (R271). -/
def homeWrite (ms : MemSys) (w : XWrite) : MemSys :=
  let ms := coverSectors ms w.pa w.data.length
  { ms with mem := memWrite ms.mem w.pa w.data, exports := ms.exports ++ [.write w] }

/-- Does sector c meet n bytes at pa? -/
def sectMeets (c pa n : Nat) : Bool := decide (c * 32 < pa + n) && decide (pa < c * 32 + 32)

/-- Does a read of n bytes at pa meet a sector marked poisoned (R292)? A Z line is read without memory (R290). -/
def eccHit (ms : MemSys) (pa n : Nat) : Bool :=
  ms.badSect.any fun c => sectMeets c pa n && !ms.zlines.contains (c / 4)

/-- What the ECC makes of a read of n bytes at pa by a partition (R292): errors it corrects are written back and counted, an
uncorrectable sector is counted and marked poisoned; whether the read raises ECCU. -/
def eccRead (s : State) (part pa n : Nat) : State × Bool :=
  let met (e : Nat × Bool) : Bool := sectMeets e.1 pa n && !s.ms.zlines.contains (e.1 / 4)
  if s.ms.errs.any met then
    let l := s.ms.errs.filter met
    let bad := (l.filter fun e => !e.2).map fun e => e.1
    let s := s.modMs fun ms =>
      { ms with errs := ms.errs.filter fun e => !met e,
                badSect := (ms.badSect.filter fun c => !bad.contains c) ++ bad }
    let s := s.modPart part fun q =>
      { q with health := lmod (lmod q.health 0 fun x => x + BitVec.ofNat 64 (l.length - bad.length)) 3 fun x =>
          x + BitVec.ofNat 64 bad.length }
    (s, eccHit s.ms pa n)
  else (s, eccHit s.ms pa n)

/-! ## Translation (R282–R286) -/

/-- The first address beyond HBM (R280). -/
def hbmEnd : Nat := 0x10000000000

/-- A leaf found by a walk; `open_` marks one chosen from a group that breaks the rule of R284, which is not cached. -/
structure Leaf where
  base  : Nat
  size  : Nat
  frame : Nat
  cont  : Bool
  r     : Bool
  w     : Bool
  x     : Bool
  level : Nat
  open_ : Bool

/-- A translation fault at a level. -/
def fltTr (code va level : Nat) (mal : Bool) : Flt :=
  { code := code, elem := 0, addr := BitVec.ofNat 64 va, level := level, mal := mal }

/-- The leaf that entry i of its group names at a level, for an address. An entry with CONT = 1 stands for its whole group, also where the
group breaks the rule of R284: another page is translated by its frame less 64 KiB for each entry before it, modulo 2^48 (DESIGN
CHOICE, log 22). -/
def leafOf (e va lvl i : Nat) : Leaf :=
  let pa := bitsAt e 16 32 * 65536
  let c := bitsAt e 7 1 == 1
  if lvl == 1 then
    { base := va / 2 ^ 29 * 2 ^ 29, size := 2 ^ 29, frame := pa, cont := false,
      r := bitsAt e 2 1 == 1, w := bitsAt e 3 1 == 1, x := bitsAt e 4 1 == 1, level := 1, open_ := false }
  else
    { base := if c then va / 2 ^ 21 * 2 ^ 21 else va / 65536 * 65536, size := if c then 2 ^ 21 else 65536,
      frame := if c then (pa + 2 ^ 48 - i * 65536) % 2 ^ 48 else pa, cont := c,
      r := bitsAt e 2 1 == 1, w := bitsAt e 3 1 == 1, x := bitsAt e 4 1 == 1, level := 2, open_ := false }

/-- Is a table entry a valid level-2 leaf with CONT = 1? -/
def contLeaf (e : Nat) : Bool :=
  bitsAt e 0 2 == 3 && bitsAt e 7 1 == 1 && bitsAt e 48 16 == 0 && bitsAt e 8 8 == 0 && bitsAt e 5 2 == 0

/-- Does a group of 32 entries keep the rule of R284? -/
def groupOk (es : List Nat) : Bool :=
  let f := bitsAt (es.headD 0) 16 32
  f % 32 == 0 && (List.range 32).all fun i =>
    let e := es.getD i 0
    contLeaf e && bitsAt e 2 3 == bitsAt (es.headD 0) 2 3 && bitsAt e 16 32 == f + i

/-- The entry that translates a page of a level-2 table and its place in its group of 32 (R284), with whether a free value chose
it: its own, unless the group holds entries with CONT = 1 and breaks the rule; then its own or any of those. -/
def groupEntry (m : Mem) (t idx pick : Nat) : Nat × Nat × Bool :=
  let g := idx / 32 * 32
  let es := (List.range 32).map fun i => leNat (memRead m (t + 8 * (g + i)) 8)
  let own := es.getD (idx % 32) 0
  if !es.any contLeaf || groupOk es then (own, idx % 32, false)
  else
    let l := idx % 32 :: (List.range 32).filter fun i => i != idx % 32 && contLeaf (es.getD i 0)
    let i := l.getD (pick % l.length) 0
    (es.getD i 0, i, true)

/-- The walk of R283 from a table, at a level (fuel: the levels left); `pick` is the free value that R284 may need, and the first
part of the answer says whether it chose. A table outside HBM reads as zeros, so that the walk ends with PAGE (DESIGN CHOICE,
log 97). -/
def walkFrom (m : Mem) (va pick : Nat) : Nat → Nat → Nat → Bool × Except Flt Leaf
  | 0, lvl, _ => (false, .error (fltTr cPROT va (lvl - 1) true))
  | k + 1, lvl, t =>
    let idx := if lvl == 0 then bitsAt va 42 13 else if lvl == 1 then bitsAt va 29 13 else bitsAt va 16 13
    let (e, i, free) := if lvl == 2 then groupEntry m t idx pick else (leNat (memRead m (t + 8 * idx) 8), 0, false)
    let fail (c : Nat) (mal : Bool) : Bool × Except Flt Leaf := (free, .error (fltTr c va lvl mal))
    if bitsAt e 0 1 == 0 then fail cPAGE false
    else if bitsAt e 48 16 != 0 || bitsAt e 8 8 != 0 || bitsAt e 5 2 != 0 then fail cPROT true
    else if bitsAt e 1 1 == 0 then
      if lvl == 2 || bitsAt e 7 1 == 1 || bitsAt e 2 3 != 0 then fail cPROT true
      else walkFrom m va pick k (lvl + 1) (bitsAt e 16 32 * 65536)
    else if lvl == 0 then fail cPROT true
    else if lvl == 1 && (bitsAt e 16 13 != 0 || bitsAt e 7 1 == 1) then fail cPROT true
    else (free, .ok { leafOf e va lvl i with open_ := free })

/-- The walk of an address under an ASID of a partition (R283, R286). -/
def walk (s : State) (part asid va : Nat) : Bool × Except Flt Leaf :=
  let e := leNat (memRead s.ms.mem (s.hub.asidt.toNat + 8 * asid) 8)
  if bitsAt e 0 1 == 0 then (false, .error (fltTr cPAGE va 0 false))
  else if bitsAt e 48 12 != 0 || bitsAt e 1 15 != 0 || bitsAt e 60 4 != part then (false, .error (fltTr cPROT va 0 true))
  else walkFrom s.ms.mem va (Config.freeValue s.fresh).toNat 3 0 (bitsAt e 16 32 * 65536)

/-- The table words that a walk reads, in order (R283). -/
def walkWords (m : Mem) (va : Nat) : Nat → Nat → Nat → List Nat
  | 0, _, _ => []
  | k + 1, lvl, t =>
    let a := t + 8 * (if lvl == 0 then bitsAt va 42 13 else if lvl == 1 then bitsAt va 29 13 else bitsAt va 16 13)
    let e := leNat (memRead m a 8)
    if bitsAt e 0 8 == 1 && bitsAt e 48 16 == 0 && bitsAt e 8 8 == 0 then a :: walkWords m va k (lvl + 1) (bitsAt e 16 32 * 65536)
    else [a]

/-- What the ECC makes of the words a walk reads (R292): whether one of them is uncorrectable. -/
def walkEcc (s : State) (part asid va : Nat) : State × Bool :=
  let a := s.hub.asidt.toNat + 8 * asid
  let e := leNat (memRead s.ms.mem a 8)
  (a :: walkWords s.ms.mem va 3 0 (bitsAt e 16 32 * 65536)).foldl (fun x a => if x.2 then x else eccRead x.1 part a 8) (s, false)

/-- A walk by a TLB holder: the translation, and whether it may be cached; a table word that cannot be read raises ECCU. -/
def walkTo (s : State) (h part asid va : Nat) : State × Except Flt (TlbEntry × Bool) :=
  let (s, bad) := walkEcc s part asid va
  if bad then (s, .error (fltTr cECCU va 0 false))
  else
    let k := walk s part asid va
    let s := if k.1 then { s with fresh := s.fresh + 1 } else s
    match k.2 with
    | .error f => (s, .error f)
    | .ok l =>
      (s, .ok ({ holder := h, asid := asid, part := part, base := l.base, size := l.size, frame := l.frame, cont := l.cont,
                 r := l.r, w := l.w, x := l.x }, !l.open_))

/-- The die of a TLB holder: clusters 0–255 on dies 256–259; the hub's lantern cores are holder 260. -/
def dieHolder (h : Nat) : Nat := if h < 256 then 256 + h / 64 else h

/-- Capacity of a TLB: 512 entries in a cluster, 8192 shared by a die. -/
def tlbCap (h : Nat) : Nat := if h < 256 then 512 else 8192

/-- Drop the oldest entry of a holder. -/
def tlbDropOldest (h : Nat) : List TlbEntry → List TlbEntry
  | [] => []
  | e :: r => if e.holder = h then r else e :: tlbDropOldest h r

/-- Keep a translation in a TLB, dropping the holder's oldest entry when it is full. -/
def tlbInsert (t : List TlbEntry) (e : TlbEntry) : List TlbEntry :=
  (if (t.filter fun x => x.holder = e.holder).length < tlbCap e.holder then t else tlbDropOldest e.holder t) ++ [e]

/-- The cached translations of an address that a holder may use: more than one while a change of the tables has not been followed by
an invalidation (R285). -/
def tlbMatches (t : List TlbEntry) (h part asid va : Nat) : List TlbEntry :=
  t.filter fun e => e.holder = h && e.asid = asid && e.part = part && e.base ≤ va && va < e.base + e.size

/-- Do two cached translations give an address the same meaning? -/
def TlbEntry.agrees (a b : TlbEntry) (va : Nat) : Bool :=
  (a.frame + (va - a.base)) % 2 ^ 48 == (b.frame + (va - b.base)) % 2 ^ 48 && a.size == b.size && a.r == b.r && a.w == b.w && a.x == b.x

/-- The one cached translation of an address that a holder may use. -/
def tlbFind (t : List TlbEntry) (h part asid va : Nat) : Option TlbEntry :=
  match tlbMatches t h part asid va with
  | e :: r => if r.all fun x => e.agrees x va then some e else none
  | [] => none

/-- The cached translation that an access of a holder uses: of several a free value chooses, for each access afresh (R285). -/
def tlbPick (s : State) (h part asid va : Nat) : Option (State × TlbEntry) :=
  match tlbFind s.ms.tlb h part asid va with
  | some e => some (s, e)
  | none =>
    match tlbMatches s.ms.tlb h part asid va with
    | [] => none
    | e :: r => some ({ s with fresh := s.fresh + 1 }, (e :: r).getD ((Config.freeValue s.fresh).toNat % (r.length + 1)) e)

/-- The check of a translation (R280, R283): permission, then the HBM range; the physical address. -/
def useEntry (e : TlbEntry) (va : Nat) (r w x : Bool) : Except Flt Nat :=
  let lvl := if e.size == 2 ^ 29 then 1 else 2
  let pa := (e.frame + (va - e.base)) % 2 ^ 48
  if (r && !e.r) || (w && !e.w) || (x && !e.x) then .error (fltTr cPROT va lvl false)
  else if hbmEnd ≤ pa then .error (fltTr cPROT va lvl false)
  else .ok pa

/-- Translate an address for a holder (R283–R285): a cached translation of its TLB, of its die's, or a walk, which is
then cached. An entry with V = 0 is never cached, nor is one that R284 leaves to the device for each access. -/
def translate (s : State) (h part asid va : Nat) (r w x : Bool) : State × Except Flt Nat :=
  match tlbPick s h part asid va with
  | some (s, e) => (s, useEntry e va r w x)
  | none =>
    match tlbPick s (dieHolder h) part asid va with
    | some (s, e) => (s.modMs fun ms => { ms with tlb := tlbInsert ms.tlb { e with holder := h } }, useEntry e va r w x)
    | none =>
      match walkTo s h part asid va with
      | (s, .error f) => (s, .error f)
      | (s, .ok (e, keep)) =>
        if !keep then (s, useEntry e va r w x) else
        let t := tlbInsert s.ms.tlb e
        let t := if dieHolder h = h then t else tlbInsert t { e with holder := dieHolder h }
        (s.modMs fun ms => { ms with tlb := t }, useEntry e va r w x)

/-- A cluster, a die or the lantern cores' walker walks to a page before an access needs it, and keeps the translation (R285). -/
def walkAhead (s : State) (h part asid va : Nat) : State :=
  if 260 < h || 2 ^ 55 ≤ va || 1024 ≤ asid then s
  else
    match walkTo s h part asid va with
    | (s, .ok (e, true)) => s.modMs fun ms => { ms with tlb := tlbInsert ms.tlb e }
    | (s, _) => s

/-! ## Fault records (R320, R321) -/

/-- Byte 6 of a fault record. -/
def kindByte (dbl impr drn eng mcc : Bool) (level : Nat) (mal : Bool) : Byte :=
  BitVec.ofNat 8 (dbl.toNat + impr.toNat * 2 + drn.toNat * 4 + eng.toNat * 8 + mcc.toNat * 16 + (level % 4) * 32 +
    mal.toNat * 128)

/-- A record of the partition with the next sequence number; it is written later (FAULT_RECORD_WRITE). -/
def addRecord (s : State) (p : Nat) (mk : Word → FaultRec) : State :=
  s.modPart p fun q => { q with faults := q.faults ++ [mk q.nextSeq], nextSeq := q.nextSeq + 1 }

/-- The record of a fault of a party (R321). -/
def partyRecord (s : State) (l : Launch) (k : Key) (who : Who) (lanes : Lanes) (f : Flt) (pc : Addr)
    (dbl impr drn : Bool) (code2 : Nat) (target : FTarget) (seq : Word) : FaultRec :=
  { seq := seq, code := f.code, code2 := if dbl then code2 else 0,
    kind := kindByte dbl impr drn false (who = .mcc) f.level f.mal,
    elem := f.elem, asid := l.lr.asid, pc := pc.setWidth 64,
    addr := if hostCode f.code then f.addr else 0,
    grid := BitVec.ofNat 32 k.grid, blk := BitVec.ofNat 32 k.blk, thread := threadOf l.lr.width who lanes,
    ticket := 0, dtime := BitVec.ofNat 64 s.dtime, written := false, answered := false, target := target }

/-- Does a fragment stand at an instruction boundary: it may issue, or its next instruction is held (R143, R328)? -/
def Wait.boundary : Wait → Bool
  | .run => true
  | .hold _ => true
  | _ => false

/-! ## Parking, trap entry and return (R249–R253, R318, R319) -/

/-- The handler entry of a launch for a party (R249): 0 for none. -/
def handlerOf (l : Launch) : Who → Nat
  | .warp _ => l.lr.whnd
  | .mcc => l.lr.mhnd

/-- Split lanes off a fragment as a parked fragment at the end of the list; the rest stays in its place, and a
fragment left without lanes is removed. -/
def splitPark (p : Party) (i : Nat) (lanes : Lanes) (w : Wait) : Party :=
  match p.frags[i]? with
  | none => p
  | some f =>
    let g := { f with lanes := f.lanes &&& lanes, wait := w }
    let rest := f.lanes &&& ~~~lanes
    if rest == 0 then { p with frags := lmod p.frags i fun _ => g }
    else { p with frags := lmod p.frags i (fun f => { f with lanes := rest }) ++ [g] }

/-- Park lanes of a fragment for a fault (R319). A fault bound for the host cores (R317), any fault when the launch
names no handler, and any fault of a handler fragment (R253: a double fault) makes a record. -/
def park (s : State) (k : Key) (who : Who) (i : Nat) (lanes : Lanes) (f : Flt) (timm : BitVec 16) (pfx : Bool)
    (ret : Addr) : State :=
  match s.launch? k.part k.grid, (s.party? k who).bind fun p => p.frags[i]?.map fun g => (p, g) with
  | some l, some (p, g) =>
    let host := hostCode f.code || handlerOf l who == 0 || g.handler
    let ls := g.lanes &&& lanes
    let seq := (s.part k.part).nextSeq
    let pk : Park := { flt := f, host := host, seq := if host then some seq else none, posted := false,
                       timm := timm, pfx := pfx, retPc := ret }
    let s := s.modParty k who fun p => splitPark p i lanes (.parked pk)
    if host then
      addRecord s k.part (partyRecord s l k who ls f g.pc g.handler false false
        (match p.trap with
         | some t => t.code
         | none => 0) (.party k who ls))
    else s
  | _, _ => s

/-- The parked fragment that enters the handler next (R249): bound for the handler, lowest PC, then lowest lane. -/
def nextTrapped (p : Party) : Option Nat :=
  let cand := (List.range p.frags.length).filter fun i =>
    match p.frags[i]? with
    | some f => (match f.wait with
      | .parked k => !k.host && !k.posted
      | _ => false)
    | none => false
  let key (i : Nat) : Nat := match p.frags[i]? with
    | some f => f.pc.toNat * 64 + lowLane f.lanes
    | none => 0
  cand.foldl (fun best i => match best with
    | none => some i
    | some j => if key i < key j then some i else some j) none

/-- The trap state of R251 in s124–s127. -/
def trapState (p : Party) (pc : Addr) (k : Park) : Party :=
  p.setSs 124 [BitVec.ofNat 32 (k.timm.toNat * 65536 + k.pfx.toNat * 256 + k.flt.code), k.flt.elem,
    pc.setWidth 32, (pc >>> 32).setWidth 32]

/-- Trap entry (R250): the parked fragment's state goes to the trap record, s124–s127 receive the trap state, and the
fragment becomes the handler fragment at the handler's entry with an empty pending set. -/
def enterHandler (p : Party) (i : Nat) (entry : Nat) : Party :=
  match p.frags[i]? with
  | none => p
  | some f =>
    match f.wait with
    | .parked k =>
      let rec_ : TrapRec :=
        { lanes := f.lanes, pend := f.pend, prg := f.prg, prgpc := f.prgpc, prgx := f.prgx,
          ret := k.retPc, nxt := f.pc + (if k.pfx then 8 else 4), code := k.flt.code }
      let p := trapState p f.pc k
      { p with trap := some rec_,
               frags := lmod p.frags i fun f =>
                 { f with pc := BitVec.ofNat 55 entry, pend := RegSet.none, wait := .run, handler := true } }
    | _ => p

/-- Enter the handler when the trap record is free and a fragment waits for it (R249). -/
def tryEnter (s : State) (k : Key) (who : Who) : State :=
  match s.launch? k.part k.grid, s.party? k who with
  | some l, some p =>
    if p.trap.isSome then s
    else match nextTrapped p with
      | some i => s.modParty k who fun p => enterHandler p i (handlerOf l who)
      | none => s
  | _, _ => s

/-- Taking an exception: the lanes that fault are parked, one fragment a code in ascending order of code (R318), and
then the handler is entered if the trap record is free (R249). -/
def raise (s : State) (k : Key) (who : Who) (i : Nat) (bad : List (Lanes × Flt)) (timm : BitVec 16) (pfx : Bool)
    (ret : Addr) : State :=
  tryEnter (bad.foldl (fun s e => park s k who i e.1 e.2 timm pfx ret) s) k who

/-- The return from an exception (R252): ERET's effect on the handler fragment i. NX chooses the next instruction, RS
clears PRG.V. -/
def trapReturn (p : Party) (i : Nat) (nx rs : Bool) : Party :=
  match p.trap with
  | none => p
  | some t =>
    { p with trap := none,
             frags := lmod p.frags i fun f =>
               { f with pc := if nx then t.nxt else t.ret, pend := t.pend,
                        prg := if rs then t.prg &&& 0x7FFFFFFFFFFFFFFF#64 else t.prg,
                        prgpc := t.prgpc, prgx := t.prgx, handler := false, wait := .run } }

/-- Group lanes that fault by code, ascending (R318): the first lane's fault of a code stands for the fragment. -/
def groupFaults (bad : List (Nat × Flt)) : List (Lanes × Flt) :=
  (List.range 256).filterMap fun c =>
    match bad.filter fun e => e.2.code == c with
    | [] => none
    | e :: r => some ((e :: r).foldl (fun m x => m ||| laneBit x.1) 0, e.2)

/-! ## Queues of the memory machine -/

/-- The next serial number. -/
def State.bump (s : State) : State := s.modMs fun ms => { ms with serial := ms.serial + 1 }

/-- Append accesses to the stream queues, in order (R269). -/
def enqueue (s : State) (l : List Access) : State := s.modMs fun ms => { ms with queue := ms.queue ++ l }

/-- Two accesses of which the later must wait for the earlier (R267, R270): one party's threads in one stream, or
lanes of one instruction in one stream. -/
def mustFollow (a b : Access) : Bool :=
  a.key = b.key && a.who = b.who && a.stream = b.stream && ((a.lanes &&& b.lanes) != 0 || a.serial = b.serial)

/-- Is access i at the head of each queue it stands in? -/
def atHead (q : List Access) (i : Nat) : Bool :=
  match q[i]? with
  | none => false
  | some a => !((q.take i).any fun b => mustFollow b a)

/-- Has a party's set of threads no access left in a stream (R273)? -/
def streamEmpty (s : State) (k : Key) (who : Who) (lanes : Lanes) (st : Nat → Bool) : Bool :=
  !(s.ms.queue.any fun a => a.key = k && a.who = who && (a.lanes &&& lanes) != 0 && st a.stream)

/-- Is an earlier access of the threads in a stream held for fault service, or a reduction retried after it? No later one becomes
visible before it (R143). -/
def heldBefore (s : State) (k : Key) (who : Who) (lanes : Lanes) (st serial : Nat) : Bool :=
  (s.ms.queue.any fun a => a.held.isSome && a.key = k && a.who = who && (a.lanes &&& lanes) != 0 && a.stream = st &&
    decide (a.serial < serial)) ||
  s.ms.pool.any fun r => (r.held.isSome || r.again) && r.key = k && r.who = who && lanes.getLsbD r.lane && r.stream = st &&
    decide (r.serial < serial)

/-- Are the pools empty of the threads' REDs in the streams, and their partials flushed (R273)? -/
def redsDone (s : State) (k : Key) (who : Who) (lanes : Lanes) (st : Nat → Bool) : Bool :=
  let mine (r : RedEntry) : Bool := r.key = k && r.who = who && lanes.getLsbD r.lane && st r.stream
  !(s.ms.pool.any mine) && !(s.ms.cb.any fun c => c.owners.any mine)

/-- The registers a queued access will still write in a set of lanes: the results outstanding in memory (R60). -/
def accessWrites (a : Access) : RegSet :=
  match a.kind with
  | .load n _ d => RegSet.vs d (if n ≤ 4 then 1 else n / 4)
  | .loadS n _ d => RegSet.ss d (if n ≤ 4 then 1 else 2)
  | .atom _ n _ d => RegSet.vs d (if n ≤ 4 then 1 else 2)
  | .atomS _ _ d => RegSet.ss d 1
  | .acas n _ _ pr d => (RegSet.vs d (if n ≤ 4 then 1 else 2)).or (RegSet.pr pr)
  | _ => RegSet.none

/-- The registers that queued accesses of a party's lanes still write. -/
def comingRegs (s : State) (k : Key) (who : Who) (lanes : Lanes) : RegSet :=
  s.ms.queue.foldl (fun r a => if a.key = k && a.who = who && (a.lanes &&& lanes) != 0 then r.or (accessWrites a) else r)
    RegSet.none

/-- Does a fragment still wait for a result: one marked outstanding or an access that writes a register? -/
def resultsOut (s : State) (k : Key) (who : Who) (f : Frag) : Bool :=
  !f.out.isNone ||
    s.ms.queue.any fun a => a.key = k && a.who = who && (a.lanes &&& f.lanes) != 0 && !(accessWrites a).isNone

/-- Does an access read, does it write? -/
def AccKind.rw : AccKind → Bool × Bool
  | .load _ _ _ => (true, false)
  | .loadS _ _ _ => (true, false)
  | .store _ => (false, true)
  | .zline => (false, true)
  | .tileLoad _ _ => (true, false)
  | .tileStore _ => (false, true)
  | .waitRead _ => (true, false)
  | .tableRead => (true, false)
  | _ => (true, true)

/-! ## Free values -/

/-- A free value (log 6) and the state with the counter advanced. -/
def State.free (s : State) : State × DWord := ({ s with fresh := s.fresh + 1 }, Config.freeValue s.fresh)

end Sys2Proof.Machine
end

