-- ==== Sys2Proof/Machine/Fenlink.lean ====
section
/-! DEFINITION. Fenlink flits: their CRC, a port as sender and as receiver (R383). -/
namespace Sys2Proof.Machine
open Sys2Proof

/-! ## The CRC -/

/-- One bit of a CRC-16 of polynomial 0x8BB7. -/
def crcBit (c : BitVec 16) (b : Bool) : BitVec 16 := if c.getLsbD 15 != b then (c <<< 1) ^^^ 0x8BB7 else c <<< 1

/-- The bits of a byte in the order the CRC takes them. -/
def crcBits (reflect : Bool) (b : Byte) : List Bool :=
  let up := (List.range 8).map fun i => b.getLsbD i
  if reflect then up else up.reverse

/-- A CRC-16 over bytes (log 17). -/
def crc16 (init xor : BitVec 16) (reflect : Bool) (l : List Byte) : BitVec 16 :=
  let c := (l.flatMap (crcBits reflect)).foldl crcBit init
  (if reflect then c.reverse else c) ^^^ xor

/-- The bytes a flit's CRC covers: header bits [63:16] and the payload. -/
def flitBytes (hdr : DWord) (payload : BitVec 512) : List Byte :=
  let up := (leBytes 8 hdr.toNat).drop 2 ++ leBytes 64 payload.toNat
  if Config.crcBytesDown then up.reverse else up

/-- The CRC of a flit. -/
def flitCrc (hdr : DWord) (payload : BitVec 512) : BitVec 16 :=
  crc16 Config.crcInit Config.crcXor Config.crcReflect (flitBytes hdr payload)

/-! ## The sender -/

/-- The port through which a module is reached: the spec gives no topology (log 17). -/
def linkPort (dst : Nat) : Nat := Config.linkPort dst % 16

/-- A header with the port's next SEQ and the CRC of the whole flit. -/
def sealFlit (seq : BitVec 16) (hdr : DWord) (payload : BitVec 512) : DWord :=
  let h := (hdr &&& 0xFFFFFFFF00000000) ||| (seq.setWidth 64 <<< 16)
  h ||| (flitCrc h payload).setWidth 64

/-- A port sends a flit: it takes the port's next SEQ, and is kept in the retry buffer, from which the other side may ask for it
again. SEQ has 16 bits: an older flit than the last 65 535 cannot be asked for. -/
def sendOn (s : State) (port : Nat) (hdr : DWord) (payload : BitVec 512) : State :=
  s.modPort port fun y =>
    { y with nextTx := y.nextTx + 1, retry := (y.retry ++ [(sealFlit y.nextTx hdr payload, payload)]).drop (y.retry.length + 1 - 65535) }

/-- A flit of collective data for a module. What it carries, and its virtual channel, the spec does not say: free values (log 17). -/
def sendData (s : State) (dst : Nat) : State :=
  let (s, vc) := s.free
  let hdr : DWord := BitVec.ofNat 64 (dst % 1024 * 2 ^ 54 + s.hub.flid.toNat * 2 ^ 44 + vc.toNat % 16 * 2 ^ 36)
  let payload := BitVec.ofNat 512 (leNat ((List.range 8).flatMap fun k => dwordBytes (Config.freeValue (s.fresh + k))))
  sendOn { s with fresh := s.fresh + 8 } (linkPort dst) hdr payload

/-- The flits that carry a chunk of a collective to another module: how many, up to 1024 of 64 bytes for a chunk of 64 KiB, the spec
does not say (log 17). -/
def sendChunk (s : State) (dst : Nat) : State :=
  let (s, n) := s.free
  (List.range (n.toNat % 1025)).foldl (fun s _ => sendData s dst) s

/-! ## The receiver -/

/-- A flit arrives at a port: a bad CRC or a SEQ out of order asks for a replay. A flit of a reserved TYPE is dropped and counted, and
so is one for another module that terminates here; one that does not is passed on; else it is delivered. -/
def receiveFlit (s : State) (port : Nat) (hdr : DWord) (payload : BitVec 512) : State :=
  let x := hdr.toNat
  let p := s.port port
  let dst := bitsAt x 54 10
  if !p.en || !p.up then s
  else if flitCrc hdr payload != hdr.setWidth 16 || bitsAt x 16 16 != p.nextRx.toNat then
    s.modPort port fun y => { y with replays := y.replays + 1 }
  else
    let s := s.modPort port fun y => { y with nextRx := y.nextRx + 1 }
    if 3 ≤ bitsAt x 40 4 || (dst != s.hub.flid.toNat && Config.linkEnds dst) then
      s.modPort port fun y => { y with drop := if y.drop == 0xFFFFFFFF then y.drop else y.drop + 1 }
    else if dst != s.hub.flid.toNat then sendOn s (linkPort dst) hdr payload
    else s.modPort port fun y => { y with rx := y.rx ++ [(hdr, payload)] }

end Sys2Proof.Machine
end

