-- ==== Sys2Proof/Machine/Flags.lean ====
section
/-! DEFINITION. Conditions, mode fields and the progress register. The Hyver 9 has no arithmetic flags (R75); what an
instruction tests or leaves beside its result is a condition on a register (R57, R85, R92), a field of FMODE (R32), or the
progress register PRG of the macro-instructions (R37–R42). -/
namespace Sys2Proof.Machine
open Sys2Proof

/-- BRC's conditions on a signed word and zero (R57). -/
def condZero (c : Nat) (x : Word) : Bool :=
  match c with
  | 0 => x.toInt == 0
  | 1 => x.toInt != 0
  | 2 => decide (x.toInt < 0)
  | 3 => decide (x.toInt ≤ 0)
  | 4 => decide (0 < x.toInt)
  | 5 => decide (0 ≤ x.toInt)
  | _ => false

/-- The six relations of ICMP (R85), signed or unsigned. -/
def relation (c : Nat) (unsigned : Bool) (a b : Word) : Bool :=
  let lt := if unsigned then decide (a.toNat < b.toNat) else decide (a.toInt < b.toInt)
  match c with
  | 0 => a == b
  | 1 => a != b
  | 2 => lt
  | 3 => lt || a == b
  | 4 => !(lt || a == b)
  | 5 => !lt
  | _ => false

/-- The comparisons of SCMP (R92): EQ, NE, LT and LE signed, LT and LE unsigned. -/
def scmpRel (c : Nat) (a b : Word) : Bool :=
  match c with
  | 0 => a == b
  | 1 => a != b
  | 2 => relation 2 false a b
  | 3 => relation 3 false a b
  | 4 => relation 2 true a b
  | 5 => relation 3 true a b
  | _ => false

/-- The comparisons of WAITCMP (R162). -/
def waitRel (c : Nat) (w b : Word) : Bool :=
  match c with
  | 0 => w == b
  | 1 => w != b
  | 2 => decide (w.toInt < b.toInt)
  | 3 => decide (b.toInt ≤ w.toInt)
  | 4 => decide (w.toNat < b.toNat)
  | 5 => decide (b.toNat ≤ w.toNat)
  | 6 => (w &&& b) != 0
  | _ => false

/-! ## FMODE (R32) -/

/-- The rounding modes of FMODE.RM: nearest even, towards zero, up, down. -/
inductive Rnd where
  | rne | rz | ru | rd
deriving DecidableEq, Repr

/-- The rounding mode of a two-bit code. -/
def rndOf (n : Nat) : Rnd :=
  match n with
  | 0 => .rne
  | 1 => .rz
  | 2 => .ru
  | _ => .rd

/-- FMODE.RM. -/
def fmodeRnd (m : Word) : Rnd := rndOf (m.toNat % 4)
/-- FMODE.FTZ. -/
def fmodeFtz (m : Word) : Bool := m.getLsbD 2
/-- A write to FMODE keeps its defined bits (R8, R32). -/
def fmodeWrite (x : Word) : Word := x &&& 7

/-! ## CSLR (R33) -/

/-- A write to CSLR keeps GAP and WAVE. -/
def cslrWrite (x : Word) : Word := x &&& 0x003FFF7F
/-- CSLR.WAVE, above 64 treated as 0. -/
def cslrWave (x : Word) : Nat := if x.toNat % 128 ≤ 64 then x.toNat % 128 else 0
/-- CSLR.GAP. -/
def cslrGap (x : Word) : Nat := x.toNat / 256 % 16384

/-! ## PRG (R37–R42) -/

/-- PRG.V. -/
def prgV (x : DWord) : Bool := x.getLsbD 63
/-- PRG.CLASS. -/
def prgClass (x : DWord) : Nat := bitsAt x.toNat 56 7
/-- PRG.PHASE. -/
def prgPhase (x : DWord) : Nat := bitsAt x.toNat 48 8
/-- PRG.ELEM. -/
def prgElem (x : DWord) : Nat := bitsAt x.toNat 0 32
/-- PRG with V = 1. -/
def mkPrg (cls phase elem : Nat) : DWord :=
  BitVec.ofNat 64 (2 ^ 63 + cls % 128 * 2 ^ 56 + phase % 256 * 2 ^ 48 + elem % 2 ^ 32)
/-- PRG with V cleared, its other fields as they stand. -/
def clearV (x : DWord) : DWord := x &&& 0x7FFFFFFFFFFFFFFF#64
/-- A write to PRG: bits [47:32] are discarded (R37, R42). -/
def prgWrite (x : DWord) : DWord := x &&& 0xFFFF0000FFFFFFFF#64
/-- A write to PRGPC: bits [63:55] are discarded (R29, R42). -/
def prgpcWrite (x : DWord) : DWord := x &&& 0x007FFFFFFFFFFFFF#64

/-- Does a macro of a class at a PC resume (R39)? -/
def resumes (f : Frag) (cls : Nat) (pc : Addr) : Bool :=
  prgV f.prg && f.prgpc == pc.setWidth 64 && prgClass f.prg == cls

/-- The macro classes of R38. -/
def clMMA : Nat := 1
def clMMAQ : Nat := 2
def clGTH : Nat := 3
def clSCT : Nat := 4
def clSELQ : Nat := 5
def clSELK : Nat := 6
def clREP : Nat := 7
def clTLD : Nat := 8
def clTST : Nat := 9

end Sys2Proof.Machine
end

