-- ==== Sys2Proof/Machine/Float.lean ====
section
/-! DEFINITION. The number formats of the Hyver 9 (R114–R117), exact values, and the one rounding (R118, R132): every
operation computes the exact value and rounds once. -/
namespace Sys2Proof.Machine
open Sys2Proof

/-- The value of an element: NaN, an infinity, or (-1)^neg × m × 2^e exactly (m = 0: a signed zero). -/
inductive FV where
  | nan
  | inf (neg : Bool)
  | fin (neg : Bool) (m : Nat) (e : Int)
deriving DecidableEq, Repr

/-- A binary format of R114: exponent bits, mantissa bits, bias. -/
structure Fmt where
  eb   : Nat
  mb   : Nat
  bias : Nat
deriving DecidableEq, Repr

/-- f32. -/
def fF32 : Fmt := { eb := 8, mb := 23, bias := 127 }
/-- f16. -/
def fF16 : Fmt := { eb := 5, mb := 10, bias := 15 }
/-- bf16. -/
def fBF16 : Fmt := { eb := 8, mb := 7, bias := 127 }
/-- e4m3. -/
def fE4M3 : Fmt := { eb := 4, mb := 3, bias := 7 }
/-- e5m2. -/
def fE5M2 : Fmt := { eb := 5, mb := 2, bias := 15 }
/-- e2m1. -/
def fE2M1 : Fmt := { eb := 2, mb := 1, bias := 1 }

/-! ## Reading a pattern -/

/-- The finite value of a pattern's fields (R114). -/
def finOf (f : Fmt) (x : Nat) : FV :=
  let m := x % 2 ^ f.mb
  let e := x / 2 ^ f.mb % 2 ^ f.eb
  let neg := x / 2 ^ (f.mb + f.eb) % 2 == 1
  if e = 0 then .fin neg m (1 - (f.bias : Int) - f.mb)
  else .fin neg (m + 2 ^ f.mb) ((e : Int) - f.bias - f.mb)

/-- The value of a pattern of a format with infinities and NaNs (f32, f16, bf16, e5m2). -/
def valOf (f : Fmt) (x : Nat) : FV :=
  if x / 2 ^ f.mb % 2 ^ f.eb = 2 ^ f.eb - 1 then
    (if x % 2 ^ f.mb = 0 then .inf (x / 2 ^ (f.mb + f.eb) % 2 == 1) else .nan)
  else finOf f x

/-- The value of an e4m3 code (R115): 0x80 is the one NaN. -/
def valE4M3 (x : Nat) : FV := if x % 256 = 128 then .nan else finOf fE4M3 x
/-- The value of a two's-complement code of n bits (R116). -/
def valQ (n x : Nat) : FV :=
  let y := x % 2 ^ n
  if 2 ^ (n - 1) ≤ y then .fin true (2 ^ n - y) 0 else .fin false y 0
/-- The value of an e8 scale (R130). -/
def valE8 (x : Nat) : FV := if x % 256 = 255 then .nan else .fin false 1 ((x % 256 : Nat) - 127)

/-- Element codes of R130. -/
def valElem (code x : Nat) : FV :=
  match code with
  | 0 => valOf fF16 x
  | 1 => valOf fBF16 x
  | 2 => valE4M3 x
  | 3 => valOf fE5M2 x
  | 4 => finOf fE2M1 x
  | 5 => valQ 8 x
  | 6 => valQ 4 x
  | _ => valOf fF32 x

/-- Bits of an element code. -/
def elemBits (code : Nat) : Nat :=
  match code with
  | 0 => 16
  | 1 => 16
  | 2 => 8
  | 3 => 8
  | 4 => 4
  | 5 => 8
  | 6 => 4
  | _ => 32

/-! ## Rounding -/

/-- The bit length of a number (fuel: at most 1024 bits). -/
def bitLen (m : Nat) : Nat := if m = 0 then 0 else Nat.log2 m + 1

/-- Does a mode round a magnitude up, given its parity and the remainder against half (R32)? -/
def roundUp (r : Rnd) (neg odd : Bool) (rem half : Nat) : Bool :=
  match r with
  | .rne => decide (half < rem) || (rem == half && half != 0 && odd)
  | .rz => false
  | .ru => !neg && rem != 0
  | .rd => neg && rem != 0

/-- Round m × 2^e to an integer multiple of 2^q: the multiple. -/
def roundAt (r : Rnd) (neg : Bool) (m : Nat) (e q : Int) : Nat :=
  if q ≤ e then m * 2 ^ (e - q).toNat
  else
    let sh := (q - e).toNat
    let d := m / 2 ^ sh
    let rem := m % 2 ^ sh
    if roundUp r neg (d % 2 == 1) rem (2 ^ (sh - 1)) then d + 1 else d

/-- The pattern of a rounded magnitude with unbounded exponent (R132): subnormals at the bottom, beyond the format's
range at the top. -/
def roundMag (f : Fmt) (r : Rnd) (neg : Bool) (m : Nat) (e : Int) : Nat :=
  if m = 0 then 0
  else
    let top := e + (bitLen m : Int) - 1
    let q := max top (1 - (f.bias : Int)) - f.mb
    let d := roundAt r neg m e q
    (q + f.mb + f.bias - 1).toNat * 2 ^ f.mb + d

/-- The sign bit of a format. -/
def signBit (f : Fmt) (neg : Bool) : Nat := if neg then 2 ^ (f.eb + f.mb) else 0
/-- The pattern of infinity. -/
def infBits (f : Fmt) : Nat := (2 ^ f.eb - 1) * 2 ^ f.mb
/-- The canonical NaN of a format with infinities (R117). -/
def nanBits (f : Fmt) : Nat := (2 ^ f.eb - 1) * 2 ^ f.mb + 2 ^ (f.mb - 1)

/-- IEEE rounding of a value to f32, f16, bf16 or e5m2 (R118): overflow by the mode. -/
def roundTo (f : Fmt) (r : Rnd) (v : FV) : Nat :=
  match v with
  | .nan => nanBits f
  | .inf neg => signBit f neg + infBits f
  | .fin neg m e =>
    let x := roundMag f r neg m e
    let big := match r with
      | .rne => infBits f
      | .rz => infBits f - 1
      | .ru => if neg then infBits f - 1 else infBits f
      | .rd => if neg then infBits f else infBits f - 1
    signBit f neg + (if infBits f ≤ x then big else x)

/-- A zero of its sign for a subnormal value (R119). -/
def flushV (f : Fmt) (ftz : Bool) (v : FV) : FV :=
  match v with
  | .fin neg m e => if ftz && decide (e + (bitLen m : Int) - 1 < 1 - (f.bias : Int)) then .fin neg 0 0 else v
  | _ => v

/-- A pattern below the smallest normal becomes a zero of its sign (R119). -/
def flushBits (f : Fmt) (ftz : Bool) (x : Nat) : Nat :=
  if ftz && decide (x % 2 ^ (f.eb + f.mb) < 2 ^ f.mb) then x / 2 ^ (f.eb + f.mb) * 2 ^ (f.eb + f.mb) else x

/-! ## Exact operations -/

/-- Sign. -/
def FV.neg? : FV → Bool
  | .nan => false
  | .inf n => n
  | .fin n _ _ => n
/-- Negation. -/
def FV.negate : FV → FV
  | .nan => .nan
  | .inf n => .inf (!n)
  | .fin n m e => .fin (!n) m e
/-- Magnitude. -/
def FV.abs : FV → FV
  | .nan => .nan
  | .inf _ => .inf false
  | .fin _ m e => .fin false m e
/-- Is the value a zero? -/
def FV.isZero : FV → Bool
  | .fin _ 0 _ => true
  | _ => false
/-- Is the value NaN? -/
def FV.isNan : FV → Bool
  | .nan => true
  | _ => false

/-- The signed integer of a finite value over 2^q, q not above its exponent. -/
def scaled (neg : Bool) (m : Nat) (e q : Int) : Int :=
  let x : Int := (m * 2 ^ (e - q).toNat : Nat)
  if neg then -x else x

/-- The value of an integer over 2^q; a zero has the given sign. -/
def ofScaled (t : Int) (q : Int) (zneg : Bool) : FV :=
  if t = 0 then .fin zneg 0 0 else .fin (decide (t < 0)) t.natAbs q

/-- Exact sum; an exact zero sum is +0, or -0 when rounding down, unless both addends are zeros of one sign (R122). -/
def addV (r : Rnd) (a b : FV) : FV :=
  match a, b with
  | .nan, _ => .nan
  | _, .nan => .nan
  | .inf x, .inf y => if x = y then .inf x else .nan
  | .inf x, _ => .inf x
  | _, .inf y => .inf y
  | .fin x m e, .fin y n k =>
    if m = 0 && n = 0 && x = y then .fin x 0 0
    else if m = 0 then (if n = 0 then .fin (r = .rd) 0 0 else .fin y n k)
    else if n = 0 then .fin x m e
    else
      let q := min e k
      ofScaled (scaled x m e q + scaled y n k q) q (r = .rd)

/-- Exact product. -/
def mulV (a b : FV) : FV :=
  match a, b with
  | .nan, _ => .nan
  | _, .nan => .nan
  | .inf x, .inf y => .inf (x != y)
  | .inf x, .fin y n _ => if n = 0 then .nan else .inf (x != y)
  | .fin x m _, .inf y => if m = 0 then .nan else .inf (x != y)
  | .fin x m e, .fin y n k => .fin (x != y) (m * n) (e + k)

/-- Numeric order of two values that are not NaN; zeros are equal. -/
def ltV (a b : FV) : Bool :=
  match a, b with
  | .nan, _ => false
  | _, .nan => false
  | .inf x, .inf y => x && !y
  | .inf x, _ => x
  | _, .inf y => !y
  | .fin x m e, .fin y n k =>
    let q := min e k
    decide (scaled x m e q < scaled y n k q)

/-- The relation of FCMP (R124). -/
def relV (c : Nat) (a b : FV) : Bool :=
  if a.isNan || b.isNan then c == 1
  else
    let lt := ltV a b
    let gt := ltV b a
    match c with
    | 0 => !lt && !gt
    | 1 => lt || gt
    | 2 => lt
    | 3 => !gt
    | 4 => gt
    | _ => !lt

/-- minimumNumber with -0 < +0 (R122). -/
def minV (a b : FV) : FV :=
  if a.isNan then b else if b.isNan then a
  else if ltV a b then a else if ltV b a then b else if a.neg? then a else b
/-- maximumNumber with -0 < +0. -/
def maxV (a b : FV) : FV :=
  if a.isNan then b else if b.isNan then a
  else if ltV a b then b else if ltV b a then a else if a.neg? then b else a

/-- The value times 2^n; the exponent is kept within ±1000, beyond which every format overflows or underflows alike. -/
def scaleV (a : FV) (n : Int) : FV :=
  match a with
  | .fin s m e => if m = 0 then a else .fin s m (e + max (-1000) (min 1000 n))
  | _ => a

/-- ExactSum of R185: NaN and infinities of the products, -0 only when every product is -0. -/
def exactSum (l : List FV) : FV :=
  let hasNan := l.any FV.isNan
  let pinf := l.any fun v => v == .inf false
  let ninf := l.any fun v => v == .inf true
  if hasNan || (pinf && ninf) then .nan
  else if pinf then .inf false
  else if ninf then .inf true
  else
    let fins := l.filterMap fun v => match v with
      | .fin s m e => some (s, m, e)
      | _ => none
    let nz := fins.filter fun t => t.2.1 != 0
    if nz.isEmpty then .fin (!l.isEmpty && fins.all fun t => t.1) 0 0
    else
      let q := nz.foldl (fun q t => min q t.2.2) (match nz with
        | t :: _ => t.2.2
        | [] => 0)
      ofScaled ((nz.map fun t => scaled t.1 t.2.1 t.2.2 q).sum) q false

/-- The value rounded to an integer by a mode, as a value that keeps the sign of zero (FRND, R122). -/
def integralV (r : Rnd) (a : FV) : FV :=
  match a with
  | .fin s m e => if 0 ≤ e then a else .fin s (roundAt r s m e 0) 0
  | _ => a

/-- The value rounded to an integer; NaN and infinities have none. -/
def toIntV (r : Rnd) (a : FV) : Option Int :=
  match a with
  | .fin s m e => let n : Int := (roundAt r s m (if e < -2000 then -2000 else e) 0 : Nat)
                  some (if s then -n else n)
  | _ => none

/-! ## Operations on patterns -/

/-- Read a pattern as a source under FTZ (R119). -/
def src (f : Fmt) (ftz : Bool) (x : Nat) : FV := flushV f ftz (valOf f x)
/-- Round and flush a result. -/
def res (f : Fmt) (r : Rnd) (ftz : Bool) (v : FV) : Nat := flushBits f ftz (roundTo f r v)

/-- An f32 operation of two operands under FMODE. -/
def f32op2 (m : Word) (op : Rnd → FV → FV → FV) (a b : Word) : Word :=
  let ftz := fmodeFtz m
  BitVec.ofNat 32 (res fF32 (fmodeRnd m) ftz (op (fmodeRnd m) (src fF32 ftz a.toNat) (src fF32 ftz b.toNat)))

/-- RoundF32 with RNE, subnormals kept: the sum and product of the array, atomics and collectives. -/
def rneF32 (v : FV) : Word := BitVec.ofNat 32 (roundTo fF32 .rne v)
/-- The value of an f32 word. -/
def vF32 (x : Word) : FV := valOf fF32 x.toNat
/-- f32 add with RNE, subnormals kept, NaN canonical (R149, R152, R223). -/
def addF32rne (a b : Word) : Word := rneF32 (addV .rne (vF32 a) (vF32 b))

/-- A packed-half operation on both elements (R123). -/
def half2 (f : Fmt) (m : Word) (op : Rnd → FV → FV → FV) (a b : Word) : Word :=
  let ftz := fmodeFtz m
  let one (x y : Nat) : Nat := res f (fmodeRnd m) ftz (op (fmodeRnd m) (src f ftz x) (src f ftz y))
  BitVec.ofNat 32 (one (a.toNat % 65536) (b.toNat % 65536) + 65536 * one (a.toNat / 65536) (b.toNat / 65536))

/-- A packed-half operation of three operands. -/
def half3 (f : Fmt) (m : Word) (op : Rnd → FV → FV → FV → FV) (a b c : Word) : Word :=
  let ftz := fmodeFtz m
  let one (x y z : Nat) : Nat := res f (fmodeRnd m) ftz (op (fmodeRnd m) (src f ftz x) (src f ftz y) (src f ftz z))
  BitVec.ofNat 32 (one (a.toNat % 65536) (b.toNat % 65536) (c.toNat % 65536) +
    65536 * one (a.toNat / 65536) (b.toNat / 65536) (c.toNat / 65536))

/-- Fused multiply-add, exact (R122). -/
def fmaV (r : Rnd) (a b c : FV) : FV := addV r (mulV a b) c

/-! ## Square root and the special functions (R125–R127) -/

/-- Integer square root from bit i downwards. -/
def isqrtFrom (n : Nat) : Nat → Nat → Nat
  | 0, r => r
  | i + 1, r => let t := r + 2 ^ i
                isqrtFrom n i (if t * t ≤ n then t else r)

/-- The square root of a positive finite value to 80 bits and a sticky bit: enough for any single rounding to f32. -/
def sqrtV (m : Nat) (e : Int) : FV :=
  let e2 := if e % 2 = 0 then e else e - 1
  let m2 := if e % 2 = 0 then m else 2 * m
  let n := m2 * 2 ^ 160
  let r := isqrtFrom n 110 0
  .fin false (2 * r + (if r * r = n then 0 else 1)) (e2 / 2 - 81)

/-- The quotient 1 / (m × 2^e) to 80 bits and a sticky bit. -/
def recipV (neg : Bool) (m : Nat) (e : Int) : FV :=
  let n := 2 ^ (bitLen m + 80)
  .fin neg (2 * (n / m) + (if n % m = 0 then 0 else 1)) (-e - (bitLen m : Int) - 81)

/-- SQRT, correctly rounded by FMODE.RM (R125). -/
def sqrtF32 (m : Word) (x : Word) : Word :=
  let v := match src fF32 (fmodeFtz m) x.toNat with
    | .nan => FV.nan
    | .inf s => if s then .nan else .inf false
    | .fin s mm e => if mm = 0 then .fin s 0 0 else if s then .nan else sqrtV mm e
  BitVec.ofNat 32 (flushBits fF32 true (roundTo fF32 (fmodeRnd m) v))

/-- |y - 1/x| is at most one ulp of the exact result (R125), x finite and not zero. -/
def rcpInBound (x y : Word) : Bool :=
  match vF32 x, vF32 y with
  | .fin sx m e, .fin sy n k =>
    let fl : Int := -e - (if m = 2 ^ (bitLen m - 1) then (bitLen m : Int) - 1 else bitLen m)
    sx = sy && !ltV (.fin false m (e + fl - 23))
      (addV .rne (mulV (.fin false m e) (.fin false n k)) (.fin true 1 0)).abs
  | _, _ => false

/-- |y - 1/√x| is at most two ulps of the exact result (R125), x finite and positive. -/
def rsqInBound (x y : Word) : Bool :=
  match vF32 x, vF32 y with
  | .fin false m e, .fin false n k =>
    let lx : Int := e + (bitLen m : Int) - 1
    let fl : Int := (if m = 2 ^ (bitLen m - 1) then -lx else -lx - 1) / 2
    let u : FV := .fin false 1 (fl - 22)
    let lo := addV .rne (.fin false n k) u.negate
    let hi := addV .rne (.fin false n k) u
    let xv : FV := .fin false m e
    (lo.neg? || !ltV (.fin false 1 0) (mulV (mulV lo lo) xv)) && !ltV (mulV (mulV hi hi) xv) (.fin false 1 0)
  | _, _ => false

/-- Flush a result of a special function (R126) and make NaN canonical. -/
def sfOut (x : Word) : Word := BitVec.ofNat 32 (flushBits fF32 true (roundTo fF32 .rne (vF32 x)))

/-- The free result of a special function, kept inside a stated interval [lo, hi]; a value outside stands for lo. -/
def within (lo hi : FV) (y : Word) : Word :=
  let v := vF32 y
  if v.isNan || ltV v lo || ltV hi v then rneF32 lo else y

/-- Is the exact result below the normal numbers, so that a zero of its sign replaces it (R126)? -/
def FV.tiny (a : FV) : Bool := ltV a.abs (.fin false 1 (-126))

/-- The free result of a special function within b of the exact result a; a value farther away stands for a. -/
def near (a b : FV) (y : Word) : Word :=
  if a.tiny then rneF32 (.fin a.neg? 0 0)
  else if (vF32 y).isNan || ltV b (addV .rne (vF32 y) a.negate).abs then rneF32 a else y

/-- Two ulps at a value (R125). -/
def twoUlp : FV → FV
  | .fin _ m e => .fin false 1 (e + (bitLen m : Int) - 23)
  | v => v

/-- One. -/
def oneV : FV := .fin false 1 0

/-! ### Exact results, as integers over 2^160

The transcendental functions of R125 to about 150 bits, by their power series: the centre of the bound (log 15). -/

/-- One. -/
def fxOne : Int := 2 ^ 160
/-- The natural logarithm of 2. -/
def fxLn2 : Int := 0xB17217F7D1CF79ABC9E3B39803F2F6AF40F34326
/-- π. -/
def fxPi : Int := 0x3243F6A8885A308D313198A2E03707344A4093822
/-- A product. -/
def fxMul (a b : Int) : Int := a * b / fxOne
/-- A finite value, rounded down. -/
def fxOf : FV → Int
  | .fin s m e =>
    let x : Int := if -160 ≤ e then (m : Int) * 2 ^ (e + 160).toNat else (m : Int) / 2 ^ (-160 - e).toNat
    if s then -x else x
  | _ => 0
/-- The value of an integer over 2^160. -/
def fxV (x : Int) : FV := .fin (decide (x < 0)) x.natAbs (-160)

/-- Horner's scheme: the steps n, n - 1, …, 1 on a start. -/
def fxSeries (step : Int → Int → Int) : Nat → Int → Int
  | 0, acc => acc
  | k + 1, acc => fxSeries step k (step (k + 1) acc)

/-- e^t for t in [0, 1]. -/
def fxExp (t : Int) : Int := fxSeries (fun k acc => fxOne + t * acc / (fxOne * k)) 48 fxOne
/-- sin r for r in [-1, 1]. -/
def fxSin (r : Int) : Int :=
  fxMul r (fxSeries (fun k acc => fxOne - fxMul r r * acc / (fxOne * (2 * k * (2 * k + 1)))) 24 fxOne)
/-- cos r for r in [-1, 1]. -/
def fxCos (r : Int) : Int := fxSeries (fun k acc => fxOne - fxMul r r * acc / (fxOne * ((2 * k - 1) * (2 * k)))) 24 fxOne
/-- The natural logarithm of z in [1, 2]: twice the inverse hyperbolic tangent of (z - 1) / (z + 1). -/
def fxLn (z : Int) : Int :=
  let w := (z - fxOne) * fxOne / (z + fxOne)
  2 * fxMul w (fxSeries (fun k acc => fxOne / (2 * k - 1) + fxMul (fxMul w w) acc) 60 0)

/-- 2^x. -/
def exp2V (x : FV) : FV :=
  let t := fxOf x
  .fin false (fxExp (fxMul (t % fxOne) fxLn2)).toNat (t / fxOne - 160)
/-- log2 of m × 2^e, m not 0. -/
def log2V (m : Nat) (e : Int) : FV :=
  let n := e + (bitLen m : Int) - 1
  fxV (n * fxOne + fxLn (fxOf (.fin false m (1 - (bitLen m : Int)))) * fxOne / fxLn2)
/-- The sine, or the cosine, of a value of magnitude up to 2^20: the quadrant and the rest in [-π/4, π/4]. -/
def trigV (cosine : Bool) (x : FV) : FV :=
  let t := fxOf x
  let q := (4 * t + fxPi) / (2 * fxPi)
  let r := t - q * fxPi / 2
  let k := (q + if cosine then 1 else 0) % 4
  let v := if k % 2 = 0 then fxSin r else fxCos r
  fxV (if k < 2 then v else -v)
/-- The error allowed for SIN and COS at a value up to 2^20 in magnitude: 2^-22 times ⌈|x|/π⌉ (R125). -/
def trigBound (x : FV) : FV := .fin false (max 1 ((fxOf x.abs + fxPi - 1) / fxPi).toNat) (-22)
/-- tanh of m × 2^e, m not 0: x (1 - x²/3) where x is small, just below 1 where it is large, else (E - 1) / (E + 1) for E = e^(2x).
It is below x, and below 1, so that an ulp is that of the binade below a power of two. -/
def tanhV (s : Bool) (m : Nat) (e : Int) : FV :=
  let x := fxOf (.fin false m e)
  let neg (v : FV) : FV := if s then v.negate else v
  if x < 2 ^ 120 then neg (.fin false (m * (fxOne - max 1 (fxMul x x / 3)).toNat) (e - 160))
  else if 64 * fxOne ≤ x then neg (.fin false (2 ^ 150 - 1) (-150))
  else
    let t := 2 * x * fxOne / fxLn2
    let ex := fxExp (fxMul (t % fxOne) fxLn2) * 2 ^ (t / fxOne).toNat
    neg (fxV ((ex - fxOne) * fxOne / (ex + fxOne)))

/-! ### The functions -/

/-- Source of a special function (R126): a subnormal is a zero of its sign when FTZ is 1. -/
def sfSrc (m x : Word) : FV := src fF32 (fmodeFtz m) x.toNat
/-- The pattern of a source after R126. -/
def sfBits (m x : Word) : Word := BitVec.ofNat 32 (flushBits fF32 (fmodeFtz m) x.toNat)

/-- EXP2 (R125, R126). -/
def exp2F32 (m x : Word) : Word :=
  match sfSrc m x with
  | .nan => rneF32 .nan
  | .inf s => if s then 0 else rneF32 (.inf false)
  | .fin s mm e =>
    if mm = 0 then 0x3F800000
    else if !ltV (.fin s mm e) (.fin false 128 0) then rneF32 (.inf false)
    else if ltV (.fin s mm e) (.fin true 200 0) then 0
    else
      let fl := (toIntV .rd (.fin s mm e)).getD 0
      if toIntV .ru (.fin s mm e) == some fl && decide (-126 ≤ fl) && decide (fl ≤ 127) then rneF32 (.fin false 1 fl)
      else
        let v := exp2V (.fin s mm e)
        sfOut (near v (twoUlp v) (Config.exp2 (sfBits m x)))

/-- LOG2 (R125, R126). -/
def log2F32 (m x : Word) : Word :=
  match sfSrc m x with
  | .nan => rneF32 .nan
  | .inf s => if s then rneF32 .nan else rneF32 (.inf false)
  | .fin s mm e =>
    if mm = 0 then rneF32 (.inf true)
    else if s then rneF32 .nan
    else if mm = 2 ^ (bitLen mm - 1) then
      let n := e + (bitLen mm : Int) - 1
      rneF32 (.fin (decide (n < 0)) n.natAbs 0)
    else
      let v := log2V mm e
      sfOut (near v (if e + (bitLen mm : Int) - 1 < -126 then .fin false 150 0 else twoUlp v) (Config.log2 (sfBits m x)))

/-- RCP (R125, R126). -/
def rcpF32 (m x : Word) : Word :=
  match sfSrc m x with
  | .nan => rneF32 .nan
  | .inf s => rneF32 (.fin s 0 0)
  | .fin s mm e =>
    if mm = 0 then rneF32 (.inf s)
    else
      let y := Config.rcp (sfBits m x)
      let v := recipV s mm e
      sfOut (if v.tiny then rneF32 (.fin s 0 0) else if rcpInBound (sfBits m x) y then y else rneF32 v)

/-- RSQ (R125, R126). -/
def rsqF32 (m x : Word) : Word :=
  match sfSrc m x with
  | .nan => rneF32 .nan
  | .inf s => if s then rneF32 .nan else 0
  | .fin s mm e =>
    if mm = 0 then rneF32 (.inf s)
    else if s then rneF32 .nan
    else
      let y := Config.rsq (sfBits m x)
      sfOut (if rsqInBound (sfBits m x) y then y
        else match sqrtV mm e with
          | .fin _ n k => rneF32 (recipV false n k)
          | v => rneF32 v)

/-- A result of SIN or COS: inside its error up to 2^20 in magnitude, beyond that some value in [-1, 1] (R125). -/
def trigOut (cosine : Bool) (v : FV) (y : Word) : Word :=
  sfOut (if ltV (.fin false 1 20) v.abs then within (.fin true 1 0) oneV y else near (trigV cosine v) (trigBound v) y)

/-- SIN (R125): NaN for infinities, ±0 kept. -/
def sinF32 (m x : Word) : Word :=
  match sfSrc m x with
  | .nan => rneF32 .nan
  | .inf _ => rneF32 .nan
  | .fin s mm e => if mm = 0 then rneF32 (.fin s 0 0) else trigOut false (.fin s mm e) (Config.sin (sfBits m x))

/-- COS (R125). -/
def cosF32 (m x : Word) : Word :=
  match sfSrc m x with
  | .nan => rneF32 .nan
  | .inf _ => rneF32 .nan
  | .fin s mm e => if mm = 0 then 0x3F800000 else trigOut true (.fin s mm e) (Config.cos (sfBits m x))

/-- TANH (R125). -/
def tanhF32 (m x : Word) : Word :=
  match sfSrc m x with
  | .nan => rneF32 .nan
  | .inf s => rneF32 (.fin s 1 0)
  | .fin s mm e =>
    if mm = 0 then rneF32 (.fin s 0 0)
    else sfOut (near (tanhV s mm e) (twoUlp (tanhV s mm e)) (Config.tanh (sfBits m x)))

/-! ## Conversions (R128, R129, R132) -/

/-- Conversion to a slot's element code (R132): rounding with unbounded exponent, then the table of special and
overflowing inputs. -/
def convertElem (code : Nat) (r : Rnd) (sat : Bool) (v : FV) : Nat :=
  let ieee (f : Fmt) : Nat :=
    match v with
    | .nan => nanBits f
    | .inf s => signBit f s + (if sat then infBits f - 1 else infBits f)
    | .fin s m e =>
      let x := roundMag f r s m e
      signBit f s + (if infBits f ≤ x then (if sat then infBits f - 1 else infBits f) else x)
  let int (n : Nat) : Nat :=
    match v with
    | .nan => 0
    | .inf s => if s then 2 ^ (n - 1) else 2 ^ (n - 1) - 1
    | _ =>
      let t := (toIntV r v).getD 0
      (max (-(2 ^ (n - 1) : Int)) (min (2 ^ (n - 1) - 1) t) % 2 ^ n).toNat
  match code with
  | 0 => ieee fF16
  | 1 => ieee fBF16
  | 2 =>
    (match v with
     | .nan => 0x80
     | .inf s => if sat then (if s then 0xFF else 0x7F) else 0x80
     | .fin s m e =>
       let x := roundMag fE4M3 r s m e
       if 0x7F < x then (if sat then (if s then 0xFF else 0x7F) else 0x80)
       else if x = 0 then 0 else signBit fE4M3 s + x)
  | 3 => ieee fE5M2
  | 4 =>
    (match v with
     | .nan => 0
     | .inf s => if s then 0xF else 0x7
     | .fin s m e =>
       let x := roundMag fE2M1 r s m e
       signBit fE2M1 s + (if 7 < x then 7 else x))
  | 5 => int 8
  | 6 => int 4
  | _ => ieee fF32

/-- Clamp an exact integer to an integer type code of CVT (3 i32, 4 n32, 5 i16, 6 n16) and place it in a register. -/
def clampTo (ty : Nat) (t : Int) : Word :=
  match ty with
  | 3 => BitVec.ofInt 32 (max (-2147483648) (min 2147483647 t))
  | 4 => BitVec.ofInt 32 (max 0 (min 4294967295 t))
  | 5 => BitVec.ofInt 32 (max (-32768) (min 32767 t))
  | _ => BitVec.ofInt 32 (max 0 (min 65535 t))

/-- The integer of a register read as an integer type code. -/
def intOf (ty : Nat) (x : Word) : Int :=
  match ty with
  | 3 => x.toInt
  | 4 => x.toNat
  | 5 => (x.setWidth 16).toInt
  | _ => (x.setWidth 16).toNat

/-- The float format of a CVT type code. -/
def cvtFmt (ty : Nat) : Fmt := if ty = 0 then fF32 else if ty = 1 then fF16 else fBF16

/-- CVT (R128): destination and source type codes, rounding code 0 FMODE, 1 RNE, 2 RZ, 3 RU, 4 RD. -/
def cvt (m : Word) (dst srcT rc : Nat) (x : Word) : Word :=
  let r := if rc = 0 then fmodeRnd m else rndOf (rc - 1)
  let ftz := fmodeFtz m
  let bits := if srcT = 0 then x.toNat else x.toNat % 65536
  if srcT < 3 then
    let v := src (cvtFmt srcT) ftz bits
    if dst < 3 then BitVec.ofNat 32 (res (cvtFmt dst) r ftz v)
    else
      match v with
      | .nan => 0
      | .inf s => clampTo dst (if s then -4294967296 else 4294967296)
      | _ => clampTo dst ((toIntV r v).getD 0)
  else
    let t := intOf srcT x
    if dst < 3 then BitVec.ofNat 32 (res (cvtFmt dst) r ftz (.fin (decide (t < 0)) t.natAbs 0))
    else clampTo dst t

/-! ## Image, Hadamard, dot products (R133, R136, R137) -/

/-- MonoImage on a pattern of w bits (R137). -/
def mono (w : Nat) (x : Nat) : Nat :=
  let y := x % 2 ^ w
  if y < 2 ^ (w - 1) then y + 2 ^ (w - 1) else 2 ^ w - 1 - y
/-- Its inverse (R137). -/
def monoInv (w : Nat) (x : Nat) : Nat :=
  let y := x % 2 ^ w
  if 2 ^ (w - 1) ≤ y then y - 2 ^ (w - 1) else 2 ^ w - 1 - y

/-- One butterfly stage of R133 over a block: element i of the result. -/
def hadStage (s : Nat) (l : List Word) : List Word :=
  (List.range l.length).map fun i =>
    if i / 2 ^ s % 2 = 0 then addF32rne (l.getD i 0) (l.getD (i + 2 ^ s) 0)
    else rneF32 (addV .rne (vF32 (l.getD (i - 2 ^ s) 0)) (vF32 (l.getD i 0)).negate)
/-- The stages 0 to n - 1. -/
def hadStages : Nat → List Word → List Word
  | 0, l => l
  | n + 1, l => hadStage n (hadStages n l)
/-- The Hadamard transform of a block of 16 or 64 (R133). -/
def hadamard (l : List Word) : List Word :=
  let k := if l.length = 16 then 4 else 6
  (hadStages k l).map fun x => rneF32 (scaleV (vF32 x) (if l.length = 16 then -2 else -3))

/-- The sum of R136 with a floating accumulator: infinities and NaN as stated, rounded once by FMODE. -/
def dotF (m : Word) (acc : FV) (ps : List FV) : Word :=
  let ftz := fmodeFtz m
  let r := fmodeRnd m
  let s := exactSum (acc :: ps)
  let s := match s with
    | .fin _ 0 _ =>
      let all := acc :: ps
      if all.all fun v => v == .fin true 0 0 || (v.isZero && v.neg?) then FV.fin true 0 0
      else if all.all fun v => v.isZero && !v.neg? then .fin false 0 0
      else .fin (r = .rd) 0 0
    | v => v
  BitVec.ofNat 32 (res fF32 r ftz s)

/-- Element i of n bits of a word. -/
def sub (n : Nat) (x : Word) (i : Nat) : Nat := bitsAt x.toNat (n * i) n

/-- A two's-complement field of n bits as an integer. -/
def intElem (n x : Nat) : Int := if 2 ^ (n - 1) ≤ x then (x : Int) - 2 ^ n else x

/-- The exact sum of the products of k integer elements (R136). -/
def dotSum (code k : Nat) (a b : Word) : Int :=
  let n := elemBits code
  ((List.range k).map fun i => intElem n (sub n a i) * intElem n (sub n b i)).sum

/-- A dot product of k integer elements into an integer accumulator (R136). -/
def dotI (code k : Nat) (acc a b : Word) : Word := BitVec.ofInt 32 (acc.toNat + dotSum code k a b)

/-- A dot product of k integer elements into an f32 accumulator: their exact sum, an integer, is one addend (R136). -/
def dotQ (m : Word) (code k : Nat) (acc a b : Word) : Word :=
  let t := dotSum code k a b
  dotF m (src fF32 (fmodeFtz m) acc.toNat) [.fin (decide (t < 0)) t.natAbs 0]

/-- A dot product of k floating elements into an f32 accumulator; half elements are flushed under FTZ. -/
def dotE (m : Word) (code k : Nat) (acc a b : Word) : Word :=
  let n := elemBits code
  let ftz := fmodeFtz m
  let rd (x : Nat) : FV := if code = 0 then src fF16 ftz x else if code = 1 then src fBF16 ftz x else valElem code x
  dotF m (src fF32 ftz acc.toNat) ((List.range k).map fun i => mulV (rd (sub n a i)) (rd (sub n b i)))

end Sys2Proof.Machine
end

