-- ==== Sys2Proof/Machine/Operands.lean ====
section
/-! DEFINITION. Operand forms: the context of an issuing fragment, the B operand and the immediates with their prefix
(R65, R76), memory addresses and their checks (R139), branch targets (R59), the special registers (R29–R36). -/
namespace Sys2Proof.Machine
open Sys2Proof

/-- The issuing fragment and what it belongs to. `len` is 4, or 8 behind a prefix (R66); `limm` the value of a LIMM;
`sw` the switch marker; `rep` the repeat of a REP. -/
structure Ctx where
  key  : Key
  who  : Who
  i    : Nat
  f    : Frag
  p    : Party
  b    : Block
  l    : Launch
  cl   : Nat
  len  : Nat
  limm : Option Word
  sw   : Bool
  rep  : Nat := 0

/-- The context of a fragment of a resident block. -/
def ctxAt (s : State) (k : Key) (who : Who) (i : Nat) : Option Ctx :=
  match s.block? k with
  | none => none
  | some b =>
    match b.party? who, s.launch? k.part k.grid, b.place with
    | some p, some l, .resident c =>
      match p.frags[i]? with
      | some f =>
        some
          { key := k, who := who, i := i, f := f, p := p, b := b, l := l, cl := c, len := 4, limm := none, sw := false }
      | none => none
    | _, _, _ => none

/-- The context of the turn. -/
def ctx? (s : State) : Option Ctx :=
  match s.turn with
  | .frag k who i => ctxAt s k who i
  | _ => none

/-- The context of a fragment named by a lane. -/
def ctxOf (s : State) (r : FragRef) : Option Ctx :=
  match (s.party? r.key r.who).bind fun p => p.fragOf r.lane with
  | some i => ctxAt s r.key r.who i
  | none => none

/-- The group width of cross-lane instructions (R46, R107). -/
def Ctx.group (c : Ctx) : Nat := if c.l.lr.c16 then 16 else c.l.lr.width
/-- The name of the issuing fragment. -/
def Ctx.ref (c : Ctx) : FragRef := { key := c.key, who := c.who, lane := lowLane c.f.lanes }
/-- The code that entered the handler, for an access its fragment issues (R253). -/
def Ctx.dbl (c : Ctx) : Option Nat := if c.f.handler then c.p.trap.map fun t => t.code else none
/-- The lanes in which an instruction guarded by predicate g takes effect (R74). -/
def Ctx.effLanes (c : Ctx) (g : Nat) : Lanes := c.f.lanes &&& c.p.predLanes g

/-- Sign extension of an immediate to a word. -/
def sext {n : Nat} (i : BitVec n) : Word := i.signExtend 32
/-- The immediate of an LI or UI word: IMM10 sign-extended, or the LIMM value (R65). -/
def Ctx.imm {n : Nat} (c : Ctx) (i : BitVec n) : Word := c.limm.getD (sext i)
/-- The B operand of an L3 word in a lane (R76). -/
def Ctx.opB (c : Ctx) (b : Nat) (u : Bool) (L : Nat) : Word :=
  match c.limm with
  | some x => x
  | none => if u then c.p.getS b else c.p.getV b L
/-- The registers the B operand of an L3 word reads. -/
def Ctx.useB (c : Ctx) (b : Nat) (u : Bool) : RegSet :=
  if c.limm.isSome then RegSet.none else if u then RegSet.ss b 1 else RegSet.vs b 1
/-- The B operand of a U3 word (R92). -/
def Ctx.opSB (c : Ctx) (b : Nat) : Word := c.limm.getD (c.p.getS b)
/-- The registers the B operand of a U3 word reads. -/
def Ctx.useSB (c : Ctx) (b : Nat) : RegSet := if c.limm.isSome then RegSet.none else RegSet.ss b 1
/-- The byte offset a LIMM adds to an address (R65, R139). -/
def Ctx.off (c : Ctx) : DWord :=
  match c.limm with
  | some x => x.signExtend 64
  | none => 0

/-- A PC-relative target (R59): the fetch block of the branch plus the offset in blocks, as an integer. -/
def targetInt (pc : Addr) {n : Nat} (off : BitVec n) : Int := (pc.toNat / 64 * 64 : Nat) + off.toInt * 64
/-- Does the target lie inside the 55-bit space (R59)? -/
def targetOk (t : Int) : Bool := decide (0 ≤ t) && decide (t < 2 ^ 55)
/-- The target as a PC. -/
def targetPc (t : Int) : Addr := BitVec.ofInt 55 t

/-! ## Addresses (R139) -/

/-- The global address of a constant-segment offset (R139, R365). -/
def constVa (c : Ctx) (a : DWord) : Nat := (c.l.lr.caddr + a.toNat) % 2 ^ 64

/-- The virtual address of an access that a fault record shows (R321): of a constant-segment offset the address it stands for. -/
def accVa (c : Ctx) (sp : Space) (a : DWord) : DWord := if sp = .const then BitVec.ofNat 64 (constVa c a) else a

/-- The checks of R139 that precede translation, for an access of n bytes (aligned to n). -/
def addrCheck (c : Ctx) (sp : Space) (a : DWord) (n : Nat) : Option Flt :=
  match sp with
  | .global =>
    if 2 ^ 55 ≤ a.toNat then some { flt cPAGE with addr := a }
    else if a.toNat % n != 0 then some (flt cMISALN) else none
  | .scratch =>
    if a.toNat % n != 0 then some (flt cMISALN)
    else if c.b.scrSize < a.toNat + n then some { flt cPROT with addr := a } else none
  | .const =>
    if a.toNat % n != 0 then some (flt cMISALN)
    else if c.l.lr.csize < a.toNat + n then some { flt cPROT with addr := accVa c sp a } else none

/-- Check one address and translate it when its space needs it: the physical address, or none for scratchpad. -/
def resolve (c : Ctx) (s : State) (sp : Space) (a : DWord) (n : Nat) (r w : Bool) : State × Except Flt (Option Nat) :=
  match addrCheck c sp a n with
  | some f => (s, .error f)
  | none =>
    match sp with
    | .scratch => (s, .ok none)
    | .global =>
      let (s, e) := translate s c.cl c.key.part c.l.lr.asid a.toNat r w false
      (s, e.map some)
    | .const =>
      let (s, e) := translate s c.cl c.key.part c.l.lr.asid (constVa c a) r w false
      (s, e.map some)

/-! ## Meters (R238, R239) -/

/-- CYC in cycles. -/
def Cluster.cycles (c : Cluster) : Nat := c.cyc / 10
/-- spentT of a record on a cluster. -/
def spentT (cl : Cluster) (r : CallRec) : Word := sat32 (r.tacc + (cl.cycles - r.cyc0))
/-- spentE of a record on a cluster. -/
def spentE (cl : Cluster) (r : CallRec) : Word :=
  sat32 (r.eacc + (cl.em - r.em0).toNat * r.fs / max 1 (cl.is - r.is0))
/-- The issue slots of a party: a 64-wide warp counts 2 (R238). -/
def Ctx.slots (c : Ctx) : Nat := if c.who != .mcc && c.l.lr.width == 64 then 2 else 1

/-- Time and energy of a record that an active lane holds, as the issuing instruction sees them: its own issue counts. -/
def Ctx.spent (c : Ctx) (s : State) (r : CallRec) : Word × Word :=
  let cl := s.cluster c.cl
  let cl := { cl with is := cl.is + c.slots }
  (spentT cl r, spentE cl { r with fs := r.fs + c.slots })
/-- The record on top of a lane's stack (R233). -/
def Party.top (p : Party) (L : Nat) : Option CallRec :=
  match vget p.callIds L [] with
  | [] => none
  | i :: _ => p.calls.find? fun r => r.id = i
/-- Do all lanes of a set have the same record, or none, on top? -/
def Party.topsAgree (p : Party) (m : Lanes) : Bool :=
  (laneList m).all fun L => (vget p.callIds L []).head? == (vget p.callIds (lowLane m) []).head?

/-! ## Special registers (R29–R36) -/

/-- When a lease ends: at its granted or its notified end, whichever comes first (R354). -/
def leaseEnds (l : LeaseState) : Nat := min l.endAt (l.notice.getD l.endAt)

/-- LEASE (R355). -/
def leaseWord (s : State) (p : Nat) : Word :=
  let l := (s.part p).lease
  BitVec.ofNat 32 (l.held.toNat * 2 ^ 31 + (l.held && l.notice.isSome).toNat * 2 ^ 30 + l.pend.isSome.toNat * 2 ^ 29 +
    s.boost.toNat * 2 ^ 28)

/-- PHSW of a partition (R294). -/
def phsw (s : State) (p : Nat) : Bool := (s.part p).schedctl.getLsbD 0

/-- The µs left in the running slice (R29, R313). -/
def qtmLeft (s : State) (p : Nat) : Nat := if phsw s p then ((s.part p).sliceEnd - s.dtime) / 1000 else 0

/-- The value of a special register as the issuing fragment sees it (R29–R35). REGWIN shows the pool count in eight bits: a
count above 255 shows modulo 256 (DESIGN CHOICE, log 85). -/
def srRead (s : State) (c : Ctx) (n : Nat) : DWord :=
  let cl := s.cluster c.cl
  let lr := c.l.lr
  let blk := c.key.blk
  let mcc := c.who = .mcc
  let w (x : Word) : DWord := x.setWidth 64
  let n32 (x : Nat) : DWord := BitVec.ofNat 64 (x % 2 ^ 32)
  match n with
  | 0x00 => BitVec.ofNat 64 cl.cycles
  | 0x01 => BitVec.ofNat 64 s.dtime
  | 0x02 => (match c.who with
    | .warp i => n32 i
    | .mcc => 0xFFFFFFFF)
  | 0x03 => n32 lr.nwarps
  | 0x04 => n32 blk
  | 0x05 => n32 (blk % lr.gx)
  | 0x06 => n32 (blk / lr.gx % lr.gy)
  | 0x07 => n32 (blk / (lr.gx * lr.gy))
  | 0x08 => n32 c.key.grid
  | 0x09 => if lr.gangsz = 0 then 0xFFFFFFFF else n32 (lr.gangOf blk)
  | 0x0A => n32 (lr.gangSize blk)
  | 0x0B => n32 lr.width
  | 0x0C => n32 ((phsw s c.key.part).toNat * 2 + ((s.queue c.l.queue).qsched.getLsbD 28).toNat)
  | 0x0D => n32 (c.b.pool % 256 * 256 + (if mcc then 128 else c.p.win))
  | 0x0E => c.f.prg
  | 0x0F => c.f.prgpc
  | 0x10 => c.f.prgx
  | 0x11 => w c.p.fmode
  | 0x12 => w (leaseWord s c.key.part)
  | 0x13 => n32 (qtmLeft s c.key.part)
  | 0x14 => n32 (c.b.ly.toNat * 2 + c.b.yr.toNat)
  | 0x15 => if mcc then 0 else w c.p.limT
  | 0x16 => if mcc then 0 else w c.p.limE
  | 0x17 => if mcc then 0 else c.p.limQ.setWidth 64
  | 0x18 => (match c.p.top (lowLane c.f.lanes) with
    | some r => if mcc then 0 else w (c.spent s r).1
    | none => 0)
  | 0x19 => (match c.p.top (lowLane c.f.lanes) with
    | some r => if mcc then 0 else w (c.spent s r).2
    | none => 0)
  | 0x1A => w c.b.cslr
  | _ => if 0x20 ≤ n && n < 0x28 then lr.slots.getD (n - 0x20) 0 else 0

/-- The per-lane registers of VSRD (R36). -/
def vsrRead (c : Ctx) (n L : Nat) : Word :=
  let lr := c.l.lr
  let tid := match c.who with
    | .warp i => i * lr.width + L
    | .mcc => 0
  match n with
  | 0 => BitVec.ofNat 32 (if lr.c16 then L % 16 else L)
  | 1 => BitVec.ofNat 32 tid
  | 2 => BitVec.ofNat 32 (tid % lr.dx)
  | 3 => BitVec.ofNat 32 (tid / lr.dx % lr.dy)
  | 4 => BitVec.ofNat 32 (tid / (lr.dx * lr.dy))
  | _ => 0

/-- The format slot fN of the launch (R130). -/
def slotOf (l : Launch) (n : Nat) : DWord := l.lr.slots.getD n 0

end Sys2Proof.Machine
end

