-- ==== Sys2Proof/Machine/Issue.lean ====
section
/-! DEFINITION. How an instruction issues: the checks every word meets in the order of R71, the lanes in which it takes
effect (R74), poison (R75, R325), watchpoints (R341), and what happens to the fragment afterwards: pending set and switch
marker (R60), the PC, lanes that faulted (R142, R318), the issue counts (R238, R239). Every meaning of a Sikai word is a
`Body` run by `issue`, alone or behind a prefix. -/
namespace Sys2Proof.Machine
open Sys2Proof

/-- Where a fragment goes after an instruction. -/
inductive Next where
  /-- The following word. -/
  | seq
  /-- One PC for every lane. -/
  | jump (pc : Addr)
  /-- The fragment splits: lanes and their PCs. -/
  | split (l : List (Lanes × Addr))

/-- What the effect of an instruction comes to. -/
inductive Res where
  /-- Done in the lanes that did not fault. -/
  | done (s : State) (bad : List (Nat × Flt)) (nxt : Next)
  /-- Every active lane faults; nothing has happened. -/
  | whole (f : Flt)
  /-- Every active lane faults; a sector that a read met has been counted and marked (R292). -/
  | faulted (f : Flt) (s : State)
  /-- The fragment stays at the instruction. -/
  | hold (s : State)
  /-- The body has set the fragment's own PC, pending set and wait. -/
  | taken (s : State)

/-- An access a watchpoint may cover (R341). -/
structure Touch where
  lane : Nat
  addr : Nat
  len  : Nat
  rd   : Bool
  wr   : Bool

/-- The effect of a word: the registers it reads and writes (R60), its guard (none: every active lane), whether poisoned
lane sources fault lane by lane (R75) or are the body's own matter (R107), whether the launch makes it illegal (R71, R109,
R134), the grant it needs (R248), the accesses a watchpoint sees, and what it does in the lanes where it takes effect. -/
structure Body where
  reads  : Ctx → RegSet
  writes : Ctx → RegSet
  guard  : Nat := 0
  perLane : Bool := false
  ownPoison : Bool := false
  illop  : Ctx → Bool := fun _ => false
  grant  : Ctx → Bool := fun _ => true
  touch  : State → Ctx → Lanes → List Touch := fun _ _ _ => []
  elem   : Ctx → Nat := fun _ => 0
  run    : Ctx → Lanes → State → Res

/-! ## Checks -/

/-- Does the party run this word (R52, R69)? -/
def runsHere (i : Instr) : Who → Bool
  | .warp _ => i.warpRuns
  | .mcc => i.mccRuns

/-- Does a register set name a lane register outside the window (R23)? -/
def outsideWindow (p : Party) (u : RegSet) : Bool := (u.v >>> p.win) != 0

/-- Lanes of a set in which a source is poisoned (R75, R325). -/
def poisonedLanes (p : Party) (u : RegSet) (m : Lanes) : Lanes :=
  if (p.poisS &&& u.s) != 0 then m
  else m &&& ((List.range 64).foldl (fun acc r => if u.v.getLsbD r then acc ||| vget p.poisV r 0 else acc) 0)

/-- A participant receives POISON when a value it would receive derives from a poisoned element (R107). -/
def poisonBad (m : Lanes) (f : Nat → Bool) : List (Nat × Flt) :=
  ((laneList m).filter f).map fun L => (L, flt cPOISON)

/-- Is a lane register poisoned in a lane? -/
def poisAt (c : Ctx) (r L : Nat) : Bool := (vget c.p.poisV r 0).getLsbD L

/-! ## Debug (R340–R343) -/

/-- ARM of DBGCTL. -/
def dbgArm (s : State) (p : Nat) : Bool := (s.part p).dbgctl.getLsbD 31
/-- WTRAP of DBGCTL. -/
def dbgWtrap (s : State) (p : Nat) : Bool := (s.part p).dbgctl.getLsbD 29

/-- The lowest enabled watchpoint an access hits, those passed over excepted, with the lowest overlapping byte (R341,
R343, R344). -/
def watchUnit (s : State) (p : Nat) (passed : Nat → Bool) (t : Touch) : Option (Nat × Nat) :=
  let q := s.part p
  (List.range 8).findSome? fun n =>
    let va := (q.wpa.getD n 0).toNat % 2 ^ 55
    let wl := (q.wpl.getD n 0).toNat
    let len := wl % 2 ^ 30
    let kind := wl / 2 ^ 30
    let ok := (t.rd && (kind == 0 || kind == 2)) || (t.wr && (kind == 1 || kind == 2))
    if q.dbgctl.getLsbD n && !passed n && ok && decide (va < t.addr + t.len) && decide (t.addr < va + len) then
      some (n, max va t.addr)
    else none

/-- The watch hit of an instruction, when debug makes one: unit and byte address. A unit that is passed over makes none
(R344). -/
def watchHit (s : State) (p : Nat) (r : FragRef) (ts : List Touch) : Option (Nat × Nat) :=
  if dbgArm s p || dbgWtrap s p then ts.findSome? fun t => watchUnit s p (fun n => s.pass.any fun e => e.1 = r && e.2.1 && e.2.2 = n) t
  else none

/-- Is a charge one of a fragment's macro, not of an engine's operation? -/
def Charger.ofFrag : Charger → Bool
  | .chan _ _ => false
  | .coll _ _ => false
  | _ => true

/-- A fragment of a cluster that freezes: a macro that waits to start an element stops there, and issues again after the thaw
(R342). -/
def Frag.stopped (f : Frag) : Frag :=
  match f.wait with
  | .charge _ => { f with wait := .run }
  | .array _ => { f with wait := .run }
  | _ => f

/-- Freeze a cluster (R342): the charges of its macros leave the FIFO (R359), and one that waits for a charge leaves the
selection engine (R337). -/
def freezeCluster (s : State) (cl : Nat) : State :=
  let waits (r : FragRef) : Bool := match (s.party? r.key r.who).bind fun p => (p.fragOf r.lane).bind fun i => p.frags[i]? with
    | some f => (match f.wait with
      | .charge _ => true
      | _ => false)
    | none => false
  let s := s.modCluster cl fun c =>
    { c with frozen := true, charges := c.charges.filter fun x => !x.who.ofFrag,
             selOwner := if c.selOwner.any waits then none else c.selOwner }
  { s with blocks := s.blocks.map fun b => if b.place = .resident cl then b.mapFrags Frag.stopped else b }

/-- A report joins the freeze of its cluster, or begins one (R344). -/
def joinFreeze (seq : Word) (cl : Nat) : List Freeze → List Freeze
  | [] => [{ seqs := [seq], clusters := [cl] }]
  | f :: r => if f.clusters.contains cl then { f with seqs := f.seqs ++ [seq] } :: r else f :: joinFreeze seq cl r

/-- Freeze the cluster of a party and write its stop report (R342, R343). `src` is 0 BRK (which has executed), 1
breakpoint, 2 watchpoint. -/
def stopParty (s : State) (l : Launch) (k : Key) (who : Who) (i : Nat) (f : Frag) (cl code elem addr n src unit : Nat) :
    State :=
  let s := if src = 0 then s else s.modFrag k who i fun f => { f with wait := .stopped }
  let s := freezeCluster s cl
  let seq := (s.part k.part).nextSeq
  let s := s.modPart k.part fun q => { q with dbgctl := q.dbgctl ||| 0x10000000, freezes := joinFreeze seq cl q.freezes }
  addRecord s k.part fun seq =>
    { partyRecord s l k who f.lanes { flt code with elem := BitVec.ofNat 32 elem } f.pc false false false 0
        (.stop k who f.lanes unit (src == 2)) seq with
      addr := BitVec.ofNat 64 addr, ticket := BitVec.ofNat 32 (n * 65536 + src * 2048 + unit * 256) }

/-! ## After the effect -/

/-- The pipes an issue takes: both of its pair for a 64-wide warp (R309, R310), 4 for the MCC. -/
def Ctx.pipes (c : Ctx) : List Nat :=
  if c.who = .mcc then [4] else if c.slots = 2 then [c.p.pipe / 2 * 2, c.p.pipe / 2 * 2 + 1] else [c.p.pipe]

/-- Count an issue: IS of the cluster, FS of every record an active lane holds (R239), the block's issues (R349), the
warp's last issue (R310), what each pipe issued (R346). An instruction that faults as a whole, or is held, takes no slot
(DESIGN CHOICE, log 86). -/
def account (c : Ctx) (s : State) : State :=
  let n := c.slots
  let s := s.modCluster c.cl fun cl =>
    { cl with is := cl.is + n,
              lastRun := (c.pipes.map fun n => (n, c.ref, c.f.pc, c.f.lanes)) ++ cl.lastRun.filter fun e => !c.pipes.contains e.1 }
  let t := (s.cluster c.cl).is
  let held := (laneList c.f.lanes).flatMap fun L => vget c.p.callIds L []
  let s := s.modBlock c.key fun b => { b with issues := b.issues + n }
  s.modParty c.key c.who fun p =>
    { p with lastIssue := t, issues := p.issues + 1,
             calls := p.calls.map fun r => if held.contains r.id then { r with fs := r.fs + n } else r }

/-- A fragment after a switch marker (R60): it parks while results are outstanding, else its pending set is empty. -/
def atMarker (s : State) (k : Key) (who : Who) (f : Frag) : Frag :=
  if resultsOut s k who f then { f with wait := .switch } else { f with pend := RegSet.none }

/-- The fragment after an instruction that wrote `wr`: registers enter the pending set, the PC moves, a switch marker
parks. -/
def advance (s : State) (c : Ctx) (sw : Bool) (wr : RegSet) (lanes : Lanes) (pc : Addr) (f : Frag) : Frag :=
  let g := { f with lanes := lanes, pc := pc, pend := f.pend.or wr, out := f.out.or wr, wait := .run }
  if sw then atMarker s c.key c.who g else g

/-- Move the lanes that did not fault. -/
def moveOn (c : Ctx) (sw : Bool) (wr : RegSet) (nxt : Next) (s : State) : State :=
  match (s.party? c.key c.who).bind fun p => p.frags[c.i]? with
  | none => s
  | some f =>
    match nxt with
    | .seq =>
      s.modFrag c.key c.who c.i fun _ => advance s c sw wr f.lanes (c.f.pc + BitVec.ofNat 55 c.len) f
    | .jump pc => s.modFrag c.key c.who c.i fun _ => advance s c sw wr f.lanes pc f
    | .split ls =>
      match (ls.map fun e => (e.1 &&& f.lanes, e.2)).filter fun e => e.1 != 0 with
      | [] => s
      | (m, pc) :: r =>
        s.modParty c.key c.who fun p =>
          { p with frags := lmod p.frags c.i (fun _ => advance s c sw wr m pc f) ++
              r.map fun e => advance s c sw wr e.1 e.2 f }

/-- The end of an instruction: the issue is counted, lanes that faulted are parked, the others move on. -/
def finish (c : Ctx) (sw : Bool) (wr : RegSet) (bad : List (Nat × Flt)) (nxt : Next) (s : State) : State :=
  let s := account c s
  let badL := bad.foldl (fun m e => m ||| laneBit e.1) (0 : Lanes)
  let s := if bad.isEmpty then s else raise s c.key c.who c.i (groupFaults bad) 0 (c.len == 8) c.f.pc
  if !bad.isEmpty && c.f.lanes &&& ~~~badL == 0 then s else moveOn c sw wr nxt s

/-- A fault of the whole fragment (R71): every active lane is parked at the instruction. -/
def raiseAll (c : Ctx) (f : Flt) (s : State) : State :=
  raise s c.key c.who c.i [(c.f.lanes, f)] 0 (c.len == 8) c.f.pc

/-- Lanes of an instruction fault, in a REP at its repeat (R64). -/
def raiseLanes (c : Ctx) (bad : List (Nat × Flt)) (s : State) : State :=
  let at_ (f : Flt) : Flt := if c.rep = 0 then f else { f with elem := BitVec.ofNat 32 c.rep }
  if bad.isEmpty then s
  else raise s c.key c.who c.i (groupFaults (bad.map fun e => (e.1, at_ e.2))) 0 (c.len == 8) c.f.pc

/-- Forget that a debug hit is to be passed over, once the fragment has issued: an instruction that is held has not (R344). -/
def clearPass (c : Ctx) (s : State) : State :=
  if s.pass.isEmpty then s else { s with pass := s.pass.filter fun e => !(e.1 = c.ref) }

/-- A fault of a whole instruction names the element at which a macro re-issues: PRG.ELEM, as R336 has it, for ENGDESC too, where R195
speaks of element 0 (DESIGN CHOICE, log 116). -/
def Body.mark (b : Body) (c : Ctx) (f : Flt) : Flt :=
  if f.elem == 0 then { f with elem := BitVec.ofNat 32 (b.elem c) } else f

/-- Run a body whose word stands: poison, then the effect, then the end of the instruction. -/
def runBody (c : Ctx) (sw : Bool) (b : Body) (s : State) : State :=
  let eff := if b.perLane then c.effLanes b.guard else c.f.lanes
  let pois := if b.ownPoison then 0 else poisonedLanes c.p (b.reads c) eff
  if !b.perLane && pois != 0 then raiseAll c (b.mark c (flt cPOISON)) (clearPass c s)
  else
    match b.run c (eff &&& ~~~pois) s with
    | .done t bad nxt =>
      finish c sw (b.writes c) (((laneList pois).map fun L => (L, flt cPOISON)) ++ bad) nxt (clearPass c t)
    | .whole f => raiseAll c (b.mark c f) (clearPass c s)
    | .faulted f t => raiseAll c (b.mark c f) (clearPass c t)
    | .hold t => t
    | .taken t => account c (clearPass c t)

/-- Issue a word in a context (R71): ILLOP, PRIV, REGWIN, HAZARD, then a watch hit, then the instruction itself. -/
def issueAt (c : Ctx) (i : Instr) (sw : Bool) (b : Body) (s : State) : State :=
  let c := { c with sw := sw }
  let names := (b.reads c).or (b.writes c)
  if !(i.wf && runsHere i c.who) || b.illop c then raiseAll c (b.mark c (flt cILLOP)) s
  else if !b.grant c then raiseAll c (b.mark c (flt cPRIV)) s
  else if outsideWindow c.p names then raiseAll c (b.mark c (flt cREGWIN)) s
  else if (names.or (RegSet.pr b.guard)).meets c.f.pend then raiseAll c (b.mark c (flt cHAZARD)) s
  else
    match watchHit s c.key.part c.ref (b.touch s c (if b.perLane then c.effLanes b.guard else c.f.lanes)) with
    | some (u, a) =>
      if dbgArm s c.key.part then stopParty s c.l c.key c.who c.i c.f c.cl cWATCH (b.elem c) a 0 2 u
      else raiseAll c { fltAt cWATCH (b.elem c) with addr := BitVec.ofNat 64 a } s
    | none => runBody c sw b s

/-- Issue a word for the fragment of the turn. -/
def issue (i : Instr) (sw : BitVec 1) (b : Body) (s : State) : Host.Outcome State Fault Refusal :=
  match ctx? s with
  | none => .fault .noIssuer
  | some c => .next (issueAt c i (sw == 1) b s)

/-! ## Waiting for results (R61) -/

/-- Set the issuing fragment. -/
def Ctx.setFrag (c : Ctx) (s : State) (f : Frag → Frag) : State := s.modFrag c.key c.who c.i f
/-- The fragment is held at the instruction (R61, R273). -/
def Ctx.hold (c : Ctx) (h : Hold) (s : State) : Res := .hold (c.setFrag s fun f => { f with wait := .hold h })

/-- For the instructions that wait for every outstanding result of their fragment and act as with S = 1. -/
def waitResults (c : Ctx) (s : State) (k : State → Res) : Res :=
  if resultsOut s c.key c.who c.f then c.hold .results s else k s

/-- Change the issuing party. -/
def Ctx.modP (c : Ctx) (s : State) (f : Party → Party) : State := s.modParty c.key c.who f
/-- Change the block. -/
def Ctx.modB (c : Ctx) (s : State) (f : Block → Block) : State := s.modBlock c.key f
/-- The following PC. -/
def Ctx.pcNext (c : Ctx) : Addr := c.f.pc + BitVec.ofNat 55 c.len
/-- The fragment goes on behind the instruction with an empty pending set (R61). -/
def Ctx.passOn (c : Ctx) (s : State) : State :=
  c.setFrag s fun f => { f with pc := c.pcNext, pend := RegSet.none, wait := .run }
/-- The fragment waits behind the instruction with an empty pending set. -/
def Ctx.waitNext (c : Ctx) (s : State) (w : Wait) : State :=
  c.setFrag s fun f => { f with pc := c.pcNext, pend := RegSet.none, wait := w }
/-- The fragment waits at the instruction. -/
def Ctx.waitHere (c : Ctx) (s : State) (w : Wait) : State := c.setFrag s fun f => { f with wait := w }

end Sys2Proof.Machine
end

