-- ==== Sys2Proof/Machine/Tiles.lean ====
section
/-! DEFINITION. Tile states (R173, R174) and accumulators (R176, R178) as operations on a block. -/
namespace Sys2Proof.Machine
open Sys2Proof

/-- A tile at block start (R171): EMPTY, zero contents, zero record, fill count 0. -/
def Tile.start : Tile :=
  { data := [], st := .empty, count := 0, w0 := 0, w1 := 0, w2 := 0, w3 := 0, readers := 0, rel := false, pois := [] }

/-- Tile t of a block. -/
def Block.tile (b : Block) (t : Nat) : Tile := b.tiles.getD t Tile.start
/-- Change tile t. -/
def Block.modTile (b : Block) (t : Nat) (f : Tile → Tile) : Block := { b with tiles := lmod b.tiles t f }

/-- FILLW of a tile's record (R171). -/
def Tile.fillw (t : Tile) : Nat := t.w3.toNat % 8192

/-- Bytes per row of a CPA. -/
def cpaRB (w : List Word) : Nat := (w.getD 3 0).toNat
/-- Tile of a `.tl` CPA. -/
def cpaTile (w : List Word) : Nat := (w.getD 2 0).toNat / 4096 % 8
/-- Words that a copy's row under way will have counted at a tile when it ends: it reached the tile at its start, before what comes
while it is written (R173, R207, R208, log 98). -/
def tileComing (b : Block) (t : Nat) : Nat :=
  ((b.ops.filter fun o => decide (o.ch < 8) && o.f = 2 && o.word != 0 && cpaTile o.words = t).map fun o => cpaRB o.words / 4).sum

/-- One more reader (R173). -/
def tileRead (t : Tile) : Tile := { t with st := .busy, readers := t.readers + 1 }
/-- One reader less: the last leaves the tile EMPTY when a release is pending, FULL otherwise (R173). The end of a macro that
software's PRG resumed, and that is no reader of a tile that is not BUSY, leaves the tile so too (DESIGN CHOICE, log 94). -/
def tileDrop (t : Tile) : Tile :=
  if t.readers ≤ 1 then { t with readers := 0, st := if t.rel then .empty else .full, rel := false,
                                 count := if t.rel then 0 else t.count }
  else { t with readers := t.readers - 1 }
/-- TREL at a tile (R173, R181): none when it raises TILESTATE. -/
def tileRelease (t : Tile) : Option Tile :=
  match t.st with
  | .empty => some t
  | .filling => none
  | .loading => none
  | .full => some { t with st := .empty, count := 0 }
  | .busy => some { t with rel := true }

/-- The distinct tiles of a list (R174: a tile named twice counts one reader). -/
def distinct : List Nat → List Nat
  | [] => []
  | a :: r => if r.contains a then distinct r else a :: distinct r

/-- Drop one reader of each distinct tile of a list. -/
def Block.dropReaders (b : Block) (l : List Nat) : Block := (distinct l).foldl (fun b t => b.modTile t tileDrop) b
/-- Drop the readers of the MCC's stopped macro, or of its handler's, as when V is cleared or another macro overwrites PRG
(R174). -/
def Block.dropMacro (b : Block) (handler : Bool) : Block :=
  (b.mmac.filter fun m => m.handler == handler).foldl (fun b m => b.dropReaders m.tiles)
    { b with mmac := b.mmac.filter fun m => m.handler != handler }
/-- Is a macro of the MCC, or of its handler, a reader of tiles? -/
def Block.macroReads (b : Block) (handler : Bool) : Bool := b.mmac.any fun m => m.handler == handler

/-- The effect on readers of a software write to PRG: V = 0 in the MCC drops them (R174). -/
def dropReader (s : State) (c : Ctx) (x : DWord) : State :=
  if c.who = .mcc && !prgV x then c.modB s fun b => b.dropMacro c.f.handler else s

/-- Is a scratchpad range poisoned (R324)? -/
def scrPoisoned (b : Block) (a n : Nat) : Bool := b.scrPois.any fun w => decide (4 * w < a + n) && decide (a < 4 * w + 4)

/-- Is accumulator a held by the block (R176)? -/
def Block.held (b : Block) (a : Nat) : Bool := tabHas b.accs a
/-- Accumulator a. -/
def Block.acc (b : Block) (a : Nat) : Accum := tabGet { data := [], pois := [] } b.accs a
/-- Change accumulator a. -/
def Block.modAcc (b : Block) (a : Nat) (f : Accum → Accum) : Block := { b with accs := tabSet b.accs a (f (b.acc a)) }
/-- Does array work write accumulator a? -/
def Flight.writes (f : Flight) (a : Nat) : Bool :=
  match f with
  | .group x _ _ _ _ _ _ => x == a
  | .zero x => x == a
  | .scale x _ => x == a
  | .reduce _ _ d _ => d == a
  | .reduced _ d _ => d == a
/-- Is the MCC dispatching a product into accumulator a? -/
def Block.dispatching (b : Block) (a : Nat) : Bool :=
  match b.mcc with
  | some p => p.frags.any fun f => (match f.wait with
      | .charge m => (m.cls == clMMA || m.cls == clMMAQ) && m.a == a
      | .array m => (m.cls == clMMA || m.cls == clMMAQ) && m.a == a
      | _ => false)
  | none => false
/-- Does accumulator a have an outstanding count above 0 (R178)? -/
def Block.outstanding (b : Block) (a : Nat) : Bool := b.dispatching a || b.flights.any fun f => f.writes a

/-- Element e of an accumulator as an f32 word. -/
def Accum.elem (a : Accum) (e : Nat) : Word := memWord a.data (4 * e)
/-- Write element e. -/
def Accum.put (a : Accum) (e : Nat) (x : Word) : Accum :=
  { data := memWrite a.data (4 * e) (wordBytes x), pois := a.pois.filter fun n => n != e }

end Sys2Proof.Machine
end

