-- ==== Sys2Proof/Machine/Barrier.lean ====
section
/-! DEFINITION. Barrier objects (R154–R161) as operations: arrival, opening, release in waves, and what an EXIT does to
them. BARINIT, BAR, BARA, BARW and GBAR call these. -/
namespace Sys2Proof.Machine
open Sys2Proof

/-- GEN, ARR and EXP of a barrier word (R154). -/
def barGen (w : Word) : Nat := bitsAt w.toNat 24 8
/-- ARR of a barrier word. -/
def barArr (w : Word) : Nat := bitsAt w.toNat 16 6
/-- EXP of a barrier word. -/
def barExp (w : Word) : Nat := bitsAt w.toNat 0 6
/-- A barrier word of three fields. -/
def barWord (gen arr exp : Nat) : Word := BitVec.ofNat 32 (gen % 256 * 2 ^ 24 + arr % 64 * 2 ^ 16 + exp % 64)

/-- Warps of the block that have not exited (R154, R157). -/
def Block.liveWarps (b : Block) : Nat := (b.warps.filter fun p => p.live != 0).length
/-- The live barrier at an address. -/
def Block.bar? (b : Block) (a : Nat) : Option Bar := b.bars.find? fun x => x.addr = a
/-- Change the live barrier at an address. -/
def Block.modBar (b : Block) (a : Nat) (f : Bar → Bar) : Block :=
  { b with bars := b.bars.map fun x => if x.addr = a then f x else x }
/-- Does a range of scratchpad bytes overlap a live barrier word (R160)? -/
def Block.overlapsBar (b : Block) (a n : Nat) : Bool := b.bars.any fun x => decide (x.addr < a + n) && decide (a < x.addr + 4)

/-- Is a wait one of a barrier? -/
def Wait.atBarrier : Wait → Bool
  | .bar _ _ => true
  | .barHeld _ _ => true
  | .gbar _ _ => true
  | .gbarHeld _ _ => true
  | .wave => true
  | _ => false

/-- Set the wait of a party's fragments that stand at a barrier and share lanes with a waiter. -/
def Party.setBarWait (p : Party) (lanes : Lanes) (w : Wait) : Party :=
  { p with frags := p.frags.map fun f => if f.wait.atBarrier && (f.lanes &&& lanes) != 0 then { f with wait := w } else f }

/-- Waiters of a block in release order: those of one party stay together. -/
def sortWaiters (ws : List BarWaiter) : List BarWaiter :=
  (List.range 66).flatMap fun r => ws.filter fun w => whoRank w.who == r

/-- The parties of a list of waiters, in order, each once. -/
def waiterParties (ws : List BarWaiter) : List Who :=
  ws.foldl (fun acc w => if acc.contains w.who then acc else acc ++ [w.who]) []

/-- Release the waiters of one opening in a block (R158): wave 0 at once, wave k after k × GAP vector cycles. -/
def releaseWaves (b : Block) (cyc : Nat) (ws : List BarWaiter) : Block :=
  let ws := sortWaiters ws
  let n := cslrWave b.cslr
  let ps := waiterParties ws
  let place (w : BarWaiter) : Nat := if n = 0 then 0 else ps.idxOf w.who / n
  let now := ws.filter fun w => place w == 0
  let last := if n = 0 then 0 else ps.length / n
  let later : List Wave := ((List.range last).map fun k =>
    { due := cyc + (k + 1) * cslrGap b.cslr * 10, waiters := ws.filter fun w => place w == k + 1 }).filter
      fun w => !w.waiters.isEmpty
  let b := now.foldl (fun b w => b.modParty w.who fun p => p.setBarWait w.lanes .run) b
  let b := later.foldl (fun b w =>
    w.waiters.foldl (fun b x => b.modParty x.who fun p => p.setBarWait x.lanes .wave) b) b
  { b with waves := b.waves ++ later }

/-- The waiters of wave i of a block go on (R158). -/
def releaseWave (b : Block) (i : Nat) : Block :=
  match b.waves[i]? with
  | some w => w.waiters.foldl (fun b x => b.modParty x.who fun p => p.setBarWait x.lanes .run) { b with waves := ldrop b.waves i }
  | none => b

/-- The waves of a block whose time has come go on (fuel: their number). -/
def releaseDue (cyc : Nat) : Nat → Block → Block
  | 0, b => b
  | n + 1, b =>
    match b.waves.findIdx? fun w => decide (w.due ≤ cyc) with
    | some i => releaseDue cyc n (releaseWave b i)
    | none => b

/-- The written CSLR takes effect at an opening (R33, R95). -/
def Block.useCslr (b : Block) : Block :=
  match b.cslrNew with
  | some x => { b with cslr := x, cslrNew := none }
  | none => b

/-- The arrivals of a barrier: ARR of its word, which holds six bits; 64 warps that have arrived show as 0 there (R157). -/
def Bar.count (x : Bar) (w : Word) : Nat := if barArr w = x.arrived.length % 64 then x.arrived.length else barArr w

/-- Open a barrier whose count is reached (R157): ARR = 0, GEN + 1, waiters of the passed generation released. -/
def openBar (b : Block) (cyc : Nat) (a : Nat) : Block :=
  match b.bar? a with
  | none => b
  | some x =>
    let w := memWord b.scr a
    let exp := barExp w
    let need := if exp = 0 then b.liveWarps else exp
    let n := x.count w
    if n = 0 || n < need then b
    else
      let gen := (barGen w + 1) % 256
      let go := x.waiters.filter fun v => v.gen != gen
      let stay := x.waiters.filter fun v => v.gen == gen
      let b := b.useCslr
      let b := { b with scr := memWrite b.scr a (wordBytes (barWord gen 0 exp)) }
      let b := b.modBar a fun x => { x with arrived := [], waiters := stay }
      releaseWaves b cyc go

/-- A party arrives at a word (R156): ARR + 1, and the barrier opens when the count is reached. -/
def arriveBar (b : Block) (cyc : Nat) (a : Nat) (who : Who) : Block :=
  let w := memWord b.scr a
  let b := { b with scr := memWrite b.scr a (wordBytes (barWord (barGen w) (barArr w + 1) (barExp w))) }
  openBar (b.modBar a fun x => { x with arrived := x.arrived ++ [who] }) cyc a

/-! ## Gang barriers (R161) -/

/-- The gang of a block: its own number when launched in gangs, the block alone otherwise. -/
def gangNo (l : Launch) (k : Key) : Nat := if l.lr.gangsz = 0 then k.blk else l.lr.gangOf k.blk

/-- The four barriers of a gang before any arrival. -/
def Gang.start (p g n : Nat) : Gang :=
  { part := p, grid := g, gang := n, bars := List.replicate 4 { gen := 0, arrived := [], waiters := [] } }

/-- The gang record of a block. -/
def State.gang (s : State) (l : Launch) (k : Key) : Gang :=
  (s.gangs.find? fun g => g.part = k.part && g.grid = k.grid && g.gang = gangNo l k).getD
    (Gang.start k.part k.grid (gangNo l k))

/-- Replace the gang record of a block. -/
def State.setGang (s : State) (g : Gang) : State :=
  { s with gangs := (s.gangs.filter fun x => !(x.part = g.part && x.grid = g.grid && x.gang = g.gang)) ++ [g] }

/-- Blocks of the gang of a block. -/
def State.gangBlocks (s : State) (l : Launch) (k : Key) : List Block :=
  s.blocks.filter fun b => b.key.part = k.part && b.key.grid = k.grid && gangNo l b.key = gangNo l k

/-- Expected arrivals: every warp of the gang that has not exited and the MCC of each block whose program has not
ended. -/
def gangNeed (s : State) (l : Launch) (k : Key) : Nat :=
  ((s.gangBlocks l k).map fun b => b.liveWarps + (if b.mcc.isSome && !b.mccEnded then 1 else 0)).sum

/-- Open gang barrier n when its count is reached, releasing per block in waves. -/
def openGang (s : State) (l : Launch) (k : Key) (n : Nat) : State :=
  let g := s.gang l k
  let x := g.bars.getD n { gen := 0, arrived := [], waiters := [] }
  if x.arrived.isEmpty || x.arrived.length < gangNeed s l k then s
  else
    let gen := (x.gen + 1) % 256
    let s := s.setGang { g with bars := lmod g.bars n fun _ => { gen := gen, arrived := [], waiters := [] } }
    (s.gangBlocks l k).foldl (fun s b =>
      let mine := x.waiters.filter fun w => w.key = b.key
      let cyc := match b.cluster? with
        | some c => (s.cluster c).cyc
        | none => 0
      s.modBlock b.key fun b => releaseWaves b.useCslr cyc mine) s

/-- A party arrives at gang barrier n. -/
def arriveGang (s : State) (l : Launch) (k : Key) (who : Who) (n : Nat) : State :=
  let g := s.gang l k
  openGang (s.setGang { g with bars := lmod g.bars n fun x => { x with arrived := x.arrived ++ [(k, who)] } }) l k n

/-! ## Arrival records (R156) and EXIT (R157) -/

/-- The lanes a fragment's arrival adds; none when the record names another barrier (ILLOP). -/
def recordArrival (p : Party) (b : BarName) (lanes : Lanes) : Option Arrival :=
  match p.arrive with
  | none => some { bar := b, lanes := lanes }
  | some a => if a.bar = b then some { a with lanes := a.lanes ||| lanes } else none

/-- A party's record after an arriving fragment: complete (the warp arrives) or still open. -/
def arrivalDone (who : Who) (p : Party) (a : Arrival) : Bool :=
  who = .mcc || (p.live &&& ~~~a.lanes) == 0

/-- Not yet arrived: the generation of a BAR whose warp has not arrived. -/
def genOpen : Nat := 256

/-- When a warp arrives, its fragments that issued BAR become waiters of the generation it arrives in (R155, R156,
R264). -/
def settle (s : State) (l : Launch) (k : Key) (who : Who) (b : BarName) : State :=
  match s.block? k, s.party? k who with
  | some blk, some p =>
    let gen := match b with
      | .blk a => barGen (memWord blk.scr a)
      | .gang n => ((s.gang l k).bars.getD n { gen := 0, arrived := [], waiters := [] }).gen
    let (open_, shut) : Wait × Wait := match b with
      | .blk a => (.bar a genOpen, .bar a gen)
      | .gang n => (.gbar n genOpen, .gbar n gen)
    let ws : List BarWaiter := (p.frags.filter fun f => f.wait = open_).map fun f =>
      { key := k, who := who, lanes := f.lanes, gen := gen }
    let s := s.modParty k who fun p =>
      { p with frags := p.frags.map fun f => if f.wait = open_ then { f with wait := shut } else f }
    (match b with
     | .blk a => s.modBlock k fun blk => blk.modBar a fun x => { x with waiters := x.waiters ++ ws }
     | .gang n =>
       let g := s.gang l k
       s.setGang { g with bars := lmod g.bars n fun x => { x with waiters := x.waiters ++ ws } })
  | _, _ => s

/-- Arrive at the barrier a record names. -/
def arriveNamed (s : State) (l : Launch) (k : Key) (who : Who) (cl : Nat) (b : BarName) : State :=
  let s := settle s l k who b
  let s := s.modParty k who fun p => { p with arrive := none }
  match b with
  | .blk a => let cyc := (s.cluster cl).cyc
              s.modBlock k fun b => arriveBar b cyc a who
  | .gang n => arriveGang s l k who n

/-- Add a waiter to the barrier of a name (a BARW, or an instruction held until the opening). -/
def addWaiter (s : State) (l : Launch) (k : Key) (b : BarName) (w : BarWaiter) : State :=
  match b with
  | .blk a => s.modBlock k fun blk => blk.modBar a fun x => { x with waiters := x.waiters ++ [w] }
  | .gang n =>
    let g := s.gang l k
    s.setGang { g with bars := lmod g.bars n fun x => { x with waiters := x.waiters ++ [w] } }

/-- What an EXIT does to barriers: a record its warp has completed arrives; counts that fell may open a barrier. -/
def exitBarriers (s : State) (l : Launch) (k : Key) (who : Who) (cl : Nat) : State :=
  let s := match s.party? k who with
    | some p =>
      (match p.arrive with
       | some a =>
         if p.live == 0 then s.modParty k who fun p => { p with arrive := none }
         else if arrivalDone who p a then arriveNamed s l k who cl a.bar else s
       | none => s)
    | none => s
  let cyc := (s.cluster cl).cyc
  let s := s.modBlock k fun b => (b.bars.map fun x => x.addr).foldl (fun b a => openBar b cyc a) b
  (List.range 4).foldl (fun s n => openGang s l k n) s

end Sys2Proof.Machine
end

