-- ==== Sys2Proof/Machine/Integer.lean ====
section
/-! DEFINITION. Integer, logic, compare, select, predicate and move instructions of the lanes (R74–R90) and the uniform
integer instructions (R91–R96). -/
namespace Sys2Proof.Machine
open Sys2Proof

/-! ## Shapes -/

/-- An L3 word with one lane result from A and B. -/
def alu (g : BitVec 2) (d a b : BitVec 6) (u : BitVec 1) (f : Word → Word → Word) : Body :=
  { reads := fun c => (RegSet.vs a.toNat 1).or (c.useB b.toNat (u == 1)),
    writes := fun _ => RegSet.vs d.toNat 1, guard := g.toNat, perLane := true,
    run := fun c m s => .done (c.modP s fun p =>
      p.setV d.toNat m fun L => f (c.p.getV a.toNat L) (c.opB b.toNat (u == 1) L)) [] .seq }

/-- An L3 or LI word with one lane result from A alone. -/
def alu1 (g : BitVec 2) (d a : BitVec 6) (f : Word → Word) : Body :=
  { reads := fun _ => RegSet.vs a.toNat 1, writes := fun _ => RegSet.vs d.toNat 1, guard := g.toNat, perLane := true,
    run := fun c m s => .done (c.modP s fun p => p.setV d.toNat m fun L => f (c.p.getV a.toNat L)) [] .seq }

/-- An L4 word: no guard, three lane sources (R74). -/
def alu4 (d a b e : BitVec 6) (f : Ctx → Word → Word → Word → Word) : Body :=
  { reads := fun _ => ((RegSet.vs a.toNat 1).or (RegSet.vs b.toNat 1)).or (RegSet.vs e.toNat 1),
    writes := fun _ => RegSet.vs d.toNat 1, perLane := true,
    run := fun c m s => .done (c.modP s fun p => p.setV d.toNat m fun L =>
      f c (c.p.getV a.toNat L) (c.p.getV b.toNat L) (c.p.getV e.toNat L)) [] .seq }

/-- A U3 word with one uniform result from A and B (R92). -/
def ualu (d a b : BitVec 7) (f : Word → Word → Word) : Body :=
  { reads := fun c => (RegSet.ss a.toNat 1).or (c.useSB b.toNat), writes := fun _ => RegSet.ss d.toNat 1,
    run := fun c _ s => .done (c.modP s fun p => p.setS d.toNat (f (c.p.getS a.toNat) (c.opSB b.toNat))) [] .seq }

/-- A U3 or UI word with one uniform result from A alone. -/
def ualu1 (d a : BitVec 7) (f : Word → Word) : Body :=
  { reads := fun _ => RegSet.ss a.toNat 1, writes := fun _ => RegSet.ss d.toNat 1,
    run := fun c _ s => .done (c.modP s fun p => p.setS d.toNat (f (c.p.getS a.toNat))) [] .seq }

/-! ## Arithmetic (R77) -/

/-- SatI32: an exact integer clamped to i32. -/
def satI32 (t : Int) : Word := if t < -2147483648 then 0x80000000 else if 2147483647 < t then 0x7FFFFFFF else BitVec.ofInt 32 t
/-- SatN32: an exact integer clamped to n32. -/
def satN32 (t : Int) : Word := if t < 0 then 0 else if 4294967295 < t then 0xFFFFFFFF else BitVec.ofInt 32 t
/-- Saturating sum or difference by the type code 1 i32, 2 n32. -/
def satOp (t : Nat) (sub : Bool) (a b : Word) : Word :=
  if t = 1 then satI32 (if sub then a.toInt - b.toInt else a.toInt + b.toInt)
  else satN32 (if sub then (a.toNat : Int) - b.toNat else (a.toNat : Int) + b.toNat)
/-- The high word of a product by the type code 1 i32, 2 n32. -/
def mulHigh (t : Nat) (a b : Word) : Word :=
  if t = 1 then BitVec.ofInt 32 (a.toInt * b.toInt / 4294967296) else BitVec.ofNat 32 (a.toNat * b.toNat / 4294967296)
/-- The lesser by the type code 0 i32, 1 n32. -/
def minOp (t : Nat) (a b : Word) : Word := if relation 2 (t == 1) b a then b else a
/-- The greater by the type code 0 i32, 1 n32. -/
def maxOp (t : Nat) (a b : Word) : Word := if relation 2 (t == 1) a b then b else a
/-- IABS modulo 2^32. -/
def absOp (a : Word) : Word := if a.msb then -a else a
/-- IABS.sat. -/
def absSat (a : Word) : Word := satI32 (if a.toInt < 0 then -a.toInt else a.toInt)

/-- IADD (R77): adds the B operand to vA with wrap-around in each lane that takes effect. -/
def bIadd (g : BitVec 2) (d : BitVec 6) (a : BitVec 6) (b : BitVec 6) (u : BitVec 1) : Body :=
  alu g d a b u fun x y => x + y
/-- The meaning of IADD. -/
def execIadd (s : BitVec 1) (g : BitVec 2) (d : BitVec 6) (a : BitVec 6) (b : BitVec 6) (u : BitVec 1) (st : State) : Host.Outcome State Fault Refusal :=
  issue (.iadd s g d a b u) s (bIadd g d a b u) st

/-- IADD_SAT (R77): adds with signed or unsigned saturation, selected by F. -/
def bIaddSat (g : BitVec 2) (d : BitVec 6) (a : BitVec 6) (b : BitVec 6) (u : BitVec 1) (t : BitVec 2) : Body :=
  alu g d a b u (satOp t.toNat false)
/-- The meaning of IADD_SAT. -/
def execIaddSat (s : BitVec 1) (g : BitVec 2) (d : BitVec 6) (a : BitVec 6) (b : BitVec 6) (u : BitVec 1) (t : BitVec 2) (st : State) : Host.Outcome State Fault Refusal :=
  issue (.iaddSat s g d a b u t) s (bIaddSat g d a b u t) st

/-- ISUB (R77): subtracts the B operand from vA with wrap-around. -/
def bIsub (g : BitVec 2) (d : BitVec 6) (a : BitVec 6) (b : BitVec 6) (u : BitVec 1) : Body :=
  alu g d a b u fun x y => x - y
/-- The meaning of ISUB. -/
def execIsub (s : BitVec 1) (g : BitVec 2) (d : BitVec 6) (a : BitVec 6) (b : BitVec 6) (u : BitVec 1) (st : State) : Host.Outcome State Fault Refusal :=
  issue (.isub s g d a b u) s (bIsub g d a b u) st

/-- ISUB_SAT (R77): subtracts with signed or unsigned saturation. -/
def bIsubSat (g : BitVec 2) (d : BitVec 6) (a : BitVec 6) (b : BitVec 6) (u : BitVec 1) (t : BitVec 2) : Body :=
  alu g d a b u (satOp t.toNat true)
/-- The meaning of ISUB_SAT. -/
def execIsubSat (s : BitVec 1) (g : BitVec 2) (d : BitVec 6) (a : BitVec 6) (b : BitVec 6) (u : BitVec 1) (t : BitVec 2) (st : State) : Host.Outcome State Fault Refusal :=
  issue (.isubSat s g d a b u t) s (bIsubSat g d a b u t) st

/-- IADD_IMM (R77): adds a sign-extended immediate, or the LIMM value, to vA. -/
def bIaddImm (g : BitVec 2) (d : BitVec 6) (a : BitVec 6) (i : BitVec 10) : Body :=
  { alu1 g d a id with
    run := fun c m s => .done (c.modP s fun p => p.setV d.toNat m fun L => c.p.getV a.toNat L + c.imm i) [] .seq }
/-- The meaning of IADD_IMM. -/
def execIaddImm (s : BitVec 1) (g : BitVec 2) (d : BitVec 6) (a : BitVec 6) (i : BitVec 10) (st : State) : Host.Outcome State Fault Refusal :=
  issue (.iaddImm s g d a i) s (bIaddImm g d a i) st

/-- IMUL (R77): writes the low word of the product of vA and B. -/
def bImul (g : BitVec 2) (d : BitVec 6) (a : BitVec 6) (b : BitVec 6) (u : BitVec 1) : Body :=
  alu g d a b u fun x y => x * y
/-- The meaning of IMUL. -/
def execImul (s : BitVec 1) (g : BitVec 2) (d : BitVec 6) (a : BitVec 6) (b : BitVec 6) (u : BitVec 1) (st : State) : Host.Outcome State Fault Refusal :=
  issue (.imul s g d a b u) s (bImul g d a b u) st

/-- IMULH (R77): writes the high word of the signed or unsigned product. -/
def bImulh (g : BitVec 2) (d : BitVec 6) (a : BitVec 6) (b : BitVec 6) (u : BitVec 1) (t : BitVec 2) : Body :=
  alu g d a b u (mulHigh t.toNat)
/-- The meaning of IMULH. -/
def execImulh (s : BitVec 1) (g : BitVec 2) (d : BitVec 6) (a : BitVec 6) (b : BitVec 6) (u : BitVec 1) (t : BitVec 2) (st : State) : Host.Outcome State Fault Refusal :=
  issue (.imulh s g d a b u t) s (bImulh g d a b u t) st

/-- IMAD (R77): writes the low word of vA times vB plus vC in every active lane. -/
def bImad (d : BitVec 6) (a : BitVec 6) (b : BitVec 6) (c : BitVec 6) : Body := alu4 d a b c fun _ x y z => x * y + z
/-- The meaning of IMAD. -/
def execImad (s : BitVec 1) (d : BitVec 6) (a : BitVec 6) (b : BitVec 6) (c : BitVec 6) (st : State) : Host.Outcome State Fault Refusal :=
  issue (.imad s d a b c) s (bImad d a b c) st

/-- IMIN (R77): writes the lesser of vA and B as i32 or n32. -/
def bImin (g : BitVec 2) (d : BitVec 6) (a : BitVec 6) (b : BitVec 6) (u : BitVec 1) (t : BitVec 1) : Body :=
  alu g d a b u (minOp t.toNat)
/-- The meaning of IMIN. -/
def execImin (s : BitVec 1) (g : BitVec 2) (d : BitVec 6) (a : BitVec 6) (b : BitVec 6) (u : BitVec 1) (t : BitVec 1) (st : State) : Host.Outcome State Fault Refusal :=
  issue (.imin s g d a b u t) s (bImin g d a b u t) st

/-- IMAX (R77): writes the greater of vA and B as i32 or n32. -/
def bImax (g : BitVec 2) (d : BitVec 6) (a : BitVec 6) (b : BitVec 6) (u : BitVec 1) (t : BitVec 1) : Body :=
  alu g d a b u (maxOp t.toNat)
/-- The meaning of IMAX. -/
def execImax (s : BitVec 1) (g : BitVec 2) (d : BitVec 6) (a : BitVec 6) (b : BitVec 6) (u : BitVec 1) (t : BitVec 1) (st : State) : Host.Outcome State Fault Refusal :=
  issue (.imax s g d a b u t) s (bImax g d a b u t) st

/-- IABS (R77): writes the absolute value of vA modulo 2^32. -/
def bIabs (g : BitVec 2) (d : BitVec 6) (a : BitVec 6) : Body := alu1 g d a absOp
/-- The meaning of IABS. -/
def execIabs (s : BitVec 1) (g : BitVec 2) (d : BitVec 6) (a : BitVec 6) (st : State) : Host.Outcome State Fault Refusal :=
  issue (.iabs s g d a) s (bIabs g d a) st

/-- IABS_SAT (R77): writes the saturated absolute value of vA. -/
def bIabsSat (g : BitVec 2) (d : BitVec 6) (a : BitVec 6) : Body := alu1 g d a absSat
/-- The meaning of IABS_SAT. -/
def execIabsSat (s : BitVec 1) (g : BitVec 2) (d : BitVec 6) (a : BitVec 6) (st : State) : Host.Outcome State Fault Refusal :=
  issue (.iabsSat s g d a) s (bIabsSat g d a) st


/-! ## RNDH (R84) -/

/-- One round of RNDH. -/
def rndhRound (x k : Word) : Word :=
  let x := (x ^^^ k) * 0x5A3D9E27
  let x := (x ^^^ (x >>> 15)) * 0xC6A4B1D3
  x ^^^ (x >>> 13)
/-- The hash of a counter under a key: four rounds, the key stepped after each. -/
def rndh (x k : Word) : Word :=
  let x := rndhRound x k
  let x := rndhRound x (k + 0x6B43A9B5)
  let x := rndhRound x (k + 0x6B43A9B5 + 0x6B43A9B5)
  rndhRound x (k + 0x6B43A9B5 + 0x6B43A9B5 + 0x6B43A9B5)

/-- RNDH (R84): writes the counter-based hash of counter vA under key B. -/
def bRndh (g : BitVec 2) (d : BitVec 6) (a : BitVec 6) (b : BitVec 6) (u : BitVec 1) : Body := alu g d a b u rndh
/-- The meaning of RNDH. -/
def execRndh (s : BitVec 1) (g : BitVec 2) (d : BitVec 6) (a : BitVec 6) (b : BitVec 6) (u : BitVec 1) (st : State) : Host.Outcome State Fault Refusal :=
  issue (.rndh s g d a b u) s (bRndh g d a b u) st


/-! ## Logic, shifts, fields (R78–R83) -/

/-- AND (R78): bitwise AND of vA and B. -/
def bAndL (g : BitVec 2) (d : BitVec 6) (a : BitVec 6) (b : BitVec 6) (u : BitVec 1) : Body :=
  alu g d a b u fun x y => x &&& y
/-- The meaning of AND. -/
def execAndL (s : BitVec 1) (g : BitVec 2) (d : BitVec 6) (a : BitVec 6) (b : BitVec 6) (u : BitVec 1) (st : State) : Host.Outcome State Fault Refusal :=
  issue (.andL s g d a b u) s (bAndL g d a b u) st

/-- OR (R78): bitwise OR of vA and B. -/
def bOrL (g : BitVec 2) (d : BitVec 6) (a : BitVec 6) (b : BitVec 6) (u : BitVec 1) : Body :=
  alu g d a b u fun x y => x ||| y
/-- The meaning of OR. -/
def execOrL (s : BitVec 1) (g : BitVec 2) (d : BitVec 6) (a : BitVec 6) (b : BitVec 6) (u : BitVec 1) (st : State) : Host.Outcome State Fault Refusal :=
  issue (.orL s g d a b u) s (bOrL g d a b u) st

/-- XOR (R78): bitwise XOR of vA and B. -/
def bXorL (g : BitVec 2) (d : BitVec 6) (a : BitVec 6) (b : BitVec 6) (u : BitVec 1) : Body :=
  alu g d a b u fun x y => x ^^^ y
/-- The meaning of XOR. -/
def execXorL (s : BitVec 1) (g : BitVec 2) (d : BitVec 6) (a : BitVec 6) (b : BitVec 6) (u : BitVec 1) (st : State) : Host.Outcome State Fault Refusal :=
  issue (.xorL s g d a b u) s (bXorL g d a b u) st

/-- ANDN (R78): bitwise vA AND NOT B. -/
def bAndn (g : BitVec 2) (d : BitVec 6) (a : BitVec 6) (b : BitVec 6) (u : BitVec 1) : Body :=
  alu g d a b u fun x y => x &&& ~~~y
/-- The meaning of ANDN. -/
def execAndn (s : BitVec 1) (g : BitVec 2) (d : BitVec 6) (a : BitVec 6) (b : BitVec 6) (u : BitVec 1) (st : State) : Host.Outcome State Fault Refusal :=
  issue (.andn s g d a b u) s (bAndn g d a b u) st


/-- SHL by a whole count (R79). -/
def shlOp (x y : Word) : Word := if 32 ≤ y.toNat then 0 else x <<< y.toNat
/-- SHR by a whole count. -/
def shrOp (x y : Word) : Word := if 32 ≤ y.toNat then 0 else x >>> y.toNat
/-- SAR by a whole count. -/
def sarOp (x y : Word) : Word := x.sshiftRight (min y.toNat 31)
/-- ROL by a count modulo 32. -/
def rolOp (x y : Word) : Word := x.rotateLeft (y.toNat % 32)

/-- SHL (R79): shifts vA left by the whole count N(B). -/
def bShl (g : BitVec 2) (d : BitVec 6) (a : BitVec 6) (b : BitVec 6) (u : BitVec 1) : Body := alu g d a b u shlOp
/-- The meaning of SHL. -/
def execShl (s : BitVec 1) (g : BitVec 2) (d : BitVec 6) (a : BitVec 6) (b : BitVec 6) (u : BitVec 1) (st : State) : Host.Outcome State Fault Refusal :=
  issue (.shl s g d a b u) s (bShl g d a b u) st

/-- SHR (R79): shifts vA right logically by N(B). -/
def bShr (g : BitVec 2) (d : BitVec 6) (a : BitVec 6) (b : BitVec 6) (u : BitVec 1) : Body := alu g d a b u shrOp
/-- The meaning of SHR. -/
def execShr (s : BitVec 1) (g : BitVec 2) (d : BitVec 6) (a : BitVec 6) (b : BitVec 6) (u : BitVec 1) (st : State) : Host.Outcome State Fault Refusal :=
  issue (.shr s g d a b u) s (bShr g d a b u) st

/-- SAR (R79): shifts vA right arithmetically by N(B). -/
def bSar (g : BitVec 2) (d : BitVec 6) (a : BitVec 6) (b : BitVec 6) (u : BitVec 1) : Body := alu g d a b u sarOp
/-- The meaning of SAR. -/
def execSar (s : BitVec 1) (g : BitVec 2) (d : BitVec 6) (a : BitVec 6) (b : BitVec 6) (u : BitVec 1) (st : State) : Host.Outcome State Fault Refusal :=
  issue (.sar s g d a b u) s (bSar g d a b u) st

/-- ROL (R79): rotates vA left by N(B) modulo 32. -/
def bRol (g : BitVec 2) (d : BitVec 6) (a : BitVec 6) (b : BitVec 6) (u : BitVec 1) : Body := alu g d a b u rolOp
/-- The meaning of ROL. -/
def execRol (s : BitVec 1) (g : BitVec 2) (d : BitVec 6) (a : BitVec 6) (b : BitVec 6) (u : BitVec 1) (st : State) : Host.Outcome State Fault Refusal :=
  issue (.rol s g d a b u) s (bRol g d a b u) st

/-- SHL_IMM (R79): shifts vA left by an immediate count 0 to 31. -/
def bShlImm (g : BitVec 2) (d : BitVec 6) (a : BitVec 6) (c : BitVec 5) : Body :=
  alu1 g d a fun x => shlOp x (c.setWidth 32)
/-- The meaning of SHL_IMM. -/
def execShlImm (s : BitVec 1) (g : BitVec 2) (d : BitVec 6) (a : BitVec 6) (c : BitVec 5) (st : State) : Host.Outcome State Fault Refusal :=
  issue (.shlImm s g d a c) s (bShlImm g d a c) st

/-- SHR_IMM (R79): shifts vA right logically by an immediate count. -/
def bShrImm (g : BitVec 2) (d : BitVec 6) (a : BitVec 6) (c : BitVec 5) : Body :=
  alu1 g d a fun x => shrOp x (c.setWidth 32)
/-- The meaning of SHR_IMM. -/
def execShrImm (s : BitVec 1) (g : BitVec 2) (d : BitVec 6) (a : BitVec 6) (c : BitVec 5) (st : State) : Host.Outcome State Fault Refusal :=
  issue (.shrImm s g d a c) s (bShrImm g d a c) st

/-- SAR_IMM (R79): shifts vA right arithmetically by an immediate count. -/
def bSarImm (g : BitVec 2) (d : BitVec 6) (a : BitVec 6) (c : BitVec 5) : Body :=
  alu1 g d a fun x => sarOp x (c.setWidth 32)
/-- The meaning of SAR_IMM. -/
def execSarImm (s : BitVec 1) (g : BitVec 2) (d : BitVec 6) (a : BitVec 6) (c : BitVec 5) (st : State) : Host.Outcome State Fault Refusal :=
  issue (.sarImm s g d a c) s (bSarImm g d a c) st

/-- ROL_IMM (R79): rotates vA left by an immediate count. -/
def bRolImm (g : BitVec 2) (d : BitVec 6) (a : BitVec 6) (c : BitVec 5) : Body :=
  alu1 g d a fun x => rolOp x (c.setWidth 32)
/-- The meaning of ROL_IMM. -/
def execRolImm (s : BitVec 1) (g : BitVec 2) (d : BitVec 6) (a : BitVec 6) (c : BitVec 5) (st : State) : Host.Outcome State Fault Refusal :=
  issue (.rolImm s g d a c) s (bRolImm g d a c) st


/-- The number of one bits (R80). -/
def popc (x : Word) : Word := BitVec.ofNat 32 ((List.range 32).filter fun i => x.getLsbD i).length
/-- Zero bits above the highest one bit, 32 for 0. -/
def clz (x : Word) : Word :=
  BitVec.ofNat 32 (((List.range 32).find? fun i => x.getLsbD (31 - i)).getD 32)
/-- Bit i moved to bit 31 - i. -/
def brev (x : Word) : Word := x.reverse

/-- POPC (R80): counts the one bits of vA. -/
def bPopc (g : BitVec 2) (d : BitVec 6) (a : BitVec 6) : Body := alu1 g d a popc
/-- The meaning of POPC. -/
def execPopc (s : BitVec 1) (g : BitVec 2) (d : BitVec 6) (a : BitVec 6) (st : State) : Host.Outcome State Fault Refusal :=
  issue (.popc s g d a) s (bPopc g d a) st

/-- CLZ (R80): counts the leading zero bits of vA. -/
def bClz (g : BitVec 2) (d : BitVec 6) (a : BitVec 6) : Body := alu1 g d a clz
/-- The meaning of CLZ. -/
def execClz (s : BitVec 1) (g : BitVec 2) (d : BitVec 6) (a : BitVec 6) (st : State) : Host.Outcome State Fault Refusal :=
  issue (.clz s g d a) s (bClz g d a) st

/-- BREV (R80): reverses the bit order of vA. -/
def bBrev (g : BitVec 2) (d : BitVec 6) (a : BitVec 6) : Body := alu1 g d a brev
/-- The meaning of BREV. -/
def execBrev (s : BitVec 1) (g : BitVec 2) (d : BitVec 6) (a : BitVec 6) (st : State) : Host.Outcome State Fault Refusal :=
  issue (.brev s g d a) s (bBrev g d a) st


/-- Length of the field a control word names (R81). -/
def fieldLen (k : Word) : Nat := min (k.toNat / 256 % 64) (32 - k.toNat % 32)
/-- Position of the field a control word names. -/
def fieldPos (k : Word) : Nat := k.toNat % 32
/-- The mask M of R81. -/
def fieldMask (k : Word) : Word := BitVec.ofNat 32 ((2 ^ fieldLen k - 1) * 2 ^ fieldPos k)
/-- BFX, and BFX.i32 when signed (R81). -/
def bfx (signed : Bool) (x k : Word) : Word :=
  let y := (x &&& fieldMask k) >>> fieldPos k
  let l := fieldLen k
  if signed && l != 0 && y.getLsbD (l - 1) then y ||| ~~~(BitVec.ofNat 32 (2 ^ l - 1)) else y
/-- BFI (R81). -/
def bfi (x y k : Word) : Word := (x &&& ~~~(fieldMask k)) ||| ((y <<< fieldPos k) &&& fieldMask k)

/-- BFX (R81): extracts a bit field of vA, zero- or sign-extended, under control word K. -/
def bBfx (g : BitVec 2) (d : BitVec 6) (a : BitVec 6) (b : BitVec 6) (u : BitVec 1) (t : BitVec 1) : Body :=
  alu g d a b u (bfx (t == 1))
/-- The meaning of BFX. -/
def execBfx (s : BitVec 1) (g : BitVec 2) (d : BitVec 6) (a : BitVec 6) (b : BitVec 6) (u : BitVec 1) (t : BitVec 1) (st : State) : Host.Outcome State Fault Refusal :=
  issue (.bfx s g d a b u t) s (bBfx g d a b u t) st

/-- BFI (R81): inserts a field of vB into vA under control word vC. -/
def bBfi (d : BitVec 6) (a : BitVec 6) (b : BitVec 6) (c : BitVec 6) : Body := alu4 d a b c fun _ x y k => bfi x y k
/-- The meaning of BFI. -/
def execBfi (s : BitVec 1) (d : BitVec 6) (a : BitVec 6) (b : BitVec 6) (c : BitVec 6) (st : State) : Host.Outcome State Fault Refusal :=
  issue (.bfi s d a b c) s (bBfi d a b c) st


/-- The q8 of a 4-bit element: bit 3 copied into bits 7:4 (R82). -/
def widenQ4 (x : Nat) : Nat := if 8 ≤ x % 16 then x % 16 + 240 else x % 16
/-- One result byte of PRMB. -/
def prmbByte (x y z : Word) (i : Nat) : Nat :=
  let n := bitsAt z.toNat (4 * i) 4
  let sel := n % 8
  let byte := if sel < 4 then bitsAt x.toNat (8 * sel) 8 else bitsAt y.toNat (8 * (sel - 4)) 8
  if n < 8 then byte else widenQ4 byte
/-- PRMB (R82). -/
def prmb (x y z : Word) : Word :=
  BitVec.ofNat 32 (prmbByte x y z 0 + 256 * prmbByte x y z 1 + 65536 * prmbByte x y z 2 + 16777216 * prmbByte x y z 3)

/-- PRMB (R82): builds each result byte from a chosen source byte, copied or widened from q4. -/
def bPrmb (d : BitVec 6) (a : BitVec 6) (b : BitVec 6) (c : BitVec 6) : Body := alu4 d a b c fun _ x y z => prmb x y z
/-- The meaning of PRMB. -/
def execPrmb (s : BitVec 1) (d : BitVec 6) (a : BitVec 6) (b : BitVec 6) (c : BitVec 6) (st : State) : Host.Outcome State Fault Refusal :=
  issue (.prmb s d a b c) s (bPrmb d a b c) st


/-- LEA (R83): forms the 64-bit address vdA plus the sign-extended index shifted by F. -/
def bLea (g : BitVec 2) (d : BitVec 6) (a : BitVec 6) (b : BitVec 6) (u : BitVec 1) (h : BitVec 3) : Body :=
  { reads := fun c => (RegSet.vs a.toNat 2).or (c.useB b.toNat (u == 1)), writes := fun _ => RegSet.vs d.toNat 2,
    guard := g.toNat, perLane := true,
    run := fun c m s =>
      let r (L : Nat) : DWord := c.p.getVD a.toNat L + ((c.opB b.toNat (u == 1) L).signExtend 64 <<< h.toNat)
      .done (c.modP s fun p =>
        (p.setV d.toNat m fun L => (r L).setWidth 32).setV (d.toNat + 1) m fun L => (r L >>> 32).setWidth 32) [] .seq }
/-- The meaning of LEA. -/
def execLea (s : BitVec 1) (g : BitVec 2) (d : BitVec 6) (a : BitVec 6) (b : BitVec 6) (u : BitVec 1) (h : BitVec 3) (st : State) : Host.Outcome State Fault Refusal :=
  issue (.lea s g d a b u h) s (bLea g d a b u h) st


/-! ## Compares, selects, predicates, moves (R85–R90) -/

/-- An L3 compare that writes a predicate. -/
def cmpBody (g p : BitVec 2) (a b : BitVec 6) (u : BitVec 1) (f : Ctx → Word → Word → Bool) : Body :=
  { reads := fun c => (RegSet.vs a.toNat 1).or (c.useB b.toNat (u == 1)), writes := fun _ => RegSet.pr p.toNat,
    guard := g.toNat, perLane := true,
    run := fun c m s => .done (c.modP s fun q =>
      q.setP p.toNat m fun L => f c (c.p.getV a.toNat L) (c.opB b.toNat (u == 1) L)) [] .seq }

/-- ICMP (R85): writes a predicate with an integer comparison of vA and B. -/
def bIcmp (g : BitVec 2) (t : BitVec 2) (p : BitVec 2) (a : BitVec 6) (b : BitVec 6) (u : BitVec 1) (c : BitVec 3) : Body :=
  cmpBody g p a b u fun _ x y => relation c.toNat (t == 1) x y
/-- The meaning of ICMP. -/
def execIcmp (s : BitVec 1) (g : BitVec 2) (t : BitVec 2) (p : BitVec 2) (a : BitVec 6) (b : BitVec 6) (u : BitVec 1) (c : BitVec 3) (st : State) : Host.Outcome State Fault Refusal :=
  issue (.icmp s g t p a b u c) s (bIcmp g t p a b u c) st

/-- SEL (R86): writes vA or B according to a selecting predicate. -/
def bSel (g : BitVec 2) (d : BitVec 6) (a : BitVec 6) (b : BitVec 6) (u : BitVec 1) (p : BitVec 2) : Body :=
  { alu g d a b u (fun x _ => x) with
    reads := fun c => ((RegSet.vs a.toNat 1).or (c.useB b.toNat (u == 1))).or (RegSet.pr p.toNat),
    run := fun c m s => .done (c.modP s fun q => q.setV d.toNat m fun L =>
      if c.p.getP p.toNat L then c.p.getV a.toNat L else c.opB b.toNat (u == 1) L) [] .seq }
/-- The meaning of SEL. -/
def execSel (s : BitVec 1) (g : BitVec 2) (d : BitVec 6) (a : BitVec 6) (b : BitVec 6) (u : BitVec 1) (p : BitVec 2) (st : State) : Host.Outcome State Fault Refusal :=
  issue (.sel s g d a b u p) s (bSel g d a b u p) st


/-- The predicate operations of PLOG (R87). -/
def plogOp (o : Nat) (x y : Bool) : Bool :=
  match o with
  | 0 => x && y
  | 1 => x || y
  | 2 => x != y
  | _ => x && !y

/-- PLOG (R87): combines two predicates with AND, OR, XOR or ANDN. -/
def bPlog (g : BitVec 2) (d : BitVec 2) (a : BitVec 2) (b : BitVec 2) (o : BitVec 2) : Body :=
  { reads := fun _ => (RegSet.pr a.toNat).or (RegSet.pr b.toNat), writes := fun _ => RegSet.pr d.toNat,
    guard := g.toNat, perLane := true,
    run := fun c m s => .done (c.modP s fun q =>
      q.setP d.toNat m fun L => plogOp o.toNat (c.p.getP a.toNat L) (c.p.getP b.toNat L)) [] .seq }
/-- The meaning of PLOG. -/
def execPlog (s : BitVec 1) (g : BitVec 2) (d : BitVec 2) (a : BitVec 2) (b : BitVec 2) (o : BitVec 2) (st : State) : Host.Outcome State Fault Refusal :=
  issue (.plog s g d a b o) s (bPlog g d a b o) st

/-- PMOV_GET (R88): copies all predicates into a lane register. -/
def bPmovGet (g : BitVec 2) (d : BitVec 6) : Body :=
  { reads := fun _ => ((RegSet.pr 1).or (RegSet.pr 2)).or (RegSet.pr 3), writes := fun _ => RegSet.vs d.toNat 1,
    guard := g.toNat, perLane := true,
    run := fun c m s => .done (c.modP s fun q => q.setV d.toNat m fun L =>
      BitVec.ofNat 32 (1 + 2 * (c.p.getP 1 L).toNat + 4 * (c.p.getP 2 L).toNat + 8 * (c.p.getP 3 L).toNat)) [] .seq }
/-- The meaning of PMOV_GET. -/
def execPmovGet (s : BitVec 1) (g : BitVec 2) (d : BitVec 6) (st : State) : Host.Outcome State Fault Refusal :=
  issue (.pmovGet s g d) s (bPmovGet g d) st

/-- PMOV_PUT (R88): sets p1 to p3 from bits of a lane register. -/
def bPmovPut (g : BitVec 2) (a : BitVec 6) : Body :=
  { reads := fun _ => RegSet.vs a.toNat 1, writes := fun _ => ((RegSet.pr 1).or (RegSet.pr 2)).or (RegSet.pr 3),
    guard := g.toNat, perLane := true,
    run := fun c m s => .done (c.modP s fun q =>
      ((q.setP 1 m fun L => (c.p.getV a.toNat L).getLsbD 1).setP 2 m fun L => (c.p.getV a.toNat L).getLsbD 2).setP 3 m
        fun L => (c.p.getV a.toNat L).getLsbD 3) [] .seq }
/-- The meaning of PMOV_PUT. -/
def execPmovPut (s : BitVec 1) (g : BitVec 2) (a : BitVec 6) (st : State) : Host.Outcome State Fault Refusal :=
  issue (.pmovPut s g a) s (bPmovPut g a) st


/-- A move into the lanes: the value of each lane. -/
def laneMove (g : BitVec 2) (d : BitVec 6) (r : Ctx → RegSet) (f : Ctx → Nat → Word) : Body :=
  { reads := r, writes := fun _ => RegSet.vs d.toNat 1, guard := g.toNat, perLane := true,
    run := fun c m s => .done (c.modP s fun q => q.setV d.toNat m (f c)) [] .seq }

/-- MOV (R89): copies a lane register. -/
def bMov (g : BitVec 2) (d : BitVec 6) (b : BitVec 6) : Body :=
  laneMove g d (fun c => c.useB b.toNat false) fun c L => c.opB b.toNat false L
/-- The meaning of MOV. -/
def execMov (s : BitVec 1) (g : BitVec 2) (d : BitVec 6) (b : BitVec 6) (st : State) : Host.Outcome State Fault Refusal :=
  issue (.mov s g d b) s (bMov g d b) st

/-- MOVS (R89): broadcasts a uniform register s0-s63 into lanes. -/
def bMovs (g : BitVec 2) (d : BitVec 6) (b : BitVec 6) : Body :=
  laneMove g d (fun c => c.useB b.toNat true) fun c L => c.opB b.toNat true L
/-- The meaning of MOVS. -/
def execMovs (s : BitVec 1) (g : BitVec 2) (d : BitVec 6) (b : BitVec 6) (st : State) : Host.Outcome State Fault Refusal :=
  issue (.movs s g d b) s (bMovs g d b) st

/-- MOV_IMM (R89): writes a sign-extended immediate or LIMM value into lanes. -/
def bMovImm (g : BitVec 2) (d : BitVec 6) (i : BitVec 10) : Body :=
  laneMove g d (fun _ => RegSet.none) fun c _ => c.imm i
/-- The meaning of MOV_IMM. -/
def execMovImm (s : BitVec 1) (g : BitVec 2) (d : BitVec 6) (i : BitVec 10) (st : State) : Host.Outcome State Fault Refusal :=
  issue (.movImm s g d i) s (bMovImm g d i) st

/-- VSRD (R90): reads a per-lane special register such as LANE or TID. -/
def bVsrd (g : BitVec 2) (d : BitVec 6) (n : BitVec 8) : Body :=
  laneMove g d (fun _ => RegSet.none) fun c L => vsrRead c n.toNat L
/-- The meaning of VSRD. -/
def execVsrd (s : BitVec 1) (g : BitVec 2) (d : BitVec 6) (n : BitVec 8) (st : State) : Host.Outcome State Fault Refusal :=
  issue (.vsrd s g d n) s (bVsrd g d n) st


/-! ## Uniform instructions (R92–R96) -/

/-- SADD (R92): uniform add. -/
def bSadd (d : BitVec 7) (a : BitVec 7) (b : BitVec 7) : Body := ualu d a b fun x y => x + y
/-- The meaning of SADD. -/
def execSadd (s : BitVec 1) (d : BitVec 7) (a : BitVec 7) (b : BitVec 7) (st : State) : Host.Outcome State Fault Refusal :=
  issue (.sadd s d a b) s (bSadd d a b) st

/-- SSUB (R92): uniform subtract. -/
def bSsub (d : BitVec 7) (a : BitVec 7) (b : BitVec 7) : Body := ualu d a b fun x y => x - y
/-- The meaning of SSUB. -/
def execSsub (s : BitVec 1) (d : BitVec 7) (a : BitVec 7) (b : BitVec 7) (st : State) : Host.Outcome State Fault Refusal :=
  issue (.ssub s d a b) s (bSsub d a b) st

/-- SADD_IMM (R92): uniform add of an immediate. -/
def bSaddImm (d : BitVec 7) (a : BitVec 7) (i : BitVec 10) : Body :=
  { ualu1 d a id with
    run := fun c _ s => .done (c.modP s fun p => p.setS d.toNat (c.p.getS a.toNat + c.imm i)) [] .seq }
/-- The meaning of SADD_IMM. -/
def execSaddImm (s : BitVec 1) (d : BitVec 7) (a : BitVec 7) (i : BitVec 10) (st : State) : Host.Outcome State Fault Refusal :=
  issue (.saddImm s d a i) s (bSaddImm d a i) st

/-- SMUL (R92): uniform multiply, low word. -/
def bSmul (d : BitVec 7) (a : BitVec 7) (b : BitVec 7) : Body := ualu d a b fun x y => x * y
/-- The meaning of SMUL. -/
def execSmul (s : BitVec 1) (d : BitVec 7) (a : BitVec 7) (b : BitVec 7) (st : State) : Host.Outcome State Fault Refusal :=
  issue (.smul s d a b) s (bSmul d a b) st

/-- SMULH (R92): uniform multiply, high word signed or unsigned. -/
def bSmulh (d : BitVec 7) (a : BitVec 7) (b : BitVec 7) (t : BitVec 2) : Body := ualu d a b (mulHigh t.toNat)
/-- The meaning of SMULH. -/
def execSmulh (s : BitVec 1) (d : BitVec 7) (a : BitVec 7) (b : BitVec 7) (t : BitVec 2) (st : State) : Host.Outcome State Fault Refusal :=
  issue (.smulh s d a b t) s (bSmulh d a b t) st

/-- SAND (R92): uniform bitwise AND. -/
def bSand (d : BitVec 7) (a : BitVec 7) (b : BitVec 7) : Body := ualu d a b fun x y => x &&& y
/-- The meaning of SAND. -/
def execSand (s : BitVec 1) (d : BitVec 7) (a : BitVec 7) (b : BitVec 7) (st : State) : Host.Outcome State Fault Refusal :=
  issue (.sand s d a b) s (bSand d a b) st

/-- SOR (R92): uniform bitwise OR. -/
def bSor (d : BitVec 7) (a : BitVec 7) (b : BitVec 7) : Body := ualu d a b fun x y => x ||| y
/-- The meaning of SOR. -/
def execSor (s : BitVec 1) (d : BitVec 7) (a : BitVec 7) (b : BitVec 7) (st : State) : Host.Outcome State Fault Refusal :=
  issue (.sor s d a b) s (bSor d a b) st

/-- SXOR (R92): uniform bitwise XOR. -/
def bSxor (d : BitVec 7) (a : BitVec 7) (b : BitVec 7) : Body := ualu d a b fun x y => x ^^^ y
/-- The meaning of SXOR. -/
def execSxor (s : BitVec 1) (d : BitVec 7) (a : BitVec 7) (b : BitVec 7) (st : State) : Host.Outcome State Fault Refusal :=
  issue (.sxor s d a b) s (bSxor d a b) st

/-- SSHL (R92): uniform shift left. -/
def bSshl (d : BitVec 7) (a : BitVec 7) (b : BitVec 7) : Body := ualu d a b shlOp
/-- The meaning of SSHL. -/
def execSshl (s : BitVec 1) (d : BitVec 7) (a : BitVec 7) (b : BitVec 7) (st : State) : Host.Outcome State Fault Refusal :=
  issue (.sshl s d a b) s (bSshl d a b) st

/-- SSHR (R92): uniform logical shift right. -/
def bSshr (d : BitVec 7) (a : BitVec 7) (b : BitVec 7) : Body := ualu d a b shrOp
/-- The meaning of SSHR. -/
def execSshr (s : BitVec 1) (d : BitVec 7) (a : BitVec 7) (b : BitVec 7) (st : State) : Host.Outcome State Fault Refusal :=
  issue (.sshr s d a b) s (bSshr d a b) st

/-- SSAR (R92): uniform arithmetic shift right. -/
def bSsar (d : BitVec 7) (a : BitVec 7) (b : BitVec 7) : Body := ualu d a b sarOp
/-- The meaning of SSAR. -/
def execSsar (s : BitVec 1) (d : BitVec 7) (a : BitVec 7) (b : BitVec 7) (st : State) : Host.Outcome State Fault Refusal :=
  issue (.ssar s d a b) s (bSsar d a b) st

/-- SSHL_IMM (R92): uniform shift left by an immediate count. -/
def bSshlImm (d : BitVec 7) (a : BitVec 7) (c : BitVec 5) : Body := ualu1 d a fun x => shlOp x (c.setWidth 32)
/-- The meaning of SSHL_IMM. -/
def execSshlImm (s : BitVec 1) (d : BitVec 7) (a : BitVec 7) (c : BitVec 5) (st : State) : Host.Outcome State Fault Refusal :=
  issue (.sshlImm s d a c) s (bSshlImm d a c) st

/-- SSHR_IMM (R92): uniform logical shift right by an immediate count. -/
def bSshrImm (d : BitVec 7) (a : BitVec 7) (c : BitVec 5) : Body := ualu1 d a fun x => shrOp x (c.setWidth 32)
/-- The meaning of SSHR_IMM. -/
def execSshrImm (s : BitVec 1) (d : BitVec 7) (a : BitVec 7) (c : BitVec 5) (st : State) : Host.Outcome State Fault Refusal :=
  issue (.sshrImm s d a c) s (bSshrImm d a c) st

/-- SSAR_IMM (R92): uniform arithmetic shift right by an immediate count. -/
def bSsarImm (d : BitVec 7) (a : BitVec 7) (c : BitVec 5) : Body := ualu1 d a fun x => sarOp x (c.setWidth 32)
/-- The meaning of SSAR_IMM. -/
def execSsarImm (s : BitVec 1) (d : BitVec 7) (a : BitVec 7) (c : BitVec 5) (st : State) : Host.Outcome State Fault Refusal :=
  issue (.ssarImm s d a c) s (bSsarImm d a c) st

/-- SMIN (R92): uniform minimum as i32 or n32. -/
def bSmin (d : BitVec 7) (a : BitVec 7) (b : BitVec 7) (t : BitVec 1) : Body := ualu d a b (minOp t.toNat)
/-- The meaning of SMIN. -/
def execSmin (s : BitVec 1) (d : BitVec 7) (a : BitVec 7) (b : BitVec 7) (t : BitVec 1) (st : State) : Host.Outcome State Fault Refusal :=
  issue (.smin s d a b t) s (bSmin d a b t) st

/-- SMAX (R92): uniform maximum as i32 or n32. -/
def bSmax (d : BitVec 7) (a : BitVec 7) (b : BitVec 7) (t : BitVec 1) : Body := ualu d a b (maxOp t.toNat)
/-- The meaning of SMAX. -/
def execSmax (s : BitVec 1) (d : BitVec 7) (a : BitVec 7) (b : BitVec 7) (t : BitVec 1) (st : State) : Host.Outcome State Fault Refusal :=
  issue (.smax s d a b t) s (bSmax d a b t) st

/-- SCMP (R92): writes 1 or 0 to a uniform register by comparison. -/
def bScmp (d : BitVec 7) (a : BitVec 7) (b : BitVec 7) (c : BitVec 3) : Body :=
  ualu d a b fun x y => if scmpRel c.toNat x y then 1 else 0
/-- The meaning of SCMP. -/
def execScmp (s : BitVec 1) (d : BitVec 7) (a : BitVec 7) (b : BitVec 7) (c : BitVec 3) (st : State) : Host.Outcome State Fault Refusal :=
  issue (.scmp s d a b c) s (bScmp d a b c) st

/-- SSEL (R92): selects sA or B by the value of sD. -/
def bSsel (d : BitVec 7) (a : BitVec 7) (b : BitVec 7) : Body :=
  { ualu d a b (fun x _ => x) with
    reads := fun c => ((RegSet.ss a.toNat 1).or (c.useSB b.toNat)).or (RegSet.ss d.toNat 1),
    run := fun c _ s => .done (c.modP s fun p => p.setS d.toNat
      (if c.p.getS d.toNat != 0 then c.p.getS a.toNat else c.opSB b.toNat)) [] .seq }
/-- The meaning of SSEL. -/
def execSsel (s : BitVec 1) (d : BitVec 7) (a : BitVec 7) (b : BitVec 7) (st : State) : Host.Outcome State Fault Refusal :=
  issue (.ssel s d a b) s (bSsel d a b) st

/-- SMOV (R92): copies a uniform register. -/
def bSmov (d : BitVec 7) (a : BitVec 7) : Body := ualu1 d a id
/-- The meaning of SMOV. -/
def execSmov (s : BitVec 1) (d : BitVec 7) (a : BitVec 7) (st : State) : Host.Outcome State Fault Refusal :=
  issue (.smov s d a) s (bSmov d a) st

/-- SPOPC (R92): uniform population count. -/
def bSpopc (d : BitVec 7) (a : BitVec 7) : Body := ualu1 d a popc
/-- The meaning of SPOPC. -/
def execSpopc (s : BitVec 1) (d : BitVec 7) (a : BitVec 7) (st : State) : Host.Outcome State Fault Refusal :=
  issue (.spopc s d a) s (bSpopc d a) st

/-- SCLZ (R92): uniform count of leading zeros. -/
def bSclz (d : BitVec 7) (a : BitVec 7) : Body := ualu1 d a clz
/-- The meaning of SCLZ. -/
def execSclz (s : BitVec 1) (d : BitVec 7) (a : BitVec 7) (st : State) : Host.Outcome State Fault Refusal :=
  issue (.sclz s d a) s (bSclz d a) st

/-- SMOVL (R93): sets a uniform register to a zero-extended 16-bit immediate. -/
def bSmovl (d : BitVec 7) (i : BitVec 16) : Body :=
  { reads := fun _ => RegSet.none, writes := fun _ => RegSet.ss d.toNat 1,
    run := fun c _ s => .done (c.modP s fun p => p.setS d.toNat (i.setWidth 32)) [] .seq }
/-- The meaning of SMOVL. -/
def execSmovl (s : BitVec 1) (d : BitVec 7) (i : BitVec 16) (st : State) : Host.Outcome State Fault Refusal :=
  issue (.smovl s d i) s (bSmovl d i) st

/-- SMOVH (R93): sets the upper half of a uniform register, keeping the lower. -/
def bSmovh (d : BitVec 7) (i : BitVec 16) : Body :=
  { reads := fun _ => RegSet.ss d.toNat 1, writes := fun _ => RegSet.ss d.toNat 1,
    run := fun c _ s => .done (c.modP s fun p =>
      p.setS d.toNat (i ++ (c.p.getS d.toNat).setWidth 16)) [] .seq }
/-- The meaning of SMOVH. -/
def execSmovh (s : BitVec 1) (d : BitVec 7) (i : BitVec 16) (st : State) : Host.Outcome State Fault Refusal :=
  issue (.smovh s d i) s (bSmovh d i) st

/-- SRD (R94): reads a special register into uniform registers. -/
def bSrd (d : BitVec 7) (n : BitVec 8) : Body :=
  { reads := fun _ => RegSet.none, writes := fun _ => RegSet.ss d.toNat (if srdWide n.toNat then 2 else 1),
    run := fun c _ s =>
      let x := srRead s c n.toNat
      .done (c.modP s fun p => if srdWide n.toNat then p.setSD d.toNat x else p.setS d.toNat (x.setWidth 32)) [] .seq }
/-- The meaning of SRD. -/
def execSrd (s : BitVec 1) (d : BitVec 7) (n : BitVec 8) (st : State) : Host.Outcome State Fault Refusal :=
  issue (.srd s d n) s (bSrd d n) st


/-- The state after a write of a special register (R32, R33, R42, R94–R96): FMODE for the warp, CSLR from the block's
next barrier opening, the progress state for the issuing fragment only. Of two writes of CSLR in one cycle the one of the higher
WARPID remains (R95); one by the MCC yields to any warp's (DESIGN CHOICE, log 113). -/
def srWrite (c : Ctx) (s : State) (n : Nat) (x : DWord) : State :=
  match n with
  | 0x0E => dropReader (c.setFrag s fun f => { f with prg := prgWrite x }) c x
  | 0x0F => c.setFrag s fun f => { f with prgpc := prgpcWrite x }
  | 0x10 => c.setFrag s fun f => { f with prgx := x }
  | 0x11 => c.modP s fun p => { p with fmode := fmodeWrite (x.setWidth 32) }
  | 0x1A =>
    let at_ := ((s.cluster c.cl).vcyc + 1, whoRank c.who)
    c.modB s fun b =>
      if b.cslrNew.isSome && b.cslrBy.1 = at_.1 && at_.2 < b.cslrBy.2 then b
      else { b with cslrNew := some (cslrWrite (x.setWidth 32)), cslrBy := at_ }
  | _ => s

/-- SWR (R94): writes a writable special register from uniform registers. -/
def bSwr (a : BitVec 7) (n : BitVec 8) : Body :=
  { reads := fun _ => RegSet.ss a.toNat (if srdWide n.toNat then 2 else 1), writes := fun _ => RegSet.none,
    run := fun c _ s => .done (srWrite c s n.toNat
      (if srdWide n.toNat then c.p.getSD a.toNat else (c.p.getS a.toNat).setWidth 64)) [] .seq }
/-- The meaning of SWR. -/
def execSwr (s : BitVec 1) (a : BitVec 7) (n : BitVec 8) (st : State) : Host.Outcome State Fault Refusal :=
  issue (.swr s a n) s (bSwr a n) st


/-- NOP (R58): the all-zero word, or the word with only the switch marker set, does nothing. -/
def bNop : Body :=
  { reads := fun _ => RegSet.none, writes := fun _ => RegSet.none, run := fun _ _ s => .done s [] .seq }
/-- The meaning of NOP. -/
def execNop (s : BitVec 1) (st : State) : Host.Outcome State Fault Refusal :=
  issue (.nop s) s bNop st


end Sys2Proof.Machine
end

