-- ==== Sys2Proof/Machine/Control.lean ====
section
/-! DEFINITION. Control flow, divergence and reconvergence, ending, yielding and pausing, and the register pool
(R98–R106, R112, R113). -/
namespace Sys2Proof.Machine
open Sys2Proof

/-- A U-class word that reads and writes no register. -/
def plain (run : Ctx → State → Res) : Body :=
  { reads := fun _ => RegSet.none, writes := fun _ => RegSet.none, run := fun c _ s => run c s }

/-- PAGE at a branch whose target leaves the 55-bit space (R59). -/
def fltTarget (t : Int) : Flt := { flt cPAGE with addr := BitVec.ofInt 64 t }

/-- Branch a whole fragment to a PC-relative target (R59). -/
def branchTo {n : Nat} (c : Ctx) (off : BitVec n) (s : State) : Res :=
  let t := targetInt c.f.pc off
  if targetOk t then .done s [] (.jump (targetPc t)) else .whole (fltTarget t)

/-- BRA (R98): branches the fragment to a fetch-block target. -/
def bBra (o : BitVec 24) : Body := plain fun k s => branchTo k o s
/-- The meaning of BRA. -/
def execBra (s : BitVec 1) (o : BitVec 24) (st : State) : Host.Outcome State Fault Refusal :=
  issue (.bra s o) s (bBra o) st

/-- BRC (R98): branches the fragment when a uniform register compares with zero as COND says. -/
def bBrc (c : BitVec 4) (a : BitVec 7) (o : BitVec 13) : Body :=
  { plain (fun _ s => .done s [] .seq) with
    reads := fun _ => RegSet.ss a.toNat 1,
    run := fun k _ s => if condZero c.toNat (k.p.getS a.toNat) then branchTo k o s else .done s [] .seq }
/-- The meaning of BRC. -/
def execBrc (s : BitVec 1) (c : BitVec 4) (a : BitVec 7) (o : BitVec 13) (st : State) : Host.Outcome State Fault Refusal :=
  issue (.brc s c a o) s (bBrc c a o) st


/-! ## Return stacks (R99) -/

/-- Entries a return stack holds. -/
def retDepth : Who → Nat
  | .warp _ => 4
  | .mcc => 8
/-- Is the stack of some lane of a set full? -/
def retFull (c : Ctx) (m : Lanes) : Bool := (laneList m).any fun L => retDepth c.who ≤ (vget c.p.rets L []).length
/-- Push a return address in the lanes of a set. -/
def pushRet (p : Party) (m : Lanes) (a : Addr) : Party :=
  { p with rets := Vector.ofFn fun i : Fin 64 => if m.getLsbD i then a :: vget p.rets i [] else vget p.rets i [] }
/-- Drop the top of the stacks of a set of lanes. -/
def popRet (p : Party) (m : Lanes) : Party :=
  { p with rets := Vector.ofFn fun i : Fin 64 => if m.getLsbD i then (vget p.rets i []).tail else vget p.rets i [] }
/-- The lanes of a set grouped by the address on top of their stacks. -/
def retTargets (p : Party) (m : Lanes) : List (Lanes × Addr) :=
  (laneList m).foldl (fun acc L =>
    let a := (vget p.rets L []).headD 0
    if acc.any fun e => e.2 == a then acc.map fun e => if e.2 == a then (e.1 ||| laneBit L, a) else e
    else acc ++ [(laneBit L, a)]) []

/-- Pop in every active lane and go to the popped addresses (R98–R100). -/
def returnAll (c : Ctx) (s : State) : Res :=
  if (laneList c.f.lanes).any fun L => (vget c.p.rets L []).isEmpty then .whole (flt cILLOP)
  else .done (c.modP s fun p => popRet p c.f.lanes) [] (.split (retTargets c.p c.f.lanes))

/-- CALL (R98): pushes the return address in each active lane and branches. -/
def bCall (o : BitVec 24) : Body :=
  plain fun k s =>
    let t := targetInt k.f.pc o
    if retFull k k.f.lanes then .whole (flt cILLOP)
    else if targetOk t then .done (k.modP s fun p => pushRet p k.f.lanes k.pcNext) [] (.jump (targetPc t))
    else .whole (fltTarget t)
/-- The meaning of CALL. -/
def execCall (s : BitVec 1) (o : BitVec 24) (st : State) : Host.Outcome State Fault Refusal :=
  issue (.call s o) s (bCall o) st

/-- RET (R98): pops each lane's return stack and branches. -/
def bRet : Body := plain returnAll
/-- The meaning of RET. -/
def execRet (s : BitVec 1) (st : State) : Host.Outcome State Fault Refusal :=
  issue (.ret s) s bRet st

/-- JMPI (R98): branches to an address held in a uniform pair, after page and alignment checks. -/
def bJmpi (a : BitVec 7) : Body :=
  { plain (fun _ s => .done s [] .seq) with
    reads := fun _ => RegSet.ss a.toNat 2,
    run := fun k _ s =>
      let t := k.p.getSD a.toNat
      if 2 ^ 55 ≤ t.toNat then .whole { flt cPAGE with addr := t }
      else if t.toNat % 64 != 0 then .whole (flt cALIGN)
      else .done s [] (.jump (t.setWidth 55)) }
/-- The meaning of JMPI. -/
def execJmpi (s : BitVec 1) (a : BitVec 7) (st : State) : Host.Outcome State Fault Refusal :=
  issue (.jmpi s a) s (bJmpi a) st


/-! ## Lane transfers (R100) -/

/-- The lanes of a fragment in which a guard is true. -/
def guarded (c : Ctx) (g : BitVec 2) : Lanes := c.effLanes g.toNat

/-- BRL (R100): branches the lanes whose guard holds, possibly splitting the fragment. -/
def bBrl (g : BitVec 2) (o : BitVec 22) : Body :=
  { plain (fun _ s => .done s [] .seq) with
    guard := g.toNat, perLane := true,
    run := fun k m s =>
      let t := targetInt k.f.pc o
      if m == 0 then .done s [] .seq
      else if targetOk t then .done s [] (.split [(m, targetPc t), (k.f.lanes &&& ~~~m, k.pcNext)])
      else .done s ((laneList m).map fun L => (L, fltTarget t)) .seq }
/-- The meaning of BRL. -/
def execBrl (s : BitVec 1) (g : BitVec 2) (o : BitVec 22) (st : State) : Host.Outcome State Fault Refusal :=
  issue (.brl s g o) s (bBrl g o) st

/-- LCALL (R100): pushes a return address and branches in lanes whose guard holds. -/
def bLcall (g : BitVec 2) (o : BitVec 22) : Body :=
  { plain (fun _ s => .done s [] .seq) with
    guard := g.toNat, perLane := true,
    run := fun k m s =>
      let t := targetInt k.f.pc o
      if m == 0 then .done s [] .seq
      else if retFull k m then .whole (flt cILLOP)
      else if targetOk t then
        .done (k.modP s fun p => pushRet p m k.pcNext) [] (.split [(m, targetPc t), (k.f.lanes &&& ~~~m, k.pcNext)])
      else .done s ((laneList m).map fun L => (L, fltTarget t)) .seq }
/-- The meaning of LCALL. -/
def execLcall (s : BitVec 1) (g : BitVec 2) (o : BitVec 22) (st : State) : Host.Outcome State Fault Refusal :=
  issue (.lcall s g o) s (bLcall g o) st

/-- LRET (R100): pops each active lane's return stack and branches. -/
def bLret : Body := plain returnAll
/-- The meaning of LRET. -/
def execLret (s : BitVec 1) (st : State) : Host.Outcome State Fault Refusal :=
  issue (.lret s) s bLret st


/-! ## Reconvergence (R101–R103) -/

/-- The number of a new join record: one above every live number. -/
def nextJoin (p : Party) : Nat := p.joins.foldl (fun n r => max n (r.id + 1)) 0

/-- JSET (R101): allocates a join record with reconvergence PC and join mask. An empty join mask is looked at before the
eight records: such a JSET does nothing although all are live (DESIGN CHOICE, log 87). A target outside the 55-bit space raises PAGE
in every active lane, guard-false ones among them (DESIGN CHOICE, log 114). -/
def bJset (g : BitVec 2) (o : BitVec 22) : Body :=
  { plain (fun _ s => .done s [] .seq) with
    guard := g.toNat, perLane := true,
    run := fun k m s =>
      let t := targetInt k.f.pc o
      if m == 0 then .done s [] .seq
      else if 8 ≤ k.p.joins.length then .whole (flt cILLOP)
      else if targetOk t then
        .done (k.modP s fun p => { p with joins := p.joins ++
          [{ id := nextJoin p, pc := targetPc t, mask := m, arrived := 0 }] }) [] .seq
      else .whole (fltTarget t) }
/-- The meaning of JSET. -/
def execJset (s : BitVec 1) (g : BitVec 2) (o : BitVec 22) (st : State) : Host.Outcome State Fault Refusal :=
  issue (.jset s g o) s (bJset g o) st


/-- Is a fragment waiting at a join record? -/
def atJoin (id : Nat) (f : Frag) : Bool := f.wait = .join id

/-- Have two fragments that leave a join record equal progress state (R16, R103)? A handler fragment stays apart from the
others (DESIGN CHOICE, log 88). -/
def Frag.alike (f g : Frag) : Bool := g.prg == f.prg && g.prgpc == f.prgpc && g.prgx == f.prgx && g.handler == f.handler

/-- A fragment that leaves a join record joins the one of equal progress state among those that have left, if there is
one. -/
def joinOne (pc : Addr) (f : Frag) : List Frag → List Frag
  | [] => [{ f with pc := pc, pend := RegSet.none, wait := .run }]
  | g :: r => if g.alike f then { g with lanes := g.lanes ||| f.lanes, out := g.out.or f.out } :: r else g :: joinOne pc f r

/-- Merge the fragments that leave a join record: those with equal progress state become one (R103). -/
def mergeJoin (pc : Addr) (l : List Frag) : List Frag := l.foldl (fun out f => joinOne pc f out) []

/-- CheckRecord (R102): release a record whose live lanes are none or have all arrived. -/
def checkJoin (p : Party) (id : Nat) : Party :=
  match p.joins.find? fun r => r.id = id with
  | none => p
  | some r =>
    let live := r.mask &&& p.live
    let rest := p.joins.filter fun x => x.id != id
    if live == 0 then { p with joins := rest }
    else if live &&& ~~~r.arrived == 0 then
      { p with joins := rest,
               frags := (p.frags.filter fun f => !atJoin id f) ++ mergeJoin (r.pc + 4) (p.frags.filter (atJoin id)) }
    else p

/-- The join record a JOIN at a PC meets: the youngest with that PC and a lane of the fragment. -/
def joinAt (p : Party) (pc : Addr) (lanes : Lanes) : Option JoinRec :=
  p.joins.reverse.find? fun r => r.pc == pc && (r.mask &&& lanes) != 0

/-- JOIN of a fragment whose results have returned (R102). -/
def joinNow (c : Ctx) (s : State) : State :=
  match joinAt c.p c.f.pc c.f.lanes with
  | none => c.passOn s
  | some r =>
    c.modP s fun p =>
      let here := c.f.lanes &&& r.mask
      let away := c.f.lanes &&& ~~~r.mask
      let p := { p with frags := lmod p.frags c.i fun f =>
                   { f with lanes := here, pend := RegSet.none, wait := .join r.id } }
      let p := if away == 0 then p
        else { p with frags := p.frags ++ [{ c.f with lanes := away, pc := c.pcNext, pend := RegSet.none, wait := .run }] }
      let p := { p with joins := p.joins.map fun x => if x.id = r.id then { x with arrived := x.arrived ||| here } else x }
      checkJoin p r.id

/-- JOIN (R102): waits for results and arrives at the matching join record, reconverging when complete. -/
def bJoin : Body := plain fun k s => waitResults k s fun s => .taken (joinNow k s)
/-- The meaning of JOIN. -/
def execJoin (s : BitVec 1) (st : State) : Host.Outcome State Fault Refusal :=
  issue (.join s) s bJoin st


/-! ## Ending (R104) -/

/-- Lanes that exit leave their call records; a record no lane holds any more is freed (R233). -/
def leaveCalls (p : Party) (m : Lanes) : Party :=
  let st : Vector (List Nat) 64 := Vector.ofFn fun i : Fin 64 => if m.getLsbD i then [] else vget p.callIds i []
  { p with callIds := st, calls := p.calls.filter fun r => (List.range 64).any fun L => (vget st L []).contains r.id }

/-- EXIT of a warp's fragment: its lanes end, its fragment is gone, the join records they stand in are checked, a handler
whose lanes have all exited frees the trap record (R252), the warp drains when no lane is left. -/
def exitParty (p : Party) (i : Nat) (m : Lanes) : Party :=
  let h := match p.frags[i]? with
    | some f => f.handler
    | none => false
  let p := { p with exited := p.exited ||| m, frags := ldrop p.frags i }
  let p := leaveCalls p m
  let p := (p.joins.map fun r => r.id).foldl checkJoin p
  let p := if h && !(p.frags.any fun f => f.handler) then { p with trap := none } else p
  if p.live == 0 then { p with ws := .draining } else p

/-- EXIT (R104): of a warp's fragment, or of the MCC once its array work is done; the trap record of an MCC that ends in its
handler is freed (R252). -/
def exitNow (c : Ctx) (s : State) : Res :=
  match c.who with
  | .mcc =>
    if c.b.flights.isEmpty then
      let s := c.modB s fun b => { (b.dropMacro true).dropMacro false with
          mccEnded := true, mcc := b.mcc.map fun p => { p with frags := [], trap := none } }
      .taken (exitBarriers s c.l c.key c.who c.cl)
    else c.hold .array s
  | .warp _ =>
    let s := c.modP s fun p => exitParty p c.i c.f.lanes
    .taken (tryEnter (exitBarriers s c.l c.key c.who c.cl) c.key c.who)

/-- EXIT (R104): ends the fragment's lanes, or the MCC's matrix program. -/
def bExit : Body := plain exitNow
/-- The meaning of EXIT. -/
def execExit (s : BitVec 1) (st : State) : Host.Outcome State Fault Refusal :=
  issue (.exit s) s bExit st


/-! ## Yielding and pausing (R105, R106) -/

/-- YIELD or YIELD.ly: parks at the following word when it acts (R105). -/
def yieldBody (ly : Bool) : Body :=
  plain fun k s =>
    if k.b.yr || (ly && k.b.ly) then waitResults k s fun s => .taken (k.waitNext s .yielded)
    else .done s [] .seq

/-- YIELD (R105): parks the fragment at a pre-emption point when YR is set. -/
def bYield : Body := yieldBody false
/-- The meaning of YIELD. -/
def execYield (s : BitVec 1) (st : State) : Host.Outcome State Fault Refusal :=
  issue (.yield s) s bYield st

/-- YIELD_LY (R105): parks the fragment at a pre-emption and phase point when YR or LY is set. -/
def bYieldLy : Body := yieldBody true
/-- The meaning of YIELD_LY. -/
def execYieldLy (s : BitVec 1) (st : State) : Host.Outcome State Fault Refusal :=
  issue (.yieldLy s) s bYieldLy st

/-- PAUSE (R106): stops the fragment issuing for n to n+64 cycles. -/
def bPause (i : BitVec 10) : Body :=
  plain fun k s =>
    let n := k.limm.getD (i.setWidth 32)
    if n.msb && k.limm.isSome then .whole (flt cILLOP)
    else if n == 0 then .done s [] .seq
    else .taken (k.setFrag s fun f => { f with pc := k.pcNext, wait := .pause (s.cluster k.cl).cyc n.toNat k.sw })
/-- The meaning of PAUSE. -/
def execPause (s : BitVec 1) (i : BitVec 10) (st : State) : Host.Outcome State Fault Refusal :=
  issue (.pause s i) s (bPause i) st


/-! ## The register pool (R112, R113) -/

/-- ServeFifo (R112): serve waiting REGTAKEs in order while the head fits (fuel: the number that wait). -/
def serveFifo : Nat → Block → Block
  | 0, b => b
  | k + 1, b =>
    match b.takers with
    | [] => b
    | t :: r =>
      if t.n ≤ b.pool then
        let b := { b with pool := b.pool - t.n, takers := r }
        serveFifo k (b.modParty (.warp t.warp) fun p =>
          { p with win := p.win + 8 * t.n,
                   frags := p.frags.map fun f => if f.wait = .regtake then { f with wait := .run } else f })
      else b

/-- The FIFOs of the blocks of clusters that are not frozen are served, at the end of a vector cycle (R112, R113). -/
def serveFifos (s : State) (cl : Nat → Bool) : State :=
  { s with blocks := s.blocks.map fun b =>
      match b.cluster? with
      | some c => if cl c && !(s.cluster c).frozen then serveFifo b.takers.length b else b
      | none => b }

/-- The vector cycle of a cluster ends: the FIFOs of its blocks are served, every REGGIVE of the cycle being in the pool and
every REGTAKE of it in its place (R113), and the next cycle's issues begin. -/
def endVector (s : State) (cl : Nat) : State :=
  let s := s.modCluster cl fun c => { c with vcyc := c.vcyc + 1, lastRun := [] }
  serveFifos s fun c => c == cl

/-- Enter a REGTAKE in the FIFO: behind all others, those of its own vector cycle being in ascending WARPID (R113). -/
def insertTaker (x : Taker) : List Taker → List Taker
  | [] => [x]
  | t :: r => if t.at_ = x.at_ && x.warp < t.warp then x :: t :: r else t :: insertTaker x r

/-- Registers from w0 to w1 - 1 read as zero until written again (R23). -/
def zeroRegs (p : Party) (w0 w1 : Nat) : Party :=
  { p with v := Vector.ofFn fun i : Fin 64 => if w0 ≤ i && i < w1 then Vector.replicate 64 0 else p.v[i],
           poisV := Vector.ofFn fun i : Fin 64 => if w0 ≤ i && i < w1 then 0 else p.poisV[i] }

/-- The index of the issuing warp. -/
def Ctx.warpNo (c : Ctx) : Nat :=
  match c.who with
  | .warp n => n
  | .mcc => 0

/-- REGGIVE (R112): moves register blocks from the warp's window to the block's pool; the FIFO is served when the vector
cycle ends (R113). -/
def bReggive (n : BitVec 10) : Body :=
  plain fun k s =>
    let c := n.toNat
    if k.f.lanes != k.p.live || k.p.win < 8 * c + 16 then .whole (flt cREGWIN)
    else if (RegSet.vs (k.p.win - 8 * c) (8 * c)).meets k.f.pend then .whole (flt cHAZARD)
    else
      .done (k.modB s fun b =>
        let b := b.modParty k.who fun p => { zeroRegs p (p.win - 8 * c) p.win with win := p.win - 8 * c }
        { b with pool := b.pool + c }) [] .seq
/-- The meaning of REGGIVE. -/
def execReggive (s : BitVec 1) (n : BitVec 10) (st : State) : Host.Outcome State Fault Refusal :=
  issue (.reggive s n) s (bReggive n) st

/-- REGTAKE (R112, R113): queues a request for register blocks from the pool and waits until the FIFO, at the end of a vector
cycle, serves it. REGTAKE 0 joins the FIFO too (DESIGN CHOICE, log 121). -/
def bRegtake (n : BitVec 10) : Body :=
  plain fun k s =>
    let c := n.toNat
    if k.f.lanes != k.p.live || 64 < k.p.win + 8 * c then .whole (flt cREGWIN)
    else
      waitResults k s fun s =>
        let s := k.waitNext s .regtake
        .taken (k.modB s fun b =>
          { b with takers := insertTaker { warp := k.warpNo, n := c, at_ := (s.cluster k.cl).vcyc + 1 } b.takers })
/-- The meaning of REGTAKE. -/
def execRegtake (s : BitVec 1) (n : BitVec 10) (st : State) : Host.Outcome State Fault Refusal :=
  issue (.regtake s n) s (bRegtake n) st


end Sys2Proof.Machine
end

