-- ==== Sys2Proof/Machine/FloatOps.lean ====
section
/-! DEFINITION. f32 and packed-half arithmetic, special functions, conversions, quantisation, dot products and the
monotone image (R118–R137). -/
namespace Sys2Proof.Machine
open Sys2Proof

/-- An L3 float word of A and B under the warp's FMODE. -/
def falu (g : BitVec 2) (d a b : BitVec 6) (u : BitVec 1) (f : Word → Word → Word → Word) : Body :=
  { alu g d a b u (fun x _ => x) with
    run := fun c m s => .done (c.modP s fun p => p.setV d.toNat m fun L =>
      f c.p.fmode (c.p.getV a.toNat L) (c.opB b.toNat (u == 1) L)) [] .seq }

/-- An L3 float word of A alone under the warp's FMODE. -/
def falu1 (g : BitVec 2) (d a : BitVec 6) (f : Word → Word → Word) : Body :=
  { alu1 g d a id with
    run := fun c m s => .done (c.modP s fun p => p.setV d.toNat m fun L => f c.p.fmode (c.p.getV a.toNat L)) [] .seq }

/-! ## Arithmetic (R122–R124) -/

/-- FADD (R122): adds in f32 with one rounding. -/
def bFadd (g : BitVec 2) (d : BitVec 6) (a : BitVec 6) (b : BitVec 6) (u : BitVec 1) : Body :=
  falu g d a b u fun m x y => f32op2 m addV x y
/-- The meaning of FADD. -/
def execFadd (s : BitVec 1) (g : BitVec 2) (d : BitVec 6) (a : BitVec 6) (b : BitVec 6) (u : BitVec 1) (st : State) : Host.Outcome State Fault Refusal :=
  issue (.fadd s g d a b u) s (bFadd g d a b u) st

/-- FSUB (R122): subtracts in f32 with one rounding. -/
def bFsub (g : BitVec 2) (d : BitVec 6) (a : BitVec 6) (b : BitVec 6) (u : BitVec 1) : Body :=
  falu g d a b u fun m x y => f32op2 m (fun r p q => addV r p q.negate) x y
/-- The meaning of FSUB. -/
def execFsub (s : BitVec 1) (g : BitVec 2) (d : BitVec 6) (a : BitVec 6) (b : BitVec 6) (u : BitVec 1) (st : State) : Host.Outcome State Fault Refusal :=
  issue (.fsub s g d a b u) s (bFsub g d a b u) st

/-- FMUL (R122): multiplies in f32 with one rounding. -/
def bFmul (g : BitVec 2) (d : BitVec 6) (a : BitVec 6) (b : BitVec 6) (u : BitVec 1) : Body :=
  falu g d a b u fun m x y => f32op2 m (fun _ p q => mulV p q) x y
/-- The meaning of FMUL. -/
def execFmul (s : BitVec 1) (g : BitVec 2) (d : BitVec 6) (a : BitVec 6) (b : BitVec 6) (u : BitVec 1) (st : State) : Host.Outcome State Fault Refusal :=
  issue (.fmul s g d a b u) s (bFmul g d a b u) st

/-- FFMA (R122): fused multiply-add in f32 with one rounding. -/
def bFfma (d : BitVec 6) (a : BitVec 6) (b : BitVec 6) (c : BitVec 6) : Body :=
  alu4 d a b c fun k x y z =>
    let m := k.p.fmode
    BitVec.ofNat 32 (res fF32 (fmodeRnd m) (fmodeFtz m) (fmaV (fmodeRnd m) (src fF32 (fmodeFtz m) x.toNat)
      (src fF32 (fmodeFtz m) y.toNat) (src fF32 (fmodeFtz m) z.toNat)))
/-- The meaning of FFMA. -/
def execFfma (s : BitVec 1) (d : BitVec 6) (a : BitVec 6) (b : BitVec 6) (c : BitVec 6) (st : State) : Host.Outcome State Fault Refusal :=
  issue (.ffma s d a b c) s (bFfma d a b c) st

/-- FMIN (R122): f32 minimumNumber. -/
def bFmin (g : BitVec 2) (d : BitVec 6) (a : BitVec 6) (b : BitVec 6) (u : BitVec 1) : Body :=
  falu g d a b u fun m x y => f32op2 m (fun _ p q => minV p q) x y
/-- The meaning of FMIN. -/
def execFmin (s : BitVec 1) (g : BitVec 2) (d : BitVec 6) (a : BitVec 6) (b : BitVec 6) (u : BitVec 1) (st : State) : Host.Outcome State Fault Refusal :=
  issue (.fmin s g d a b u) s (bFmin g d a b u) st

/-- FMAX (R122): f32 maximumNumber. -/
def bFmax (g : BitVec 2) (d : BitVec 6) (a : BitVec 6) (b : BitVec 6) (u : BitVec 1) : Body :=
  falu g d a b u fun m x y => f32op2 m (fun _ p q => maxV p q) x y
/-- The meaning of FMAX. -/
def execFmax (s : BitVec 1) (g : BitVec 2) (d : BitVec 6) (a : BitVec 6) (b : BitVec 6) (u : BitVec 1) (st : State) : Host.Outcome State Fault Refusal :=
  issue (.fmax s g d a b u) s (bFmax g d a b u) st

/-- FSCL (R122): scales vA by 2 to the power of the i32 B. -/
def bFscl (g : BitVec 2) (d : BitVec 6) (a : BitVec 6) (b : BitVec 6) (u : BitVec 1) : Body :=
  falu g d a b u fun m x y =>
    BitVec.ofNat 32 (res fF32 (fmodeRnd m) (fmodeFtz m) (scaleV (src fF32 (fmodeFtz m) x.toNat) y.toInt))
/-- The meaning of FSCL. -/
def execFscl (s : BitVec 1) (g : BitVec 2) (d : BitVec 6) (a : BitVec 6) (b : BitVec 6) (u : BitVec 1) (st : State) : Host.Outcome State Fault Refusal :=
  issue (.fscl s g d a b u) s (bFscl g d a b u) st

/-- FCMP (R124): writes a predicate with an f32 comparison. -/
def bFcmp (g : BitVec 2) (p : BitVec 2) (a : BitVec 6) (b : BitVec 6) (u : BitVec 1) (c : BitVec 3) : Body :=
  cmpBody g p a b u fun k x y =>
    relV c.toNat (src fF32 (fmodeFtz k.p.fmode) x.toNat) (src fF32 (fmodeFtz k.p.fmode) y.toNat)
/-- The meaning of FCMP. -/
def execFcmp (s : BitVec 1) (g : BitVec 2) (p : BitVec 2) (a : BitVec 6) (b : BitVec 6) (u : BitVec 1) (c : BitVec 3) (st : State) : Host.Outcome State Fault Refusal :=
  issue (.fcmp s g p a b u c) s (bFcmp g p a b u c) st

/-- HCMP2 (R124): writes two predicates with comparisons of f16 or bf16 pairs. -/
def bHcmp2 (g : BitVec 2) (t : BitVec 2) (p : BitVec 2) (a : BitVec 6) (b : BitVec 6) (u : BitVec 1) (c : BitVec 3) : Body :=
  { cmpBody g p a b u (fun _ _ _ => false) with
    writes := fun _ => (RegSet.pr p.toNat).or (RegSet.pr (p.toNat + 1)),
    run := fun k m s =>
      let f := if t == 1 then fF16 else fBF16
      let ftz := fmodeFtz k.p.fmode
      let at_ (i L : Nat) : Bool := relV c.toNat (src f ftz (sub 16 (k.p.getV a.toNat L) i))
        (src f ftz (sub 16 (k.opB b.toNat (u == 1) L) i))
      .done (k.modP s fun q => (q.setP p.toNat m (at_ 0)).setP (p.toNat + 1) m (at_ 1)) [] .seq }
/-- The meaning of HCMP2. -/
def execHcmp2 (s : BitVec 1) (g : BitVec 2) (t : BitVec 2) (p : BitVec 2) (a : BitVec 6) (b : BitVec 6) (u : BitVec 1) (c : BitVec 3) (st : State) : Host.Outcome State Fault Refusal :=
  issue (.hcmp2 s g t p a b u c) s (bHcmp2 g t p a b u c) st

/-- FRND (R122): rounds vA to an integral f32 by the mode in F. -/
def bFrnd (g : BitVec 2) (d : BitVec 6) (a : BitVec 6) (r : BitVec 2) : Body :=
  falu1 g d a fun m x => BitVec.ofNat 32 (res fF32 (rndOf r.toNat) (fmodeFtz m)
    (integralV (rndOf r.toNat) (src fF32 (fmodeFtz m) x.toNat)))
/-- The meaning of FRND. -/
def execFrnd (s : BitVec 1) (g : BitVec 2) (d : BitVec 6) (a : BitVec 6) (r : BitVec 2) (st : State) : Host.Outcome State Fault Refusal :=
  issue (.frnd s g d a r) s (bFrnd g d a r) st


/-- The half format of bit F[2] of major 0x1D. -/
def halfFmt (h : BitVec 1) : Fmt := if h == 1 then fBF16 else fF16

/-- HADD2 (R123): adds packed half pairs. -/
def bHadd2 (g : BitVec 2) (d : BitVec 6) (a : BitVec 6) (b : BitVec 6) (u : BitVec 1) (h : BitVec 1) : Body :=
  falu g d a b u fun m x y => half2 (halfFmt h) m addV x y
/-- The meaning of HADD2. -/
def execHadd2 (s : BitVec 1) (g : BitVec 2) (d : BitVec 6) (a : BitVec 6) (b : BitVec 6) (u : BitVec 1) (h : BitVec 1) (st : State) : Host.Outcome State Fault Refusal :=
  issue (.hadd2 s g d a b u h) s (bHadd2 g d a b u h) st

/-- HMUL2 (R123): multiplies packed half pairs. -/
def bHmul2 (g : BitVec 2) (d : BitVec 6) (a : BitVec 6) (b : BitVec 6) (u : BitVec 1) (h : BitVec 1) : Body :=
  falu g d a b u fun m x y => half2 (halfFmt h) m (fun _ p q => mulV p q) x y
/-- The meaning of HMUL2. -/
def execHmul2 (s : BitVec 1) (g : BitVec 2) (d : BitVec 6) (a : BitVec 6) (b : BitVec 6) (u : BitVec 1) (h : BitVec 1) (st : State) : Host.Outcome State Fault Refusal :=
  issue (.hmul2 s g d a b u h) s (bHmul2 g d a b u h) st

/-- HMIN2 (R123): minimum of packed half pairs. -/
def bHmin2 (g : BitVec 2) (d : BitVec 6) (a : BitVec 6) (b : BitVec 6) (u : BitVec 1) (h : BitVec 1) : Body :=
  falu g d a b u fun m x y => half2 (halfFmt h) m (fun _ p q => minV p q) x y
/-- The meaning of HMIN2. -/
def execHmin2 (s : BitVec 1) (g : BitVec 2) (d : BitVec 6) (a : BitVec 6) (b : BitVec 6) (u : BitVec 1) (h : BitVec 1) (st : State) : Host.Outcome State Fault Refusal :=
  issue (.hmin2 s g d a b u h) s (bHmin2 g d a b u h) st

/-- HMAX2 (R123): maximum of packed half pairs. -/
def bHmax2 (g : BitVec 2) (d : BitVec 6) (a : BitVec 6) (b : BitVec 6) (u : BitVec 1) (h : BitVec 1) : Body :=
  falu g d a b u fun m x y => half2 (halfFmt h) m (fun _ p q => maxV p q) x y
/-- The meaning of HMAX2. -/
def execHmax2 (s : BitVec 1) (g : BitVec 2) (d : BitVec 6) (a : BitVec 6) (b : BitVec 6) (u : BitVec 1) (h : BitVec 1) (st : State) : Host.Outcome State Fault Refusal :=
  issue (.hmax2 s g d a b u h) s (bHmax2 g d a b u h) st

/-- HFMA2 (R123): fused multiply-add of f16 pairs. -/
def bHfma2 (d : BitVec 6) (a : BitVec 6) (b : BitVec 6) (c : BitVec 6) : Body :=
  alu4 d a b c fun k x y z => half3 fF16 k.p.fmode fmaV x y z
/-- The meaning of HFMA2. -/
def execHfma2 (s : BitVec 1) (d : BitVec 6) (a : BitVec 6) (b : BitVec 6) (c : BitVec 6) (st : State) : Host.Outcome State Fault Refusal :=
  issue (.hfma2 s d a b c) s (bHfma2 d a b c) st

/-- HFMA2_BF16 (R123): fused multiply-add of bf16 pairs. -/
def bHfma2Bf16 (d : BitVec 6) (a : BitVec 6) (b : BitVec 6) (c : BitVec 6) : Body :=
  alu4 d a b c fun k x y z => half3 fBF16 k.p.fmode fmaV x y z
/-- The meaning of HFMA2_BF16. -/
def execHfma2Bf16 (s : BitVec 1) (d : BitVec 6) (a : BitVec 6) (b : BitVec 6) (c : BitVec 6) (st : State) : Host.Outcome State Fault Refusal :=
  issue (.hfma2Bf16 s d a b c) s (bHfma2Bf16 d a b c) st


/-! ## Special functions (R125–R127) -/

/-- EXP2 (R125): base-2 exponential. -/
def bExp2 (g : BitVec 2) (d : BitVec 6) (a : BitVec 6) : Body := falu1 g d a exp2F32
/-- The meaning of EXP2. -/
def execExp2 (s : BitVec 1) (g : BitVec 2) (d : BitVec 6) (a : BitVec 6) (st : State) : Host.Outcome State Fault Refusal :=
  issue (.exp2 s g d a) s (bExp2 g d a) st

/-- LOG2 (R125): base-2 logarithm. -/
def bLog2 (g : BitVec 2) (d : BitVec 6) (a : BitVec 6) : Body := falu1 g d a log2F32
/-- The meaning of LOG2. -/
def execLog2 (s : BitVec 1) (g : BitVec 2) (d : BitVec 6) (a : BitVec 6) (st : State) : Host.Outcome State Fault Refusal :=
  issue (.log2 s g d a) s (bLog2 g d a) st

/-- RCP (R125): reciprocal. -/
def bRcp (g : BitVec 2) (d : BitVec 6) (a : BitVec 6) : Body := falu1 g d a rcpF32
/-- The meaning of RCP. -/
def execRcp (s : BitVec 1) (g : BitVec 2) (d : BitVec 6) (a : BitVec 6) (st : State) : Host.Outcome State Fault Refusal :=
  issue (.rcp s g d a) s (bRcp g d a) st

/-- RSQ (R125): reciprocal square root. -/
def bRsq (g : BitVec 2) (d : BitVec 6) (a : BitVec 6) : Body := falu1 g d a rsqF32
/-- The meaning of RSQ. -/
def execRsq (s : BitVec 1) (g : BitVec 2) (d : BitVec 6) (a : BitVec 6) (st : State) : Host.Outcome State Fault Refusal :=
  issue (.rsq s g d a) s (bRsq g d a) st

/-- SQRT (R125): correctly rounded square root. -/
def bSqrt (g : BitVec 2) (d : BitVec 6) (a : BitVec 6) : Body := falu1 g d a sqrtF32
/-- The meaning of SQRT. -/
def execSqrt (s : BitVec 1) (g : BitVec 2) (d : BitVec 6) (a : BitVec 6) (st : State) : Host.Outcome State Fault Refusal :=
  issue (.sqrt s g d a) s (bSqrt g d a) st

/-- SIN (R125): sine. -/
def bSin (g : BitVec 2) (d : BitVec 6) (a : BitVec 6) : Body := falu1 g d a sinF32
/-- The meaning of SIN. -/
def execSin (s : BitVec 1) (g : BitVec 2) (d : BitVec 6) (a : BitVec 6) (st : State) : Host.Outcome State Fault Refusal :=
  issue (.sin s g d a) s (bSin g d a) st

/-- COS (R125): cosine. -/
def bCos (g : BitVec 2) (d : BitVec 6) (a : BitVec 6) : Body := falu1 g d a cosF32
/-- The meaning of COS. -/
def execCos (s : BitVec 1) (g : BitVec 2) (d : BitVec 6) (a : BitVec 6) (st : State) : Host.Outcome State Fault Refusal :=
  issue (.cos s g d a) s (bCos g d a) st

/-- TANH (R125): hyperbolic tangent. -/
def bTanh (g : BitVec 2) (d : BitVec 6) (a : BitVec 6) : Body := falu1 g d a tanhF32
/-- The meaning of TANH. -/
def execTanh (s : BitVec 1) (g : BitVec 2) (d : BitVec 6) (a : BitVec 6) (st : State) : Host.Outcome State Fault Refusal :=
  issue (.tanh s g d a) s (bTanh g d a) st


/-! ## Conversions (R128–R135) -/

/-- CVT (R128): converts between float and integer types with the rounding in F. -/
def bCvt (g : BitVec 2) (d : BitVec 6) (a : BitVec 6) (x : BitVec 3) (y : BitVec 3) (r : BitVec 3) : Body :=
  falu1 g d a fun m v => cvt m x.toNat y.toNat r.toNat v
/-- The meaning of CVT. -/
def execCvt (s : BitVec 1) (g : BitVec 2) (d : BitVec 6) (a : BitVec 6) (x : BitVec 3) (y : BitVec 3) (r : BitVec 3) (st : State) : Host.Outcome State Fault Refusal :=
  issue (.cvt s g d a x y r) s (bCvt g d a x y r) st


/-- f32 rounded to a half format under FMODE. -/
def narrowHalf (f : Fmt) (m x : Word) : Nat := res f (fmodeRnd m) (fmodeFtz m) (src fF32 (fmodeFtz m) x.toNat)

/-- CVTH2 (R129): rounds two f32 values into an f16 or bf16 pair. -/
def bCvth2 (g : BitVec 2) (d : BitVec 6) (a : BitVec 6) (b : BitVec 6) (u : BitVec 1) (h : BitVec 1) : Body :=
  falu g d a b u fun m x y =>
    BitVec.ofNat 32 (narrowHalf (halfFmt h) m x + 65536 * narrowHalf (halfFmt h) m y)
/-- The meaning of CVTH2. -/
def execCvth2 (s : BitVec 1) (g : BitVec 2) (d : BitVec 6) (a : BitVec 6) (b : BitVec 6) (u : BitVec 1) (h : BitVec 1) (st : State) : Host.Outcome State Fault Refusal :=
  issue (.cvth2 s g d a b u h) s (bCvth2 g d a b u h) st

/-- CVTH2_WIDEN (R129): widens an f16 or bf16 pair exactly into a register pair of f32. -/
def bCvth2Widen (g : BitVec 2) (d : BitVec 6) (a : BitVec 6) (h : BitVec 1) : Body :=
  { alu1 g d a id with
    writes := fun _ => RegSet.vs d.toNat 2,
    run := fun c m s =>
      let wide (i L : Nat) : Word := BitVec.ofNat 32 (res fF32 (fmodeRnd c.p.fmode) (fmodeFtz c.p.fmode)
        (src (halfFmt h) (fmodeFtz c.p.fmode) (sub 16 (c.p.getV a.toNat L) i)))
      .done (c.modP s fun p => (p.setV d.toNat m (wide 0)).setV (d.toNat + 1) m (wide 1)) [] .seq }
/-- The meaning of CVTH2_WIDEN. -/
def execCvth2Widen (s : BitVec 1) (g : BitVec 2) (d : BitVec 6) (a : BitVec 6) (h : BitVec 1) (st : State) : Host.Outcome State Fault Refusal :=
  issue (.cvth2Widen s g d a h) s (bCvth2Widen g d a h) st


/-- ELEM of a slot (R130). -/
def slotElem (x : DWord) : Nat := x.toNat % 16
/-- HAD of a slot: the block length, 0 for none. -/
def slotHad (x : DWord) : Nat :=
  match bitsAt x.toNat 8 2 with
  | 1 => 16
  | 2 => 64
  | _ => 0
/-- RM of a slot. -/
def slotRnd (x : DWord) : Rnd := rndOf (bitsAt x.toNat 10 2)
/-- SAT of a slot. -/
def slotSat (x : DWord) : Bool := x.getLsbD 12
/-- LAYOUT of a slot. -/
def slotLayout (x : DWord) : Nat := bitsAt x.toNat 13 3

/-- The lanes' values after the Hadamard option of a slot (R133, R134): blocks of n lanes within the warp. -/
def hadLanes (n : Nat) (x : Nat → Word) (L : Nat) : Word :=
  if n = 0 then x L
  else (hadamard ((List.range n).map fun i => x (L / n * n + i))).getD (L % n) 0

/-- CVTQ (R134): quantises lanes through a format slot, with optional Hadamard transform; a participant whose block holds a
poisoned participant raises POISON (R107). -/
def bCvtq (g : BitVec 2) (d : BitVec 6) (a : BitVec 6) (n : BitVec 3) : Body :=
  { alu1 g d a id with
    illop := fun c => decide (c.group < slotHad (slotOf c.l n.toNat)), ownPoison := true,
    run := fun c m s =>
      let sl := slotOf c.l n.toNat
      let h := slotHad sl
      let x (L : Nat) : Word := if m.getLsbD L then c.p.getV a.toNat L else 0
      let from_ (L : Nat) : List Nat := if h = 0 then [L] else (List.range h).map fun i => L / h * h + i
      let bad := poisonBad m fun L => (from_ L).any fun k => m.getLsbD k && poisAt c a.toNat k
      let ok := m &&& ~~~(lanesOf fun L => bad.any fun e => e.1 == L)
      .done (c.modP s fun p => p.setV d.toNat ok fun L =>
        BitVec.ofNat 32 (convertElem (slotElem sl) (slotRnd sl) (slotSat sl) (vF32 (hadLanes h x L)))) bad .seq }
/-- The meaning of CVTQ. -/
def execCvtq (s : BitVec 1) (g : BitVec 2) (d : BitVec 6) (a : BitVec 6) (n : BitVec 3) (st : State) : Host.Outcome State Fault Refusal :=
  issue (.cvtq s g d a n) s (bCvtq g d a n) st

/-- CVTD (R135): dequantises a slot-format code to its exact f32 value. -/
def bCvtd (g : BitVec 2) (d : BitVec 6) (a : BitVec 6) (n : BitVec 3) : Body :=
  { alu1 g d a id with
    run := fun c m s =>
      let e := slotElem (slotOf c.l n.toNat)
      .done (c.modP s fun p => p.setV d.toNat m fun L =>
        rneF32 (valElem e ((c.p.getV a.toNat L).toNat % 2 ^ elemBits e))) [] .seq }
/-- The meaning of CVTD. -/
def execCvtd (s : BitVec 1) (g : BitVec 2) (d : BitVec 6) (a : BitVec 6) (n : BitVec 3) (st : State) : Host.Outcome State Fault Refusal :=
  issue (.cvtd s g d a n) s (bCvtd g d a n) st


/-- Width of a MONO type (R137). -/
def monoWidth (t : BitVec 2) : Nat := if t == 0 then 32 else 16

/-- MONO (R137): writes the monotone integer image of a float. -/
def bMono (g : BitVec 2) (d : BitVec 6) (a : BitVec 6) (t : BitVec 2) : Body :=
  alu1 g d a fun x => BitVec.ofNat 32 (mono (monoWidth t) x.toNat)
/-- The meaning of MONO. -/
def execMono (s : BitVec 1) (g : BitVec 2) (d : BitVec 6) (a : BitVec 6) (t : BitVec 2) (st : State) : Host.Outcome State Fault Refusal :=
  issue (.mono s g d a t) s (bMono g d a t) st

/-- MONOI (R137): inverts the monotone integer image. -/
def bMonoi (g : BitVec 2) (d : BitVec 6) (a : BitVec 6) (t : BitVec 2) : Body :=
  alu1 g d a fun x => BitVec.ofNat 32 (monoInv (monoWidth t) x.toNat)
/-- The meaning of MONOI. -/
def execMonoi (s : BitVec 1) (g : BitVec 2) (d : BitVec 6) (a : BitVec 6) (t : BitVec 2) (st : State) : Host.Outcome State Fault Refusal :=
  issue (.monoi s g d a t) s (bMonoi g d a t) st


/-! ## Dot products (R136) -/

/-- A dot product: vD is read as the accumulator and written. -/
def dotBody (g : BitVec 2) (d a b : BitVec 6) (u : BitVec 1) (f : Word → Word → Word → Word → Word) : Body :=
  { reads := fun c => ((RegSet.vs a.toNat 1).or (c.useB b.toNat (u == 1))).or (RegSet.vs d.toNat 1),
    writes := fun _ => RegSet.vs d.toNat 1, guard := g.toNat, perLane := true,
    run := fun c m s => .done (c.modP s fun p => p.setV d.toNat m fun L =>
      f c.p.fmode (c.p.getV d.toNat L) (c.p.getV a.toNat L) (c.opB b.toNat (u == 1) L)) [] .seq }

/-- DP4 (R136): accumulates a four-element q8 dot product as i32 or f32. -/
def bDp4 (g : BitVec 2) (d : BitVec 6) (a : BitVec 6) (b : BitVec 6) (u : BitVec 1) (t : BitVec 1) : Body :=
  dotBody g d a b u fun m z x y => if t == 0 then dotI 5 4 z x y else dotQ m 5 4 z x y
/-- The meaning of DP4. -/
def execDp4 (s : BitVec 1) (g : BitVec 2) (d : BitVec 6) (a : BitVec 6) (b : BitVec 6) (u : BitVec 1) (t : BitVec 1) (st : State) : Host.Outcome State Fault Refusal :=
  issue (.dp4 s g d a b u t) s (bDp4 g d a b u t) st

/-- DP8 (R136): accumulates an eight-element q4 dot product as i32 or f32. -/
def bDp8 (g : BitVec 2) (d : BitVec 6) (a : BitVec 6) (b : BitVec 6) (u : BitVec 1) (t : BitVec 1) : Body :=
  dotBody g d a b u fun m z x y => if t == 0 then dotI 6 8 z x y else dotQ m 6 8 z x y
/-- The meaning of DP8. -/
def execDp8 (s : BitVec 1) (g : BitVec 2) (d : BitVec 6) (a : BitVec 6) (b : BitVec 6) (u : BitVec 1) (t : BitVec 1) (st : State) : Host.Outcome State Fault Refusal :=
  issue (.dp8 s g d a b u t) s (bDp8 g d a b u t) st

/-- DP2H (R136): accumulates a two-element f16 dot product into f32. -/
def bDp2h (g : BitVec 2) (d : BitVec 6) (a : BitVec 6) (b : BitVec 6) (u : BitVec 1) : Body :=
  dotBody g d a b u fun m z x y => dotE m 0 2 z x y
/-- The meaning of DP2H. -/
def execDp2h (s : BitVec 1) (g : BitVec 2) (d : BitVec 6) (a : BitVec 6) (b : BitVec 6) (u : BitVec 1) (st : State) : Host.Outcome State Fault Refusal :=
  issue (.dp2h s g d a b u) s (bDp2h g d a b u) st

/-- DP4E_E4M3 (R136): accumulates a four-element e4m3 dot product into f32. -/
def bDp4eE4m3 (g : BitVec 2) (d : BitVec 6) (a : BitVec 6) (b : BitVec 6) (u : BitVec 1) : Body :=
  dotBody g d a b u fun m z x y => dotE m 2 4 z x y
/-- The meaning of DP4E_E4M3. -/
def execDp4eE4m3 (s : BitVec 1) (g : BitVec 2) (d : BitVec 6) (a : BitVec 6) (b : BitVec 6) (u : BitVec 1) (st : State) : Host.Outcome State Fault Refusal :=
  issue (.dp4eE4m3 s g d a b u) s (bDp4eE4m3 g d a b u) st

/-- DP4E_E5M2 (R136): accumulates a four-element e5m2 dot product into f32. -/
def bDp4eE5m2 (g : BitVec 2) (d : BitVec 6) (a : BitVec 6) (b : BitVec 6) (u : BitVec 1) : Body :=
  dotBody g d a b u fun m z x y => dotE m 3 4 z x y
/-- The meaning of DP4E_E5M2. -/
def execDp4eE5m2 (s : BitVec 1) (g : BitVec 2) (d : BitVec 6) (a : BitVec 6) (b : BitVec 6) (u : BitVec 1) (st : State) : Host.Outcome State Fault Refusal :=
  issue (.dp4eE5m2 s g d a b u) s (bDp4eE5m2 g d a b u) st

/-- DP2H_BF16 (R136): accumulates a two-element bf16 dot product into f32. -/
def bDp2hBf16 (g : BitVec 2) (d : BitVec 6) (a : BitVec 6) (b : BitVec 6) (u : BitVec 1) : Body :=
  dotBody g d a b u fun m z x y => dotE m 1 2 z x y
/-- The meaning of DP2H_BF16. -/
def execDp2hBf16 (s : BitVec 1) (g : BitVec 2) (d : BitVec 6) (a : BitVec 6) (b : BitVec 6) (u : BitVec 1) (st : State) : Host.Outcome State Fault Refusal :=
  issue (.dp2hBf16 s g d a b u) s (bDp2hBf16 g d a b u) st


end Sys2Proof.Machine
end

