-- ==== Sys2Proof/Machine/CrossLane.lean ====
section
/-! DEFINITION. Cross-lane instructions among the lanes of one fragment (R107–R111). -/
namespace Sys2Proof.Machine
open Sys2Proof

/-- The first lane of a lane's group (R46, R107). -/
def groupBase (c : Ctx) (L : Nat) : Nat := L / c.group * c.group

/-- Is the B operand of an L3 word poisoned in a lane? -/
def poisB (c : Ctx) (b : Nat) (u : Bool) (L : Nat) : Bool :=
  if c.limm.isSome then false else if u then c.p.poisS.getLsbD b else poisAt c b L

/-- The source lane of SHFL within the group (R108); none when the rule names none. -/
def shflSource (mode w L c : Nat) : Option Nat :=
  match mode with
  | 0 => some (c % w)
  | 1 => if L < c then none else some (L - c)
  | 2 => if w ≤ L + c then none else some (L + c)
  | _ => some ((L ^^^ (c % w)) % w)

/-- The lane a SHFL participant reads: the source when it participates, else the lane itself. -/
def shflLane (c : Ctx) (mode : Nat) (part : Lanes) (idx : Word) (L : Nat) : Nat :=
  let base := groupBase c L
  match shflSource mode c.group (L - base) idx.toNat with
  | some k => if part.getLsbD (base + k) then base + k else L
  | none => L

/-- SHFL (R108): reads vA from another participant lane by idx, up, down or xor. -/
def bShfl (g : BitVec 2) (d : BitVec 6) (a : BitVec 6) (b : BitVec 6) (u : BitVec 1) (m : BitVec 2) : Body :=
  { alu g d a b u (fun x _ => x) with
    ownPoison := true,
    run := fun c part s =>
      let from_ (L : Nat) : Nat := shflLane c m.toNat part (c.opB b.toNat (u == 1) L) L
      let bad := poisonBad part fun L => poisB c b.toNat (u == 1) L || poisAt c a.toNat (from_ L)
      let ok := part &&& ~~~(lanesOf fun L => bad.any fun e => e.1 == L)
      .done (c.modP s fun p => p.setV d.toNat ok fun L => c.p.getV a.toNat (from_ L)) bad .seq }
/-- The meaning of SHFL. -/
def execShfl (s : BitVec 1) (g : BitVec 2) (d : BitVec 6) (a : BitVec 6) (b : BitVec 6) (u : BitVec 1) (m : BitVec 2) (st : State) : Host.Outcome State Fault Refusal :=
  issue (.shfl s g d a b u m) s (bShfl g d a b u m) st


/-- Participants of a lane's group for which a test holds, as bits of the group. -/
def ballot (c : Ctx) (part : Lanes) (f : Nat → Bool) (L : Nat) : Nat :=
  let base := groupBase c L
  ((List.range c.group).filter fun k => part.getLsbD (base + k) && f (base + k)).foldl (fun n k => n + 2 ^ k) 0

/-- A word that writes a predicate from a group test. -/
def voteBody (g d p : BitVec 2) (f : Ctx → Lanes → Nat → Bool) : Body :=
  { reads := fun _ => RegSet.pr p.toNat, writes := fun _ => RegSet.pr d.toNat, guard := g.toNat, perLane := true,
    run := fun c m s => .done (c.modP s fun q => q.setP d.toNat m (f c m)) [] .seq }

/-- VOTE_ANY (R109): writes the OR of a predicate over participants. -/
def bVoteAny (g : BitVec 2) (d : BitVec 2) (p : BitVec 2) : Body :=
  voteBody g d p fun c m L => ballot c m (fun k => c.p.getP p.toNat k) L != 0
/-- The meaning of VOTE_ANY. -/
def execVoteAny (s : BitVec 1) (g : BitVec 2) (d : BitVec 2) (p : BitVec 2) (st : State) : Host.Outcome State Fault Refusal :=
  issue (.voteAny s g d p) s (bVoteAny g d p) st

/-- VOTE_ALL (R109): writes the AND of a predicate over participants. -/
def bVoteAll (g : BitVec 2) (d : BitVec 2) (p : BitVec 2) : Body :=
  voteBody g d p fun c m L => ballot c m (fun k => !c.p.getP p.toNat k) L == 0
/-- The meaning of VOTE_ALL. -/
def execVoteAll (s : BitVec 1) (g : BitVec 2) (d : BitVec 2) (p : BitVec 2) (st : State) : Host.Outcome State Fault Refusal :=
  issue (.voteAll s g d p) s (bVoteAll g d p) st


/-- Registers a ballot fills: a pair at width 64, where an odd D raises ILLOP (R109). -/
def ballotRegs (c : Ctx) (d : Nat) : RegSet := RegSet.vs d (if c.group = 64 then 2 else 1)
/-- Is the destination of a ballot an odd register where it names a pair (R22, R109)? -/
def ballotOdd (d : Nat) (c : Ctx) : Bool := c.group = 64 && d % 2 == 1
/-- Write a ballot (R109). -/
def putBallot (c : Ctx) (d : Nat) (m : Lanes) (f : Nat → Nat) (s : State) (bad : List (Nat × Flt)) : Res :=
  let ok := m &&& ~~~(lanesOf fun L => bad.any fun e => e.1 == L)
  .done (c.modP s fun p =>
    let p := p.setV d ok fun L => BitVec.ofNat 32 (f L % 2 ^ 32)
    if c.group = 64 then p.setV (d + 1) ok fun L => BitVec.ofNat 32 (f L / 2 ^ 32) else p) bad .seq

/-- VOTE_BALLOT (R109): writes the bit mask of participants whose predicate is true. -/
def bVoteBallot (g : BitVec 2) (d : BitVec 6) (p : BitVec 2) : Body :=
  { reads := fun _ => RegSet.pr p.toNat, writes := fun c => ballotRegs c d.toNat, guard := g.toNat, perLane := true,
    illop := ballotOdd d.toNat,
    run := fun c m s => putBallot c d.toNat m (ballot c m fun k => c.p.getP p.toNat k) s [] }
/-- The meaning of VOTE_BALLOT. -/
def execVoteBallot (s : BitVec 1) (g : BitVec 2) (d : BitVec 6) (p : BitVec 2) (st : State) : Host.Outcome State Fault Refusal :=
  issue (.voteBallot s g d p) s (bVoteBallot g d p) st

/-- MATCH (R111): writes the mask of participants holding an equal vA. -/
def bMatchL (g : BitVec 2) (d : BitVec 6) (a : BitVec 6) : Body :=
  { reads := fun _ => RegSet.vs a.toNat 1, writes := fun c => ballotRegs c d.toNat, guard := g.toNat, perLane := true,
    illop := ballotOdd d.toNat, ownPoison := true,
    run := fun c m s =>
      let grp (L : Nat) : List Nat := ((List.range c.group).map fun k => groupBase c L + k).filter fun k => m.getLsbD k
      putBallot c d.toNat m (fun L => ballot c m (fun k => c.p.getV a.toNat k == c.p.getV a.toNat L) L) s
        (poisonBad m fun L => (grp L).any fun k => poisAt c a.toNat k) }
/-- The meaning of MATCH. -/
def execMatchL (s : BitVec 1) (g : BitVec 2) (d : BitVec 6) (a : BitVec 6) (st : State) : Host.Outcome State Fault Refusal :=
  issue (.matchL s g d a) s (bMatchL g d a) st


/-- The operations of WRED and WSCAN (R110). -/
def redOp (o : Nat) (fmode : Word) (x y : Word) : Word :=
  match o with
  | 0 => x + y
  | 1 => maxOp 0 x y
  | 2 => minOp 0 x y
  | _ => f32op2 fmode addV x y

/-- One combining step: an absent operand leaves the other. -/
def combine (op : Word → Word → Word) (x y : Option Word) : Option Word :=
  match x, y with
  | none, y => y
  | x, none => x
  | some a, some b => some (op a b)

/-- Neighbouring pairs combined. -/
def pairs (op : Word → Word → Word) : List (Option Word) → List (Option Word)
  | a :: b :: r => combine op a b :: pairs op r
  | l => l

/-- The pairing tree of R110 (fuel: its levels). -/
def tree (op : Word → Word → Word) : Nat → List (Option Word) → Option Word
  | 0, l => (l.head?).join
  | n + 1, l => tree op n (pairs op l)

/-- The values of a lane's group, absent where a lane does not participate. -/
def groupVals (c : Ctx) (m : Lanes) (a L : Nat) : List (Option Word) :=
  (List.range c.group).map fun k =>
    let j := groupBase c L + k
    if m.getLsbD j then some (c.p.getV a j) else none

/-- WRED (R110): reduces vA over participants in a fixed pairing tree. -/
def bWred (g : BitVec 2) (d : BitVec 6) (a : BitVec 6) (o : BitVec 2) : Body :=
  { alu1 g d a id with
    ownPoison := true,
    run := fun c m s =>
      let bad := poisonBad m fun L => (List.range c.group).any fun k =>
        let j := groupBase c L + k
        m.getLsbD j && poisAt c a.toNat j
      let ok := m &&& ~~~(lanesOf fun L => bad.any fun e => e.1 == L)
      .done (c.modP s fun p => p.setV d.toNat ok fun L =>
        (tree (redOp o.toNat c.p.fmode) 6 (groupVals c m a.toNat L)).getD 0) bad .seq }
/-- The meaning of WRED. -/
def execWred (s : BitVec 1) (g : BitVec 2) (d : BitVec 6) (a : BitVec 6) (o : BitVec 2) (st : State) : Host.Outcome State Fault Refusal :=
  issue (.wred s g d a o) s (bWred g d a o) st


/-- The inclusive scan of a lane: its group's participants up to it, in ascending order (R110). -/
def scanTo (c : Ctx) (op : Word → Word → Word) (m : Lanes) (a L : Nat) : Word :=
  (((List.range (L - groupBase c L + 1)).map fun k => groupBase c L + k).foldl (fun acc j =>
    if m.getLsbD j then combine op acc (some (c.p.getV a j)) else acc) none).getD 0

/-- WSCAN (R110): inclusive scan of vA over participants in ascending order. -/
def bWscan (g : BitVec 2) (d : BitVec 6) (a : BitVec 6) (o : BitVec 2) : Body :=
  { alu1 g d a id with
    ownPoison := true,
    run := fun c m s =>
      let bad := poisonBad m fun L => (List.range (L - groupBase c L + 1)).any fun k =>
        let j := groupBase c L + k
        m.getLsbD j && poisAt c a.toNat j
      let ok := m &&& ~~~(lanesOf fun L => bad.any fun e => e.1 == L)
      .done (c.modP s fun p => p.setV d.toNat ok fun L => scanTo c (redOp o.toNat c.p.fmode) m a.toNat L) bad .seq }
/-- The meaning of WSCAN. -/
def execWscan (s : BitVec 1) (g : BitVec 2) (d : BitVec 6) (a : BitVec 6) (o : BitVec 2) (st : State) : Host.Outcome State Fault Refusal :=
  issue (.wscan s g d a o) s (bWscan g d a o) st


end Sys2Proof.Machine
end

