-- ==== Sys2Proof/Machine/MemoryOps.lean ====
section
/-! DEFINITION. Memory, atomic and reduction instructions (R138–R153): addresses and their checks at issue, and what each
instruction adds to the queues and pools of the memory machine (R269). The accesses themselves happen in PERFORM, MERGE
and DRAIN. -/
namespace Sys2Proof.Machine
open Sys2Proof

/-! ## Combining-buffer partials (R152, R271) -/

/-- Op of R149. -/
def atomOp (o : Nat) (old x : DWord) : DWord :=
  let a : Word := old.setWidth 32
  let b : Word := x.setWidth 32
  let w (y : Word) : DWord := y.setWidth 64
  match o with
  | 0 => w (a + b)
  | 1 => w (addF32rne a b)
  | 2 => w (minOp 0 a b)
  | 3 => w (maxOp 0 a b)
  | 4 => w (minOp 1 a b)
  | 5 => w (maxOp 1 a b)
  | 6 => w (a &&& b)
  | 7 => w (a ||| b)
  | 8 => w (a ^^^ b)
  | 9 => w b
  | 10 => old + x
  | _ => x

/-- Bytes of a reduction. -/
def redBytes (o : Nat) : Nat := if o = 10 then 8 else 4

/-- A partial goes home: M takes Op of it, and the write joins X (R271). -/
def flushOne (ms : MemSys) (c : Partial) : MemSys :=
  match c.owners with
  | [] => ms
  | r :: _ =>
    let n := redBytes c.op
    let x := atomOp c.op (BitVec.ofNat 64 (leNat (memRead ms.mem c.pa n))) c.val
    homeWrite ms
      { serial := r.serial, key := r.key, who := r.who, lanes := laneBit r.lane, stream := some r.stream, path := none,
        op := 0, pa := c.pa, data := leBytes n x.toNat, reds := c.owners }

/-- Does a partial lie in a line that n bytes at pa touch? -/
def Partial.inLines (c : Partial) (pa n : Nat) : Bool := lineMeets (c.pa / 128) pa n

/-- Does a combining buffer hold a partial of a line that n bytes at pa touch (R271)? -/
def lineHeld (ms : MemSys) (pa n : Nat) : Bool := ms.cb.any fun c => c.inLines pa n

/-- The home agent collects and combines the partials of the lines that n bytes at pa touch (R152). -/
def collect (ms : MemSys) (pa n : Nat) : MemSys :=
  if lineHeld ms pa n then
    (ms.cb.filter fun c => c.inLines pa n).foldl flushOne { ms with cb := ms.cb.filter fun c => !c.inLines pa n }
  else ms

/-- Every write of X becomes visible to system observers, in order: a run of Export steps (R276). -/
def exportAll (ms : MemSys) : MemSys :=
  { ms with exports := [],
            sys := ms.exports.foldl (fun m e => match e with
              | .write w => memWrite m w.pa w.data
              | .mark _ => m) ms.sys }

/-- A write that M and E take together: partials of its lines are collected first (R152), and device writes of its words that
are not yet visible become so before it (R276). -/
def bothWrite (ms : MemSys) (pa : Nat) (data : List Byte) : MemSys :=
  let ms := collect ms pa data.length
  let ms := if ms.exports.any fun e => (match e with
      | .write w => wordsMeet w.pa w.data.length pa data.length
      | .mark _ => false) then exportAll ms else ms
  let ms := coverSectors ms pa data.length
  { ms with mem := memWrite ms.mem pa data, sys := memWrite ms.sys pa data }

/-- A write of the lantern cores, the arbiter or the boot ROM, made with a release at scope .sy. Nothing lies beyond HBM for it
(R280). -/
def sysWrite (ms : MemSys) (pa : Nat) (data : List Byte) : MemSys :=
  if hbmEnd < pa + data.length then ms else bothWrite ms pa data

/-! ## One access at issue -/

/-- The checks of one access at issue (R139, R143): a posted access may leave its translation for later (`late`); a read
of a poisoned sector raises ECCU (R292). -/
def checkOne (c : Ctx) (sp : Space) (a : DWord) (n : Nat) (rd wr late : Bool) (s : State) :
    State × Except Flt (Option Nat) :=
  if late && sp = .global then
    match addrCheck c sp a n with
    | some f => (s, .error f)
    | none => (s, .ok none)
  else
    match resolve c s sp a n rd wr with
    | (s, .error f) => (s, .error f)
    | (s, .ok none) => (s, .ok none)
    | (s, .ok (some pa)) =>
      if rd then
        let (s, bad) := eccRead s c.key.part pa n
        (s, if bad then .error { flt cECCU with addr := accVa c sp a } else .ok (some pa))
      else (s, .ok (some pa))

/-- Does a load of n bytes at pa meet a poisoned word of its cluster's L1 (R324, R325)? -/
def l1Hit (ms : MemSys) (cl pa n : Nat) : Bool :=
  ms.l1Pois.any fun e => e.1 = cl && decide (4 * e.2 < pa + n) && decide (pa < 4 * e.2 + 4)

/-- The kinds that read through the L1: the loads of warps. -/
def AccKind.viaL1 : AccKind → Bool
  | .load _ _ _ => true
  | .loadS _ _ _ => true
  | _ => false

/-- One access to record: the lane it is checked for, the threads in whose queues it stands, its address and kind, and whether its
policy bypasses the L1 (R145). -/
structure Want where
  lane  : Nat
  lanes : Lanes
  addr  : DWord
  kind  : AccKind
  byp   : Bool := false

/-- Check the accesses of one instruction and append those that pass to the stream queues, in order, under one serial
number (R141, R269); the lanes whose checks fail and their faults. `extra` is a further check of a lane. -/
def recordAll (c : Ctx) (sp : Space) (t n : Nat) (rd wr posted : Bool) (extra : Nat → Option Flt) (l : List Want)
    (s : State) : State × List (Nat × Flt) :=
  let late := posted && s.late
  let step (x : State × List Access × List (Nat × Flt)) (w : Want) : State × List Access × List (Nat × Flt) :=
    match checkOne c sp w.addr n rd wr late x.1 with
    | (s, .error f) => (s, x.2.1, x.2.2 ++ [(w.lane, f)])
    | (s, .ok pa) =>
      let poison : Option Flt :=
        if w.kind.viaL1 && !w.byp && pa.any (fun a => l1Hit s.ms c.cl a n) then some (flt cPOISON) else none
      match (extra w.lane).or poison with
      | some f => (s, x.2.1, x.2.2 ++ [(w.lane, f)])
      | none =>
        (s, x.2.1 ++ [{ serial := s.ms.serial, key := c.key, who := c.who, lanes := w.lanes, stream := t, pc := c.f.pc,
                        space := sp, va := w.addr, pa := pa, kind := w.kind, held := none, dbl := c.dbl }], x.2.2)
  let r := l.foldl step (s, [], [])
  ((enqueue r.1 r.2.1).bump, r.2.2)

/-- The address of a lane (R139). -/
def laneAddr (c : Ctx) (a L : Nat) : DWord := c.p.getVD a L + c.off

/-- What a watchpoint sees of an access of a lane (R341): the address R139 computes. -/
def laneTouch (a n : Nat) (rd wr : Bool) (c : Ctx) (m : Lanes) : List Touch :=
  (laneList m).map fun L => { lane := L, addr := (laneAddr c a L).toNat, len := n, rd := rd, wr := wr }

/-! ## Lane loads and stores (R144) -/

/-- Bytes of the access widths 0 n8, 1 i8, 2 n16, 3 i16, 4 b32, 5 b64, 6 b128. -/
def widthBytes (w : Nat) : Nat :=
  match w with
  | 0 => 1
  | 1 => 1
  | 2 => 2
  | 3 => 2
  | 4 => 4
  | 5 => 8
  | _ => 16
/-- Registers of the access widths. -/
def widthRegs (w : Nat) : Nat := if w ≤ 4 then 1 else if w = 5 then 2 else 4
/-- Is a narrow load sign-extended? -/
def widthSigned (w : Nat) : Bool := w == 1 || w == 3
/-- The bytes lane registers d, d + 1, … give a store of a width (R140, R144). -/
def laneBytes (p : Party) (d w L : Nat) : List Byte :=
  ((List.range (widthRegs w)).flatMap fun i => wordBytes (p.getV (d + i) L)).take (widthBytes w)

/-- Does a lane's load of n bytes of the scratchpad meet a marked word? A word that an earlier store of its thread in the stream, still
on its way, writes whole has its mark cleared before the load performs (R265, R325). -/
def ldsPoisoned (s : State) (c : Ctx) (t L n : Nat) (a : DWord) : Bool :=
  let clears (w : Nat) (x : Access) : Bool :=
    x.key = c.key && x.who = c.who && x.lanes.getLsbD L && x.stream = t && x.space = .scratch && (match x.kind with
      | .store d => decide (x.va.toNat ≤ 4 * w) && decide (4 * w + 4 ≤ x.va.toNat + d.length)
      | _ => false)
  c.b.scrPois.any fun w => decide (4 * w < a.toNat + n) && decide (a.toNat < 4 * w + 4) && !(s.ms.queue.any (clears w))

/-- A lane load (R144); policy 3 bypasses the L1. -/
def loadBody (g : BitVec 2) (d a : BitVec 6) (t w : Nat) (p : BitVec 2) (sp : Space) : Body :=
  { reads := fun _ => RegSet.vs a.toNat 2, writes := fun _ => RegSet.vs d.toNat (widthRegs w), guard := g.toNat,
    perLane := true,
    touch := fun _ => laneTouch a.toNat (widthBytes w) true false,
    run := fun c m s =>
      let l := (laneList m).map fun L =>
        ({ lane := L, lanes := laneBit L, addr := laneAddr c a.toNat L,
           kind := .load (widthBytes w) (widthSigned w) d.toNat, byp := p == 3 } : Want)
      let marked := (laneList m).filter fun L => sp = .scratch && ldsPoisoned s c t L (widthBytes w) (laneAddr c a.toNat L)
      let (s, bad) := recordAll c sp t (widthBytes w) true false false
        (fun L => if marked.contains L then some (flt cPOISON) else none) l s
      .done s bad .seq }

/-- BARCLOB for a store that overlaps a live barrier word (R160). -/
def barClob (b : Block) (n : Nat) (a : DWord) : Option Flt :=
  if b.overlapsBar a.toNat n then some (flt cBARCLOB) else none

/-- A lane store (R144). -/
def storeBody (g : BitVec 2) (d a : BitVec 6) (t w : Nat) (sp : Space) : Body :=
  { reads := fun _ => (RegSet.vs a.toNat 2).or (RegSet.vs d.toNat (widthRegs w)), writes := fun _ => RegSet.none,
    guard := g.toNat, perLane := true,
    touch := fun _ => laneTouch a.toNat (widthBytes w) false true,
    run := fun c m s =>
      let l := (laneList m).map fun L =>
        ({ lane := L, lanes := laneBit L, addr := laneAddr c a.toNat L,
           kind := .store (laneBytes c.p d.toNat w L) } : Want)
      let (s, bad) := recordAll c sp t (widthBytes w) false true true
        (fun L => if sp = .scratch then barClob c.b (widthBytes w) (laneAddr c a.toNat L) else none) l s
      .done s bad .seq }

/-- LDG (R144): loads from global memory per lane in a stream. -/
def bLdg (g : BitVec 2) (d : BitVec 6) (a : BitVec 6) (t : BitVec 4) (p : BitVec 2) (w : BitVec 4) : Body :=
  loadBody g d a t.toNat w.toNat p .global
/-- The meaning of LDG. -/
def execLdg (s : BitVec 1) (g : BitVec 2) (d : BitVec 6) (a : BitVec 6) (t : BitVec 4) (p : BitVec 2) (w : BitVec 4) (st : State) : Host.Outcome State Fault Refusal :=
  issue (.ldg s g d a t p w) s (bLdg g d a t p w) st

/-- STG (R144): posts a store to global memory per lane in a stream. -/
def bStg (g : BitVec 2) (d : BitVec 6) (a : BitVec 6) (t : BitVec 4) (p : BitVec 2) (w : BitVec 4) : Body :=
  storeBody g d a t.toNat w.toNat .global
/-- The meaning of STG. -/
def execStg (s : BitVec 1) (g : BitVec 2) (d : BitVec 6) (a : BitVec 6) (t : BitVec 4) (p : BitVec 2) (w : BitVec 4) (st : State) : Host.Outcome State Fault Refusal :=
  issue (.stg s g d a t p w) s (bStg g d a t p w) st

/-- LDS (R144): loads from the block's scratchpad per lane. -/
def bLds (g : BitVec 2) (d : BitVec 6) (a : BitVec 6) (t : BitVec 4) (w : BitVec 4) : Body :=
  loadBody g d a t.toNat w.toNat 0 .scratch
/-- The meaning of LDS. -/
def execLds (s : BitVec 1) (g : BitVec 2) (d : BitVec 6) (a : BitVec 6) (t : BitVec 4) (w : BitVec 4) (st : State) : Host.Outcome State Fault Refusal :=
  issue (.lds s g d a t w) s (bLds g d a t w) st

/-- STS (R144): posts a store to the block's scratchpad per lane. -/
def bSts (g : BitVec 2) (d : BitVec 6) (a : BitVec 6) (t : BitVec 4) (w : BitVec 4) : Body :=
  storeBody g d a t.toNat w.toNat .scratch
/-- The meaning of STS. -/
def execSts (s : BitVec 1) (g : BitVec 2) (d : BitVec 6) (a : BitVec 6) (t : BitVec 4) (w : BitVec 4) (st : State) : Host.Outcome State Fault Refusal :=
  issue (.sts s g d a t w) s (bSts g d a t w) st

/-- LDC (R144): loads from the launch's constant segment per lane. -/
def bLdc (g : BitVec 2) (d : BitVec 6) (a : BitVec 6) (t : BitVec 4) (p : BitVec 2) (w : BitVec 4) : Body :=
  loadBody g d a t.toNat w.toNat p .const
/-- The meaning of LDC. -/
def execLdc (s : BitVec 1) (g : BitVec 2) (d : BitVec 6) (a : BitVec 6) (t : BitVec 4) (p : BitVec 2) (w : BitVec 4) (st : State) : Host.Outcome State Fault Refusal :=
  issue (.ldc s g d a t p w) s (bLdc g d a t p w) st


/-! ## Prefetch and zeroing (R146, R147) -/

/-- PFG (R146): prefetches a line towards the cluster without faulting. -/
def bPfg (g : BitVec 2) (a : BitVec 6) (p : BitVec 2) : Body :=
  { reads := fun _ => RegSet.vs a.toNat 2, writes := fun _ => RegSet.none, guard := g.toNat, perLane := true,
    run := fun _ _ s => .done s [] .seq }
/-- The meaning of PFG. -/
def execPfg (s : BitVec 1) (g : BitVec 2) (a : BitVec 6) (p : BitVec 2) (st : State) : Host.Outcome State Fault Refusal :=
  issue (.pfg s g a p) s (bPfg g a p) st

/-- ZLINE (R147): posts a store of 128 zero bytes that sets the line's Z flag. -/
def bZline (g : BitVec 2) (a : BitVec 6) (t : BitVec 4) (p : BitVec 2) : Body :=
  { reads := fun _ => RegSet.vs a.toNat 2, writes := fun _ => RegSet.none, guard := g.toNat, perLane := true,
    run := fun c m s =>
      let l := (laneList m).map fun L =>
        ({ lane := L, lanes := laneBit L, addr := laneAddr c a.toNat L, kind := .zline } : Want)
      let (s, bad) := recordAll c .global t.toNat 128 false true true (fun _ => none) l s
      .done s bad .seq }
/-- The meaning of ZLINE. -/
def execZline (s : BitVec 1) (g : BitVec 2) (a : BitVec 6) (t : BitVec 4) (p : BitVec 2) (st : State) : Host.Outcome State Fault Refusal :=
  issue (.zline s g a t p) s (bZline g a t p) st


/-! ## Atomics (R149–R151) -/

/-- Is an atomic's operation one of 64 bits (R149)? -/
def atomWide (o : Nat) : Bool := o == 10 || o == 11
/-- Bytes of an atomic. -/
def atomBytes (o : Nat) : Nat := if atomWide o then 8 else 4
/-- Registers of an atomic's operand. -/
def atomRegs (o : Nat) : Nat := if atomWide o then 2 else 1
/-- The operand of an atomic in a lane. -/
def atomArg (p : Party) (d o L : Nat) : DWord := if atomWide o then p.getVD d L else (p.getV d L).setWidth 64

/-- ATOM (R149): performs an atomic read-modify-write at the L2 bank per lane, returning the old value. -/
def bAtom (g : BitVec 2) (d : BitVec 6) (a : BitVec 6) (t : BitVec 4) (o : BitVec 4) : Body :=
  { reads := fun _ => (RegSet.vs a.toNat 2).or (RegSet.vs d.toNat (atomRegs o.toNat)),
    writes := fun _ => RegSet.vs d.toNat (atomRegs o.toNat), guard := g.toNat, perLane := true,
    touch := fun _ => laneTouch a.toNat (atomBytes o.toNat) true true,
    run := fun c m s =>
      let l := (laneList m).map fun L =>
        ({ lane := L, lanes := laneBit L, addr := laneAddr c a.toNat L,
           kind := .atom o.toNat (atomBytes o.toNat) (atomArg c.p d.toNat o.toNat L) d.toNat } : Want)
      let (s, bad) := recordAll c .global t.toNat (atomBytes o.toNat) true true false (fun _ => none) l s
      .done s bad .seq }
/-- The meaning of ATOM. -/
def execAtom (s : BitVec 1) (g : BitVec 2) (d : BitVec 6) (a : BitVec 6) (t : BitVec 4) (o : BitVec 4) (st : State) : Host.Outcome State Fault Refusal :=
  issue (.atom s g d a t o) s (bAtom g d a t o) st

/-- ACAS (R150): atomic compare-and-swap per lane, setting a success predicate. -/
def bAcas (g : BitVec 2) (d : BitVec 6) (a : BitVec 6) (t : BitVec 4) (p : BitVec 2) (w : BitVec 1) : Body :=
  let n := if w == 0 then 4 else 8
  { reads := fun _ => (RegSet.vs a.toNat 2).or (RegSet.vs d.toNat (n / 2)),
    writes := fun _ => (RegSet.vs d.toNat (n / 4)).or (RegSet.pr p.toNat), guard := g.toNat, perLane := true,
    touch := fun _ => laneTouch a.toNat n true true,
    run := fun c m s =>
      let arg (r L : Nat) : DWord := if n = 4 then (c.p.getV r L).setWidth 64 else c.p.getVD r L
      let l := (laneList m).map fun L =>
        ({ lane := L, lanes := laneBit L, addr := laneAddr c a.toNat L,
           kind := .acas n (arg d.toNat L) (arg (d.toNat + n / 4) L) p.toNat d.toNat } : Want)
      let (s, bad) := recordAll c .global t.toNat n true true false (fun _ => none) l s
      .done s bad .seq }
/-- The meaning of ACAS. -/
def execAcas (s : BitVec 1) (g : BitVec 2) (d : BitVec 6) (a : BitVec 6) (t : BitVec 4) (p : BitVec 2) (w : BitVec 1) (st : State) : Host.Outcome State Fault Refusal :=
  issue (.acas s g d a t p w) s (bAcas g d a t p w) st


/-! ## Reductions (R152, R153) -/

/-- Does the word of a reduction lie in a sector that cannot be read, as the tables stand at its issue? Its ECCU is precise (R292);
its translation is made later (R143). -/
def redEcc (c : Ctx) (va : DWord) (n : Nat) (s : State) : State × Bool :=
  match translate s c.cl c.key.part c.l.lr.asid va.toNat false true false with
  | (t, .error f) => if f.code = cECCU then (t, true) else (s, false)
  | (_, .ok pa) => eccRead s c.key.part pa n

/-- A RED or REDM at issue: the checks of R139 that precede translation (R143), and a sector found bad; the entries of the lanes that
pass and the faults of the others. -/
def redEntries (c : Ctx) (a d o t : Nat) (m : Lanes) (s : State) : State × List RedEntry × List (Nat × Flt) :=
  (laneList m).foldl (fun x L =>
    match addrCheck c .global (laneAddr c a L) (atomBytes o) with
    | some f => (x.1, x.2.1, x.2.2 ++ [(L, f)])
    | none =>
      match redEcc c (laneAddr c a L) (atomBytes o) x.1 with
      | (t, true) => (t, x.2.1, x.2.2 ++ [(L, { flt cECCU with addr := laneAddr c a L })])
      | (u, false) =>
        (u, x.2.1 ++ [{ serial := s.ms.serial, key := c.key, who := c.who, lane := L, stream := t, pc := c.f.pc,
                        va := laneAddr c a L, pa := none, op := o, x := atomArg c.p d o L, held := none, dbl := c.dbl }], x.2.2))
    (s, [], [])

/-- RED (R152): posts a reduction into the cluster's combining buffer. -/
def bRed (g : BitVec 2) (d : BitVec 6) (a : BitVec 6) (t : BitVec 4) (o : BitVec 4) : Body :=
  { reads := fun _ => (RegSet.vs a.toNat 2).or (RegSet.vs d.toNat (atomRegs o.toNat)), writes := fun _ => RegSet.none,
    guard := g.toNat, perLane := true, touch := fun _ => laneTouch a.toNat (atomBytes o.toNat) true true,
    run := fun c m s =>
      let (s, l, bad) := redEntries c a.toNat d.toNat o.toNat t.toNat m s
      .done (State.bump (s.modMs fun ms => { ms with pool := ms.pool ++ l })) bad .seq }
/-- The meaning of RED. -/
def execRed (s : BitVec 1) (g : BitVec 2) (d : BitVec 6) (a : BitVec 6) (t : BitVec 4) (o : BitVec 4) (st : State) : Host.Outcome State Fault Refusal :=
  issue (.red s g d a t o) s (bRed g d a t o) st

/-- REDM (R153): posts a reduction to the memory-side unit on the .mr path. Its issue ends the block's idempotent status, with no
effective lane too (R307). -/
def bRedm (g : BitVec 2) (d : BitVec 6) (a : BitVec 6) (o : BitVec 4) : Body :=
  { reads := fun _ => (RegSet.vs a.toNat 2).or (RegSet.vs d.toNat 1), writes := fun _ => RegSet.none,
    guard := g.toNat, perLane := true,
    run := fun c m s =>
      let (s, l, bad) := redEntries c a.toNat d.toNat o.toNat 0 m s
      let s := s.modMs fun ms => { ms with redm := ms.redm ++ l }
      .done (State.bump (c.modB s fun b => { b with idem := false })) bad .seq }
/-- The meaning of REDM. -/
def execRedm (s : BitVec 1) (g : BitVec 2) (d : BitVec 6) (a : BitVec 6) (o : BitVec 4) (st : State) : Host.Outcome State Fault Refusal :=
  issue (.redm s g d a o) s (bRedm g d a o) st


/-! ## Uniform memory (R148) -/

/-- The address of a uniform access. -/
def uAddr (c : Ctx) (a : Nat) : DWord := c.p.getSD a + c.off
/-- What a watchpoint sees of a uniform access. -/
def uTouch (a n : Nat) (rd wr : Bool) (c : Ctx) (m : Lanes) : List Touch :=
  [{ lane := lowLane m, addr := (uAddr c a).toNat, len := n, rd := rd, wr := wr }]
/-- Record one access for the whole fragment, or park it whole. -/
def uRecord (c : Ctx) (a t n : Nat) (rd wr posted : Bool) (p : BitVec 2) (k : AccKind) (s : State) : Res :=
  match recordAll c .global t n rd wr posted (fun _ => none)
      [{ lane := lowLane c.f.lanes, lanes := c.f.lanes, addr := uAddr c a, kind := k, byp := p == 3 }] s with
  | (s, (_, f) :: _) => .faulted f s
  | (s, []) => .done s [] .seq

/-- SLD (R148): one uniform load from global memory. -/
def bSld (d : BitVec 7) (a : BitVec 7) (t : BitVec 4) (p : BitVec 2) (w : BitVec 3) : Body :=
  let n := widthBytes w.toNat
  { reads := fun _ => RegSet.ss a.toNat 2, writes := fun _ => RegSet.ss d.toNat (widthRegs w.toNat),
    touch := fun _ => uTouch a.toNat n true false,
    run := fun c _ s => uRecord c a.toNat t.toNat n true false false p (.loadS n (widthSigned w.toNat) d.toNat) s }
/-- The meaning of SLD. -/
def execSld (s : BitVec 1) (d : BitVec 7) (a : BitVec 7) (t : BitVec 4) (p : BitVec 2) (w : BitVec 3) (st : State) : Host.Outcome State Fault Refusal :=
  issue (.sld s d a t p w) s (bSld d a t p w) st

/-- SST (R148): one posted uniform store to global memory. -/
def bSst (d : BitVec 7) (a : BitVec 7) (t : BitVec 4) (p : BitVec 2) (w : BitVec 3) : Body :=
  let n := widthBytes w.toNat
  { reads := fun _ => (RegSet.ss a.toNat 2).or (RegSet.ss d.toNat (widthRegs w.toNat)), writes := fun _ => RegSet.none,
    touch := fun _ => uTouch a.toNat n false true,
    run := fun c _ s =>
      uRecord c a.toNat t.toNat n false true true p (.store ((dwordBytes (c.p.getSD d.toNat)).take n)) s }
/-- The meaning of SST. -/
def execSst (s : BitVec 1) (d : BitVec 7) (a : BitVec 7) (t : BitVec 4) (p : BitVec 2) (w : BitVec 3) (st : State) : Host.Outcome State Fault Refusal :=
  issue (.sst s d a t p w) s (bSst d a t p w) st


/-- The operation of ATOM that SATOM's code names (R148). -/
def satomOp (o : Nat) : Nat :=
  match o with
  | 4 => 6
  | 5 => 7
  | 6 => 8
  | 7 => 9
  | _ => o

/-- SATOM (R148): one uniform atomic to global memory. -/
def bSatom (d : BitVec 7) (a : BitVec 7) (t : BitVec 4) (p : BitVec 2) (o : BitVec 3) : Body :=
  { reads := fun _ => (RegSet.ss a.toNat 2).or (RegSet.ss d.toNat 1), writes := fun _ => RegSet.ss d.toNat 1,
    touch := fun _ => uTouch a.toNat 4 true true,
    run := fun c _ s => uRecord c a.toNat t.toNat 4 true true false 0 (.atomS (satomOp o.toNat) (c.p.getS d.toNat) d.toNat) s }
/-- The meaning of SATOM. -/
def execSatom (s : BitVec 1) (d : BitVec 7) (a : BitVec 7) (t : BitVec 4) (p : BitVec 2) (o : BitVec 3) (st : State) : Host.Outcome State Fault Refusal :=
  issue (.satom s d a t p o) s (bSatom d a t p o) st


end Sys2Proof.Machine
end

