-- ==== Sys2Proof/Machine/Sync.lean ====
section
/-! DEFINITION. Barriers, waits on a word, and fences (R154–R168, R273). -/
namespace Sys2Proof.Machine
open Sys2Proof

/-! ## Barrier words (R155) -/

/-- The scratchpad address of a barrier instruction. -/
def barAddr (c : Ctx) (a : Nat) (i : BitVec 10) : DWord := (c.p.getS a).setWidth 64 + i.signExtend 64

/-- The checks every barrier instruction but BARINIT makes on its word: the address of a live word, or a fault. -/
def liveBar (c : Ctx) (a : Nat) (i : BitVec 10) : Except Flt Nat :=
  let x := barAddr c a i
  match addrCheck c .scratch x 4 with
  | some f => .error f
  | none => if (c.b.bar? x.toNat).isSome then .ok x.toNat else .error (flt cBARCLOB)

/-- A BARINIT that passes its checks (R155): the word's new value and, for a word that was not live, its tag. -/
def initBar (b : Block) (a : Nat) (exp : Nat) : Block :=
  let live := (b.bar? a).isSome
  let gen := if live then barGen (memWord b.scr a) else 0
  { b with scr := memWrite b.scr a (wordBytes (barWord gen 0 exp)),
           scrPois := b.scrPois.filter fun n => n != a / 4,
           bars := if live then b.bars else b.bars ++ [{ addr := a, arrived := [], waiters := [] }] }

/-- Is a write of a block, of a stream or of an engine path, still on its way to a scratchpad word (R160)? -/
def wordBusy (s : State) (k : Key) (a : Nat) : Bool :=
  (s.ms.queue.any fun q => q.key = k && q.space = .scratch && (match q.kind with
    | .store d => wordsMeet q.va.toNat d.length a 4
    | _ => false)) ||
  s.ms.paths.any fun w => match w.loc with
    | .scr j o => j = k && wordsMeet o w.data.length a 4
    | .hbm _ => false

/-- BARINIT (R155): makes a scratchpad word a live barrier or resets its EXP. A word that is not live becomes so only once no
write issued before is on its way to it: the stores to a live word are then those that issue later, which fault precisely
(R160, log 90). -/
def bBarinit (d : BitVec 7) (a : BitVec 7) (i : BitVec 10) : Body :=
  { reads := fun _ => (RegSet.ss a.toNat 1).or (RegSet.ss d.toNat 1), writes := fun _ => RegSet.none,
    run := fun c _ s =>
      let n := (c.p.getS d.toNat).toNat
      let x := barAddr c a.toNat i
      if 64 ≤ n then .whole (flt cILLOP)
      else
        match addrCheck c .scratch x 4 with
        | some f => .whole f
        | none =>
          if (c.b.bar? x.toNat).isSome && barArr (memWord c.b.scr x.toNat) != 0 then .whole (flt cBARCLOB)
          else if (c.b.bar? x.toNat).isNone && wordBusy s c.key x.toNat then c.hold (.word x.toNat) s
          else .done (c.modB s fun b => initBar b x.toNat n) [] .seq }
/-- The meaning of BARINIT. -/
def execBarinit (s : BitVec 1) (d : BitVec 7) (a : BitVec 7) (i : BitVec 10) (st : State) : Host.Outcome State Fault Refusal :=
  issue (.barinit s d a i) s (bBarinit d a i) st


/-- Are every access of the fragment's threads performed (R159, R273)? -/
def allPerformed (c : Ctx) (s : State) : Bool := streamEmpty s c.key c.who c.f.lanes fun _ => true

/-- Has the party arrived in this generation of a barrier, or do lanes of the fragment stand in its open record? -/
def alreadyArrived (c : Ctx) (s : State) (b : BarName) : Bool :=
  (match b with
   | .blk a => (match c.b.bar? a with
     | some x => x.arrived.contains c.who
     | none => false)
   | .gang n => (((s.gang c.l c.key).bars.getD n { gen := 0, arrived := [], waiters := [] }).arrived).contains (c.key, c.who)) ||
  (match c.p.arrive with
   | some r => r.bar = b && (r.lanes &&& c.f.lanes) != 0
   | none => false)

/-- The generation of a barrier. -/
def genOf (c : Ctx) (s : State) (b : BarName) : Nat :=
  match b with
  | .blk a => barGen (memWord c.b.scr a)
  | .gang n => ((s.gang c.l c.key).bars.getD n { gen := 0, arrived := [], waiters := [] }).gen

/-- An arriving instruction (R156): the fragment's lanes enter the warp's record; the warp, or the MCC, arrives when it
is complete. `bar` is a BAR or GBAR, which then waits; a BARA writes GEN and continues. Whether the warp has already arrived
at the word is looked at before its open record for another word: such an instruction is held, not ILLOP (DESIGN CHOICE,
log 89). -/
def arrive (c : Ctx) (b : BarName) (bar : Bool) (d : Nat) (s : State) : Res :=
  if alreadyArrived c s b then
    waitResults c s fun s =>
      let gen := genOf c s b
      let s := c.setFrag s fun f => { f with pend := RegSet.none, wait := match b with
        | .blk a => .barHeld a gen
        | .gang n => .gbarHeld n gen }
      .hold (addWaiter s c.l c.key b { key := c.key, who := c.who, lanes := c.f.lanes, gen := gen })
  else
    match recordArrival c.p b c.f.lanes with
    | none => .whole (flt cILLOP)
    | some r =>
      if !allPerformed c s then c.hold .performed s
      else
        let gen := genOf c s b
        let enter (s : State) : State :=
          let s := c.modP s fun p => { p with arrive := some r }
          if arrivalDone c.who c.p r then arriveNamed s c.l c.key c.who c.cl b else s
        if bar then
          waitResults c s fun s =>
            .taken (enter (c.waitNext s (match b with
              | .blk a => .bar a genOpen
              | .gang n => .gbar n genOpen)))
        else .done (enter (c.modP s fun p => p.setS d (BitVec.ofNat 32 gen))) [] .seq

/-- An arrival at a barrier word: the MCC must not arrive at a word whose EXP is 0 (R156). -/
def arriveWord (c : Ctx) (a : Nat) (i : BitVec 10) (bar : Bool) (d : Nat) (s : State) : Res :=
  match liveBar c a i with
  | .error f => .whole f
  | .ok x =>
    if c.who = .mcc && barExp (memWord c.b.scr x) == 0 then .whole (flt cBARCLOB) else arrive c (.blk x) bar d s

/-- BAR (R155): arrives at a block barrier and waits for its opening. -/
def bBar (a : BitVec 7) (i : BitVec 10) : Body :=
  { reads := fun _ => RegSet.ss a.toNat 1, writes := fun _ => RegSet.none,
    run := fun c _ s => arriveWord c a.toNat i true 0 s }
/-- The meaning of BAR. -/
def execBar (s : BitVec 1) (a : BitVec 7) (i : BitVec 10) (st : State) : Host.Outcome State Fault Refusal :=
  issue (.bar s a i) s (bBar a i) st

/-- BARA (R155): reads GEN and arrives at a block barrier without waiting. -/
def bBara (d : BitVec 7) (a : BitVec 7) (i : BitVec 10) : Body :=
  { reads := fun _ => RegSet.ss a.toNat 1, writes := fun _ => RegSet.ss d.toNat 1,
    run := fun c _ s => arriveWord c a.toNat i false d.toNat s }
/-- The meaning of BARA. -/
def execBara (s : BitVec 1) (d : BitVec 7) (a : BitVec 7) (i : BitVec 10) (st : State) : Host.Outcome State Fault Refusal :=
  issue (.bara s d a i) s (bBara d a i) st

/-- BARW (R155): waits until the barrier's GEN differs from a given value. -/
def bBarw (d : BitVec 7) (a : BitVec 7) (i : BitVec 10) : Body :=
  { reads := fun _ => (RegSet.ss a.toNat 1).or (RegSet.ss d.toNat 1), writes := fun _ => RegSet.none,
    run := fun c _ s =>
      match liveBar c a.toNat i with
      | .error f => .whole f
      | .ok x =>
        waitResults c s fun s =>
          let gen := barGen (memWord c.b.scr x)
          if gen != (c.p.getS d.toNat).toNat % 256 then .taken (c.passOn s)
          else
            .taken (addWaiter (c.waitNext s (.bar x gen)) c.l c.key (.blk x)
              { key := c.key, who := c.who, lanes := c.f.lanes, gen := gen }) }
/-- The meaning of BARW. -/
def execBarw (s : BitVec 1) (d : BitVec 7) (a : BitVec 7) (i : BitVec 10) (st : State) : Host.Outcome State Fault Refusal :=
  issue (.barw s d a i) s (bBarw d a i) st

/-- GBAR (R161): arrives at one of the gang's four barriers and waits. -/
def bGbar (n : BitVec 2) : Body :=
  { reads := fun _ => RegSet.none, writes := fun _ => RegSet.none,
    run := fun c _ s => arrive c (.gang n.toNat) true 0 s }
/-- The meaning of GBAR. -/
def execGbar (s : BitVec 1) (n : BitVec 2) (st : State) : Host.Outcome State Fault Refusal :=
  issue (.gbar s n) s (bGbar n) st


/-! ## WAITCMP (R162) -/

/-- The read a WAITCMP makes, as an access of stream st0 of every thread of the fragment (R265, R269). -/
def waitAccess (s : State) (c : Ctx) (pa : Option Nat) (w : CondWait) : Access :=
  { serial := s.ms.serial, key := c.key, who := c.who, lanes := c.f.lanes, stream := 0, pc := c.f.pc, space := .global,
    va := w.va, pa := pa, kind := .waitRead w, held := none, dbl := c.dbl }

/-- WAITCMP (R162): waits until a global word satisfies a comparison, registering in a monitor. -/
def bWaitcmp (d : BitVec 7) (a : BitVec 7) (b : BitVec 7) (c : BitVec 3) : Body :=
  { reads := fun k => (RegSet.ss a.toNat 2).or (k.useSB b.toNat), writes := fun _ => RegSet.ss d.toNat 1,
    run := fun k _ s =>
      waitResults k s fun s =>
        let va := k.p.getSD a.toNat + k.off
        match checkOne k .global va 4 true false false s with
        | (s, .error f) => .faulted f s
        | (s, .ok pa) =>
          let w : CondWait := { cond := c.toNat, d := d.toNat, b := k.opSB b.toNat, va := va, gap := 0 }
          .taken (State.bump (enqueue (k.waitHere s (.condRead w)) [waitAccess s k pa w])) }
/-- The meaning of WAITCMP. -/
def execWaitcmp (s : BitVec 1) (d : BitVec 7) (a : BitVec 7) (b : BitVec 7) (c : BitVec 3) (st : State) : Host.Outcome State Fault Refusal :=
  issue (.waitcmp s d a b c) s (bWaitcmp d a b c) st


/-! ## Fences (R165–R168, R273–R276) -/

/-- Are the stream sides of a fence done for a set of threads: their queues empty, their REDs merged and flushed (R273)? -/
def streamsClear (s : State) (k : Key) (who : Who) (lanes : Lanes) (st : Nat → Bool) : Bool :=
  streamEmpty s k who lanes st && redsDone s k who lanes st

/-- Are the stream sides of a fence of the issuing fragment done? -/
def streamsDone (c : Ctx) (s : State) (st : Nat → Bool) : Bool := streamsClear s c.key c.who c.f.lanes st

/-- Has the fragment observed a path write (R168, R196, R210)? -/
def observedWrite (p : Party) (lanes : Lanes) (w : PathWrite) : Bool :=
  p.obs.any fun o => o.op = w.op && (o.lanes &&& lanes) != 0 && (match o.below with
    | none => true
    | some n => decide (w.pos < n))

/-- Is a path drained of the entries a set of threads has observed (R273, R274)? -/
def pathClear (s : State) (k : Key) (who : Who) (p : Party) (lanes : Lanes) (path : Path) : Bool :=
  if path = .mr then !(s.ms.redm.any fun r => r.key = k && r.who = who && lanes.getLsbD r.lane)
  else !(s.ms.paths.any fun w => w.path = path && w.key = k && observedWrite p lanes w)

/-- Is a path side of a fence of the issuing fragment drained? -/
def pathDone (c : Ctx) (s : State) (p : Path) : Bool := pathClear s c.key c.who c.p c.f.lanes p

/-- Have all host writes been imported that come before a host write of a list (R276)? -/
def importedBefore (s : State) (ids : List Nat) : Bool :=
  ids.all fun id =>
    match s.ms.hostw.find? fun v => v.id = id with
    | none => true
    | some v => v.before.all fun n => s.ms.hostw.all fun u => u.id != n || u.done

/-- Is an acquire of a set of threads done: their accesses of the streams that read have performed, and the host writes that
come before a host write one of them has read are imported (R276)? -/
def acquireClear (s : State) (k : Key) (who : Who) (lanes : Lanes) (st : Nat → Bool) : Bool :=
  !(s.ms.queue.any fun a => a.key = k && a.who = who && (a.lanes &&& lanes) != 0 && st a.stream && a.kind.rw.1) &&
    importedBefore s ((s.ms.seen.filter fun e => e.key = k && e.who = who && (e.lanes &&& lanes) != 0 && st e.stream).map
      fun e => e.id)

/-- Is an acquire of the issuing fragment done? -/
def acquireDone (c : Ctx) (s : State) (st : Nat → Bool) : Bool := acquireClear s c.key c.who c.f.lanes st

/-- The streams of a set as bits. -/
def streamBits (st : Nat → Bool) : BitVec 16 :=
  (List.range 16).foldl (fun m n => if st n then m ||| (1#16 <<< n) else m) 0

/-- Is what holds an instruction over? -/
def holdOver (s : State) (k : Key) (who : Who) (p : Party) (f : Frag) : Hold → Bool
  | .results => !resultsOut s k who f
  | .coming r => !r.meets (comingRegs s k who f.lanes)
  | .performed => streamEmpty s k who f.lanes fun _ => true
  | .fence rel acq paths ws =>
    (ws.isEmpty || !resultsOut s k who f) && streamsClear s k who f.lanes (fun n => rel.getLsbD n) && (acq == 0 || acquireClear s k who f.lanes fun n => acq.getLsbD n) &&
      paths.all fun x => pathClear s k who p f.lanes x
  | .array => (match s.block? k with
    | some b => b.flights.isEmpty
    | none => true)
  | .word a => !wordBusy s k a
  | .ticket _ => true

/-- The sides of a `.sy` release on which a device write of its threads lies, before the release or after it: the stream, or
none for a path, and the threads (R274, R276). An operation counts before it when the threads have observed it; an element of an
operation of theirs counts after it when it has run since. -/
def SyMark.sides (m : SyMark) (v : XWrite) (after : Bool) : List (Option Nat × Lanes) :=
  let mine (k : Key) (who : Who) (l : Lanes) : Bool := k = m.key && who = m.who && (l &&& m.lanes) != 0
  let side (n : Nat) : Bool := if after then decide (m.serial < n) else decide (n ≤ m.serial)
  (match v.stream with
   | some n =>
     if v.reds.isEmpty && mine v.key v.who v.lanes && m.streams.getLsbD n && side v.serial then [(some n, v.lanes &&& m.lanes)]
     else []
   | none => []) ++
  (v.reds.filterMap fun r =>
    if mine r.key r.who (laneBit r.lane) && m.streams.getLsbD r.stream && side r.serial then some (some r.stream, laneBit r.lane)
    else none) ++
  (match v.path with
   | some p =>
     if !m.paths.contains p then []
     else if p = .mr || after then
       (if mine v.key v.who v.lanes && side v.serial then [(none, v.lanes &&& m.lanes)] else [])
     else if v.key = m.key && m.obs.contains v.op then [(none, m.lanes)] else []
   | none => [])

/-- Does a `.sy` release order one device write before another (R276): writes of one thread, of one stream for a FENCE? -/
def SyMark.orders (m : SyMark) (v w : XWrite) : Bool :=
  (m.sides v false).any fun x => (m.sides w true).any fun y => (x.2 &&& y.2) != 0 && (!m.each || x.1 == y.1)

/-- Does a `.sy` release come after a device write that it orders? -/
def SyMark.first (m : SyMark) (v : XWrite) : Bool := !(m.sides v false).isEmpty

/-- A `.sy` release enters the export set behind the writes it orders (R276); with none there it orders nothing. `each` says
that it orders every stream by itself, as a FENCE does (R166). -/
def addMark (c : Ctx) (s : State) (st : Nat → Bool) (each : Bool) (paths : List Path) : State :=
  let m : SyMark :=
    { serial := s.ms.serial, key := c.key, who := c.who, lanes := c.f.lanes, streams := streamBits st, each := each, paths := paths,
      obs := (c.p.obs.filter fun o => (o.lanes &&& c.f.lanes) != 0).map fun o => o.op }
  if s.ms.exports.any fun e => match e with
      | .write v => m.first v
      | .mark _ => false
    then State.bump (s.modMs fun ms => { ms with exports := ms.exports ++ [.mark m] })
  else s

/-- Have the writes before a party's releases been exported? -/
def released (s : State) (k : Key) (who : Who) (lanes : Lanes) : Bool :=
  !(s.ms.exports.any fun e => match e with
    | .mark m => m.key = k && m.who = who && (m.lanes &&& lanes) != 0
    | .write _ => false)

/-- The streams a FENCE names. -/
def fenceStreams (l : BitVec 1) (t : BitVec 4) (n : Nat) : Bool := l == 1 || n == t.toNat

/-- Is a fence below scope `.sy` passed over in this run, as though the program did not hold it? Such a run is one only for
observers outside the fence's scope (R275, log 91; `RunFor` in Safety.lean says for whom a run is one). -/
def fencePassed (s : State) (sc : BitVec 3) : Bool := s.late && sc != 4

/-- FENCE (R166): orders the thread's accesses within named streams at a scope. -/
def bFence (k : BitVec 2) (sc : BitVec 3) (l : BitVec 1) (t : BitVec 4) : Body :=
  plain fun c s =>
    let st := fenceStreams l t
    let rel := k == 2 || k == 3
    let acq := (k == 1 || k == 3) && sc == 4
    if fencePassed s sc || ((!rel || streamsDone c s st) && (!acq || acquireDone c s st)) then
      .done (if rel && sc == 4 then addMark c s st true [] else s) [] .seq
    else c.hold (.fence (if rel then streamBits st else 0) (if acq then streamBits st else 0) [] []) s
/-- The meaning of FENCE. -/
def execFence (s : BitVec 1) (k : BitVec 2) (sc : BitVec 3) (l : BitVec 1) (t : BitVec 4) (st : State) : Host.Outcome State Fault Refusal :=
  issue (.fence s k sc l t) s (bFence k sc l t) st


/-- The path of a side code 0x10 to 0x15 (R167). -/
def pathOf (n : Nat) : Option Path :=
  match n with
  | 16 => some .cp
  | 17 => some .gt
  | 18 => some .sl
  | 19 => some .mx
  | 20 => some .cl
  | 21 => some .mr
  | _ => none

/-- Is one side of an XFENCE done (R273)? -/
def sideDone (c : Ctx) (s : State) (n : Nat) : Bool :=
  match pathOf n with
  | some p => pathDone c s p
  | none => streamsDone c s fun m => m == n

/-- XFENCE (R168): orders accesses between two streams or paths at a scope. -/
def bXfence (sc : BitVec 3) (x : BitVec 5) (y : BitVec 5) : Body :=
  plain fun c s =>
    let n := x.toNat
    let m := y.toNat
    let st (t : Nat) : Bool := t == n || t == m
    if fencePassed s sc || (sideDone c s n && sideDone c s m) then
      .done (if sc == 4 then addMark c s st false ([n, m].filterMap pathOf) else s) [] .seq
    else c.hold (.fence (streamBits st) 0 ([n, m].filterMap pathOf) []) s
/-- The meaning of XFENCE. -/
def execXfence (s : BitVec 1) (sc : BitVec 3) (x : BitVec 5) (y : BitVec 5) (st : State) : Host.Outcome State Fault Refusal :=
  issue (.xfence s sc x y) s (bXfence sc x y) st


end Sys2Proof.Machine
end

