-- ==== Sys2Proof/Machine/Macros.lean ====
section
/-! DEFINITION. What the macro-instructions share: charges and their FIFO (R356–R359), starting, stopping and completing a
macro with its progress state (R37–R42), the watch on an element (R341). -/
namespace Sys2Proof.Machine
open Sys2Proof

/-! ## Charges (R356–R359) -/

/-- The rank of a charge among those of one fabric cycle (R358). -/
def Charger.rank : Charger → Nat
  | .mcc _ => 0
  | .chan ch _ => 1 + ch
  | .gather _ => 9
  | .select _ => 10
  | .coll ch _ => 11 + ch

/-- Insert a charge behind those of earlier cycles and those of its cycle whose rank is not higher (R358). -/
def insertCharge (x : Charge) : List Charge → List Charge
  | [] => [x]
  | c :: r => if c.at_ = x.at_ && x.who.rank < c.who.rank then x :: c :: r else c :: insertCharge x r

/-- Is the block of a fragment that asks for a charge halted for a save (R328)? Its macro then stops at this element. -/
def chargerHalted (s : State) (w : Charger) : Bool :=
  let h (k : Key) : Bool := match s.block? k with
    | some b => b.halted
    | none => false
  match w with
  | .mcc k => h k
  | .gather r => h r.key
  | .select r => h r.key
  | _ => false

/-- Ask for a charge: it arrives in this fabric cycle, or in the next when a head of this cycle has been tried. -/
def askCharge (s : State) (cl : Nat) (who : Charger) (cost : Nat) : State :=
  if chargerHalted s who then s
  else s.modCluster cl fun c =>
    let t := if c.tried = some s.fcyc then s.fcyc + 1 else s.fcyc
    { c with charges := insertCharge { who := who, cost := cost, at_ := t } c.charges }

/-- Withdraw the charges of a charger (R359). -/
def dropCharge (s : State) (cl : Nat) (f : Charger → Bool) : State :=
  s.modCluster cl fun c => { c with charges := c.charges.filter fun x => !f x.who }

/-- The charge costs of R357 that are not the array's. -/
def rowCost (bytes : Nat) : Nat := 4 * ((bytes + 63) / 64)
/-- An element of GTH or SCT. -/
def gatherCost : Nat := 8
/-- An element of SELQ or SELK. -/
def selectCost : Nat := 1
/-- A chunk of CLV. -/
def chunkCost : Nat := 4096

/-! ## Progress (R37–R42) -/

/-- A macro starts at phase 0, element 0 (R39); in the MCC the readers of the macro it displaces are dropped (R174). -/
def startMacro (c : Ctx) (cls : Nat) (x : DWord) (s : State) : State :=
  let s := if c.who = .mcc then c.modB s fun b => b.dropMacro c.f.handler else s
  c.setFrag s fun f => { f with prg := mkPrg cls 0 0, prgpc := c.f.pc.setWidth 64, prgx := x }

/-- Progress to a phase and an element. -/
def progress (c : Ctx) (cls phase elem : Nat) (s : State) : State :=
  c.setFrag s fun f => { f with prg := mkPrg cls phase elem }

/-- A macro completes (R39): PRG.V is cleared and the fragment goes on behind it. -/
def macroDone (c : Ctx) (m : MacroRun) (s : State) : State :=
  c.setFrag s fun f =>
    let g := { f with prg := clearV f.prg, pc := f.pc + 4, wait := .run }
    if m.swm then atMarker s c.key c.who g else g

/-- A macro stops for a fault at its element: PRG names it, the fragment is parked at the macro. -/
def macroFault (c : Ctx) (f : Flt) (s : State) : State :=
  let s := c.setFrag s fun f => { f with wait := .run }
  raise s c.key c.who c.i [(c.f.lanes, f)] 0 false c.f.pc

/-- A watch hit before an element of a macro (R341): the stop or the fault, PRG naming the element. -/
def elemWatch (c : Ctx) (elem : Nat) (ts : List Touch) (s : State) : Option State :=
  match watchHit s c.key.part c.ref ts with
  | none => none
  | some (u, a) =>
    if dbgArm s c.key.part then some (stopParty s c.l c.key c.who c.i c.f c.cl cWATCH elem a 0 2 u)
    else some (macroFault c { fltAt cWATCH elem with addr := BitVec.ofNat 64 a } s)

/-- The element at which a macro of a class issues: PRG.ELEM when it resumes, else 0 (R39). -/
def resumeElem (cls : Nat) (c : Ctx) : Nat := if resumes c.f cls c.f.pc then prgElem c.f.prg else 0

/-- The fault of a progress state that lies beyond what the operands allow (R42). -/
def badProgress (f : Frag) : Flt := fltAt cILLOP (prgElem f.prg)

/-- The fragment waits for the charge of its next element; when its block is halted for a save it stops here, at the element
boundary (R39, R328). -/
def waitCharge (c : Ctx) (m : MacroRun) (who : Charger) (cost : Nat) (s : State) : State :=
  if chargerHalted s who then c.waitHere s .run else askCharge (c.waitHere s (.charge m)) c.cl who cost

end Sys2Proof.Machine
end

