-- ==== Sys2Proof/Machine/Matrix.lean ====
section
/-! DEFINITION. Tiles, accumulators, products and accumulator operations of the MCC, and the warps' TFILL and ADRAIN
(R169–R193). -/
namespace Sys2Proof.Machine
open Sys2Proof

/-! ## Shape records (R171, R172) -/

/-- ELEM of a shape record. -/
def shElem (w0 : Word) : Nat := bitsAt w0.toNat 28 4
/-- LAY. -/
def shLay (w0 : Word) : Nat := bitsAt w0.toNat 27 1
/-- Rows. -/
def shRows (w0 : Word) : Nat := bitsAt w0.toNat 20 6 + 1
/-- Elements per row. -/
def shKlen (w0 : Word) : Nat := bitsAt w0.toNat 11 9 + 1
/-- Element stride. -/
def shStr (w0 : Word) : Nat := bitsAt w0.toNat 9 2 + 1
/-- ORG. -/
def shOrg (w1 : Word) : Nat := bitsAt w1.toNat 16 16
/-- RSTR. -/
def shRstr (w1 : Word) : Nat := bitsAt w1.toNat 0 16
/-- SBASE. -/
def shSbase (w2 : Word) : Nat := bitsAt w2.toNat 16 16
/-- SRSTR. -/
def shSrstr (w2 : Word) : Nat := bitsAt w2.toNat 0 16

/-- Is a shape record valid (R172)? -/
def shapeOk (w0 w1 w3 : Word) : Bool :=
  let sz := elemBits (shElem w0)
  let emax := shOrg w1 + (shRows w0 - 1) * shRstr w1 + (shKlen w0 - 1) * shStr w0
  bitsAt w0.toNat 26 1 == 0 && bitsAt w0.toNat 0 9 == 0 && bitsAt w3.toNat 13 19 == 0 && decide (shElem w0 ≤ 7) &&
    (shLay w0 == 0 || shElem w0 == 4 || shElem w0 == 6) && decide (1 ≤ bitsAt w3.toNat 0 13) &&
    decide (bitsAt w3.toNat 0 13 ≤ 4096) && decide ((emax + 1) * sz ≤ 131072)

/-- The four words of an operand block. -/
def Ctx.word (c : Ctx) (a n : Nat) : Word := c.p.getS (a + n)

/-- TCFG (R172): writes an EMPTY tile's shape record and clears its fill count. -/
def bTcfg (t : BitVec 3) (a : BitVec 7) : Body :=
  { reads := fun _ => RegSet.ss a.toNat 4, writes := fun _ => RegSet.none,
    run := fun c _ s =>
      let w := c.word a.toNat
      if (c.b.tile t.toNat).st != .empty then .whole (flt cTILESTATE)
      else if !shapeOk (w 0) (w 1) (w 3) then .whole (flt cTILESHAPE)
      else .done (c.modB s fun b => b.modTile t.toNat fun x =>
        { x with w0 := w 0, w1 := w 1, w2 := w 2, w3 := w 3, count := 0 }) [] .seq }
/-- The meaning of TCFG. -/
def execTcfg (s : BitVec 1) (t : BitVec 3) (a : BitVec 7) (st : State) : Host.Outcome State Fault Refusal :=
  issue (.tcfg s t a) s (bTcfg t a) st


/-- The element index of row i, element k (R172). -/
def tileIndex (t : Tile) (i k : Nat) : Nat := shOrg t.w1 + i * shRstr t.w1 + k * shStr t.w0
/-- The bit at which an element begins. -/
def tileBit (t : Tile) (i k : Nat) : Nat :=
  let e := tileIndex t i k
  let sz := elemBits (shElem t.w0)
  if sz = 4 && shLay t.w0 = 1 then
    let p := e % 8
    e / 8 * 32 + 4 * (if p % 2 = 0 then p / 2 else 4 + (p - 1) / 2)
  else e * sz
/-- TElem: the value of an element (R172). -/
def tElem (t : Tile) (i k : Nat) : FV :=
  let sz := elemBits (shElem t.w0)
  let b := tileBit t i k
  valElem (shElem t.w0) (bitsAt (memWord t.data (b / 32 * 4)).toNat (b % 32) sz)

/-! ## TFILL (R175) -/

/-- Lanes of a TFILL whose index faults, and why. -/
def fillBad (c : Ctx) (m : Lanes) (idx : Nat → Nat) (n : Nat) : List (Nat × Flt) :=
  (laneList m).filterMap fun L =>
    if idx L % n != 0 then some (L, flt cMISALN) else if 4096 < idx L + n then some (L, flt cTILESHAPE) else none

/-- Words of a count code 0, 1, 2. -/
def countOf (w : Nat) : Nat := 2 ^ w

/-- The counted writes of a TFILL at its tile, in one step (R175). -/
def tileFill (t : Tile) (ws : List (Nat × List Word)) (n : Nat) : Tile :=
  let data := ws.foldl (fun d w => memWrite d (4 * w.1) (w.2.flatMap wordBytes)) t.data
  let cnt := t.count + n * ws.length
  { t with data := data, count := cnt, st := if cnt = t.fillw then .full else .filling,
           pois := t.pois.filter fun x => !(ws.any fun w => decide (w.1 ≤ x) && decide (x < w.1 + n)) }

/-- A TFILL waits for its tile (R173); lanes with a bad index fault at once. It issues again, and has issued only where a lane faulted
(log 86). -/
def fillWaits (c : Ctx) (bad : List (Nat × Flt)) (t : Nat) (s : State) : Res :=
  if bad.isEmpty then .hold (c.waitHere s (.tile t)) else .taken (c.waitHere (raiseLanes c bad s) (.tile t))

/-- TFILL (R175): writes counted words from lanes into a tile under its fill state. -/
def bTfill (g : BitVec 2) (k : BitVec 3) (a : BitVec 6) (b : BitVec 6) (u : BitVec 1) (w : BitVec 2) : Body :=
  let n := countOf w.toNat
  let t := k.toNat
  { reads := fun c => (RegSet.vs a.toNat n).or (if u == 1 then RegSet.ss b.toNat 1 else c.useB b.toNat false),
    writes := fun _ => RegSet.none, guard := g.toNat, perLane := true,
    run := fun c m s =>
      let idx (L : Nat) : Nat := (c.opB b.toNat (u == 1) L).toNat
      if c.b.mcc.isNone then .whole (flt cTILESTATE)
      else
        let bad := fillBad c m idx n
        let ws := (laneList m).filter fun L => !(bad.any fun e => e.1 == L)
        let x := c.b.tile t
        let whole (f : Flt) : Res := .done s (bad ++ ws.map fun L => (L, f)) .seq
        if ws.isEmpty then .done s bad .seq
        else
          match x.st with
          | .loading => whole (flt cTILESTATE)
          | .full => fillWaits c bad t s
          | .busy => fillWaits c bad t s
          | _ =>
            if x.fillw < x.count + tileComing c.b t + n * ws.length then whole (flt cTILESTATE)
            else
              let data := ws.map fun L => (idx L, (List.range n).map fun i => c.p.getV (a.toNat + i) L)
              .done (c.modB s fun b => b.modTile t fun x => tileFill x data n) bad .seq }
/-- The meaning of TFILL. -/
def execTfill (s : BitVec 1) (g : BitVec 2) (k : BitVec 3) (a : BitVec 6) (b : BitVec 6) (u : BitVec 1) (w : BitVec 2) (st : State) : Host.Outcome State Fault Refusal :=
  issue (.tfill s g k a b u w) s (bTfill g k a b u w) st


/-! ## The accumulator store (R176–R179) -/

/-- Hold an accumulator, every element +0. -/
def holdAcc (c : Ctx) (d n : Nat) (s : State) : Res :=
  .done (c.modP (c.modB s fun b => { b with accs := tabSet b.accs n { data := [], pois := [] } })
    fun p => p.setS d (BitVec.ofNat 32 n)) [] .seq

/-- AALLOC_N (R177): holds and zeroes the named accumulator. -/
def bAallocN (d : BitVec 7) (n : BitVec 7) : Body :=
  { reads := fun _ => RegSet.none, writes := fun _ => RegSet.ss d.toNat 1,
    run := fun c _ s =>
      if c.b.mcc.isNone || c.b.held n.toNat then .whole (flt cTILESTATE)
      else if c.l.lr.acc ≤ c.b.accs.length then .whole (flt cACCOVER)
      else holdAcc c d.toNat n.toNat s }
/-- The meaning of AALLOC_N. -/
def execAallocN (s : BitVec 1) (d : BitVec 7) (n : BitVec 7) (st : State) : Host.Outcome State Fault Refusal :=
  issue (.aallocN s d n) s (bAallocN d n) st

/-- AALLOC (R177): holds and zeroes the lowest-numbered free accumulator. -/
def bAalloc (d : BitVec 7) : Body :=
  { reads := fun _ => RegSet.none, writes := fun _ => RegSet.ss d.toNat 1,
    run := fun c _ s =>
      if c.b.mcc.isNone then .whole (flt cTILESTATE)
      else if c.l.lr.acc ≤ c.b.accs.length then .whole (flt cACCOVER)
      else
        match (List.range 128).find? fun n => !c.b.held n with
        | some n => holdAcc c d.toNat n s
        | none => .whole (flt cACCOVER) }
/-- The meaning of AALLOC. -/
def execAalloc (s : BitVec 1) (d : BitVec 7) (st : State) : Host.Outcome State Fault Refusal :=
  issue (.aalloc s d) s (bAalloc d) st

/-- The values of a row or column of an accumulator. -/
def accLine (a : Accum) (rows : Bool) (n : Nat) : List Word :=
  (List.range 64).map fun k => a.elem (if rows then 64 * n + k else 64 * k + n)

/-- The operations of MRED (R190). -/
def mredOp (op : Nat) (x y : Word) : Word :=
  match op with
  | 0 => addF32rne x y
  | 1 => rneF32 (maxV (vF32 x) (vF32 y))
  | _ => rneF32 (minV (vF32 x) (vF32 y))

/-- The values an MRED writes (R190). -/
def mredVals (a : Accum) (rows : Bool) (op : Nat) : List Word :=
  (List.range 64).map fun n => (tree (mredOp op) 6 ((accLine a rows n).map some)).getD 0

/-- An accumulator is freed. An MRED issued before that still reads it keeps its values, which no operation in flight changes
(R178). -/
def freeAcc (b : Block) (n : Nat) : Block :=
  { b with
    accs := tabDel b.accs n,
    flights := b.flights.map fun f => match f with
      | .reduce rows op d a => if a = n then .reduced rows d (mredVals (b.acc n) rows op) else f
      | f => f }

/-- AFREE (R177): frees an accumulator once its outstanding count is zero. That count is of writes: AFREE does not wait for an
MRED that still has to read the accumulator (DESIGN CHOICE, log 95). -/
def bAfree (a : BitVec 7) : Body :=
  { reads := fun _ => RegSet.ss a.toNat 1, writes := fun _ => RegSet.none,
    run := fun c _ s =>
      let n := (c.p.getS a.toNat).toNat
      if c.b.mcc.isNone || 128 ≤ n || !c.b.held n then .whole (flt cTILESTATE)
      else if c.b.outstanding n then .hold (c.waitHere s (.drain n))
      else .done (c.modB s fun b => freeAcc b n) [] .seq }
/-- The meaning of AFREE. -/
def execAfree (s : BitVec 1) (a : BitVec 7) (st : State) : Host.Outcome State Fault Refusal :=
  issue (.afree s a) s (bAfree a) st

/-- ADRAIN (R179): reads accumulator elements into lanes once the accumulator's count is zero. -/
def bAdrain (g : BitVec 2) (d : BitVec 6) (a : BitVec 6) (b : BitVec 6) (w : BitVec 2) : Body :=
  let n := countOf w.toNat
  { reads := fun _ => (RegSet.vs a.toNat 1).or (RegSet.ss b.toNat 1), writes := fun _ => RegSet.vs d.toNat n,
    guard := g.toNat, perLane := true,
    run := fun c m s =>
      let k := (c.p.getS b.toNat).toNat
      if c.b.mcc.isNone || 128 ≤ k || !c.b.held k then .whole (flt cTILESTATE)
      else if c.b.outstanding k then .hold (c.waitHere s (.drain k))
      else
        let acc := c.b.acc k
        let e (L : Nat) : Nat := (c.p.getV a.toNat L).toNat
        let bad := (laneList m).filterMap fun L =>
          if e L % n != 0 then some (L, flt cMISALN)
          else if 4096 < e L + n then some (L, flt cTILESHAPE)
          else if acc.pois.any fun x => decide (e L ≤ x) && decide (x < e L + n) then some (L, flt cPOISON) else none
        let ok := m &&& ~~~(lanesOf fun L => bad.any fun x => x.1 == L)
        .done (c.modP s fun p => (List.range n).foldl (fun p i =>
          p.setV (d.toNat + i) ok fun L => acc.elem (e L + i)) p) bad .seq }
/-- The meaning of ADRAIN. -/
def execAdrain (s : BitVec 1) (g : BitVec 2) (d : BitVec 6) (a : BitVec 6) (b : BitVec 6) (w : BitVec 2) (st : State) : Host.Outcome State Fault Refusal :=
  issue (.adrain s g d a b w) s (bAdrain g d a b w) st


/-! ## Accumulator operations (R189–R191) -/

/-- Array work enters the flights, in issue order (R178). -/
def fly (c : Ctx) (f : Flight) (s : State) : State := c.modB s fun b => { b with flights := b.flights ++ [f] }

/-- Does array work write element e of accumulator n? -/
def Flight.covers (f : Flight) (n e : Nat) : Bool :=
  match f with
  | .group a m k _ _ _ _ => a = n && decide (e / 64 < m) && decide (e % 64 < k)
  | .zero a => a = n
  | .scale a _ => a = n
  | .reduce rows _ d _ => d = n && (if rows then e % 64 == 0 else decide (e < 64))
  | .reduced rows d _ => d = n && (if rows then e % 64 == 0 else decide (e < 64))

/-- Does an operation read poisoned elements of an accumulator that no operation in flight overwrites before it (R178,
R325)? -/
def accPoisoned (b : Block) (n : Nat) (f : Nat → Bool) : Bool :=
  (b.acc n).pois.any fun e => f e && !(b.flights.any fun x => x.covers n e)

/-- AZERO (R189): sets every element of an accumulator to +0. -/
def bAzero (d : BitVec 7) : Body :=
  plain fun c s => if c.b.held d.toNat then .done (fly c (.zero d.toNat) s) [] .seq else .whole (flt cTILESTATE)
/-- The meaning of AZERO. -/
def execAzero (s : BitVec 1) (d : BitVec 7) (st : State) : Host.Outcome State Fault Refusal :=
  issue (.azero s d) s (bAzero d) st

/-- ASCALE (R189): multiplies every accumulator element by a uniform value. -/
def bAscale (d : BitVec 7) (a : BitVec 7) : Body :=
  { reads := fun _ => RegSet.ss a.toNat 1, writes := fun _ => RegSet.none,
    run := fun c _ s =>
      if !c.b.held d.toNat then .whole (flt cTILESTATE)
      else if accPoisoned c.b d.toNat fun _ => true then .whole (flt cPOISON)
      else .done (fly c (.scale d.toNat (c.p.getS a.toNat)) s) [] .seq }
/-- The meaning of ASCALE. -/
def execAscale (s : BitVec 1) (d : BitVec 7) (a : BitVec 7) (st : State) : Host.Outcome State Fault Refusal :=
  issue (.ascale s d a) s (bAscale d a) st

/-- MRED (R190): reduces the rows or columns of an accumulator into another. -/
def bMred (d : BitVec 7) (a : BitVec 7) (o : BitVec 7) (c : BitVec 1) : Body :=
  plain fun k s =>
    if !(k.b.held d.toNat && k.b.held a.toNat) then .whole (flt cTILESTATE)
    else if accPoisoned k.b a.toNat fun _ => true then .whole (flt cPOISON)
    else .done (fly k (.reduce (c == 0) o.toNat d.toNat a.toNat) s) [] .seq
/-- The meaning of MRED. -/
def execMred (s : BitVec 1) (d : BitVec 7) (a : BitVec 7) (o : BitVec 7) (c : BitVec 1) (st : State) : Host.Outcome State Fault Refusal :=
  issue (.mred s d a o c) s (bMred d a o c) st

/-- MSYNC (R191): holds the MCC until its accumulator operations have performed their last writes. -/
def bMsync : Body := plain fun c s => if c.b.flights.isEmpty then .done s [] .seq else c.hold .array s
/-- The meaning of MSYNC. -/
def execMsync (s : BitVec 1) (st : State) : Host.Outcome State Fault Refusal :=
  issue (.msync s) s bMsync st


/-! ## Releasing, loading and storing tiles (R173, R180, R181) -/

/-- TREL (R181): releases a tile, emptying it or marking release pending. -/
def bTrel (t : BitVec 3) : Body :=
  plain fun c s =>
    match tileRelease (c.b.tile t.toNat) with
    | none => .whole (flt cTILESTATE)
    | some x => .done (c.modB s fun b => b.modTile t.toNat fun _ => x) [] .seq
/-- The meaning of TREL. -/
def execTrel (s : BitVec 1) (t : BitVec 3) (st : State) : Host.Outcome State Fault Refusal :=
  issue (.trel s t) s (bTrel t) st


/-- The operand block of TLD and TST: base, pitch, bytes per row, rows, stream (R180). -/
def rowBase (w : List Word) : DWord := (w.getD 1 0 ++ w.getD 0 0).setWidth 64
/-- Bytes per row. -/
def rowBytes (w : List Word) : Nat := (w.getD 3 0).toNat
/-- Rows. -/
def rowCount (w : List Word) : Nat := (w.getD 4 0).toNat
/-- The address of a row. -/
def rowAddr (w : List Word) (r : Nat) : DWord := rowBase w + BitVec.ofInt 64 ((w.getD 2 0).toInt * r)
/-- The stream. -/
def rowStream (w : List Word) : Nat := (w.getD 5 0).toNat % 16
/-- Is the operand block valid? -/
def rowsOk (w : List Word) : Bool :=
  decide (rowBytes w ≤ 16384) && rowBytes w % 4 == 0 && decide (4 ≤ rowBytes w) && decide (1 ≤ rowCount w) &&
    decide (rowCount w ≤ 4096) && decide ((w.getD 5 0).toNat < 64) && decide (rowBytes w * rowCount w ≤ 16384)

/-- What a watchpoint sees of a row (R341). -/
def rowTouch (ld : Bool) (w : List Word) (r : Nat) : List Touch :=
  [{ lane := 0, addr := (rowAddr w r).toNat, len := rowBytes w, rd := ld, wr := !ld }]

/-- The next row waits for its charge, unless a watch hit stops the macro before it. -/
def nextRow (c : Ctx) (m : MacroRun) (r : Nat) (s : State) : State :=
  match elemWatch c r (rowTouch (m.cls == clTLD) m.words r) s with
  | some t => t
  | none => waitCharge c m (.mcc c.key) (rowCost (rowBytes m.words)) s

/-- The operand block of six words as read at issue. -/
def block (c : Ctx) (a n : Nat) : List Word := (List.range n).map fun i => c.p.getS (a + i)

/-- TLD and TST (R180): the checks, the tile (R173), and the first row's charge. A TLD that software's PRG resumes at a tile
that is not LOADING raises TILESTATE (DESIGN CHOICE, log 96). -/
def rowsBody (ld : Bool) (t : Nat) (a : Nat) : Body :=
  let cls := if ld then clTLD else clTST
  { reads := fun _ => RegSet.ss a 6, writes := fun _ => RegSet.none,
    touch := fun _ c _ =>
      rowTouch ld (block c a 6) (if resumes c.f cls c.f.pc then prgElem c.f.prg else 0),
    elem := resumeElem cls,
    run := fun c _ s =>
      let w := block c a 6
      let m : MacroRun := { cls := cls, op := 0, d := t, a := a, words := w, mask := 0, redo := 0, swm := c.sw }
      let go (s : State) (r : Nat) : Res := .taken (waitCharge c m (.mcc c.key) (rowCost (rowBytes w)) s)
      let st := (c.b.tile t).st
      if !rowsOk w then .whole (flt cTILESHAPE)
      else if resumes c.f cls c.f.pc then
        if rowCount w ≤ prgElem c.f.prg || prgPhase c.f.prg != 0 then .whole (badProgress c.f)
        else if ld && st != .loading then .whole (fltAt cTILESTATE (prgElem c.f.prg))
        else go s (prgElem c.f.prg)
      else
        let start := startMacro c cls 0
        match ld, st with
        | true, .empty => go (c.modB (start s) fun b => b.modTile t fun x => { x with st := .loading }) 0
        | true, .filling => .whole (flt cTILESTATE)
        | true, .loading => .whole (flt cTILESTATE)
        | true, _ => .hold (c.waitHere s (.tile t))
        | false, .full => go (reader c (start s) [t]) 0
        | false, .busy => if (c.b.tile t).rel then .whole (flt cTILESTATE) else go (reader c (start s) [t]) 0
        | false, _ => .hold (c.waitHere s (.tile t)) }
where
  reader (c : Ctx) (s : State) (l : List Nat) : State :=
    c.modB s fun b =>
      { (distinct l).foldl (fun b t => b.modTile t tileRead) b with
        mmac := b.mmac ++ [{ handler := c.f.handler, tiles := l }] }

/-- TLD (R180): macro that loads tile rows from global memory, making the tile FULL. -/
def bTld (t : BitVec 3) (a : BitVec 7) : Body := rowsBody true t.toNat a.toNat
/-- The meaning of TLD. -/
def execTld (s : BitVec 1) (t : BitVec 3) (a : BitVec 7) (st : State) : Host.Outcome State Fault Refusal :=
  issue (.tld s t a) s (bTld t a) st

/-- TST (R180): macro that stores tile rows to global memory as a reader. -/
def bTst (t : BitVec 3) (a : BitVec 7) : Body := rowsBody false t.toNat a.toNat
/-- The meaning of TST. -/
def execTst (s : BitVec 1) (t : BitVec 3) (a : BitVec 7) (st : State) : Host.Outcome State Fault Refusal :=
  issue (.tst s t a) s (bTst t a) st


/-! ## Products (R182–R188) -/

/-- K-group size of an element code (R182). -/
def groupSize (code : Nat) : Nat :=
  match code with
  | 0 => 16
  | 1 => 16
  | 4 => 64
  | 6 => 64
  | 7 => 8
  | _ => 32

/-- A product as issued: tiles, slot (MMAQ), modifiers. -/
def mmaTA (m : MacroRun) : Nat := (m.words.getD 0 0).toNat
/-- Tile B. -/
def mmaTB (m : MacroRun) : Nat := (m.words.getD 1 0).toNat
/-- The slot word of an MMAQ. -/
def mmaSlot (c : Ctx) (m : MacroRun) : Option DWord :=
  if m.cls == clMMAQ then some (slotOf c.l (m.words.getD 2 0).toNat) else none
/-- Z. -/
def mmaZ (m : MacroRun) : Bool := m.words.getD 3 0 == 1
/-- NA. -/
def mmaNA (m : MacroRun) : Bool := m.words.getD 4 0 == 1
/-- Redundant execution. -/
def mmaDup (m : MacroRun) : Bool := m.words.getD 5 0 == 1

/-- SCALE of a slot. -/
def slotScale (x : DWord) : Nat := bitsAt x.toNat 4 2
/-- GROUP of a slot, in elements. -/
def slotGroup (x : DWord) : Nat := 16 * 2 ^ bitsAt x.toNat 6 2
/-- Bytes of a scale. -/
def scaleBytes (x : DWord) : Nat := if slotScale x = 3 then 1 else 2
/-- The byte of a scale in its tile (R184). -/
def scaleAt (t : Tile) (x : DWord) (i k : Nat) : Nat :=
  shSbase t.w2 + (i * shSrstr t.w2 + k / slotGroup x) * scaleBytes x
/-- Scl (R184). -/
def scl (t : Tile) (slot : Option DWord) (i k : Nat) : FV :=
  match slot with
  | none => oneV
  | some x =>
    if slotScale x = 0 then oneV
    else
      let v := leNat (memRead t.data (scaleAt t x i k) (scaleBytes x))
      if slotScale x = 1 then valOf fBF16 v else if slotScale x = 2 then valOf fF16 v else valE8 v
/-- Do a tile's scale addresses lie in the tile, on whole scales (R183)? -/
def scalesOk (t : Tile) (x : DWord) : Bool :=
  slotScale x == 0 ||
    (decide (scaleAt t x (shRows t.w0 - 1) (shKlen t.w0 - 1) + scaleBytes x ≤ 16384) &&
      (scaleBytes x == 1 || shSbase t.w2 % 2 == 0))

/-- Checks 2 and 3 of R183. -/
def mmaShapes (ta tb : Tile) (slot : Option DWord) : Bool :=
  shElem ta.w0 == shElem tb.w0 && shKlen ta.w0 == shKlen tb.w0 &&
    (match slot with
     | none => true
     | some x => slotElem x == shElem ta.w0 && slotLayout x == shLay ta.w0 && slotLayout x == shLay tb.w0 &&
         scalesOk ta x && scalesOk tb x)

/-- Groups of a product (R182). -/
def mmaGroups (ta : Tile) : Nat := (shKlen ta.w0 + groupSize (shElem ta.w0) - 1) / groupSize (shElem ta.w0)
/-- Elements of a group: first and one past the last. -/
def groupSpan (ta : Tile) (grp : Nat) : Nat × Nat :=
  let g := groupSize (shElem ta.w0)
  (grp * g, min (shKlen ta.w0) (grp * g + g))
/-- Array cycles of a group (R187). -/
def groupCycles (ta tb : Tile) (dup : Bool) : Nat :=
  let mn := shRows ta.w0 * shRows tb.w0
  let n := max 1 (if shElem ta.w0 = 7 then (mn + 127) / 128 else (mn + 255) / 256)
  if dup then 2 * n else n

/-- G of a group for element (i, j) (R184, R185). -/
def groupSum (ta tb : Tile) (slot : Option DWord) (na : Bool) (grp i j : Nat) : Word :=
  let (lo, hi) := groupSpan ta grp
  let p (n : Nat) : FV :=
    let k := lo + n
    mulV (mulV (tElem ta i k) (scl ta slot i k)) (mulV (tElem tb j k) (scl tb slot j k))
  let s := exactSum ((List.range (hi - lo)).map p)
  rneF32 (if na then s.negate else s)
/-- Every G of a group, row by row. -/
def groupSums (ta tb : Tile) (slot : Option DWord) (na : Bool) (grp : Nat) : List Word :=
  (List.range (shRows ta.w0)).flatMap fun i => (List.range (shRows tb.w0)).map fun j => groupSum ta tb slot na grp i j

/-- Is an element or scale a group reads of a tile poisoned (R184)? -/
def groupPoison (t ta : Tile) (slot : Option DWord) (grp : Nat) : Bool :=
  let (lo, hi) := groupSpan ta grp
  !t.pois.isEmpty &&
    (List.range (shRows t.w0)).any fun i => (List.range (hi - lo)).any fun n =>
      t.pois.contains (tileBit t i (lo + n) / 32) ||
        (match slot with
         | none => false
         | some x => slotScale x != 0 && t.pois.contains (scaleAt t x i (lo + n) / 4))

/-- The next group waits until the array is free, then for its charge (R187, R358). -/
def nextGroup (c : Ctx) (m : MacroRun) (s : State) : State :=
  let cl := s.cluster c.cl
  let cost := 256 * groupCycles (c.b.tile (mmaTA m)) (c.b.tile (mmaTB m)) (mmaDup m)
  if cl.arrayAt ≤ cl.cyc then waitCharge c m (.mcc c.key) cost s else c.waitHere s (.array m)

/-- MMA and MMAQ at issue (R183). -/
def mmaBody (cls n a b slot : Nat) (z na ra rb dup : Bool) : Body :=
  let bit (x : Bool) : Word := if x then 1 else 0
  plain fun c s =>
    let m : MacroRun :=
      { cls := cls, op := 0, d := 0, a := n,
        words := [BitVec.ofNat 32 a, BitVec.ofNat 32 b, BitVec.ofNat 32 slot, bit z, bit na, bit dup],
        mask := 0, redo := 0, swm := c.sw }
    let ta := c.b.tile a
    let tb := c.b.tile b
    let resume := resumes c.f cls c.f.pc
    let bad := if prgPhase c.f.prg < mmaGroups ta && prgElem c.f.prg < mmaGroups ta then none else some (badProgress c.f)
    let at_ := resumeElem cls c
    if !c.b.held n || (!resume && (ta.rel || tb.rel)) then .whole (fltAt cTILESTATE at_)
    else if !mmaShapes ta tb (mmaSlot c m) then .whole (fltAt cTILESHAPE at_)
    else if resume then
      match bad with
      | some f => .whole f
      | none => .taken (nextGroup c m s)
    else
      let ready (t : Tile) : Bool := t.st == .full || t.st == .busy
      if !ready ta then .hold (c.waitHere s (.tile a))
      else if !ready tb then .hold (c.waitHere s (.tile b))
      else
        let s := startMacro c cls 0 s
        let s := c.modB s fun x =>
          let x := (distinct [a, b]).foldl (fun x t => x.modTile t tileRead) x
          let x := if ra then x.modTile a fun t => { t with rel := true } else x
          let x := if rb then x.modTile b fun t => { t with rel := true } else x
          { x with mmac := x.mmac ++ [{ handler := c.f.handler, tiles := [a, b] }] }
        .taken (nextGroup c m s)

/-- MMA (R184): macro that dispatches K-groups of a tile product into an accumulator. -/
def bMma (n : BitVec 7) (a : BitVec 3) (b : BitVec 3) (z : BitVec 1) (v : BitVec 1) (x : BitVec 1) (y : BitVec 1) (w : BitVec 1) : Body :=
  mmaBody clMMA n.toNat a.toNat b.toNat 0 (z == 1) (v == 1) (x == 1) (y == 1) (w == 1)
/-- The meaning of MMA. -/
def execMma (s : BitVec 1) (n : BitVec 7) (a : BitVec 3) (b : BitVec 3) (z : BitVec 1) (v : BitVec 1) (x : BitVec 1) (y : BitVec 1) (w : BitVec 1) (st : State) : Host.Outcome State Fault Refusal :=
  issue (.mma s n a b z v x y w) s (bMma n a b z v x y w) st

/-- MMAQ (R184): macro that dispatches K-groups of a scaled quantised tile product. -/
def bMmaq (n : BitVec 7) (a : BitVec 3) (b : BitVec 3) (l : BitVec 3) (z : BitVec 1) (v : BitVec 1) (x : BitVec 1) (y : BitVec 1) (w : BitVec 1) : Body :=
  mmaBody clMMAQ n.toNat a.toNat b.toNat l.toNat (z == 1) (v == 1) (x == 1) (y == 1) (w == 1)
/-- The meaning of MMAQ. -/
def execMmaq (s : BitVec 1) (n : BitVec 7) (a : BitVec 3) (b : BitVec 3) (l : BitVec 3) (z : BitVec 1) (v : BitVec 1) (x : BitVec 1) (y : BitVec 1) (w : BitVec 1) (st : State) : Host.Outcome State Fault Refusal :=
  issue (.mmaq s n a b l z v x y w) s (bMmaq n a b l z v x y w) st


end Sys2Proof.Machine
end

