-- ==== Sys2Proof/Machine/Engines.lean ====
section
/-! DEFINITION. Copy, gather, selection and collective engines (R194–R225, R336–R339): issue, tickets, and one element of
each operation. RUN performs the elements. -/
namespace Sys2Proof.Machine
open Sys2Proof

/-! ## Paths (R267, R271) -/

/-- The location n bytes on. -/
def Loc.add (l : Loc) (n : Nat) : Loc :=
  match l with
  | .hbm pa => .hbm (pa + n)
  | .scr k o => .scr k (o + n)

/-- The byte a path write holds for a location. -/
def PathWrite.byteAt (w : PathWrite) (l : Loc) : Option Byte :=
  match w.loc, l with
  | .hbm a, .hbm b => if a ≤ b then w.data[b - a]? else none
  | .scr k a, .scr j b => if k = j && a ≤ b then w.data[b - a]? else none
  | _, _ => none

/-- The byte of a location in M. -/
def homeByte (s : State) (l : Loc) : Byte :=
  match l with
  | .hbm pa => memGet s.ms.mem pa
  | .scr k o => (match s.block? k with
    | some b => memGet b.scr o
    | none => 0)

/-- What a read of a path takes for a byte: its newest entry, or M (R271). -/
def pathByte (s : State) (p : Path) (l : Loc) : Byte :=
  (s.ms.paths.foldl (fun acc w => if w.path = p then (match w.byteAt l with
    | some b => some b
    | none => acc) else acc) none).getD (homeByte s l)

/-- n bytes read on a path. -/
def pathRead (s : State) (p : Path) (l : Loc) (n : Nat) : List Byte := (List.range n).map fun i => pathByte s p (l.add i)
/-- A little-endian number read on a path. -/
def pathNat (s : State) (p : Path) (l : Loc) (n : Nat) : Nat := leNat (pathRead s p l n)

/-- Append a write to a path buffer (R271). -/
def pathWrite (s : State) (w : PathWrite) : State :=
  s.modMs fun ms => { ms with paths := ms.paths ++ [{ w with run := ms.serial }] }

/-- A read location of an engine element: the check of R139, poison and ECC (R292, R325); partials of its line are collected
first (R152). -/
def elemRead (c : Ctx) (s : State) (sp : Space) (a : DWord) (n : Nat) : State × Except Flt Loc :=
  match resolve c s sp a n true false with
  | (s, .error f) => (s, .error f)
  | (s, .ok (some pa)) =>
    let (s, bad) := eccRead s c.key.part pa n
    if bad then (s, .error { flt cECCU with addr := a }) else (s.modMs fun ms => collect ms pa n, .ok (.hbm pa))
  | (s, .ok none) =>
    if scrPoisoned c.b a.toNat n then (s, .error (flt cPOISON)) else (s, .ok (.scr c.key a.toNat))

/-- A write location of an engine element. -/
def elemWrite (c : Ctx) (s : State) (sp : Space) (a : DWord) (n : Nat) : State × Except Flt Loc :=
  match resolve c s sp a n false true with
  | (s, .error f) => (s, .error f)
  | (s, .ok (some pa)) => (s, .ok (.hbm pa))
  | (s, .ok none) => (s, .ok (.scr c.key a.toNat))

/-! ## Channels and tickets (R198–R204) -/

/-- Sequence numbers: modulo 2^28. -/
def seqMod : Nat := 2 ^ 28
/-- (a - b) modulo 2^28. -/
def seqSub (a b : Nat) : Nat := (a + seqMod - b % seqMod) % seqMod
/-- Channel ch of a block. -/
def Block.chan (b : Block) (ch : Nat) : Chan :=
  b.chans.getD ch { isq := 0, csq := 0, latch := none, wpT := 0, wpB := 0 }
/-- Change channel ch. -/
def Block.modChan (b : Block) (ch : Nat) (f : Chan → Chan) : Block := { b with chans := lmod b.chans ch f }
/-- The ticket of a channel code and a sequence. -/
def ticketOf (ch seq : Nat) : Word := BitVec.ofNat 32 (ch * seqMod + seq % seqMod)
/-- Channel code of a ticket. -/
def tickCh (t : Word) : Nat := t.toNat / seqMod
/-- Sequence of a ticket. -/
def tickSeq (t : Word) : Nat := t.toNat % seqMod
/-- Is a ticket complete (R198)? -/
def Block.complete (b : Block) (t : Word) : Bool := decide (seqSub (b.chan (tickCh t)).csq (tickSeq t) < 2 ^ 27)
/-- Is a ticket invalid (R198)? -/
def Block.badTicket (b : Block) (t : Word) : Bool :=
  decide (12 ≤ tickCh t) ||
    (let d := seqSub (tickSeq t) (b.chan (tickCh t)).isq
     decide (1 ≤ d) && decide (d < 2 ^ 27))
/-- The record of a ticket, while it is kept (R200). -/
def Block.record? (b : Block) (t : Word) : Option EngOp :=
  if seqSub (b.chan (tickCh t)).isq (tickSeq t) < 16 then
    (b.ops.filter fun o => o.ch = tickCh t && o.seq = tickSeq t).getLast?
  else none
/-- Change an operation of a block. -/
def Block.modOp (b : Block) (id : Nat) (f : EngOp → EngOp) : Block :=
  { b with ops := b.ops.map fun o => if o.id = id then f o else o }
/-- The block and record of an operation. -/
def State.op? (s : State) (id : Nat) : Option (Block × EngOp) :=
  s.blocks.findSome? fun b => (b.ops.find? fun o => o.id = id).map fun o => (b, o)
/-- Change an operation. -/
def State.modOp (s : State) (id : Nat) (f : EngOp → EngOp) : State :=
  { s with blocks := s.blocks.map fun b => b.modOp id f }

/-- Rows of a CPA. -/
def cpaRows (w : List Word) : Nat := (w.getD 4 0).toNat + 1
/-- Channel of a CPA. -/
def cpaCh (w : List Word) : Nat := (w.getD 7 0).toNat % 8
/-- First scratchpad byte (or tile word) of a row. -/
def cpaLocal (w : List Word) (f row : Nat) : Int :=
  if f = 2 then ((w.getD 2 0).toNat % 4096 : Nat) + (w.getD 6 0).toInt / 4 * row
  else ((w.getD 2 0).toNat : Int) + (w.getD 6 0).toInt * row
/-- Global address of a row. -/
def cpaGlobal (w : List Word) (row : Nat) : DWord :=
  rowBase w + BitVec.ofInt 64 ((w.getD 5 0).toInt * row)

/-- The checks of R206 at the issue of a CPA. -/
def cpaOk (b : Block) (w : List Word) (f : Nat) : Bool :=
  let last := cpaRows w - 1
  let span (lo hi : Int) : Bool := decide (0 ≤ lo) && decide (lo ≤ hi)
  let top : Int := if f = 2 then 4096 else b.scrSize
  let len : Int := if f = 2 then (cpaRB w / 4 : Nat) else (cpaRB w : Nat)
  let a0 := cpaLocal w f 0
  let a1 := cpaLocal w f last
  decide (cpaRB w ≤ 524288) && decide (4 ≤ cpaRB w) && cpaRB w % 4 == 0 && decide ((w.getD 4 0).toNat < 65536) &&
    decide ((w.getD 7 0).toNat < 64) && !(w.getD 7 0).getLsbD 3 && (rowBase w).toNat % 4 == 0 &&
    (w.getD 5 0).toNat % 4 == 0 && (w.getD 6 0).toNat % 4 == 0 &&
    (if f = 2 then decide ((w.getD 2 0).toNat < 32768) else (w.getD 2 0).toNat % 4 == 0) &&
    span 0 (min a0 a1) && span (max a0 a1 + len) top

/-- 64 KiB chunks a CLV's rank writes (R224). -/
def chunks (bytes : Nat) : Nat := (bytes + 65535) / 65536
/-- Element size of a CLV type code. -/
def clvSize (w : List Word) : Nat := if bitsAt (w.getD 5 0).toNat 0 3 = 1 || bitsAt (w.getD 5 0).toNat 0 3 = 2 then 2 else 4
/-- COUNT. -/
def clvCount (w : List Word) : Nat := (w.getD 4 0).toNat
/-- GROUP. -/
def clvGroup (w : List Word) : Nat := bitsAt (w.getD 5 0).toNat 10 6
/-- Output element size (R222). -/
def clvOut (w : List Word) (f : Nat) : Nat :=
  if f ≤ 1 && clvSize w = 2 && !(w.getD 5 0).getLsbD 5 then 4 else clvSize w
/-- Destination elements of a rank (R222). -/
def clvElems (w : List Word) (f r : Nat) : Nat := if f = 2 then r * clvCount w else clvCount w

/-- The cost of the next element of a channel operation (R357). -/
def opCost (o : EngOp) : Nat := if o.ch < 8 then rowCost (cpaRB o.words) else chunkCost
/-- The charger of a channel operation. -/
def opCharger (o : EngOp) : Charger := if o.ch < 8 then .chan o.ch o.id else .coll (o.ch - 8) o.id

/-- The operation at the head of a channel of a cluster (R199). -/
def chanHead (s : State) (cl ch : Nat) : Option Nat := ((s.cluster cl).chq.find? fun e => e.1 = ch).map fun e => e.2

/-- The cluster whose channel holds an operation. -/
def opHome (s : State) (id : Nat) : Nat :=
  ((s.clusters.find? fun e => e.2.chq.any fun x => x.2 = id).map fun e => e.1).getD 0

/-- The elements of an operation: rows of a copy, chunks of a collective (R197). -/
def opTotal (s : State) (o : EngOp) : Nat :=
  if o.ch < 8 then cpaRows o.words
  else
    match (s.launch? o.key.part o.key.grid).bind fun l => l.groups.find? fun e => e.1 = clvGroup o.words with
    | some e => chunks (clvElems o.words o.f e.2.1 * clvOut o.words o.f)
    | none => 0

/-- Restored copies take the places that are free on their channel, in their order (R199, R204). -/
def refill (s : State) (cl ch : Nat) : State :=
  if (s.cluster cl).chBack.isEmpty then s
  else
    (List.range 16).foldl (fun s _ =>
      s.modCluster cl fun c =>
        match c.chBack.find? fun e => e.1 = ch with
        | some e =>
          if (c.chq.filter fun x => x.1 = ch).length < 16 then
            { c with chq := c.chq ++ [e], chBack := c.chBack.filter fun x => x != e }
          else c
        | none => c) s

/-- Is an operation over? -/
def Tick.over : Tick → Bool
  | .done => true
  | .failed => true
  | _ => false

/-- Has an earlier operation of the block's channel not ended? It may stand on the channel of another cluster, where a collective
goes on after its block has moved (R198, R204). -/
def olderOpen (b : Block) (o : EngOp) : Bool :=
  b.ops.any fun x => x.ch = o.ch && x.id != o.id && !x.st.over && decide (seqSub o.seq x.seq < 2 ^ 27)

/-- The next element of the head of a channel becomes ready: it asks for its charge (R358), unless it has one, waits for
one, is held, comes behind one of its block that has not ended elsewhere (R198), or its block's copies are stopped by a save (R204). -/
def askHead (s : State) (cl ch : Nat) : State :=
  match (chanHead s cl ch).bind fun id => s.op? id with
  | none => s
  | some (b, o) =>
    let here := (b.place = .resident cl && !b.halted) || 8 ≤ ch
    let free := !o.charged && !o.waiting && (o.st = .queued || o.st = .running) && decide (o.elem < opTotal s o)
    if here && free && !olderOpen b o && !((s.cluster cl).charges.any fun x => x.who = opCharger o) then
      askCharge s cl (opCharger o) (opCost o)
    else s

/-- A fragment that waits in TKW for a ticket that is complete now issues again, with the ticket it has read (R201). -/
def Frag.ticketDone (b : Block) (f : Frag) : Frag :=
  match f.wait with
  | .tkw t => if b.complete t then { f with wait := .hold (.ticket t) } else f
  | _ => f

/-- Fragments of a block that wait in TKW go on when their ticket is complete. -/
def wakeTkw (s : State) (k : Key) : State := s.modBlock k fun b => b.mapFrags (Frag.ticketDone b)

/-- An operation ends DONE or FAILED (R198, R200, R203): its record, CSQ, the latch; it leaves its channel. -/
def closeOp (s : State) (o : EngOp) (st : Tick) (code elem : Nat) : State :=
  let cl := opHome s o.id
  let s := s.modBlock o.key fun b =>
    let b := b.modOp o.id fun x =>
      { x with st := st, code := if st = .failed then code else 0, errElem := if st = .failed then elem else 0,
               charged := false, waiting := false }
    b.modChan o.ch fun c =>
      { c with csq := o.seq, latch := if st = .failed && c.latch.isNone then some o.seq else c.latch }
  let s := s.modCluster cl fun c => { c with chq := c.chq.filter fun e => e.2 != o.id }
  -- a part of a bundle that fails is the bundle's status (R300, log 105)
  let s := if o.bundle && st = .failed then s.modLaunch o.key.part o.key.grid fun l => { l with fault := true } else s
  wakeTkw (dropCharge s cl fun w => w = opCharger o) o.key

/-- The other clusters on whose channel an operation of a block stands. -/
def otherHomes (s : State) (k : Key) (cl ch : Nat) : List Nat :=
  (s.clusters.filter fun e => e.1 != cl && e.2.chq.any fun x => x.1 = ch && (s.op? x.2).any fun y => y.1.key = k).map fun e => e.1

/-- A channel looks at its head: one that is doomed ends there, so that operations end in their order (R198, R225); the next
asks for its charge, and so do those of the block elsewhere that waited for it (fuel: the operations it may hold). -/
def kickFrom (ch : Nat) : Nat → Nat → State → State
  | 0, cl, s => askHead s cl ch
  | n + 1, cl, s =>
    match (chanHead s cl ch).bind fun id => s.op? id with
    | some (b, o) =>
      if o.doom && !olderOpen b o then
        (let s := closeOp s o .failed cENGDESC o.elem
         kickFrom ch n cl ((otherHomes s b.key cl ch).foldl (fun s c => kickFrom ch n c s) s))
      else askHead s cl ch
    | none => s

/-- A channel goes on. -/
def kick (s : State) (cl ch : Nat) : State := kickFrom ch 16 cl (refill s cl ch)

/-- The channels on which operations of a block stand go on. -/
def kickBlock (s : State) (k : Key) (cl ch : Nat) : State :=
  (otherHomes s k cl ch).foldl (fun s c => kick s c ch) (kick s cl ch)

/-- An operation at the head of its channel ends, and the channel goes on. -/
def endOp (s : State) (o : EngOp) (st : Tick) (code elem : Nat) : State :=
  kickBlock (closeOp s o st code elem) o.key (opHome s o.id) o.ch

/-- Queue an operation on a channel of its cluster; its ticket goes to a register (R198, R205, R221). -/
def queueOp (s : State) (cl : Nat) (k : Key) (who : Who) (lanes : Lanes) (pc : Addr) (ch f : Nat) (w : List Word)
    (nth : Nat) : State × Word :=
  match s.block? k with
  | none => (s, 0)
  | some b =>
    let seq := ((b.chan ch).isq + 1) % seqMod
    let id := s.ms.serial
    let o : EngOp :=
      { id := id, key := k, who := who, lanes := lanes, pc := pc, ch := ch, seq := seq, f := f, words := w, st := .queued,
        elem := 0, code := 0, errElem := 0, charged := false, waiting := false, nth := nth, heldSeq := none, word := 0,
        doom := false, bundle := false }
    let s := s.modBlock k fun b => { b.modChan ch (fun c => { c with isq := seq }) with ops := b.ops ++ [o] }
    let s := s.modCluster cl fun c => { c with chq := c.chq ++ [(ch, id)] }
    (kick s.bump cl ch, ticketOf ch seq)

/-- Operations queued or running on a channel, with the restored ones that wait for a place ahead of any new one. -/
def chanLoad (s : State) (cl ch : Nat) : Nat :=
  ((s.cluster cl).chq.filter fun e => e.1 = ch).length + ((s.cluster cl).chBack.filter fun e => e.1 = ch).length

/-- An asynchronous operation at issue: it waits at a full channel (R199), else it is queued. -/
def launchOp (c : Ctx) (ch f d : Nat) (w : List Word) (nth : Nat) (more : State → State) (s : State) : Res :=
  if 16 ≤ chanLoad s c.cl ch then
    .hold ((c.waitHere s (.chan ch)).modCluster c.cl fun x =>
      if x.chWait.any fun e => e.2 = c.ref then x else { x with chWait := x.chWait ++ [(ch, c.ref)] })
  else
    let (s, t) := queueOp s c.cl c.key c.who c.f.lanes c.f.pc ch f w nth
    .done (c.modP (more s) fun p => p.setS d t) [] .seq

/-! ## CPA (R205–R208) -/

/-- CPA (R205): checks and queues an asynchronous copy on a copy channel, writing its ticket. -/
def bCpa (d : BitVec 7) (a : BitVec 7) (f : BitVec 2) : Body :=
  { reads := fun _ => RegSet.ss a.toNat 8, writes := fun _ => RegSet.ss d.toNat 1,
    run := fun c _ s =>
      let w := block c a.toNat 8
      if f == 2 && c.b.mcc.isNone then .whole (flt cTILESTATE)
      else if !cpaOk c.b w f.toNat then .whole (flt cENGDESC)
      else launchOp c (cpaCh w) f.toNat d.toNat w 0 id s }
/-- The meaning of CPA. -/
def execCpa (s : BitVec 1) (d : BitVec 7) (a : BitVec 7) (f : BitVec 2) (st : State) : Host.Outcome State Fault Refusal :=
  issue (.cpa s d a f) s (bCpa d a f) st


/-- The words from a global address translate, and those read pass ECC: their physical addresses, or the first fault (R139,
R207). -/
def wordPlaces (c : Ctx) (rd wr : Bool) : Nat → DWord → State → List Nat → State × Except Flt (List Nat)
  | 0, _, s, acc => (s, .ok acc.reverse)
  | n + 1, a, s, acc =>
    match resolve c s .global a 4 rd wr with
    | (s, .error f) => (s, .error f)
    | (s, .ok none) => (s, .ok acc.reverse)
    | (s, .ok (some pa)) =>
      let (s, bad) := if rd then eccRead s c.key.part pa 4 else (s, false)
      if bad then (s, .error { flt cECCU with addr := a }) else wordPlaces c rd wr n (a + 4) s (pa :: acc)

/-- The context of an operation: its block, and the cluster whose TLB it uses. -/
def opCtx (s : State) (cl : Nat) (o : EngOp) : Option Ctx :=
  match s.block? o.key, s.launch? o.key.part o.key.grid with
  | some b, some l =>
    let f : Frag :=
      { lanes := o.lanes, pc := o.pc, pend := RegSet.none, out := RegSet.none, prg := 0, prgpc := 0, prgx := 0,
        wait := .run, handler := false }
    (b.party? o.who).map fun p =>
      { key := o.key, who := o.who, i := 0, f := f, p := p, b := b, l := l, cl := cl, len := 4, limm := none, sw := false }
  | _, _ => none

/-- An operation is held at its element for fault service (R203): the record names the instruction and the issuer. -/
def holdOp (c : Ctx) (o : EngOp) (f : Flt) (s : State) : State :=
  let seq := (s.part o.key.part).nextSeq
  let s := s.modOp o.id fun x =>
    { x with st := .held, code := f.code, errElem := o.elem, charged := false, heldSeq := some seq, word := 0, pas := [] }
  addRecord s o.key.part fun seq =>
    { partyRecord s c.l o.key o.who o.lanes { f with elem := BitVec.ofNat 32 o.elem } o.pc false false false 0
        (.engine o.key o.id) seq with
      kind := kindByte false false false true (o.who = .mcc) f.level f.mal, ticket := ticketOf o.ch o.seq }

/-- TileStep of R208 for a row of n words: what the tile's state makes of it. -/
def tileStep (t : Tile) (n : Nat) : Option Bool :=
  match t.st with
  | .loading => some false
  | .full => none
  | .busy => none
  | _ => some (decide (t.count + n ≤ t.fillw))

/-- The write pointer moves to a position of a ticket; within a ticket it never moves back (R209). -/
def setWp (s : State) (o : EngOp) (b : Nat) : State :=
  s.modBlock o.key fun x => x.modChan o.ch fun c =>
    { c with wpT := ticketOf o.ch o.seq, wpB := if c.wpT = ticketOf o.ch o.seq then max c.wpB b else b }

/-- A row is done: progress, the words counted at its tile (R207), and the end or the next row. -/
def rowEnd (cl : Nat) (o : EngOp) (s : State) : State :=
  let n := cpaRB o.words / 4
  let s := if o.f != 2 then s else s.modBlock o.key fun b => b.modTile (cpaTile o.words) fun t =>
    { t with count := t.count + n, st := if t.count + n = t.fillw then .full else t.st }
  let s := s.modOp o.id fun x => { x with elem := o.elem + 1, charged := false, word := 0, pas := [] }
  if o.elem + 1 = cpaRows o.words then endOp s o .done 0 0 else kick s cl o.ch

/-- A word of a row is written: the write pointer moves over it (R209), and the row ends with its last word. -/
def wordEnd (cl : Nat) (o : EngOp) (s : State) : State :=
  let s := setWp s o (o.elem * cpaRB o.words + 4 * o.word + 4)
  if 4 * (o.word + 1) = cpaRB o.words then rowEnd cl o s else s.modOp o.id fun x => { x with word := o.word + 1 }

/-- The next word of the row of a CPA (R207), at the place that its row's start found for it. Nothing but a sector found bad as the word
is read (R292) stops a row that has started. -/
def cpaWord (c : Ctx) (cl : Nat) (o : EngOp) (s : State) : State :=
  let j := o.word
  let pa := o.pas.getD j 0
  let l := (cpaLocal o.words o.f o.elem).toNat
  let put (loc : Loc) (data : List Byte) (s : State) : State :=
    pathWrite s { path := .cp, op := o.id, key := o.key, who := o.who, lanes := o.lanes,
                  pos := o.elem * cpaRB o.words + 4 * j, loc := loc, data := data }
  if o.f = 1 then
    wordEnd cl o (put (.hbm pa) (pathRead s .cp (.scr o.key (l + 4 * j)) 4) (s.modBlock o.key fun b => { b with idem := false }))
  else
    match eccRead s o.key.part pa 4 with
    | (s, true) => holdOp c o { flt cECCU with addr := cpaGlobal o.words o.elem + BitVec.ofNat 64 (4 * j) } s
    | (s, false) =>
      let s := s.modMs fun ms => collect ms pa 4
      if o.f = 0 then wordEnd cl o (put (.scr o.key (l + 4 * j)) (pathRead s .cp (.hbm pa) 4) s)
      else
        wordEnd cl o (s.modBlock o.key fun b => b.modTile (cpaTile o.words) fun t =>
          { t with data := memWrite t.data (4 * (l + j)) (pathRead s .mx (.hbm pa) 4), pois := t.pois.filter fun x => x != l + j })

/-- A row starts with its checks passed: its places are kept, and its first word is copied. -/
def rowStart (c : Ctx) (cl : Nat) (o : EngOp) (pas : List Nat) (s : State) : State :=
  cpaWord c cl { o with pas := pas } (s.modOp o.id fun x => { x with pas := pas })

/-- One step of a CPA (R207): the row's checks and its first word, or the next word of the row. -/
def cpaRow (c : Ctx) (cl : Nat) (o : EngOp) (s : State) : State :=
  let n := cpaRB o.words / 4
  let l := cpaLocal o.words o.f o.elem
  if o.word != 0 then cpaWord c cl o s
  else
  match wordPlaces c (o.f != 1) (o.f == 1) n (cpaGlobal o.words o.elem) s [] with
  | (s, .error f) => holdOp c o f s
  | (s, .ok pas) =>
    match o.f with
    | 0 => if c.b.overlapsBar l.toNat (cpaRB o.words) then endOp s o .failed cBARCLOB o.elem else rowStart c cl o pas s
    | 1 => if scrPoisoned c.b l.toNat (cpaRB o.words) then endOp s o .failed cPOISON o.elem else rowStart c cl o pas s
    | _ =>
      let t := cpaTile o.words
      match tileStep (c.b.tile t) (tileComing c.b t + n) with
      | none => s.modOp o.id fun x => { x with st := .held, code := 0, errElem := o.elem, waiting := true }
      | some false => endOp s o .failed cTILESTATE o.elem
      | some true => rowStart c cl o pas (s.modBlock o.key fun b => b.modTile t fun x => { x with st := .filling })

/-! ## Tickets and write pointers as seen by a program (R201, R202, R210) -/

/-- The issuing party observes operations (R168, R196): some position below which, or all, of each. -/
def observe (c : Ctx) (l : List (Nat × Option Nat)) (s : State) : State :=
  c.modP s fun p => { p with obs := p.obs ++ l.map fun e => { lanes := c.f.lanes, op := e.1, below := e.2 } }

/-- The operations of a ticket's channel up to the ticket: complete when it is. -/
def upTo (b : Block) (t : Word) : List (Nat × Option Nat) :=
  (b.ops.filter fun o => o.ch = tickCh t && decide (seqSub (tickSeq t) o.seq < 2 ^ 27)).map fun o => (o.id, none)

/-- TKW with its ticket read (R201): it waits, or raises the channel's latched failure, or goes on. -/
def tkwAt (c : Ctx) (t : Word) (s : State) : Res :=
  if c.b.badTicket t then .whole (flt cTKBAD)
  else if !c.b.complete t then .hold (c.waitHere s (.tkw t))
  else
    match (c.b.chan (tickCh t)).latch with
    | some q =>
      if seqSub (tickSeq t) q < 2 ^ 27 then
        let o := (c.b.ops.filter fun o => o.ch = tickCh t && o.seq = q).getLast?
        let f := match o with
          | some o => fltAt o.code o.errElem
          | none => flt cENGDESC
        .taken (raiseAll c f (c.modB s fun b => b.modChan (tickCh t) fun x => { x with latch := none }))
      else .taken (observe c (upTo c.b t) (c.passOn s))
    | none => .taken (observe c (upTo c.b t) (c.passOn s))

/-- TKW (R201): waits for results, reads its ticket, waits for it to complete and raises any latched failure. -/
def bTkw (a : BitVec 7) : Body :=
  { reads := fun _ => RegSet.ss a.toNat 1, writes := fun _ => RegSet.none,
    run := fun c _ s =>
      match c.f.wait with
      | .hold (.ticket t) => tkwAt c t s
      | _ => waitResults c s (tkwAt c (c.p.getS a.toNat)) }
/-- The meaning of TKW. -/
def execTkw (s : BitVec 1) (a : BitVec 7) (st : State) : Host.Outcome State Fault Refusal :=
  issue (.tkw s a) s (bTkw a) st


/-- The state code of TKQ. -/
def tickCode : Tick → Nat
  | .done => 0
  | .queued => 1
  | .running => 2
  | .held => 3
  | .failed => 4

/-- TKQ (R202): reads a ticket's state, progress and failing element without waiting. -/
def bTkq (d : BitVec 7) (a : BitVec 7) : Body :=
  { reads := fun _ => RegSet.ss a.toNat 1, writes := fun _ => RegSet.ss d.toNat 3,
    run := fun c _ s =>
      let t := c.p.getS a.toNat
      if c.b.badTicket t then .whole (flt cTKBAD)
      else
        let (x, y, z) : Word × Word × Word := match c.b.record? t with
          | some o => (BitVec.ofNat 32 (o.code * 256 + tickCode o.st), BitVec.ofNat 32 o.elem, BitVec.ofNat 32 o.errElem)
          | none => (0, 0xFFFFFFFF, 0)
        let s := if x == 0 then observe c (upTo c.b t) s else s
        .done (c.modP s fun p => p.setSs d.toNat [x, y, z]) [] .seq }
/-- The meaning of TKQ. -/
def execTkq (s : BitVec 1) (d : BitVec 7) (a : BitVec 7) (st : State) : Host.Outcome State Fault Refusal :=
  issue (.tkq s d a) s (bTkq d a) st

/-- CPWP (R210): reads a copy channel's write pointer at one instant. -/
def bCpwp (d : BitVec 7) (c : BitVec 3) : Body :=
  { reads := fun _ => RegSet.none, writes := fun _ => RegSet.ss d.toNat 2,
    run := fun k _ s =>
      let w := k.b.chan c.toNat
      let q := tickSeq w.wpT
      let l := (k.b.ops.filter fun o => o.ch = c.toNat && decide (seqSub q o.seq < 2 ^ 27)).map fun o =>
        (o.id, if o.seq = q then some w.wpB else none)
      .done (k.modP (observe k l s) fun p => p.setSs d.toNat [w.wpT, BitVec.ofNat 32 w.wpB]) [] .seq }
/-- The meaning of CPWP. -/
def execCpwp (s : BitVec 1) (d : BitVec 7) (c : BitVec 3) (st : State) : Host.Outcome State Fault Refusal :=
  issue (.cpwp s d c) s (bCpwp d c) st


/-! ## Gather and scatter (R211, R212) -/

/-- Element size. -/
def gatES (w : List Word) : Nat := 2 * 2 ^ bitsAt (w.getD 5 0).toNat 0 2
/-- Elements. -/
def gatN (w : List Word) : Nat := (w.getD 4 0).toNat
/-- Space of the sparse side. -/
def gatSpace (w : List Word) : Space := if (w.getD 5 0).getLsbD 2 then .scratch else .global
/-- Is the operand block valid (R211)? -/
def gatOk (b : Block) (w : List Word) : Bool :=
  let idx := (w.getD 2 0).toNat
  let loc := (w.getD 3 0).toNat
  idx % 4 == 0 && loc % gatES w == 0 && decide (1 ≤ gatN w) && decide (gatN w ≤ 131072) &&
    decide ((w.getD 5 0).toNat < 64) && decide (idx + 4 * gatN w ≤ b.scrSize) &&
    decide (loc + gatN w * gatES w ≤ b.scrSize)
/-- The sparse address of an index value. -/
def gatAddr (w : List Word) (x : Nat) : DWord :=
  let ix : Int := if (w.getD 5 0).getLsbD 3 then (BitVec.ofNat 32 x).toInt else x
  rowBase w + BitVec.ofInt 64 (ix * gatES w)

/-- What a watchpoint sees of element i: its sparse access (R341). -/
def gatTouch (c : Ctx) (s : State) (sct : Bool) (w : List Word) (i : Nat) : List Touch :=
  let x := pathNat s .gt (.scr c.key ((w.getD 2 0).toNat + 4 * i)) 4
  [{ lane := lowLane c.f.lanes, addr := (gatAddr w x).toNat, len := gatES w, rd := !sct, wr := sct }]

/-- One element of a GTH or SCT (R212): the fault, or the state with its write on the path. -/
def gatElem (c : Ctx) (m : MacroRun) (i : Nat) (s : State) : State × Option Flt :=
  let w := m.words
  let es := gatES w
  let loc := (w.getD 3 0).toNat + i * es
  let idx := (w.getD 2 0).toNat + 4 * i
  let a := gatAddr w (pathNat s .gt (.scr c.key idx) 4)
  let at_ (f : Flt) : Flt := { f with elem := BitVec.ofNat 32 i }
  let put (s : State) (l : Loc) (d : List Byte) : State :=
    pathWrite s { path := .gt, op := m.op, key := c.key, who := c.who, lanes := c.f.lanes, pos := i, loc := l, data := d }
  if scrPoisoned c.b idx 4 then (s, some (fltAt cPOISON i))
  else if m.cls == clGTH then
    match elemRead c s (gatSpace w) a es with
    | (s, .error f) => (s, some (at_ f))
    | (s, .ok l) =>
      if c.b.overlapsBar loc es then (s, some (fltAt cBARCLOB i))
      else (put s (.scr c.key loc) (pathRead s .gt l es), none)
  else
    match elemWrite c s (gatSpace w) a es with
    | (s, .error f) => (s, some (at_ f))
    | (s, .ok l) =>
      if gatSpace w = .scratch && c.b.overlapsBar a.toNat es then (s, some (fltAt cBARCLOB i))
      else if scrPoisoned c.b loc es then (s, some (fltAt cPOISON i))
      else
        let s := put s l (pathRead s .gt (.scr c.key loc) es)
        (if gatSpace w = .global then c.modB s fun b => { b with idem := false } else s, none)

/-- GTH and SCT at issue: checks, start or resume, the first element's charge. Its elements count as observed by the
fragment (R168, R277). -/
def gatherBody (sct : Bool) (a : Nat) : Body :=
  let cls := if sct then clSCT else clGTH
  { reads := fun _ => RegSet.ss a 6, writes := fun _ => RegSet.none,
    touch := fun s c _ =>
      gatTouch c s sct (block c a 6) (resumeElem cls c),
    elem := resumeElem cls,
    run := fun c _ s =>
      let w := block c a 6
      let m : MacroRun := { cls := cls, op := s.ms.serial, d := 0, a := a, words := w, mask := 0, redo := 0, swm := c.sw }
      if !gatOk c.b w then .whole (flt cENGDESC)
      else
        let resume := resumes c.f cls c.f.pc
        let i := resumeElem cls c
        if resume && (gatN w ≤ i || prgPhase c.f.prg != 0) then .whole (badProgress c.f)
        else
          let s := if resume then s else startMacro c cls 0 s
          .taken (waitCharge c m (.gather c.ref) gatherCost (observe c [(m.op, none)] s.bump)) }

/-- GTH (R212): macro that gathers indexed elements into scratchpad. -/
def bGth (a : BitVec 7) : Body := gatherBody false a.toNat
/-- The meaning of GTH. -/
def execGth (s : BitVec 1) (a : BitVec 7) (st : State) : Host.Outcome State Fault Refusal :=
  issue (.gth s a) s (bGth a) st

/-- SCT (R212): macro that scatters scratchpad elements to indexed addresses. -/
def bSct (a : BitVec 7) : Body := gatherBody true a.toNat
/-- The meaning of SCT. -/
def execSct (s : BitVec 1) (a : BitVec 7) (st : State) : Host.Outcome State Fault Refusal :=
  issue (.sct s a) s (bSct a) st


/-! ## Selection (R213–R218) -/

/-- TYPE. -/
def selType (w : List Word) : Nat := bitsAt (w.getD 7 0).toNat 0 3
/-- Bytes of a column element. -/
def selES (w : List Word) : Nat := if selType w = 1 || selType w = 2 then 2 else 4
/-- Width of the image. -/
def selW (w : List Word) : Nat := 8 * selES w
/-- WGT. -/
def selWgt (w : List Word) : Nat := bitsAt (w.getD 7 0).toNat 3 2
/-- Bytes of a weight. -/
def selWS (w : List Word) : Nat := if selWgt w = 1 then 2 else 4
/-- N: 0 means 2^32. -/
def selN (w : List Word) : Nat := if (w.getD 6 0).toNat = 0 then 2 ^ 32 else (w.getD 6 0).toNat
/-- A space bit of s[A+7]. -/
def selSpace (w : List Word) (b : Nat) : Space := if (w.getD 7 0).getLsbD b then .scratch else .global
/-- A pair of the operand block. -/
def pairAt (w : List Word) (i : Nat) : DWord := (w.getD (i + 1) 0 ++ w.getD i 0).setWidth 64

/-- Is the operand block valid (R214)? -/
def selOk (b : Block) (w : List Word) (k d a : Nat) : Bool :=
  let c7 := (w.getD 7 0).toNat
  let fits (sp : Space) (x : DWord) (n : Nat) : Bool := sp = .global || decide (x.toNat + n ≤ b.scrSize)
  decide (c7 < 2 ^ 14) && decide (selType w ≤ 4) && selWgt w != 3 && decide (bitsAt c7 5 2 ≤ 1) && pairAt w 10 == 0 &&
    (k == 0 || pairAt w 8 != 0) && (decide (d + 3 < a) || decide (a + 15 < d)) &&
    (pairAt w 0).toNat % selES w == 0 && (pairAt w 4).toNat % 4 == 0 &&
    fits (selSpace w 8) (pairAt w 0) (selN w * selES w) &&
    fits (selSpace w 10) (pairAt w 4) ((selN w + 31) / 32 * 4) &&
    (selWgt w == 0 || ((pairAt w 2).toNat % selWS w == 0 && fits (selSpace w 9) (pairAt w 2) (selN w * selWS w)))

/-- The image of a column element and whether it is a NaN (R215). -/
def selImg (w : List Word) (x : Nat) : Nat × Bool :=
  let n := selW w
  let x := if (w.getD 7 0).getLsbD 7 && x = 2 ^ (n - 1) && decide (selType w ≤ 2) then 0 else x
  let nan := match selType w with
    | 0 => (valOf fF32 x).isNan
    | 1 => (valOf fF16 x).isNan
    | 2 => (valOf fBF16 x).isNan
    | _ => false
  (match selType w with
   | 3 => (x + 2 ^ 31) % 2 ^ 32
   | 4 => x
   | _ => mono n x, nan)
/-- The original encoding of an image (R217). -/
def selUnimg (w : List Word) (y : Nat) : Nat :=
  match selType w with
  | 3 => (y + 2 ^ 31) % 2 ^ 32
  | 4 => y
  | _ => monoInv (selW w) y

/-- What element i is: candidate, image, weight (R215); its reads in the order of R336. -/
def selRead (c : Ctx) (w : List Word) (i : Nat) (s : State) : State × Except Flt (Bool × Nat × Nat) :=
  match elemRead c s (selSpace w 8) (pairAt w 0 + BitVec.ofNat 64 (i * selES w)) (selES w) with
  | (s, .error f) => (s, .error f)
  | (s, .ok lc) =>
    let (img, nan) := selImg w (pathNat s .sl lc (selES w))
    let wt : State × Except Flt Nat :=
      if selWgt w = 0 then (s, .ok 1)
      else
        match elemRead c s (selSpace w 9) (pairAt w 2 + BitVec.ofNat 64 (i * selWS w)) (selWS w) with
        | (s, .error f) => (s, .error f)
        | (s, .ok l) => (s, .ok (pathNat s .sl l (selWS w)))
    match wt with
    | (s, .error f) => (s, .error f)
    | (s, .ok wt) =>
      let mk : State × Except Flt Bool :=
        if (w.getD 7 0).getLsbD 11 then
          match elemRead c s (selSpace w 10) (pairAt w 4 + BitVec.ofNat 64 (i / 32 * 4)) 4 with
          | (s, .error f) => (s, .error f)
          | (s, .ok l) => (s, .ok (bitsAt (pathNat s .sl l 4) (i % 32) 1 == 1))
        else (s, .ok true)
      match mk with
      | (s, .error f) => (s, .error f)
      | (s, .ok mk) => (s, .ok (mk && !(bitsAt (w.getD 7 0).toNat 5 2 == 1 && nan), img, wt))

/-- What a watchpoint sees of element i: its column, weight and mask accesses (R341). -/
def selTouch (lane : Nat) (w : List Word) (last : Bool) (i : Nat) : List Touch :=
  let t (a : DWord) (n : Nat) (rd wr : Bool) : List Touch :=
    [{ lane := lane, addr := a.toNat, len := n, rd := rd, wr := wr }]
  t (pairAt w 0 + BitVec.ofNat 64 (i * selES w)) (selES w) true false ++
    (if selWgt w = 0 then [] else t (pairAt w 2 + BitVec.ofNat 64 (i * selWS w)) (selWS w) true false) ++
    (let init := (w.getD 7 0).getLsbD 11
     let wr := last && (i % 32 == 31 || i + 1 == selN w)
     if init || wr then t (pairAt w 4 + BitVec.ofNat 64 (i / 32 * 4)) 4 init wr else [])

/-- Write a uniform register of the selecting fragment. -/
def selSet (c : Ctx) (r : Nat) (x : Word) (s : State) : State := c.modP s fun p => p.setS r x

/-- Finish (R217). -/
def selFinish (c : Ctx) (m : MacroRun) (k : Nat) (img : Nat) (krem accb e : DWord) (s : State) : State :=
  let w := m.words
  let empty := decide (e.toNat ≤ krem.toNat)
  let accb' := sat32 accb.toNat
  let e' := if empty then 0 else sat32 e.toNat
  let ove := decide (2 ^ 32 ≤ e.toNat) && !empty
  let ovb := decide (2 ^ 32 ≤ accb.toNat)
  let s := c.modP s fun p => p.setSs m.d
    [if empty then 0 else BitVec.ofNat 32 (selUnimg w img), accb', e',
     BitVec.ofNat 32 (ove.toNat * 1024 + ovb.toNat * 512 + empty.toNat * 256 + selW w)]
  let s := c.setFrag s fun f => { f with prg := clearV (mkPrg k (selW w) (selN w % 2 ^ 32)) }
  let s := s.modCluster c.cl fun x => { x with selOwner := none }
  macroDone c m s

/-- One element of a SELQ or SELK (R216): the fault, or the state after it with the selection's word. The plane decision
or Finish that follows the last element of a phase is part of its step. -/
def selElem (c : Ctx) (m : MacroRun) (s : State) : State × Option Flt × Option MacroRun :=
  let w := m.words
  let wd := selW w
  let p := prgPhase c.f.prg
  let e := prgElem c.f.prg
  let f := if m.cls == clSELK then 1 else 0
  let sd := (c.p.getS m.d).toNat % 2 ^ wd
  let redo := p = wd && m.redo < e
  let i := if redo then m.redo else e
  let at_ (x : Flt) : Flt := { x with elem := BitVec.ofNat 32 e }
  match selRead c w i s with
  | (s, .error x) => (s, some (at_ x), none)
  | (s, .ok (cand, img, wt)) =>
    let bit := wd - 1 - p
    let eq := cand && img == sd
    let sel := if f = 0 then eq else cand && decide (sd ≤ img)
    let mask := if p = wd && sel then m.mask ||| (1#32 <<< (i % 32)) else m.mask
    if redo then (s, none, some { m with mask := mask, redo := i + 1 })
    else
      let counts := if p < wd then cand && img / 2 ^ (bit + 1) == sd / 2 ^ (bit + 1) && bitsAt img bit 1 == f else eq
      let prgx := if counts then c.f.prgx + BitVec.ofNat 64 wt else c.f.prgx
      let last := i + 1 = selN w
      let wordEnd := p = wd && (i % 32 == 31 || last)
      let put : State × Option Flt :=
        if wordEnd then
          match elemWrite c s (selSpace w 10) (pairAt w 4 + BitVec.ofNat 64 (i / 32 * 4)) 4 with
          | (s, .error x) => (s, some (at_ x))
          | (s, .ok l) =>
            (pathWrite s { path := .sl, op := m.op, key := c.key, who := c.who, lanes := c.f.lanes, pos := i, loc := l,
                           data := wordBytes mask }, none)
        else (s, none)
      match put with
      | (s, some x) => (s, some x, none)
      | (s, none) =>
        let m := { m with mask := if wordEnd then 0 else mask, redo := i + 1 }
        let s := c.setFrag (selSet c (m.d + 1) (sat32 prgx.toNat) s) fun x =>
          { x with prgx := prgx, prg := mkPrg m.cls p (i + 1) }
        if !last then (s, none, some m)
        else
          let krem := c.p.getSD (m.a + 12)
          let accb := c.p.getSD (m.a + 14)
          if p = wd then (selFinish c m m.cls sd krem accb prgx s, none, none)
          else
            let lt := decide (krem.toNat < prgx.toNat)
            let krem' := if lt then krem else krem - prgx
            let accb' := if lt then accb else accb + prgx
            let one := if lt then f == 1 else f == 0
            let sd' := sd / 2 ^ (bit + 1) * 2 ^ (bit + 1) + (if one then 2 ^ bit else 0) + sd % 2 ^ bit
            let s := c.modP s fun q =>
              let q := q.setSD (m.a + 12) krem'
              let q := q.setSD (m.a + 14) accb'
              (((q.setS m.d (BitVec.ofNat 32 sd')).setS (m.d + 1) 0).setS (m.d + 3) (BitVec.ofNat 32 (p + 1)))
            (c.setFrag s fun x => { x with prgx := 0, prg := mkPrg m.cls (p + 1) 0 }, none, some { m with redo := 0 })

/-- A selection starts or resumes on the free engine (R213, R216). -/
def selStart (c : Ctx) (m : MacroRun) (s : State) : State :=
  let w := m.words
  let resume := resumes c.f m.cls c.f.pc
  let p := prgPhase c.f.prg
  let e := prgElem c.f.prg
  if resume && (selW w < p || selN w ≤ e) then macroFault c (badProgress c.f) s
  else
    let s := s.modCluster c.cl fun x => { x with selOwner := some c.ref }
    let m := { m with op := s.ms.serial, mask := 0, redo := if resume && p = selW w then e / 32 * 32 else 0 }
    let s := if resume then s
      else
        let s := startMacro c m.cls 0 s
        let k := pairAt w 8
        c.modP s fun q => ((q.setSs m.d [0, 0, 0, 0]).setSD (m.a + 12) (if m.cls == clSELQ then k else k - 1)).setSD (m.a + 14) 0
    waitCharge c m (.select c.ref) selectCost (observe c [(m.op, none)] s.bump)

/-- SELQ and SELK at issue: checks, then the engine or a place in its line (R213). -/
def selBody (selk : Bool) (d a : Nat) : Body :=
  let cls := if selk then clSELK else clSELQ
  { reads := fun _ => RegSet.ss a 16, writes := fun _ => RegSet.ss d 4,
    touch := fun _ c m =>
      let w := block c a 16
      if resumes c.f cls c.f.pc then selTouch (lowLane m) w (prgPhase c.f.prg == selW w) (prgElem c.f.prg)
      else selTouch (lowLane m) w false 0,
    elem := resumeElem cls,
    run := fun c _ s =>
      let w := block c a 16
      let m : MacroRun := { cls := cls, op := 0, d := d, a := a, words := w, mask := 0, redo := 0, swm := c.sw }
      if !selOk c.b w (if selk then 1 else 0) d a then .whole (flt cENGDESC)
      else
        let cl := s.cluster c.cl
        if cl.selOwner.isNone && cl.selWait.isEmpty then .taken (selStart c m s)
        else
          .taken ((c.waitHere s (.selection m)).modCluster c.cl fun x => { x with selWait := x.selWait ++ [c.ref] }) }

/-- SELQ (R216): macro that finds a weighted quantile by walking bit planes of the image. -/
def bSelq (d : BitVec 7) (a : BitVec 7) : Body := selBody false d.toNat a.toNat
/-- The meaning of SELQ. -/
def execSelq (s : BitVec 1) (d : BitVec 7) (a : BitVec 7) (st : State) : Host.Outcome State Fault Refusal :=
  issue (.selq s d a) s (bSelq d a) st

/-- SELK (R216): macro that finds the K-th largest value and marks the top K. -/
def bSelk (d : BitVec 7) (a : BitVec 7) : Body := selBody true d.toNat a.toNat
/-- The meaning of SELK. -/
def execSelk (s : BitVec 1) (d : BitVec 7) (a : BitVec 7) (st : State) : Host.Outcome State Fault Refusal :=
  issue (.selk s d a) s (bSelk d a) st


/-! ## Collectives (R219–R225) -/

/-- The limits of a CLV's operand block (R221). -/
def clvOk (w : List Word) (f nrank : Nat) : Bool :=
  let x := (w.getD 5 0).toNat
  let ty := bitsAt x 0 3
  let narrow := bitsAt x 5 1 == 1
  decide ((w.getD 4 0).toNat < 2 ^ 31) && decide (1 ≤ clvCount w) && decide (x < 2 ^ 26) && bitsAt x 6 2 == 0 &&
    decide (ty ≤ 4) && bitsAt x 3 2 != 3 && (decide (f ≤ 1) || bitsAt x 3 2 == 0) &&
    (if f = 3 then decide (bitsAt x 16 10 < nrank) else bitsAt x 16 10 == 0) &&
    (!narrow || ((ty == 1 || ty == 2) && decide (f ≤ 1))) && w.getD 6 0 == 0 && w.getD 7 0 == 0 &&
    (pairAt w 0).toNat % clvSize w == 0 && (pairAt w 2).toNat % clvOut w f == 0

/-- A group as its launch bound it: NRANK, RBASE, RCNT, and the modules of its ranks (R220). -/
def groupOf (l : Launch) (g : Nat) : Option (Nat × Nat × Nat × List Nat) :=
  (l.groups.find? fun e => e.1 = g).map fun e => e.2

/-- CLV (R221): checks and queues a collective operation on a collective channel. -/
def bClv (d : BitVec 7) (a : BitVec 7) (f : BitVec 2) : Body :=
  { reads := fun _ => RegSet.ss a.toNat 8, writes := fun _ => RegSet.ss d.toNat 1,
    run := fun c _ s =>
      let w := block c a.toNat 8
      let g := clvGroup w
      match groupOf c.l g with
      | none => .whole (flt cENGDESC)
      | some (n, _, cnt, _) =>
        if !clvOk w f.toNat n || cnt ≤ c.key.blk then .whole (flt cENGDESC)
        else
          let k := tabGet 0 c.b.clvs g
          launchOp c (8 + bitsAt (w.getD 5 0).toNat 8 2) f.toNat d.toNat w k
            (fun s => c.modB s fun b => { b with clvs := tabSet b.clvs g (k + 1) }) s }
/-- The meaning of CLV. -/
def execClv (s : BitVec 1) (d : BitVec 7) (a : BitVec 7) (f : BitVec 2) (st : State) : Host.Outcome State Fault Refusal :=
  issue (.clv s d a f) s (bClv d a f) st


/-- Widen an operand element to the reduction's type (R223). -/
def clvWiden (ty x : Nat) : Word :=
  match ty with
  | 1 => rneF32 (valOf fBF16 x)
  | 2 => rneF32 (valOf fF16 x)
  | _ => BitVec.ofNat 32 x

/-- Op of R223. -/
def clvOp (ty op : Nat) (a b : Word) : Word :=
  if ty ≤ 2 then
    match op with
    | 0 => addF32rne a b
    | 1 => rneF32 (maxV (vF32 a) (vF32 b))
    | _ => rneF32 (minV (vF32 a) (vF32 b))
  else
    match op with
    | 0 => a + b
    | 1 => maxOp (ty - 3) a b
    | _ => minOp (ty - 3) a b

/-- One level of Tree: neighbours combined, a last one alone kept. -/
def treePairs (op : Word → Word → Word) : List Word → List Word
  | a :: b :: r => op a b :: treePairs op r
  | l => l
/-- Tree of R223 (fuel: its levels). -/
def clvTree (op : Word → Word → Word) : Nat → List Word → Word
  | 0, l => l.headD 0
  | n + 1, l => clvTree op n (treePairs op l)

/-- The result of a reduced element: rounded back when NARROW (R222, R223). -/
def clvResult (ty : Nat) (narrow : Bool) (x : Word) : Nat :=
  if narrow && ty = 1 then roundTo fBF16 .rne (vF32 x)
  else if narrow && ty = 2 then roundTo fF16 .rne (vF32 x)
  else x.toNat

/-- The operations of one collective on this module: the n-th CLV of each of its member blocks on the group (R219). -/
def clvPeers (s : State) (o : EngOp) : List (Block × EngOp) :=
  s.blocks.flatMap fun b =>
    if b.key.part = o.key.part && b.key.grid = o.key.grid then
      (b.ops.filter fun x => decide (8 ≤ x.ch) && clvGroup x.words = clvGroup o.words && x.nth = o.nth).map fun x => (b, x)
    else []

/-- Do two ranks' parameters agree (R225)? -/
def clvAgree (a b : EngOp) : Bool :=
  a.f == b.f && (a.words.getD 5 0).toNat % 64 == (b.words.getD 5 0).toNat % 64 && clvCount a.words == clvCount b.words &&
    bitsAt (a.words.getD 5 0).toNat 16 10 == bitsAt (b.words.getD 5 0).toNat 16 10

/-- The collective an operation takes part in. -/
def State.coll? (s : State) (o : EngOp) : Option Coll :=
  s.colls.find? fun x => x.part = o.key.part && x.grid = o.key.grid && x.group = clvGroup o.words && x.nth = o.nth

/-- Element i of rank j's SRC: as the rank left it when it was DONE, read by the rank's block, or, for a rank of another module, a
value free for the collective, the same for every rank here that reads it (R222, R223, log 44). -/
def clvOperand (co : Coll) (peers : List (Block × EngOp)) (base : Nat) (w : List Word) (s : State) (j i : Nat) :
    State × Except (EngOp × Flt) Nat :=
  match co.sent.find? fun e => e.1 = j, peers.find? fun e => base + e.1.key.blk = j with
  | some e, _ => (s, .ok (e.2.getD i 0))
  | none, none => (s, .ok ((Config.remoteValue co.seed j i).toNat % 2 ^ (8 * clvSize w)))
  | none, some e =>
    match opCtx s (opHome s e.2.id) e.2 with
    | none => (s, .ok 0)
    | some c =>
      match elemRead c s .global (pairAt e.2.words 0 + BitVec.ofNat 64 (i * clvSize w)) (clvSize w) with
      | (s, .error f) => (s, .error (e.2, f))
      | (s, .ok l) => (s, .ok (pathNat s .cl l (clvSize w)))

/-- The operands of element i over ranks 0 to n - 1. -/
def clvOperands (co : Coll) (peers : List (Block × EngOp)) (base : Nat) (w : List Word) (n i : Nat) (s : State) :
    State × Except (EngOp × Flt) (List Nat) :=
  (List.range n).foldl (fun x j =>
    match x with
    | (s, .error f) => (s, .error f)
    | (s, .ok l) =>
      (match clvOperand co peers base w s j i with
       | (s, .error f) => (s, .error f)
       | (s, .ok v) => (s, .ok (l ++ [v])))) (s, .ok [])

/-- Destination element e of rank r (R222). -/
def clvElem (co : Coll) (peers : List (Block × EngOp)) (base r n : Nat) (o : EngOp) (e : Nat) (s : State) :
    State × Except (EngOp × Flt) Nat :=
  let w := o.words
  let ty := bitsAt (w.getD 5 0).toNat 0 3
  let reduce (i : Nat) : State × Except (EngOp × Flt) Nat :=
    match clvOperands co peers base w n i s with
    | (s, .error f) => (s, .error f)
    | (s, .ok l) =>
      (s, .ok (clvResult ty ((w.getD 5 0).getLsbD 5)
        (clvTree (clvOp ty (bitsAt (w.getD 5 0).toNat 3 2)) 10 (l.map (clvWiden ty)))))
  match o.f with
  | 0 => reduce e
  | 1 => reduce (r * clvCount w + e)
  | 2 => clvOperand co peers base w s (e / clvCount w) (e % clvCount w)
  | _ => clvOperand co peers base w s (bitsAt (w.getD 5 0).toNat 16 10) e

/-- The operations of a collective end FAILED with ENGDESC at the chunk reached (R225), each in its turn on its channel (R198). -/
def clvFail (s : State) (peers : List (Block × EngOp)) : State :=
  peers.foldl (fun s e =>
    if e.2.st = .done || e.2.st = .failed then s
    else kickBlock (s.modOp e.2.id fun x => { x with doom := true }) e.2.key (opHome s e.2.id) e.2.ch) s

/-- The elements of one chunk written on the `.cl` path, or the first fault. -/
def clvChunk (co : Coll) (c : Ctx) (peers : List (Block × EngOp)) (base r n : Nat) (o : EngOp) (s : State) :
    State × Option (EngOp × Flt) :=
  let out := clvOut o.words o.f
  let total := clvElems o.words o.f n
  let first := o.elem * 65536 / out
  let cnt := min (65536 / out) (total - first)
  (List.range cnt).foldl (fun x k =>
    match x with
    | (s, some f) => (s, some f)
    | (s, none) =>
      (match clvElem co peers base r n o (first + k) s with
       | (s, .error f) => (s, some f)
       | (s, .ok v) =>
         (match elemWrite c s .global (pairAt o.words 2 + BitVec.ofNat 64 ((first + k) * out)) out with
          | (s, .error f) => (s, some (o, f))
          | (s, .ok l) =>
            (pathWrite s { path := .cl, op := o.id, key := o.key, who := o.who, lanes := o.lanes,
                           pos := (first + k) * out, loc := l, data := leBytes out v }, none)))) (s, none)

/-- Ranks this module holds of a collective: those that have issued it are its peers. -/
def clvReady (peers : List (Block × EngOp)) (cnt : Nat) : Bool :=
  decide ((peers.map fun e => e.1.key.blk).length = cnt)

/-- The other modules that hold ranks of a group. -/
def farModules (s : State) (mods : List Nat) : List Nat := (mods.filter fun m => m != s.hub.flid.toNat).eraseDups

/-- Can every other module of a group be reached: is the port it depends on trained (R225, R383)? -/
def clvLinked (s : State) (mods : List Nat) : Bool := (farModules s mods).all fun m => (s.port (linkPort m)).up

/-- SRC elements of a rank: those of every rank's DST for `.rs`, none away from ROOT for `.bc` (R222). -/
def clvSrc (w : List Word) (f n r : Nat) : Nat :=
  match f with
  | 1 => n * clvCount w
  | 3 => if bitsAt (w.getD 5 0).toNat 16 10 = r then clvCount w else 0
  | _ => clvCount w

/-- A rank is DONE when its own chunks are written (DESIGN CHOICE, log 99): its SRC, which later ranks of this module still read,
is kept as it stands then, and the collective is over with its last rank here. -/
def clvFinish (co : Coll) (peers : List (Block × EngOp)) (base r n cnt : Nat) (o : EngOp) (s : State) :
    State × Option (EngOp × Flt) :=
  let others (l : List Coll) : List Coll := l.filter fun x => x != co
  if cnt ≤ co.sent.length + 1 then (endOp { s with colls := others s.colls } o .done 0 0, none)
  else
    let got := (List.range (clvSrc o.words o.f n r)).foldl (fun x i =>
      match x with
      | (s, .error f) => (s, .error f)
      | (s, .ok l) =>
        (match clvOperand co peers base o.words s r i with
         | (s, .error f) => (s, .error f)
         | (s, .ok v) => (s, .ok (l ++ [v])))) ((s, .ok []) : State × Except (EngOp × Flt) (List Nat))
    match got with
    | (s, .error f) => (s, some f)
    | (s, .ok l) => (endOp { s with colls := others s.colls ++ [{ co with sent := co.sent ++ [(r, l)] }] } o .done 0 0, none)

/-- One chunk of a CLV of a collective in progress (R222–R225); what it brings to other modules goes out as flits (R383). -/
def clvRun (co : Coll) (c : Ctx) (cl base n cnt : Nat) (mods : List Nat) (o : EngOp) (s : State) : State :=
  let peers := clvPeers s o
  let r := base + o.key.blk
  let last := decide (chunks (clvElems o.words o.f n * clvOut o.words o.f) ≤ o.elem + 1)
  let out : State × Option (EngOp × Flt) :=
    match clvChunk co c peers base r n o s with
    | (t, some f) => (t, some f)
    | (t, none) =>
      let t := t.modBlock o.key fun b => { b with idem := false }
      let t := t.modOp o.id fun x => { x with elem := o.elem + 1, charged := false }
      if last then clvFinish co peers base r n cnt { o with elem := o.elem + 1 } t else (kick t cl o.ch, none)
  match out with
  | (t, none) => (farModules t mods).foldl sendChunk t
  | (_, some (p, f)) =>
    (match opCtx s (opHome s p.id) p with
     | some c => holdOp c p f s
     | none => s)

/-- A CLV whose charge has proceeded (R222–R225): before the first chunk of the collective the ranks' parameters are compared,
those of other modules' ranks by a free value; the chunk waits while a rank is held or out of reach. A rank that issues an operation
which system software has aborted fails too. -/
def clvStep (c : Ctx) (cl : Nat) (o : EngOp) (s : State) : State :=
  match groupOf c.l (clvGroup o.words) with
  | none => endOp s o .failed cENGDESC o.elem
  | some (n, base, cnt, mods) =>
    let peers := clvPeers s o
    if c.l.aborts.contains (clvGroup o.words, o.nth) then clvFail s [(c.b, o)]
    else if !clvLinked s mods || (peers.any fun e => e.2.st = .held) then s
    else
      match s.coll? o with
      | some co => clvRun co c cl base n cnt mods o s
      | none =>
        if !clvReady peers cnt then s
        else
          let (s, x) := if n = cnt then (s, 0) else s.free
          if x.getLsbD 0 || !(peers.all fun e => clvAgree o e.2) then clvFail s peers
          else
            let co : Coll :=
              { part := o.key.part, grid := o.key.grid, group := clvGroup o.words, nth := o.nth, seed := s.fresh, sent := [] }
            clvRun co c cl base n cnt mods o { s with fresh := s.fresh + 1, colls := s.colls ++ [co] }

end Sys2Proof.Machine
end

