-- ==== Sys2Proof/Machine/Ending.lean ====
section
/-! DEFINITION. Ending work before its time: a block killed (R308), a freeze that thaws (R344), a launch ended with fault
status (R322, R366, R375), and fragments stopped at an element boundary (R328, R359). -/
namespace Sys2Proof.Machine
open Sys2Proof

/-- Apply a function to every cluster of the table. -/
def State.mapClusters (s : State) (f : Cluster → Cluster) : State :=
  { s with clusters := s.clusters.map fun e => (e.1, f e.2) }

/-- Does a charger belong to a block? -/
def chargerOf (s : State) (k : Key) (w : Charger) : Bool :=
  match w with
  | .mcc x => x = k
  | .gather f => f.key = k
  | .select f => f.key = k
  | .chan _ id => (match s.op? id with
    | some (b, _) => b.key = k
    | none => false)
  | .coll _ id => (match s.op? id with
    | some (b, _) => b.key = k
    | none => false)

/-- Withdraw a block from the lines of its cluster: charges (R359), the selection engine (R337), full channels. `cpa`
also takes its copies off their channels, `clv` its collectives. -/
def leaveCluster (s : State) (k : Key) (cpa clv : Bool) : State :=
  let mine (id : Nat) : Bool := match s.op? id with
    | some (b, _) => b.key = k
    | none => false
  s.mapClusters fun c =>
    { c with
      charges := c.charges.filter fun x => !(chargerOf s k x.who && (match x.who with
        | .chan _ _ => cpa
        | .coll _ _ => clv
        | _ => true)),
      chq := c.chq.filter fun e => !(mine e.2 && (if e.1 < 8 then cpa else clv)),
      chBack := c.chBack.filter fun e => !(mine e.2 && cpa),
      chWait := c.chWait.filter fun e => e.2.key != k,
      selOwner := if c.selOwner.any fun f => f.key = k then none else c.selOwner,
      selWait := c.selWait.filter fun f => f.key != k }

/-- Every channel of a cluster looks at its head. -/
def kickAll (s : State) (cl : Nat) : State := (List.range 12).foldl (fun s ch => kick s cl ch) s

/-- Remove the waiters of a block from the condition monitors; an entry without waiters is freed (R291). -/
def leaveMonitors (s : State) (k : Key) : State :=
  s.modMs fun ms =>
    let left := ms.monitors.map fun m =>
      { m with waiters := m.waiters.filter (fun f => f.key != k), woken := m.woken.filter (fun f => f.key != k) }
    { ms with monitors := left.filter fun m => !m.waiters.isEmpty }

/-- Does a fault record's target lie in a block? -/
def targetIn (k : Key) (t : FTarget) : Bool :=
  match t with
  | .party x _ _ => x = k
  | .posted _ _ x _ _ => x = k
  | .engine x _ => x = k
  | .stop x _ _ _ _ => x = k
  | _ => false

/-- A block that no longer has to be saved (R326): PRECTL.GO reads 0 when no target is left. -/
def targetDone (s : State) (k : Key) : State :=
  s.modPart k.part fun q =>
    if q.target.contains k then
      let left := q.target.filter fun x => x != k
      { q with target := left, prectl := if left.isEmpty then q.prectl &&& 0x7FFFFFFF else q.prectl }
    else q

/-! ## Energy (R349) -/

/-- The partition a cluster belongs to (R374). -/
def State.ownerOf (s : State) (cl : Nat) : Option Nat :=
  (List.range 16).find? fun p => (s.part p).partctl.getLsbD 31 && ((s.part p).pclus.getD (cl / 64) 0).getLsbD (cl % 64)

/-- Apportion what a cluster's meter has gained since the last apportionment among its resident blocks, by their issues; the
rest goes to the device account of its partition. -/
def apportion (s : State) (cl : Nat) : State :=
  let c := s.cluster cl
  let gain := (c.em - c.emBase).toNat
  let bs := s.blocks.filter fun b => b.place = .resident cl
  let all := bs.foldl (fun n b => n + b.issues) 0
  let share (b : Block) : Nat := gain * b.issues / max 1 all
  let s := bs.foldl (fun s b => s.modLaunch b.key.part b.key.grid fun l => { l with energy := l.energy + share b }) s
  let s := s.modPart ((s.ownerOf cl).getD 0) fun q =>
    { q with deveacc := q.deveacc + BitVec.ofNat 64 (gain - bs.foldl (fun n b => n + share b) 0) }
  { s.setCluster cl { c with emBase := c.em } with
    blocks := s.blocks.map fun b => if b.place = .resident cl then { b with issues := 0 } else b }

/-- Kill a block (R308, R322): its context, queued accesses, pools, accumulators, tickets and waits are discarded and its
resources return to the cluster; records for it can no longer be answered (R335). Writes already on a path to HBM stay; those to
its scratchpad go with it. -/
def killBlock (s : State) (k : Key) : State :=
  let cl := (s.block? k).bind Block.cluster?
  let s := match cl with
    | some c => apportion s c
    | none => s
  let s := targetDone (leaveMonitors (leaveCluster s k true true) k) k
  let s := s.modMs fun ms =>
    { ms with queue := ms.queue.filter fun a => a.key != k, pool := ms.pool.filter fun r => r.key != k,
              redm := ms.redm.filter fun r => r.key != k,
              paths := ms.paths.filter fun w => (match w.loc with
                | .scr j _ => j != k
                | .hbm _ => true),
              seen := ms.seen.filter fun e => e.key != k }
  let s := s.modPart k.part fun p =>
    { p with mbWait := p.mbWait.filter fun f => f.key != k, calls := p.calls.filter fun c => c.f.key != k,
             faults := p.faults.map fun r => if targetIn k r.target then { r with answered := true } else r }
  let s := { s with blocks := s.blocks.filter fun b => b.key != k, pass := s.pass.filter fun e => e.1.key != k }
  match cl with
  | some c => kickAll s c
  | none => s

/-- An outstanding result of a fragment returns (R60): one parked at a switch marker goes on when none is left. -/
def returnResult (s : State) (r : FragRef) (reg : RegName) : State :=
  match (s.party? r.key r.who).bind fun p => p.fragOf r.lane with
  | some i =>
    let s := s.modFrag r.key r.who i fun g => { g with out := g.out.minus (RegSet.one reg) }
    s.modFrag r.key r.who i fun g =>
      if g.wait = .switch && !(resultsOut s r.key r.who g) then { g with wait := .run, pend := RegSet.none } else g
  | none => s

/-- Freezes without an unanswered report thaw, with every cluster that no other freeze of the partition holds; the replies of
its skid buffer are delivered in their order (R342, R344). -/
def thaw (s : State) (p : Nat) : State :=
  let q := s.part p
  let gone := q.freezes.filter fun f => f.seqs.isEmpty
  if gone.isEmpty then s
  else
    let left := q.freezes.filter fun f => !f.seqs.isEmpty
    let s := s.modPart p fun q =>
      { q with freezes := left, dbgctl := if left.isEmpty then q.dbgctl &&& 0xEFFFFFFF else q.dbgctl }
    (gone.flatMap fun f => f.clusters).foldl (fun s cl =>
      if left.any fun f => f.clusters.contains cl then s
      else
        let l := (s.cluster cl).skid
        l.foldl (fun s e => returnResult s e.1 e.2) (s.modCluster cl fun c => { c with frozen := false, skid := [] })) s

/-- Reports of a partition leave their freezes; with `whole`, the freezes they belong to end (R344). -/
def closeReports (s : State) (p : Nat) (l : List Word) (whole : Bool) : State :=
  thaw (s.modPart p fun q =>
    { q with freezes := q.freezes.map fun f =>
        if whole && f.seqs.any l.contains then { f with seqs := [] }
        else { f with seqs := f.seqs.filter fun n => !l.contains n } }) p

/-- End a launch as an answer with ACT 1 does (R322): every block killed, no further unit placed, fault status. A freeze
by its reports thaws with that (R344). -/
def endLaunch (s : State) (p g : Nat) : State :=
  let keys := (s.blocks.filter fun b => b.key.part = p && b.key.grid = g).map fun b => b.key
  let s := keys.foldl killBlock s
  let s := { s with gangs := s.gangs.filter fun x => !(x.part = p && x.grid = g) }
  let s := s.mapClusters fun c => { c with tasks := c.tasks.filter fun k => !(k.part = p && k.grid = g) }
  let s := match (s.launch? p g).bind fun l => l.node with
    | some (q, j) =>
      { s with graphs := s.graphs.map fun (x : Graph) => if x.queue = q then { x with units := x.units.filter (fun i => i != j) } else x }
    | none => s
  let s := s.modLaunch p g fun l => { l with fault := true, noMore := true, leaves := true, copies := [], again := [] }
  let stops := ((s.part p).faults.filter fun r => r.grid.toNat = g && (match r.target with
    | .stop _ _ _ _ _ => true
    | _ => false)).map fun r => r.seq
  let s := s.modPart p fun q =>
    { q with faults := q.faults.map fun r =>
               if r.grid.toNat = g && (match r.target with
                 | .completion _ => false
                 | .command _ => false
                 | .leaseWord => false
                 | _ => true) then { r with answered := true } else r }
  closeReports { s with colls := s.colls.filter fun x => !(x.part = p && x.grid = g) } p stops false

/-- A fragment stopped at its next element boundary (R39, R328): a macro's wait for a charge, a place in the selection
engine's line or a table read is given up, and the instruction is issued again later; a row of a TLD or TST that has started
is performed first (R277). An MBOX or SYSC goes on waiting for its release with the words it has read, and a TKW keeps its ticket
(R201, R258, R259, R328). What remains
of a PAUSE's count is discarded; its switch marker is not (R106). -/
def stopFrag (f : Frag) : Frag :=
  match f.wait with
  | .hold (.fence _ _ _ (_ :: _)) => f
  | .hold (.ticket _) => f
  | .hold _ => { f with wait := .run }
  | .charge _ => { f with wait := .run }
  | .array _ => { f with wait := .run }
  | .rows m => if m.cls == clTLD || m.cls == clTST then f else { f with wait := .run }
  | .selection _ => { f with wait := .run }
  | .chan _ => { f with wait := .run }
  | .pause _ _ sw => { f with wait := if sw then .pause 0 0 true else .run }
  | _ => f

end Sys2Proof.Machine
end

