-- ==== Sys2Proof/Machine/Replay.lean ====
section
/-! DEFINITION. The peat log (R245, R350, R351): what a RECORD launch appends, and what a REPLAY launch takes from it. -/
namespace Sys2Proof.Machine
open Sys2Proof

/-- RECORD of a launch's flags (R365). -/
def Launch.recording (l : Launch) : Bool := l.lr.flags.getLsbD 2
/-- REPLAY. -/
def Launch.replaying (l : Launch) : Bool := l.lr.flags.getLsbD 3

/-- The home stack of an HBM address (R281): by MODE of HMAP, one 64 GiB range a stack, or consecutive 4 KiB stripes. -/
def homeStack (s : State) (pa : Nat) : Nat :=
  if s.hub.hmap.getLsbD 0 then (bitsAt pa 12 4 + bitsAt pa 36 4) % 16 else bitsAt pa 36 4

/-- The L2 slice, and with it the bank, of a physical address: one of the 128 of the compute die to which its home stack is
attached (R2, R281); which one, a hash of the line address says that software cannot see (log 16). -/
def bankOf (s : State) (pa : Nat) : Nat := homeStack s pa / 4 * 128 + Config.slice s.hub.hmap (pa / 128) % 128
/-- The number under which the order of WAITCMP wakes, variant choices and returns is kept. -/
def noBank : Nat := 512

/-- Append an entry to a recording launch's log; when the log is full, recording stops and PEATOVF is set (R350). -/
def peatAdd (s : State) (k : Key) (e : PeatEntry) : State :=
  s.modLaunch k.part k.grid fun l =>
    if !l.recording || l.peatovf then l
    else if l.peat.length < Config.peatCap l.lr.psize then { l with peat := l.peat ++ [e] }
    else { l with peatovf := true }

/-- What a replay says to an access. -/
inductive Turned where
  /-- The launch does not replay: the access takes effect as it comes. -/
  | free
  /-- It is the access's turn: the recorded values. -/
  | go (vals : List DWord)
  /-- Another recorded access of the bank comes first. -/
  | wait
  /-- The log does not match the access: the replay diverges. -/
  | diverge

/-- Entries whose order counts: accesses of a bank and WAITCMP wakes; a variant choice or return has its turn as its
thread comes to it. -/
def ordered (kind : Nat) : Bool := kind != 2 && kind != 3

/-- Entries whose access is found by its PC and bank, since a thread's streams are not ordered among themselves: atomics and
updates. The others come in the order of their thread. -/
def byBank (kind : Nat) : Bool := kind == 0 || kind == 4

/-- Is an entry the one of an access of a thread: the thread's next of its kind, or its next at the bank? -/
def PeatEntry.of (e : PeatEntry) (kind blk : Nat) (thread : BitVec 16) (pc : Addr) (bank : Nat) : Bool :=
  e.kind = kind && e.blk = blk && e.thread = thread && (!byBank kind || (e.pc = pc && e.bank = bank))

/-! ## Which threads can still come (R351) -/

/-- A thread of a launch: its block's index and its THREAD number. -/
abbrev ThreadName := Nat × BitVec 16

/-- The party and the lane of a thread. -/
def threadWho (l : Launch) (t : BitVec 16) : Who × Nat :=
  if t == 0xFFFF then (.mcc, 0) else (.warp (t.toNat / l.lr.width), t.toNat % l.lr.width)

/-- The places in the stream queues of a thread's accesses. -/
def threadQueue (s : State) (l : Launch) (t : ThreadName) : List Nat :=
  let k : Key := { part := l.part, grid := l.grid, blk := t.1 }
  let w := threadWho l t.2
  (List.range s.ms.queue.length).filter fun i => match s.ms.queue[i]? with
    | some a => a.key = k && a.who = w.1 && (w.1 = .mcc || a.lanes.getLsbD w.2)
    | none => false

/-- The kind and bank under which a queued access has its turn, when it has one and its place is known. -/
def accBank (s : State) (a : Access) : Option (Nat × Nat) :=
  match a.kind, a.pa with
  | .atom _ _ _ _, some pa => some (0, bankOf s pa)
  | .atomS _ _ _, some pa => some (0, bankOf s pa)
  | .acas _ _ _ _ _, some pa => some (0, bankOf s pa)
  | .waitRead _, _ => some (1, noBank)
  | _, _ => none

/-- The entries that come before an access's turn: those of its bank before its own, or every one left, where it is none of the recorded
prefix. -/
def turnsBefore (s : State) (l : Launch) (left : List PeatEntry) (a : Access) : List PeatEntry :=
  match accBank s a with
  | none => []
  | some (kind, bank) =>
    match left.find? fun e => e.of kind a.key.blk (threadOf l.lr.width a.who a.lanes) a.pc bank with
    | some e => (left.takeWhile fun x => x != e).filter fun x => x.bank = e.bank && ordered x.kind
    | none => if l.prefix_ then left else []

/-- Can a queued access perform, if the threads of `live` make theirs: it has its turn, and so have those that it follows? -/
def accLive (s : State) (l : Launch) (left : List PeatEntry) (live : List ThreadName) (i : Nat) : Bool :=
  (List.range (i + 1)).all fun j =>
    match s.ms.queue[j]?, s.ms.queue[i]? with
    | some b, some a =>
      !(j = i || mustFollow b a) || (turnsBefore s l left b).all fun e => live.contains (e.blk, e.thread)
    | _, _ => true

/-- Does a fragment's wait end with its own accesses only? -/
def Wait.own (s : State) (k : Key) (who : Who) (f : Frag) : Bool :=
  match f.wait with
  | .switch => resultsOut s k who f
  | .hold .results => resultsOut s k who f
  | .hold (.coming r) => r.meets (comingRegs s k who f.lanes)
  | .hold .performed => true
  | .hold (.fence rel _ _ _) => !streamEmpty s k who f.lanes fun n => rel.getLsbD n
  | .condRead _ => true
  | .table _ => true
  | _ => false

/-- Does a fragment's wait end with what others of its launch do? -/
def Wait.others : Wait → Bool
  | .join _ => true
  | .bar _ _ => true
  | .gbar _ _ => true
  | .wave => true
  | .regtake => true
  | .tile _ => true
  | .drain _ => true
  | _ => false

/-- Does any fragment of a launch go on by itself? -/
def anyoneRuns (s : State) (l : Launch) : Bool :=
  s.blocks.any fun b =>
    b.key.part = l.part && b.key.grid = l.grid &&
      (b.cluster?.isNone || (b.fragsWhere fun f => !f.wait.others).any fun e =>
        match ((b.party? e.1).bind fun p => p.frags[e.2]?) with
        | some f => !Wait.own s b.key e.1 f
        | none => false)

/-- Can a thread still make an access, if those of `live` can: its fragment goes on, or one of its accesses can perform? One that has
exited makes those that it has queued; one of a block that is not resident comes back with it. -/
def threadLive (s : State) (l : Launch) (left : List PeatEntry) (live : List ThreadName) (t : ThreadName) : Bool :=
  let k : Key := { part := l.part, grid := l.grid, blk := t.1 }
  let w := threadWho l t.2
  let acc := (threadQueue s l t).any (accLive s l left live)
  match s.block? k with
  | none =>
    decide (l.next ≤ t.1) || (s.clusters.any fun c => c.2.tasks.contains k) || l.again.any fun b => l.lr.gangOf b = l.lr.gangOf t.1
  | some b =>
    if b.cluster?.isNone then true
    else
      match b.party? w.1 with
      | none => false
      | some p =>
        if (w.1 = .mcc && b.mccEnded) || p.exited.getLsbD w.2 || p.ws = .free then acc
        else
          match (p.fragOf w.2).bind fun i => p.frags[i]? with
          | none => acc
          | some f => acc || (if f.wait.others then anyoneRuns s l else !Wait.own s k w.1 f)

/-- The threads that can still come, of those that have entries left: one after another joins them (fuel: their number). -/
def liveThreads (s : State) (l : Launch) (left : List PeatEntry) : Nat → List ThreadName → List ThreadName
  | 0, live => live
  | n + 1, live =>
    liveThreads s l left n
      (live ++ (((left.map fun e => (e.blk, e.thread)).eraseDups.filter fun t => !live.contains t).filter (threadLive s l left live)))

/-- Can the threads of every entry of a list still come? -/
def mayCome (s : State) (l : Launch) (left es : List PeatEntry) : Bool :=
  let live := liveThreads s l left (left.map fun e => (e.blk, e.thread)).eraseDups.length []
  es.all fun e => live.contains (e.blk, e.thread)

/-- The turn of an access of a thread at a PC and bank (R351). It waits for the earlier entries of its bank, and beyond the recorded
prefix of a log that overflowed for the whole prefix, as long as their threads can still come; where one cannot, since it waits behind
this access, or has ended, the log does not match, and the replay diverges. So it does for an access without an entry. -/
def peatTurn (s : State) (l : Launch) (kind blk : Nat) (thread : BitVec 16) (pc : Addr) (bank : Nat) : Turned :=
  if !l.replaying then .free
  else
    let left := l.peat.filter fun e => !e.used
    match left.find? fun e => e.of kind blk thread pc bank with
    | none => if l.prefix_ && !left.isEmpty && mayCome s l left left then .wait else .diverge
    | some e =>
      if e.pc != pc then .diverge
      else if !ordered kind then .go e.vals
      else
        match (left.takeWhile fun x => x != e).find? fun x => x.bank = e.bank && ordered x.kind with
        | some x => if mayCome s l left [x] then .wait else .diverge
        | none => .go e.vals

/-- Use up the entry of an access's turn. -/
def peatUse (s : State) (k : Key) (kind : Nat) (thread : BitVec 16) (pc : Addr) (bank : Nat) : State :=
  s.modLaunch k.part k.grid fun l => if l.replaying then { l with peat := mark l.peat } else l
where
  mark : List PeatEntry → List PeatEntry
    | [] => []
    | e :: r => if !e.used && e.of kind k.blk thread pc bank then { e with used := true } :: r else e :: mark r

/-- The replay diverges (R351): the launch ends with fault status and REPDIV. -/
def diverge (s : State) (k : Key) : State :=
  (endLaunch s k.part k.grid).modLaunch k.part k.grid fun l => { l with repdiv := true }

end Sys2Proof.Machine
end

