-- ==== Sys2Proof/Machine/Variant.lean ====
section
/-! DEFINITION. Variant tables (R226–R246): table reads, selection, calls, returns, limits, tags and meters. The
Lamplighter's step on an update is applyUpdate; PERFORM and LAMPLIGHTER_UPDATE call it. -/
namespace Sys2Proof.Machine
open Sys2Proof

/-! ## The table in memory (R227–R229) -/

/-- An n-byte field of a header or an entry. -/
def fieldAt (b : List Byte) (o n : Nat) : Nat := leNat ((b.drop o).take n)
/-- Are n bytes zero? -/
def zeroAt (b : List Byte) (o n : Nat) : Bool := fieldAt b o n == 0

/-- COUNT. -/
def tabCount (h : List Byte) : Nat := fieldAt h 0 1
/-- SHIFT. -/
def tabShift (h : List Byte) : Nat := fieldAt h 2 1
/-- FROZEN, FALLBACK and RLOG, bits 0, 1 and 2 of byte 1. -/
def tabFlag (h : List Byte) (n : Nat) : Bool := bitsAt (fieldAt h 1 1) n 1 == 1
/-- H. -/
def tabH (h : List Byte) : Nat := fieldAt h 4 4
/-- LOGADDR. -/
def tabLog (h : List Byte) : Nat := fieldAt h 16 8
/-- LOGCAP. -/
def tabCap (h : List Byte) : Nat := fieldAt h 24 4
/-- LOGPOS. -/
def tabPos (h : List Byte) : Nat := fieldAt h 28 4

/-- The header conditions of R229. -/
def headerOk (h : List Byte) : Bool :=
  decide (1 ≤ tabCount h) && decide (tabCount h ≤ 8) && decide (1 ≤ tabShift h) && decide (tabShift h ≤ 7) &&
    decide (fieldAt h 1 1 < 8) && zeroAt h 3 1 && zeroAt h 32 32 &&
    (!tabFlag h 2 || (tabLog h % 32 == 0 && decide (1 ≤ tabCap h) && decide (tabCap h ≤ 2 ^ 24)))

/-- The entry conditions of R229. -/
def entryOk (e : List Byte) : Bool :=
  fieldAt e 0 8 % 64 == 0 && decide (fieldAt e 0 8 < 2 ^ 55) && zeroAt e 18 2 && zeroAt e 30 2 && zeroAt e 48 16

/-! ## Judging and selecting (R236, R237) -/

/-- Judge: time, energy, error figure of an entry read at a DTIME, and whether it is stale. -/
def judge (h : List Byte) (e : List Byte) (now : Nat) : Nat × Nat × Nat × Bool :=
  let last := fieldAt e 40 8
  let stale := zeroAt e 32 4 || (tabH h != 0xFFFFFFFF && decide (last ≤ now) && decide (tabH h * 1000 < now - last))
  let q := if stale || zeroAt e 36 4 then fieldAt e 28 2 else fieldAt e 16 2
  if stale then (fieldAt e 20 4, fieldAt e 24 4, q, true) else (fieldAt e 8 4, fieldAt e 12 4, q, false)

/-- Limits in force for a call: time, energy, error figure. -/
structure Limits where
  t : Word
  e : Word
  q : BitVec 16

/-- How far a value exceeds a limit. -/
def exceed (v l u : Nat) : Nat := if l = u || v ≤ l then 0 else min ((v - l) * 65536 / max l 1) (2 ^ 32 - 1)

/-- The index with the least key, the lowest on a tie. -/
def leastBy (key : Nat → Nat) : List Nat → Option Nat
  | [] => none
  | i :: r =>
    match leastBy key r with
    | none => some i
    | some j => if key j < key i then some j else some i

/-- Select (R237): the entry and its flags FALLBACK (bit 9) and BOUND (bit 8), or none for VNONE. -/
def select (h : List Byte) (ents : List (List Byte × DWord)) (lim : Limits) (opt : Nat) : Option (Nat × Nat) :=
  let j (i : Nat) : Nat × Nat × Nat × Bool :=
    let e := ents.getD i ([], 0)
    judge h e.1 e.2.toNat
  let bound (i : Nat) : Nat := if (j i).2.2.2 then 256 else 0
  let axis (i : Nat) : Nat := if opt = 0 then (j i).1 else if opt = 1 then (j i).2.1 else (j i).2.2.1
  let fits (i : Nat) : Bool :=
    decide ((j i).1 ≤ lim.t.toNat) && decide ((j i).2.1 ≤ lim.e.toNat) && decide ((j i).2.2.1 ≤ lim.q.toNat)
  let score (i : Nat) : Nat :=
    exceed (j i).1 lim.t.toNat 0xFFFFFFFF + exceed (j i).2.1 lim.e.toNat 0xFFFFFFFF +
      exceed (j i).2.2.1 lim.q.toNat 0xFFFF
  let all := List.range (tabCount h)
  match leastBy axis (all.filter fits) with
  | some i => some (i, bound i)
  | none => if tabFlag h 1 then (leastBy score all).map fun i => (i, 512 + bound i) else none

/-- EffLimits (R236): the current limits and the budgets kept at issue. -/
def effLimits (p : Party) (t : TableWait) : Limits :=
  { t := if t.elT.toNat ≤ p.limT.toNat then t.elT else p.limT,
    e := if t.elE.toNat ≤ p.limE.toNat then t.elE else p.limE,
    q := if t.elQ.toNat ≤ p.limQ.toNat then t.elQ else p.limQ }

/-- A budget of R236: what is left of a limit, times n/16; unlimited stays so. -/
def budget (el spent : Word) (n : Nat) : Word :=
  if el == 0xFFFFFFFF then el else BitVec.ofNat 32 ((el.toNat - spent.toNat) * n / 16)

/-! ## Table reads (R235, R243) -/

/-- A call ends at a fault: the reserved record is released, the fragment faults at the instruction. -/
def tableFault (c : Ctx) (t : TableWait) (f : Flt) (s : State) : State :=
  let s := c.modP s fun p => if t.form = 2 then p else { p with reserved := p.reserved.filter fun n => n != t.cr }
  let s := c.setFrag s fun g => { g with wait := .run }
  raise s c.key c.who c.i [(c.f.lanes, f)] 0 false c.f.pc

/-- The next read of a table: the header, then the entries ascending, each an access of st0 of every thread. -/
def tableNext (c : Ctx) (t : TableWait) (s : State) : State :=
  let va := t.table + BitVec.ofNat 64 (64 * t.stage)
  match checkOne c .global va 64 true false false s with
  | (s, .error f) => tableFault c t f s
  | (s, .ok pa) =>
    State.bump (enqueue (c.waitHere s (.table t))
      [{ serial := s.ms.serial, key := c.key, who := c.who, lanes := c.f.lanes, stream := 0, pc := c.f.pc,
         space := .global, va := va, pa := pa, kind := .tableRead, held := none, dbl := c.dbl }])

/-- A deferred result: its registers enter the pending set, the fragment goes to a PC, a switch marker parks (R60). -/
def deliver (c : Ctx) (sw : Bool) (wr : RegSet) (pc : Addr) (s : State) : State :=
  c.setFrag s fun f => advance s c sw wr f.lanes pc f

/-- A VCALL or VFORCE whose entry is chosen (R235): the record, the limits, s[D] and the PC. -/
def callEntry (c : Ctx) (t : TableWait) (lim : Limits) (i flags : Nat) (s : State) : State :=
  let r : CallRec :=
    { id := t.cr, table := t.table, idx := i, bound := flags / 256 % 2 == 1, fallb := flags / 512 % 2 == 1,
      force := flags / 1024 % 2 == 1, ret := c.f.pc + 4, savT := c.p.limT, savE := c.p.limE, savQ := c.p.limQ,
      elT := lim.t, elE := lim.e, elQ := lim.q, opt := c.p.opt, cyc0 := t.cyc0, em0 := t.em0, is0 := t.is0, fs := 0,
      tacc := 0, eacc := 0 }
  let s := c.modP s fun p =>
    let p := { p with calls := p.calls ++ [r], reserved := p.reserved.filter fun n => n != t.cr,
                      limT := lim.t, limE := lim.e, limQ := lim.q }
    let p := p.setS t.d (BitVec.ofNat 32 (flags + i))
    { p with callIds := Vector.ofFn fun L : Fin 64 =>
        if c.f.lanes.getLsbD L then t.cr :: vget p.callIds L [] else vget p.callIds L [] }
  deliver c t.swm (RegSet.ss t.d 1) (BitVec.ofNat 55 (fieldAt (t.ents.getD i ([], 0)).1 0 8)) s

/-- The thread name of the context's lowest lane. -/
def Ctx.thread (c : Ctx) : BitVec 16 := threadOf c.l.lr.width c.who c.f.lanes

/-- A call with its whole table read: VFORCE's entry, a replay's, or Select's; beyond the recorded prefix of a log that overflowed
a replay chooses by itself (log 25). A recorded index that is not below COUNT as the table is now read is taken all the same, and its
entry's PC is 0 (DESIGN CHOICE, log 117). -/
def callChoose (c : Ctx) (t : TableWait) (s : State) : State :=
  let lim := effLimits c.p t
  let done (i flags : Nat) (s : State) : State :=
    callEntry c t lim i flags (peatAdd s c.key
      { kind := 2, blk := c.key.blk, thread := c.thread, pc := c.f.pc, bank := noBank,
        vals := [BitVec.ofNat 64 (flags + i)], used := false })
  match peatTurn s c.l 2 c.key.blk c.thread c.f.pc noBank with
  | .diverge => diverge s c.key
  | .go vals =>
    let x := (vals.headD 0).toNat
    callEntry c t lim (x % 8) (x / 8 * 8) (peatUse s c.key 2 c.thread c.f.pc noBank)
  | _ =>
    if t.form = 1 then
      if tabCount t.hdr ≤ t.sel.toNat then tableFault c t (flt cVNONE) s
      else
        let e := t.ents.getD t.sel.toNat ([], 0)
        done t.sel.toNat (1024 + if (judge t.hdr e.1 e.2.toNat).2.2.2 then 256 else 0) s
    else
      match select t.hdr t.ents lim c.p.opt with
      | none => tableFault c t (flt cVNONE) s
      | some (i, flags) => done i flags s

/-- A VTAG with its whole table read (R244). -/
def tagRead (c : Ctx) (t : TableWait) (s : State) : State :=
  if tabCount t.hdr ≤ t.sel.toNat then tableFault c t (flt cVNONE) s
  else
    let e := t.ents.getD t.sel.toNat ([], 0)
    let stale := (judge t.hdr e.1 e.2.toNat).2.2.2
    let q := fieldAt e.1 16 2 + stale.toNat * 65536 + (!zeroAt e.1 36 4).toNat * 131072
    let s := c.modP s fun p => p.setSs t.d
      [BitVec.ofNat 32 (fieldAt e.1 8 4), BitVec.ofNat 32 (fieldAt e.1 12 4), BitVec.ofNat 32 q,
       BitVec.ofNat 32 (fieldAt e.1 32 4)]
    deliver c t.swm (RegSet.ss t.d 4) (c.f.pc + 4) s

/-- A 64-byte read of the table has performed (R229, R235). -/
def tableGot (c : Ctx) (t : TableWait) (bytes : List Byte) (s : State) : State :=
  if t.stage = 0 then
    if headerOk bytes then tableNext c { t with stage := 1, hdr := bytes } s else tableFault c t (flt cVTABLE) s
  else
    let t := { t with ents := t.ents ++ [(bytes, BitVec.ofNat 64 s.dtime)], stage := t.stage + 1 }
    if t.stage ≤ tabCount t.hdr then tableNext c t s
    else if !(t.ents.all fun e => entryOk e.1) then tableFault c t (flt cVTABLE) s
    else if t.form = 2 then tagRead c t s
    else callChoose c t s

/-- The first read of a table at issue. -/
def tableStart (c : Ctx) (t : TableWait) (s : State) : Res :=
  if t.table.toNat % 64 != 0 then .whole (flt cVTABLE)
  else
    match checkOne c .global t.table 64 true false false s with
    | (s, .error f) => .faulted f s
    | (s, .ok _) =>
      .taken (tableNext c t
        (c.modP s fun p => if t.form = 2 then p else { p with reserved := p.reserved ++ [t.cr] }))

/-- The wait of a table instruction before anything is read. -/
def tableWait (c : Ctx) (s : State) (form d frac a : Nat) (sel : Word) : TableWait :=
  let cl := s.cluster c.cl
  { form := form, d := d, frac := frac, sel := sel, table := c.p.getSD a, stage := 0, hdr := [], ents := [], cr := 0,
    cyc0 := cl.cycles, em0 := cl.em, is0 := cl.is + c.slots, elT := 0xFFFFFFFF, elE := 0xFFFFFFFF, elQ := 0xFFFF,
    swm := c.sw }

/-- VCALL and VFORCE at issue (R235): the record checks, the budgets of R236, the first read. -/
def callBody (force : Bool) (d a b : Nat) : Body :=
  { reads := fun _ => if force then (RegSet.ss a 2).or (RegSet.ss d 1) else RegSet.ss a 2,
    writes := fun _ => RegSet.ss d 1,
    run := fun c _ s =>
      match (List.range 8).find? fun n => !(c.p.calls.any fun r => r.id = n) && !c.p.reserved.contains n with
      | none => .whole (flt cVDEPTH)
      | some n =>
        if !c.p.topsAgree c.f.lanes then .whole (flt cVDEPTH)
        else
          let k := if b = 0 then 16 else b
          let t := { tableWait c s (if force then 1 else 0) d k a (c.p.getS d) with cr := n }
          match c.p.top (lowLane c.f.lanes) with
          | none => tableStart c t s
          | some r =>
            let (st, se) := c.spent s r
            tableStart c { t with elT := budget r.elT st k, elE := budget r.elE se k, elQ := r.elQ } s }

/-- VCALL (R235): selects an entry of a variant table under the limits and calls it. -/
def bVcall (d : BitVec 7) (a : BitVec 7) (b : BitVec 7) : Body := callBody false d.toNat a.toNat b.toNat
/-- The meaning of VCALL. -/
def execVcall (s : BitVec 1) (d : BitVec 7) (a : BitVec 7) (b : BitVec 7) (st : State) : Host.Outcome State Fault Refusal :=
  issue (.vcall s d a b) s (bVcall d a b) st

/-- VFORCE (R235): calls a named entry of a variant table. -/
def bVforce (d : BitVec 7) (a : BitVec 7) (b : BitVec 7) : Body := callBody true d.toNat a.toNat b.toNat
/-- The meaning of VFORCE. -/
def execVforce (s : BitVec 1) (d : BitVec 7) (a : BitVec 7) (b : BitVec 7) (st : State) : Host.Outcome State Fault Refusal :=
  issue (.vforce s d a b) s (bVforce d a b) st


/-! ## The Lamplighter (R241, R242) -/

/-- What an update comes to: discarded, at the header's place or its entry's; a translation fault; or the writes of its step. -/
inductive Lamp where
  | discard (pa : Nat)
  | stop (f : Flt)
  | writes (rd : List Nat) (l : List (Nat × List Byte))

/-- A tag drawn towards a sample (R241): the difference shifted arithmetically. -/
def drawn (old x shift : Nat) : Nat := ((old : Int) + ((x : Int) - old) / 2 ^ shift).toNat

/-- Physical addresses of the header and the entries 0 to n of a table: each 64 bytes, translated to be written; partials of
their lines are collected first (R152, R271). -/
def tablePlaces (cl part asid : Nat) (va : DWord) (w : Bool) : Nat → State → State × Except Flt (List Nat)
  | 0, s => (s, .ok [])
  | n + 1, s =>
    match tablePlaces cl part asid va w n s with
    | (s, .error f) => (s, .error f)
    | (s, .ok l) =>
      let a := va.toNat + 64 * n
      if 2 ^ 55 ≤ a then (s, .error { flt cPAGE with addr := BitVec.ofNat 64 a })
      else
        match translate s cl part asid a true w false with
        | (s, .error f) => (s, .error f)
        | (s, .ok pa) =>
          let (s, bad) := eccRead s part pa 64
          if bad then (s, .error { flt cECCU with addr := BitVec.ofNat 64 a })
          else (s.modMs fun ms => collect ms pa 64, .ok (l ++ [pa]))

/-- Bytes o to o + n - 1 of a list replaced by a number. -/
def putField (b : List Byte) (o n x : Nat) : List Byte := b.take o ++ leBytes n x ++ b.drop (o + n)

/-- The Lamplighter's step for an update of a table at an address (R241): what it reads and what it writes, the entry second. -/
def lampStep (cl part asid grid : Nat) (va : DWord) (idx : Nat) (t e : Word) (q : Option (BitVec 16)) (s : State) :
    State × Lamp :=
  match tablePlaces cl part asid va true 1 s with
  | (s, .error f) => (s, .stop f)
  | (s, .ok hp) =>
    let hdr := memRead s.ms.mem (hp.headD 0) 64
    if !headerOk hdr then (s, .discard (hp.headD 0))
    else
      match tablePlaces cl part asid va true (1 + tabCount hdr) s with
      | (s, .error f) => (s, .stop f)
      | (s, .ok pl) =>
        let ents := (pl.drop 1).map fun pa => memRead s.ms.mem pa 64
        if !(ents.all entryOk) || tabCount hdr ≤ idx || tabFlag hdr 0 then
          (s, .discard (pl.getD (if tabCount hdr ≤ idx then 0 else idx + 1) 0))
        else
          let x := ents.getD idx []
          let first := zeroAt x 32 4
          let sh := tabShift hdr
          let mt := if first then t.toNat else drawn (fieldAt x 8 4) t.toNat sh
          let me := if first then e.toNat else drawn (fieldAt x 12 4) e.toNat sh
          let x1 := putField (putField (putField x 8 4 mt) 12 4 me) 32 4 (min (fieldAt x 32 4 + 1) 0xFFFFFFFF)
          let x2 := match q with
            | none => x1
            | some v =>
              putField (putField x1 16 2 (if zeroAt x 36 4 then v.toNat else drawn (fieldAt x 16 2) v.toNat sh)) 36 4
                (min (fieldAt x 36 4 + 1) 0xFFFFFFFF)
          let x3 := putField x2 40 8 s.dtime
          let seq := (fieldAt hdr 8 8 + 1) % 2 ^ 64
          let h1 := putField hdr 8 8 seq
          let base := [(hp.headD 0, h1), (pl.getD (idx + 1) 0, x3)]
          if !tabFlag hdr 2 then (s, .writes pl base)
          else
            let la := (tabLog hdr + 32 * tabPos hdr) % 2 ^ 64
            let tr : State × Except Flt Nat :=
              if 2 ^ 55 ≤ la then (s, .error { flt cPAGE with addr := BitVec.ofNat 64 la })
              else translate s cl part asid la false true false
            match tr with
            | (s, .error f) => (s, .stop f)
            | (s, .ok lp) =>
              let rec_ := leBytes 8 seq ++ leBytes 4 grid ++ leBytes 4 (idx + q.isSome.toNat * 8 + first.toNat * 16) ++
                leBytes 4 t.toNat ++ leBytes 4 e.toNat ++ leBytes 2 ((q.getD 0).toNat) ++ leBytes 6 0
              let h2 := putField h1 28 4 ((tabPos hdr + 1) % tabCap hdr)
              (s.modMs fun ms => collect ms lp 32, .writes pl [(hp.headD 0, h2), (pl.getD (idx + 1) 0, x3), (lp, rec_)])

/-! ## Returning (R240) -/

/-- VRET: checks, the pop, the update on its way, the return. A sector of the table that cannot be read is found as the VRET issues, so
that its ECCU is precise (R292); the update itself is made later. -/
def returnCall (q : Option (BitVec 16)) (c : Ctx) (s0 : State) : Res :=
  let s := s0
  match c.p.top (lowLane c.f.lanes) with
  | none => .whole (flt cVDEPTH)
  | some r =>
    let holders := lanesOf fun L => c.p.live.getLsbD L && (vget c.p.callIds L []).head? == some r.id
    if !c.p.topsAgree c.f.lanes || holders != c.f.lanes then .whole (flt cVDEPTH)
    else
      let (t, e) := c.spent s r
      let w (x : Word) : DWord := x.setWidth 64
      let go (t e : Word) (q : Option (BitVec 16)) (s : State) : Res :=
        let s := c.modP s fun p =>
          { p with limT := r.savT, limE := r.savE, limQ := r.savQ, calls := p.calls.filter fun x => x.id != r.id,
                   callIds := Vector.ofFn fun L : Fin 64 =>
                     if c.f.lanes.getLsbD L then (vget p.callIds L []).tail else vget p.callIds L [] }
        let post (s : State) : Res := .done (State.bump (enqueue s
          [{ serial := s.ms.serial, key := c.key, who := c.who, lanes := c.f.lanes, stream := 0, pc := c.f.pc,
             space := .global, va := r.table, pa := none, kind := .update r.idx t e q, held := none, dbl := c.dbl }])) [] (.jump r.ret)
        match lampStep c.cl c.key.part c.l.lr.asid c.key.grid r.table r.idx t e q s0 with
        | (u, .stop f) => if f.code = cECCU then .faulted f u else post s
        | _ => post s
      match peatTurn s c.l 3 c.key.blk c.thread c.f.pc noBank with
      | .diverge => .taken (diverge s c.key)
      | .go vals =>
        let z := (vals.getD 2 0).toNat
        go ((vals.getD 0 0).setWidth 32) ((vals.getD 1 0).setWidth 32)
          (if z < 65536 then some (BitVec.ofNat 16 z) else none) (peatUse s c.key 3 c.thread c.f.pc noBank)
      | _ =>
        go t e q (peatAdd s c.key
          { kind := 3, blk := c.key.blk, thread := c.thread, pc := c.f.pc, bank := noBank,
            vals := [w t, w e, match q with
              | some x => x.setWidth 64
              | none => 65536], used := false })

/-- VRET (R240): returns from a variant call, restores limits and posts a tag update. -/
def bVret : Body := plain (returnCall none)
/-- The meaning of VRET. -/
def execVret (s : BitVec 1) (st : State) : Host.Outcome State Fault Refusal :=
  issue (.vret s) s bVret st

/-- VRET_Q (R240): returns from a variant call with a quality sample. -/
def bVretQ (a : BitVec 7) : Body :=
  { plain (fun _ s => .done s [] .seq) with
    reads := fun _ => RegSet.ss a.toNat 1,
    run := fun c _ s => returnCall (some ((c.p.getS a.toNat).setWidth 16)) c s }
/-- The meaning of VRET_Q. -/
def execVretQ (s : BitVec 1) (a : BitVec 7) (st : State) : Host.Outcome State Fault Refusal :=
  issue (.vretQ s a) s (bVretQ a) st


/-! ## Limits, tags, meters (R232, R244) -/

/-- VLIM (R232): sets the axis to optimise and the other two limits. -/
def bVlim (a : BitVec 7) (b : BitVec 7) (x : BitVec 2) : Body :=
  { reads := fun _ => (RegSet.ss a.toNat 1).or (RegSet.ss b.toNat 1), writes := fun _ => RegSet.none,
    run := fun c _ s =>
      let u := c.p.getS a.toNat
      let w := c.p.getS b.toNat
      .done (c.modP s fun p =>
        if x == 0 then { p with opt := 0, limT := 0xFFFFFFFF, limE := u, limQ := w.setWidth 16 }
        else if x == 1 then { p with opt := 1, limT := u, limE := 0xFFFFFFFF, limQ := w.setWidth 16 }
        else { p with opt := 2, limT := u, limE := w, limQ := 0xFFFF }) [] .seq }
/-- The meaning of VLIM. -/
def execVlim (s : BitVec 1) (a : BitVec 7) (b : BitVec 7) (x : BitVec 2) (st : State) : Host.Outcome State Fault Refusal :=
  issue (.vlim s a b x) s (bVlim a b x) st

/-- VTAG (R244): reads an entry's measured tags from a variant table. -/
def bVtag (d : BitVec 7) (a : BitVec 7) (b : BitVec 7) : Body :=
  { reads := fun _ => (RegSet.ss a.toNat 2).or (RegSet.ss b.toNat 1), writes := fun _ => RegSet.ss d.toNat 4,
    run := fun c _ s => tableStart c (tableWait c s 2 d.toNat 0 a.toNat (c.p.getS b.toNat)) s }
/-- The meaning of VTAG. -/
def execVtag (s : BitVec 1) (d : BitVec 7) (a : BitVec 7) (b : BitVec 7) (st : State) : Host.Outcome State Fault Refusal :=
  issue (.vtag s d a b) s (bVtag d a b) st

/-- VMETER (R244): reads a call record's meters and effective limits. -/
def bVmeter (d : BitVec 7) (a : BitVec 7) : Body :=
  { reads := fun _ => RegSet.ss a.toNat 1, writes := fun _ => RegSet.ss d.toNat 5,
    run := fun c _ s =>
      let st := vget c.p.callIds (lowLane c.f.lanes) []
      match (st[(c.p.getS a.toNat).toNat]?).bind fun n => c.p.calls.find? fun r => r.id = n with
      | none => .whole (flt cVDEPTH)
      | some r =>
        let (t, e) := c.spent s r
        let z := r.elQ.toNat + r.idx * 65536 + r.bound.toNat * 2 ^ 19 + r.fallb.toNat * 2 ^ 20 + r.force.toNat * 2 ^ 21
        .done (c.modP s fun p => p.setSs d.toNat [t, e, r.elT, r.elE, BitVec.ofNat 32 z]) [] .seq }
/-- The meaning of VMETER. -/
def execVmeter (s : BitVec 1) (d : BitVec 7) (a : BitVec 7) (st : State) : Host.Outcome State Fault Refusal :=
  issue (.vmeter s d a) s (bVmeter d a) st

end Sys2Proof.Machine
end

