-- ==== Sys2Proof/Machine/System.lean ====
section
/-! DEFINITION. System, trap and debug instructions (R247–R260). -/
namespace Sys2Proof.Machine
open Sys2Proof

/-- A trap by an instruction (R255, R256): the code with TIMM, returning behind it. -/
def trapWith (c : Ctx) (code : Nat) (n : BitVec 16) (s : State) : Res :=
  .taken (raise s c.key c.who c.i [(c.f.lanes, flt code)] n false (c.f.pc + 4))

/-- TRAP (R255): raises TRAPI with an immediate to the trap handler. -/
def bTrap (n : BitVec 16) : Body := plain fun c s => trapWith c cTRAPI n s
/-- The meaning of TRAP. -/
def execTrap (s : BitVec 1) (n : BitVec 16) (st : State) : Host.Outcome State Fault Refusal :=
  issue (.trap s n) s (bTrap n) st


/-- The return of ERET with its check (R252): the handler fragment's lanes are those of the record that have not exited;
`rs` drops the tile readers of the macro the record would have resumed (R174). -/
def eret (c : Ctx) (nx rs : Bool) (s : State) : Res :=
  waitResults c s fun s =>
    match c.p.trap with
    | none => .whole (flt cILLOP)
    | some t =>
      if !c.f.handler || c.f.lanes != t.lanes &&& ~~~c.p.exited then .whole (flt cILLOP)
      else
        let s := c.modP s fun p => trapReturn p c.i nx rs
        let s := if c.who = .mcc then
            c.modB s fun b => let b := b.dropMacro true
                              if rs then b.dropMacro false else b
          else s
        .taken (tryEnter s c.key c.who)

/-- ERET (R252): returns from the trap handler, restoring progress and pending state. -/
def bEret (r : BitVec 1) (x : BitVec 1) : Body := plain fun c s => eret c (x == 1) (r == 1) s
/-- The meaning of ERET. -/
def execEret (s : BitVec 1) (r : BitVec 1) (x : BitVec 1) (st : State) : Host.Outcome State Fault Refusal :=
  issue (.eret s r x) s (bEret r x) st


/-- BRK (R256): freezes the cluster for a debugger, or raises BRKPT when debug is not armed. -/
def bBrk (n : BitVec 16) : Body :=
  plain fun c s =>
    if dbgArm s c.key.part then
      let s := moveOn c c.sw RegSet.none .seq s
      .taken (stopParty s c.l c.key c.who c.i c.f c.cl cBRKPT 0 0 n.toNat 0 0)
    else trapWith c cBRKPT n s
/-- The meaning of BRK. -/
def execBrk (s : BitVec 1) (n : BitVec 16) (st : State) : Host.Outcome State Fault Refusal :=
  issue (.brk s n) s (bBrk n) st


/-! ## TRACE (R257, R346) -/

/-- Append a 64-byte record to a partition's trace ring, or count it as dropped. -/
def traceWrite (s : State) (part : Nat) (data : List Byte) : State :=
  let q := s.part part
  let size := q.trctl.toNat % 65536 + 1
  let head := q.trpos.toNat / 65536
  let tail := q.trpos.toNat % 65536
  if (tail + 1) % size = head % size then
    s.modPart part fun q => { q with trdrop := if q.trdrop == 0xFFFFFFFF then q.trdrop else q.trdrop + 1 }
  else
    let s := s.modMs fun ms => sysWrite ms (q.trbase.toNat + 64 * tail) data
    s.modPart part fun q => { q with trpos := BitVec.ofNat 32 (head * 65536 + (tail + 1) % size) }

/-- The bytes of a trace record. -/
def traceBytes (type reason tag : Nat) (k : Key) (thread : BitVec 16) (pc : Addr) (dtime : Nat) (mask : Lanes)
    (payload : DWord) : List Byte :=
  leBytes 1 type ++ leBytes 1 reason ++ leBytes 2 tag ++ leBytes 4 k.grid ++ leBytes 4 k.blk ++
    leBytes 2 thread.toNat ++ leBytes 2 0 ++ leBytes 8 pc.toNat ++ leBytes 8 dtime ++ dwordBytes mask ++
    dwordBytes payload ++ leBytes 16 0

/-- Is tracing enabled for a launch (R346)? -/
def tracing (s : State) (l : Launch) : Bool := (s.part l.part).trctl.getLsbD 31 && l.lr.flags.getLsbD 1

/-- TRACE (R257): posts a trace record when tracing is enabled. It reads its pair, and faults for a poisoned one, whether or
not tracing is enabled (DESIGN CHOICE, log 92). -/
def bTrace (a : BitVec 7) (n : BitVec 9) : Body :=
  { reads := fun _ => RegSet.ss a.toNat 2, writes := fun _ => RegSet.none,
    run := fun c _ s =>
      if tracing s c.l then
        .done (traceWrite s c.key.part (traceBytes 1 0 n.toNat c.key c.thread c.f.pc s.dtime c.f.lanes
          (c.p.getSD a.toNat))) [] .seq
      else .done s [] .seq }
/-- The meaning of TRACE. -/
def execTrace (s : BitVec 1) (a : BitVec 7) (n : BitVec 9) (st : State) : Host.Outcome State Fault Refusal :=
  issue (.trace s a n) s (bTrace a n) st


/-! ## MBOX and SYSC (R258, R259) -/

/-- The words from s[a] as they stood when the instruction first issued. -/
def wordsAtIssue (c : Ctx) (a n : Nat) : List Word :=
  match c.f.wait with
  | .hold (.fence _ _ _ ws) => ws
  | _ => block c a n

/-- The release at scope .sy for every stream with which MBOX and SYSC begin (R273), the words read at issue kept; the block's
idempotent status ends (R307). -/
def releaseAll (c : Ctx) (ws : List Word) (s : State) (k : State → Res) : Res :=
  let s := c.modB s fun b => { b with idem := false }
  if !resultsOut s c.key c.who c.f && streamsDone c s fun _ => true then k (addMark c s (fun _ => true) false [])
  else c.hold (.fence 0xFFFF 0 [] ws) s

/-- MBOX (R258): releases at .sy and hands a 64-byte record to the Wisp mailbox, waiting for a slot. -/
def bMbox (a : BitVec 7) : Body :=
  { reads := fun _ => RegSet.ss a.toNat 16, writes := fun _ => RegSet.none, grant := fun c => c.l.lr.flags.getLsbD 4,
    run := fun c _ s =>
      let ws := wordsAtIssue c a.toNat 16
      releaseAll c ws s fun s =>
        let s := c.waitHere s (.mbox ws)
        .taken (if released s c.key c.who c.f.lanes then
            s.modPart c.key.part fun q => { q with mbWait := q.mbWait ++ [c.ref] }
          else s) }
/-- The meaning of MBOX. -/
def execMbox (s : BitVec 1) (a : BitVec 7) (st : State) : Host.Outcome State Fault Refusal :=
  issue (.mbox s a) s (bMbox a) st

/-- SYSC (R259): posts a system call to the host cores and waits for its reply. -/
def bSysc (a : BitVec 7) (n : BitVec 9) : Body :=
  { reads := fun _ => RegSet.ss a.toNat 8, writes := fun _ => RegSet.ss a.toNat 4, grant := fun c => c.l.lr.flags.getLsbD 5,
    run := fun c _ s =>
      let ws := wordsAtIssue c a.toNat 8
      releaseAll c ws s fun s =>
        .taken ((c.waitHere s .syscFull).modPart c.key.part fun q =>
          { q with calls := q.calls ++ [{ seq := none, svc := n.toNat, args := ws, reg := a.toNat, f := c.ref,
                                          pc := c.f.pc, reply := none, io := false }] }) }
/-- The meaning of SYSC. -/
def execSysc (s : BitVec 1) (a : BitVec 7) (n : BitVec 9) (st : State) : Host.Outcome State Fault Refusal :=
  issue (.sysc s a n) s (bSysc a n) st


/-! ## LEASEQ (R260) -/

/-- LEASEQ (R260): reads the boost lease state, clock and end time. -/
def bLeaseq (d : BitVec 7) : Body :=
  { reads := fun _ => RegSet.none, writes := fun _ => RegSet.ss d.toNat 4,
    run := fun c _ s =>
      let l := (s.part c.key.part).lease
      let ends : DWord := if l.held then BitVec.ofNat 64 (leaseEnds l) else 0
      .done (c.modP s fun p => p.setSs d.toNat
        [leaseWord s c.key.part, if l.held then 4400 else 4000, ends.setWidth 32, (ends >>> 32).setWidth 32]) [] .seq }
/-- The meaning of LEASEQ. -/
def execLeaseq (s : BitVec 1) (d : BitVec 7) (st : State) : Host.Outcome State Fault Refusal :=
  issue (.leaseq s d) s (bLeaseq d) st


end Sys2Proof.Machine
end

