-- ==== Sys2Proof/Machine/Prefix.lean ====
section
/-! DEFINITION. Fetching a word (R58, R283), and the prefixes REP and LIMM with the word behind them (R63–R68). -/
namespace Sys2Proof.Machine
open Sys2Proof

/-! ## Fetch -/

/-- The instruction word at a PC, translated for execution by the party's cluster (R283): the one its instruction cache holds
under the address space and the address, else the word in M, which the cache keeps (R289). -/
def fetchWord (c : Ctx) (pc : Addr) (s : State) : State × Except Flt Nat :=
  match translate s c.cl c.key.part c.l.lr.asid pc.toNat false false true with
  | (s, .error f) => (s, .error f)
  | (s, .ok pa) =>
    match s.ms.icache.find? fun e => e.cluster = c.cl && e.asid = c.l.lr.asid && e.part = c.key.part && e.va = pc.toNat with
    | some e => (s, .ok e.word.toNat)
    | none =>
      let (s, bad) := eccRead s c.key.part pa 4
      if bad then (s, .error { flt cECCU with addr := pc.setWidth 64 })
      else
        let w := memWord s.ms.mem pa
        (s.modMs fun ms =>
          { ms with icache := ms.icache ++ [{ cluster := c.cl, asid := c.l.lr.asid, part := c.key.part, va := pc.toNat, word := w }] },
         .ok w.toNat)

/-! ## Words that accept a prefix (R67, R68) -/

/-- The body of a word that accepts a prefix. -/
def bodyOf (i : Instr) : Option Body :=
  match i with
  | .iadd _ g d a b u => some (bIadd g d a b u)
  | .iaddSat _ g d a b u t => some (bIaddSat g d a b u t)
  | .isub _ g d a b u => some (bIsub g d a b u)
  | .isubSat _ g d a b u t => some (bIsubSat g d a b u t)
  | .iaddImm _ g d a i => some (bIaddImm g d a i)
  | .imul _ g d a b u => some (bImul g d a b u)
  | .imulh _ g d a b u t => some (bImulh g d a b u t)
  | .imad _ d a b c => some (bImad d a b c)
  | .imin _ g d a b u t => some (bImin g d a b u t)
  | .imax _ g d a b u t => some (bImax g d a b u t)
  | .iabs _ g d a => some (bIabs g d a)
  | .iabsSat _ g d a => some (bIabsSat g d a)
  | .rndh _ g d a b u => some (bRndh g d a b u)
  | .andL _ g d a b u => some (bAndL g d a b u)
  | .orL _ g d a b u => some (bOrL g d a b u)
  | .xorL _ g d a b u => some (bXorL g d a b u)
  | .andn _ g d a b u => some (bAndn g d a b u)
  | .shl _ g d a b u => some (bShl g d a b u)
  | .shr _ g d a b u => some (bShr g d a b u)
  | .sar _ g d a b u => some (bSar g d a b u)
  | .rol _ g d a b u => some (bRol g d a b u)
  | .shlImm _ g d a c => some (bShlImm g d a c)
  | .shrImm _ g d a c => some (bShrImm g d a c)
  | .sarImm _ g d a c => some (bSarImm g d a c)
  | .rolImm _ g d a c => some (bRolImm g d a c)
  | .popc _ g d a => some (bPopc g d a)
  | .clz _ g d a => some (bClz g d a)
  | .brev _ g d a => some (bBrev g d a)
  | .bfx _ g d a b u t => some (bBfx g d a b u t)
  | .bfi _ d a b c => some (bBfi d a b c)
  | .prmb _ d a b c => some (bPrmb d a b c)
  | .lea _ g d a b u h => some (bLea g d a b u h)
  | .icmp _ g t p a b u c => some (bIcmp g t p a b u c)
  | .sel _ g d a b u p => some (bSel g d a b u p)
  | .mov _ g d b => some (bMov g d b)
  | .movs _ g d b => some (bMovs g d b)
  | .movImm _ g d i => some (bMovImm g d i)
  | .fadd _ g d a b u => some (bFadd g d a b u)
  | .fsub _ g d a b u => some (bFsub g d a b u)
  | .fmul _ g d a b u => some (bFmul g d a b u)
  | .ffma _ d a b c => some (bFfma d a b c)
  | .fmin _ g d a b u => some (bFmin g d a b u)
  | .fmax _ g d a b u => some (bFmax g d a b u)
  | .fscl _ g d a b u => some (bFscl g d a b u)
  | .fcmp _ g p a b u c => some (bFcmp g p a b u c)
  | .hcmp2 _ g t p a b u c => some (bHcmp2 g t p a b u c)
  | .frnd _ g d a r => some (bFrnd g d a r)
  | .hadd2 _ g d a b u h => some (bHadd2 g d a b u h)
  | .hmul2 _ g d a b u h => some (bHmul2 g d a b u h)
  | .hmin2 _ g d a b u h => some (bHmin2 g d a b u h)
  | .hmax2 _ g d a b u h => some (bHmax2 g d a b u h)
  | .hfma2 _ d a b c => some (bHfma2 d a b c)
  | .hfma2Bf16 _ d a b c => some (bHfma2Bf16 d a b c)
  | .exp2 _ g d a => some (bExp2 g d a)
  | .log2 _ g d a => some (bLog2 g d a)
  | .rcp _ g d a => some (bRcp g d a)
  | .rsq _ g d a => some (bRsq g d a)
  | .sqrt _ g d a => some (bSqrt g d a)
  | .sin _ g d a => some (bSin g d a)
  | .cos _ g d a => some (bCos g d a)
  | .tanh _ g d a => some (bTanh g d a)
  | .cvt _ g d a x y r => some (bCvt g d a x y r)
  | .cvth2 _ g d a b u h => some (bCvth2 g d a b u h)
  | .cvth2Widen _ g d a h => some (bCvth2Widen g d a h)
  | .cvtq _ g d a n => some (bCvtq g d a n)
  | .cvtd _ g d a n => some (bCvtd g d a n)
  | .mono _ g d a t => some (bMono g d a t)
  | .monoi _ g d a t => some (bMonoi g d a t)
  | .dp4 _ g d a b u t => some (bDp4 g d a b u t)
  | .dp8 _ g d a b u t => some (bDp8 g d a b u t)
  | .dp2h _ g d a b u => some (bDp2h g d a b u)
  | .dp4eE4m3 _ g d a b u => some (bDp4eE4m3 g d a b u)
  | .dp4eE5m2 _ g d a b u => some (bDp4eE5m2 g d a b u)
  | .dp2hBf16 _ g d a b u => some (bDp2hBf16 g d a b u)
  | .ldg _ g d a t p w => some (bLdg g d a t p w)
  | .stg _ g d a t p w => some (bStg g d a t p w)
  | .lds _ g d a t w => some (bLds g d a t w)
  | .sts _ g d a t w => some (bSts g d a t w)
  | .ldc _ g d a t p w => some (bLdc g d a t p w)
  | .atom _ g d a t o => some (bAtom g d a t o)
  | .acas _ g d a t p w => some (bAcas g d a t p w)
  | .red _ g d a t o => some (bRed g d a t o)
  | .redm _ g d a o => some (bRedm g d a o)
  | .pfg _ g a p => some (bPfg g a p)
  | .zline _ g a t p => some (bZline g a t p)
  | .tfill _ g k a b u w => some (bTfill g k a b u w)
  | .adrain _ g d a b w => some (bAdrain g d a b w)
  | .sadd _ d a b => some (bSadd d a b)
  | .ssub _ d a b => some (bSsub d a b)
  | .saddImm _ d a i => some (bSaddImm d a i)
  | .smul _ d a b => some (bSmul d a b)
  | .smulh _ d a b t => some (bSmulh d a b t)
  | .sand _ d a b => some (bSand d a b)
  | .sor _ d a b => some (bSor d a b)
  | .sxor _ d a b => some (bSxor d a b)
  | .sshl _ d a b => some (bSshl d a b)
  | .sshr _ d a b => some (bSshr d a b)
  | .ssar _ d a b => some (bSsar d a b)
  | .sshlImm _ d a c => some (bSshlImm d a c)
  | .sshrImm _ d a c => some (bSshrImm d a c)
  | .ssarImm _ d a c => some (bSsarImm d a c)
  | .smin _ d a b t => some (bSmin d a b t)
  | .smax _ d a b t => some (bSmax d a b t)
  | .scmp _ d a b c => some (bScmp d a b c)
  | .ssel _ d a b => some (bSsel d a b)
  | .smov _ d a => some (bSmov d a)
  | .spopc _ d a => some (bSpopc d a)
  | .sclz _ d a => some (bSclz d a)
  | .smovl _ d i => some (bSmovl d i)
  | .smovh _ d i => some (bSmovh d i)
  | .pause _ i => some (bPause i)
  | .sld _ d a t p w => some (bSld d a t p w)
  | .sst _ d a t p w => some (bSst d a t p w)
  | .satom _ d a t p o => some (bSatom d a t p o)
  | .azero _ d => some (bAzero d)
  | .ascale _ d a => some (bAscale d a)
  | _ => none

/-- Does a word accept LIMM, with the fields that the immediate replaces zero (R65, R67, R68)? -/
def limmOk (w : Nat) : Bool :=
  let op := bitsAt w 24 6
  if bitsAt w 31 1 = 0 then
    if op = 0x03 || op = 0x15 then bitsAt w 0 10 == 0
    else if [0x01, 0x02, 0x04, 0x06, 0x07, 0x08, 0x09, 0x0C, 0x0F, 0x10, 0x11, 0x14, 0x18, 0x1A, 0x1B, 0x1D].contains op then
      bitsAt w 3 7 == 0
    else decide (0x30 ≤ op) && decide (op ≤ 0x3A)
  else if op = 0x05 || op = 0x17 then bitsAt w 0 10 == 0
  else if [0x04, 0x06, 0x07, 0x08, 0x0A, 0x0B, 0x0C].contains op then bitsAt w 3 7 == 0
  else decide (0x20 ≤ op) && decide (op ≤ 0x22)

/-- The fields REP may step in a word that accepts it: D, A, B, C as (lowest bit, width), none where the word names no
register there: the format has no such field, or the field holds zero, a type, a slot, a stream or a tile (R55, R56, R64, R67, R68,
R175). The D of a compare names a predicate (log 48). -/
def stepFields (w : Nat) : List (Option (Nat × Nat)) :=
  let op := bitsAt w 24 6
  let f := bitsAt w 0 3
  if bitsAt w 31 1 = 0 then
    if [0x05, 0x0D, 0x0E, 0x19, 0x1E, 0x1F].contains op then [some (18, 6), some (12, 6), some (6, 6), some (0, 6)]
    else if op = 0x15 then [some (16, 6), none, none, none]
    else if op = 0x03 || op = 0x0A || (decide (0x30 ≤ op) && decide (op ≤ 0x37)) then
      [some (16, 6), some (10, 6), none, none]
    else
      [if op = 0x3C then none else if op = 0x10 || op = 0x1B then some (16, 2) else some (16, 6),
       if op = 0x14 then none else some (10, 6),
       if [0x0B, 0x1C, 0x20, 0x24, 0x26].contains op || (op = 0x06 && decide (4 ≤ f)) || (op = 0x25 && decide (2 ≤ f)) then none
       else some (4, 6), none]
  else if op = 0x05 || op = 0x09 || op = 0x0D || op = 0x20 || op = 0x21 then [some (17, 7), some (10, 7), none, none]
  else if op = 0x0E then [some (17, 7), none, none, none]
  else if op = 0x2D then [some (17, 7), if f = 0 then none else some (10, 7), none, none]
  else [some (17, 7), some (10, 7), some (3, 7), none]

/-- Does a word accept REP (R67, R68)? -/
def repAccepts (w : Nat) : Bool :=
  let op := bitsAt w 24 6
  if bitsAt w 31 1 = 0 then
    (decide (1 ≤ op) && decide (op ≤ 0x11)) || op == 0x14 || op == 0x15 || (decide (0x18 ≤ op) && decide (op ≤ 0x20)) ||
      (decide (0x24 ≤ op) && decide (op ≤ 0x27)) || (decide (0x30 ≤ op) && decide (op ≤ 0x34)) || op == 0x37 ||
      op == 0x3C || op == 0x3D
  else (decide (4 ≤ op) && decide (op ≤ 0x0E)) || op == 0x20 || op == 0x21 || op == 0x2D

/-- A field of a word raised by n, within its width. -/
def raiseField (w : Nat) (f : Nat × Nat) (n : Nat) : Nat :=
  let x := bitsAt w f.1 f.2
  w - x * 2 ^ f.1 + (x + n) % 2 ^ f.2 * 2 ^ f.1

/-- The word of a repeat: each enabled field raised by n. -/
def stepWord (w : Nat) (en : List Bool) (n : Nat) : Nat :=
  ((en.zip (stepFields w)).foldl (fun v e =>
    match e with
    | (true, some f) => raiseField v f n
    | _ => v) w)

/-- The instruction of a word that a prefix may stand before. -/
def instrOf (w : Nat) : Option Instr :=
  match decodeWord w with
  | .ok i => some i
  | .error _ => none

/-- Does a step suit the units that a word's enabled fields name (R64): is the word with a register field raised by the step,
modulo 4, still an instruction? A pair raised by an odd number is none, nor is a group of four raised by no multiple of 4. -/
def stepSuits (w : Nat) (en : List Bool) (step : Nat) : Bool :=
  (en.zip (stepFields w)).all fun e =>
    match e with
    | (true, some f) => f.2 == 2 || (instrOf (raiseField w f (step % 4))).isSome
    | _ => true

/-- The issue check of R64: the word accepts REP, each enabled field exists, stays within its range and suits the step, and
every repeat's word is an instruction. -/
def repOk (w : Nat) (en : List Bool) (n step : Nat) : Bool :=
  repAccepts w &&
    ((en.zip (stepFields w)).all fun e =>
      match e with
      | (false, _) => true
      | (true, none) => false
      | (true, some f) => decide (bitsAt w f.1 f.2 + (n - 1) * step < 2 ^ f.2)) &&
    stepSuits w en step && (List.range n).all fun i => (instrOf (stepWord w en (i * step))).isSome

/-! ## LIMM (R65, R66) -/

/-- ILLOP, or another fault, at a prefix and its word. -/
def prefixFault (c : Ctx) (f : Flt) (s : State) : State := raiseAll { c with len := 8 } f s

/-- Is a word a prefix, REP or LIMM, by its major (R63, R65)? One with its S bit or a reserved field set raises ILLOP as a
prefix (R66). -/
def isPrefix (w : Nat) : Bool := bitsAt w 31 1 == 1 && decide (bitsAt w 24 6 < 2)

/-- LIMM and the word behind it issue as one instruction. -/
def limmRun (c : Ctx) (i : BitVec 24) (s : State) : State :=
  match fetchWord c (c.f.pc + 4) s with
  | (s, .error f) => prefixFault c f s
  | (s, .ok w) =>
    match instrOf w with
    | none => prefixFault c (flt cILLOP) s
    | some ins =>
      match bodyOf ins with
      | none => prefixFault c (flt cILLOP) s
      | some b =>
        if !limmOk w then prefixFault c (flt cILLOP) s
        else issueAt { c with len := 8, limm := some (i.signExtend 32) } ins (bitsAt w 30 1 == 1) b s

/-- The meaning of LIMM (R65). -/
def execLimm (i : BitVec 24) (st : State) : Host.Outcome State Fault Refusal :=
  match ctx? st with
  | none => .fault .noIssuer
  | some c => .next (limmRun c i st)

/-! ## REP (R63, R64) -/

/-- The registers written by the repeats of a REP. -/
def repWrites (c : Ctx) (w : Nat) (en : List Bool) (n step : Nat) : RegSet :=
  (List.range n).foldl (fun acc i =>
    match (instrOf (stepWord w en (i * step))).bind bodyOf with
    | some b => acc.or (b.writes c)
    | none => acc) RegSet.none

/-- After a repeat: the next repeat, which is no new issue for a breakpoint (R341), or behind the word when it was the last
(R64). -/
def repMove (c : Ctx) (w : Nat) (en : List Bool) (n step i : Nat) (wr : RegSet) (s : State) : State :=
  let s := if i + 1 < n && (dbgArm s c.key.part || dbgWtrap s c.key.part) then
      { s with pass := s.pass ++ (List.range 8).map fun u => (c.ref, false, u) }
    else s
  c.setFrag s fun f =>
    if i + 1 < n then { f with prg := mkPrg clREP 0 (i + 1), out := f.out.or wr, wait := .run }
    else
      let f := { f with prg := clearV f.prg, out := f.out.or wr }
      advance s c (bitsAt w 30 1 == 1) (repWrites c w en n step) f.lanes (c.f.pc + 8) f

/-- One repeat of a REP whose check has passed: a fault names it; lanes that run on go to the next (R40, R64). A repeat sees
the writes of those before it: it is held while an access of one of them still owes a register it names. -/
def repOne (c : Ctx) (w : Nat) (en : List Bool) (n step i : Nat) (b : Body) (s : State) : State :=
  let at_ (f : Flt) : Flt := { f with elem := BitVec.ofNat 32 i }
  let names := (b.reads c).or (b.writes c)
  let all := names.or (RegSet.pr b.guard)
  if outsideWindow c.p names then raiseAll c (at_ (flt cREGWIN)) s
  else if all.meets c.f.pend then raiseAll c (at_ (flt cHAZARD)) s
  else if all.meets (comingRegs s c.key c.who c.f.lanes) then c.setFrag s fun f => { f with wait := .hold (.coming all) }
  else
    match watchHit s c.key.part c.ref (b.touch s c (if b.perLane then c.effLanes b.guard else c.f.lanes)) with
    | some (u, a) =>
      if dbgArm s c.key.part then stopParty s c.l c.key c.who c.i c.f c.cl cWATCH i a 0 2 u
      else raiseAll c { at_ (flt cWATCH) with addr := BitVec.ofNat 64 a } s
    | none =>
      let eff := if b.perLane then c.effLanes b.guard else c.f.lanes
      let pois := if b.ownPoison then 0 else poisonedLanes c.p (b.reads c) eff
      if !b.perLane && pois != 0 then raiseAll c (at_ (flt cPOISON)) (clearPass c s)
      else
        match b.run c (eff &&& ~~~pois) s with
        | .done t bad _ =>
          let t := clearPass c t
          let bad := (((laneList pois).map fun L => (L, flt cPOISON)) ++ bad).map fun e => (e.1, at_ e.2)
          let t := account c t
          let badL := bad.foldl (fun m e => m ||| laneBit e.1) (0 : Lanes)
          let t := if bad.isEmpty then t else raise t c.key c.who c.i (groupFaults bad) 0 true c.f.pc
          if !bad.isEmpty && c.f.lanes &&& ~~~badL == 0 then t else repMove c w en n step i (b.writes c) t
        | .whole f => raiseAll c (at_ f) (clearPass c s)
        | .faulted f t => raiseAll c (at_ f) (clearPass c t)
        | .hold t => t
        | .taken t => account c (clearPass c t)

/-- REP and the word behind it: one repeat a step, PRG naming the next (R64). -/
def repRun (c : Ctx) (n step : Nat) (en : List Bool) (s : State) : State :=
  match fetchWord c (c.f.pc + 4) s with
  | (s, .error f) => prefixFault c f s
  | (s, .ok w) =>
    if !repOk w en n step || (match instrOf w with
        | some ins => !runsHere ins c.who || (bodyOf ins).any fun b => b.illop c
        | none => true) then prefixFault c (flt cILLOP) s
    else
      let resume := resumes c.f clREP c.f.pc
      let i := if resume then prgElem c.f.prg else 0
      if resume && (n ≤ i || prgPhase c.f.prg != 0) then prefixFault c (badProgress c.f) s
      else
        let s := if resume then s else startMacro c clREP 0 s
        match ctxAt s c.key c.who c.i, instrOf (stepWord w en (i * step)) with
        | some k, some ins =>
          (match bodyOf ins with
           | some b => repOne { k with len := 8, rep := i } w en n step i b s
           | none => prefixFault c (flt cILLOP) s)
        | _, _ => prefixFault c (flt cILLOP) s

/-- The meaning of REP (R64). -/
def execRep (n : BitVec 6) (w x y z : BitVec 1) (s : BitVec 4) (st : State) : Host.Outcome State Fault Refusal :=
  match ctx? st with
  | none => .fault .noIssuer
  | some c => .next (repRun c (n.toNat + 1) (s.toNat + 1) [w == 1, x == 1, y == 1, z == 1] st)

end Sys2Proof.Machine
end

