-- ==== Sys2Proof/Machine/Order.lean ====
section
/-! DEFINITION. The steps of the abstract memory machine (R267–R279): Perform, Merge, Flush, Drain, Export, Import, the
faults they find, the completion of WAITCMP, and the return of results. A step whose condition fails leaves the state as
it is. -/
namespace Sys2Proof.Machine
open Sys2Proof

/-! ## Who may take a step -/

/-- The cluster of a resident block that is not frozen (R278). -/
def runCluster (s : State) (k : Key) : Option Nat :=
  match (s.block? k).bind Block.cluster? with
  | some c => if (s.cluster c).frozen then none else some c
  | none => none

/-- Advance the clock of a stream (R271, R272). -/
def tick (ms : MemSys) (st : Nat) : MemSys := { ms with clocks := lmod ms.clocks st fun n => n + 1 }

/-- Drop a queued access. -/
def dropAccess (s : State) (i : Nat) : State := s.modMs fun ms => { ms with queue := ldrop ms.queue i }

/-- A device write of a stream access reaches M (R271). -/
def streamWrite (s : State) (a : Access) (pa : Nat) (data : List Byte) : State :=
  s.modMs fun ms => homeWrite ms
    { serial := a.serial, key := a.key, who := a.who, lanes := a.lanes, stream := some a.stream, path := none, op := 0,
      pa := pa, data := data }

/-- A block loses its idempotent status (R307). -/
def endIdem (s : State) (k : Key) : State := s.modBlock k fun b => { b with idem := false }

/-! ## Faults found after issue (R143, R323) -/

/-- The record of an access that faults after issue: the PC tag it carries, a double fault when a handler fragment issued it
(R253), DRN from a draining warp, whose launch then completes with fault status. -/
def lateRecord (s : State) (kind : Posted) (serial : Nat) (k : Key) (who : Who) (lanes : Lanes) (pc : Addr) (f : Flt)
    (impr : Bool) (dbl : Option Nat) : State :=
  match s.launch? k.part k.grid with
  | none => s
  | some l =>
    let drn := match s.party? k who with
      | some p => p.ws = .draining
      | none => false
    let s := addRecord s k.part fun seq =>
      partyRecord s l k who lanes f pc dbl.isSome impr drn (dbl.getD 0) (.posted kind serial k who (lowLane lanes)) seq
    if drn then s.modLaunch k.part k.grid fun l => { l with fault := true } else s

/-- Fragments all of whose threads have a held access, at a macro whose element waits to start: the macro stops at that element,
and its charge and its places in lines are given up (R39, R359). With other threads too it completes first, since its elements are
the whole fragment's (DESIGN CHOICE, log 100). -/
def stopWaiting (s : State) (k : Key) (who : Who) (lanes : Lanes) : State :=
  match s.party? k who with
  | none => s
  | some p =>
    (List.range p.frags.length).foldl (fun s i =>
      match p.frags[i]? with
      | some g =>
        let here : Bool := match g.wait with
          | .charge _ => true
          | .array _ => true
          | .selection _ => true
          | .chan _ => true
          | _ => false
        if here && (g.lanes &&& ~~~lanes) == 0 then
          let r : FragRef := { key := k, who := who, lane := lowLane g.lanes }
          let s := s.mapClusters fun c =>
            { c with charges := c.charges.filter fun x => !(match x.who with
                       | .mcc j => who = .mcc && j = k
                       | .gather f => f = r
                       | .select f => f = r
                       | _ => false),
                     selOwner := if c.selOwner = some r then none else c.selOwner,
                     selWait := c.selWait.filter fun f => f != r, chWait := c.chWait.filter fun e => e.2 != r }
          s.modFrag k who i fun g => { g with wait := .run }
        else s
      | none => s) s

/-- Threads with a held access park at their next instruction boundary, or element boundary of a macro (R143, R319): lanes of
fragments that may issue. -/
def parkLanes (s : State) (k : Key) (who : Who) (lanes : Lanes) (f : Flt) (seq : Word) : State :=
  let s := stopWaiting s k who lanes
  let pk (g : Frag) : Park :=
    { flt := f, host := true, seq := some seq, posted := true, timm := 0, pfx := false, retPc := g.pc }
  s.modParty k who fun p =>
    (List.range p.frags.length).foldl (fun p i =>
      match p.frags[i]? with
      | some g => if g.wait.boundary && (g.lanes &&& lanes) != 0 then splitPark p i lanes (.parked (pk g)) else p
      | none => p) p

/-- The held accesses of a party: lanes and record. -/
def heldOf (s : State) (k : Key) (who : Who) : List (Lanes × Word) :=
  let q := s.ms.queue.filterMap fun a => if a.key = k && a.who = who then a.held.map fun h => (a.lanes, h) else none
  let r (l : List RedEntry) : List (Lanes × Word) := l.filterMap fun a =>
    if a.key = k && a.who = who then a.held.map fun h => (laneBit a.lane, h) else none
  q ++ r s.ms.pool ++ r s.ms.redm

/-- Park every thread of a party that has a held access and stands at an instruction boundary. -/
def parkHeld (s : State) (k : Key) (who : Who) : State :=
  (heldOf s k who).foldl (fun s e =>
    let f := match (s.part k.part).faults.find? fun r => r.seq = e.2 with
      | some r => { flt r.code with addr := r.addr }
      | none => flt cPAGE
    parkLanes s k who e.1 f e.2) s

/-- Hold a queued access for fault service. -/
def holdAccess (s : State) (i : Nat) (a : Access) (f : Flt) (impr : Bool) : State :=
  let seq := (s.part a.key.part).nextSeq
  let s := lateRecord s .stream a.serial a.key a.who a.lanes a.pc f impr a.dbl
  let s := s.modMs fun ms => { ms with queue := lmod ms.queue i fun a => { a with held := some seq } }
  parkHeld s a.key a.who

/-- A precise fault of a fragment that waits at its instruction for accesses of it: they are dropped and it faults. -/
def faultAt (s : State) (a : Access) (f : Flt) : State :=
  let s := s.modMs fun ms => { ms with queue := ms.queue.filter fun x => x.serial != a.serial }
  match ctxOf s { key := a.key, who := a.who, lane := lowLane a.lanes } with
  | none => s
  | some c =>
    match c.f.wait with
    | .table t => tableFault c t f s
    | .rows _ => macroFault c { f with elem := BitVec.ofNat 32 (prgElem c.f.prg) } s
    | _ => raise (c.setFrag s fun g => { g with wait := .run }) c.key c.who c.i [(c.f.lanes, f)] 0 false c.f.pc

/-- Is an access one at which its fragment waits? -/
def AccKind.waits : AccKind → Bool
  | .tileLoad _ _ => true
  | .tileStore _ => true
  | .waitRead _ => true
  | .tableRead => true
  | _ => false

/-- A fault of a queued access: at the waiting instruction, or held. -/
def accessFault (s : State) (i : Nat) (a : Access) (f : Flt) (impr : Bool) : State :=
  if a.kind.waits then faultAt s a f else holdAccess s i a f impr

/-! ## What an access does (R144–R150) -/

/-- Bytes an access reads or writes. -/
def AccKind.size : AccKind → Nat
  | .load n _ _ => n
  | .loadS n _ _ => n
  | .store d => d.length
  | .zline => 128
  | .atom _ n _ _ => n
  | .atomS _ _ _ => 4
  | .acas n _ _ _ _ => n
  | .tileLoad _ _ => 4
  | .tileStore d => d.length
  | .waitRead _ => 4
  | .tableRead => 64
  | .update _ _ _ _ => 64

/-- The words a load gives its registers (R140, R144): narrow loads extend. -/
def loadWords (n : Nat) (signed : Bool) (x : List Byte) : List Word :=
  if n ≤ 4 then
    let v := leNat x
    let top := signed && v ≥ 2 ^ (8 * n - 1)
    [BitVec.ofInt 32 (if top then (v : Int) - 2 ^ (8 * n) else v)]
  else (List.range (n / 4)).map fun i => BitVec.ofNat 32 (leNat ((x.drop (4 * i)).take 4))

/-- Write the registers of a lane load. -/
def putLane (p : Party) (d : Nat) (m : Lanes) (l : List Word) : Party :=
  ((List.range l.length).zip l).foldl (fun p e => p.setV (d + e.1) m fun _ => e.2) p

/-- The host writes a read of n bytes has seen enter the acquire of R276. -/
def noteSeen (s : State) (a : Access) (pa n : Nat) : State :=
  s.modMs fun ms =>
    let ids := (ms.prov.filter fun e => decide (pa ≤ e.1) && decide (e.1 < pa + n)).map fun e => e.2
    { ms with seen := ms.seen ++ ids.eraseDups.map fun id =>
        { key := a.key, who := a.who, lanes := a.lanes, stream := a.stream, id := id } }

/-- The thread named by a queued access. -/
def accThread (s : State) (a : Access) : BitVec 16 :=
  match s.launch? a.key.part a.key.grid with
  | some l => threadOf l.lr.width a.who a.lanes
  | none => 0

/-- The turn of an access in a replay (R351). -/
def accTurn (s : State) (a : Access) (kind bank : Nat) : Turned :=
  match s.launch? a.key.part a.key.grid with
  | some l => peatTurn s l kind a.key.blk (accThread s a) a.pc bank
  | none => .free

/-- Use up the entry of an access. -/
def accUse (s : State) (a : Access) (kind bank : Nat) : State := peatUse s a.key kind (accThread s a) a.pc bank

/-- Log an access of a recording launch. -/
def accLog (s : State) (a : Access) (kind bank : Nat) (vals : List DWord) : State :=
  peatAdd s a.key
    { kind := kind, blk := a.key.blk, thread := accThread s a, pc := a.pc, bank := bank, vals := vals, used := false }

/-- The performed atomic of n bytes: the old value, whether it writes, the new value. `f` computes them. A replay in which it is
another access's turn leaves it where it stands (R351). -/
def doAtomic (s : State) (i : Nat) (a : Access) (pa n : Nat) (f : DWord → Bool × DWord)
    (put : Party → DWord → Bool → Party) : State :=
  let go (old : DWord) (s : State) : State :=
    let r := f old
    let s := endIdem (noteSeen (s.modMs fun ms => tick ms a.stream) a pa n) a.key
    let s := accLog s a 0 (bankOf s pa) [old, BitVec.ofNat 64 r.1.toNat]
    let s := if r.1 then streamWrite s a pa (leBytes n r.2.toNat) else s
    (dropAccess s i).modParty a.key a.who fun p => put p old r.1
  match accTurn s a 0 (bankOf s pa) with
  | .wait => s
  | .diverge => diverge s a.key
  | .go vals => go (vals.headD 0) (accUse s a 0 (bankOf s pa))
  | .free => go (BitVec.ofNat 64 (leNat (memRead s.ms.mem pa n))) s

/-! ## WAITCMP (R162–R164, R291) -/

/-- Take a fragment out of a monitor. -/
def leaveMonitor (s : State) (r : FragRef) : State :=
  s.modMs fun ms =>
    let left := ms.monitors.map fun m =>
      { m with waiters := m.waiters.filter (fun f => f != r), woken := m.woken.filter (fun f => f != r) }
    { ms with monitors := left.filter fun m => !m.waiters.isEmpty }

/-- Is a fragment registered in a monitor of a word? -/
def monitored (s : State) (pa : Nat) (r : FragRef) : Bool := s.ms.monitors.any fun m => m.pa = pa && m.waiters.contains r

/-- Register a fragment at the monitor of a word: an entry of the word with room, or a free entry of its slice; none when
it must poll. -/
def joinMonitor (s : State) (pa : Nat) (r : FragRef) : Option State :=
  let sl := bankOf s pa
  let room (m : Monitor) : Bool := m.pa = pa && decide (m.waiters.length < 32)
  match s.ms.monitors.findIdx? room with
  | some i =>
    some (s.modMs fun ms => { ms with monitors := lmod ms.monitors i fun m => { m with waiters := m.waiters ++ [r] } })
  | none =>
    if (s.ms.monitors.filter fun m => m.slice = sl).length < 256 then
      some (s.modMs fun ms =>
        { ms with monitors := ms.monitors ++ [{ slice := sl, pa := pa, waiters := [r], woken := [] }] })
    else none

/-- A WAITCMP completes (R162): the word to its register, and it goes on. -/
def waitDone (c : Ctx) (a : Access) (w : CondWait) (x : Word) (s : State) : State :=
  let s := leaveMonitor s c.ref
  let s := accLog s a 1 noBank [x.setWidth 64]
  c.passOn (c.modP s fun p => p.setS w.d x)

/-- A WAITCMP whose word does not satisfy it waits: in its monitor, or polling with the next interval. -/
def waitAgain (c : Ctx) (w : CondWait) (pa : Nat) (s : State) : State :=
  if monitored s pa c.ref then c.waitHere s (.monitor w)
  else
    let s := leaveMonitor s c.ref
    let poll (gap : Nat) : State := c.waitHere s (.poll s.dtime { w with gap := gap })
    if w.gap != 0 then poll (min (2 * w.gap) 16000)
    else
      match joinMonitor s pa c.ref with
      | some s => c.waitHere s (.monitor w)
      | none => poll 256

/-- The read of a WAITCMP performs (R162). -/
def waitRead (s : State) (i : Nat) (a : Access) (w : CondWait) (pa : Nat) : State :=
  match ctxOf s { key := a.key, who := a.who, lane := lowLane a.lanes } with
  | none => dropAccess s i
  | some c =>
    let x := memWord s.ms.mem pa
    let s' := noteSeen (dropAccess (s.modMs fun ms => tick ms a.stream) i) a pa 4
    if waitRel w.cond x w.b then
      match accTurn s a 1 noBank with
      | .wait => s
      | .diverge => diverge s a.key
      | .go vals => waitDone c a w ((vals.headD 0).setWidth 32) (accUse s' a 1 noBank)
      | .free => waitDone c a w x s'
    else waitAgain c w pa s'

/-- A waiting fragment reads its word again: the access of R162, whose checks are made afresh. -/
def readAgain (s : State) (c : Ctx) (w : CondWait) : State :=
  match checkOne c .global w.va 4 true false false s with
  | (s, .error f) =>
    raise (c.setFrag (leaveMonitor s c.ref) fun g => { g with wait := .run }) c.key c.who c.i [(c.f.lanes, f)] 0 false c.f.pc
  | (s, .ok pa) => State.bump (enqueue (c.waitHere s (.condRead w)) [waitAccess s c pa w])

/-- WAITCMP_WAKE (R162, R291): a waiter that a write has rescheduled reads its word again. -/
def execWaitcmpWake (f : FragRef) (st : State) : Host.Outcome State Fault Refusal :=
  .next (match ctxOf st f with
    | some c =>
      (match c.f.wait with
       | .monitor w =>
         if (runCluster st f.key).isSome && st.ms.monitors.any fun m => m.woken.contains c.ref then
           readAgain (st.modMs fun ms =>
             { ms with monitors := ms.monitors.map fun m => { m with woken := m.woken.filter fun r => r != c.ref } }) c w
         else st
       | _ => st)
    | none => st)

/-- WAITCMP_POLL (R163): a polling fragment reads its word again when its interval is over. -/
def execWaitcmpPoll (f : FragRef) (st : State) : Host.Outcome State Fault Refusal :=
  .next (match ctxOf st f with
    | some c =>
      (match c.f.wait with
       | .poll t w => if (runCluster st f.key).isSome && t + w.gap ≤ st.dtime then readAgain st c w else st
       | _ => st)
    | none => st)

/-! ## Rows of TLD and TST (R180) -/

/-- The last word of a row has performed: progress, then the end of the macro or its next row. -/
def rowDone (s : State) (r : FragRef) : State :=
  match ctxOf s r with
  | none => s
  | some c =>
    match c.f.wait with
    | .rows m =>
      let n := prgElem c.f.prg + 1
      let s := progress c m.cls 0 n s
      if n < rowCount m.words then nextRow c m n s
      else
        let s := c.modB s fun b =>
          if m.cls == clTLD then b.modTile m.d fun t => { t with st := .full, count := t.fillw }
          else b.dropMacro c.f.handler
        macroDone c m s
    | _ => s

/-- A word of a row has performed. -/
def rowWord (s : State) (a : Access) : State :=
  if s.ms.queue.any fun x => x.serial = a.serial then s
  else rowDone s { key := a.key, who := a.who, lane := lowLane a.lanes }

/-! ## Perform (R270, R271) -/

/-- An update arrives at a bank (R245): its turn in a replay, its place in the record, then what it does and its end. A discarded one
arrives too; where the table is invalid, at the bank of its header (DESIGN CHOICE, log 117). -/
def updateArrives (s s' : State) (i : Nat) (a : Access) (bank : Nat) (act : State → State) : State :=
  let go (s : State) : State := dropAccess ((act (accLog s a 4 bank [])).modMs fun ms => tick ms a.stream) i
  match accTurn s a 4 bank with
  | .wait => s
  | .diverge => diverge s a.key
  | .go _ => go (accUse s' a 4 bank)
  | .free => go s'

/-- The Lamplighter's step on a VRET's update (R241, R242); its place in the arrival order is that at the bank of the entry (R245),
and the host writes it reads count for the thread's acquires (R276). -/
def applyUpdate (s : State) (i : Nat) (a : Access) (cl idx : Nat) (t e : Word) (q : Option (BitVec 16)) : State :=
  match s.launch? a.key.part a.key.grid with
  | none => dropAccess s i
  | some l =>
    match lampStep cl a.key.part l.lr.asid a.key.grid a.va idx t e q s with
    | (s', .stop f) => holdAccess s' i a f true
    | (s', .discard pa) => updateArrives s s' i a (bankOf s pa) id
    | (s', .writes rd ws) =>
      updateArrives s s' i a (bankOf s ((ws.getD 1 (0, [])).1)) fun s =>
        let s := rd.foldl (fun s pa => noteSeen s a pa 64) s
        ws.foldl (fun s w => streamWrite s a w.1 w.2) (endIdem s a.key)

/-- A scratchpad access performs: no translation, no line. Its marks and barrier words were looked at when it issued, and no
word becomes one or the other while it is on its way (R160, R325, log 90): should a store meet a live word, the word stays, and
should a load meet a mark, its registers keep it. -/
def performScratch (s : State) (i : Nat) (a : Access) : State :=
  let done (s : State) : State := dropAccess (s.modMs fun ms => tick ms a.stream) i
  match s.block? a.key with
  | none => done s
  | some b =>
    let o := a.va.toNat
    match a.kind with
    | .load n sg d =>
      let s := s.modParty a.key a.who fun p =>
        let p := putLane p d a.lanes (loadWords n sg (memRead b.scr o n))
        if scrPoisoned b o n then
          (List.range ((n + 3) / 4)).foldl (fun p j =>
            { p with poisV := vset p.poisV (d + j) (vget p.poisV (d + j) 0 ||| a.lanes) }) p
        else p
      done s
    | .store data =>
      if b.overlapsBar o data.length then done s
      else
        done (s.modBlock a.key fun b =>
          { b with scr := memWrite b.scr o data,
                   scrPois := b.scrPois.filter fun w => !(decide (o ≤ 4 * w) && decide (4 * w + 4 ≤ o + data.length)) })
    | _ => done s

/-- A global or constant access performs at a physical address (R271). -/
def performAt (s : State) (i : Nat) (a : Access) (pa : Nat) : State :=
  let done (s : State) : State := dropAccess (s.modMs fun ms => tick ms a.stream) i
  match a.kind with
  | .load n sg d =>
    done ((noteSeen s a pa n).modParty a.key a.who fun p => putLane p d a.lanes (loadWords n sg (memRead s.ms.mem pa n)))
  | .loadS n sg d =>
    done ((noteSeen s a pa n).modParty a.key a.who fun p => p.setSs d (loadWords n sg (memRead s.ms.mem pa n)))
  | .store data => done (endIdem (streamWrite s a pa data) a.key)
  | .zline =>
    let s := endIdem (streamWrite s a pa (List.replicate 128 0)) a.key
    done (s.modMs fun ms => { ms with zlines := (ms.zlines.filter fun l => l != pa / 128) ++ [pa / 128] })
  | .atom o n x d =>
    doAtomic s i a pa n (fun old => (true, atomOp o old x)) fun p old _ =>
      putLane p d a.lanes (loadWords n false (leBytes n old.toNat))
  | .atomS o x d =>
    doAtomic s i a pa 4 (fun old => (true, atomOp o old (x.setWidth 64))) fun p old _ => p.setS d (old.setWidth 32)
  | .acas n ex nw pr d =>
    doAtomic s i a pa n (fun old => (old == ex, nw)) fun p old ok =>
      (putLane p d a.lanes (loadWords n false (leBytes n old.toNat))).setP pr a.lanes fun _ => ok
  | .tileLoad t off =>
    let x := memRead s.ms.mem pa 4
    let s := (done (noteSeen s a pa 4)).modBlock a.key fun b => b.modTile t fun y =>
      { y with data := memWrite y.data off x, pois := y.pois.filter fun w => w != off / 4 }
    rowWord s a
  | .tileStore data => rowWord (done (streamWrite s a pa data)) a
  | .waitRead w => waitRead s i a w pa
  | .tableRead =>
    let x := memRead s.ms.mem pa 64
    let s := done (noteSeen s a pa 64)
    (match ctxOf s { key := a.key, who := a.who, lane := lowLane a.lanes } with
     | some c =>
       (match c.f.wait with
        | .table t => tableGot c t x s
        | _ => s)
     | none => s)
  | .update _ _ _ _ => s

/-- Perform an access at the head of its queues (R270, R271). `found` says that the ECC of a read at which its fragment waits finds
an uncorrectable sector, which is then marked poisoned; loads and atomics were looked at when they issued, so that their ECCU is
precise (R292, log 101). A read that its fragment does not wait for keeps a translation from its issue on, so that its faults are precise
(R139, R319, log 52). -/
def performStep (s : State) (i : Nat) (found : Bool) : State :=
  match s.ms.queue[i]? with
  | none => s
  | some a =>
    match runCluster s a.key with
    | none => s
    | some cl =>
      if !atHead s.ms.queue i || a.held.isSome || heldBefore s a.key a.who a.lanes a.stream a.serial then s
      else if found && !a.kind.waits then s
      else
        match a.kind, a.space with
        | .update idx t e q, _ => applyUpdate s i a cl idx t e q
        | _, .scratch => performScratch s i a
        | k, sp =>
          match s.launch? a.key.part a.key.grid with
          | none => s
          | some l =>
            let va := if sp = .const then (l.lr.caddr + a.va.toNat) % 2 ^ 64 else a.va.toNat
            let tr := match a.pa with
              | some pa => (s, Except.ok pa)
              | none => translate s cl a.key.part l.lr.asid va k.rw.1 k.rw.2 false
            match tr with
            | (s, .error f) => accessFault s i a f true
            | (s, .ok pa) =>
              let n := k.size
              if lineHeld s.ms pa n then s
              else
                let s := if found && k.rw.1 then
                    s.modMs fun ms => { ms with badSect := (ms.badSect.filter fun c => c != pa / 32) ++ [pa / 32] }
                  else s
                if k.rw.1 && eccHit s.ms pa n then
                  let s := if found then s.modPart a.key.part fun q => { q with health := lmod q.health 3 fun n => n + 1 }
                    else s
                  accessFault s i a { flt cECCU with addr := BitVec.ofNat 64 va } false
                else performAt s i a pa

/-- PERFORM (R271). -/
def execPerformAcc (i : Nat) (found : Bool) (st : State) : Host.Outcome State Fault Refusal :=
  .next (performStep st i found)

/-- LAMPLIGHTER_UPDATE (R241): the Lamplighter applies the update of a VRET at the head of its queues. -/
def execLamplighterUpdate (i : Nat) (st : State) : Host.Outcome State Fault Refusal :=
  .next (match st.ms.queue[i]? with
    | some a => if a.kind.waits then st else (match a.kind with
      | .update _ _ _ _ => performStep st i false
      | _ => st)
    | none => st)

/-! ## Reductions: Merge, Flush (R152, R271) -/

/-- Hold a reduction for fault service. -/
def holdRed (s : State) (kind : Posted) (i : Nat) (r : RedEntry) (f : Flt) : State :=
  let seq := (s.part r.key.part).nextSeq
  let s := lateRecord s kind r.serial r.key r.who (laneBit r.lane) r.pc f true r.dbl
  let put (l : List RedEntry) : List RedEntry := lmod l i fun r => { r with held := some seq }
  let s := s.modMs fun ms => if kind = .red then { ms with pool := put ms.pool } else { ms with redm := put ms.redm }
  parkHeld s r.key r.who

/-- The physical address of a reduction: its own, or a translation that needs W (R283); a poisoned sector raises ECCU. -/
def redPlace (s : State) (cl : Nat) (r : RedEntry) : State × Except Flt Nat :=
  match r.pa with
  | some pa => (s, .ok pa)
  | none =>
    match s.launch? r.key.part r.key.grid with
    | none => (s, .error (flt cPAGE))
    | some l =>
      match translate s cl r.key.part l.lr.asid r.va.toNat false true false with
      | (s, .error f) => (s, .error f)
      | (s, .ok pa) =>
        let (s, bad) := eccRead s r.key.part pa (redBytes r.op)
        (s, if bad then .error { flt cECCU with addr := r.va } else .ok pa)

/-- Does a partial overlap a word? -/
def Partial.overlaps (c : Partial) (pa n : Nat) : Bool := decide (c.pa < pa + n) && decide (pa < c.pa + redBytes c.op)

/-- Does a RED wait for another of its pool: a lower lane of its instruction on the same bytes (R151)? -/
def laneBefore (s : State) (r : RedEntry) : Bool :=
  s.ms.pool.any fun x => x.serial = r.serial && x.key = r.key && x.who = r.who && decide (x.lane < r.lane) &&
    wordsMeet x.va.toNat (redBytes x.op) r.va.toNat (redBytes r.op)

/-- Merge a RED of a pool (R271): not while an earlier access of its thread and stream is held (R143), nor while the cluster's buffer holds its word under another operation, nor while the
buffer is full and its line new (R288 ff.: 512 lines). -/
def mergeStep (s : State) (i : Nat) : State :=
  match s.ms.pool[i]? with
  | none => s
  | some r =>
    match runCluster s r.key with
    | none => s
    | some cl =>
      if r.held.isSome || heldBefore s r.key r.who (laneBit r.lane) r.stream r.serial || laneBefore s r then s
      else
        match redPlace s cl r with
        | (s, .error f) => holdRed s .red i r f
        | (s, .ok pa) =>
          let mine (c : Partial) : Bool := c.cluster = cl
          let same (c : Partial) : Bool := mine c && c.pa = pa && c.op = r.op
          let lines := ((s.ms.cb.filter mine).map fun c => c.pa / 128).eraseDups
          if s.ms.cb.any fun c => mine c && c.overlaps pa (redBytes r.op) && !same c then s
          else if 512 ≤ lines.length && !lines.contains (pa / 128) then s
          else
            let r := { r with pa := some pa }
            let s := endIdem (s.modMs fun ms => { ms with pool := ldrop ms.pool i }) r.key
            s.modMs fun ms =>
              if ms.cb.any same then
                { ms with cb := ms.cb.map fun c =>
                    if same c then { c with val := atomOp c.op c.val r.x, owners := c.owners ++ [r] } else c }
              else { ms with cb := ms.cb ++ [{ cluster := cl, pa := pa, op := r.op, val := r.x, owners := [r] }] }

/-- MERGE (R271). -/
def execMergeRed (i : Nat) (st : State) : Host.Outcome State Fault Refusal := .next (mergeStep st i)

/-- Flush a partial (R271): M takes Op of it at the home, and the write joins X. -/
def flushStep (s : State) (i : Nat) : State :=
  match s.ms.cb[i]? with
  | none => s
  | some c =>
    s.modMs fun ms => flushOne { ms with cb := ldrop ms.cb i } c

/-- FLUSH (R271). -/
def execFlushCb (i : Nat) (st : State) : Host.Outcome State Fault Refusal := .next (flushStep st i)

/-! ## Drain (R267, R271, R153) -/

/-- Do two path writes have a common word? -/
def PathWrite.meets (a b : PathWrite) : Bool :=
  match a.loc, b.loc with
  | .hbm x, .hbm y => wordsMeet x a.data.length y b.data.length
  | .scr k x, .scr j y => k = j && wordsMeet x a.data.length y b.data.length
  | _, _ => false

/-- A write leaves its path buffer: no older entry of the buffer has its word, and no combining buffer holds a partial of its line
(R152). A live barrier word keeps its value (R160): where a mask word of SELQ or SELK would lie on one the spec names no fault, and
the write is dropped (DESIGN CHOICE, log 115). -/
def drainPath (s : State) (i : Nat) (w : PathWrite) : State :=
  let held : Bool := match w.loc with
    | .hbm pa => lineHeld s.ms pa w.data.length
    | .scr _ _ => false
  if held || ((s.ms.paths.take i).any fun v => v.path = w.path && v.meets w) then s
  else
    let s := s.modMs fun ms => { ms with paths := ldrop ms.paths i }
    match w.loc with
    | .hbm pa =>
      s.modMs fun ms => homeWrite ms
        { serial := w.run, key := w.key, who := w.who, lanes := w.lanes, stream := none, path := some w.path, op := w.op,
          pa := pa, data := w.data }
    | .scr k o =>
      s.modBlock k fun b => if b.overlapsBar o w.data.length then b else
        { b with scr := memWrite b.scr o w.data,
                 scrPois := b.scrPois.filter fun x => !(decide (o ≤ 4 * x) && decide (4 * x + 4 ≤ o + w.data.length)) }

/-- A REDM is applied at the base die: translated before it leaves the cluster (R143), in no order but behind a held or
retried REDM of its thread and the partials of its line (R152). -/
def drainRedm (s : State) (i : Nat) (r : RedEntry) : State :=
  let behind := (s.ms.redm.take i).any fun x => (x.held.isSome || x.again) && x.key = r.key && x.who = r.who && x.lane = r.lane
  match r.pa, runCluster s r.key with
  | none, none => s
  | _, cl =>
    if behind || r.held.isSome then s
    else
      match redPlace s (cl.getD 0) r with
      | (s, .error f) => holdRed s .redm i r f
      | (s, .ok pa) =>
        let n := redBytes r.op
        if lineHeld s.ms pa n then s
        else
        let x := atomOp r.op (BitVec.ofNat 64 (leNat (memRead s.ms.mem pa n))) r.x
        s.modMs fun ms => homeWrite { ms with redm := ldrop ms.redm i }
          { serial := r.serial, key := r.key, who := r.who, lanes := laneBit r.lane, stream := none, path := some .mr,
            op := 0, pa := pa, data := leBytes n x.toNat }

/-- DRAIN (R271): entry i of the path buffers, the `.mr` entries behind the others. -/
def execDrainPath (i : Nat) (st : State) : Host.Outcome State Fault Refusal :=
  .next (match st.ms.paths[i]?, st.ms.redm[i - st.ms.paths.length]? with
    | some w, _ => drainPath st i w
    | none, some r => drainRedm st (i - st.ms.paths.length) r
    | none, none => st)

/-! ## Posted accesses that fault (R143) -/

/-- POSTED_ACCESS_FAULT (R143): the translation of a waiting posted access is made and fails; where it succeeds the access
keeps its physical address. -/
def execPostedAccessFault (kind : Posted) (i : Nat) (st : State) : Host.Outcome State Fault Refusal :=
  .next (match kind with
    | .stream =>
      (match st.ms.queue[i]? with
       | some a =>
         (match runCluster st a.key, st.launch? a.key.part a.key.grid, a.kind with
          | some _, some _, .update _ _ _ _ => st
          | some cl, some l, k =>
            if a.space = .global && a.pa.isNone && a.held.isNone && !k.waits && !k.rw.1 then
              match translate st cl a.key.part l.lr.asid a.va.toNat k.rw.1 k.rw.2 false with
              | (s, .error f) => holdAccess s i a f true
              | (s, .ok pa) =>
                s.modMs fun ms => { ms with queue := lmod ms.queue i fun a => { a with pa := some pa } }
            else st
          | _, _, _ => st)
       | none => st)
    | .red =>
      (match st.ms.pool[i]? with
       | some r =>
         (match runCluster st r.key with
          | some cl =>
            if r.held.isSome then st
            else
              match redPlace st cl r with
              | (s, .error f) => holdRed s .red i r f
              | (s, .ok _) => s
          | none => st)
       | none => st)
    | .redm =>
      (match st.ms.redm[i]? with
       | some r =>
         (match runCluster st r.key with
          | some cl =>
            if r.held.isSome then st
            else
              match redPlace st cl r with
              | (s, .error f) => holdRed s .redm i r f
              | (s, .ok _) => s
          | none => st)
       | none => st))

/-! ## System observers (R276, R371) -/

/-- Must item i of X stay: an older write of its word, or one that a release orders before it (R276)? -/
def exportHeld (x : List XItem) (i : Nat) (w : XWrite) : Bool :=
  let older := x.take i
  (older.any fun e => match e with
    | .write v => wordsMeet v.pa v.data.length w.pa w.data.length
    | .mark _ => false) ||
  ((List.range older.length).any fun j => match older[j]? with
    | some (.mark m) => (older.take j).any fun e => match e with
        | .write v => m.orders v w
        | .mark _ => false
    | _ => false)

/-- Drop the marks that no longer have a covered write before them. -/
def dropMarks (x : List XItem) : List XItem :=
  (List.range x.length).filterMap fun j =>
    match x[j]? with
    | some (XItem.mark m) =>
      if (x.take j).any fun e => match e with
        | .write v => m.first v
        | .mark _ => false
      then some (XItem.mark m) else none
    | e => e

/-- The fragments of a block that wait in MBOX with their release done and have not arrived at the hub. -/
def mboxArrivals (s : State) (b : Block) : List FragRef :=
  (b.fragsWhere fun f => match f.wait with
    | .mbox _ => true
    | _ => false).filterMap fun e =>
      match ((b.party? e.1).bind fun p => p.frags[e.2]?) with
      | some f =>
        let r : FragRef := { key := b.key, who := e.1, lane := lowLane f.lanes }
        if released s b.key e.1 f.lanes && !((s.part b.key.part).mbWait.contains r) then some r else none
      | none => none

/-- Records of MBOX whose release is done arrive at the hub (R258). -/
def arriveMboxes (s : State) : State :=
  s.blocks.foldl (fun s b =>
    if b.cluster?.isSome then
      let l := mboxArrivals s b
      if l.isEmpty then s else s.modPart b.key.part fun q => { q with mbWait := q.mbWait ++ l }
    else s) s

/-- EXPORT (R276): write i of X becomes visible to system observers. -/
def execExportW (i : Nat) (st : State) : Host.Outcome State Fault Refusal :=
  .next (match st.ms.exports[i]? with
    | some (.write w) =>
      if exportHeld st.ms.exports i w then st
      else
        arriveMboxes (st.modMs fun ms =>
          { ms with sys := memWrite ms.sys w.pa w.data, exports := dropMarks (ldrop ms.exports i) })
    | _ => st)

/-- Enter the bytes of a host write as its own. -/
def stampProv (t : Tab Nat) (pa id : Nat) : Nat → Tab Nat
  | 0 => t
  | n + 1 => stampProv (tabSet t pa id) (pa + 1) id n

/-- Deliver a reply to the fragment that waits in SYSC (R259, R375): once its acquire is done and its cluster runs. The reply's registers
stay pending whatever the word's S bit says (R60, R61; DESIGN CHOICE, log 118). -/
def deliverReply (s : State) (part : Nat) (c : Call) : State :=
  match c.reply, ctxOf s c.f with
  | some ws, some x =>
    if (runCluster s c.f.key).isSome && acquireDone x s fun _ => true then
      let s := s.modPart part fun q => { q with calls := q.calls.filter fun y => y.seq != c.seq }
      x.setFrag (x.modP s fun p => p.setSs c.reg ws) fun f =>
        { f with pc := x.pcNext, pend := RegSet.ss c.reg 4, out := f.out.or (RegSet.ss c.reg 4), wait := .run }
    else s
  | _, _ => s

/-- Deliver every reply of a partition that can be delivered. -/
def deliverReplies (s : State) (part : Nat) : State :=
  ((s.part part).calls.filter fun c => c.reply.isSome).foldl (fun s c => deliverReply s part c) s

/-- Write i of Y reaches M (R276): not while an older write to its word stands in Y. -/
def importAt (s : State) (i : Nat) : State :=
  match s.ms.hostw[i]? with
  | some v =>
    let older := (s.ms.hostw.take i).any fun u => !u.done && wordsMeet u.pa u.data.length v.pa v.data.length
    if v.done || older then s
    else
      let s := s.modMs fun ms =>
        let ms := bothWrite ms v.pa v.data
        { ms with prov := stampProv ms.prov v.pa v.id v.data.length,
                  hostw := lmod ms.hostw i fun v => { v with done := true } }
      (List.range 16).foldl deliverReplies s
  | none => s

/-- IMPORT (R276): write i of Y reaches M. -/
def execImportW (i : Nat) (st : State) : Host.Outcome State Fault Refusal := .next (importAt st i)

/-- A host store of device memory enters Y; a fence of its hart, or the same word, orders earlier stores before it (R371). -/
def hostStore (s : State) (hart : Nat) (fenced : Bool) (pa : Nat) (bytes : List Byte) : State :=
  if hbmEnd < pa + bytes.length || bytes.isEmpty then s
  else
    State.bump (s.modMs fun ms =>
      let e := tabGet 0 ms.epochs hart + fenced.toNat
      let direct := ms.hostw.filter fun v =>
        (v.hart = hart && decide (v.epoch < e)) || wordsMeet v.pa v.data.length pa bytes.length
      let before := (direct.map (fun v => v.id) ++ direct.flatMap fun v => v.before).eraseDups
      { ms with epochs := tabSet ms.epochs hart e,
                hostw := ms.hostw ++ [{ id := ms.serial, hart := hart, epoch := e, pa := pa, data := bytes, done := false,
                                        before := before }] })

/-- HOST_CORE_STORE (R276, R371), by one of the 32 host cores (R1); a halted hub runs none (R378). -/
def execHostCoreStore (hart : Nat) (fenced : Bool) (pa : Nat) (bytes : List Byte) (st : State) :
    Host.Outcome State Fault Refusal :=
  .next (if hart < 32 && !st.hub.halted then hostStore st hart fenced pa bytes else st)

/-! ## Results (R60) -/

/-- Does a queued access still write a register of a fragment? -/
def stillComing (s : State) (c : Ctx) (r : RegName) : Bool :=
  s.ms.queue.any fun a => a.key = c.key && a.who = c.who && (a.lanes &&& c.f.lanes) != 0 &&
    (accessWrites a).meets (RegSet.one r)

/-- RESULT_RETURN (R60): an outstanding result returns; at a frozen cluster its skid buffer keeps it, and a full buffer holds it
back (R342). -/
def execResultReturn (f : FragRef) (reg : RegName) (st : State) : Host.Outcome State Fault Refusal :=
  .next (match ctxOf st f with
    | some c =>
      if stillComing st c reg then st
      else if (st.cluster c.cl).frozen then
        st.modCluster c.cl fun x => if x.skid.length < 1024 then { x with skid := x.skid ++ [(c.ref, reg)] } else x
      else returnResult st f reg
    | none => st)

end Sys2Proof.Machine
end

