-- ==== Sys2Proof/Machine/Running.lean ====
section
/-! DEFINITION. Steps of work in progress: the clocks and current buckets (R352, R356–R359), charges that proceed, elements
that run (R271), K-groups that complete (R186–R190), waits that end, warps and blocks that end (R15, R104). -/
namespace Sys2Proof.Machine
open Sys2Proof

/-! ## Finding fragments -/

/-- The context of the first fragment of a block for which a test holds. -/
def findFrag (s : State) (k : Key) (f : Frag → Bool) : Option Ctx :=
  match s.block? k with
  | some b => ((b.fragsWhere f).head?).bind fun e => ctxAt s k e.1 e.2
  | none => none

/-- The context of the MCC's first fragment for which a test holds. -/
def findMcc (s : State) (k : Key) (f : Frag → Bool) : Option Ctx :=
  match s.block? k with
  | some b => ((b.fragsWhere f).find? fun e => e.1 = .mcc).bind fun e => ctxAt s k e.1 e.2
  | none => none

/-- Change every fragment of a party of a block that stands in a wait. -/
def wakeWait (s : State) (k : Key) (w : Wait) : State :=
  s.modBlock k fun b => b.mapFrags fun f => if f.wait = w then { f with wait := .run } else f

/-! ## The clock (R352, R356) -/

/-- Tenths of a rail cycle in a fabric cycle: 4.0 or 4.4 GHz over 2.0 GHz. -/
def railStep (boost : Bool) : Nat := if boost then 22 else 20
/-- RATE (R356). -/
def bucketRate (boost : Bool) : Nat := if boost then 634 else 576

/-- A cluster at the start of a fabric cycle: CBWAIT counts a head that could not proceed in the cycle before, CYC runs
unless frozen, BAL fills; no fragment has issued in the new cycle. -/
def clusterTick (fcyc : Nat) (boost : Bool) (c : Cluster) : Cluster :=
  let stuck := match c.charges with
    | x :: _ => decide (x.at_ ≤ fcyc) && decide (c.bal < x.cost)
    | [] => false
  { c with cbwait := c.cbwait + stuck.toNat, cyc := if c.frozen then c.cyc else c.cyc + railStep boost,
           vcyc := c.vcyc + 1, bal := min 65536 (c.bal + bucketRate boost), lastRun := [] }

/-- The MCCs of a cluster whose next K-group can start: they ask for its charge (R187, R358). -/
def askArrays (s : State) (cl : Nat) : State :=
  (s.blocks.filter fun b => b.place = .resident cl).foldl (fun s b =>
    match findMcc s b.key fun f => (match f.wait with
      | .array _ => true
      | _ => false) with
    | some c =>
      (match c.f.wait with
       | .array m => if (s.cluster cl).frozen then s else nextGroup c m s
       | _ => s)
    | none => s) s

/-- Is a block resident on a frozen cluster? -/
def frozenBlock (s : State) (b : Block) : Bool :=
  match b.cluster? with
  | some c => (s.cluster c).frozen
  | none => false

/-- Does a fault record's answer let a thread or an engine operation of a launch go on? -/
def FTarget.service : FTarget → Bool
  | .party _ _ _ => true
  | .posted _ _ _ _ _ => true
  | .engine _ _ => true
  | .stop _ _ _ _ _ => true
  | _ => false

/-- The segment of R348 a nanosecond of a launch goes to: 0 SFAULT, 1 SIO, 2 SEXEC, 3 SWAIT. -/
def segment (s : State) (l : Launch) : Nat :=
  let q := s.part l.part
  let mine (k : Key) : Bool := k.part = l.part && k.grid = l.grid
  let blocks := s.blocks.filter fun b => mine b.key
  let wait (io : Bool) : Bool := q.calls.any fun c => mine c.f.key && c.io == io
  if (q.faults.any fun r => r.written && !r.answered && r.grid.toNat = l.grid && r.target.service) ||
      blocks.any (frozenBlock s) || wait false then 0
  else if wait true then 1
  else if (blocks.any fun b => b.cluster?.isSome || b.ops.any fun o => o.st != .done && o.st != .failed) ||
      (s.ms.queue.any fun a => mine a.key) || (s.ms.pool.any fun r => mine r.key) || (s.ms.redm.any fun r => mine r.key) then 2
  else 3

/-- A nanosecond of every running launch, from its TQUE on. -/
def tickLaunches (s : State) : State :=
  { s with launches := s.launches.map fun l =>
      if l.stage != 0 || s.dtime < (l.lr.tque) then l
      else
        match segment s l with
        | 0 => { l with sFault := l.sFault + 1 }
        | 1 => { l with sIo := l.sIo + 1 }
        | 2 => { l with sExec := l.sExec + 1 }
        | _ => l }

/-- The phase context of a launch: PH of its queue (R295). -/
def phaseOf (s : State) (l : Launch) : Nat := ((s.queue l.queue).qsched.getLsbD 28).toNat

/-- Is a block of a phase context of a partition (R313)? -/
def inPhase (s : State) (p ph : Nat) (b : Block) : Bool :=
  b.key.part = p && (s.launch? p b.key.grid).any fun l => phaseOf s l = ph

/-- A nanosecond of the phase slices, which began at the instant `now`: a slice does not count down while a cluster of its context
is frozen (R342); the instant at which every block of an expired context has yielded, which lies in the nanosecond that ends, is
kept, and PHOVR takes the time since the expiry (R314). -/
def tickSlices (now : Nat) (s : State) : State :=
  { s with parts := s.parts.map fun (e : Nat × Partition) =>
      let mine := s.blocks.filter (inPhase s e.1 e.2.phase)
      let q := if e.2.schedctl.getLsbD 0 && mine.any (frozenBlock s) then { e.2 with sliceEnd := e.2.sliceEnd + 1 } else e.2
      if q.expired.isSome && q.yieldAt.isNone && mine.all (fun b => b.cluster?.isNone || b.halted) then
        (e.1, { q with yieldAt := some now, phovr := sat32 ((now - q.expired.getD 0) / 1000) })
      else (e.1, q) }

/-- May a fragment of a party issue: it waits for nothing, or what held its instruction is over (R61, R273)? While the MCC's
trap record is live it issues only its handler (R249). -/
def mayIssue (s : State) (k : Key) (who : Who) (p : Party) (f : Frag) : Bool :=
  (match f.wait with
   | .run => true
   | .hold h => holdOver s k who p f h
   | _ => false) && (who != .mcc || p.trap.isNone || f.handler)

/-- Can a warp issue, or does it pause (R106)? -/
def warpReady (s : State) (k : Key) (n : Nat) (p : Party) : Bool :=
  p.frags.any fun f => mayIssue s k (.warp n) p f || (match f.wait with
    | .pause _ _ _ => true
    | _ => false)

/-- Does a warp wait at a switch marker with results outstanding (R311)? -/
def warpAtMarker (s : State) (k : Key) (n : Nat) (p : Party) : Bool :=
  !warpReady s k n p && p.frags.any fun f => f.wait = .switch

/-- The time since which a pending warp has been ready, or an active one has waited at a switch marker. -/
def tickWarp (s : State) (k : Key) (n cyc : Nat) (p : Party) : Party :=
  let on := match p.ws with
    | .pending => warpReady s k n p
    | .active => warpAtMarker s k n p
    | _ => false
  { p with since := if on then (if p.since = 0 then cyc + 1 else p.since) else 0 }

/-- The waits of the warps of every resident block. -/
def tickWarps (s : State) : State :=
  { s with blocks := s.blocks.map fun b =>
      match b.cluster? with
      | some c => if (s.cluster c).frozen then b
        else { b with warps := (List.range b.warps.length).zipWith (fun n p => tickWarp s b.key n (s.cluster c).cyc p) b.warps }
      | none => b }

/-! ## Charges that proceed (R358) -/

/-- The K-group that PRG.PHASE names starts (R184, R188): its sums are taken, the array is busy for its cycles, and the MCC goes on to the next.
`dup` is what redundant execution finds: 1 one result of three differs, 2 none agree. -/
def dispatchGroup (c : Ctx) (m : MacroRun) (dup : Nat) (s : State) : State :=
  let a := mmaTA m
  let b := mmaTB m
  let ta := c.b.tile a
  let tb := c.b.tile b
  let slot := mmaSlot c m
  let grp := prgPhase c.f.prg
  let fresh := grp = 0 && mmaZ m
  let used (e : Nat) : Bool := decide (e / 64 < shRows ta.w0) && decide (e % 64 < shRows tb.w0)
  if groupPoison ta ta slot grp || groupPoison tb ta slot grp || (!fresh && accPoisoned c.b m.a used) then
    macroFault c (fltAt cPOISON grp) s
  else if mmaDup m && dup = 2 then macroFault c (fltAt cMMAMIS grp) s
  else
    let s := if mmaDup m && dup = 1 then
        s.modPart c.key.part fun q => { q with health := lmod q.health 2 fun n => n + 1 }
      else s
    let last := grp + 1 = mmaGroups ta
    let fl : Flight := .group m.a (shRows ta.w0) (shRows tb.w0) fresh (groupSums ta tb slot (mmaNA m) grp) [a, b] last
    let s := fly c fl s
    let s := s.modCluster c.cl fun x =>
      { x with arrayAt := max x.cyc x.arrayAt + 10 * groupCycles ta tb (mmaDup m) }
    let s := progress c m.cls (grp + 1) (grp + 1) s
    if last then
      macroDone c m (c.modB s fun x => { x with mmac := x.mmac.filter fun y => y.handler != c.f.handler })
    else nextGroup c m s

/-- A row of TLD or TST starts (R180): every word is checked, then the row's accesses enter the stream (R269). -/
def startRow (c : Ctx) (m : MacroRun) (s : State) : State :=
  let r := prgElem c.f.prg
  let ld := m.cls == clTLD
  let n := rowBytes m.words / 4
  let t := c.b.tile m.d
  let off (j : Nat) : Nat := r * rowBytes m.words + 4 * j
  if !ld && (List.range n).any fun j => t.pois.contains (off j / 4) then macroFault c (fltAt cPOISON r) s
  else
    match wordPlaces c ld (!ld) n (rowAddr m.words r) s [] with
    | (s, .error f) => macroFault c { f with elem := BitVec.ofNat 32 r } s
    | (s, .ok pas) =>
      let acc (j : Nat) : Access :=
        { serial := s.ms.serial, key := c.key, who := c.who, lanes := c.f.lanes, stream := rowStream m.words, pc := c.f.pc,
          space := .global, va := rowAddr m.words r + BitVec.ofNat 64 (4 * j), pa := pas[j]?,
          kind := if ld then .tileLoad m.d (off j) else .tileStore (memRead t.data (off j) 4), held := none, dbl := c.dbl }
      State.bump (enqueue (c.waitHere s (.rows m)) ((List.range n).map acc))

/-- What starts when a charge proceeds. -/
def startCharged (who : Charger) (dup : Nat) (s : State) : State :=
  let waiting (r : FragRef) : State :=
    match ctxOf s r with
    | some c =>
      (match c.f.wait with
       | .charge m => c.waitHere s (.rows m)
       | _ => s)
    | none => s
  match who with
  | .mcc k =>
    (match findMcc s k fun f => (match f.wait with
      | .charge _ => true
      | _ => false) with
     | some c =>
       (match c.f.wait with
        | .charge m => if m.cls == clMMA || m.cls == clMMAQ then dispatchGroup c m dup s else startRow c m s
        | _ => s)
     | none => s)
  | .gather r => waiting r
  | .select r => waiting r
  | .chan _ id =>
    (match s.op? id with
     | some (_, o) =>
       let s := s.modOp id fun x => { x with charged := true, st := .running }
       if o.elem = 0 then setWp s o 0 else s
     | none => s)
  | .coll _ id => s.modOp id fun x => { x with charged := true, st := .running }

/-- The head of a cluster's FIFO proceeds when BAL covers its cost (R358); a charge of a later cycle waits, and a frozen cluster
takes none. -/
def chargeStep (s : State) (cl dup : Nat) : State :=
  let c := s.cluster cl
  match c.charges with
  | [] => s
  | x :: r =>
    if c.frozen || s.fcyc < x.at_ then s
    else
      let s := s.setCluster cl { c with tried := some s.fcyc }
      if c.bal < x.cost then s
      else startCharged x.who dup (s.modCluster cl fun c => { c with bal := c.bal - x.cost, charges := r })

/-- CHARGE_PROCEED (R358). -/
def execChargeProceed (cluster : Nat) (dup : Nat) (st : State) : Host.Outcome State Fault Refusal :=
  .next (chargeStep st cluster dup)

/-! ## The fabric cycle -/

/-- A PAUSE of a fragment is over; the switch marker of the PAUSE follows (R60, R106). -/
def endPause (c : Ctx) (sw : Bool) (s : State) : State :=
  let s := c.waitHere s .run
  if sw then c.setFrag s fun g => atMarker s c.key c.who g else s

/-- The PAUSEs of a block that cannot last another fabric cycle end: at most n + 64 cycles after they began (R106). -/
def endPauses (s : State) (b : Block) : State :=
  match b.cluster? with
  | some cl =>
    let late (f : Frag) : Bool := match f.wait with
      | .pause t n _ => decide (t + 10 * (n + 64) < (s.cluster cl).cyc + railStep true)
      | _ => false
    if (s.cluster cl).frozen then s
    else
      (b.fragsWhere late).foldl (fun s e =>
        match ctxAt s b.key e.1 e.2 with
        | some c =>
          (match c.f.wait with
           | .pause _ _ sw => endPause c sw s
           | _ => s)
        | none => s) s
  | none => s

/-- The charges of a cluster that the balance covers proceed before the cycle is over (R358). -/
def chargeAll (s : State) (cl : Nat) : State :=
  (List.range (s.cluster cl).charges.length).foldl (fun s _ => chargeStep s cl 0) s

/-- What the cycle owes: charges (R358), barrier waves whose time has come (R158), PAUSEs (R106), records that have arrived at the
hub (R258) and replies that can be delivered (R259). -/
def settleCycle (s : State) : State :=
  let s := s.blocks.foldl (fun s b =>
    let s := if (runCluster s b.key).isSome && !b.waves.isEmpty then s.modBlock b.key (releaseDue (s.cluster ((b.cluster?).getD 0)).cyc b.waves.length) else s
    endPauses s b) s
  let s := arriveMboxes s
  s.parts.foldl (fun s e => if e.2.calls.isEmpty then s else deliverReplies s e.1) s

/-! ## Elements that run (R271) -/

/-- An element of a GTH or SCT runs (R212). -/
def gatherRun (c : Ctx) (m : MacroRun) (s : State) : State :=
  let i := prgElem c.f.prg
  match gatElem c m i s with
  | (s, some f) => macroFault c f s
  | (s, none) =>
    let s := progress c m.cls 0 (i + 1) s
    if i + 1 = gatN m.words then macroDone c m s
    else
      match elemWatch c (i + 1) (gatTouch c s (m.cls == clSCT) m.words (i + 1)) s with
      | some t => t
      | none => waitCharge c m (.gather c.ref) gatherCost s

/-- The selection engine becomes free. -/
def freeEngine (c : Ctx) (s : State) : State := s.modCluster c.cl fun x => { x with selOwner := none }

/-- An element of a SELQ or SELK runs (R216). -/
def selectRun (c : Ctx) (m : MacroRun) (s : State) : State :=
  match selElem c m s with
  | (s, some f, _) => macroFault c f (freeEngine c s)
  | (s, none, none) => s
  | (s, none, some m) =>
    match ctxAt s c.key c.who c.i with
    | none => s
    | some c =>
      let e := prgElem c.f.prg
      let last := prgPhase c.f.prg == selW m.words
      let i := if last && m.redo < e then m.redo else e
      match elemWatch c e (selTouch (lowLane c.f.lanes) m.words last i) s with
      | some t => freeEngine c t
      | none => waitCharge c m (.select c.ref) selectCost s

/-- RUN (R271): the next element of an operation whose charge has proceeded: a row of a copy, a chunk of a collective, an
element of a gather, scatter or selection. -/
def runStep (s : State) (op : Nat) : State :=
  match s.op? op with
  | some (b, o) =>
    let cl := opHome s op
    let here := if o.ch < 8 then b.place = .resident cl else true
    if !o.charged || o.waiting || o.st != .running || (s.cluster cl).frozen || !here then s
    else
      (match opCtx s cl o with
       | some c => if o.ch < 8 then cpaRow c cl o s else clvStep c cl o s
       | none => s)
  | none =>
    let at_ (f : Frag) : Bool := match f.wait with
      | .rows m => m.op = op && (m.cls == clGTH || m.cls == clSCT || m.cls == clSELQ || m.cls == clSELK)
      | _ => false
    match s.blocks.findSome? fun b => findFrag s b.key at_ with
    | none => s
    | some c =>
      if (s.cluster c.cl).frozen then s
      else
        match c.f.wait with
        | .rows m => if m.cls == clGTH || m.cls == clSCT then gatherRun c m s else selectRun c m s
        | _ => s

/-- RUN (R271). -/
def execRunElem (op : Nat) (st : State) : Host.Outcome State Fault Refusal := .next (runStep st op)

/-! ## The array (R186–R190) -/

/-- The values of an MRED are written: the first column for rows, the first row for columns (R190). -/
def putReduced (b : Block) (rows : Bool) (d : Nat) (vals : List Word) : Block :=
  b.modAcc d fun acc => (List.range 64).foldl (fun y n => y.put (if rows then 64 * n else n) (vals.getD n 0)) acc

/-- Array work performs its last write. -/
def applyFlight (b : Block) (f : Flight) : Block :=
  match f with
  | .group a m n fresh sums tiles last =>
    let put (acc : Accum) (e : Nat) : Accum :=
      let i := 64 * (e / n) + e % n
      let g := sums.getD e 0
      acc.put i (if fresh then g else addF32rne (acc.elem i) g)
    let b := b.modAcc a fun acc => (List.range (m * n)).foldl put acc
    if last then b.dropReaders tiles else b
  | .zero a => b.modAcc a fun _ => { data := [], pois := [] }
  | .scale a x =>
    b.modAcc a fun acc => (List.range 4096).foldl (fun y e => y.put e (rneF32 (mulV (vF32 (acc.elem e)) (vF32 x)))) acc
  | .reduce rows op d a => putReduced b rows d (mredVals (b.acc a) rows op)
  | .reduced rows d vals => putReduced b rows d vals

/-- KGROUP_COMPLETE (R187): the oldest array work of a block performs its writes, in issue order (R178); what has been
dispatched completes on a frozen cluster too (R186). -/
def execKgroupComplete (key : Key) (st : State) : Host.Outcome State Fault Refusal :=
  .next (match st.block? key, (st.block? key).bind Block.cluster? with
    | some b, some _ =>
      (match b.flights with
       | f :: r => st.modBlock key fun b => applyFlight { b with flights := r } f
       | [] => st)
    | _, _ => st)

/-! ## Waits that end -/

/-- TILE_WAIT_RESUME (R173): what is held at a tile is applied afresh: fragments, and a copy's row once the tile is neither FULL
nor BUSY (R208). -/
def execTileWaitResume (key : Key) (tile : Nat) (st : State) : Host.Outcome State Fault Refusal :=
  .next (
    let s := wakeWait st key (.tile tile)
    s.modBlock key fun b =>
      { b with ops := b.ops.map fun o =>
          if o.waiting && cpaTile o.words = tile && (b.tile tile).st != .full && (b.tile tile).st != .busy then
            { o with waiting := false, st := .running, errElem := 0 }
          else o })

/-- DRAIN_WAIT_RESUME (R177, R179): what waits for an accumulator goes on when its outstanding count is 0. -/
def execDrainWaitResume (key : Key) (acc : Nat) (st : State) : Host.Outcome State Fault Refusal :=
  .next (match st.block? key with
    | some b => if b.outstanding acc then st else wakeWait st key (.drain acc)
    | none => st)

/-- SELECTION_ENGINE_START (R213): the first waiting SELQ or SELK starts when the engine is free. -/
def execSelectionEngineStart (cluster : Nat) (st : State) : Host.Outcome State Fault Refusal :=
  .next (
    let c := st.cluster cluster
    match c.selOwner, c.selWait with
    | none, r :: rest =>
      if c.frozen then st
      else
        let s := st.setCluster cluster { c with selWait := rest }
        (match ctxOf s r with
         | some k =>
           (match k.f.wait with
            | .selection m => selStart k m s
            | _ => s)
         | none => s)
    | _, _ => st)

/-- CHANNEL_PLACE_FREED (R199): the first fragment held at a channel issues its operation again once a place is free. -/
def execChannelPlaceFreed (cluster ch : Nat) (st : State) : Host.Outcome State Fault Refusal :=
  .next (match (st.cluster cluster).chWait.find? fun e => e.1 = ch with
    | some (_, r) =>
      if 16 ≤ chanLoad st cluster ch then st
      else
        let s := st.modCluster cluster fun c => { c with chWait := c.chWait.filter fun e => e.2 != r }
        (match ctxOf s r with
         | some k => if k.f.wait = .chan ch then k.waitHere s .run else s
         | none => s)
    | none => st)

/-- WAVE_RELEASE (R158): the first wave of a block whose time has come is released. -/
def execWaveRelease (key : Key) (st : State) : Host.Outcome State Fault Refusal :=
  .next (match st.block? key, runCluster st key with
    | some b, some c =>
      (match b.waves.findIdx? fun w => decide (w.due ≤ (st.cluster c).cyc) with
       | some i => st.modBlock key fun b => releaseWave b i
       | none => st)
    | _, _ => st)

/-- PAUSE_END (R106): the count has run out. -/
def execPauseEnd (f : FragRef) (st : State) : Host.Outcome State Fault Refusal :=
  .next (match ctxOf st f with
    | some c =>
      (match c.f.wait with
       | .pause t n sw =>
         if (st.cluster c.cl).cyc < t + 10 * n then st else endPause c sw st
       | _ => st)
    | none => st)

/-- TRAP_ENTRY (R249, R250): a parked fragment enters the handler when the trap record is free. -/
def execTrapEntry (key : Key) (who : Who) (st : State) : Host.Outcome State Fault Refusal := .next (tryEnter st key who)

/-! ## Warps and blocks that end (R15, R104) -/

/-- Are the posted accesses of a party acknowledged: performed, merged, applied? -/
def acknowledged (s : State) (k : Key) (who : Who) : Bool :=
  !(s.ms.queue.any fun a => a.key = k && a.who = who) && !(s.ms.pool.any fun r => r.key = k && r.who = who) &&
    !(s.ms.redm.any fun r => r.key = k && r.who = who)

/-- A draining warp is FREE when its last acknowledgement has returned and its tickets are complete (R15, R204). -/
def warpMayFree (s : State) (b : Block) (n : Nat) : Bool :=
  match b.warps[n]? with
  | some p =>
    p.ws = .draining && acknowledged s b.key (.warp n) && b.ops.all fun o => o.who != .warp n || o.st.over
  | none => false

/-- WARP_FREE (R15). -/
def execWarpFree (key : Key) (warp : Nat) (st : State) : Host.Outcome State Fault Refusal :=
  .next (match st.block? key with
    | some b =>
      if warpMayFree st b warp then st.modParty key (.warp warp) fun p => { p with ws := .free, frags := [] } else st
    | none => st)

/-- Are copies of the bundle still to be queued on the channels of a block (R300)? -/
def copiesLeft (s : State) (b : Block) : Bool :=
  b.key.blk = 0 && (s.launch? b.key.part b.key.grid).any fun l => !l.copies.isEmpty

/-- May a block end (R104)? Its MCC's accesses have performed, and every copy of its bundle has been queued, too. -/
def blockMayEnd (s : State) (b : Block) : Bool :=
  b.started && !copiesLeft s b && (b.warps.all fun p => p.ws = .free) && (b.mcc.isNone || b.mccEnded) && acknowledged s b.key .mcc &&
    b.flights.isEmpty && b.ops.all fun o => o.st.over

/-- BLOCK_END (R104): the block's resources return to its cluster. -/
def execBlockEnd (key : Key) (st : State) : Host.Outcome State Fault Refusal :=
  .next (match st.block? key with
    | some b => if blockMayEnd st b then killBlock st key else st
    | none => st)

end Sys2Proof.Machine
end

