-- ==== Sys2Proof/Machine/FaultQueue.lean ====
section
/-! DEFINITION. The fault queue and its answers (R320–R323, R344, R398), and the accesses the lantern cores and the arbiter
make in an address space (R398). -/
namespace Sys2Proof.Machine
open Sys2Proof

/-! ## Accesses of the lantern cores (R398) -/

/-- The TLB holder of the hub's lantern cores. -/
def hubHolder : Nat := 260

/-- An access that failed: the address and the fault of its translation. -/
abbrev Failed := Nat × Flt

/-- Physical addresses of n bytes from an address of an address space, page by page, or the first that fails. -/
def hubPlaces (s : State) (part asid : Nat) (rd wr : Bool) (va : Nat) : Nat → State × Except Failed (List Nat)
  | 0 => (s, .ok [])
  | n + 1 =>
    match hubPlaces s part asid rd wr va n with
    | (s, .error f) => (s, .error f)
    | (s, .ok l) =>
      let a := (va + n) % 2 ^ 64
      if 2 ^ 55 ≤ a then (s, .error (a, { flt cPAGE with addr := BitVec.ofNat 64 a }))
      else
        match translate s hubHolder part asid a rd wr false with
        | (s, .error f) => (s, .error (a, f))
        | (s, .ok pa) =>
          let (s, bad) := if rd then eccRead s part pa 1 else (s, false)
          if bad then (s, .error (a, { flt cECCU with addr := BitVec.ofNat 64 a })) else (s, .ok (l ++ [pa]))

/-- The acquire at scope .sy behind a read of the hub (R276): the host stores that come before a host store it has read are
imported. -/
def acquireHub (s : State) (ids : List Nat) : State :=
  let need := ids.flatMap fun id => match s.ms.hostw.find? fun v => v.id = id with
    | some v => v.before
    | none => []
  (List.range s.ms.hostw.length).foldl (fun s i =>
    match s.ms.hostw[i]? with
    | some v => if !v.done && need.contains v.id then importAt s i else s
    | none => s) s

/-- An access of stream st0 by the hub advances its clock (R272). -/
def tickHub (s : State) : State := s.modMs fun ms => tick ms 0

/-- Read n bytes with an acquire at scope .sy (R303, R362, R367); partials of their lines are collected first (R152). -/
def hubRead (s : State) (part asid va n : Nat) : State × Except Failed (List Byte) :=
  match hubPlaces s part asid true false va n with
  | (s, .error f) => (s, .error f)
  | (s, .ok l) =>
    let s := s.modMs fun ms => l.foldl (fun ms pa => collect ms pa 1) ms
    let ids := (l.flatMap fun pa => (s.ms.prov.filter fun e => e.1 = pa).map fun e => e.2).eraseDups
    (acquireHub s ids, .ok (l.map fun pa => memGet s.ms.mem pa))

/-- Write bytes: nothing is written when one of them cannot be. -/
def hubWrite (s : State) (part asid va : Nat) (data : List Byte) : State × Option Failed :=
  match hubPlaces s part asid false true va data.length with
  | (s, .error f) => (s, some f)
  | (s, .ok l) => ((l.zip data).foldl (fun s e => s.modMs fun ms => sysWrite ms e.1 [e.2]) s, none)

/-- The record of a write that fails after its packet has left the head (R398). -/
def lateWriteRecord (s : State) (part asid grid : Nat) (t : FTarget) (f : Failed) : State :=
  addRecord s part fun seq =>
    { seq := seq, code := f.2.code, code2 := 0, kind := kindByte false false false false false f.2.level f.2.mal,
      elem := 0, asid := asid, pc := 0, addr := BitVec.ofNat 64 f.1, grid := BitVec.ofNat 32 grid, blk := 0xFFFFFFFF,
      thread := 0xFFFF, ticket := 0, dtime := BitVec.ofNat 64 s.dtime, written := false, answered := false, target := t }

/-! ## The signal word of a lease (R354, R398) -/

/-- A value has been written to a lease's signal word: a revocation is notified with its write, from which the notice runs for
200 µs. -/
def leaseNoted (s : State) (p x : Nat) : State :=
  if x = 3 && (s.part p).lease.held && (s.part p).lease.rvk then s.modPart p fun q => { q with lease := { q.lease with notice := some (s.dtime + 200000) } }
  else s

/-- Make the writes owed to lease signal words of a partition (ASID, address, value), in order, until one fails. -/
def leaseFlush (s : State) (p : Nat) : List (Nat × Nat × Nat) → State
  | [] => s.modPart p fun q => { q with lease := { q.lease with owed := [] } }
  | x :: r =>
    match hubWrite s p x.1 x.2.1 (leBytes 4 x.2.2) with
    | (s, none) => leaseFlush (leaseNoted (tickHub s) p x.2.2) p r
    | (s, some f) =>
      lateWriteRecord (s.modPart p fun q => { q with lease := { q.lease with owed := x :: r, stuck := true } }) p x.1 0
        .leaseWord f

/-- The arbiter writes a value to a lease signal word; behind a write that failed it waits. -/
def leaseWrite (s : State) (p asid sig x : Nat) : State :=
  let l := (s.part p).lease
  if l.stuck then s.modPart p fun q => { q with lease := { q.lease with owed := q.lease.owed ++ [(asid, sig, x)] } }
  else leaseFlush s p [(asid, sig, x)]

/-- The arbiter writes a value to the signal word of the lease a partition holds. -/
def leaseSignal (s : State) (p x : Nat) : State :=
  let l := (s.part p).lease
  leaseWrite s p l.asid l.sig x

/-! ## Records (R320, R321) -/

/-- The 64 bytes of a record. -/
def recordBytes (r : FaultRec) : List Byte :=
  wordBytes r.seq ++ leBytes 1 r.code ++ leBytes 1 r.code2 ++ [r.kind, 0] ++ wordBytes r.elem ++ leBytes 4 r.asid ++
    dwordBytes r.pc ++ dwordBytes r.addr ++ wordBytes r.grid ++ wordBytes r.blk ++ leBytes 2 r.thread.toNat ++ [0, 0] ++
    wordBytes r.ticket ++ dwordBytes r.dtime ++ leBytes 8 0

/-- The slots of a ring from its SIZEM1. -/
def ringSize (sizem1 : Nat) : Nat := sizem1 + 1

/-- Write the oldest record that waits; it sets OVF and goes on waiting when the ring is full or EN is 0. -/
def writeRecord (s : State) (p : Nat) : State :=
  let q := s.part p
  match q.faults.find? fun r => !r.written with
  | none => s
  | some r =>
    let n := ringSize (q.fqctl.toNat % 65536)
    let nx := (q.fqtail.toNat + 1) % n
    if !q.fqctl.getLsbD 31 || nx = q.fqhead.toNat % n then s.modPart p fun q => { q with fqctl := q.fqctl ||| 0x40000000 }
    else
      let s := s.modMs fun ms => sysWrite ms (q.fqbase.toNat + 64 * q.fqtail.toNat) (recordBytes r)
      s.modPart p fun q =>
        { q with fqtail := BitVec.ofNat 16 nx,
                 faults := q.faults.map fun x => if x.seq = r.seq then { x with written := true } else x }

/-- FAULT_RECORD_WRITE (R320). -/
def execFaultRecordWrite (part : Nat) (st : State) : Host.Outcome State Fault Refusal := .next (writeRecord st part)

/-! ## Answers (R322) -/

/-- A written record that has not been answered. -/
def openRecord (s : State) (p : Nat) (seq : Word) : Option FaultRec :=
  (s.part p).faults.find? fun r => r.seq = seq && r.written && !r.answered

/-- Mark a record answered. -/
def answerRecord (s : State) (p : Nat) (seq : Word) : State :=
  s.modPart p fun q => { q with faults := q.faults.map fun r => if r.seq = seq then { r with answered := true } else r }

/-- Fragments parked on a record re-execute from their PC (R319), in a saved block once it is restored. -/
def releaseParked (s : State) (k : Key) (who : Who) (seq : Word) : State :=
  s.modParty k who fun p =>
    { p with frags := p.frags.map fun f =>
        match f.wait with
        | .parked x => if x.seq = some seq then { f with wait := .run } else f
        | _ => f }

/-- A held posted access is retried in its queue's order, its translation made afresh (R143). -/
def releaseHeld (s : State) (seq : Word) : State :=
  let red (r : RedEntry) : RedEntry := if r.held = some seq then { r with held := none, pa := none, again := true } else r
  s.modMs fun ms =>
    { ms with queue := ms.queue.map fun a => if a.held = some seq then { a with held := none, pa := none } else a,
              pool := ms.pool.map red, redm := ms.redm.map red }

/-- A held engine operation resumes at its element, which is charged again (R203, R322). -/
def releaseOp (s : State) (id : Nat) : State :=
  match s.op? id with
  | some (_, o) =>
    if o.st = .held then
      let st : Tick := if chanHead s (opHome s id) o.ch = some id then .running else .queued
      let s := s.modOp id fun x => { x with st := st, heldSeq := none, code := 0, errElem := 0, charged := false }
      kick s (opHome s id) o.ch
    else s
  | none => s

/-- A stopped party continues (R344): it passes the unit over on this issue; the freeze thaws with the last answer. -/
def releaseStop (s : State) (p : Nat) (seq : Word) (k : Key) (who : Who) (lanes : Lanes) (unit : Nat) (watch : Bool) :
    State :=
  let r : FragRef := { key := k, who := who, lane := lowLane lanes }
  let stopped : Bool := match ctxOf s r with
    | some c => c.f.wait = .stopped
    | none => false
  let s := if stopped then
      match ctxOf s r with
      | some c => { c.setFrag s (fun f => { f with wait := .run }) with pass := s.pass ++ [(r, watch, unit)] }
      | none => s
    else s
  closeReports s p [seq] false

/-- What an answer with ACT 0 does (R322). -/
def applyRetry (s : State) (p : Nat) (r : FaultRec) : State :=
  match r.target with
  | .party k who _ => releaseParked s k who r.seq
  | .posted _ _ k who _ => releaseParked (releaseHeld s r.seq) k who r.seq
  | .engine _ id => releaseOp s id
  | .stop k who lanes unit watch => releaseStop s p r.seq k who lanes unit watch
  | .completion g => s.modLaunch p g fun l => { l with stuck := none }
  | .leaseWord => leaseFlush (s.modPart p fun q => { q with lease := { q.lease with stuck := false } }) p (s.part p).lease.owed
  | .command _ => s

/-- What an answer with ACT 1 does (R322): the launch of the record ends, and a freeze of its report thaws with that (R344); a
write after the head is dropped with those behind it (R398). -/
def applyEnd (s : State) (p : Nat) (r : FaultRec) : State :=
  match r.target with
  | .completion g => s.modLaunch p g fun l => { l with stuck := none, stage := 4 }
  | .leaseWord => s.modPart p fun q => { q with lease := { q.lease with owed := [], stuck := false } }
  | .command _ => s
  | .stop _ _ _ _ _ => endLaunch (closeReports s p [r.seq] true) p r.grid.toNat
  | _ => endLaunch s p r.grid.toNat

/-- The block a record answers for. -/
def FTarget.key? : FTarget → Option Key
  | .party k _ _ => some k
  | .posted _ _ k _ _ => some k
  | .engine k _ => some k
  | .stop k _ _ _ _ => some k
  | _ => none

/-- Does a record report an access of a warp that drains? A save waits for it (R323). -/
def draining (s : State) (t : FTarget) : Bool :=
  match t with
  | .posted _ _ k who _ => (s.party? k who).any fun p => p.ws = .draining
  | _ => false

/-- A record is answered: at once, or, when its block is saved or halts for a save, at the restore (R322, R335), but for one that the
save waits for (R323). -/
def answer (s : State) (p : Nat) (seq : Word) (ends : Bool) : State :=
  match openRecord s p seq with
  | none => s
  | some r =>
    let s := answerRecord s p seq
    let wait : Option Key := r.target.key?.filter fun k => match s.block? k with
      | some b => (b.halted || b.cluster?.isNone) && !draining s r.target
      | none => false
    match wait with
    | some k => s.modBlock k fun b => { b with answers := b.answers ++ [(seq, ends)] }
    | none => if ends then applyEnd s p r else applyRetry s p r

/-- The answers a block has received while it was halted or saved take effect, in their order (R322). -/
def applyAnswers (s : State) (k : Key) : State :=
  match s.block? k with
  | none => s
  | some b =>
    b.answers.foldl (fun s e =>
      match (s.part k.part).faults.find? fun r => r.seq = e.1 with
      | some r => if e.2 then applyEnd s k.part r else applyRetry s k.part r
      | none => s) (s.modBlock k fun b => { b with answers := [] })

/-- An answer with ACT 0 (R322). -/
def retryRecord (s : State) (p : Nat) (seq : Word) : State := answer s p seq false

/-- FRESUME_RETRY (R322). -/
def execFresumeRetry (part : Nat) (seq : Word) (st : State) : Host.Outcome State Fault Refusal :=
  .next (retryRecord st part seq)

/-- An answer with ACT 1 (R322). -/
def endRecord (s : State) (p : Nat) (seq : Word) : State := answer s p seq true

/-- FRESUME_END_LAUNCH (R322). -/
def execFresumeEndLaunch (part : Nat) (seq : Word) (st : State) : Host.Outcome State Fault Refusal :=
  .next (endRecord st part seq)

end Sys2Proof.Machine
end

