-- ==== Sys2Proof/Machine/Debug.lean ====
section
/-! DEFINITION. Who issues next (R17, R310), breakpoints, watch hits, the spread of a freeze, the debug window and PC samples
(R340–R346, R372). -/
namespace Sys2Proof.Machine
open Sys2Proof

/-! ## Who issues (R17, R249, R310) -/

/-- Does fragment f come before fragment g in a warp: lower PC, then lower lane (R17)? -/
def Frag.before (f g : Frag) : Bool := f.pc.toNat < g.pc.toNat || (f.pc = g.pc && decide (lowLane f.lanes < lowLane g.lanes))

/-- The fragment of a party with the lowest PC among those that can issue (R17). -/
def lowestFrag (s : State) (k : Key) (who : Who) (p : Party) : Option Nat :=
  (List.range p.frags.length).foldl (fun best i =>
    match p.frags[i]?, best with
    | some f, none => if mayIssue s k who p f then some i else none
    | some f, some j =>
      (match p.frags[j]? with
       | some g => if mayIssue s k who p f && f.before g then some i else some j
       | none => some j)
    | none, _ => best) none

/-- The fragment a party issues: none while a result of another of its fragments is outstanding (R17, R61; log 93). -/
def pickFrag (s : State) (k : Key) (who : Who) (p : Party) : Option Nat :=
  (lowestFrag s k who p).filter fun i =>
    (List.range p.frags.length).all fun j => j = i || (match p.frags[j]? with
      | some g => !resultsOut s k who g
      | none => true)

/-- The blocks whose parties may issue on a cluster. -/
def State.runBlocks (s : State) (cl : Nat) : List Block :=
  if (s.cluster cl).frozen then [] else s.blocks.filter fun b => b.place = .resident cl && b.started && !b.halted

/-- Does a warp belong to a pipe: at width 64 to both pipes of its pair (R309)? -/
def Party.onPipe (p : Party) (width pipe : Nat) : Bool := if width = 64 then p.pipe / 2 == pipe / 2 else p.pipe == pipe

/-- The width of the kernel a block runs. -/
def State.widthOf (s : State) (k : Key) : Nat :=
  match s.launch? k.part k.grid with
  | some l => l.lr.width
  | none => 32

/-- The active warps of a pipe with a fragment that can issue. -/
def readyWarps (s : State) (cl pipe : Nat) : List (Key × Nat × Party) :=
  (s.runBlocks cl).flatMap fun b =>
    (List.range b.warps.length).filterMap fun n =>
      match b.warps[n]? with
      | some p =>
        if p.ws = .active && p.onPipe (s.widthOf b.key) pipe && (pickFrag s b.key (.warp n) p).isSome then some (b.key, n, p) else none
      | none => none

/-- The warp of a pipe that has gone longest without issuing, then the lowest slot (R310); of two 16-wide warps in the halves of one
slot, the one that comes first in the order of blocks and warps (DESIGN CHOICE, log 120). -/
def pickWarp (s : State) (cl pipe : Nat) : Option (Key × Nat × Party) :=
  (readyWarps s cl pipe).foldl (fun best e =>
    match best with
    | none => some e
    | some b =>
      if e.2.2.lastIssue < b.2.2.lastIssue || (e.2.2.lastIssue = b.2.2.lastIssue && decide (e.2.2.slot < b.2.2.slot)) then some e
      else best) none

/-! ## PC breakpoints (R341–R343) -/

/-- The lowest enabled breakpoint at the PC of a fragment about to issue, one passed over excepted. -/
def breakUnit (s : State) (c : Ctx) : Option Nat :=
  let q := s.part c.key.part
  if q.dbgctl.getLsbD 31 || q.dbgctl.getLsbD 29 then
    (List.range 8).find? fun n =>
      q.dbgctl.getLsbD (8 + n) && bitsAt (q.bpc.getD n 0).toNat 2 53 == c.f.pc.toNat / 4 &&
        !(s.pass.any fun e => e.1 = c.ref && !e.2.1 && e.2.2 = n)
  else none

/-- The macro element at which a fragment stands, else 0. -/
def Ctx.elem (c : Ctx) : Nat := if prgV c.f.prg && c.f.prgpc == c.f.pc.setWidth 64 then prgElem c.f.prg else 0

/-- Is the word at the PC a prefix (R63, R65)? -/
def atPrefix (c : Ctx) (s : State) : Bool :=
  match (fetchWord c c.f.pc s).2 with
  | .ok w =>
    (match decodeWord w with
     | .ok (.rep ..) => true
     | .ok (.limm ..) => true
     | _ => false)
  | .error _ => false

/-- A breakpoint stops the party, or raises BRKPT under WTRAP (R340–R343). -/
def breakStop (c : Ctx) (n : Nat) (s : State) : State :=
  if dbgArm s c.key.part then stopParty s c.l c.key c.who c.i c.f c.cl cBRKPT c.elem 0 0 1 n
  else raise s c.key c.who c.i [(c.f.lanes, fltAt cBRKPT c.elem)] 0 (atPrefix c s) c.f.pc

/-- The order of the reports of one cycle (R343): the MCC, then the warps, then the lanes. -/
def stopRank (who : Who) (lanes : Lanes) : Nat :=
  match who with
  | .mcc => 0
  | .warp n => (n + 1) * 64 + lowLane lanes

/-- The pipes a party issues on: at width 64 both of its pair (R309, R310), 4 for the MCC. -/
def issuePipes (s : State) (k : Key) (who : Who) (p : Party) : List Nat :=
  if who = .mcc then [4] else (List.range 4).filter (p.onPipe (s.widthOf k))

/-- May a party of a cluster that has just frozen hit in the same cycle: it issues on another pipe, and its report does not come
before those written? -/
def sameCycle (s : State) (c : Ctx) : Bool :=
  let q := s.part c.key.part
  let mine := q.faults.filter fun r => (q.freezes.any fun f => f.clusters.contains c.cl && f.seqs.contains r.seq) && (match r.target with
    | .stop k _ _ _ _ => (s.block? k).bind Block.cluster? == some c.cl
    | _ => false)
  !mine.isEmpty && mine.all fun r => r.dtime == BitVec.ofNat 64 s.dtime && (match r.target with
    | .stop k who lanes _ _ =>
      decide (stopRank who lanes ≤ stopRank c.who c.f.lanes) &&
        (s.party? k who).any fun p => (issuePipes s k who p).all fun n => !(issuePipes s c.key c.who c.p).contains n
    | _ => false)

/-- Is a fragment about to issue, on a cluster that runs or in the cycle of the freeze? -/
def aboutToIssue (s : State) (c : Ctx) : Bool :=
  c.b.started && !c.b.halted && (c.who = .mcc || c.p.ws = .active) && pickFrag s c.key c.who c.p = some c.i &&
    (!(s.cluster c.cl).frozen || sameCycle s c)

/-- BREAKPOINT_HIT (R341–R343). -/
def execBreakpointHit (f : FragRef) (st : State) : Host.Outcome State Fault Refusal :=
  .next (match ctxOf st f with
    | some c =>
      if aboutToIssue st c then
        match breakUnit st c with
        | some n => breakStop c n st
        | none => st
      else st
    | none => st)

/-! ## Watch hits (R341–R343) -/

/-- The body of a word whose accesses may be watched. -/
def watchBody (i : Instr) : Option Body :=
  match i with
  | .tld _ t a => some (bTld t a)
  | .tst _ t a => some (bTst t a)
  | .gth _ a => some (bGth a)
  | .sct _ a => some (bSct a)
  | .selq _ d a => some (bSelq d a)
  | .selk _ d a => some (bSelk d a)
  | _ => bodyOf i

/-- The word at a fragment's PC issues. -/
def issueWord (c : Ctx) (s : State) : State :=
  match fetchWord c c.f.pc s with
  | (s, .error _) => s
  | (s, .ok w) =>
    (match decodeWord w with
     | .ok (.limm i) => limmRun c i s
     | .ok (.rep n d a b e m) => repRun c (n.toNat + 1) (m.toNat + 1) [d == 1, a == 1, b == 1, e == 1] s
     | .ok i =>
       (match watchBody i with
        | some b => issueAt c i (bitsAt w 30 1 == 1) b s
        | none => s)
     | .error _ => s)

/-- Did a watch hit stop or trap the fragment of a lane? -/
def watchFired (before after : State) (c : Ctx) : Bool :=
  match ctxOf after c.ref with
  | some d =>
    (match d.f.wait with
     | .stopped => true
     | .parked k => k.flt.code == cWATCH
     | _ => false) ||
      (d.f.handler && !c.f.handler && d.p.trap.any fun t => t.code == cWATCH)
  | none => false

/-- WATCHPOINT_HIT (R341–R343): the instruction, or the element of a macro, does not take effect. -/
def execWatchpointHit (f : FragRef) (st : State) : Host.Outcome State Fault Refusal :=
  .next (match ctxOf st f with
    | some c =>
      if aboutToIssue st c && (breakUnit st c).isNone then
        let t := issueWord c { st with turn := .frag c.key c.who c.i, late := false }
        if watchFired st t c then { t with turn := st.turn, late := st.late } else st
      else st
    | none => st)

/-! ## Spread of a freeze (R343) -/

/-- Does a party stand inside an instruction or an element: one that has started and not ended? -/
def midway (s : State) (cl : Nat) : Bool :=
  s.blocks.any fun b => b.place = .resident cl && !(b.fragsWhere fun f => match f.wait with
    | .rows _ => true
    | .table _ => true
    | _ => false).isEmpty

/-- FREEZE_SPREAD: with BCAST, a cluster that holds a block of a stopped launch freezes, at an instruction or element boundary of
every party, and joins the freeze. -/
def execFreezeSpread (part cluster : Nat) (st : State) : Host.Outcome State Fault Refusal :=
  .next (
    let q := st.part part
    let grids (f : Freeze) : List Nat := (q.faults.filter fun r => f.seqs.contains r.seq).map fun r => r.grid.toNat
    let reach (f : Freeze) : Bool := !f.clusters.contains cluster &&
      st.blocks.any fun b => b.key.part = part && b.place = .resident cluster && (grids f).contains b.key.grid
    if q.dbgctl.getLsbD 30 && q.dbgctl.getLsbD 28 && !midway st cluster && q.freezes.any reach then
      (freezeCluster st cluster).modPart part fun q =>
        { q with freezes := q.freezes.map fun f => if reach f then { f with clusters := f.clusters ++ [cluster] } else f }
    else st)

/-! ## PC samples (R346) -/

/-- The reason a sampled party gives: 1 at a switch marker, 2 waiting, 3 parked; a party that can issue gives 0. -/
def sampleReason (f : Frag) : Nat :=
  match f.wait with
  | .run => 0
  | .switch => 1
  | .hold .results => 1
  | .parked _ => 3
  | _ => 2

/-- The record of a sample of a fragment. -/
def sampleBytes (s : State) (l : Launch) (k : Key) (who : Who) (pc : Addr) (lanes : Lanes) (reason : Nat) : List Byte :=
  traceBytes 2 reason 0 k (threadOf l.lr.width who lanes) pc s.dtime lanes 0

/-- The record of a sample that finds no party (R346; its fields are the model's choice, log 112). -/
def emptySample (s : State) : List Byte :=
  traceBytes 2 4 0 { part := 0, grid := 0, blk := 0 } 0 0 s.dtime 0 0

/-- The fragment a party is sampled at: the one it would issue, else its first. -/
def sampled (s : State) (k : Key) (who : Who) (p : Party) : Option Frag :=
  (pickFrag s k who p).elim p.frags.head? fun i => p.frags[i]?

/-- Sample pipe n of a cluster, or its MCC for n = 4: the fragment that issued in this cycle, else the active warp longest
without issue. -/
def samplePipe (s : State) (part cl n : Nat) : State :=
  let put (k : Key) (who : Who) (pc : Addr) (lanes : Lanes) (r : Nat) : State :=
    match s.launch? k.part k.grid with
    | some l => if tracing s l then traceWrite s k.part (sampleBytes s l k who pc lanes r) else s
    | none => s
  match (s.cluster cl).lastRun.find? fun e => e.1 = n with
  | some (_, r, pc, lanes) => put r.key r.who pc lanes 0
  | none =>
    let blocks := s.blocks.filter fun b => b.place = .resident cl
    let parties : List (Key × Who × Party) := blocks.flatMap fun b =>
      if n = 4 then (match b.mcc with
        | some p => [(b.key, .mcc, p)]
        | none => [])
      else (List.range b.warps.length).filterMap fun w =>
        match b.warps[w]? with
        | some p => if p.ws = .active && p.onPipe (s.widthOf b.key) n then some (b.key, .warp w, p) else none
        | none => none
    let best := parties.foldl (fun (x : Option (Key × Who × Party)) e =>
      match x with
      | none => some e
      | some y => if e.2.2.lastIssue < y.2.2.lastIssue then some e else x) none
    match best.bind fun e => (sampled s e.1 e.2.1 e.2.2).map fun f => (e.1, e.2.1, f) with
    | some (k, who, f) => put k who f.pc f.lanes (sampleReason f)
    | none => if (s.part part).trctl.getLsbD 31 then traceWrite s part (emptySample s) else s

/-- PC_SAMPLE: a period of a cluster has passed; one of its pipes, in rotation, and its MCC are sampled. -/
def execPcSample (cluster : Nat) (st : State) : Host.Outcome State Fault Refusal :=
  .next (
    let c := st.cluster cluster
    match st.ownerOf cluster with
    | some p =>
      let ctl := (st.part p).sampctl
      let L := ctl.toNat % 32
      if ctl.getLsbD 31 && decide (10 ≤ L) && decide (L ≤ 24) && !c.frozen && decide (c.sample + 2 ^ L ≤ c.cycles) then
        let s := st.setCluster cluster { c with sample := c.cycles / 2 ^ L * 2 ^ L }
        samplePipe (samplePipe s p cluster (c.cycles / 2 ^ L % 4)) p cluster 4
      else st
    | none => st)

end Sys2Proof.Machine
end

