-- ==== Sys2Proof/Machine/Window.lean ====
section
/-! DEFINITION. The debug window (R344, R372): the words of a context of R329, read and written. -/
namespace Sys2Proof.Machine
open Sys2Proof

/-! ## Words of wider fields -/

/-- Word i of a bit field, counted upwards. -/
def wordAt {n : Nat} (x : BitVec n) (i : Nat) : Word := (x >>> (32 * i)).setWidth 32

/-- The bit field with word i replaced. -/
def putAt {n : Nat} (x : BitVec n) (i : Nat) (w : Word) : BitVec n :=
  (x &&& ~~~(((0xFFFFFFFF : Word).setWidth n) <<< (32 * i))) ||| ((w.setWidth n) <<< (32 * i))

/-- An instruction's address with word i replaced: it stays a multiple of 4. -/
def putPc (x : Addr) (i : Nat) (w : Word) : Addr := putAt x i w &&& ~~~3#55

/-- The words of a register set: lane registers, uniform registers, predicates. -/
def RegSet.word (r : RegSet) (i : Nat) : Word :=
  if i < 2 then wordAt r.v i else if i < 6 then wordAt r.s (i - 2) else r.p.setWidth 32

/-- The register set with a word replaced. -/
def RegSet.putWord (r : RegSet) (i : Nat) (w : Word) : RegSet :=
  if i < 2 then { r with v := putAt r.v i w } else if i < 6 then { r with s := putAt r.s (i - 2) w } else { r with p := w.setWidth 4 }

/-- Which of the words 32i to 32i + 31 a list names. -/
def marksOf (l : List Nat) (i : Nat) : Word :=
  (List.range 32).foldl (fun (w : Word) j => if l.contains (32 * i + j) then w ||| (1#32 <<< j) else w) 0

/-- The list with the marks of the words 32i to 32i + 31 replaced. -/
def putMarks (l : List Nat) (i : Nat) (w : Word) : List Nat :=
  (l.filter fun n => n / 32 != i) ++ ((List.range 32).filter fun j => w.getLsbD j).map fun j => 32 * i + j

/-! ## Records -/

/-- A word of a call record (R233). -/
def CallRec.word (r : CallRec) (i : Nat) : Word :=
  match i with
  | 0 => wordAt r.table 0
  | 1 => wordAt r.table 1
  | 2 => BitVec.ofNat 32 (r.idx + r.bound.toNat * 256 + r.fallb.toNat * 512 + r.force.toNat * 1024)
  | 3 => wordAt r.ret 0
  | 4 => wordAt r.ret 1
  | 5 => r.savT
  | 6 => r.savE
  | 7 => r.savQ.setWidth 32
  | 8 => r.elT
  | 9 => r.elE
  | 10 => r.elQ.setWidth 32
  | 11 => BitVec.ofNat 32 r.opt
  | 12 => BitVec.ofNat 32 r.tacc
  | 13 => BitVec.ofNat 32 r.eacc
  | _ => 0

/-- A call record with a word replaced. -/
def CallRec.putWord (r : CallRec) (i : Nat) (w : Word) : CallRec :=
  match i with
  | 0 => { r with table := putAt r.table 0 w }
  | 1 => { r with table := putAt r.table 1 w }
  | 2 => { r with idx := w.toNat % 256, bound := w.getLsbD 8, fallb := w.getLsbD 9, force := w.getLsbD 10 }
  | 3 => { r with ret := putPc r.ret 0 w }
  | 4 => { r with ret := putPc r.ret 1 w }
  | 5 => { r with savT := w }
  | 6 => { r with savE := w }
  | 7 => { r with savQ := w.setWidth 16 }
  | 8 => { r with elT := w }
  | 9 => { r with elE := w }
  | 10 => { r with elQ := w.setWidth 16 }
  | 11 => { r with opt := w.toNat }
  | 12 => { r with tacc := w.toNat }
  | 13 => { r with eacc := w.toNat }
  | _ => r

/-- A word of a trap record (R250). -/
def TrapRec.word (t : TrapRec) (i : Nat) : Word :=
  if i < 2 then wordAt t.lanes i
  else if i < 9 then t.pend.word (i - 2)
  else if i < 11 then wordAt t.prg (i - 9)
  else if i < 13 then wordAt t.prgpc (i - 11)
  else if i < 15 then wordAt t.prgx (i - 13)
  else if i < 17 then wordAt t.ret (i - 15)
  else if i < 19 then wordAt t.nxt (i - 17)
  else BitVec.ofNat 32 t.code

/-- A trap record with a word replaced. -/
def TrapRec.putWord (t : TrapRec) (i : Nat) (w : Word) : TrapRec :=
  if i < 2 then { t with lanes := putAt t.lanes i w }
  else if i < 9 then { t with pend := t.pend.putWord (i - 2) w }
  else if i < 11 then { t with prg := prgWrite (putAt t.prg (i - 9) w) }
  else if i < 13 then { t with prgpc := prgpcWrite (putAt t.prgpc (i - 11) w) }
  else if i < 15 then { t with prgx := putAt t.prgx (i - 13) w }
  else if i < 17 then { t with ret := putPc t.ret (i - 15) w }
  else if i < 19 then { t with nxt := putPc t.nxt (i - 17) w }
  else { t with code := w.toNat % 256 }

/-- A word of a join record (R101). -/
def JoinRec.word (r : JoinRec) (i : Nat) : Word :=
  if i < 2 then wordAt r.pc i else if i < 4 then wordAt r.mask (i - 2) else wordAt r.arrived (i - 4)

/-- A join record with a word replaced. -/
def JoinRec.putWord (r : JoinRec) (i : Nat) (w : Word) : JoinRec :=
  if i < 2 then { r with pc := putPc r.pc i w }
  else if i < 4 then { r with mask := putAt r.mask (i - 2) w }
  else { r with arrived := putAt r.arrived (i - 4) w }

/-- A word of a fragment's progress state: PRG, PRGPC, PRGX (R37). -/
def Frag.prgWord (f : Frag) (i : Nat) : Word :=
  if i < 2 then wordAt f.prg i else if i < 4 then wordAt f.prgpc (i - 2) else wordAt f.prgx (i - 4)

/-- A fragment with a word of its progress state replaced. -/
def Frag.putPrg (f : Frag) (i : Nat) (w : Word) : Frag :=
  if i < 2 then { f with prg := prgWrite (putAt f.prg i w) }
  else if i < 4 then { f with prgpc := prgpcWrite (putAt f.prgpc (i - 2) w) }
  else { f with prgx := putAt f.prgx (i - 4) w }

/-- The record on which a fragment is parked; 0 for none. -/
def Frag.seqWord (f : Frag) : Word :=
  match f.wait with
  | .parked k => k.seq.getD 0
  | _ => 0

/-- A parked fragment named by another record. -/
def Frag.putSeq (f : Frag) (w : Word) : Frag :=
  match f.wait with
  | .parked k => { f with wait := .parked { k with seq := k.seq.map fun _ => w } }
  | _ => f

/-- The states of a tile, numbered in the order of R173. -/
def tileStates : List TileState := [.empty, .filling, .loading, .full, .busy]

/-- A word of a tile's shape record, state and counts (R171–R174). -/
def Tile.word (t : Tile) (i : Nat) : Word :=
  match i with
  | 0 => t.w0
  | 1 => t.w1
  | 2 => t.w2
  | 3 => t.w3
  | 4 => BitVec.ofNat 32 ((tileStates.idxOf t.st) + t.rel.toNat * 256)
  | 5 => BitVec.ofNat 32 t.count
  | 6 => BitVec.ofNat 32 t.readers
  | _ => 0

/-- A tile with a word of those replaced; a number that names no state leaves it. -/
def Tile.putWord (t : Tile) (i : Nat) (w : Word) : Tile :=
  match i with
  | 0 => { t with w0 := w }
  | 1 => { t with w1 := w }
  | 2 => { t with w2 := w }
  | 3 => { t with w3 := w }
  | 4 => { t with st := tileStates.getD (w.toNat % 256) t.st, rel := w.getLsbD 8 }
  | 5 => { t with count := w.toNat }
  | 6 => { t with readers := w.toNat }
  | _ => t

/-- A word of a channel: ISQ, CSQ, the latch, the write pointer (R198, R200, R209). -/
def Chan.word (c : Chan) (i : Nat) : Word :=
  match i with
  | 0 => BitVec.ofNat 32 c.isq
  | 1 => BitVec.ofNat 32 c.csq
  | 2 => (c.latch.map fun n => BitVec.ofNat 32 n ||| 0x80000000#32).getD 0
  | 3 => c.wpT
  | 4 => BitVec.ofNat 32 c.wpB
  | _ => 0

/-- A channel with a word replaced. -/
def Chan.putWord (c : Chan) (i : Nat) (w : Word) : Chan :=
  match i with
  | 0 => { c with isq := w.toNat }
  | 1 => { c with csq := w.toNat }
  | 2 => { c with latch := if w.getLsbD 31 then some (w.toNat % 2 ^ 31) else none }
  | 3 => { c with wpT := w }
  | 4 => { c with wpB := w.toNat }
  | _ => c

/-- The ticket states, numbered in the order of R200. -/
def tickStates : List Tick := [.done, .queued, .running, .held, .failed]

/-- A word of a ticket record: state, element, code, failing element, then the operand block (R200, R203). -/
def EngOp.ctxWord (o : EngOp) (i : Nat) : Word :=
  match i with
  | 0 => BitVec.ofNat 32 (tickStates.idxOf o.st + o.ch * 256)
  | 1 => BitVec.ofNat 32 o.elem
  | 2 => BitVec.ofNat 32 o.code
  | 3 => BitVec.ofNat 32 o.errElem
  | n + 4 => o.words.getD n 0

/-- A ticket record with a word replaced; its channel stays. -/
def EngOp.putWord (o : EngOp) (i : Nat) (w : Word) : EngOp :=
  match i with
  | 0 => { o with st := tickStates.getD (w.toNat % 256) o.st }
  | 1 => { o with elem := w.toNat }
  | 2 => { o with code := w.toNat % 256 }
  | 3 => { o with errElem := w.toNat }
  | n + 4 => { o with words := lmod o.words n fun _ => w }

/-! ## Storage (R325) -/

/-- Replace bits [32i+31:32i] of a byte memory's word, clearing nothing else. -/
def putWord (m : Mem) (i : Nat) (x : Word) : Mem := memWrite m (4 * i) (wordBytes x)

/-- Read one storage element of a block; one that the block does not have reads 0. -/
def readElement (b : Block) (e : Element) : Word :=
  match e with
  | .lane w r L => ((b.warps[w]?).map fun p => if r < p.win then p.getV r L else 0).getD 0
  | .uniform w r => ((b.party? w).map fun p => p.getS r).getD 0
  | .scratch i => if 4 * i < b.scrSize then memWord b.scr (4 * i) else 0
  | .tile t i => if i < 4096 then ((b.tiles[t]?).map fun y => memWord y.data (4 * i)).getD 0 else 0
  | .acc a i => if b.held a && i < 4096 then memWord (b.acc a).data (4 * i) else 0
  | .l1 _ => 0

/-- Write one storage element of a block; a whole element written loses its poison mark (R325). A lane register outside the window
keeps no value (R23). -/
def writeElement (b : Block) (e : Element) (x : Word) : Block :=
  match e with
  | .lane w r L => b.modParty (.warp w) fun p => if r < p.win then p.setV r (laneBit L) fun _ => x else p
  | .uniform w r => b.modParty w fun p => p.setS r x
  | .scratch i =>
    if 4 * i < b.scrSize then { b with scr := putWord b.scr i x, scrPois := b.scrPois.filter fun j => j != i } else b
  | .tile t i =>
    if i < 4096 then
      { b with tiles := lmod b.tiles t fun y => { y with data := putWord y.data i x, pois := y.pois.filter fun j => j != i } }
    else b
  | .acc a i =>
    if b.held a && i < 4096 then
      b.modAcc a fun y => { y with data := putWord y.data i x, pois := y.pois.filter fun j => j != i }
    else b
  | .l1 _ => b

/-! ## The words of a context (R329) -/

/-- A fragment of a party of a block. -/
def Block.frag? (b : Block) (w : Who) (n : Nat) : Option Frag := (b.party? w).bind fun p => p.frags[n]?

/-- A word of a party. -/
def partyWord (b : Block) (x : Config.CtxWord) : Word :=
  let p (w : Who) (f : Party → Word) : Word := ((b.party? w).map f).getD 0
  let g (w : Who) (n : Nat) (f : Frag → Word) : Word := ((b.frag? w n).map f).getD 0
  match x with
  | .poisV w r h => p (.warp w) fun p => wordAt (vget p.poisV r 0) h
  | .poisS w i => p w fun p => wordAt p.poisS i
  | .pred w r h => p w fun p => wordAt (vget p.p r 0) h
  | .exited w h => p w fun p => wordAt p.exited h
  | .fmode w => p w fun p => p.fmode
  | .limit w 0 => p w fun p => p.limT
  | .limit w 1 => p w fun p => p.limE
  | .limit w 2 => p w fun p => p.limQ.setWidth 32
  | .limit w _ => p w fun p => BitVec.ofNat 32 p.opt
  | .window w => p w fun p => BitVec.ofNat 32 p.win
  | .fragLanes w n h => g w n fun f => wordAt f.lanes h
  | .fragPc w n h => g w n fun f => wordAt f.pc h
  | .fragPend w n i => g w n fun f => f.pend.word i
  | .fragPrg w n i => g w n fun f => f.prgWord i
  | .fragSeq w n => g w n Frag.seqWord
  | .join w n i => p w fun p => ((p.joins[n]?).map fun r => r.word i).getD 0
  | .ret w L n h => p w fun p => (((vget p.rets L [])[n]?).map fun a => wordAt a h).getD 0
  | .call w n i => p w fun p => ((p.calls[n]?).map fun r => r.word i).getD 0
  | .trap w i => p w fun p => (p.trap.map fun t => t.word i).getD 0
  | .arrival w h => p w fun p => (p.arrive.map fun a => wordAt a.lanes h).getD 0
  | _ => 0

/-- The gang a block belongs to. -/
def gangKey (s : State) (k : Key) : Option Nat := (s.launch? k.part k.grid).map fun l => l.lr.gangOf k.blk

/-- A word of a context. -/
def ctxRead (s : State) (b : Block) (x : Config.CtxWord) : Word :=
  match x with
  | .storage e => readElement b e
  | .poisScr i => marksOf b.scrPois i
  | .poisTile t i => ((b.tiles[t]?).map fun y => marksOf y.pois i).getD 0
  | .poisAcc a i => if b.held a then marksOf (b.acc a).pois i else 0
  | .cslr => b.cslr
  | .pool => BitVec.ofNat 32 b.pool
  | .taker n i => ((b.takers[n]?).map fun t => BitVec.ofNat 32 (if i = 0 then t.warp else t.n)).getD 0
  | .idem => BitVec.ofNat 32 b.idem.toNat
  | .bar n => ((b.bars[n]?).map fun r => BitVec.ofNat 32 r.addr).getD 0
  | .gangBar n =>
    (((s.gangs.find? fun g => g.part = b.key.part && g.grid = b.key.grid && gangKey s b.key = some g.gang).bind fun g => g.bars[n]?).map
      fun r => BitVec.ofNat 32 r.gen).getD 0
  | .shape t i => ((b.tiles[t]?).map fun y => y.word i).getD 0
  | .chan ch i => ((b.chans[ch]?).map fun c => c.word i).getD 0
  | .ticket n i => ((b.ops[n]?).map fun o => o.ctxWord i).getD 0
  | .heldVa n h =>
    (((s.ms.queue.filter fun a => a.key = b.key && a.held.isSome)[n]?).map fun a => wordAt a.va h).getD 0
  | x => partyWord b x

/-- A block with a word of one of its parties replaced. -/
def putParty (b : Block) (x : Config.CtxWord) (v : Word) : Block :=
  let p (w : Who) (f : Party → Party) : Block := b.modParty w f
  let g (w : Who) (n : Nat) (f : Frag → Frag) : Block := b.modParty w fun p => p.modFrag n f
  match x with
  | .poisV w r h => p (.warp w) fun p =>
      if r < p.win then { p with poisV := vset p.poisV r (putAt (vget p.poisV r 0) h v) } else p
  | .poisS w i => p w fun p => { p with poisS := putAt p.poisS i v }
  | .pred w r h => p w fun p => if r = 0 then p else { p with p := vset p.p r (putAt (vget p.p r 0) h v) }
  | .exited w h => p w fun p => { p with exited := putAt p.exited h v &&& p.all }
  | .fmode w => p w fun p => { p with fmode := fmodeWrite v }
  | .limit w 0 => p w fun p => { p with limT := v }
  | .limit w 1 => p w fun p => { p with limE := v }
  | .limit w 2 => p w fun p => { p with limQ := v.setWidth 16 }
  | .limit w _ => p w fun p => { p with opt := v.toNat }
  | .fragLanes w n h => g w n fun f => { f with lanes := putAt f.lanes h v }
  | .fragPc w n h => g w n fun f => { f with pc := putPc f.pc h v }
  | .fragPend w n i => g w n fun f => { f with pend := f.pend.putWord i v }
  | .fragPrg w n i => g w n fun f => f.putPrg i v
  | .fragSeq w n => g w n fun f => f.putSeq v
  | .join w n i => p w fun p => { p with joins := lmod p.joins n fun r => r.putWord i v }
  | .ret w L n h => p w fun p => { p with rets := vset p.rets L (lmod (vget p.rets L []) n fun a => putPc a h v) }
  | .call w n i => p w fun p => { p with calls := lmod p.calls n fun r => r.putWord i v }
  | .trap w i => p w fun p => { p with trap := p.trap.map fun t => t.putWord i v }
  | .arrival w h => p w fun p => { p with arrive := p.arrive.map fun a => { a with lanes := putAt a.lanes h v } }
  | _ => b

/-- A warp's window set to n registers: the register blocks move between it and the block's pool, as R24 has it for every move; no
size of R23, or one for which the pool does not hold enough, changes nothing (log 106). -/
def putWindow (b : Block) (w n : Nat) : Block :=
  match b.warps[w]? with
  | some p =>
    if n % 8 = 0 && decide (16 ≤ n) && decide (n ≤ 64) && decide (n ≤ p.win + 8 * b.pool) then
      { b.modParty (.warp w) fun p => { zeroRegs p n p.win with win := n } with pool := b.pool + p.win / 8 - n / 8 }
    else b
  | none => b

/-- A waiting REGTAKE made one of another warp that waits, or of another count that its window can take (log 106). -/
def putTaker (b : Block) (n i v : Nat) : Block :=
  let may (t : Taker) : Bool := match b.warps[t.warp]? with
    | some p => decide (p.win + 8 * t.n ≤ 64) && p.frags.any fun f => f.wait = .regtake
    | none => false
  { b with takers := lmod b.takers n fun t =>
      let u := if i = 0 then { t with warp := v } else { t with n := v }
      if may u then u else t }

/-- A barrier tag moved to another word of the scratchpad, with those who wait there and their arrivals; a word with a tag of its own
takes none (log 106). -/
def putBar (b : Block) (n v : Nat) : Block :=
  match b.bars[n]? with
  | some r =>
    if v % 4 = 0 && decide (v + 4 ≤ b.scrSize) && !b.overlapsBar v 4 then
      let move (w : Wait) : Wait := match w with
        | .bar a g => if a = r.addr then .bar v g else w
        | .barHeld a g => if a = r.addr then .barHeld v g else w
        | w => w
      let party (p : Party) : Party := { p with arrive := p.arrive.map fun a => if a.bar = .blk r.addr then { a with bar := .blk v } else a }
      let b := b.mapFrags fun f => { f with wait := move f.wait }
      { b with bars := lmod b.bars n fun x => { x with addr := v }, warps := b.warps.map party, mcc := b.mcc.map party }
    else b
  | none => b

/-- A block with a word of its context replaced. The pool count follows from the windows (R24); a tag, a window or a waiting REGTAKE
keeps the forms that the machine around it knows (DESIGN CHOICE, log 106). -/
def putCtx (b : Block) (x : Config.CtxWord) (v : Word) : Block :=
  match x with
  | .storage e => writeElement b e v
  | .poisScr i => { b with scrPois := putMarks b.scrPois i v }
  | .poisTile t i => { b with tiles := lmod b.tiles t fun y => { y with pois := putMarks y.pois i v } }
  | .poisAcc a i => if b.held a then b.modAcc a fun y => { y with pois := putMarks y.pois i v } else b
  | .cslr => { b with cslr := cslrWrite v }
  | .window (.warp w) => putWindow b w v.toNat
  | .taker n i => putTaker b n i v.toNat
  | .bar n => putBar b n v.toNat
  | .idem => { b with idem := v.getLsbD 0 }
  | .shape t i => { b with tiles := lmod b.tiles t fun y => y.putWord i v }
  | .chan ch i => { b with chans := lmod b.chans ch fun c => c.putWord i v }
  | .ticket n i => { b with ops := lmod b.ops n fun o => o.putWord i v }
  | x => putParty b x v

/-- The machine with GEN of a gang barrier replaced, for those who wait there too. -/
def putGangBar (s : State) (k : Key) (n gen : Nat) : State :=
  { s with gangs := s.gangs.map fun g =>
      if g.part = k.part && g.grid = k.grid && gangKey s k = some g.gang then
        { g with bars := lmod g.bars n fun x =>
            { x with gen := gen % 256, waiters := x.waiters.map fun w => if w.gen = x.gen then { w with gen := gen % 256 } else w } }
      else g }

/-- The machine with a word of the address of the n-th held access of a block replaced; it is translated afresh (R278). -/
def putHeldVa (s : State) (k : Key) (n h : Nat) (v : Word) : State :=
  let is := (List.range s.ms.queue.length).filter fun i => (s.ms.queue[i]?).any fun a => a.key = k && a.held.isSome
  match is[n]? with
  | some i => s.modMs fun ms => { ms with queue := lmod ms.queue i fun a => { a with va := putAt a.va h v, pa := none } }
  | none => s

/-- A word of the context of a block replaced, wherever it lies (R329, R372). -/
def putWordOf (s : State) (k : Key) (x : Config.CtxWord) (v : Word) : State :=
  match x with
  | .gangBar n => putGangBar s k n v.toNat
  | .heldVa n h => putHeldVa s k n h v
  | x => s.modBlock k fun b => putCtx b x v

/-! ## The window (R372) -/

/-- May the debug window reach a block: is it saved, or frozen with the K-groups that were dispatched complete (R186)? -/
def windowOpen (s : State) (b : Block) : Bool := (frozenBlock s b && b.flights.isEmpty) || b.cluster?.isNone

/-- Does a partition's window give access: is a block of it frozen or saved? -/
def windowLive (s : State) (part : Nat) : Bool := s.blocks.any fun b => b.key.part = part && (frozenBlock s b || b.cluster?.isNone)

/-- The block a partition's window shows, while it may. -/
def windowBlock (s : State) (part : Nat) : Option Block :=
  let q := s.part part
  (s.block? { part := part, grid := q.winGrid.toNat, blk := q.winBlk.toNat }).filter (windowOpen s)

/-- A write through the debug window while it gives access: offset 0 selects a block; the rest is the context of the selected
block, in the arrangement of its layout (log 21). -/
def windowWrite (st : State) (part off : Nat) (val : DWord) : State :=
  if !windowLive st part then st
  else if off = 0 then
    st.modPart part fun q => { q with winGrid := val.setWidth 32, winBlk := (val >>> 32).setWidth 32 }
  else
    match windowBlock st part with
    | some b =>
      putWordOf (putWordOf st b.key (Config.windowElement off) (val.setWidth 32)) b.key (Config.windowElement (off + 4))
        ((val >>> 32).setWidth 32)
    | none => st

/-- A read of 8 bytes of the debug window: the selection, or the selected block's context; zero while it may not be seen. -/
def windowRead (s : State) (part off : Nat) : DWord :=
  match windowBlock s part with
  | some b =>
    if off = 0 then (s.part part).winBlk ++ (s.part part).winGrid
    else ctxRead s b (Config.windowElement (off + 4)) ++ ctxRead s b (Config.windowElement off)
  | none => 0

/-- DEBUG_WINDOW_WRITE (R372). -/
def execDebugWindowWrite (part off : Nat) (val : DWord) (st : State) : Host.Outcome State Fault Refusal :=
  .next (windowWrite st part off val)

end Sys2Proof.Machine
end

