-- ==== Sys2Proof/Machine/HostSide.lean ====
section
/-! DEFINITION. What host cores do through registers, and the device's answers: TLB invalidation (R287), the system-call
queue (R259, R375) and the Wisp mailbox (R258, R382). -/
namespace Sys2Proof.Machine
open Sys2Proof

/-! ## TLB invalidation (R287) -/

/-- GO of TLBICTL. -/
def Partition.tlbiGo (q : Partition) : Bool := q.tlbictl.getLsbD 31

/-- PART of an ASID's entry in the ASID table, whatever its V bit holds (R286). -/
def asidPart (s : State) (asid : Nat) : Nat :=
  bitsAt (leNat (memRead s.ms.mem (s.hub.asidt.toNat + 8 * asid) 8)) 60 4

/-- The host core whose writes to memory a request waits for: the one that wrote GO (R287); none for a lantern core. -/
def agentHart : HubAgent → Option Nat
  | .host h => some h
  | .lantern _ => none

/-- A write of TLBICTL with GO = 1 of one of the 16 partitions (R2): ignored while a request is under way; ERR is set, and nothing is
done, when the ASID belongs to another partition; otherwise the request waits for the writes of the host core that wrote GO. KIND 3
names no address space, so that its ASID field is not looked at (DESIGN CHOICE, log 52). -/
def tlbiRequest (s : State) (who : HubAgent) (part kind : Nat) (asid : BitVec 10) : State :=
  let q := s.part part
  if 16 ≤ part || q.tlbiGo then s
  else
    let err := q.tlbictl &&& 0x40000000
    let ctl := BitVec.ofNat 32 (kind * 1024 + asid.toNat) ||| err
    if kind != 3 && asidPart s asid.toNat != part then
      s.modPart part fun q => { q with tlbictl := ctl ||| 0x40000000 }
    else
      s.modPart part fun q =>
        { q with tlbictl := ctl ||| 0x80000000,
                 tlbiWait := (s.ms.hostw.filter fun v => !v.done && agentHart who = some v.hart).map fun v => v.id }

/-- TLBI_PAGE (R287, KIND 0). -/
def execTlbiPage (port : TlbiPort) (asid : BitVec 10) (st : State) : Host.Outcome State Fault Refusal :=
  .next (tlbiRequest st port.who port.part 0 asid)
/-- TLBI_REGION (R287, KIND 1). -/
def execTlbiRegion (port : TlbiPort) (asid : BitVec 10) (st : State) : Host.Outcome State Fault Refusal :=
  .next (tlbiRequest st port.who port.part 1 asid)
/-- TLBI_ASID (R287, KIND 2). -/
def execTlbiAsid (port : TlbiPort) (asid : BitVec 10) (st : State) : Host.Outcome State Fault Refusal :=
  .next (tlbiRequest st port.who port.part 2 asid)
/-- TLBI_PARTITION (R287, KIND 3). -/
def execTlbiPartition (port : TlbiPort) (asid : BitVec 10) (st : State) : Host.Outcome State Fault Refusal :=
  .next (tlbiRequest st port.who port.part 3 asid)

/-- Does a request cover an address space that a launch of partition p uses (R287)? KIND 3 covers every ASID of the partition: those
that its launches use and those that the ASID table gives it. -/
def tlbiAsidIn (s : State) (part kind asid p a : Nat) : Bool :=
  if kind = 3 then p = part || asidPart s a = part else a = asid

/-- Does a request of a kind cover a cached translation (R287)? A request of KIND 0 keeps a 512 MiB leaf, which is neither a 64 KiB page
nor a 2 MiB group (DESIGN CHOICE, log 52). -/
def tlbiCovers (s : State) (part kind asid va : Nat) (e : TlbEntry) : Bool :=
  tlbiAsidIn s part kind asid e.part e.asid &&
    match kind with
    | 0 => e.size != 2 ^ 29 && decide (e.base ≤ va) && decide (va < e.base + e.size)
    | 1 => e.base / 2 ^ 29 = va / 2 ^ 29
    | _ => true

/-- Does a request cover the address space of a block's launch? -/
def tlbiOf (s : State) (part kind asid : Nat) (k : Key) : Bool :=
  match s.launch? k.part k.grid with
  | some l => tlbiAsidIn s part kind asid k.part l.lr.asid
  | none => false

/-- A queued read that was translated at its issue is translated anew; whether the new tables refuse it. -/
def renewRead (s : State) (i : Nat) (a : Access) : State × Bool :=
  match s.launch? a.key.part a.key.grid with
  | none => (s, false)
  | some l =>
    let va := if a.space = .const then (l.lr.caddr + a.va.toNat) % 2 ^ 64 else a.va.toNat
    let h := ((s.block? a.key).bind Block.cluster?).getD 260
    match translate s h a.key.part l.lr.asid va a.kind.rw.1 a.kind.rw.2 false with
    | (s, .ok pa) => (s.modMs fun ms => { ms with queue := lmod ms.queue i fun a => { a with pa := some pa } }, false)
    | (s, .error _) => (s, true)

/-- Every queued read of the covered launches, at which its fragment does not wait, is translated anew; whether the new tables refuse
one. -/
def renewReads (s : State) (cov : Key → Bool) : State × Bool :=
  (List.range s.ms.queue.length).foldl (fun x i =>
    match s.ms.queue[i]? with
    | some a =>
      if cov a.key && a.pa.isSome && a.kind.rw.1 && !a.kind.waits then
        (let y := renewRead x.1 i a
         (y.1, x.2 || y.2))
      else x
    | none => x) (s, false)

/-- The rows of copies under way are translated anew (R207, R287); whether the new tables refuse one, which then ends first. -/
def renewRows (s : State) (cov : Key → Bool) : State × Bool :=
  (s.blocks.flatMap fun b => b.ops.filter fun o => o.word != 0 && cov b.key).foldl (fun x o =>
    match opCtx x.1 (opHome x.1 o.id) o with
    | none => x
    | some c =>
      match wordPlaces c (o.f != 1) (o.f == 1) (cpaRB o.words / 4) (cpaGlobal o.words o.elem) x.1 [] with
      | (s, .ok pas) => (s.modOp o.id fun y => { y with pas := pas }, x.2)
      | (s, .error _) => (s, true)) (s, false)

/-- Every other waiting access of the covered launches is translated again when it performs, and every waiter of a word reads again:
after the invalidation only the new translation is used. -/
def retranslate (ms : MemSys) (cov : Key → Bool) : MemSys :=
  let red (r : RedEntry) : RedEntry := if cov r.key then { r with pa := none } else r
  { ms with queue := ms.queue.map fun a => if cov a.key && (!a.kind.rw.1 || a.kind.waits) then { a with pa := none } else a,
            pool := ms.pool.map red, redm := ms.redm.map red,
            monitors := ms.monitors.map fun m => if m.waiters.any fun f => cov f.key then { m with woken := m.waiters } else m }

/-- TLBI_COMPLETE (R287): the writer's earlier writes are imported, the covered translations are gone, and GO reads 0. A load or atomic
that issued under the old tables and that the new ones refuse performs first: its faults are precise (R139, R317), so that none may be
found after its issue (DEDUCED, log 52). -/
def execTlbiComplete (part : Nat) (st : State) : Host.Outcome State Fault Refusal :=
  .next (
    let q := st.part part
    let coming := q.tlbiWait.any fun id => st.ms.hostw.any fun v => v.id = id && !v.done
    if !q.tlbiGo || coming then st
    else
      let kind := bitsAt q.tlbictl.toNat 10 2
      let asid := bitsAt q.tlbictl.toNat 0 10
      let cov := tlbiOf st part kind asid
      let s := st.modMs fun ms => { ms with tlb := ms.tlb.filter fun e => !tlbiCovers st part kind asid q.tlbiva.toNat e }
      let (s, old) := renewReads s cov
      match renewRows s cov, old with
      | (_, true), _ => st
      | _, true => st
      | (s, false), false =>
        (s.modMs fun ms => retranslate ms cov).modPart part fun q =>
          { q with tlbictl := q.tlbictl &&& 0x7FFFFFFF, tlbiWait := [] })

/-! ## The system-call queue (R259, R375) -/

/-- The 64 bytes of an entry. -/
def callBytes (seq : Word) (c : Call) (thread : BitVec 16) : List Byte :=
  wordBytes seq ++ leBytes 2 c.svc ++ leBytes 2 0 ++ c.args.flatMap wordBytes ++ leBytes 4 c.f.key.grid ++
    leBytes 4 c.f.key.blk ++ leBytes 2 thread.toNat ++ leBytes 6 0 ++ leBytes 8 c.pc.toNat

/-- May a call be written: it has no number, its release is done, and its block is not saved (R259)? -/
def callReady (s : State) (c : Call) : Bool :=
  c.seq.isNone && released s c.f.key c.f.who (laneBit c.f.lane) && (ctxOf s c.f).isSome

/-- Number the first call that may be written. -/
def giveSeq (s : State) (seq : Word) : List Call → List Call
  | [] => []
  | c :: r => if callReady s c then { c with seq := some seq } :: r else c :: giveSeq s seq r

/-- The first call that may be written. -/
def waitingCall (s : State) (part : Nat) : Option Call := (s.part part).calls.find? (callReady s)

/-- SYSC_ENTRY_WRITE (R375): the entry is written when the ring is enabled and not full, and TAIL advances behind it. -/
def execSyscEntryWrite (part : Nat) (st : State) : Host.Outcome State Fault Refusal :=
  .next (
    let q := st.part part
    match waitingCall st part with
    | none => st
    | some c =>
      match ctxOf st c.f with
      | none => st
      | some x =>
        let n := bitsAt q.scctl.toNat 0 12 + 1
        let head := q.scpos.toNat / 65536
        let tail := q.scpos.toNat % 65536
        let nx := (tail + 1) % n
        if !q.scctl.getLsbD 31 || nx = head % n then st
        else
          let s := st.modMs fun ms =>
            sysWrite ms (q.scbase.toNat + 64 * tail) (callBytes q.nextCall c (threadOf x.l.lr.width x.who x.f.lanes))
          let s := s.modPart part fun p =>
            { p with scpos := BitVec.ofNat 32 (head * 65536 + nx), nextCall := p.nextCall + 1,
                     calls := giveSeq st q.nextCall p.calls }
          x.setFrag s fun f => { f with wait := .sysc q.nextCall })

/-- The call an answer names: written and not yet replied. -/
def openCall (s : State) (part : Nat) (seq : Word) : Option Call :=
  (s.part part).calls.find? fun c => c.seq = some seq && c.reply.isNone

/-- Change the call of a number. -/
def modCall (s : State) (part : Nat) (seq : Word) (f : Call → Call) : State :=
  s.modPart part fun q => { q with calls := q.calls.map fun c => if c.seq = some seq then f c else c }

/-- SCACT with ACT 0 (R375): the reply words, as SCRPLY0–3 hold them, go to the waiting fragment. -/
def replyCall (s : State) (part : Nat) (seq : Word) : State :=
  match openCall s part seq with
  | some c =>
    let ws := (s.part part).scrply
    deliverReply (modCall s part seq fun c => { c with reply := some ws }) part { c with reply := some ws }
  | none => s

/-- SCACT with ACT 1 (R375): the wait counts as I/O. -/
def markCall (s : State) (part : Nat) (seq : Word) : State :=
  if (openCall s part seq).isSome then modCall s part seq fun c => { c with io := true } else s

/-- SCACT with ACT 2 (R375): the launch ends as FRESUME with ACT 1 ends it. -/
def endCall (s : State) (part : Nat) (seq : Word) : State :=
  match openCall s part seq with
  | some c => endLaunch s part c.f.key.grid
  | none => s

/-- SCACT_REPLY (R375). -/
def execScactReply (part : Nat) (seq : Word) (st : State) : Host.Outcome State Fault Refusal := .next (replyCall st part seq)
/-- SCACT_MARK_IO (R375). -/
def execScactMarkIo (part : Nat) (seq : Word) (st : State) : Host.Outcome State Fault Refusal := .next (markCall st part seq)
/-- SCACT_END_LAUNCH (R375). -/
def execScactEndLaunch (part : Nat) (seq : Word) (st : State) : Host.Outcome State Fault Refusal := .next (endCall st part seq)

/-! ## The mailbox (R258, R382) -/

/-- MAILBOX_RECORD_WRITE (R258): the oldest arrived record takes the next slot when one is free; its fragment goes on. -/
def execMailboxRecordWrite (part : Nat) (st : State) : Host.Outcome State Fault Refusal :=
  .next (
    let q := st.part part
    let head := q.mbpos.toNat / 65536
    let tail := q.mbpos.toNat % 65536
    match q.mbWait with
    | [] => st
    | r :: rest =>
      if 64 ≤ (tail + 65536 - head) % 65536 then st
      else
        match ctxOf st r with
        | none => st
        | some c =>
          (match c.f.wait with
           | .mbox data =>
             let slot : Slot :=
               { data := data, grid := BitVec.ofNat 32 c.key.grid, blk := BitVec.ofNat 32 c.key.blk,
                 thread := threadOf c.l.lr.width c.who c.f.lanes, dtime := BitVec.ofNat 64 st.dtime }
             let s := st.modPart part fun p =>
               { p with slots := lmod p.slots (tail % 64) (fun _ => slot), mbWait := rest,
                        mbpos := BitVec.ofNat 32 (head * 65536 + (tail + 1) % 65536) }
             c.passOn s
           | _ => st))

/-- A host write of MBPOS (R382): HEAD moves over records that are there, else ERR is set. -/
def mailboxHead (s : State) (part : Nat) (h : Nat) : State :=
  s.modPart part fun q =>
    let head := q.mbpos.toNat / 65536
    let tail := q.mbpos.toNat % 65536
    if (h + 65536 - head) % 65536 ≤ (tail + 65536 - head) % 65536 then { q with mbpos := BitVec.ofNat 32 (h * 65536 + tail) }
    else { q with mbctl := q.mbctl ||| 0x40000000 }

/-- MAILBOX_HEAD_WRITE (R382). -/
def execMailboxHeadWrite (part : Nat) (head : BitVec 16) (st : State) : Host.Outcome State Fault Refusal :=
  .next (mailboxHead st part head.toNat)

end Sys2Proof.Machine
end

