-- ==== Sys2Proof/Machine/Placement.lean ====
section
/-! DEFINITION. Placement: the demands of a block (R28), the slots of its warps (R309), a block at its start (R10–R36),
task queues and their balancing (R306), gangs (R304), the start of a bundle's parts (R300). -/
namespace Sys2Proof.Machine
open Sys2Proof

/-! ## Demands and capacity (R14, R28) -/

/-- Bytes of lane registers a block demands. -/
def LaunchRec.regBytes (r : LaunchRec) : Nat := 4 * r.width * 8 * (r.nwarps * (r.win / 8) + r.pool)
/-- Warp slots of a cluster at a width (R14). -/
def slotCap (w : Nat) : Nat := if w = 64 then 32 else if w = 32 then 64 else 128
/-- The sum of a demand over blocks. -/
def demand (l : List LaunchRec) (f : LaunchRec → Nat) : Nat := l.foldl (fun n r => n + f r) 0

/-- Do blocks fit one cluster together (R28)? -/
def fitTogether (l : List LaunchRec) : Bool :=
  let mccs := demand l fun r => r.hasMcc.toNat
  let warps := demand l LaunchRec.nwarps
  decide (demand l LaunchRec.regBytes ≤ 524288) && decide (warps ≤ if mccs = 0 then 64 else 63) &&
    (match l with
     | r :: _ => (l.all fun x => x.width == r.width) && decide (warps ≤ slotCap r.width)
     | [] => true) &&
    decide (demand l (fun r => r.scratch) ≤ 524288) && decide (demand l (fun r => r.acc) ≤ 128) && decide (mccs ≤ 1)

/-- The launch records of the blocks for which a test holds. -/
def recordsOf (s : State) (f : Block → Bool) : List LaunchRec :=
  (s.blocks.filter f).filterMap fun b => (s.launch? b.key.part b.key.grid).map fun l => l.lr

/-- Does a cluster have the free capacity for a block? -/
def fits (s : State) (cl : Nat) (r : LaunchRec) : Bool := fitTogether (r :: recordsOf s fun b => b.place = .resident cl)

/-- The clusters of a partition on a die, ascending (R374). -/
def clustersOn (s : State) (part die : Nat) : List Nat :=
  ((List.range 64).filter fun i => ((s.part part).pclus.getD die 0).getLsbD i).map fun i => die * 64 + i

/-! ## Slots (R309) -/

/-- The warps that hold a slot of a cluster. -/
def slotted (s : State) (cl : Nat) : List Party :=
  (s.blocks.filter fun b => b.place = .resident cl).flatMap fun b => b.warps.filter fun p => p.ws != .free

/-- Warps a pipe (a pair at width 64) holds. -/
def pipeLoad (l : List Party) (pipe : Nat) : Nat := (l.filter fun p => p.pipe = pipe).length

/-- The pipes (at width 64 the first pipes of the pairs) with a free slot. -/
def openPipes (l : List Party) (width : Nat) : List Nat :=
  (if width = 64 then [0, 2] else [0, 1, 2, 3]).filter fun p => decide (pipeLoad l p < if width = 16 then 32 else 16)

/-- The pipe a warp takes: the fewest resident warps, then the lowest number. -/
def choosePipe (l : List Party) (width : Nat) : Nat :=
  ((openPipes l width).foldl (fun best p =>
    match best with
    | none => some p
    | some q => if pipeLoad l p < pipeLoad l q then some p else some q) none).getD 0

/-- Is a place of a pipe taken? -/
def placeTaken (l : List Party) (pipe slot half : Nat) : Bool := l.any fun p => p.pipe = pipe && p.slot = slot && p.half = half

/-- The lowest free slot of a pipe, and at width 16 its lower free half. -/
def chooseSlot (l : List Party) (width pipe : Nat) : Nat × Nat :=
  ((List.range 16).findSome? fun i =>
    if !placeTaken l pipe i 0 then some (i, 0)
    else if width = 16 && !placeTaken l pipe i 1 then some (i, 1) else none).getD (0, 0)

/-- Seat a warp: its slot, and the active set when there is room. -/
def seat (l : List Party) (width : Nat) (p : Party) : Party :=
  let pipe := choosePipe l width
  let (slot, half) := chooseSlot l width pipe
  let room := decide ((l.filter fun x => x.pipe = pipe && x.ws = .active).length < 8)
  { p with pipe := pipe, slot := slot, half := half, ws := if room then .active else .pending, issues := 0, since := 0 }

/-- Seat the warps of a block in ascending WARPID; a warp that is FREE takes no slot. -/
def seatAll (width : Nat) (taken : List Party) : List Party → List Party
  | [] => []
  | p :: r =>
    if p.ws = .free then p :: seatAll width taken r
    else
      let q := seat taken width p
      q :: seatAll width (taken ++ [q]) r

/-! ## A block at its start -/

/-- A party at its start (R16, R21, R32, R37, R231; log 1). It has gone longest without issuing (R310; DESIGN CHOICE, log 120). -/
def Party.start (pc win : Nat) (lanes : Lanes) : Party :=
  { v := Vector.replicate 64 (Vector.replicate 64 0), s := Vector.replicate 128 0, p := Vector.replicate 4 0,
    poisV := Vector.replicate 64 0, poisS := 0, win := win, exited := 0, all := lanes,
    frags := [{ lanes := lanes, pc := BitVec.ofNat 55 pc, pend := RegSet.none, out := RegSet.none, prg := 0, prgpc := 0,
                prgx := 0, wait := .run, handler := false }],
    joins := [], rets := Vector.replicate 64 [], fmode := 0, limT := 0xFFFFFFFF, limE := 0xFFFFFFFF, limQ := 0xFFFF,
    opt := 0, calls := [], reserved := [], callIds := Vector.replicate 64 [], trap := none, arrive := none, obs := [],
    ws := .active, pipe := 4, slot := 0, half := 0, lastIssue := 0, issues := 0, since := 0 }

/-- The twelve channels of a block at its start (R198, R209). -/
def chansStart : List Chan :=
  (List.range 12).map fun ch => { isq := 0, csq := 0, latch := none, wpT := ticketOf ch 0, wpB := 0 }

/-- A block as it is placed on a cluster: one fragment a warp at the fetch block behind the header, the MCC at its entry,
scratchpad and tiles clear (R43, R171, R288). -/
def newBlock (l : Launch) (k : Key) (cl : Nat) (taken : List Party) : Block :=
  let r := l.lr
  { key := k, place := .resident cl, started := l.started,
    warps := seatAll r.width taken
      ((List.range r.nwarps).map fun _ => Party.start (r.kaddr + 64) r.win (widthMask r.width)),
    mcc := if r.hasMcc then some (Party.start (r.kaddr + 64 * r.mccOff) 64 1) else none,
    mccEnded := false, cslr := r.cslr, cslrNew := none, cslrBy := (0, 0), yr := false, ly := false, deadline := none, dest := 0,
    pool := r.pool, takers := [], scr := [], scrSize := r.scratch, scrPois := [], bars := [], waves := [],
    tiles := if r.hasMcc then List.replicate 8 Tile.start else [], accs := [], flights := [], mmac := [],
    chans := chansStart, ops := [], clvs := [], idem := r.flags.getLsbD 0, issues := 0, savedAt := 0, halted := false,
    bySwap := false, answers := [] }

/-- Place a block on a cluster: the resident set changes, so the meter is apportioned first (R349). -/
def placeBlock (s : State) (l : Launch) (k : Key) (cl : Nat) : State :=
  let s := apportion s cl
  { s with blocks := s.blocks ++ [newBlock l k cl (slotted s cl)] }

/-! ## The start of a bundle's parts (R300) -/

/-- Queue the copy sub-launches of a bundle on the channels of its block 0, in order, while a place is free. -/
def queueCopies (s : State) (p g : Nat) : List (List Word × Nat) → State
  | [] => s.modLaunch p g fun l => { l with copies := [] }
  | (w, f) :: r =>
    let k : Key := { part := p, grid := g, blk := 0 }
    match (s.block? k).bind Block.cluster?, s.launch? p g with
    | some cl, some l =>
      if 16 ≤ chanLoad s cl (cpaCh w) then s.modLaunch p g fun l => { l with copies := (w, f) :: r }
      else
        let id := s.ms.serial
        let s := (queueOp s cl k (.warp 0) (laneBit 0) (BitVec.ofNat 55 (l.lr.kaddr + 64)) (cpaCh w) f w 0).1
        queueCopies (s.modOp id fun o => { o with bundle := true }) p g r
    | _, _ => s.modLaunch p g fun l => { l with copies := (w, f) :: r }

/-- The parts of a bundle start: its placed blocks issue, its copies are queued. -/
def startBundle (s : State) (p g : Nat) : State :=
  match s.launch? p g with
  | some l =>
    let s := s.modLaunch p g fun l => { l with started := true }
    let s := { s with blocks := s.blocks.map fun b => if b.key.part = p && b.key.grid = g then { b with started := true } else b }
    queueCopies s p g l.copies
  | none => s

/-- Does a cluster's task queue keep a block of a launch's first placement round (R306) that the cluster could hold beside those of
the launch that it holds or that stand before it? One for which they leave no room is placed when they end. -/
def taskWaits (s : State) (l : Launch) (cl : Nat) : Bool :=
  let here := (s.blocks.filter fun b => b.key.part = l.part && b.key.grid = l.grid && b.place = .resident cl).length
  let mine := (s.cluster cl).tasks.filter fun k => k.part = l.part && k.grid = l.grid
  (List.range mine.length).any fun j =>
    (mine[j]?).any (fun k => decide (k.blk < l.first)) && fitTogether (List.replicate (here + j + 1) l.lr)

/-- Does a block of the first placement round still wait to be placed: in a task queue (log 60), or as a gang to be placed again? -/
def firstWaits (s : State) (l : Launch) : Bool :=
  l.again.any (fun b => decide (b < l.first)) || s.clusters.any fun e => taskWaits s l e.1

/-- BUNDLE_START (R300): the run of rounds that makes the first placement round is over, and every block of it is placed, but for
those that wait for blocks of the bundle itself to end (log 60). -/
def execBundleStart (part grid : Nat) (st : State) : Host.Outcome State Fault Refusal :=
  .next (match st.launch? part grid with
    | some l =>
      if !l.started && !l.inRun && decide (0 < l.next) && l.stage = 0 && !firstWaits st l then startBundle st part grid else st
    | none => st)

/-! ## Gangs (R304) -/

/-- The blocks of a placement unit that begins at a block. -/
def unitBlocks (l : Launch) (first : Nat) : List Nat :=
  (List.range (if l.lr.gangsz = 0 then 1 else l.lr.gangSize first)).map fun i => first + i

/-- The clusters a gang of n blocks takes: on the die with the most fitting clusters, the lowest die on equal counts, its
lowest fitting clusters. -/
def gangClusters (s : State) (part n : Nat) (r : LaunchRec) : Option (List Nat) :=
  let free (d : Nat) : List Nat := (clustersOn s part d).filter fun c => fits s c r
  let best := (List.range 4).foldl (fun (b : Option (List Nat)) d =>
    let f := free d
    if f.length < n then b
    else match b with
      | none => some f
      | some g => if g.length < f.length then some f else some g) none
  best.map fun f => f.take n

/-- Place a gang all at once, or not at all. -/
def placeGang (s : State) (l : Launch) (first : Nat) : Option State :=
  let bs := unitBlocks l first
  (gangClusters s l.part bs.length l.lr).map fun cs =>
    (bs.zip cs).foldl (fun s e => placeBlock s l { part := l.part, grid := l.grid, blk := e.1 } e.2) s

/-! ## Task queues (R306) -/

/-- The cluster of a partition whose task queue has the fewest entries, the lowest number on equal counts, among those whose
whole capacity could hold the block. -/
def fewestTasks (s : State) (part : Nat) (r : LaunchRec) : Option Nat :=
  if !fitTogether [r] then none
  else
    (((List.range 4).flatMap fun d => clustersOn s part d).foldl (fun best c =>
      match best with
      | none => some (c, (s.cluster c).tasks.length)
      | some (b, n) => if (s.cluster c).tasks.length < n then some (c, (s.cluster c).tasks.length) else some (b, n))
      (none : Option (Nat × Nat))).map fun e => e.1

/-- Give a block to a task queue. -/
def giveTask (s : State) (l : Launch) (blk : Nat) : Option State :=
  (fewestTasks s l.part l.lr).map fun c =>
    s.modCluster c fun x => { x with tasks := x.tasks ++ [{ part := l.part, grid := l.grid, blk := blk }] }

/-- Does PRETGT name a launch (R396)? -/
def targeted (s : State) (p g : Nat) : Bool :=
  (s.part p).pretgt == 0xFFFFFFFF || ((s.part p).pretgt.toNat = g && (s.part p).pretgt != 0)

/-- Is a launch held from placement: PRETGT names it, or with PHSW its context does not run or has expired (R314, R396)? -/
def placeHeld (s : State) (l : Launch) : Bool :=
  let q := s.part l.part
  targeted s l.part l.grid || (phsw s l.part && (phaseOf s l != q.phase || q.expired.isSome))

/-- The head entry of a task queue, when its launch may be placed: a head that may not holds back the entries behind it (R306). -/
def taskHead (s : State) (cl : Nat) : Option (Key × Launch) :=
  match (s.cluster cl).tasks with
  | k :: _ => (s.launch? k.part k.grid).bind fun l => if placeHeld s l then none else some (k, l)
  | [] => none

/-- TASK_QUEUE_PLACEMENT (R306): the head entry is placed when the cluster has the free capacity. -/
def execTaskQueuePlacement (cluster : Nat) (st : State) : Host.Outcome State Fault Refusal :=
  .next (match taskHead st cluster with
    | some (k, l) =>
      if fits st cluster l.lr then
        let s := st.modCluster cluster fun c => { c with tasks := c.tasks.filter fun x => x != k }
        let s := placeBlock s l k cluster
        if l.started && k.blk = 0 then queueCopies s l.part l.grid l.copies else s
      else st
    | none => st)

/-! ## Balancing (R306) -/

/-- What a cluster of the ring gives its neighbours below and above, from the depths at the start of the exchange. -/
def balanceGives (depth : Nat → Nat) (thr i : Nat) : Bool × Bool :=
  let lo := (i + 63) % 64
  let hi := (i + 1) % 64
  (decide (depth lo + thr < depth i), decide (depth hi + thr < depth i))

/-- BALTHR of the partition a cluster belongs to; 0 disables balancing. -/
def balThr (s : State) (cl : Nat) : Nat := bitsAt (s.part ((s.ownerOf cl).getD 0)).schedctl.toNat 8 8

/-- One balancing exchange of a die. Neighbours of different partitions do not exchange. -/
def balance (s : State) (die : Nat) : State :=
  let at_ (i : Nat) : Nat := die * 64 + i
  let q (i : Nat) : List Key := (s.cluster (at_ i)).tasks
  let depth (i : Nat) : Nat := (q i).length
  let same (i j : Nat) : Bool := s.ownerOf (at_ i) == s.ownerOf (at_ j) && balThr s (at_ i) != 0
  let gives (i : Nat) : Bool × Bool :=
    let g := balanceGives depth (balThr s (at_ i)) i
    (g.1 && same i ((i + 63) % 64), g.2 && same i ((i + 1) % 64))
  let tail (i n : Nat) : List Key := ((q i).reverse.drop n).take 1
  let down (i : Nat) : List Key := if (gives i).1 then tail i 0 else []
  let up (i : Nat) : List Key := if (gives i).2 then tail i ((gives i).1.toNat) else []
  let out (i : Nat) : Nat := (gives i).1.toNat + (gives i).2.toNat
  let new (i : Nat) : List Key :=
    (q i).take (depth i - out i) ++ up ((i + 63) % 64) ++ down ((i + 1) % 64)
  ((List.range 64).filter fun i => new i != q i).foldl (fun t i => t.modCluster (at_ i) fun c => { c with tasks := new i }) s

/-- BALANCING_EXCHANGE (R306): every 256 fabric cycles. -/
def execBalancingExchange (die : Nat) (st : State) : Host.Outcome State Fault Refusal :=
  .next (
    if st.fcyc % 256 = 0 && decide (die < 4) && tabGet 0 st.exch die != st.fcyc then
      { balance st die with exch := tabSet st.exch die st.fcyc }
    else st)

end Sys2Proof.Machine
end

