-- ==== Sys2Proof/Machine/Save.lean ====
section
/-! DEFINITION. Saving and restoring blocks (R105, R204, R278, R308, R326–R332, R396). -/
namespace Sys2Proof.Machine
open Sys2Proof

/-! ## Yielding (R105) -/

/-- Is a fragment parked at an acting YIELD, parked by a fault, or blocked in a wait of R17? -/
def Wait.yields : Wait → Bool
  | .yielded => true
  | .join _ => true
  | .bar _ _ => true
  | .barHeld _ _ => true
  | .gbar _ _ => true
  | .gbarHeld _ _ => true
  | .wave => true
  | .regtake => true
  | .tkw _ => true
  | .chan _ => true
  | .selection _ => true
  | .tile _ => true
  | .drain _ => true
  | .mbox _ => true
  | .sysc _ => true
  | .syscFull => true
  | .condRead _ => true
  | .monitor _ => true
  | .poll _ _ => true
  | .parked _ => true
  | _ => false

/-- Has a block yielded: every lane that has not exited is parked or blocked, its MCC too, and every exiting warp is
FREE? -/
def Block.yielded (b : Block) : Bool :=
  (b.warps.all fun p => p.ws = .free || (p.ws != .draining && p.frags.all fun f => f.wait.yields)) &&
    (match b.mcc with
     | some p => b.mccEnded || p.frags.all fun f => f.wait.yields
     | none => true)

/-! ## Halting (R328, R359) -/

/-- Halt a block: nothing of it issues, its waiting charges leave the FIFO, and each macro stops at its element. -/
def haltBlock (s : State) (k : Key) : State :=
  let s := leaveCluster s k false false
  let s := s.mapClusters fun c =>
    { c with charges := c.charges.filter fun x => !(chargerOf s k x.who && (match x.who with
        | .chan _ _ => true
        | _ => false)) }
  s.modBlock k fun b => { b.mapFrags stopFrag with halted := true }

/-- The accesses that stay queued: those held for fault service, and those that wait behind one (R143, R278). -/
def stuckAccesses (s : State) (q : List Access) : List Access :=
  q.foldl (fun st a =>
    if a.held.isSome || heldBefore s a.key a.who a.lanes a.stream a.serial || st.any (fun b => mustFollow b a) then st ++ [a]
    else st) []

/-- Does a RED of a pool stay there: it is held, or waits for another (R143, R151)? R278 has every pool entry merged before a save, where
no exception is named; R143 and R319 save a thread with a held RED as parked, and such a RED is saved with it (DESIGN CHOICE, log 119). -/
def stuckRed (s : State) (r : RedEntry) : Bool :=
  r.held.isSome || heldBefore s r.key r.who (laneBit r.lane) r.stream r.serial || laneBefore s r

/-- Does a REDM stay on its way: it is held, or stands behind a held one of its lane (R143)? -/
def stuckRedm (s : State) (r : RedEntry) : Bool :=
  s.ms.redm.any fun x => x.held.isSome && x.key = r.key && x.who = r.who && x.lane = r.lane && decide (x.serial ≤ r.serial)

/-- Is a path's write still on its way to a block's scratchpad? -/
def scrComing (s : State) (k : Key) : Bool :=
  s.ms.paths.any fun w => match w.loc with
    | .scr j _ => j = k
    | .hbm _ => false

/-- Has a halted block come to rest (R186, R204, R278, R328)? A copy held at a tile rests (R204, R208); so that the save is
whole, path writes to the block's scratchpad are waited for, and every REDM until it is applied or held, of which R278 and R204
say nothing (DESIGN CHOICE, log 103). -/
def quiet (s : State) (b : Block) : Bool :=
  let mine := s.ms.queue.filter fun a => a.key = b.key
  (stuckAccesses s mine).length == mine.length && (s.ms.pool.all fun r => r.key != b.key || stuckRed s r) &&
    (s.ms.redm.all fun r => r.key != b.key || stuckRedm s r) && !scrComing s b.key &&
    b.flights.isEmpty && (b.ops.all fun o => 8 ≤ o.ch || !o.charged || o.waiting) &&
    (List.range b.warps.length).all fun n => match b.warps[n]? with
      | some p => p.ws != .draining || acknowledged s b.key (.warp n)
      | none => true

/-! ## Where a save goes (R330, R332) -/

/-- CB of R332. -/
def contextBytes (r : LaunchRec) (b : Block) : Nat :=
  r.regBytes + 512 * (r.nwarps + r.hasMcc.toNat) + r.scratch + (if r.hasMcc then 131072 else 0) + 16384 * b.accs.length + 98304

/-- The least an image of R332 can hold: its header, and the scratchpad, tiles and held accumulators with a poison bit for
each 32 bits. -/
def imageLeast (r : LaunchRec) (b : Block) : Nat :=
  64 + 33 * (r.scratch + (if r.hasMcc then 131072 else 0) + 16384 * b.accs.length) / 32

/-- SIZE of the image of a block, by the save it belongs to: between what it must hold and the bound of R332 (log 21). -/
def imageBytes (r : LaunchRec) (b : Block) (n : Nat) : Nat :=
  imageLeast r b + Config.imageSize n % (33 * contextBytes r b / 32 + 2049 - imageLeast r b)

/-- The images of a partition: address and size. -/
def images (s : State) (part : Nat) : List (Nat × Nat) :=
  s.blocks.filterMap fun b => match b.place with
    | .image a n => if b.key.part = part then some (a, n) else none
    | _ => none

/-- Whole 64 KiB units. -/
def units64 (n : Nat) : Nat := (n + 65535) / 65536 * 65536

/-- The lowest free place of the save area for an image. -/
def imagePlace (s : State) (part n : Nat) : Option Nat :=
  let q := s.part part
  let base := bitsAt q.savebase.toNat 16 32 * 65536
  let top := base + q.savesz.toNat * 1048576
  let free (a : Nat) : Bool :=
    decide (a + units64 n ≤ top) && (images s part).all fun e => decide (a + units64 n ≤ e.1) || decide (e.1 + units64 e.2 ≤ a)
  -- an image fits at the base or right behind another image, or not at all
  ((base :: (images s part).map fun e => e.1 + units64 e.2).filter free).foldl (fun best a =>
    match best with
    | none => some a
    | some b => some (min a b)) none

/-- Does a block fit a cluster's shadow store beside what is there (R330)? -/
def shadowFits (s : State) (cl : Nat) (r : LaunchRec) : Bool := fitTogether (r :: recordsOf s fun b => b.place = .shadow cl)

/-- The bytes of an image: the header of R332 and sections whose bytes the layout's release defines (log 21). -/
def imageContents (s : State) (r : LaunchRec) (b : Block) (at_ size : Nat) : List Byte :=
  let code := if r.width = 16 then 0 else if r.width = 32 then 1 else 2
  leBytes 4 0x0009A9C5 ++ leBytes 2 (s.hub.layouts.headD 1) ++
    leBytes 2 (r.hasMcc.toNat + code * 2 + r.c16.toNat * 8 + b.idem.toNat * 16) ++ leBytes 4 size ++ leBytes 4 b.key.grid ++
    leBytes 4 b.key.blk ++ leBytes 4 r.asid ++ leBytes 8 s.dtime ++ leBytes 32 0 ++
    (List.range (size - 64)).map fun i => Config.imageByte at_ (64 + i)

/-- The place a save takes: the shadow store of the cluster when DEST allows it and it fits, else the save area. `cl` is
none for a block that lies in a shadow store already. -/
def savePlace (s : State) (b : Block) (r : LaunchRec) (cl : Option Nat) (dest : Nat) : Option Place :=
  match cl with
  | some c =>
    if dest != 1 && shadowFits s c r then some (.shadow c)
    else
      let n := imageBytes r b s.fresh
      (imagePlace s b.key.part n).map fun a => .image a n
  | none =>
    let n := imageBytes r b s.fresh
    (imagePlace s b.key.part n).map fun a => .image a n

/-! ## The save (R239, R329) -/

/-- A call record at a save: its accumulators take what was spent (R239). -/
def saveCall (cl : Cluster) (r : CallRec) : CallRec := { r with tacc := (spentT cl r).toNat, eacc := (spentE cl r).toNat }

/-- A table read under way behind a held access (R239, R278): at a save its baselines turn into what has been spent since
them, at a restore what was spent turns into baselines from which it is counted on. -/
def TableWait.moved (cl : Cluster) (t : TableWait) : TableWait :=
  { t with cyc0 := cl.cycles - t.cyc0, em0 := cl.em - t.em0, is0 := cl.is - t.is0 }

/-- A fragment whose table read is under way with its meters changed. -/
def Frag.mapTable (g : TableWait → TableWait) (f : Frag) : Frag :=
  match f.wait with
  | .table t => { f with wait := .table (g t) }
  | _ => f

/-- A fragment as it is recorded: results that have returned are no longer outstanding, a switch marker whose results are
in is passed (R60, R328). -/
def saveFrag (s : State) (k : Key) (who : Who) (f : Frag) : Frag :=
  let left := (s.ms.queue.filter fun a => a.key = k && a.who = who && (a.lanes &&& f.lanes) != 0).foldl
    (fun u a => u.or (accessWrites a)) RegSet.none
  let f := { stopFrag f with out := left }
  if f.wait = .switch && left.isNone then { f with wait := .run, pend := RegSet.none } else f

/-- A party as it is recorded. A draining warp is FREE (R15). -/
def saveParty (s : State) (cl : Cluster) (k : Key) (who : Who) (p : Party) : Party :=
  if p.ws = .draining then { p with ws := .free, frags := [] }
  else if p.ws = .free then p
  else { p with calls := p.calls.map (saveCall cl), frags := p.frags.map fun f => (saveFrag s k who f).mapTable (TableWait.moved cl), ws := .saved, since := 0 }

/-- The energy baselines of a party's records and table reads, `e` later: energy that no record is charged (R239). -/
def Party.laterEnergy (e : DWord) (p : Party) : Party :=
  { p with calls := p.calls.map fun r => { r with em0 := r.em0 + e },
           frags := p.frags.map (Frag.mapTable fun t => { t with em0 := t.em0 + e }) }

/-- The energy of a save or a restore goes to the launch of the context (R349) and to no record, the other resident blocks'
among them (R239); how much it takes the spec does not say: a free value (log 102). -/
def moveEnergy (s : State) (k : Key) (cl : Nat) : State :=
  let (s, e) := s.free
  let s := s.modCluster cl fun c => { c with em := c.em + e, emBase := c.emBase + e }
  let later (b : Block) : Block :=
    if b.place = .resident cl then
      { b with warps := b.warps.map (Party.laterEnergy e), mcc := b.mcc.map (Party.laterEnergy e) }
    else b
  { s with blocks := s.blocks.map later }.modLaunch k.part k.grid fun l => { l with energy := l.energy + e.toNat }

/-- A copy as it is recorded: it stopped at a row's boundary, one held at a tile too (R204). -/
def saveOp (o : EngOp) : EngOp :=
  if 8 ≤ o.ch then o
  else if o.waiting then { o with waiting := false, charged := false, word := 0, st := .queued, errElem := 0 }
  else o

/-- Record a block (R329): its requests are cleared, and its copies leave their channels. -/
def saveBlock (s : State) (b : Block) (cl : Nat) (pl : Place) : State :=
  let s := leaveCluster (apportion s cl) b.key true false
  let c := s.cluster cl
  let s := s.modBlock b.key fun b =>
    { b with place := pl, yr := false, ly := false, deadline := none, halted := false, savedAt := s.fcyc,
             warps := (List.range b.warps.length).filterMap fun n =>
               (b.warps[n]?).map fun p => saveParty s c b.key (.warp n) p,
             mcc := b.mcc.map fun p => { saveParty s c b.key .mcc p with ws := .active },
             takers := b.takers.map fun t => { t with at_ := 0 }, cslrBy := (0, 0),
             ops := b.ops.map saveOp }
  let s := s.modPart b.key.part fun q => { q with mbWait := q.mbWait.filter fun f => f.key != b.key }
  kickAll (targetDone (moveEnergy s b.key cl) b.key) cl

/-- Write the bytes of an image. -/
def writeImage (s : State) (r : LaunchRec) (b : Block) : Place → State
  | .image a n => { s with ms := sysWrite s.ms a (imageContents s r b a n), fresh := s.fresh + 1 }
  | _ => s

/-- PRECTL.ERR: a request is refused or only partly done (R326). -/
def prectlErr (s : State) (part : Nat) : State := s.modPart part fun q => { q with prectl := q.prectl ||| 0x08000000 }

/-- The request for a block that fits no destination ends: it stays resident and goes on, unless a swap waits for it, and ERR is
set (R326); answers it received meanwhile take effect. -/
def saveFails (s : State) (b : Block) : State :=
  let s := s.modBlock b.key fun b =>
    if b.ly then { b with yr := false, deadline := none }
    else
      { b.mapFrags (fun f => if f.wait = .yielded then { f with wait := .run } else f) with
        yr := false, deadline := none, halted := false }
  let s := targetDone (prectlErr s b.key.part) b.key
  match b.cluster? with
  | some cl => if b.ly then s else applyAnswers (kickAll s cl) b.key
  | none => s

/-- Save the blocks of a unit, one after the other; none when one of them fits no destination. -/
def saveUnit (s : State) (l : Launch) : List Block → Option State
  | [] => some s
  | b :: r =>
    match b.cluster? with
    | none => saveUnit s l r
    | some cl => (savePlace s b l.lr (some cl) b.dest).bind fun pl => saveUnit (saveBlock (writeImage s l.lr b pl) b cl pl) l r

/-- Save a unit that has come to rest: a gang as a whole or not at all (R326). -/
def trySave (s : State) (l : Launch) (u : List Block) : State :=
  if !u.all (quiet s) then s else (saveUnit s l u).getD (u.foldl saveFails s)

/-- Copy the blocks of a unit out of their shadow stores (R330); none when one image does not fit. -/
def copyOut (s : State) (l : Launch) : List Block → Option State
  | [] => some s
  | b :: r => (savePlace s b l.lr none 1).bind fun pl =>
      copyOut (targetDone ((writeImage s l.lr b pl).modBlock b.key fun b => { b with place := pl }) b.key) l r

/-- Move a unit from the shadow store to HBM, a gang as a whole (R326, R330). -/
def moveShadow (s : State) (l : Launch) (u : List Block) : State :=
  (copyOut s l u).getD (u.foldl (fun s b => targetDone (prectlErr s b.key.part) b.key) s)

/-! ## Killing instead of saving (R308) -/

/-- The blocks of a block's unit: its gang, or itself. -/
def unitOf (s : State) (l : Launch) (k : Key) : List Block :=
  s.blocks.filter fun b => b.key.part = k.part && b.key.grid = k.grid &&
    (if l.lr.gangsz = 0 then b.key.blk = k.blk else l.lr.gangOf b.key.blk = l.lr.gangOf k.blk)

/-- The resident blocks that are pre-empted together with a block (R326), but for those that only have to end (R327). -/
def unitHere (s : State) (l : Launch) (k : Key) : List Block :=
  (unitOf s l k).filter fun b => b.cluster?.isSome && !blockMayEnd s b

/-- Kill the unit of a block to free its clusters, and put its entry back at the head of the task queue, or its gang at the
head of the queue; the copies of a bundle's block 0 are queued again with it. -/
def killUnit (s : State) (l : Launch) (k : Key) (cl : Nat) : State :=
  let keys := (unitOf s l k).map fun b => b.key
  let s := keys.foldl killBlock s
  let s := if keys.any fun x => x.blk = 0 then s.modLaunch l.part l.grid fun l => { l with copies := l.bundle } else s
  if l.lr.gangsz = 0 then s.modCluster cl fun c => { c with tasks := k :: c.tasks }
  else
    let g := l.lr.gangOf k.blk
    { s.modLaunch l.part l.grid (fun l => { l with again := l.again ++ [g * l.lr.gangsz] }) with
      gangs := s.gangs.filter fun x => !(x.part = l.part && x.grid = l.grid && x.gang = g) }

/-- May the unit of a block be killed: does every block of it still hold its idempotent status? -/
def unitIdem (s : State) (l : Launch) (k : Key) : Bool := (unitOf s l k).all fun b => b.idem

/-! ## The events of pre-emption (R327) -/

/-- A unit that has been halted for pre-emption is killed or saved. -/
def endHalt (s : State) (l : Launch) (k : Key) (cl : Nat) : State :=
  let u := unitHere s l k
  if !u.all (fun b => b.halted) then s
  else if (u.all fun b => b.dest = 2) && unitIdem s l k then killUnit s l k cl
  else trySave s l u

/-- Halt the blocks of a unit that are not halted yet. -/
def haltUnit (s : State) (u : List Block) : State := u.foldl (fun s b => if b.halted then s else haltBlock s b.key) s

/-- BLOCK_YIELD (R105, R314, R327): a block asked to yield whose parties are all parked or blocked, with its whole gang (R326).
For YR it is saved; for LY it stays halted until the swap. A block that may end is not saved: its end completes the request. -/
def execBlockYield (key : Key) (st : State) : Host.Outcome State Fault Refusal :=
  .next (match st.block? key, st.launch? key.part key.grid, runCluster st key with
    | some b, some l, some cl =>
      if blockMayEnd st b || !(b.halted || b.yielded) then st
      else if b.yr then
        let u := unitHere st l key
        if u.all fun x => x.halted || (x.yielded && (runCluster st x.key).isSome) then endHalt (haltUnit st u) l key cl else st
      else if b.ly && !b.halted then haltBlock st key else st
    | _, _, _ => st)

/-- FORCED_SAVE (R327, R328): at the deadline the block is halted and saved; a block in a shadow store that a request of
DEST = 1 targets is moved to HBM (R330). -/
def execForcedSave (key : Key) (st : State) : Host.Outcome State Fault Refusal :=
  .next (match st.block? key, st.launch? key.part key.grid with
    | some b, some l =>
      (match b.place with
       | .resident cl =>
         let c := st.cluster cl
         let u := unitHere st l key
         if c.frozen || !b.yr || blockMayEnd st b then st
         else if b.halted then endHalt st l key cl
         else if (b.deadline.any fun d => d ≤ c.cyc) && u.all (fun x => (runCluster st x.key).isSome) then
           endHalt (haltUnit st u) l key cl
         else st
       | .shadow _ =>
         if (st.part key.part).target.contains key then
           moveShadow st l ((unitOf st l key).filter fun x => match x.place with
             | .shadow _ => true
             | _ => false)
         else st
       | .image _ _ => st)
    | _, _ => st)

/-! ## Requests (R326) -/

/-- Which blocks a request targets: those of the launch PRETGT names; with DEST = 1 those in a shadow store too. -/
def targets (s : State) (part dest : Nat) : List Block :=
  s.blocks.filter fun b => b.key.part = part && targeted s part b.key.grid &&
    (match b.place with
     | .resident _ => true
     | .shadow _ => dest = 1
     | .image _ _ => false)

/-- A write of PRECTL of one of the 16 partitions (R2): with GO = 0 its fields are written and ERR is cleared by a 1; a write of GO while GO reads 1 is
ignored; GO with DEST = 3 sets ERR and does nothing else. -/
def writePrectl (s : State) (part : Nat) (val : Word) : State :=
  let q := s.part part
  let err := q.prectl &&& 0x08000000 &&& ~~~val
  if 16 ≤ part then s
  else if !val.getLsbD 31 then
    s.modPart part fun q => { q with prectl := (q.prectl &&& 0x80000000) ||| (val &&& 0x70000000) ||| err }
  else if q.prectl.getLsbD 31 then s
  else if bitsAt val.toNat 28 2 = 3 then s.modPart part fun q => { q with prectl := q.prectl ||| 0x08000000 }
  else
    let dest := bitsAt val.toNat 28 2
    let force := val.getLsbD 30
    let ts := targets s part dest
    let start (b : Block) : Block :=
      match b.place with
      | .resident cl =>
        { b with yr := true, dest := dest,
                 deadline := some ((s.cluster cl).cyc + if force then 0 else 10 * q.ydl.toNat) }
      | _ => b
    let s := { s with blocks := s.blocks.map fun (b : Block) => if ts.any (fun (t : Block) => t.key = b.key) then start b else b }
    s.modPart part fun q =>
      { q with prectl := (val &&& 0x70000000) ||| err ||| (if ts.isEmpty then 0 else 0x80000000), target := ts.map fun (b : Block) => b.key }

/-- PREEMPT_REQUEST (R326, R327). -/
def execPreemptRequest (part : Nat) (val : Word) (st : State) : Host.Outcome State Fault Refusal :=
  .next (writePrectl st part val)

/-! ## The restore (R239, R329, R396) -/

/-- A call record at a restore: fresh baselines. -/
def restoreCall (cl : Cluster) (r : CallRec) : CallRec := { r with cyc0 := cl.cycles, em0 := cl.em, is0 := cl.is, fs := 0 }

/-- A party at a restore: a fragment parked at YIELD continues behind it. It counts as having issued at the restore (R310; DESIGN
CHOICE, log 120). -/
def restoreParty (cl : Cluster) (p : Party) : Party :=
  { p with calls := p.calls.map (restoreCall cl), lastIssue := cl.is,
           frags := p.frags.map fun f =>
             (if f.wait = .yielded then { f with wait := .run } else f).mapTable (TableWait.moved cl) }

/-- A restored copy goes back to its channel: behind those there, or, when no place is free, it waits for one (R199, R204). -/
def putBack (c : Cluster) (e : Nat × Nat) : Cluster :=
  if (c.chBack.any fun x => x.1 = e.1) || decide (16 ≤ (c.chq.filter fun x => x.1 = e.1).length) then
    { c with chBack := c.chBack ++ [e] }
  else { c with chq := c.chq ++ [e] }

/-- Place a saved block on a cluster again: its warps take slots afresh, waiters not yet released form waves of their own,
its copies go back to their channels, its records reach the mailbox anew, replies that came meanwhile are delivered. -/
def restoreBlock (s : State) (k : Key) (cl : Nat) : State :=
  match s.block? k with
  | none => s
  | some b =>
    let s := moveEnergy (apportion s cl) k cl
    let c := s.cluster cl
    let width := s.widthOf k
    let taken := slotted s cl
    let ids := (b.ops.filter fun o => decide (o.ch < 8) && !o.st.over).map fun o => (o.ch, o.id)
    let s := s.modBlock k fun b =>
      let b := { b with place := .resident cl, savedAt := 0, bySwap := false,
                        warps := seatAll width taken (b.warps.map (restoreParty c)), mcc := b.mcc.map (restoreParty c) }
      let ws := b.waves.flatMap fun w => w.waiters
      releaseWaves { b with waves := [] } c.cyc ws
    let s := s.modCluster cl fun c => ids.foldl putBack c
    deliverReplies (arriveMboxes (kickAll s cl)) k.part

/-- Restore blocks, each on its cluster; then the answers they received while they were saved take effect (R322). -/
def restoreSet (s : State) (l : List (Key × Nat)) : State :=
  (l.map fun e => e.1).foldl applyAnswers (l.foldl (fun s e => restoreBlock s e.1 e.2) s)

/-- May a saved block be restored by R396: not saved by a swap, its launch not named by PRETGT, and with PHSW of the running
context? -/
def mayRestore (s : State) (part : Nat) (b : Block) : Bool :=
  b.key.part = part && b.cluster?.isNone && !(b.bySwap && phsw s part) &&
    (match s.launch? b.key.part b.key.grid with
     | some l => !targeted s part b.key.grid && !(phsw s part && (phaseOf s l != (s.part part).phase || (s.part part).expired.isSome))
     | none => false)

/-- The clusters a saved unit goes to: a block in a shadow store to its own cluster, images to distinct clusters of one die by
R304; none when the unit does not fit. -/
def restorePlaces (s : State) (part : Nat) (r : LaunchRec) (unit : List Block) : Option (List (Key × Nat)) :=
  let fixed := unit.filterMap fun b => match b.place with
    | .shadow c => some (b.key, c)
    | .resident c => some (b.key, c)
    | .image _ _ => none
  let here := unit.filterMap fun b => match b.place with
    | .shadow c => some c
    | _ => none
  let imgs := unit.filter fun b => match b.place with
    | .image _ _ => true
    | _ => false
  if !(here.all fun c => fits s c r) then none
  else if imgs.isEmpty then some fixed
  else
    let free (d : Nat) : List Nat :=
      (clustersOn s part d).filter fun c => fits s c r && !(fixed.any fun e => e.2 = c)
    let dies := match fixed with
      | e :: _ => [e.2 / 64]
      | [] => [0, 1, 2, 3]
    let best := dies.foldl (fun (x : Option (List Nat)) d =>
      let f := free d
      if f.length < imgs.length then x
      else match x with
        | none => some f
        | some g => if g.length < f.length then some f else some g) none
    best.map fun f => fixed ++ (imgs.map fun b => b.key).zip f

/-- A block inserted among blocks ordered by their saves, behind those saved no later. -/
def insertSaved (b : Block) : List Block → List Block
  | [] => [b]
  | x :: r => if x.savedAt ≤ b.savedAt then x :: insertSaved b r else b :: x :: r

/-- The units that may be restored, oldest save first. -/
def savedUnits (s : State) (part : Nat) : List Block :=
  (s.blocks.filter (mayRestore s part)).foldl (fun l b => insertSaved b l) []

/-- Restore the oldest unit that fits. -/
def restoreOne (s : State) (part : Nat) : Option State :=
  (savedUnits s part).findSome? fun b =>
    match s.launch? part b.key.grid with
    | none => none
    | some l =>
      let unit := unitOf s l b.key
      if unit.all fun x => x.cluster?.isSome || mayRestore s part x then
        (restorePlaces s part l.lr unit).map fun ps =>
          restoreSet s (ps.filter fun e => unit.any fun x => x.key = e.1 && x.cluster?.isNone)
      else none

/-- SAVED_UNIT_RESTORE (R396). -/
def execSavedUnitRestore (part : Nat) (st : State) : Host.Outcome State Fault Refusal :=
  .next ((restoreOne st part).getD st)

/-- Restore every unit that may be restored and fits, as before each arbitration round (fuel: the number of blocks). -/
def restoreAll (s : State) (part : Nat) : Nat → State
  | 0 => s
  | n + 1 =>
    match restoreOne s part with
    | some t => restoreAll t part n
    | none => s

end Sys2Proof.Machine
end

