-- ==== Sys2Proof/Machine/Crypto.lean ====
section
/-! DEFINITION. SHA-256 and the RSASSA-PSS check that the boot ROM and FWACT use (R376, R377). The spec names both schemes;
their definitions are those of FIPS 180-4 and RFC 8017 (log 18). -/
namespace Sys2Proof.Machine
open Sys2Proof

/-! ## SHA-256 -/

/-- The round constants. -/
def shaK : List Nat :=
  [0x428A2F98, 0x71374491, 0xB5C0FBCF, 0xE9B5DBA5, 0x3956C25B, 0x59F111F1, 0x923F82A4, 0xAB1C5ED5] ++
  [0xD807AA98, 0x12835B01, 0x243185BE, 0x550C7DC3, 0x72BE5D74, 0x80DEB1FE, 0x9BDC06A7, 0xC19BF174] ++
  [0xE49B69C1, 0xEFBE4786, 0x0FC19DC6, 0x240CA1CC, 0x2DE92C6F, 0x4A7484AA, 0x5CB0A9DC, 0x76F988DA] ++
  [0x983E5152, 0xA831C66D, 0xB00327C8, 0xBF597FC7, 0xC6E00BF3, 0xD5A79147, 0x06CA6351, 0x14292967] ++
  [0x27B70A85, 0x2E1B2138, 0x4D2C6DFC, 0x53380D13, 0x650A7354, 0x766A0ABB, 0x81C2C92E, 0x92722C85] ++
  [0xA2BFE8A1, 0xA81A664B, 0xC24B8B70, 0xC76C51A3, 0xD192E819, 0xD6990624, 0xF40E3585, 0x106AA070] ++
  [0x19A4C116, 0x1E376C08, 0x2748774C, 0x34B0BCB5, 0x391C0CB3, 0x4ED8AA4A, 0x5B9CCA4F, 0x682E6FF3] ++
  [0x748F82EE, 0x78A5636F, 0x84C87814, 0x8CC70208, 0x90BEFFFA, 0xA4506CEB, 0xBEF9A3F7, 0xC67178F2]

/-- The initial hash value. -/
def shaInit : List Nat :=
  [0x6A09E667, 0xBB67AE85, 0x3C6EF372, 0xA54FF53A, 0x510E527F, 0x9B05688C, 0x1F83D9AB, 0x5BE0CD19]

/-- Addition modulo 2^32. -/
def add32 (a b : Nat) : Nat := (a + b) % 4294967296

/-- A rotation to the right of a 32-bit value. -/
def rotr (x n : Nat) : Nat := x / 2 ^ n + x % 2 ^ n * 2 ^ (32 - n)

/-- A byte string read as a big-endian number. -/
def beNat (b : List Byte) : Nat := b.foldl (fun n x => n * 256 + x.toNat) 0

/-- The n bytes of a number, most significant first. -/
def beBytes (n x : Nat) : List Byte := (leBytes n x).reverse

/-- The 32-bit words of a 64-byte block (fuel: the words left). -/
def shaWords : Nat → List Byte → List Nat
  | 0, _ => []
  | n + 1, b => beNat (b.take 4) :: shaWords n (b.drop 4)

/-- The message schedule: each new word from the last sixteen, the newest first (fuel: the words to come). -/
def shaSched : Nat → List Nat → List Nat
  | 0, w => w.reverse
  | n + 1, w =>
    let a := w.getD 14 0
    let b := w.getD 1 0
    let s0 := rotr a 7 ^^^ rotr a 18 ^^^ (a / 2 ^ 3)
    let s1 := rotr b 17 ^^^ rotr b 19 ^^^ (b / 2 ^ 10)
    shaSched n (add32 (add32 (w.getD 15 0) s0) (add32 (w.getD 6 0) s1) :: w)

/-- One round on the eight working variables. -/
def shaRound (v : List Nat) (k w : Nat) : List Nat :=
  match v with
  | [a, b, c, d, e, f, g, h] =>
    let s1 := rotr e 6 ^^^ rotr e 11 ^^^ rotr e 25
    let ch := (e &&& f) ^^^ ((4294967295 - e) &&& g)
    let t1 := add32 (add32 h s1) (add32 (add32 ch k) w)
    let s0 := rotr a 2 ^^^ rotr a 13 ^^^ rotr a 22
    let maj := (a &&& b) ^^^ (a &&& c) ^^^ (b &&& c)
    [add32 t1 (add32 s0 maj), a, b, c, add32 d t1, e, f, g]
  | _ => v

/-- The compression of one 64-byte block. -/
def shaBlock (h : List Nat) (b : List Byte) : List Nat :=
  let v := (shaK.zip (shaSched 48 (shaWords 16 b).reverse)).foldl (fun v e => shaRound v e.1 e.2) h
  (h.zip v).map fun e => add32 e.1 e.2

/-- Compress the blocks of a padded message (fuel: the blocks left). -/
def shaBlocks : Nat → List Nat → List Byte → List Nat
  | 0, h, _ => h
  | n + 1, h, b => shaBlocks n (shaBlock h (b.take 64)) (b.drop 64)

/-- The padding of a message. -/
def shaPad (m : List Byte) : List Byte :=
  m ++ [0x80] ++ List.replicate ((119 - m.length % 64) % 64) 0 ++ beBytes 8 (m.length * 8)

/-- SHA-256: 32 bytes. -/
def sha256 (m : List Byte) : List Byte :=
  let p := shaPad m
  (shaBlocks (p.length / 64) shaInit p).flatMap (beBytes 4)

/-- A digest as a register holds it: byte 0 in bits [7:0]. -/
def digestReg (d : List Byte) : BitVec 256 := BitVec.ofNat 256 (leNat d)
/-- The bytes of such a register. -/
def digestBytes (r : BitVec 256) : List Byte := leBytes 32 r.toNat

/-! ## RSASSA-PSS with MGF1 and a 32-byte salt, exponent 65 537 -/

/-- x to the power 2^k modulo n. -/
def squares (n : Nat) : Nat → Nat → Nat
  | 0, x => x
  | k + 1, x => squares n k (x * x % n)

/-- x to the power 65 537 modulo n. -/
def rsaPower (x n : Nat) : Nat := squares n 16 x * x % n

/-- MGF1: blocks of output from a counter (fuel: the blocks). -/
def mgf1 (seed : List Byte) : Nat → Nat → List Byte
  | 0, _ => []
  | k + 1, i => sha256 (seed ++ beBytes 4 i) ++ mgf1 seed k (i + 1)

/-- x to the power e modulo n (fuel: the bits of e left). -/
def modPower (n : Nat) : Nat → Nat → Nat → Nat
  | 0, _, _ => 1 % n
  | k + 1, x, e => (if e % 2 = 1 then x else 1) * modPower n k (x * x % n) (e / 2) % n

/-- The encoded message of a signature with a salt, for a modulus of the given bits less one (RFC 8017, 9.1.1). -/
def pssEncode (bits : Nat) (salt msg : List Byte) : List Byte :=
  let len := (bits + 7) / 8
  let h := sha256 (List.replicate 8 0 ++ sha256 msg ++ salt)
  let db := List.replicate (len - 66) 0 ++ [1] ++ salt
  let masked := (db.zip (mgf1 h ((len - 33 + 31) / 32) 0)).map fun e => e.1 ^^^ e.2
  let masked := match masked with
    | b :: r => BitVec.ofNat 8 (b.toNat % 2 ^ (8 - (8 * len - bits))) :: r
    | [] => []
  masked ++ h ++ [0xBC]

/-- The signature of a message under the key of a modulus and a private exponent (RFC 8017, 8.1.1): 384 bytes. -/
def pssSign (modulus : List Byte) (d : Nat) (salt msg : List Byte) : List Byte :=
  let n := beNat modulus
  beBytes 384 (modPower n 3072 (beNat (pssEncode (Nat.log2 n) salt msg)) d)

/-- Does a signature verify over a message under a modulus (RFC 8017, 8.1.2 and 9.1.2)? -/
def pssVerify (modulus sig msg : List Byte) : Bool :=
  let n := beNat modulus
  let s := beNat sig
  let bits := Nat.log2 n
  let len := (bits + 7) / 8
  if n ≤ s || len < 66 then false
  else
    let em := beBytes len (rsaPower s n)
    let masked := em.take (len - 33)
    let h := (em.drop (len - 33)).take 32
    let mask := mgf1 h ((len - 33 + 31) / 32) 0
    let top := 2 ^ (8 - (8 * len - bits))
    let db := (masked.zip mask).map fun e => e.1 ^^^ e.2
    let db := match db with
      | b :: r => BitVec.ofNat 8 (b.toNat % top) :: r
      | [] => []
    let salt := db.drop (len - 65)
    em.getLast? == some 0xBC && (masked.headD 0).toNat < top && (db.take (len - 66)).all (fun b => b == 0) &&
      db.getD (len - 66) 0 == 1 && sha256 (List.replicate 8 0 ++ sha256 msg ++ salt) == h

end Sys2Proof.Machine
end

