-- ==== Sys2Proof/Machine/Boot.lean ====
section
/-! DEFINITION. Firmware images, their check and their start, measurements, attestation, and the reset of the module
(R376–R381). -/
namespace Sys2Proof.Machine
open Sys2Proof

/-! ## Images (R376, R377) -/

/-- A stage of an image: body offset, length, load address, target. -/
structure Stage where
  off    : Nat
  len    : Nat
  addr   : Nat
  target : Nat

/-- Flash device A (0) or B (1). -/
def Hub.flash (h : Hub) (slot : Nat) : Mem := if slot = 0 then h.flashA else h.flashB
/-- The header of the image in a flash device. -/
def imgHeader (m : Mem) : List Byte := memRead m 0 1024
/-- BODYLEN. -/
def imgBodyLen (h : List Byte) : Nat := fieldAt h 12 4
/-- NSTAGE. -/
def imgNstage (h : List Byte) : Nat := fieldAt h 16 4
/-- Entry k of STAGES. -/
def imgStage (h : List Byte) (k : Nat) : Stage :=
  let o := 832 + 24 * k
  { off := fieldAt h o 4, len := fieldAt h (o + 4) 4, addr := fieldAt h (o + 8) 8, target := fieldAt h (o + 16) 1 }
/-- The stages of an image, in table order. -/
def imgStages (h : List Byte) : List Stage := (List.range (imgNstage h)).map (imgStage h)
/-- The bytes of a stage. -/
def stageBytes (m : Mem) (g : Stage) : List Byte := memRead m (1024 + g.off) g.len

/-- Does the image in a flash device verify (R377), its lengths and counts being those of R376? -/
def imgOk (hub : Hub) (m : Mem) : Bool :=
  let h := imgHeader m
  let n := imgNstage h
  fieldAt h 0 4 == 0xA9B00700 && imgBodyLen h % 64 == 0 && decide (imgBodyLen h ≤ 268434432) && decide (1 ≤ n) &&
    decide (n ≤ 8) && zeroAt h 20 44 && (List.range 8).all (fun k => zeroAt h (832 + 24 * k + 17) 7) &&
    (List.range 8).all (fun k => decide (k < n) || zeroAt h (832 + 24 * k) 24) &&
    digestReg (sha256 ((h.drop 64).take 384)) == hub.keyhash && decide (hub.minsvn.toNat ≤ fieldAt h 4 4) &&
    (imgStages h).all (fun g => decide (g.off + g.len ≤ imgBodyLen h)) &&
    pssVerify ((h.drop 64).take 384) ((h.drop 448).take 384)
      (h.take 448 ++ h.drop 832 ++ memRead m 1024 (imgBodyLen h))

/-- A measurement of bytes (R379). -/
def measure (b : List Byte) : BitVec 256 := digestReg (sha256 (List.replicate 32 0 ++ sha256 b))

/-- MEAS0–MEAS9 of an image: its header, its stages, the extend register clear. -/
def measurements (m : Mem) : List (BitVec 256) :=
  let h := imgHeader m
  let l := measure h :: (imgStages h).map fun g => measure (stageBytes m g)
  l ++ List.replicate (10 - l.length) 0

/-! ## Starting firmware (R370, R378) -/

/-- Load the stages of the lantern cores, in table order, into a core's SRAM (log 8). -/
def lanternStages (m : Mem) (gs : List Stage) : Mem :=
  gs.foldl (fun e g => if g.target = 0 then memWrite e g.addr (stageBytes m g) else e) []

/-- Load the stages of the host cores, in table order, into HBM (log 8). -/
def hostStages (m : Mem) (gs : List Stage) (ms : MemSys) : MemSys :=
  gs.foldl (fun e g => if g.target = 0 then e else sysWrite e g.addr (stageBytes m g)) ms

/-- The lantern cores start from the image of a flash device, at the load address of its stage 1. -/
def startImage (s : State) (slot : Nat) : State :=
  let m := s.hub.flash slot
  let h := imgHeader m
  let pc : DWord := BitVec.ofNat 64 (imgStage h 0).addr
  let s := s.modHub fun u =>
    { u with image := slot, fwver := BitVec.ofNat 32 (fieldAt h 8 4), svn := BitVec.ofNat 32 (fieldAt h 4 4), lanternStart := pc }
  (List.range 16).foldl (fun s n => s.setLantern n { HubCore.reset with sram := lanternStages m (imgStages h), pc := pc }) s

/-- The host cores start at the first stage of the image that is theirs (R378). -/
def startHosts (s : State) (slot : Nat) : State :=
  let m := s.hub.flash slot
  let gs := imgStages (imgHeader m)
  let host : DWord := match gs.find? fun g => g.target = 1 with
    | some g => BitVec.ofNat 64 g.addr
    | none => 0
  let s := { s with ms := hostStages m gs s.ms }
  let s := s.modHub fun u => { u with hostStart := host }
  (List.range 32).foldl (fun s n => s.setHart n { HubCore.reset with pc := host }) s

/-- The order in which the boot ROM tries the images: the higher SVN first, image A on equal SVN. -/
def bootOrder (h : Hub) : List Nat :=
  if fieldAt (imgHeader h.flashA) 4 4 < fieldAt (imgHeader h.flashB) 4 4 then [1, 0] else [0, 1]

/-- The boot ROM (R378). -/
def boot (s : State) : State :=
  match (bootOrder s.hub).find? fun slot => imgOk s.hub (s.hub.flash slot) with
  | some slot => (startHosts (startImage s slot) slot).modHub fun u => { u with meas := measurements (u.flash slot) }
  | none => s.modHub fun u => { u with halted := true, faultn := false }

/-- The module after a reset, before the boot ROM: flash, fuses and identity stay; what is still to happen is the agenda's. -/
def resetKeeping (s : State) : State :=
  { State.reset with
    agenda := s.agenda, fresh := s.fresh,
    hub := { Hub.reset with flashA := s.hub.flashA, flashB := s.hub.flashB, minsvn := s.hub.minsvn,
                            keyhash := s.hub.keyhash, idcert := s.hub.idcert } }

/-- MODULE_RESET (R378). -/
def execModuleReset (st : State) : Host.Outcome State Fault Refusal := .next (boot (resetKeeping st))

/-! ## Measurements, security version, attestation (R378–R381) -/

/-- A digest extends MEAS9 (R379): MEAS9 = SHA-256(MEAS9 ‖ d). -/
def extendMeas (s : State) (digest : BitVec 256) : State :=
  s.modHub fun u => { u with meas := lmod u.meas 9 fun x => digestReg (sha256 (digestBytes x ++ digestBytes digest)) }

/-- MEASEXT_WRITE (R379); a halted hub takes no write (R378). -/
def execMeasextWrite (digest : BitVec 256) (st : State) : Host.Outcome State Fault Refusal :=
  .next (if st.hub.halted then st else extendMeas st digest)

/-- SVNRAISE_WRITE (R378): MINSVN only rises. -/
def raiseSvn (s : State) (svn : Word) : State :=
  s.modHub fun u => if u.minsvn.toNat < svn.toNat then { u with minsvn := svn } else u

/-- SVNRAISE_WRITE; a halted hub takes no write. -/
def execSvnraiseWrite (svn : Word) (st : State) : Host.Outcome State Fault Refusal :=
  .next (if st.hub.halted then st else raiseSvn st svn)

/-- Bytes 0–375 of the attestation report. -/
def reportBody (s : State) : List Byte :=
  leBytes 4 0xA9A70001 ++ wordBytes s.hub.fwver ++ wordBytes s.hub.svn ++ leBytes 4 0 ++ leBytes 8 s.dtime ++
    digestBytes s.hub.nonce ++ (s.hub.meas.take 10).flatMap digestBytes

/-- The identity modulus (R380): the first 384 bytes of IDCERT, big-endian as MOD of R376 is; where IDCERT holds it the spec does not
say (DESIGN CHOICE, log 18). -/
def idModulus (u : Hub) : List Byte := memRead u.idcert 0 384

/-- The signature of a report with the identity key under the scheme of R376, and a salt that no rule gives: free bytes. -/
def signReport (s : State) (b : List Byte) : State × List Byte :=
  let salt := (List.range 4).flatMap fun k => dwordBytes (Config.freeValue (s.fresh + k))
  let m := idModulus s.hub
  ({ s with fresh := s.fresh + 4 }, pssSign m (Config.identityExponent (beNat m)) salt b)

/-- ATTESTATION (R381): while ATTGO reads 1 the report, signed with the identity key, goes to ATTBUF, and ATTGO then reads 0. -/
def execAttestation (st : State) : Host.Outcome State Fault Refusal :=
  .next (
    if !st.hub.attgo || st.hub.halted then st else
    let b := reportBody st
    let (s, sig) := signReport st b
    s.modHub fun u => { u with attbuf := memWrite [] 0 (b ++ sig), attgo := false })

end Sys2Proof.Machine
end

