-- ==== Sys2Proof/Machine/Packets.lean ====
section
/-! DEFINITION. Rings and packets: what stands at a queue's head, the checks of a packet and of the records it names, command
faults, and launches as they begin (R12, R13, R28, R43–R45, R130, R220, R286, R350, R361–R365, R397, R398). -/
namespace Sys2Proof.Machine
open Sys2Proof

/-! ## Queues (R295, R361, R374) -/

/-- The queues of a partition. -/
def queueIn (s : State) (p q : Nat) : Bool :=
  let r := s.part p
  r.partctl.getLsbD 31 && decide (bitsAt r.pq.toNat 16 12 ≤ q) && decide (q < bitsAt r.pq.toNat 16 12 + bitsAt r.pq.toNat 0 13)

/-- The enabled partition of a queue. -/
def queuePart (s : State) (q : Nat) : Option Nat := (List.range 16).find? fun p => queueIn s p q

/-- The queues of a partition that any register or packet has touched, ascending: every other one has EN = 0. -/
def queuesOf (s : State) (p : Nat) : List Nat := (s.queues.map fun e => e.1).filter (queueIn s p)

/-- EN of QSCHED. -/
def Queue.en (u : Queue) : Bool := u.qsched.getLsbD 31
/-- HALT of QSCHED. -/
def Queue.halt (u : Queue) : Bool := u.qsched.getLsbD 30
/-- BLK of QSCHED. -/
def Queue.blk (u : Queue) : Bool := u.qsched.getLsbD 29
/-- Tickets of a queue. -/
def Queue.tickets (u : Queue) : Nat := u.qsched.toNat % 1024 + 1
/-- QLOG. -/
def Queue.qlog (u : Queue) : Nat := u.qring.toNat % 32
/-- BASE as an address. -/
def Queue.base (u : Queue) : Nat := bitsAt u.qring.toNat 8 47 * 256
/-- D, the bytes of the data area. -/
def Queue.dataLen (u : Queue) : Nat := 2 ^ u.qlog - 64
/-- Does QRING name a ring? -/
def Queue.ringOk (u : Queue) : Bool := decide (8 ≤ u.qlog) && decide (u.qlog ≤ 24) && u.base % 2 ^ u.qlog == 0

/-- Set or clear a bit of QSCHED. -/
def setSched (s : State) (q bit : Nat) (on : Bool) : State :=
  s.modQueue q fun u =>
    let m : Word := 1#32 <<< bit
    { u with qsched := if on then u.qsched ||| m else u.qsched &&& ~~~m }

/-! ## Command faults (R363, R398) -/

/-- A fault against a queue: HALT is set, so that the queue is not runnable (R298), RPTR stays, and a record names the queue. -/
def commandFault (s : State) (p q code : Nat) (f : Failed) : State :=
  let s := (setSched s q 30 true).modQueue q fun u => { u with was := false }
  addRecord s p fun seq =>
    { seq := seq, code := code, code2 := 0, kind := kindByte false false false false false f.2.level f.2.mal, elem := 0,
      asid := (s.part p).ringAsid, pc := 0, addr := BitVec.ofNat 64 f.1, grid := 0, blk := BitVec.ofNat 32 q,
      thread := 0xFFFF, ticket := 0, dtime := BitVec.ofNat 64 s.dtime, written := false, answered := false,
      target := .command q }

/-! ## Packets (R361–R364) -/

/-- LEN of a packet, in bytes. -/
def packetLen (pk : List Byte) : Nat := 16 * fieldAt pk 1 2
/-- TYPE. -/
def packetType (pk : List Byte) : Nat := fieldAt pk 3 1
/-- SIGC. -/
def packetSigc (pk : List Byte) : Bool := bitsAt (fieldAt pk 4 4) 0 1 == 1

/-- A reserved bit of a header is set, or its TYPE is unassigned. -/
def headerBad (h : List Byte) : Bool :=
  packetType h = 0 || 8 < packetType h || !zeroAt h 0 1 || fieldAt h 4 4 / 2 != 0 || !zeroAt h 8 8

/-- The bytes of a packet that its body names, as offset and length. -/
def bodySpans (pk : List Byte) : List (Nat × Nat) :=
  match packetType pk with
  | 1 => [(16, 32)] ++ (List.range (min 8 (fieldAt pk 40 8))).map fun k => (48 + 48 * k, 33)
  | 2 => [(16, 32)]
  | 3 => [(16, 17)]
  | 4 => [(16, 18)]
  | 5 => [(16, 4), (24, 8)]
  | 6 => [(16, 24)]
  | 7 => [(16, 1), (24, 16)]
  | _ => [(16, 8)]

/-- Where the fields of a body end: a shorter packet breaks its limits. -/
def bodyEnd (pk : List Byte) : Nat := (bodySpans pk).foldl (fun n e => max n (e.1 + e.2)) (if packetType pk = 1 then 48 else 16)

/-- A body breaks its own limits, or a byte that its fields do not name is set (R364). -/
def bodyBad (pk : List Byte) : Bool :=
  let named (i : Nat) : Bool := (bodySpans pk).any (fun e => decide (e.1 ≤ i) && decide (i < e.1 + e.2)) ||
    (packetType pk = 1 && decide (40 ≤ i) && decide (i < 48))
  decide (packetLen pk < bodyEnd pk) ||
    (List.range pk.length).any (fun i => decide (16 ≤ i) && !named i && pk.getD i 0 != 0) ||
    (match packetType pk with
     | 1 => decide (8 < fieldAt pk 40 8) || (List.range (min 8 (fieldAt pk 40 8))).any fun k => decide (2 < fieldAt pk (80 + 48 * k) 1)
     | 3 => decide (1 < fieldAt pk 32 1)
     | 5 => fieldAt pk 16 4 == 0
     | 7 => decide (1 < fieldAt pk 16 1)
     | _ => false)

/-- What stands at the head of a queue. -/
inductive Head where
  /-- No packet. -/
  | empty
  /-- A command fault: its code and what failed. -/
  | bad (code : Nat) (f : Failed)
  /-- A whole packet that passes the checks: the address of its header, its bytes. -/
  | whole (addr : Nat) (pk : List Byte)

/-- Read n bytes of the data area from a consumed count on, across the wrap. -/
def ringRead (s : State) (p asid : Nat) (u : Queue) (c n : Nat) : State × Except Failed (List Byte) :=
  let off := c % u.dataLen
  let k := min n (u.dataLen - off)
  match hubRead s p asid (u.base + 64 + off) k with
  | (s, .error f) => (s, .error f)
  | (s, .ok a) =>
    match hubRead s p asid (u.base + 64) (n - k) with
    | (s, .error f) => (s, .error f)
    | (s, .ok b) => (s, .ok (a ++ b))

/-- The header stands in the ring: its checks, then the rest of the packet and its checks (R363). -/
def headWith (s : State) (p asid : Nat) (u : Queue) (wptr rptr : Nat) : State × Head :=
  let addr := u.base + 64 + rptr % u.dataLen
  let avail := (wptr + 2 ^ 64 - rptr) % 2 ^ 64
  match ringRead s p asid u rptr 16 with
  | (s, .error f) => (s, .bad cCMDOP f)
  | (s, .ok h) =>
    if packetLen h = 0 || u.dataLen < packetLen h then (s, .bad cCMDLEN (addr, flt cCMDLEN))
    else if headerBad h then (s, .bad cCMDOP (addr, flt cCMDOP))
    else if avail < packetLen h then (s, .empty)
    else
      match ringRead s p asid u rptr (packetLen h) with
      | (s, .error f) => (s, .bad cCMDOP f)
      | (s, .ok pk) => if bodyBad pk then (s, .bad cCMDOP (addr, flt cCMDOP)) else (s, .whole addr pk)

/-- The packet at a queue's head: a started one from the bytes that are held, else one read from the ring. -/
def readHead (s : State) (p q : Nat) : State × Head :=
  let u := s.queue q
  match u.held with
  | some (a, pk) => (s, .whole a pk)
  | none =>
    if !u.ringOk then (s, .empty)
    else
      let asid := (s.part p).ringAsid
      match hubRead s p asid u.base 16 with
      | (s, .error f) => (s, .bad cCMDOP f)
      | (s, .ok h) =>
        if (fieldAt h 0 8 + 2 ^ 64 - fieldAt h 8 8) % 2 ^ 64 < 16 then (s, .empty)
        else headWith s p asid u (fieldAt h 0 8) (fieldAt h 8 8)

/-- Everything a queue keeps of a packet that leaves its head. -/
def Queue.leave (u : Queue) : Queue :=
  { u with held := none, launch := none, wiped := false, wait := none, qsched := u.qsched &&& 0xDFFFFFFF }

/-- A unit of a queue that held back the others of its partition is gone: it was placed, or it will not be (R305). -/
def State.unblock (s : State) (p q : Nat) : State :=
  s.modPart p fun r => if r.blocked = some q then { r with blocked := none } else r

/-- The packet leaves the head: its length is added to RPTR in the header that QRING names now, unless a QRST came since it
started (R361). The access may fail (R398). -/
def consume (s : State) (p q len : Nat) : State :=
  let u := s.queue q
  let done (s : State) : State := (s.modQueue q Queue.leave).unblock p q
  if u.wiped then done s
  else
    let asid := (s.part p).ringAsid
    match hubRead s p asid (u.base + 8) 8 with
    | (s, .error f) => commandFault s p q cCMDOP f
    | (s, .ok b) =>
      match hubWrite s p asid (u.base + 8) (leBytes 8 (leNat b + len)) with
      | (s, some f) => commandFault s p q cCMDOP f
      | (s, none) => done s

/-! ## The records of a launch (R43–R45, R130, R365) -/

/-- A reserved value in a format slot (R130). -/
def slotBad (x : DWord) : Bool :=
  let n := x.toNat
  n / 65536 != 0 || decide (1 < bitsAt n 13 3) || bitsAt n 8 2 == 3 || decide (7 < bitsAt n 0 4) ||
    (bitsAt n 13 3 == 1 && bitsAt n 0 4 != 4 && bitsAt n 0 4 != 6)

/-- What of a launch record can be checked without the kernel's header (R13, R130, R350, R365). -/
def recordBad (r : List Byte) : Bool :=
  let fl := fieldAt r 51 1
  let dims := [fieldAt r 32 4, fieldAt r 36 4, fieldAt r 40 4]
  !zeroAt r 108 4 || !zeroAt r 192 64 || decide (1024 ≤ fieldAt r 26 2) || decide (64 ≤ fl) || bitsAt fl 2 2 == 3 ||
    decide (16 < fieldAt r 50 1) || bitsAt (fieldAt r 28 4) 22 10 != 0 || bitsAt (fieldAt r 28 4) 7 1 != 0 ||
    [56, 64].any (fun o => fieldAt r o 8 % 64 != 0 || decide (2 ^ 55 ≤ fieldAt r o 8)) || dims.any (fun x => x == 0) ||
    decide (2 ^ 32 ≤ dims.foldl (fun n x => n * x) 1) || fieldAt r 0 8 % 64 != 0 ||
    (List.range 8).any fun k => slotBad (BitVec.ofNat 64 (fieldAt r (128 + 8 * k) 8))

/-- May a partition use an address space (R286)? -/
def asidOk (s : State) (p asid : Nat) : Bool :=
  let e := leNat (memRead s.ms.mem (s.hub.asidt.toNat + 8 * asid) 8)
  bitsAt e 0 1 == 1 && bitsAt e 48 12 == 0 && bitsAt e 1 15 == 0 && bitsAt e 60 4 == p

/-- The ASID's entry is read (R286, R292): whether it can be, and gives the partition the address space. -/
def asidRead (s : State) (p asid : Nat) : State × Bool :=
  let (s, bad) := eccRead s p (s.hub.asidt.toNat + 8 * asid) 8
  (s, !bad && asidOk s p asid)

/-- The launch record and the kernel header as one, zero fields resolved (R45). -/
def recordOf (r h : List Byte) : LaunchRec :=
  let w0 := fieldAt h 0 4
  let pick (x y : Nat) : Nat := if x = 0 then y else x
  { kaddr := fieldAt r 0 8, caddr := fieldAt r 8 8, csize := fieldAt r 16 4, scratch := pick (fieldAt r 20 4) (fieldAt h 4 4),
    acc := pick (fieldAt r 24 1) (fieldAt h 10 1), pool := pick (fieldAt r 25 1) (fieldAt h 9 1), asid := fieldAt r 26 2,
    cslr := BitVec.ofNat 32 (fieldAt r 28 4), gx := fieldAt r 32 4, gy := fieldAt r 36 4, gz := fieldAt r 40 4,
    dx := fieldAt r 44 2, dy := fieldAt r 46 2, dz := fieldAt r 48 2, gangsz := fieldAt r 50 1,
    flags := BitVec.ofNat 8 (fieldAt r 51 1), tlim := fieldAt r 52 4, whnd := fieldAt r 56 8, mhnd := fieldAt r 64 8,
    trec := fieldAt r 72 8, tsys := fieldAt r 80 8, tque := fieldAt r 88 8, paddr := fieldAt r 96 8,
    psize := fieldAt r 104 4, grpmask := BitVec.ofNat 64 (fieldAt r 112 8), stat := fieldAt r 120 8,
    slots := (List.range 8).map fun k => BitVec.ofNat 64 (fieldAt r (128 + 8 * k) 8),
    width := 16 * 2 ^ bitsAt w0 14 2, c16 := bitsAt w0 16 1 == 1, win := 16 + 8 * bitsAt w0 11 3,
    hasMcc := bitsAt w0 10 1 == 1, mccOff := fieldAt h 12 4 }

/-- A kernel header that R43–R45 refuse. -/
def kernelBad (h : List Byte) : Bool :=
  let w0 := fieldAt h 0 4
  bitsAt w0 24 8 != 0xA9 || bitsAt w0 17 7 != 0 || bitsAt w0 0 10 != 0 || bitsAt w0 14 2 == 3 || bitsAt w0 11 3 == 7 ||
    (bitsAt w0 16 1 == 1 && bitsAt w0 14 2 != 1) || (bitsAt w0 10 1 == 1) != (fieldAt h 12 4 != 0) ||
    decide (524288 < fieldAt h 4 4) || fieldAt h 4 4 % 128 != 0 || decide (128 < fieldAt h 10 1) || !zeroAt h 11 1 ||
    !zeroAt h 8 1 || !zeroAt h 16 48

/-- Record and header together: sizes below the header's or beyond the range, and block dimensions (R12, R45). -/
def sizesBad (r h : List Byte) (l : LaunchRec) : Bool :=
  let low (x y : Nat) : Bool := x != 0 && decide (x < y)
  let n := l.dx * l.dy * l.dz
  low (fieldAt r 20 4) (fieldAt h 4 4) || low (fieldAt r 24 1) (fieldAt h 10 1) || low (fieldAt r 25 1) (fieldAt h 9 1) ||
    decide (524288 < l.scratch) || l.scratch % 128 != 0 || decide (128 < l.acc) || n == 0 || n % l.width != 0 || decide (2048 < n)

/-- Can no cluster ever hold a block, or no die of the partition a gang (R28)? -/
def unplaceable (s : State) (p : Nat) (l : LaunchRec) : Bool :=
  !fitTogether [l] ||
    (l.gangsz != 0 && (List.range 4).all fun d => decide ((clustersOn s p d).length < min l.gangsz l.nblocks))

/-- Entry g of a partition's group table: NRANK, RBASE, RCNT, or none when it is not valid (R220). -/
def groupRow (s : State) (p g : Nat) : Option (Nat × Nat × Nat) :=
  let b := memRead s.ms.mem (bitsAt (s.part p).gtbase.toNat 12 36 * 4096 + 64 * g) 64
  let n := fieldAt b 0 2
  let base := fieldAt b 2 2
  let cnt := fieldAt b 4 2
  if fieldAt b 6 1 = 1 && zeroAt b 7 1 && zeroAt b 16 48 && 1 ≤ n && n ≤ 1024 && base < n && 1 ≤ cnt && base + cnt ≤ n &&
      fieldAt b 8 8 % 2 = 0 then some (n, base, cnt)
  else none

/-- A group's entry and its module numbers are read (R220, R292): none where they cannot be, or where it may not be bound. -/
def groupRead (s : State) (p g : Nat) : State × Option (Nat × Nat × Nat × List Nat) :=
  let a := bitsAt (s.part p).gtbase.toNat 12 36 * 4096 + 64 * g
  match eccRead s p a 64 with
  | (s, true) => (s, none)
  | (s, false) =>
    match groupRow s p g with
    | none => (s, none)
    | some e =>
      let rmap := fieldAt (memRead s.ms.mem a 64) 8 8
      let (s, bad) := eccRead s p rmap (2 * e.1)
      let mods := (List.range e.1).map fun r => leNat (memRead s.ms.mem (rmap + 2 * r) 2)
      let bound := s.launches.any fun x => x.part = p && x.groups.any fun y => y.1 = g
      (s, if bad || bound then none else some (e.1, e.2.1, e.2.2, mods))

/-- The groups a launch binds, or none when one may not be bound (R220). -/
def bindGroups (s : State) (p : Nat) (mask : DWord) : State × Option (List (Nat × Nat × Nat × Nat × List Nat)) :=
  ((List.range 64).filter fun g => mask.getLsbD g).foldl (fun (x : State × Option (List (Nat × Nat × Nat × Nat × List Nat))) g =>
    match x with
    | (s, none) => (s, none)
    | (s, some l) =>
      match groupRead s p g with
      | (s, some e) => (s, some (l ++ [(g, e)]))
      | (s, none) => (s, none)) (s, some [])

/-- Can every page of the constant segment be read (R45, R398)? Fuel: the pages left. -/
def pagesReadable (s : State) (p asid va : Nat) : Nat → State × Option Failed
  | 0 => (s, none)
  | n + 1 =>
    match hubRead s p asid va 1 with
    | (s, .error f) => (s, some f)
    | (s, .ok _) => pagesReadable s p asid (va / 65536 * 65536 + 65536) n

/-- Pages a segment touches. -/
def pagesOf (va n : Nat) : Nat := if n = 0 then 0 else (va + n - 1) / 65536 - va / 65536 + 1

/-- The copies a LAUNCH packet lists: operand block and direction. -/
def copiesOf (pk : List Byte) : List (List Word × Nat) :=
  if packetType pk != 1 then []
  else (List.range (fieldAt pk 40 8)).map fun k =>
    ((List.range 8).map fun j => BitVec.ofNat 32 (fieldAt pk (48 + 48 * k + 4 * j) 4), fieldAt pk (80 + 48 * k) 1)

/-- A launch as it begins (R300, R365). -/
def newLaunch (s : State) (p q grid raddr : Nat) (l : LaunchRec) (pk : List Byte) (node : Option (Nat × Nat))
    (groups : List (Nat × Nat × Nat × Nat × List Nat)) (log : Option PeatLog) : Launch :=
  { part := p, grid := grid, queue := q, raddr := raddr, lr := l, next := 0, noMore := false, started := false, inRun := false,
    leaves := false, first := 0, copies := copiesOf pk, bundle := copiesOf pk, sigc := packetType pk = 1 && packetSigc pk, sigAddr := fieldAt pk 24 8,
    sigVal := BitVec.ofNat 64 (fieldAt pk 32 8), node := node, begin_ := s.dtime, fault := false, peatovf := false,
    repdiv := false, tlimit := false, energy := 0, sFault := 0, sIo := 0, sExec := 0, tend := 0, stage := 0, stuck := none,
    peat := match log with
      | some x => x.entries.map fun e => { e with used := false }
      | none => [],
    prefix_ := log.any fun x => x.ovf, groups := groups, again := [] }

/-- May the copies of a bundle be issued for its block 0 (R206, R364)? -/
def copiesOk (l : Launch) : Bool :=
  let b := newBlock l { part := l.part, grid := l.grid, blk := 0 } 0 []
  l.bundle.all fun e => cpaOk b e.1 e.2 && (e.2 != 2 || b.mcc.isSome)

/-- The bytes of a peat log (log 25). -/
def PeatLog.bytes (x : PeatLog) : List Byte := (List.range x.size).map (Config.peatByte x.seed)

/-- The peat log that a REPLAY launch consumes (R351): the one whose bytes stand at the address and size its record names; none where
they cannot be read, or are no log. -/
def peatRead (s : State) (p : Nat) (l : LaunchRec) : State × Option PeatLog :=
  if !l.flags.getLsbD 3 then (s, none)
  else
    match hubRead s p l.asid l.paddr l.psize with
    | (s, .error _) => (s, none)
    | (s, .ok b) => (s, s.peats.reverse.find? fun x => decide (x.size ≤ l.psize) && x.bytes == b.take x.size)

/-- Discard the instruction-cache lines tagged with an address space, in every cluster (R289). -/
def dropFetched (s : State) (asid : Nat) : State :=
  s.modMs fun ms => { ms with icache := ms.icache.filter fun e => e.asid != asid }

/-- The next launch ID (R397). -/
def gridAfter (g : Word) : Word := if g + 1 == 0 then 1 else if g + 1 == 0xFFFFFFFF then 1 else g + 1

/-- Begin a launch from its record (R363, R397): the checks, then its ID; the instruction caches are discarded of its address space
(R289). `hdr` is the packet's address, to which a refusal is charged. -/
def beginLaunch (s : State) (p q raddr hdr : Nat) (pk : List Byte) (node : Option (Nat × Nat)) :
    State × Except Failed Nat :=
  let no : Except Failed Nat := .error (hdr, flt cCMDOP)
  if raddr % 64 != 0 then (s, no)
  else
    match hubRead s p (s.part p).ringAsid raddr 256 with
    | (s, .error f) => (s, .error f)
    | (s, .ok r) =>
      if recordBad r then (s, no)
      else
      let (s, mine) := asidRead s p (fieldAt r 26 2)
      if !mine then (s, no)
      else
        match hubRead s p (fieldAt r 26 2) (fieldAt r 0 8) 64 with
        | (s, .error f) => (s, .error f)
        | (s, .ok h) =>
          let l := recordOf r h
          if kernelBad h || sizesBad r h l then (s, no)
          else
            match pagesReadable s p l.asid l.caddr (pagesOf l.caddr l.csize) with
            | (s, some f) => (s, .error f)
            | (s, none) =>
              match bindGroups s p l.grpmask with
              | (s, none) => (s, no)
              | (s, some gs) =>
                let g := (s.part p).nextGrid
                let (s, log) := peatRead s p l
                let x := newLaunch s p q g.toNat raddr l pk node gs log
                if unplaceable s p l || !copiesOk x then (s, no)
                else
                  let s := dropFetched s l.asid
                  ({ s.modPart p (fun r => { r with nextGrid := gridAfter g }) with launches := s.launches ++ [x] },
                    .ok g.toNat)

end Sys2Proof.Machine
end

