-- ==== Sys2Proof/Machine/Graphs.lean ====
section
/-! DEFINITION. Device-resident graphs: their checks, the start of nodes, loops, and the graph's completion (R302, R303, R386,
R387). -/
namespace Sys2Proof.Machine
open Sys2Proof

/-! ## Reading a graph (R386) -/

/-- A node from its 64 bytes. -/
def nodeOf (b : List Byte) : Node :=
  { kind := fieldAt b 0 1, body := bitsAt (fieldAt b 1 1) 0 1 == 1, pred := BitVec.ofNat 64 (fieldAt b 8 8),
    addr := fieldAt b 16 8, value := BitVec.ofNat 64 (fieldAt b 24 8), op := fieldAt b 32 1 }

/-- A node that breaks its own layout, at index j. -/
def nodeBad (b : List Byte) (j : Nat) : Bool :=
  let n := nodeOf b
  n.kind = 0 || 4 < n.kind || decide (1 < fieldAt b 1 1) || !zeroAt b 2 6 || !zeroAt b 33 31 ||
    decide (n.pred.toNat / 2 ^ j ≠ 0) || decide (1 < n.op) || (n.op != 0 && n.kind != 2) || (n.kind = 1 && n.value != 0) ||
    (n.kind = 4 && decide (n.value.toNat / 2 ^ 48 ≠ 0))

/-- FIRST and NB of a loop. -/
def Node.first (n : Node) : Nat := bitsAt n.value.toNat 32 8
/-- NB of a loop. -/
def Node.count (n : Node) : Nat := bitsAt n.value.toNat 40 8
/-- Does the body range of a loop hold a node? -/
def Node.holds (n : Node) (i : Nat) : Bool := n.kind == 4 && decide (n.first ≤ i) && decide (i < n.first + n.count)

/-- The innermost loop whose range holds a node. -/
def innermost (l : List Node) (i : Nat) : Option Nat :=
  (List.range l.length).foldl (fun best j =>
    match l[j]?, best with
    | some n, none => if n.holds i then some j else none
    | some n, some k => (match l[k]? with
      | some m => if n.holds i && decide (n.count < m.count) then some j else some k
      | none => some k)
    | none, _ => best) none

/-- Do two loops' ranges cross, or does one lie inside another without its node, or not inside the one that holds its node (R386)? -/
def rangesBad (l : List Node) (a b : Nat) : Bool :=
  match l[a]?, l[b]? with
  | some x, some y =>
    let lo := max x.first y.first
    let hi := min (x.first + x.count) (y.first + y.count)
    let inside := decide (y.first ≤ x.first) && decide (x.first + x.count ≤ y.first + y.count)
    let outside := decide (x.first ≤ y.first) && decide (y.first + y.count ≤ x.first + x.count)
    if x.kind != 4 || y.kind != 4 || a = b || x.count = 0 then false
    else (y.holds a && !inside) || (decide (lo < hi) && ((!inside && !outside) || (inside && !y.holds a)))
  | _, _ => false

/-- A graph whose nodes break a rule of R386. -/
def graphBad (l : List Node) : Bool :=
  let n := l.length
  let idx := List.range n
  idx.any fun j =>
    match l[j]? with
    | none => true
    | some x =>
      (x.kind = 4 && (decide (n < x.first + x.count) || x.holds j ||
        idx.any fun i => x.holds i && !((l[i]?).any fun y => y.body))) ||
      (x.body && (innermost l j).isNone) ||
      (idx.any fun i => x.pred.getLsbD i && innermost l i != innermost l j) ||
      idx.any fun b => rangesBad l j b

/-- Read a graph: its nodes, or the access or check that fails (R386, R398). -/
def readGraph (s : State) (p addr hdr : Nat) : State × Except Failed (List Node) :=
  let no : Except Failed (List Node) := .error (hdr, flt cCMDOP)
  let asid := (s.part p).ringAsid
  if addr % 64 != 0 then (s, no)
  else
    match hubRead s p asid addr 64 with
    | (s, .error f) => (s, .error f)
    | (s, .ok h) =>
      let n := fieldAt h 0 2
      if n = 0 || 64 < n || !zeroAt h 2 62 then (s, no)
      else
        match hubRead s p asid (addr + 64) (64 * n) with
        | (s, .error f) => (s, .error f)
        | (s, .ok b) =>
          let raw (j : Nat) : List Byte := (b.drop (64 * j)).take 64
          let nodes := (List.range n).map fun j => nodeOf (raw j)
          if ((List.range n).any fun j => nodeBad (raw j) j) || graphBad nodes then (s, no) else (s, .ok nodes)

/-! ## The walk (R302, R303) -/

/-- The graph a queue walks. -/
def State.graph? (s : State) (q : Nat) : Option Graph := s.graphs.find? fun g => g.queue = q
/-- Change the graph of a queue. -/
def State.modGraph (s : State) (q : Nat) (f : Graph → Graph) : State :=
  { s with graphs := s.graphs.map fun g => if g.queue = q then f g else g }
/-- Change the run of a node. -/
def Graph.modRun (g : Graph) (j : Nat) (f : NodeRun → NodeRun) : Graph := { g with runs := lmod g.runs j f }
/-- The run of a node. -/
def Graph.run (g : Graph) (j : Nat) : NodeRun := g.runs.getD j { st := 0, iter := 0 }
/-- A node. -/
def Graph.node (g : Graph) (j : Nat) : Node := g.nodes.getD j { kind := 0, body := false, pred := 0, addr := 0, value := 0, op := 0 }

/-- The nodes of a level: the top level, or the body of a loop without the bodies of loops inside it. -/
def Graph.level (g : Graph) (loop : Option Nat) : List Nat :=
  (List.range g.nodes.length).filter fun i => innermost g.nodes i = loop && (loop.isSome || !(g.node i).body)

/-- Is the level of a node under way: top level, or its innermost loop's body runs? -/
def Graph.levelRuns (g : Graph) (j : Nat) : Bool :=
  match innermost g.nodes j with
  | none => !(g.node j).body
  | some l => (g.run l).st = 3

/-- May a node start: its level runs, it has not started, and its predecessors have completed? -/
def Graph.mayStart (g : Graph) (j : Nat) : Bool :=
  decide (j < g.nodes.length) && g.levelRuns j && (g.run j).st = 0 &&
    (List.range g.nodes.length).all fun i => !(g.node j).pred.getLsbD i || (g.run i).st = 2

/-- Is a node the lowest of those that may start (R302)? -/
def Graph.lowest (g : Graph) (j : Nat) : Bool := g.mayStart j && (List.range j).all fun i => !g.mayStart i

/-- A write of the lantern cores in stream st0 (R364, R272). -/
def hubStore0 (s : State) (part asid va : Nat) (data : List Byte) : State × Option Failed :=
  match hubWrite s part asid va data with
  | (s, none) => (tickHub s, none)
  | e => e

/-- A 64-bit word of a packet or node is set or added to, in st0 with a release at .sy (R364). -/
def signalWord (s : State) (p addr : Nat) (value : DWord) (op : Nat) : State × Option Failed :=
  let asid := (s.part p).ringAsid
  if op = 0 then hubStore0 s p asid addr (dwordBytes value)
  else
    match hubRead s p asid addr 8 with
    | (s, .error f) => (s, some f)
    | (s, .ok b) => hubStore0 s p asid addr (leBytes 8 (leNat b + value.toNat))

/-- Read a 64-bit word of the ring's address space. -/
def readWord64 (s : State) (p addr : Nat) : State × Except Failed DWord :=
  match hubRead s p (s.part p).ringAsid addr 8 with
  | (s, .error f) => (s, .error f)
  | (s, .ok b) => (s, .ok (BitVec.ofNat 64 (leNat b)))

/-- A node completes; a loop whose body's nodes have all completed has done an iteration. -/
def nodeDone (g : Graph) (j : Nat) : Graph := g.modRun j fun r => { r with st := 2 }

/-- A loop whose body has completed is ready to read its word again (R303): its iteration is counted. -/
def bodyDone (g : Graph) (l : Nat) : Bool := (g.run l).st = 3 && (g.level (some l)).all fun i => (g.run i).st = 2

/-- A queue may walk: it is not halted. -/
def mayWalk (s : State) (g : Graph) : Bool := !(s.queue g.queue).halt && !s.hub.halted

/-- A node starts: a bundle node joins the units to be placed, a signal node writes, a wait node reads its word, a loop node
goes on to its condition. A failed access halts the queue, and the node starts again once QRST has cleared the halt. -/
def startNode (s : State) (g : Graph) (j : Nat) : State :=
  let n := g.node j
  let q := g.queue
  let set (s : State) (st : Nat) : State := s.modGraph q fun g => g.modRun j fun r => { st := st, iter := if st = 1 then 0 else r.iter }
  match n.kind with
  | 1 => set (s.modGraph q fun g => { g with units := g.units ++ [j] }) 1
  | 2 =>
    (match signalWord s g.part n.addr n.value n.op with
     | (s, some f) => commandFault s g.part q cCMDOP f
     | (s, none) => set s 2)
  | 3 =>
    (match readWord64 s g.part n.addr with
     | (s, .error f) => commandFault s g.part q cCMDOP f
     | (s, .ok x) => set s (if n.value.toNat ≤ x.toNat then 2 else 1))
  | _ => set s 1

/-- A wait node that has started reads its word again. -/
def againNode (s : State) (g : Graph) (j : Nat) : State :=
  let n := g.node j
  if n.kind = 3 && (g.run j).st = 1 then
    match readWord64 s g.part n.addr with
    | (s, .error f) => commandFault s g.part g.queue cCMDOP f
    | (s, .ok x) => if n.value.toNat ≤ x.toNat then s.modGraph g.queue fun g => nodeDone g j else s
  else s

/-- GRAPH_NODE_START (R302): nodes whose predecessors are all complete start in ascending index. -/
def execGraphNodeStart (q node : Nat) (st : State) : Host.Outcome State Fault Refusal :=
  .next (match st.graph? q with
    | some g =>
      if !mayWalk st g then st
      else if g.lowest node then startNode st g node
      else againNode st g node
    | none => st)

/-- A loop node issues its body afresh: every node of the ranges inside it is to start again. -/
def issueBody (g : Graph) (l : Nat) : Graph :=
  let n := g.node l
  let g := (List.range g.nodes.length).foldl (fun g i => if n.holds i then g.modRun i fun _ => { st := 0, iter := 0 } else g) g
  g.modRun l fun r => { r with st := 3 }

/-- The condition of a loop (R303): after MAXIT iterations it completes with LMAX, else its word is read, an access in st0. -/
def loopStep (s : State) (g : Graph) (l : Nat) : State :=
  let n := g.node l
  let it := (g.run l).iter + (if (g.run l).st = 3 then 1 else 0)
  let maxit := n.value.toNat % 2 ^ 32
  let put (s : State) (f : Graph → Graph) : State :=
    s.modGraph g.queue fun g => f (g.modRun l fun r => { r with st := 1, iter := it })
  if maxit != 0 && maxit ≤ it then put s fun g => { nodeDone g l with lmax := true }
  else
    match hubRead s g.part (s.part g.part).ringAsid n.addr 4 with
    | (s, .error f) => commandFault s g.part g.queue cCMDOP f
    | (s, .ok b) =>
      let s := tickHub s
      if leNat b = 0 then put s fun g => nodeDone g l else put s fun g => issueBody g l

/-- LOOP_CONDITION_READ (R303): before each iteration, the first included, once the previous one has completed. -/
def execLoopConditionRead (q node : Nat) (st : State) : Host.Outcome State Fault Refusal :=
  .next (match st.graph? q with
    | some g =>
      if mayWalk st g && (g.node node).kind = 4 && ((g.run node).st = 1 || bodyDone g node) then loopStep st g node else st
    | none => st)

/-- A GRAPH packet is processed: the graph is read and checked, and its walk begins (R302, R386). -/
def startGraph (s : State) (p q addr : Nat) (pk : List Byte) : State :=
  match readGraph s p (fieldAt pk 16 8) addr with
  | (s, .error f) => commandFault s p q cCMDOP f
  | (s, .ok nodes) =>
    let g : Graph :=
      { queue := q, part := p, nodes := nodes, runs := nodes.map fun _ => { st := 0, iter := 0 }, sigc := packetSigc pk,
        sigAddr := fieldAt pk 24 8, sigVal := BitVec.ofNat 64 (fieldAt pk 32 8), stat := fieldAt pk 40 8, fault := false,
        lmax := false, energy := 0, units := [], stage := 0 }
    { s.modQueue q (fun u => { u with held := some (addr, pk) }) with graphs := s.graphs ++ [g] }

/-! ## Completion (R302) -/

/-- The graph's status. -/
def graphStatus (g : Graph) : List Byte := leBytes 4 (g.fault.toNat + g.lmax.toNat * 8) ++ leBytes 4 0 ++ leBytes 8 g.energy

/-- The writes of a graph's completion, from the one that is next: its status, its signal, then RPTR. -/
def finishGraph (s : State) (g : Graph) : State :=
  let q := g.queue
  let asid := (s.part g.part).ringAsid
  let (s, f) := if g.stage = 0 && g.stat != 0 then hubWrite s g.part asid g.stat (graphStatus g) else (s, none)
  match f with
  | some f => commandFault s g.part q cCMDOP f
  | none =>
    let s := s.modGraph q fun g => { g with stage := max 1 g.stage }
    let (s, f) := if g.stage ≤ 1 && g.sigc then hubWrite s g.part asid g.sigAddr (dwordBytes g.sigVal) else (s, none)
    match f with
    | some f => commandFault s g.part q cCMDOP f
    | none =>
      let s := s.modGraph q fun g => { g with stage := 2 }
      let len := match (s.queue q).held with
        | some (_, pk) => packetLen pk
        | none => 0
      let s := consume s g.part q len
      if (s.queue q).held.isNone then { s with graphs := s.graphs.filter fun x => x.queue != q } else s

/-- GRAPH_COMPLETION (R302): every node has completed. -/
def execGraphCompletion (q : Nat) (st : State) : Host.Outcome State Fault Refusal :=
  .next (match st.graph? q with
    | some g => if mayWalk st g && (g.level none).all (fun i => (g.run i).st = 2) then finishGraph st g else st
    | none => st)

end Sys2Proof.Machine
end

