-- ==== Sys2Proof/Machine/Rounds.lean ====
section
/-! DEFINITION. Arbitration (R296–R300, R305), the packets of R364, RESYNC and FWACT (R333, R353, R369, R370). -/
namespace Sys2Proof.Machine
open Sys2Proof

/-! ## What a queue has to do -/

/-- The work at a queue's head. -/
inductive Work where
  /-- A killed gang of a launch goes back to its place (R308). -/
  | again (grid first : Nat)
  /-- The next unit of a LAUNCH packet. -/
  | unit (addr : Nat) (pk : List Byte)
  /-- The next unit of a bundle node of the queue's graph. -/
  | node (j addr : Nat) (pk : List Byte)
  /-- A packet to be processed. -/
  | packet (addr : Nat) (pk : List Byte)

/-- Does the work place a unit? -/
def Work.places : Work → Bool
  | .packet _ _ => false
  | _ => true

/-- Does the work place a unit for the first time? -/
def Work.isNew : Work → Bool
  | .again _ _ => false
  | _ => true

/-- The packet type of the work. -/
def Work.type : Work → Nat
  | .again _ _ => 1
  | .unit _ _ => 1
  | .node _ _ _ => 2
  | .packet _ pk => packetType pk

/-- A launch whose last unit has been placed, or that takes no further unit. -/
def Launch.placed (l : Launch) : Bool := l.noMore || decide (l.lr.nblocks ≤ l.next)

/-- The launch of a queue's LAUNCH packet. -/
def launchAt (s : State) (p q : Nat) : Option Launch := ((s.queue q).launch).bind fun g => s.launch? p g

/-- The packet at a queue's head leaves it. -/
def takeHead (s : State) (p q : Nat) : State :=
  match readHead s p q with
  | (s, .whole _ pk) => consume s p q (packetLen pk)
  | (s, .bad c f) => commandFault s p q c f
  | (s, .empty) => s

/-- A LAUNCH packet whose launch has placed its last unit, or has ended, leaves the head (R296). -/
def leaveHead (s : State) (p q : Nat) : State :=
  if (s.queue q).launch.isNone || (s.queue q).halt || (launchAt s p q).any (fun l => !l.placed) then s else takeHead s p q

/-- May a queue take part in arbitration (R296)? -/
def queueOn (s : State) (p q : Nat) : Bool :=
  let u := s.queue q
  u.en && !u.halt && (!phsw s p || (u.qsched.getLsbD 28).toNat = (s.part p).phase)

/-- The work of a queue: nothing for a walk without a unit to place, a blocked WAIT, or a FWACT that is held. -/
def workOf (s : State) (p q : Nat) : State × Option Work :=
  let s := leaveHead s p q
  if !queueOn s p q then (s, none)
  else
    match s.launches.find? fun l => l.part = p && l.queue = q && !l.again.isEmpty with
    | some l => (s, some (.again l.grid (l.again.headD 0)))
    | none =>
      match readHead s p q with
      | (s, .empty) => (s, none)
      | (s, .bad c f) => (commandFault s p q c f, none)
      | (s, .whole a pk) =>
        if (s.queue q).halt then (s, none)
        else match packetType pk with
          | 1 => (s, some (.unit a pk))
          | 2 =>
            (match s.graph? q with
             | some g => (s, (g.units.head?).map fun j => .node j a pk)
             | none => (s, some (.packet a pk)))
          | 4 => (s, if (s.queue q).blk then none else some (.packet a pk))
          | 7 => (s, if (s.part p).fwPending.any fun e => e.2 = q then none else some (.packet a pk))
          | _ => (s, some (.packet a pk))

/-- A queue that has nothing to do is no longer runnable (R298). -/
def noteIdle (s : State) (p q : Nat) : State :=
  match workOf s p q with
  | (s, none) => s.modQueue q fun u => { u with was := false }
  | (s, some _) => s

/-- The LAUNCH packets of launches that have been ended leave the head at once, and no unit of them holds others back (R296);
a queue that this leaves without work is no longer runnable (R298). What a step that ended a launch leaves to the next one. -/
def settleEnded (s : State) : State :=
  (s.launches.filter fun l => l.leaves).foldl (fun s l =>
    let s := (s.modLaunch l.part l.grid fun x => { x with leaves := false }).unblock l.part l.queue
    let s := if (s.queue l.queue).launch = some l.grid then takeHead s l.part l.queue else s
    if (s.queue l.queue).was then noteIdle s l.part l.queue else s) s

/-- The runnable queues of a partition with their work, ascending. -/
def works (s : State) (p : Nat) : State × List (Nat × Work) :=
  (queuesOf s p).foldl (fun (e : State × List (Nat × Work)) q =>
    match workOf e.1 p q with
    | (s, some w) => (s, e.2 ++ [(q, w)])
    | (s, none) => (s, e.2)) (s, [])

/-! ## Passes (R297–R299) -/

/-- The lowest pass of a list of queues. -/
def lowestPass (s : State) (l : List Nat) : Option Nat :=
  l.foldl (fun best q =>
    match best with
    | none => some (s.queue q).qpass.toNat
    | some x => some (min x (s.queue q).qpass.toNat)) none

/-- The queues that have become runnable take a pass no lower than the lowest of those that were and are (R298). -/
def noteRunnable (s : State) (p : Nat) (run : List Nat) : State :=
  let low := lowestPass s (run.filter fun q => (s.queue q).was)
  (queuesOf s p).foldl (fun t q =>
    t.modQueue q fun u =>
      if !run.contains q then { u with was := false }
      else if u.was then u
      else
        match low with
        | some x => { u with was := true, qpass := BitVec.ofNat 64 (max u.qpass.toNat x) }
        | none => { u with was := true }) s

/-- Where the tickets of a blocked queue end (R299): a runnable queue, or nowhere. Fuel: the links left. -/
def lendEnd (s : State) (p : Nat) (run seen : List Nat) : Nat → Nat → Option Nat
  | 0, _ => none
  | n + 1, q =>
    match (s.queue q).wait with
    | none => none
    | some (_, _, o) =>
      if seen.contains o || !queueIn s p o then none
      else if run.contains o then some o
      else if (s.queue o).blk && !(s.queue o).halt then lendEnd s p run (o :: seen) n o
      else none

/-- EffTickets of a runnable queue (R297, R299). -/
def effTickets (s : State) (p : Nat) (run : List Nat) (q : Nat) : Nat :=
  let lent := ((queuesOf s p).filter fun b =>
    (s.queue b).blk && lendEnd s p run [b] 8 b = some q).foldl (fun n b => n + (s.queue b).tickets) 0
  min 4096 ((s.queue q).tickets + lent)

/-- QPASS advances by the stride for each block placed (R297). -/
def chargeQueue (s : State) (q eff n : Nat) : State :=
  s.modQueue q fun u => { u with qpass := u.qpass + BitVec.ofNat 64 (2 ^ 20 / eff * n) }

/-- Insert a queue in the order of passes, then numbers. -/
def insertPass (s : State) (e : Nat × Work) : List (Nat × Work) → List (Nat × Work)
  | [] => [e]
  | x :: r =>
    if (s.queue x.1).qpass.toNat ≤ (s.queue e.1).qpass.toNat then x :: insertPass s e r else e :: x :: r

/-- The runnable queues in the order in which a round considers them. -/
def byPass (s : State) (l : List (Nat × Work)) : List (Nat × Work) := l.foldl (fun acc e => insertPass s e acc) []

/-! ## Placing a unit (R300, R304, R396) -/

/-- What came of an attempt to place a unit. -/
inductive Try where
  /-- Held back: the round passes on (R314, R396). -/
  | held
  /-- It does not fit (R305). -/
  | full
  /-- The packet, or the record it names, is refused. -/
  | refused
  /-- So many blocks of a launch have been placed. -/
  | placed (grid n : Nat)

/-- Place the next unit of a launch. -/
def placeUnit (s : State) (l : Launch) : Option (State × Nat) :=
  let n := (unitBlocks l l.next).length
  let t := if l.lr.gangsz = 0 then giveTask s l l.next else placeGang s l l.next
  t.map fun t =>
    (t.modLaunch l.part l.grid fun x => { x with next := x.next + n, noMore := x.noMore || decide (x.lr.nblocks ≤ x.next + n) }, n)

/-- The launch that the work of a queue places: the one begun already, else a new one. -/
def workLaunch (s : State) (p q : Nat) (w : Work) : State × Except Failed (Option Launch) :=
  let fresh (s : State) (raddr addr : Nat) (pk : List Byte) (node : Option (Nat × Nat)) : State × Except Failed (Option Launch) :=
    match beginLaunch s p q raddr addr pk node with
    | (s, .error f) => (s, .error f)
    | (s, .ok g) =>
      (if node.isNone then s.modQueue q fun u => { u with launch := some g } else s, .ok (s.launch? p g))
  match w with
  | .again g _ => (s, .ok (s.launch? p g))
  | .unit a pk =>
    (match launchAt s p q with
     | some l => (s, .ok (some l))
     | none => fresh s (fieldAt pk 16 8) a pk none)
  | .node j a pk =>
    (match s.launches.find? fun l => l.part = p && l.node = some (q, j) && l.stage = 0 with
     | some l => (s, .ok (some l))
     | none => fresh s (((s.graph? q).map fun g => (g.node j).addr).getD 0) a pk (some (q, j)))
  | .packet _ _ => (s, .ok none)

/-- After a unit of a packet or node has been placed: the packet has started; when its last unit is placed it leaves. -/
def unitPlaced (s : State) (p q : Nat) (w : Work) (l : Launch) : State :=
  match w with
  | .unit a pk => leaveHead (s.modQueue q fun u => { u with held := some (u.held.getD (a, pk)) }) p q
  | .node j _ _ =>
    if (s.launch? p l.grid).any Launch.placed then
      s.modGraph q fun g => { g with units := g.units.filter fun x => x != j }
    else s
  | .again _ _ => s.modLaunch p l.grid fun l => { l with again := l.again.drop 1 }
  | .packet _ _ => s

/-- Try the unit of a queue. -/
def tryUnit (s : State) (p q : Nat) (w : Work) : State × Try :=
  match workLaunch s p q w with
  | (s, .error f) => (commandFault s p q cCMDOP f, .refused)
  | (s, .ok none) => (s, .held)
  | (s, .ok (some l)) =>
    if placeHeld s l then (s, .held)
    else
      match w with
      | .again _ first =>
        (match placeGang s l first with
         | some t => (unitPlaced t p q w l, .placed l.grid (unitBlocks l first).length)
         | none => (s, .full))
      | _ =>
        match placeUnit s l with
        | some (t, n) => (unitPlaced t p q w l, .placed l.grid n)
        | none => (s, .full)

/-! ## The run of rounds that makes a first placement round (R300) -/

/-- The run of a partition ends; the blocks it has placed are the launch's first placement round. -/
def endRun (s : State) (p : Nat) : State :=
  match (s.part p).run with
  | some g => (s.modLaunch p g fun l => { l with inRun := false }).modPart p fun r => { r with run := none }
  | none => s

/-- A round has placed n blocks of a launch, the first of them for the first time when `new` says so: it begins or goes on with a
run, which the last unit ends. -/
def noteRun (s : State) (p grid n : Nat) (new : Bool) : State :=
  let on := (s.part p).run = some grid
  let s := if on then s else endRun s p
  match s.launch? p grid with
  | some l =>
    let begins := new && l.next = n
    let s := if on || begins then s.modLaunch p grid fun l => { l with first := l.next } else s
    if l.placed then endRun s p
    else if begins then
      (s.modLaunch p grid fun l => { l with inRun := true }).modPart p fun r => { r with run := some grid }
    else s
  | none => s

/-! ## RESYNC and FWACT (R333, R369, R370) -/

/-- Layouts of the save images of a partition. -/
def imageLayouts (s : State) (p : Nat) : List Nat := (images s p).map fun e => leNat (memRead s.ms.mem (e.1 + 4) 2)

/-- The first layout of an image of the partition that the image of a slot does not accept (R333). -/
def blockingLayout (s : State) (p slot : Nat) : Option Nat :=
  let ok := Config.fwLayouts (BitVec.ofNat 32 (fieldAt (imgHeader (s.hub.flash slot)) 8 4))
  (imageLayouts s p).find? fun l => !ok.contains l

/-- HOLD of a summary, its layout and its queue (R333, R369): a FWACT that an image blocks now, else what the last one left. -/
def holdNow (s : State) (p : Nat) : Nat × Nat × Nat :=
  let r := s.part p
  (r.fwPending.findSome? fun e => (blockingLayout s p e.1).map fun lay => (3, lay, e.2)).getD (r.hold, r.holdLay, r.holdQ)

/-- The 128-byte summary of a partition. -/
def summary (s : State) (p : Nat) : List Byte :=
  let r := s.part p
  let (hold, lay, hq) := holdNow s p
  let qs := queuesOf s p
  let n := ringSize (r.fqctl.toNat % 65536)
  let defined := ((List.range 16).filter fun i => (s.part i).partctl.getLsbD 31).length
  wordBytes s.hub.fwver ++ leBytes 1 p ++ leBytes 1 defined ++ leBytes 2 0 ++
    leBytes 2 (qs.filter fun q => (s.queue q).en).length ++ leBytes 2 (qs.filter fun q => (s.queue q).halt).length ++
    leBytes 4 ((r.fqtail.toNat + n - r.fqhead.toNat % n) % n) ++
    ((List.range 8).flatMap fun i => leBytes 2 (s.hub.layouts.getD i 0)) ++ wordBytes (leaseWord s p) ++ leBytes 4 0 ++
    leBytes 8 s.dtime ++ ((List.range 4).flatMap fun i => dwordBytes (r.health.getD i 0)) ++ leBytes 1 hold ++ leBytes 1 0 ++
    leBytes 2 lay ++ leBytes 4 hq ++ dwordBytes r.deveacc ++ leBytes 32 0

/-- The completion signal of a RESYNC or FWACT packet. -/
def packetSignal (s : State) (p : Nat) (pk : List Byte) : State × Option Failed :=
  if packetSigc pk then
    hubWrite s p (s.part p).ringAsid (fieldAt pk 24 8) ((pk.drop 32).take 8)
  else (s, none)

/-- The lantern cores of a module activate the image of a slot for the FWACT at the head of queue q (R333, R370): they restart from
it, its layouts are those accepted, and the packet is consumed. -/
def activateFirmware (s : State) (p slot q : Nat) : State :=
  match readHead s p q with
  | (s, .whole _ pk) =>
    (match packetSignal s p pk with
     | (s, some f) => commandFault s p q cCMDOP f
     | (s, none) =>
       let s := (startImage s slot).modHub fun u => { u with layouts := Config.fwLayouts u.fwver }
       consume (s.modPart p fun r => { r with fwPending := r.fwPending.filter fun e => e.2 != q }) p q (packetLen pk))
  | (s, .bad c f) => commandFault s p q c f
  | (s, .empty) => s

/-- The first held FWACT of a partition that no save image blocks any longer activates (R333). -/
def activateReady (s : State) (p : Nat) : State :=
  match (s.part p).fwPending.find? fun e => (blockingLayout s p e.1).isNone && !(s.queue e.2).halt with
  | some (slot, q) => activateFirmware s p slot q
  | none => s

/-- A FWACT packet (R370): an image that fails leaves the running firmware and HOLD 1 or 2; one that verifies sets the
measurements, and activates unless a save image blocks it: then it is held. -/
def startFwact (s : State) (p q : Nat) (pk : List Byte) : State :=
  let slot := fieldAt pk 16 1
  let m := s.hub.flash slot
  if imgOk s.hub m then
    let s := (s.modHub fun u => { u with meas := measurements m }).modPart p fun r =>
      { r with fwPending := r.fwPending ++ [(slot, q)], hold := 0, holdLay := 0, holdQ := 0 }
    if (blockingLayout s p slot).isNone then activateFirmware s p slot q else s
  else
    let code := if fieldAt (imgHeader m) 0 4 = 0xA9B00700 then 1 else 2
    match packetSignal (s.modPart p fun r => { r with hold := code, holdLay := 0, holdQ := q }) p pk with
    | (s, some f) => commandFault s p q cCMDOP f
    | (s, none) => consume s p q (packetLen pk)

/-! ## Packets that place nothing (R364) -/

/-- Finish a packet whose work is done, or halt its queue for an access that failed. -/
def finishPacket (p q : Nat) (pk : List Byte) (e : State × Option Failed) : State :=
  match e with
  | (s, some f) => commandFault s p q cCMDOP f
  | (s, none) => consume s p q (packetLen pk)

/-- A WAIT packet: BLK until the word has reached the value. -/
def startWait (s : State) (p q : Nat) (pk : List Byte) : State :=
  match readWord64 s p (fieldAt pk 16 8) with
  | (s, .error f) => commandFault s p q cCMDOP f
  | (s, .ok x) =>
    if fieldAt pk 24 8 ≤ x.toNat then consume s p q (packetLen pk)
    else
      (setSched s q 29 true).modQueue q fun u =>
        { u with wait := some (fieldAt pk 16 8, BitVec.ofNat 64 (fieldAt pk 24 8), fieldAt pk 32 2) }

/-- A LEASE packet (R353): refused while the partition holds a lease or has a request pending. -/
def startLease (s : State) (p q : Nat) (pk : List Byte) : State :=
  let l := (s.part p).lease
  let asid := (s.part p).ringAsid
  let sig := fieldAt pk 24 8
  let s :=
    if l.held || l.pend.isSome then leaseWrite s p asid sig 2
    else
      (s.modPart p fun r => { r with lease := { r.lease with pend := some (min 50000 (fieldAt pk 16 4), sig, asid) } }).modHub
        fun u => { u with leaseQ := u.leaseQ ++ [p] }
  consume s p q (packetLen pk)

/-- Process a packet. -/
def process (s : State) (p q addr : Nat) (pk : List Byte) : State :=
  match packetType pk with
  | 2 => startGraph s p q addr pk
  | 3 => finishPacket p q pk (signalWord s p (fieldAt pk 16 8) (BitVec.ofNat 64 (fieldAt pk 24 8)) (fieldAt pk 32 1))
  | 4 => startWait s p q pk
  | 5 => startLease s p q pk
  | 6 =>
    (match hubWrite s p (s.part p).ringAsid (fieldAt pk 16 8) (summary s p) with
     | (s, some f) => commandFault s p q cCMDOP f
     | (s, none) => finishPacket p q pk (packetSignal s p pk))
  | 7 => startFwact s p q pk
  | 8 => finishPacket p q pk (hubStore0 s p (s.part p).ringAsid (fieldAt pk 16 8) (leBytes 8 s.dtime))
  | _ => s

/-! ## A round (R297, R305) -/

/-- Who acted in a round: the queue and its packet's type. -/
abbrev Acted := Option (Nat × Nat)

/-- Go through the queues of a round in their order until one acts. `stuck` is the queue whose unit did not fit in an earlier
round: no other queue places until that unit is placed (BACKFILL = 0). -/
def roundFrom (p : Nat) (bf : Bool) (stuck : Option Nat) (run : List Nat) : List (Nat × Work) → State → State × Acted
  | [], s => (endRun s p, none)
  | (q, w) :: rest, s =>
    let eff := effTickets s p run q
    match w with
    | .packet a pk => (chargeQueue (process (endRun s p) p q a pk) q eff 1, some (q, w.type))
    | _ =>
      if stuck.any fun b => b != q then roundFrom p bf stuck run rest s
      else
        match tryUnit s p q w with
        | (s, .held) => roundFrom p bf stuck run rest s
        | (s, .refused) => (endRun s p, some (q, w.type))
        | (s, .placed g n) => (chargeQueue (noteRun (s.unblock p q) p g n w.isNew) q eff n, some (q, w.type))
        | (s, .full) =>
          if bf then roundFrom p bf none run rest s
          else if stuck.isSome then roundFrom p bf stuck run rest s
          else (endRun (s.modPart p fun r => { r with blocked := some q }) p, none)

/-- One arbitration round of a partition: saved units first (R396), a held FWACT that may activate (R333), then the runnable
queues. -/
def round (s : State) (p : Nat) : State × Acted :=
  let s := activateReady (restoreAll s p s.blocks.length) p
  let (s, l) := works s p
  let run := l.map fun e => e.1
  let s := noteRunnable s p run
  let bf := (s.part p).schedctl.getLsbD 1
  let stuck := if bf then none else (s.part p).blocked
  let (s, a) := roundFrom p bf stuck run (byPass s l) s
  let (s, l) := works s p
  -- a queue that has nothing left is no longer runnable
  ((queuesOf s p).foldl (fun t q => if l.any (fun e => e.1 = q) then t else t.modQueue q fun u => { u with was := false }) s, a)

/-- May the lantern cores of a partition work? -/
def mayArbitrate (s : State) (p : Nat) : Bool := (s.part p).partctl.getLsbD 31 && !s.hub.halted

/-- ARBITRATION_ROUND (R297). -/
def execArbitrationRound (part : Nat) (st : State) : Host.Outcome State Fault Refusal :=
  .next (if mayArbitrate st part then (round st part).1 else st)

/-- The round of a queue's partition in which that queue acts on a packet of a type; any other round is left out. -/
def roundFor (s : State) (q type : Nat) : State :=
  match queuePart s q with
  | some p =>
    if mayArbitrate s p then
      match round s p with
      | (t, some (x, y)) => if x = q && y = type then t else s
      | (_, none) => s
    else s
  | none => s

/-- LAUNCH (R296, R300, R364): a round in which the queue's LAUNCH packet places a unit. -/
def execLaunchPk (q : Nat) (st : State) : Host.Outcome State Fault Refusal := .next (roundFor st q 1)
/-- GRAPH (R302, R364): a round in which the queue's GRAPH packet begins its walk, or places a unit of a bundle node. -/
def execGraphPk (q : Nat) (st : State) : Host.Outcome State Fault Refusal := .next (roundFor st q 2)
/-- SIGNAL (R364). -/
def execSignalPk (q : Nat) (st : State) : Host.Outcome State Fault Refusal := .next (roundFor st q 3)
/-- WAIT (R364). -/
def execWaitPk (q : Nat) (st : State) : Host.Outcome State Fault Refusal := .next (roundFor st q 4)
/-- LEASE (R353, R364). -/
def execLeasePk (q : Nat) (st : State) : Host.Outcome State Fault Refusal := .next (roundFor st q 5)
/-- RESYNC (R369). -/
def execResyncPk (q : Nat) (st : State) : Host.Outcome State Fault Refusal := .next (roundFor st q 6)
/-- FWACT (R370). -/
def execFwactPk (q : Nat) (st : State) : Host.Outcome State Fault Refusal := .next (roundFor st q 7)
/-- TIMEREC (R364). -/
def execTimerecPk (q : Nat) (st : State) : Host.Outcome State Fault Refusal := .next (roundFor st q 8)

/-- WAIT_SIGNAL_FIRES (R299, R364): the word has reached the value; BLK is cleared and the packet is consumed. -/
def execWaitSignalFires (q : Nat) (st : State) : Host.Outcome State Fault Refusal :=
  .next (match (st.queue q).wait, queuePart st q with
    | some (w, v, _), some p =>
      if (st.queue q).halt || st.hub.halted then st
      else
        (match readWord64 st p w with
         | (s, .error f) => commandFault s p q cCMDOP f
         | (s, .ok x) =>
           if v.toNat ≤ x.toNat then
             (match readHead s p q with
              | (s, .whole _ pk) => consume s p q (packetLen pk)
              | (s, .bad c f) => commandFault s p q c f
              | (s, .empty) => s)
           else s)
    | _, _ => st)

/-- QUEUE_BECOMES_RUNNABLE (R298). -/
def execQueueBecomesRunnable (q : Nat) (st : State) : Host.Outcome State Fault Refusal :=
  .next (match queuePart st q with
    | some p =>
      if !mayArbitrate st p || (st.queue q).was then st
      else
        let (s, l) := works st p
        let run := l.map fun e => e.1
        if run.contains q then
          match lowestPass s (run.filter fun x => (s.queue x).was) with
          | some x => s.modQueue q fun u => { u with was := true, qpass := BitVec.ofNat 64 (max u.qpass.toNat x) }
          | none => s.modQueue q fun u => { u with was := true }
        else s
    | none => st)

/-- FIRMWARE_ACTIVATION (R333, R370): no save image blocks a held image any longer; the lantern cores restart from it, and its
packet is consumed. -/
def execFirmwareActivation (part : Nat) (st : State) : Host.Outcome State Fault Refusal :=
  .next (if st.hub.halted then st else activateReady st part)

end Sys2Proof.Machine
end

