-- ==== Sys2Proof/Machine/Completion.lean ====
section
/-! DEFINITION. The completion of a launch: what must have happened, its time record, status and signal (R301, R347, R350,
R366, R398), and its time limit (R366). -/
namespace Sys2Proof.Machine
open Sys2Proof

/-! ## When a launch is complete (R301) -/

/-- Does an item of the export set belong to a launch? -/
def XItem.ofLaunch (p g : Nat) : XItem → Bool
  | .write w => w.key.part = p && w.key.grid = g
  | .mark m => m.key.part = p && m.key.grid = g

/-- Is no access, RED, path entry or unexported write of a launch left? -/
def memoryDone (ms : MemSys) (p g : Nat) : Bool :=
  let mine (k : Key) : Bool := k.part = p && k.grid = g
  !(ms.queue.any fun a => mine a.key) && !(ms.pool.any fun r => mine r.key) && !(ms.redm.any fun r => mine r.key) &&
    !(ms.cb.any fun c => c.owners.any fun r => mine r.key) && !(ms.paths.any fun w => mine w.key) &&
    !(ms.exports.any (XItem.ofLaunch p g))

/-- Has a launch no unit, block, task entry or copy left? -/
def unitsDone (s : State) (l : Launch) : Bool :=
  l.placed && l.again.isEmpty && l.copies.isEmpty && !(s.blocks.any fun b => b.key.part = l.part && b.key.grid = l.grid) &&
    !(s.clusters.any fun (e : Nat × Cluster) => e.2.tasks.any fun k => k.part = l.part && k.grid = l.grid)

/-- Does a launch complete (R301)? -/
def launchDone (s : State) (l : Launch) : Bool := unitsDone s l && memoryDone s.ms l.part l.grid

/-! ## What it writes -/

/-- The 64-byte time record (R347). -/
def timeRecord (l : Launch) : List Byte :=
  leBytes 8 l.lr.tsys ++ leBytes 8 l.lr.tque ++ leBytes 8 l.tend ++ leBytes 8 (l.lr.tque - l.lr.tsys) ++ leBytes 8 l.sFault ++
    leBytes 8 l.sIo ++ leBytes 8 l.sExec ++ leBytes 8 (l.tend - l.lr.tque - l.sFault - l.sIo - l.sExec)

/-- The 16-byte completion status (R366). -/
def launchStatus (l : Launch) : List Byte :=
  leBytes 4 (l.fault.toNat + l.peatovf.toNat * 2 + l.repdiv.toNat * 4 + l.tlimit.toNat * 16) ++ leBytes 4 0 ++ leBytes 8 l.energy

/-- A launch retires: its gangs, groups and collectives go, and a graph node of it completes. -/
def retire (s : State) (l : Launch) : State :=
  let s := { s with
    launches := s.launches.filter fun x => !(x.part = l.part && x.grid = l.grid)
    gangs := s.gangs.filter fun x => !(x.part = l.part && x.grid = l.grid)
    colls := s.colls.filter fun x => !(x.part = l.part && x.grid = l.grid) }
  match l.node with
  | some (q, j) =>
    s.modGraph q fun g => { nodeDone g j with fault := g.fault || l.fault, energy := g.energy + l.energy }
  | none => s

/-- One write of the completion, in the address space of the launch; one that fails waits for the answer to its record. -/
def completionWrite (s : State) (l : Launch) (va : Nat) (data : List Byte) : State :=
  match hubWrite s l.part l.lr.asid va data with
  | (s, none) => s.modLaunch l.part l.grid fun x => { x with stage := l.stage + 1 }
  | (s, some f) =>
    let seq := (s.part l.part).nextSeq
    lateWriteRecord (s.modLaunch l.part l.grid fun x => { x with stuck := some seq }) l.part l.lr.asid l.grid
      (.completion l.grid) f

/-- Go on with the writes of a launch's completion: time record, status, signal, in this order (R301, R366). Fuel: the writes
left. -/
def completionRun (p g : Nat) : Nat → State → State
  | 0, s => s
  | n + 1, s =>
    match s.launch? p g with
    | none => s
    | some l =>
      if l.stuck.isSome then s
      else match l.stage with
        | 1 => completionRun p g n (completionWrite s l l.lr.trec (timeRecord l))
        | 2 => completionRun p g n (completionWrite s l l.lr.stat (launchStatus l))
        | 3 => completionRun p g n
            (if l.sigc then completionWrite s l l.sigAddr (dwordBytes l.sigVal)
             else s.modLaunch p g fun x => { x with stage := 4 })
        | _ => retire s l

/-- A recording launch leaves its log at the address and size its record names (R350); what cannot be written there is lost
(log 25). -/
def peatWrite (s : State) (l : Launch) : State :=
  if !l.recording then s
  else
    let x : PeatLog :=
      { part := l.part, asid := l.lr.asid, addr := l.lr.paddr, size := l.lr.psize, seed := s.fresh, entries := l.peat, ovf := l.peatovf }
    match hubWrite { s with fresh := s.fresh + 1 } l.part l.lr.asid l.lr.paddr x.bytes with
    | (s, none) => { s with peats := s.peats ++ [x] }
    | (s, some _) => s

/-- The launch of a completion that may begin: its TEND is now, and its peat log is written. The replay of a log that had
overflowed ends with REPDIV, and one that leaves entries unused has diverged (R351). -/
def beginCompletion (s : State) (l : Launch) : State :=
  let left := l.replaying && !l.fault && l.peat.any fun e => !e.used
  peatWrite (s.modLaunch l.part l.grid fun x =>
    { x with stage := 1, tend := s.dtime, fault := x.fault || left, repdiv := x.repdiv || left || (x.replaying && x.prefix_) }) l

/-- LAUNCH_COMPLETION (R301). -/
def execLaunchCompletion (part grid : Nat) (st : State) : Host.Outcome State Fault Refusal :=
  .next (match st.launch? part grid with
    | some l =>
      if st.hub.halted then st
      else if l.stage = 0 then
        if launchDone st l then completionRun part grid 4 (beginCompletion st l) else st
      else completionRun part grid 4 st
    | none => st)

/-! ## The time limit (R366) -/

/-- Has a launch that has not completed passed its time limit? -/
def overTime (s : State) (l : Launch) : Bool :=
  l.lr.tlim != 0 && l.stage = 0 && !l.tlimit && decide (l.begin_ + l.lr.tlim * 1000000 ≤ s.dtime)

/-- TIME_LIMIT_EXPIRY (R366): the launch ends as ACT 1 ends one, with FAULT and TLIMIT. -/
def execTimeLimitExpiry (part grid : Nat) (st : State) : Host.Outcome State Fault Refusal :=
  .next (match st.launch? part grid with
    | some l =>
      if overTime st l then (endLaunch st part grid).modLaunch part grid fun x => { x with tlimit := true } else st
    | none => st)

end Sys2Proof.Machine
end

