-- ==== Sys2Proof/Machine/Phases.lean ====
section
/-! DEFINITION. The active sets of the pipes (R311, R312), phase contexts (R313, R314, R331), the reset of a queue (R361) and
the energy meters (R349). -/
namespace Sys2Proof.Machine
open Sys2Proof

/-! ## Active and pending warps (R309, R311, R312) -/

/-- A warp by its block and number. -/
abbrev WarpName := Key × Nat

/-- The resident warps of a pipe for which a test holds, with their names. -/
def warpsOf (s : State) (cl pipe : Nat) (f : Party → Bool) : List (WarpName × Party) :=
  (s.blocks.filter fun b => b.place = .resident cl).flatMap fun b =>
    (List.range b.warps.length).filterMap fun n =>
      match b.warps[n]? with
      | some p => if p.onPipe (s.widthOf b.key) pipe && f p then some ((b.key, n), p) else none
      | none => none

/-- A warp's place in the order of slots; at width 16 the lower half comes first. -/
def Party.place (p : Party) : Nat := 2 * p.slot + p.half

/-- The pending warp that has been ready for longest, the lowest slot on equal times. -/
def longestReady (s : State) (cl pipe : Nat) : Option (WarpName × Party) :=
  (warpsOf s cl pipe fun p => p.ws = .pending && p.since != 0).foldl (fun best e =>
    match best with
    | none => some e
    | some b =>
      if e.2.since < b.2.since || (e.2.since = b.2.since && decide (e.2.place < b.2.place)) then some e else some b) none

/-- A wait for which R311 exchanges a warp; that of a TFILL or an ADRAIN is a long one too (R174). -/
def Wait.exchanges : Wait → Bool
  | .bar _ _ => true
  | .barHeld _ _ => true
  | .gbar _ _ => true
  | .gbarHeld _ _ => true
  | .wave => true
  | .regtake => true
  | .tkw _ => true
  | .chan _ => true
  | .tile _ => true
  | .drain _ => true
  | .condRead _ => true
  | .monitor _ => true
  | .poll _ _ => true
  | _ => false

/-- Does an active warp give up its place: it has waited at a switch marker for more than LLTHR cycles, or it is WAITING in
one of the waits of R311? -/
def givesWay (cyc llthr : Nat) (p : Party) : Bool :=
  (p.since != 0 && decide (10 * llthr + p.since - 1 < cyc)) ||
    ((p.frags.all fun f => f.wait.yields) && p.frags.any fun f => f.wait.exchanges)

/-- The active warps of a pipe that give up their place, the lowest slot first. -/
def exchangeOut (s : State) (cl pipe llthr : Nat) : Option (WarpName × Party) :=
  (warpsOf s cl pipe fun p => p.ws = .active && givesWay (s.cluster cl).cyc llthr p).foldl (fun best e =>
    match best with
    | none => some e
    | some b => if e.2.place < b.2.place then some e else some b) none

/-- A warp enters the active set. -/
def activate (s : State) (w : WarpName) : State :=
  s.modParty w.1 (.warp w.2) fun p => { p with ws := .active, issues := 0, since := 0 }
/-- A warp leaves the active set. -/
def deactivate (s : State) (w : WarpName) : State := s.modParty w.1 (.warp w.2) fun p => { p with ws := .pending, since := 0 }

/-- LLTHR.CYC of the partition a cluster belongs to. -/
def llthrOf (s : State) (cl : Nat) : Nat := (s.part ((s.ownerOf cl).getD 0)).llthr.toNat % 65536

/-- WARP_EXCHANGE (R311). -/
def execWarpExchange (cluster pipe : Nat) (st : State) : Host.Outcome State Fault Refusal :=
  .next (
    if (st.cluster cluster).frozen then st
    else
      match longestReady st cluster pipe, exchangeOut st cluster pipe (llthrOf st cluster) with
      | some i, some o => activate (deactivate st o.1) i.1
      | _, _ => st)

/-- The active warp that has issued most often since it entered the set, the highest slot on equal counts. -/
def busiest (s : State) (cl pipe : Nat) : Option (WarpName × Party) :=
  (warpsOf s cl pipe fun p => p.ws = .active).foldl (fun best e =>
    match best with
    | none => some e
    | some b =>
      if b.2.issues < e.2.issues || (e.2.issues = b.2.issues && decide (b.2.place < e.2.place)) then some e else some b) none

/-- PENDING_PROMOTION (R309, R312): a pending warp enters the active set at once when there is room; one that has been ready
for 4096 issue cycles takes the place of the busiest. -/
def execPendingPromotion (cluster pipe : Nat) (st : State) : Host.Outcome State Fault Refusal :=
  .next (
    if (st.cluster cluster).frozen then st
    else
      match longestReady st cluster pipe with
      | none => st
      | some i =>
        if (warpsOf st cluster pipe fun p => p.ws = .active).length < 8 then activate st i.1
        else if 40960 + i.2.since - 1 ≤ (st.cluster cluster).cyc then
          match busiest st cluster pipe with
          | some o => activate (deactivate st o.1) i.1
          | none => st
        else st)

/-! ## Phase contexts (R313, R314) -/

/-- QTM of a phase context, in ns. -/
def qtmNs (q : Partition) (phase : Nat) : Nat := 1000 * ((if phase = 0 then q.qtm0 else q.qtm1).toNat % 2 ^ 24)

/-- Has the context that does not run any work: a runnable queue, or a block, on a cluster still or saved, that PRETGT does not
hold back there? -/
def otherWork (s : State) (p : Nat) : Bool :=
  let ph := 1 - (s.part p).phase
  let t := s.modPart p fun q => { q with phase := ph }
  (queuesOf s p).any (fun q => (workOf t p q).2.isSome) ||
    s.blocks.any fun b => inPhase s p ph b && (b.cluster?.isSome || b.bySwap || !targeted s p b.key.grid)

/-- Is a block on a cluster, and of the running context of its partition? -/
def runs (s : State) (p : Nat) (b : Block) : Bool := b.cluster?.isSome && inPhase s p (s.part p).phase b

/-- PHASE_SLICE_EXPIRY (R314): LY is set in every resident block of the running context when the other context has work; else
the slice starts again. -/
def execPhaseSliceExpiry (part : Nat) (st : State) : Host.Outcome State Fault Refusal :=
  .next (
    let q := st.part part
    if phsw st part && q.expired.isNone && decide (q.sliceEnd ≤ st.dtime) && !st.hub.halted then
      if otherWork st part then
        let s := st.modPart part fun q => { q with expired := some q.sliceEnd }
        { s with blocks := s.blocks.map fun b => if runs st part b then { b with ly := true } else b }
      else st.modPart part fun q => { q with sliceEnd := st.dtime + qtmNs q q.phase }
    else st)

/-- Have all resident blocks of the running context been halted and come to rest, on clusters that run? -/
def swapReady (s : State) (p : Nat) : Bool :=
  s.blocks.all fun b => !runs s p b || (b.halted && quiet s b && !frozenBlock s b)

/-- Save the resident blocks of the outgoing context; none when one of them fits no destination. -/
def swapOut (s : State) : List Block → Option State
  | [] => some s
  | b :: r =>
    match s.launch? b.key.part b.key.grid, b.cluster? with
    | some l, some cl =>
      (match savePlace s b l.lr (some cl) 0 with
       | some pl => swapOut ((saveBlock (writeImage s l.lr b pl) b cl pl).modBlock b.key fun b => { b with bySwap := true }) r
       | none => none)
    | _, _ => swapOut s r

/-- Restore the blocks of the incoming context: those of a shadow store to their cluster, images where their unit fits. -/
def swapIn (s : State) (p : Nat) : List Block → State
  | [] => s
  | b :: r =>
    match b.place, s.launch? p b.key.grid with
    | .shadow c, _ => swapIn (restoreSet s [(b.key, c)]) p r
    | .image _ _, some l =>
      let unit := unitOf s l b.key
      let s := match restorePlaces s p l.lr unit with
        | some ps => restoreSet s (ps.filter fun e => unit.any fun x => x.key = e.1 && x.cluster?.isNone)
        | none => s.modBlock b.key fun b => { b with bySwap := false }
      swapIn s p r
    | _, _ => swapIn s p r

/-- The registers of a partition at a swap: the slice of the incoming context, less its own last overrun; PHOVR, when the last block
has yielded in this very instant. -/
def swapPart (now : Nat) (q : Partition) : Partition :=
  let late := (q.yieldAt.getD now) - (q.expired.getD now)
  let ph := 1 - q.phase
  { q with phovr := if q.yieldAt.isSome then q.phovr else sat32 (late / 1000), overs := lmod q.overs q.phase (fun _ => late), phase := ph,
           sliceEnd := now + qtmNs q ph - q.overs.getD ph 0, expired := none, yieldAt := none }

/-- Exchange the resident set with the set that the last swap saved (R331). -/
def swap (s : State) (p : Nat) : Option State :=
  let out := s.blocks.filter (runs s p)
  let inc := s.blocks.filter fun b => b.key.part = p && b.cluster?.isNone && b.bySwap
  let shadow (b : Block) : Bool := match b.place with
    | .shadow _ => true
    | _ => false
  let isIn (b : Block) : Bool := inc.any fun x => x.key = b.key
  -- both sets move at once: the incoming set's shadow places are free for the outgoing set
  (swapOut { s with blocks := s.blocks.filter fun b => !(isIn b && shadow b) } out).map fun s =>
    let s := { s with blocks := s.blocks ++ inc.filter shadow }
    let s := s.modPart p (swapPart s.dtime)
    let ph := (s.part p).phase
    let s := (queuesOf s p).foldl (fun s q =>
      s.modQueue q fun u => if (u.qsched.getLsbD 28).toNat = ph then u else { u with was := false }) s
    swapIn s p (inc.filter shadow ++ inc.filter fun b => !shadow b)

/-- PHASE_SWAP (R314, R331). -/
def execPhaseSwap (part : Nat) (st : State) : Host.Outcome State Fault Refusal :=
  .next (
    if (st.part part).expired.isSome && swapReady st part && !st.hub.halted then (swap st part).getD st else st)

/-! ## The reset of a queue (R361) -/

/-- RPTR = WPTR in the ring that QRING names; an access that fails halts the queue again (R398). -/
def emptyRing (s : State) (p q : Nat) : State :=
  let u := s.queue q
  let asid := (s.part p).ringAsid
  if !u.ringOk then s
  else
    match hubRead s p asid u.base 8 with
    | (s, .error f) => commandFault s p q cCMDOP f
    | (s, .ok b) =>
      match hubWrite s p asid (u.base + 8) b with
      | (s, some f) => commandFault s p q cCMDOP f
      | (s, none) => s

/-- A packet that has not started is discarded with what has begun for it: its launch, its wait, its activation. -/
def dropHead (s : State) (p q : Nat) : State :=
  let s := match (s.queue q).launch with
    | some g => { s with launches := s.launches.filter fun l => !(l.part = p && l.grid = g) }
    | none => s
  let s := (s.modPart p fun r => { r with fwPending := r.fwPending.filter fun e => e.2 != q }).unblock p q
  s.modQueue q fun u => { u with launch := none, wait := none, was := false }

/-- QRST with GO = 1: HALT and BLK are cleared, RPTR = WPTR; a packet that has started stays (R361). -/
def resetQueue (s : State) (q : Nat) : State :=
  let s := setSched (setSched s q 30 false) q 29 false
  match queuePart s q with
  | none => s
  | some p =>
    let s := if (s.queue q).held.isSome then s.modQueue q fun u => { u with wiped := true } else dropHead s p q
    emptyRing s p q

/-- QUEUE_RESET (R361). -/
def execQueueReset (q : Nat) (val : DWord) (st : State) : Host.Outcome State Fault Refusal :=
  .next (if val.getLsbD 0 && decide (q < 4096) then resetQueue st q else st)

/-! ## Energy (R349) -/

/-- Energy of a cluster that no block is charged goes to the device account of its partition (R349). -/
def deviceEnergy (s : State) (cl e : Nat) : State :=
  let s := s.modCluster cl fun c => { c with em := c.em + BitVec.ofNat 64 e, emBase := c.emBase + BitVec.ofNat 64 e }
  s.modPart ((s.ownerOf cl).getD 0) fun q => { q with deveacc := q.deveacc + BitVec.ofNat 64 e }

/-- ENERGY_APPORTION (R349): one of the 256 clusters (R2) has spent energy, and its meter is apportioned. What in-field tests
and ballast load took of it goes to the device account; how much that is the spec does not say: a free part of what was spent
(log 102). -/
def execEnergyApportion (cluster spent : Nat) (st : State) : Host.Outcome State Fault Refusal :=
  .next (
    if 256 ≤ cluster then st
    else
      let (s, e) := st.free
      let dev := e.toNat % (spent + 1)
      let s := deviceEnergy s cluster dev
      apportion (s.modCluster cluster fun c => { c with em := c.em + BitVec.ofNat 64 (spent - dev) }) cluster)

end Sys2Proof.Machine
end

