-- ==== Sys2Proof/Machine/HubRegs.lean ====
section
/-! DEFINITION. The hub's register space: which register an address names, who may write it, and what a write does (R281, R286,
R287, R294, R295, R320, R326, R340, R346, R360, R361, R373–R375, R378–R383), and what a read of it shows. -/
namespace Sys2Proof.Machine
open Sys2Proof

/-! ## Partitions (R374) -/

/-- The lantern cores of a PARTCTL value. -/
def planOf (x : DWord) : Nat := x.toNat % 65536
/-- QFIRST and QCNT of a PQ value. -/
def pqFirst (x : Word) : Nat := bitsAt x.toNat 16 12
/-- QCNT. -/
def pqCount (x : Word) : Nat := bitsAt x.toNat 0 13

/-- Do two partitions share a cluster, a queue or a lantern core? A range of no queues shares none. -/
def overlap (a b : Partition) : Bool :=
  ((List.range 4).any fun k => a.pclus.getD k 0 &&& b.pclus.getD k 0 != 0) ||
    (decide (0 < pqCount a.pq) && decide (0 < pqCount b.pq) && decide (pqFirst a.pq < pqFirst b.pq + pqCount b.pq) &&
      decide (pqFirst b.pq < pqFirst a.pq + pqCount a.pq)) ||
    (planOf a.partctl &&& planOf b.partctl) != 0

/-- May a partition be enabled as its registers stand? -/
def enableOk (s : State) (p : Nat) (q : Partition) : Bool :=
  (List.range 4).any (fun k => q.pclus.getD k 0 != 0) && planOf q.partctl != 0 &&
    decide (pqFirst q.pq + pqCount q.pq ≤ 4096) &&
    (List.range 16).all fun i => i == p || !(s.part i).partctl.getLsbD 31 || !overlap q (s.part i)

/-- May a partition be disabled: no block of it placed or saved, none of its queues enabled? -/
def disableOk (s : State) (p : Nat) : Bool :=
  !(s.blocks.any fun b => b.key.part = p) && (queuesOf s p).all fun q => !(s.queue q).en

/-- A configuration write that is refused. -/
def refuse (s : State) : State := s.modHub fun u => { u with parterr := true }

/-- A write of a partition's configuration (R374). PLAN is written when its value changes. -/
def partWrite (s : State) (p : Nat) (reg : PartReg) (val : DWord) : State :=
  let q := s.part p
  let en := q.partctl.getLsbD 31
  match reg with
  | .ctl =>
    let new : DWord := val &&& 0x8000FFFF
    if en && planOf new != planOf q.partctl then refuse s
    else if new.getLsbD 31 && !en then
      if enableOk s p { q with partctl := new } then s.modPart p fun q => { q with partctl := new, nextGrid := 1 } else refuse s
    else if en && !new.getLsbD 31 then
      if disableOk s p then s.modPart p fun q => { q with partctl := new } else refuse s
    else s.modPart p fun q => { q with partctl := new }
  | .clus k => if en then refuse s else s.modPart p fun q => { q with pclus := lmod q.pclus k fun _ => val }
  | .pq => if en then refuse s else s.modPart p fun q => { q with pq := (val.setWidth 32) &&& 0x0FFF1FFF }

/-- PARTCTL_WRITE (R374). -/
def execPartctlWrite (part : Nat) (reg : PartReg) (val : DWord) (st : State) : Host.Outcome State Fault Refusal :=
  .next (if part < 16 then partWrite st part reg val else st)

/-! ## HMAP (R281) -/

/-- HBM contents after a change of MODE: free until they are written again (log 30). -/
def scramble (s : State) : State :=
  let m := (Config.scrambled s.fresh).foldl (fun m e => if e.1 < 2 ^ 40 then memSet m e.1 e.2 else m) ([] : Mem)
  { s with fresh := s.fresh + 1, ms := { s.ms with mem := m, sys := m } }

/-- A write of HMAP: ignored once LOCK is 1; a change of MODE loses what HBM holds. -/
def writeHmap (s : State) (val : Word) : State :=
  let old := s.hub.hmap
  if old.getLsbD 31 then s
  else
    let s := s.modHub fun u => { u with hmap := val &&& 0x80000001 }
    if old.getLsbD 0 == val.getLsbD 0 then s else scramble s

/-- HMAP_WRITE (R281). -/
def execHmapWrite (val : Word) (st : State) : Host.Outcome State Fault Refusal := .next (writeHmap st val)

/-! ## Queue registers (R295, R361) -/

/-- A write of QRING: a packet that has not started is read afresh from the ring it names now (R361). -/
def writeQring (s : State) (q : Nat) (val : DWord) : State :=
  let new := val &&& 0x007FFFFFFFFFFF1F
  if (s.queue q).qring == new then s
  else
    let s := match queuePart s q with
      | some p => if (s.queue q).held.isNone then dropHead (setSched s q 29 false) p q else s
      | none => s
    s.modQueue q fun u => { u with qring := new }

/-- A write of QSCHED: EN, PH and TKM1; a queue that no longer takes part in arbitration is not runnable (R298). -/
def writeQsched (s : State) (q : Nat) (val : Word) : State :=
  let s := s.modQueue q fun u => { u with qsched := (u.qsched &&& 0x60000000) ||| (val &&& 0x900003FF) }
  match queuePart s q with
  | some p => if queueOn s p q then s else s.modQueue q fun u => { u with was := false }
  | none => s.modQueue q fun u => { u with was := false }

/-- A write of a queue's register, by its offset. -/
def queueReg (s : State) (q off : Nat) (val : DWord) : State :=
  match off with
  | 0x00 => writeQring s q val
  | 0x08 => writeQsched s q (val.setWidth 32)
  | 0x18 => if val.getLsbD 0 then resetQueue s q else s
  | _ => s

/-! ## Partition registers (R287, R294, R320, R326, R340, R346, R375) -/

/-- The queues of a partition that no longer take part in arbitration are not runnable (R298). -/
def State.sleepers (s : State) (p : Nat) : State :=
  { s with queues := s.queues.map fun e =>
      if queuePart s e.1 = some p && !queueOn s p e.1 then (e.1, { e.2 with was := false }) else e }

/-- A write of SCHEDCTL: with PHSW set the running context's slice starts; with PHSW cleared a swap under way is given up. -/
def writeSchedctl (s : State) (p : Nat) (val : Word) : State :=
  let old := phsw s p
  let s := s.modPart p fun q => { q with schedctl := val &&& 0xFF03 }
  let new := phsw s p
  let s := s.sleepers p
  if new && !old then s.modPart p fun q => { q with sliceEnd := s.dtime + qtmNs q q.phase, expired := none, yieldAt := none }
  else if old && !new then
    let s := s.modPart p fun q => { q with expired := none, yieldAt := none }
    let go := (s.blocks.filter fun b => b.key.part = p && b.ly && !b.yr && b.cluster?.isSome).map fun b => b.key
    let s := { s with blocks := s.blocks.map fun b =>
        if b.key.part = p && b.ly then
          (let b := if b.yr then b
             else b.mapFrags fun f => if f.wait = .yielded then { f with wait := .run } else f
           { b with ly := false, halted := b.halted && b.yr })
        else b }
    -- blocks that go on take the answers that waited for them (R322)
    go.foldl applyAnswers s
  else s

/-- A write of TLBICTL: ignored while GO is 1. -/
def writeTlbictl (s : State) (who : HubAgent) (p : Nat) (val : Word) : State :=
  if (s.part p).tlbiGo then s
  else
    let s := s.modPart p fun q =>
      { q with tlbictl := (val &&& 0xFFF) ||| (q.tlbictl &&& 0x40000000 &&& ~~~val) }
    if val.getLsbD 31 then tlbiRequest s who p (bitsAt val.toNat 10 2) (val.setWidth 10) else s

/-- A write of FRESUME: SEQ and ACT (R320); ACT 2 and 3 are ignored. -/
def writeFresume (s : State) (p : Nat) (val : DWord) : State :=
  match bitsAt val.toNat 0 2 with
  | 0 => retryRecord s p ((val >>> 32).setWidth 32)
  | 1 => endRecord s p ((val >>> 32).setWidth 32)
  | _ => s

/-- A write of SCACT: SEQ and ACT; ACT 3 is ignored. -/
def writeScact (s : State) (p : Nat) (val : DWord) : State :=
  let seq : Word := (val >>> 32).setWidth 32
  match bitsAt val.toNat 0 2 with
  | 0 => replyCall s p seq
  | 1 => markCall s p seq
  | 2 => endCall s p seq
  | _ => s

/-- A write of FQCTL: OVF is cleared by a 1. -/
def writeFqctl (q : Partition) (val : Word) : Partition :=
  { q with fqctl := (val &&& 0x8000FFFF) ||| (q.fqctl &&& 0x40000000 &&& ~~~val) }

/-- The scheduling, fault-queue and pre-emption registers of a partition, by offset. -/
def partRegLow (s : State) (who : HubAgent) (p off : Nat) (val : DWord) : State :=
  let w : Word := val.setWidth 32
  match off with
  | 0x000 => writeSchedctl s p w
  | 0x008 => s.modPart p fun q => { q with llthr := w &&& 0xFFFF }
  | 0x010 => s.modPart p fun q => { q with qtm0 := w &&& 0xFFFFFF }
  | 0x018 => s.modPart p fun q => { q with qtm1 := w &&& 0xFFFFFF }
  | 0x040 => s.modPart p fun q => { q with fqbase := val &&& 0x0000FFFFFFFFF000 }
  | 0x048 => s.modPart p fun q => writeFqctl q w
  | 0x050 => s.modPart p fun q => { q with fqhead := val.setWidth 16 }
  | 0x060 => writeFresume s p val
  | 0x080 => s.modPart p fun q => { q with ydl := w }
  | 0x088 => s.modPart p fun q => { q with pretgt := w }
  | 0x090 => writePrectl s p w
  | 0x098 => s.modPart p fun q => { q with savebase := val &&& 0x0000FFFFFFFF0000 }
  | 0x0A0 => s.modPart p fun q => { q with savesz := w }
  | 0x0C0 => s.modPart p fun q => { q with tlbiva := val &&& 0x007FFFFFFFFFFFFF }
  | 0x0C8 => writeTlbictl s who p w
  | _ => s

/-- The debug, trace, group-table and system-call registers of a partition, by offset. -/
def partRegHigh (s : State) (p off : Nat) (val : DWord) : State :=
  let w : Word := val.setWidth 32
  match off with
  | 0x100 => s.modPart p fun q => { q with dbgctl := (w &&& 0xE000FFFF) ||| (q.dbgctl &&& 0x10000000) }
  | 0x200 => s.modPart p fun q => { q with trbase := val &&& 0x0000FFFFFFFFF000 }
  | 0x208 => s.modPart p fun q => { q with trctl := w &&& 0x8000FFFF }
  | 0x210 => s.modPart p fun q => { q with trpos := (w &&& 0xFFFF0000) ||| (q.trpos &&& 0xFFFF) }
  | 0x218 => s.modPart p fun q => { q with trdrop := w }
  | 0x220 => s.modPart p fun q => { q with sampctl := w &&& 0x8000001F }
  | 0x280 => s.modPart p fun q => { q with gtbase := val &&& 0x0000FFFFFFFFF000 }
  | 0x2C0 => s.modPart p fun q => { q with scbase := val &&& 0x0000FFFFFFFFF000 }
  | 0x2C8 => s.modPart p fun q => { q with scctl := w &&& 0xC0000FFF }
  | 0x2D0 => s.modPart p fun q => { q with scpos := (w &&& 0xFFFF0000) ||| (q.scpos &&& 0xFFFF) }
  | 0x2D8 => writeScact s p val
  | _ =>
    if 0x140 ≤ off && off < 0x180 then
      s.modPart p fun q => { q with bpc := lmod q.bpc ((off - 0x140) / 8) fun _ => val &&& 0x007FFFFFFFFFFFFC }
    else if 0x180 ≤ off && off < 0x1C0 then
      s.modPart p fun q => { q with wpa := lmod q.wpa ((off - 0x180) / 8) fun _ => val &&& 0x007FFFFFFFFFFFFF }
    else if 0x1C0 ≤ off && off < 0x200 then s.modPart p fun q => { q with wpl := lmod q.wpl ((off - 0x1C0) / 8) fun _ => w }
    else if 0x2E0 ≤ off && off < 0x300 then
      s.modPart p fun q => { q with scrply := lmod q.scrply ((off - 0x2E0) / 8) fun _ => w }
    else s

/-- A write of a partition's register. -/
def partReg (s : State) (who : HubAgent) (p off : Nat) (val : DWord) : State :=
  if off < 0x100 then partRegLow s who p off val else partRegHigh s p off val

/-! ## Device registers (R281, R286, R293, R373, R378, R381, R383) -/

/-- Replace 64-bit part i of a 256-bit register. -/
def putPart (x : BitVec 256) (i : Nat) (v : DWord) : BitVec 256 :=
  (x &&& ~~~((0xFFFFFFFFFFFFFFFF : BitVec 256) <<< (64 * i))) ||| ((v.setWidth 256) <<< (64 * i))

/-- FLCTL of a port: only EN is written; a port that is not enabled is not trained. -/
def writeFlctl (s : State) (n : Nat) (val : Word) : State :=
  s.modPort n fun x => { x with en := val.getLsbD 31, up := x.up && val.getLsbD 31 }

/-- A write of 8 bytes of MEASEXT: the digest is complete with its last ones (log 104). -/
def writeMeasext (s : State) (i : Nat) (val : DWord) : State :=
  let s := s.modHub fun u => { u with measBuf := putPart u.measBuf i val }
  if i = 3 then extendMeas s s.hub.measBuf else s

/-- A write of a device register, by its offset; only host cores reach them. -/
def deviceReg (s : State) (off : Nat) (val : DWord) : State :=
  let w : Word := val.setWidth 32
  match off with
  | 0x0000 => s.modHub fun u => { u with asidt := val &&& 0x0000FFFFFFFFE000 }
  | 0x0008 => writeHmap s w
  | 0x0010 => s.modHub fun u => { u with scrubp := w }
  | 0x0018 => s.modHub fun u => { u with flid := w &&& 0x3FF }
  | 0x0020 => raiseSvn s w
  | 0x0030 => s.modHub fun u => if u.attgo || !val.getLsbD 0 then u else { u with attgo := true }
  | 0x3000 => if val.getLsbD 0 then s.modHub fun u => { u with parterr := false } else s
  | _ =>
    if 0x60 ≤ off && off < 0x80 then writeMeasext s ((off - 0x60) / 8) val
    else if 0x80 ≤ off && off < 0xA0 then
      s.modHub fun u => if u.attgo then u else { u with nonce := putPart u.nonce ((off - 0x80) / 8) val }
    else if 0x1000 ≤ off && off < 0x1100 && off % 16 = 0 then writeFlctl s ((off - 0x1000) / 16) w
    else if 0x2000 ≤ off && off < 0x2080 then partWrite s ((off - 0x2000) / 8) .ctl val
    else if 0x2100 ≤ off && off < 0x2500 then
      (let p := (off - 0x2100) / 64
       let k := (off - 0x2100) % 64 / 8
       if k < 4 then partWrite s p (.clus k) val else if k = 4 then partWrite s p .pq val else s)
    else s

/-- A write of a mailbox register (R382): MBPOS, MBCTL. The slots are read-only. -/
def mailboxReg (s : State) (p off : Nat) (val : DWord) : State :=
  match off with
  | 0x1800 => mailboxHead s p (bitsAt val.toNat 16 16)
  | 0x1808 =>
    s.modPart p fun q =>
      { q with mbctl := (val.setWidth 32 &&& 0x80000000) ||| (q.mbctl &&& 0x40000000 &&& ~~~(val.setWidth 32)) }
  | _ => s

/-! ## The whole range (R373) -/

/-- May an agent write the registers of a partition: a host core, or a lantern core of its PLAN? -/
def reaches (s : State) (p : Nat) : HubAgent → Bool
  | .host _ => true
  | .lantern n => (s.part p).partctl.getLsbD 31 && decide (n < 16) && (s.part p).partctl.getLsbD n

/-- May an agent reach the registers of a queue: a host core, or a lantern core of its partition? -/
def reachesQueue (s : State) (q : Nat) : HubAgent → Bool
  | .host _ => true
  | who => (queuePart s q).any fun p => reaches s p who

/-- Is an agent a host core? -/
def isHost : HubAgent → Bool
  | .host _ => true
  | .lantern _ => false

/-- A write of 8 bytes to the hub range by a host core or a lantern core. An unassigned address, a read-only register, or one
that the agent does not reach ignores it, and a halted hub takes none (R378). -/
def hubStore (s : State) (who : HubAgent) (addr : Nat) (val : DWord) : State :=
  let a := addr - 0x010000000000
  if addr < 0x010000000000 || addr % 8 != 0 || s.hub.halted then s
  else if a < 0x10000 then (if isHost who then deviceReg s a val else s)
  else if a < 0x20000 then
    (let p := (a - 0x10000) / 0x1000
     if reaches s p who then partReg s who p ((a - 0x10000) % 0x1000) val else s)
  else if 0x40000 ≤ a && a < 0x60000 then
    (let q := (a - 0x40000) / 32
     if reachesQueue s q who then queueReg s q ((a - 0x40000) % 32) val else s)
  else if !isHost who then s
  else if 0x100000 ≤ a && a < 0x120000 then mailboxReg s ((a - 0x100000) / 0x2000) ((a - 0x100000) % 0x2000) val
  else if 0x200000 ≤ a && a < 0x300000 then windowWrite s ((a - 0x200000) / 0x10000) ((a - 0x200000) % 0x10000) val
  else s

/-! ## Reads (R360, R373, R382) -/

/-- What a 32-bit register reads as: its high half reads zero. -/
def low32 (x : Word) : DWord := x.setWidth 64
/-- 64-bit part i of a 256-bit register. -/
def getPart (x : BitVec 256) (i : Nat) : DWord := (x >>> (64 * i)).setWidth 64
/-- Eight bytes of a memory from an address on. -/
def dwordAt (m : Mem) (a : Nat) : DWord := BitVec.ofNat 64 (leNat (memRead m a 8))

/-- What a device register holds; none for one that is write-only. -/
def deviceRead (s : State) (off : Nat) : Option DWord :=
  let u := s.hub
  if off = 0x20 || (0x60 ≤ off && off < 0x80) then none
  else some (
    if off = 0x00 then u.asidt
    else if off = 0x08 then low32 u.hmap
    else if off = 0x10 then low32 u.scrubp
    else if off = 0x18 then low32 u.flid
    else if off = 0x28 then low32 u.minsvn
    else if off = 0x30 then (if u.attgo then 1 else 0)
    else if 0x40 ≤ off && off < 0x60 then getPart u.keyhash ((off - 0x40) / 8)
    else if 0x80 ≤ off && off < 0xA0 then getPart u.nonce ((off - 0x80) / 8)
    else if 0x100 ≤ off && off < 0x240 then getPart (u.meas.getD ((off - 0x100) / 32) 0) ((off - 0x100) % 32 / 8)
    else if 0x400 ≤ off && off < 0x6F8 then dwordAt u.attbuf (off - 0x400)
    else if 0x800 ≤ off && off < 0x1000 then dwordAt u.idcert (off - 0x800)
    else if 0x1000 ≤ off && off < 0x1100 then
      (let x := s.port ((off - 0x1000) / 16)
       if off % 16 = 0 then
         (if x.en then 0x80000000 else 0) ||| (if x.down then 2 else 0) ||| (if x.up then 1 else 0)
       else low32 x.drop)
    else if 0x2000 ≤ off && off < 0x2080 then (s.part ((off - 0x2000) / 8)).partctl
    else if 0x2100 ≤ off && off < 0x2500 then
      (let q := s.part ((off - 0x2100) / 64)
       let k := (off - 0x2100) % 64 / 8
       if k < 4 then q.pclus.getD k 0 else if k = 4 then low32 q.pq else 0)
    else if off = 0x3000 then (if u.parterr then 1 else 0)
    else 0)

/-- What a partition's register holds; none for one that is write-only. -/
def partRead (q : Partition) (off : Nat) : Option DWord :=
  match off with
  | 0x000 => some (low32 q.schedctl)
  | 0x008 => some (low32 q.llthr)
  | 0x010 => some (low32 q.qtm0)
  | 0x018 => some (low32 q.qtm1)
  | 0x020 => some (low32 q.phovr)
  | 0x040 => some q.fqbase
  | 0x048 => some (low32 q.fqctl)
  | 0x050 => some (q.fqhead.setWidth 64)
  | 0x058 => some (q.fqtail.setWidth 64)
  | 0x060 => none
  | 0x080 => some (low32 q.ydl)
  | 0x088 => some (low32 q.pretgt)
  | 0x090 => some (low32 q.prectl)
  | 0x098 => some q.savebase
  | 0x0A0 => some (low32 q.savesz)
  | 0x0C0 => some q.tlbiva
  | 0x0C8 => some (low32 q.tlbictl)
  | 0x100 => some (low32 q.dbgctl)
  | 0x200 => some q.trbase
  | 0x208 => some (low32 q.trctl)
  | 0x210 => some (low32 q.trpos)
  | 0x218 => some (low32 q.trdrop)
  | 0x220 => some (low32 q.sampctl)
  | 0x240 => some q.deveacc
  | 0x280 => some q.gtbase
  | 0x2C0 => some q.scbase
  | 0x2C8 => some (low32 q.scctl)
  | 0x2D0 => some (low32 q.scpos)
  | 0x2D8 => none
  | _ =>
    if 0x140 ≤ off && off < 0x180 then some (q.bpc.getD ((off - 0x140) / 8) 0)
    else if 0x180 ≤ off && off < 0x1C0 then some (q.wpa.getD ((off - 0x180) / 8) 0)
    else if 0x1C0 ≤ off && off < 0x200 then some (low32 (q.wpl.getD ((off - 0x1C0) / 8) 0))
    else if 0x2E0 ≤ off && off < 0x300 then some (low32 (q.scrply.getD ((off - 0x2E0) / 8) 0))
    else some 0

/-- What a queue's register holds; QRST is write-only. -/
def queueRead (q : Queue) (off : Nat) : Option DWord :=
  match off with
  | 0x00 => some q.qring
  | 0x08 => some (low32 q.qsched)
  | 0x10 => some q.qpass
  | 0x18 => none
  | _ => some 0

/-- CBSTAT and CBWAIT of a cluster (R360). -/
def powerRead (s : State) (cl off : Nat) : DWord :=
  let c := s.cluster cl
  if off = 0 then BitVec.ofNat 64 (c.bal * 2 ^ 32 + c.charges.length % 65536 * 65536 + bucketRate s.boost)
  else BitVec.ofNat 64 c.cbwait

/-- A mailbox: its slots, their metadata, MBPOS and MBCTL (R382). -/
def mailboxRead (q : Partition) (off : Nat) : DWord :=
  let slot (i : Nat) : Slot := q.slots.getD i { data := [], grid := 0, blk := 0, thread := 0, dtime := 0 }
  if off < 0x1000 then
    (let d := (slot (off / 64)).data
     d.getD (off % 64 / 4 + 1) 0 ++ d.getD (off % 64 / 4) 0)
  else if off < 0x1800 then
    (let x := slot ((off - 0x1000) / 32)
     match off % 32 / 8 with
     | 0 => x.blk ++ x.grid
     | 1 => x.thread.setWidth 64
     | 2 => x.dtime
     | _ => 0)
  else if off = 0x1800 then low32 q.mbpos
  else if off = 0x1808 then low32 q.mbctl
  else 0

/-- How many bytes of the device register at an offset a write may change: 0 of a read-only one and where none is assigned. -/
def deviceTakes (off : Nat) : Nat :=
  if off = 0x00 || (0x60 ≤ off && off < 0xA0) then 8
  else if off ≤ 0x20 || off = 0x30 || off = 0x3000 || (0x2000 ≤ off && off < 0x2080) then 4
  else if 0x1000 ≤ off && off < 0x1100 then (if off % 16 = 0 then 4 else 0)
  else if 0x2100 ≤ off && off < 0x2500 then
    (let k := (off - 0x2100) % 64 / 8
     if k < 4 then 8 else if k = 4 then 4 else 0)
  else 0

/-- How many bytes of a partition's register a write may change. -/
def partTakes (off : Nat) : Nat :=
  if [0x040, 0x060, 0x098, 0x0C0, 0x200, 0x280, 0x2C0, 0x2D8].contains off || (0x140 ≤ off && off < 0x1C0) then 8
  else if [0x000, 0x008, 0x010, 0x018, 0x048, 0x050, 0x080, 0x088, 0x090, 0x0A0, 0x0C8, 0x100, 0x208, 0x210, 0x218, 0x220, 0x2C8,
      0x2D0].contains off || (0x1C0 ≤ off && off < 0x200) || (0x2E0 ≤ off && off < 0x300) then 4
  else 0

/-- How many bytes of the register at an aligned address of the hub range an agent's write may change: 0 where none is assigned, where
it is read-only, where the agent does not reach it, and while the hub is halted. -/
def hubTakes (s : State) (who : HubAgent) (addr : Nat) : Nat :=
  let a := addr - 0x010000000000
  if addr < 0x010000000000 || s.hub.halted then 0
  else if a < 0x10000 then (if isHost who then deviceTakes a else 0)
  else if a < 0x20000 then (if reaches s ((a - 0x10000) / 0x1000) who then partTakes ((a - 0x10000) % 0x1000) else 0)
  else if 0x40000 ≤ a && a < 0x60000 then
    (if !reachesQueue s ((a - 0x40000) / 32) who || a % 32 = 0x10 then 0 else if a % 32 = 0 then 8 else 4)
  else if !isHost who then 0
  else if 0x100000 ≤ a && a < 0x120000 then (if [0x1800, 0x1808].contains ((a - 0x100000) % 0x2000) then 4 else 0)
  else if 0x200000 ≤ a && a < 0x300000 then (if windowLive s ((a - 0x200000) / 0x10000) then 8 else 0)
  else 0

/-- Does an address of the hub range that only host cores reach name a register, or a byte of a mailbox, window or flash? -/
def hostAssigned (a : Nat) : Bool :=
  if a < 0x10000 then
    deviceTakes a != 0 || a = 0x28 || (0x40 ≤ a && a < 0x60) || (0x100 ≤ a && a < 0x240) || (0x400 ≤ a && a < 0x6F8) ||
      (0x800 ≤ a && a < 0x1100)
  else (0x80000 ≤ a && a < 0x81000) || (0x200000 ≤ a && a < 0x300000) || (0x40000000 ≤ a && a < 0x60000000) ||
    (0x100000 ≤ a && a < 0x120000 && decide ((a - 0x100000) % 0x2000 < 0x1810))

/-- Does an address name a register of a partition? -/
def partAssigned (off : Nat) : Bool := partTakes off != 0 || [0x020, 0x058, 0x240].contains off

/-- What a read of 8 bytes of the hub range shows a host core or a lantern core: none where the spec states no value, for a
write-only register, and for a lantern core at one that it does not reach; an unassigned address reads zero (log 107). -/
def hubShows (s : State) (who : HubAgent) (addr : Nat) : Option DWord :=
  let a := addr - 0x010000000000
  if a < 0x10000 then (if isHost who then deviceRead s a else if hostAssigned a then none else some 0)
  else if a < 0x20000 then
    (let p := (a - 0x10000) / 0x1000
     let off := (a - 0x10000) % 0x1000
     if reaches s p who then partRead (s.part p) off else if partAssigned off then none else some 0)
  else if 0x40000 ≤ a && a < 0x60000 then
    (let q := (a - 0x40000) / 32
     if reachesQueue s q who then queueRead (s.queue q) ((a - 0x40000) % 32) else none)
  else if !isHost who then (if hostAssigned a then none else some 0)
  else some (
    if 0x80000 ≤ a && a < 0x81000 then powerRead s ((a - 0x80000) / 16) (a % 16)
    else if 0x100000 ≤ a && a < 0x120000 then mailboxRead (s.part ((a - 0x100000) / 0x2000)) ((a - 0x100000) % 0x2000)
    else if 0x200000 ≤ a && a < 0x300000 then windowRead s ((a - 0x200000) / 0x10000) ((a - 0x200000) % 0x10000)
    else if 0x40000000 ≤ a && a < 0x50000000 then dwordAt s.hub.flashA (a - 0x40000000)
    else if 0x50000000 ≤ a && a < 0x60000000 then dwordAt s.hub.flashB (a - 0x50000000)
    else 0)

/-- A read of 8 bytes of the hub range at an aligned address: a free value where the spec states none (log 107). -/
def hubLoad (s : State) (who : HubAgent) (addr : Nat) : State × DWord :=
  match hubShows s who addr with
  | some x => (s, x)
  | none => s.free

/-- Does a partition interrupt a host core: its system-call queue (R375) or its mailbox (R382), with IE set and not empty? -/
def hostLine (q : Partition) : Bool :=
  (q.scctl.getLsbD 30 && q.scpos.toNat / 65536 != q.scpos.toNat % 65536) ||
    (q.mbctl.getLsbD 31 && q.mbpos.toNat / 65536 != q.mbpos.toNat % 65536)

/-- REGISTER_WRITE (R373). -/
def execRegisterWrite (who : HubAgent) (addr : BitVec 48) (val : DWord) (st : State) : Host.Outcome State Fault Refusal :=
  .next (hubStore st who addr.toNat val)

end Sys2Proof.Machine
end

