-- ==== Sys2Proof/Machine/Links.lean ====
section
/-! DEFINITION. Power and links: boost leases (R352–R355), the checks of storage (R292, R293, R324), Fenlink ports and flits
(R373, R383), DMA (R385), and the abort of a collective group (R225). -/
namespace Sys2Proof.Machine
open Sys2Proof

/-! ## Boost leases (R352–R354) -/

/-- Does any partition hold a lease? -/
def anyLease (s : State) : Bool := s.parts.any fun (e : Nat × Partition) => e.2.lease.held

/-- LEASE_DECISION (R353): the oldest request is granted when the module power of the last ms, times 1.1, is at most 4.6 kW; the
rails are at the boosted point when the signal says so (R355). -/
def execLeaseDecision (milliwatts : Nat) (st : State) : Host.Outcome State Fault Refusal :=
  .next (match st.hub.leaseQ with
    | [] => st
    | p :: rest =>
      let s := st.modHub fun u => { u with leaseQ := rest }
      (match (s.part p).lease.pend with
       | none => s
       | some (us, sig, asid) =>
         if milliwatts * 11 ≤ 46000000 then
           let s := s.modPart p fun q =>
             { q with lease := { q.lease with pend := none, held := true, endAt := s.dtime + 1000 * us, rvk := false, notice := none,
                                              sig := sig, asid := asid } }
           leaseWrite { s with boost := true } p asid sig 1
         else leaseWrite (s.modPart p fun q => { q with lease := { q.lease with pend := none } }) p asid sig 2))

/-- Notify a partition that its lease is revoked: the notice runs for 200 µs from its write; a lease whose granted end comes sooner
simply ends. -/
def revoke (s : State) (p : Nat) : State :=
  let l := (s.part p).lease
  if !l.held || l.rvk || l.endAt ≤ s.dtime + 200000 then s
  else leaseSignal (s.modPart p fun q => { q with lease := { q.lease with rvk := true } }) p 3

/-- LEASE_REVOCATION (R354): the power of the last ms exceeds 4.6 kW; every lease is notified in one step. -/
def execLeaseRevocation (milliwatts : Nat) (st : State) : Host.Outcome State Fault Refusal :=
  .next (if 4600000 < milliwatts then (List.range 16).foldl revoke st else st)

/-- A lease of a partition ends at its granted or at its notified end (R354). -/
def endLease (s : State) (p : Nat) : State :=
  let l := (s.part p).lease
  if l.held && decide (leaseEnds l ≤ s.dtime) then
    leaseSignal (s.modPart p fun q => { q with lease := { q.lease with held := false, rvk := false, notice := none } }) p 4
  else s

/-- LEASE_END (R354): in the nanosecond of the end, at the latest when its fabric cycle ends. -/
def execLeaseEnd (part : Nat) (st : State) : Host.Outcome State Fault Refusal := .next (endLease st part)

/-- OPERATING_POINT_CHANGE (R352–R354): the rails are at the boosted point while any lease is held, and go back after the last. -/
def execOperatingPointChange (st : State) : Host.Outcome State Fault Refusal := .next { st with boost := anyLease st }

/-! ## The clock -/

/-- One fabric cycle: what the last owed, a lease whose end has come among it (R354), then the clocks, and at each µs the energy of
every cluster (R349). -/
def clockStep (s : State) : State :=
  let now := s.dtime
  let s := (List.range 16).foldl endLease s
  let s := settleCycle (serveFifos ((s.clusters.map fun (e : Nat × Cluster) => e.1).foldl chargeAll s) fun _ => true)
  let s := tickWarps { s with fcyc := s.fcyc + 1, rail := s.rail + railStep s.boost,
                              clusters := s.clusters.map fun (e : Nat × Cluster) => (e.1, clusterTick s.fcyc s.boost e.2) }
  let s := if s.dtime = now then s else tickSlices now (tickLaunches s)
  let s := if s.dtime = now || s.dtime % 1000 != 0 then s
    else (s.clusters.map fun (e : Nat × Cluster) => e.1).foldl apportion s
  (s.clusters.map fun (e : Nat × Cluster) => e.1).foldl askArrays s

/-- CURRENT_BUCKET_REFILL (R356): the start of a fabric cycle. -/
def execCurrentBucketRefill (st : State) : Host.Outcome State Fault Refusal := .next (clockStep st)

/-! ## Checks of storage (R292, R293, R324) -/

/-- Count in a health record: 0 corrected errors, 1 latent poison. -/
def countHealth (s : State) (p n : Nat) : State := s.modPart p fun q => { q with health := lmod q.health n fun x => x + 1 }

/-- Is an access on its way that reads a sector, or may: a queued read or a partial that meets it, a reduction or an update, whose place
is settled later? What it finds in its bytes was settled where it issued, and an error that would appear between is one that appears
behind it (log 101). -/
def sectorBusy (s : State) (sector : Nat) : Bool :=
  (s.ms.queue.any fun a => a.kind.rw.1 && (match a.pa with
    | some pa => sectMeets sector pa 64
    | none => !a.kind.waits && a.space != .scratch)) ||
    (s.ms.cb.any fun x => sectMeets sector x.pa 8) || !s.ms.pool.isEmpty || !s.ms.redm.isEmpty

/-- What the scrubber finds in a sector: an error that nothing has met yet, else what the step says. -/
def scrubFinds (s : State) (sector : Nat) (found : Finding) : Finding :=
  match s.ms.errs.find? fun e => e.1 = sector with
  | some e => if e.2 then .corrected else .uncorrectable
  | none => found

/-- The scrubber reads a sector (R293): a corrected error is counted; an uncorrectable sector is marked poisoned and logged as
latent. A Z line is not in memory (R290). -/
def scrubSector (s : State) (sector : Nat) (found : Finding) : State :=
  let p := Config.scrubPart sector % 16
  if s.ms.zlines.contains (sector / 4) then s
  else match scrubFinds s sector found with
    | .clean => s
    | .corrected => countHealth (s.modMs fun ms => { ms with errs := ms.errs.filter fun e => e.1 != sector }) p 0
    | .uncorrectable =>
      if s.ms.badSect.contains sector || sectorBusy s sector then s
      else
        countHealth (s.modMs fun ms =>
          { ms with errs := ms.errs.filter fun e => e.1 != sector, badSect := ms.badSect ++ [sector] }) p 1

/-- The energy of a scrub read goes to the partition's device account (R293, R349); how much it is, and which meter counts it,
the spec does not say: a free value, on the meter of the first cluster of the home die (log 102). -/
def scrubEnergy (s : State) (sector : Nat) : State :=
  let (s, e) := s.free
  let s := s.modCluster (homeStack s (32 * sector) / 4 * 64) fun c => { c with em := c.em + e, emBase := c.emBase + e }
  s.modPart (Config.scrubPart sector % 16) fun q => { q with deveacc := q.deveacc + e }

/-- PATROL_SCRUB (R293). -/
def execPatrolScrub (sector : Nat) (found : Finding) (st : State) : Host.Outcome State Fault Refusal :=
  .next (if 2 ^ 35 ≤ sector then st else scrubEnergy (scrubSector st sector found) sector)

/-- An HBM sector acquires an error, of one symbol or of two (R292). -/
def decaySector (s : State) (sector : Nat) (fixable : Bool) : State :=
  if 2 ^ 35 ≤ sector || sectorBusy s sector then s
  else s.modMs fun ms => { ms with errs := ms.errs.filter (fun e => e.1 != sector) ++ [(sector, fixable)] }

/-- Does a queued load read a word of a block's scratchpad, or a word of HBM? -/
def wordAwaited (s : State) (k : Option Key) (word : Nat) : Bool :=
  s.ms.queue.any fun a => a.kind.rw.1 && match k with
    | some k => a.key = k && a.space = .scratch && wordsMeet a.va.toNat 16 (4 * word) 4
    | none => a.pa.any fun pa => wordsMeet pa 64 (4 * word) 4

/-- Mark an element of a block poisoned; none when the block has no such element. -/
def poisonElement (b : Block) (e : Element) : Option Block :=
  match e with
  | .l1 i => if b.cluster?.isSome && i < 2 ^ 38 then some b else none
  | .lane w r L =>
    (b.warps[w]?).bind fun p =>
      if r < p.win && L < 64 && p.all.getLsbD L && p.ws != .free then
        some (b.modParty (.warp w) fun p => { p with poisV := vset p.poisV r (vget p.poisV r 0 ||| laneBit L) })
      else none
  | .uniform w r =>
    (b.party? w).bind fun p =>
      if r < 128 && p.ws != .free then some (b.modParty w fun p => { p with poisS := p.poisS ||| sMask r 1 }) else none
  | .scratch i => if 4 * i < b.scrSize then some { b with scrPois := (i :: b.scrPois).eraseDups } else none
  | .tile t i =>
    if t < b.tiles.length && i < 4096 then
      some { b with tiles := lmod b.tiles t fun y => { y with pois := (i :: y.pois).eraseDups } }
    else none
  | .acc a i =>
    if b.held a && i < 4096 then some (b.modAcc a fun y => { y with pois := (i :: y.pois).eraseDups }) else none

/-- A poison mark on an element, in the block or in the L1 of its cluster. A load that has issued read its words where it issued:
a mark on one of them comes behind it. -/
def markElement (s : State) (b x : Block) (e : Element) : State :=
  match e with
  | .l1 i =>
    if wordAwaited s none i then s
    else
      countHealth (s.modMs fun ms => { ms with l1Pois := ((b.cluster?.getD 0, i) :: ms.l1Pois).eraseDups }) b.key.part 1
  | .scratch i =>
    if wordAwaited s (some b.key) i then s else countHealth (s.modBlock b.key fun _ => x) b.key.part 1
  | _ => countHealth (s.modBlock b.key fun _ => x) b.key.part 1

/-- BACKGROUND_CHECK (R324): a corrected error of an element is counted; an uncorrectable one is marked, and logged as latent. -/
def execBackgroundCheck (key : Key) (element : Element) (found : Finding) (st : State) : Host.Outcome State Fault Refusal :=
  .next (match st.block? key with
    | none => st
    | some b =>
      match poisonElement b element, found with
      | some _, .corrected => countHealth st key.part 0
      | some x, .uncorrectable => markElement st b x element
      | _, _ => st)

/-! ## Fenlink (R373, R383) -/

/-- FLIT_RECEIVE (R383). -/
def execFlitReceive (port : Nat) (hdr : DWord) (payload : BitVec 512) (st : State) : Host.Outcome State Fault Refusal :=
  .next (if port < 16 then receiveFlit st port hdr payload else st)

/-- LINK_RETRAIN_FAIL (R383): the port is marked down. -/
def execLinkRetrainFail (port : Nat) (st : State) : Host.Outcome State Fault Refusal :=
  .next (if decide (port < 16) && (st.port port).en then st.modPort port fun p => { p with up := false, down := true } else st)

/-- FENLINK_PORT_TRAINED (R373, R378): an enabled port is trained; a halted hub brings up no link. -/
def execFenlinkPortTrained (port : Nat) (st : State) : Host.Outcome State Fault Refusal :=
  .next (if decide (port < 16) && (st.port port).en && !st.hub.halted then
      st.modPort port fun p => { p with up := true, down := false }
    else st)

/-! ## DMA (R385) -/

/-- The number under which endpoint writes are kept among the host's: no hart's. -/
def dmaHart : Nat := 32

/-- DMA_REQUEST (R385): an endpoint's write that the IOMMU translates into HBM enters the import set; an untranslated one is
refused with Unsupported Request and changes nothing. A halted hub passes none (R378). -/
def execDmaRequest (pa : Option Nat) (bytes : List Byte) (st : State) : Host.Outcome State Fault Refusal :=
  .next (if st.hub.halted then st else match pa with
    | some a => hostStore st dmaHart false a bytes
    | none => st)

/-! ## The abort of a collective group (R225) -/

/-- The collectives of a group that a launch of the partition has not ended: queued, running or held. -/
def groupClvs (s : State) (part group : Nat) : List (Block × EngOp) :=
  s.blocks.flatMap fun b =>
    if b.key.part = part && (s.launch? part b.key.grid).any (fun l => l.groups.any fun g => g.1 = group) then
      (b.ops.filter fun o => decide (8 ≤ o.ch) && clvGroup o.words = group && o.st != .done && o.st != .failed).map fun o => (b, o)
    else []

/-- COLLECTIVE_GROUP_ABORT (R225): every rank's ticket ends FAILED with ENGDESC at the chunk reached, in its channel's order
(R198), that of a rank which issues the operation later too. -/
def execCollectiveGroupAbort (part group : Nat) (st : State) : Host.Outcome State Fault Refusal :=
  .next (
    let l := groupClvs st part group
    let note (s : State) (e : Block × EngOp) : State := s.modLaunch part e.1.key.grid fun x =>
      { x with aborts := (x.aborts.filter fun y => y != (group, e.2.nth)) ++ [(group, e.2.nth)] }
    clvFail (l.foldl note st) l)

end Sys2Proof.Machine
end

