-- ==== Sys2Proof/Machine/LanternCmds.lean ====
section
/-! DEFINITION. The lantern cores: their exceptions, the four command instructions and interrupts (R367, R368). -/
namespace Sys2Proof.Machine
open Sys2Proof

/-! ## Registers and exceptions -/

/-- A register of a lantern core: x0 reads 0 (log 4). -/
def HubCore.get (l : HubCore) (r : BitVec 5) : DWord := if r == 0 then 0 else vget l.x r.toNat 0

/-- Write a register of a lantern core: x0 discards the write. -/
def HubCore.set (l : HubCore) (r : BitVec 5) (x : DWord) : HubCore := if r == 0 then l else { l with x := vset l.x r.toNat x }

/-- A core that keeps the late loads that pass a test. -/
def HubCore.keepLate (c : HubCore) (f : HostLoad → Bool) : HubCore := { c with late := c.late.filter f }

/-- Taking an exception or interrupt (log 4): mepc, mcause and mtval are saved, MIE moves to MPIE, and the core goes on at
mtvec, in machine mode, MPP keeping the mode it was in; with vectored mtvec an interrupt goes to its entry. -/
def HubCore.trap (l : HubCore) (cause tval : DWord) : HubCore :=
  let base := l.mtvec &&& ~~~3#64
  let code := cause &&& 0x7FFFFFFFFFFFFFFF#64
  { l with mepc := l.pc, mcause := cause, mtval := tval, swait := none,
           mstatus := (l.mstatus &&& ~~~0x1888#64) ||| (l.priv.setWidth 64 <<< 11) ||| ((l.mstatus &&& 8) <<< 4), priv := 3, virt := false,
           pc := if cause.getLsbD 63 && l.mtvec &&& 3 == 1 then base + 4 * code else base }

/-- Illegal-instruction exception. -/
def causeIllegal : DWord := 2
/-- A command fault (R367). -/
def causeCommand : DWord := 24

/-- Change a lantern core. -/
def State.modLantern (s : State) (n : Nat) (f : HubCore → HubCore) : State := s.setLantern n (f (s.lantern n))

/-- A command fault of lantern core n with its code. -/
def commandTrap (s : State) (n code : Nat) : State := s.modLantern n fun l => l.trap causeCommand (BitVec.ofNat 64 code)

/-- A command instruction completes: rd is written and the pc moves on. -/
def commandDone (s : State) (n : Nat) (d : BitVec 5) (x : DWord) : State :=
  s.modLantern n fun l => { l.set d x with pc := l.pc + 4 }

/-- The enabled partition a lantern core acts for (R374). -/
def lanternPart (s : State) (n : Nat) : Option Nat := (List.range 16).find? fun p => reaches s p (.lantern n)

/-- The lantern core that runs the instruction of this step. -/
def lanternTurn (s : State) : Option Nat :=
  match s.turn with
  | .lantern n => some n
  | _ => none

/-- The partition of queue x for lantern core n, or none: CMDQ. -/
def lanternQueue (s : State) (n : Nat) (x : DWord) : Option Nat :=
  match lanternPart s n with
  | some p => if x.toNat < 4096 && queueIn s p x.toNat then some p else none
  | none => none

/-! ## RFETCH -/

/-- What the reads behind an attempt leave of it: the memory as their acquires have it (R276, R362), and nothing else. -/
def State.reading (s t : State) : State := { s with ms := t.ms }

/-- The checks of the records that a body names (R363); what a launch would take is not kept. A packet that has been begun has passed
them. -/
def recordsOk (s : State) (p q addr : Nat) (pk : List Byte) : State × Option Failed :=
  if (s.queue q).launch.isSome || (s.graph? q).isSome then (s, none)
  else
    match packetType pk with
    | 1 =>
      (match beginLaunch s p q (fieldAt pk 16 8) addr pk none with
       | (t, .error f) => (s.reading t, some f)
       | (t, .ok _) => (s.reading t, none))
    | 2 =>
      (match readGraph s p (fieldAt pk 16 8) addr with
       | (t, .error f) => (s.reading t, some f)
       | (t, .ok _) => (s.reading t, none))
    | _ => (s, none)

/-- A command fault found by RFETCH: the queue halts with its record (R363), and the core takes the exception (R367). -/
def fetchFault (s : State) (n p q code : Nat) (f : Failed) : State := commandTrap (commandFault s p q code f) n code

/-- RFETCH of lantern core n. -/
def fetchPacket (s : State) (n : Nat) (t a d : BitVec 5) : State :=
  let l := s.lantern n
  let q := (l.get a).toNat
  let buf := (l.get t).toNat
  match lanternQueue s n (l.get a) with
  | none => commandTrap s n 0x72
  | some p =>
    if buf % 16 != 0 then commandTrap s n 0x74
    else
      let (t, h) := readHead (s.modQueue q fun u => { u with held := none }) p q
      let s := t.modQueue q fun u => { u with held := (s.queue q).held }
      match h with
      | .empty => commandDone s n d 0
      | .bad c f => fetchFault s n p q c f
      | .whole addr pk =>
        match recordsOk s p q addr pk with
        | (s, some f) => fetchFault s n p q cCMDOP f
        | (s, none) =>
          commandDone (s.modLantern n fun l => { l with sram := memWrite l.sram buf pk }) n d (BitVec.ofNat 64 pk.length)

/-- RFETCH (R367): copies the packet at a queue's head to core SRAM, unwrapped; rd is 0 when no whole packet stands there. -/
def execRfetch (t s d : BitVec 5) (st : State) : Host.Outcome State Fault Refusal :=
  match lanternTurn st with
  | some n => .next (fetchPacket st n t s d)
  | none => .fault .noLantern

/-! ## BFXT -/

/-- The bit field of BFXT: n bits of x from bit p on. -/
def bitField (x y : DWord) : DWord := (x >>> (y.toNat % 64)) &&& BitVec.ofNat 64 (2 ^ (y.toNat / 64 % 64) - 1)

/-- BFXT (R367). -/
def execBfxt (t s d : BitVec 5) (st : State) : Host.Outcome State Fault Refusal :=
  match lanternTurn st with
  | some n => .next (commandDone st n d (bitField ((st.lantern n).get s) ((st.lantern n).get t)))
  | none => .fault .noLantern

/-! ## SWAIT -/

/-- The exception of a read that fails: a load page fault, or an access fault (log 4). -/
def loadTrap (s : State) (n : Nat) (f : Failed) : State :=
  s.modLantern n fun l => l.trap (if f.2.code = cPAGE then 13 else 5) (BitVec.ofNat 64 f.1)

/-- An SWAIT reads its word: it completes, or waits. -/
def swaitRead (s : State) (n : Nat) (a v : DWord) (d : BitVec 5) : State :=
  match hubRead s ((lanternPart s n).getD 0) (s.part ((lanternPart s n).getD 0)).ringAsid a.toNat 8 with
  | (s, .error f) => loadTrap s n f
  | (s, .ok b) =>
    if v.toNat ≤ leNat b then commandDone (s.modLantern n fun l => { l with swait := none }) n d (BitVec.ofNat 64 (leNat b))
    else s.modLantern n fun l => { l with swait := some (a, v, d.toNat) }

/-- SWAIT (R367): waits until the word is at least the value; the monitor wakes it by SWAIT_WAKE. -/
def execSwait (t s d : BitVec 5) (st : State) : Host.Outcome State Fault Refusal :=
  match lanternTurn st with
  | some n =>
    let l := st.lantern n
    .next (if (l.get s).toNat % 8 != 0 then commandTrap st n 0x74 else swaitRead st n (l.get s) (l.get t) d)
  | none => .fault .noLantern

/-- SWAIT_WAKE (R367): a waiting SWAIT re-reads its word. -/
def execSwaitWake (n : Nat) (st : State) : Host.Outcome State Fault Refusal :=
  .next (match (st.lantern n).swait with
    | some (a, v, d) => if st.hub.halted then st else swaitRead st n a v (BitVec.ofNat 5 d)
    | none => st)

/-! ## DISP (R367, R368) -/

/-- A placement descriptor. -/
structure Desc where
  raddr : Nat
  first : Nat
  count : Nat
  gang  : Bool
  queue : Nat

/-- Read a descriptor; none when it is malformed. -/
def descOf (b : List Byte) : Option Desc :=
  if decide (1 < fieldAt b 13 1) || !zeroAt b 16 48 || fieldAt b 12 1 = 0 || 16 < fieldAt b 12 1 then none
  else
    some { raddr := fieldAt b 0 8, first := fieldAt b 8 4, count := fieldAt b 12 1, gang := fieldAt b 13 1 = 1,
           queue := fieldAt b 14 2 }

/-- The launch a descriptor names: one begun from its record on its queue, else a new one; the LAUNCH packet at the queue's
head, when it names the record, is its packet, and a fault of the packet or its record is one against the queue (R363, R398): its code
and what failed, with the queue halted and its record made. -/
def descLaunch (s : State) (p : Nat) (x : Desc) : State × Except Nat (Option Launch) :=
  match s.launches.find? fun l => l.part = p && l.queue = x.queue && l.raddr = x.raddr && l.stage = 0 && !l.placed with
  | some l => (s, .ok (some l))
  | none =>
    let begin_ (s : State) (addr : Nat) (pk : List Byte) : State × Except Failed Nat :=
      beginLaunch s p x.queue x.raddr addr pk none
    let out (head : Bool) (e : State × Except Failed Nat) : State × Except Nat (Option Launch) :=
      match e with
      | (t, .error f) => (if head then commandFault (s.reading t) p x.queue cCMDOP f else s.reading t, .error cCMDOP)
      | (t, .ok g) =>
        let t := if head then t.modQueue x.queue fun u => { u with launch := some g } else t
        (t, .ok (t.launch? p g))
    match readHead s p x.queue with
    | (t, .bad c f) => (commandFault t p x.queue c f, .error c)
    | (t, .empty) => out false (begin_ t x.raddr [])
    | (t, .whole a pk) =>
      if packetType pk = 1 && fieldAt pk 16 8 = x.raddr then out true (begin_ t a pk) else out false (begin_ t x.raddr [])

/-- A LAUNCH packet of which DISP has placed a unit has started; with its last unit it leaves the head (R296, R361). -/
def descPlaced (s : State) (p : Nat) (x : Desc) (grid : Nat) : State :=
  if (s.queue x.queue).launch = some grid then
    match readHead s p x.queue with
    | (s, .whole ad pk) => leaveHead (s.modQueue x.queue fun u => { u with held := some (u.held.getD (ad, pk)) }) p x.queue
    | (s, _) => s
  else s

/-- Does a descriptor name the next unit of its launch? -/
def descFits (l : Launch) (x : Desc) : Bool :=
  x.first = l.next && x.gang == (l.lr.gangsz != 0) &&
    (if x.gang then x.count = l.lr.gangSize x.first else decide (x.first + x.count ≤ l.lr.nblocks))

/-- The clusters of a die that a gang takes: the lowest-numbered fitting ones. -/
def dieGang (s : State) (l : Launch) (die n : Nat) : Option (List Nat) :=
  let f := (clustersOn s l.part die).filter fun c => fits s c l.lr
  if f.length < n then none else some (f.take n)

/-- The cluster of a die with the fewest task entries, the lowest number on equal counts. -/
def dieTask (s : State) (l : Launch) (die : Nat) : Option Nat :=
  if !fitTogether [l.lr] then none
  else
    ((clustersOn s l.part die).foldl (fun best c =>
      match best with
      | none => some c
      | some b => if (s.cluster c).tasks.length < (s.cluster b).tasks.length then some c else some b) (none : Option Nat))

/-- Hand the blocks of a descriptor to a die's placement unit, all of them or none. -/
def diePlace (s : State) (l : Launch) (die : Nat) (x : Desc) : Option State :=
  let key (i : Nat) : Key := { part := l.part, grid := l.grid, blk := x.first + i }
  if placeHeld s l then none
  else if x.gang then
    (dieGang s l die x.count).map fun cs =>
      (cs.zip (List.range x.count)).foldl (fun s e => placeBlock s l (key e.2) e.1) s
  else
    (List.range x.count).foldl (fun (o : Option State) i =>
      o.bind fun s => (dieTask s l die).map fun c => s.modCluster c fun y => { y with tasks := y.tasks ++ [key i] }) (some s)

/-- DISP of lantern core n. -/
def dispatchUnit (s : State) (n : Nat) (t a d : BitVec 5) : State :=
  let l := s.lantern n
  let die := (l.get a).toNat
  match descOf (memRead l.sram (l.get t).toNat 64) with
  | none => commandTrap s n 0x73
  | some x =>
    if 3 < die then commandTrap s n 0x73
    else
      match lanternQueue s n (BitVec.ofNat 64 x.queue) with
      | none => commandTrap s n 0x72
      | some p =>
        match descLaunch s p x with
        | (s, .error c) => commandTrap s n c
        | (u, .ok none) => commandTrap (s.reading u) n 0x73
        | (u, .ok (some r)) =>
          if !descFits r x then commandTrap (s.reading u) n 0x73
          else
            match diePlace u r die x with
            | none => commandDone u n d 0
            | some v =>
              let v := v.modLaunch p r.grid fun y =>
                { y with next := y.next + x.count, noMore := y.noMore || decide (y.lr.nblocks ≤ y.next + x.count) }
              commandDone (descPlaced (noteRun v p r.grid x.count true) p x r.grid) n d 1

/-- DISP (R367): hands the descriptor at rs2, in core SRAM, to the placement unit of die rs1. -/
def execDisp (t s d : BitVec 5) (st : State) : Host.Outcome State Fault Refusal :=
  match lanternTurn st with
  | some n => .next (dispatchUnit st n t s d)
  | none => .fault .noLantern

/-! ## Interrupts (R367) -/

/-- LANTERN_INTERRUPT (R367): an SWAIT in progress leaves mepc at itself and waits afresh when it is issued again. -/
def execLanternInterrupt (n : Nat) (cause : DWord) (st : State) : Host.Outcome State Fault Refusal :=
  .next (if n < 16 then st.modLantern n fun l => l.trap (cause ||| 0x8000000000000000#64) 0 else st)

end Sys2Proof.Machine
end

