-- ==== Sys2Proof/Machine/Riscv.lean ====
section
/-! DEFINITION. The instructions of the cores of the hub die in machine mode: RV64I with the machine-mode registers, and for host
cores what RVA23 adds to it in arithmetic, atomics and short words (R1, R3, R367, R371). The spec names these instruction sets and
describes none of their instructions: every encoding and effect here is the RISC-V family's (PRESUMED, log 10). `nx` is the address of
the next word. -/
namespace Sys2Proof.Machine
open Sys2Proof

/-! ## Cores: 0–15 are lantern cores, 16–47 host cores -/

/-- A core of the hub die. -/
def hubCore (s : State) (n : Nat) : HubCore := if n < 16 then s.lantern n else s.hart (n - 16)
/-- Replace a core of the hub die. -/
def setHubCore (s : State) (n : Nat) (l : HubCore) : State := if n < 16 then s.setLantern n l else s.setHart (n - 16) l
/-- Its number as an agent of the hub range. -/
def hubWho (n : Nat) : HubAgent := if n < 16 then .lantern n else .host (n - 16)
/-- A core takes an exception. -/
def coreTrap (s : State) (n cause : Nat) (tval : DWord) : State :=
  setHubCore s n ((hubCore s n).trap (BitVec.ofNat 64 cause) tval)
/-- An instruction completes: rd is written and the pc moves. -/
def coreDone (s : State) (n : Nat) (d : BitVec 5) (x pc : DWord) : State :=
  setHubCore s n { (hubCore s n).set d x with pc := pc }
/-- An instruction without a result completes. -/
def coreNext (s : State) (n : Nat) (nx : DWord) : State := coreDone s n 0 0 nx

/-! ## Fields and immediates -/

/-- rd. -/
def rvD (w : Word) : BitVec 5 := (w >>> 7).setWidth 5
/-- rs1. -/
def rvA (w : Word) : BitVec 5 := (w >>> 15).setWidth 5
/-- rs2. -/
def rvB (w : Word) : BitVec 5 := (w >>> 20).setWidth 5
/-- funct3. -/
def rvF3 (w : Word) : Nat := bitsAt w.toNat 12 3
/-- funct7. -/
def rvF7 (w : Word) : Nat := bitsAt w.toNat 25 7
/-- The I immediate. -/
def immI (w : Word) : DWord := (w.sshiftRight 20).signExtend 64
/-- The S immediate. -/
def immS (w : Word) : DWord := (((w.sshiftRight 25) <<< 5) ||| ((w >>> 7) &&& 31)).signExtend 64
/-- The B immediate. -/
def immB (w : Word) : DWord :=
  (((w.sshiftRight 31) <<< 12) ||| (((w >>> 7) &&& 1) <<< 11) ||| (((w >>> 25) &&& 63) <<< 5) |||
    (((w >>> 8) &&& 15) <<< 1)).signExtend 64
/-- The U immediate. -/
def immU (w : Word) : DWord := (w &&& 0xFFFFF000).signExtend 64
/-- The J immediate. -/
def immJ (w : Word) : DWord :=
  (((w.sshiftRight 31) <<< 20) ||| (((w >>> 12) &&& 0xFF) <<< 12) ||| (((w >>> 20) &&& 1) <<< 11) |||
    (((w >>> 21) &&& 0x3FF) <<< 1)).signExtend 64

/-! ## Arithmetic -/

/-- A 64-bit operation of OP and OP-IMM. -/
def rvAlu (f3 : Nat) (alt : Bool) (x y : DWord) : DWord :=
  let n := y.toNat % 64
  match f3 with
  | 0 => if alt then x - y else x + y
  | 1 => x <<< n
  | 2 => if x.slt y then 1 else 0
  | 3 => if x.ult y then 1 else 0
  | 4 => x ^^^ y
  | 5 => if alt then x.sshiftRight n else x >>> n
  | 6 => x ||| y
  | _ => x &&& y

/-- A 32-bit operation, sign-extended; none for a funct3 that has none. -/
def rvAluW (f3 : Nat) (alt : Bool) (x y : DWord) : Option DWord :=
  let a : Word := x.setWidth 32
  let n := y.toNat % 32
  match f3 with
  | 0 => some ((if alt then a - y.setWidth 32 else a + y.setWidth 32).signExtend 64)
  | 1 => some ((a <<< n).signExtend 64)
  | 5 => some ((if alt then a.sshiftRight n else a >>> n).signExtend 64)
  | _ => none

/-- MUL to REMU. -/
def rvMul (f3 : Nat) (x y : DWord) : DWord :=
  match f3 with
  | 0 => x * y
  | 1 => BitVec.ofInt 64 (x.toInt * y.toInt / 2 ^ 64)
  | 2 => BitVec.ofInt 64 (x.toInt * y.toNat / 2 ^ 64)
  | 3 => BitVec.ofNat 64 (x.toNat * y.toNat / 2 ^ 64)
  | 4 => if y == 0 then 0xFFFFFFFFFFFFFFFF else x.sdiv y
  | 5 => if y == 0 then 0xFFFFFFFFFFFFFFFF else x.udiv y
  | 6 => if y == 0 then x else x.srem y
  | _ => if y == 0 then x else x.umod y

/-- MULW to REMUW; none for a funct3 that has none. -/
def rvMulW (f3 : Nat) (x y : DWord) : Option DWord :=
  let a : Word := x.setWidth 32
  let b : Word := y.setWidth 32
  let out (r : Word) : Option DWord := some (r.signExtend 64)
  match f3 with
  | 0 => out (a * b)
  | 4 => out (if b == 0 then 0xFFFFFFFF else a.sdiv b)
  | 5 => out (if b == 0 then 0xFFFFFFFF else a.udiv b)
  | 6 => out (if b == 0 then a else a.srem b)
  | 7 => out (if b == 0 then a else a.umod b)
  | _ => none

/-- A branch's condition; none for a funct3 that has none. -/
def rvTaken (f3 : Nat) (x y : DWord) : Option Bool :=
  match f3 with
  | 0 => some (x == y)
  | 1 => some (x != y)
  | 4 => some (x.slt y)
  | 5 => some !(x.slt y)
  | 6 => some (x.ult y)
  | 7 => some !(x.ult y)
  | _ => none

/-! ## Memory -/

/-- The end of physical addresses (R280). -/
def paEnd : Nat := 2 ^ 48
/-- The first address of the PCIe window. -/
def pcieBase : Nat := 0x020000000000

/-- Does a host core's load of n bytes meet a sector that cannot be read, and what the ECC makes of it (R292)? A sector is read where a
byte is not one of a store that waits for its import; it counts for the partition that the scrubber counts for (log 101). -/
def hostEcc (s : State) (a n : Nat) : State × Bool :=
  if (List.range n).all fun i => s.ms.hostw.any fun v => !v.done && decide (v.pa ≤ a + i) && decide (a + i < v.pa + v.data.length) then
    (s, false)
  else eccRead s (Config.scrubPart (a / 32) % 16) a n

/-- A byte of HBM as a host core reads it: its newest store that is not yet imported, else the system view (R371, log 10). -/
def hostByte (s : State) (pa : Nat) : Byte :=
  match (s.ms.hostw.filter fun v => !v.done && decide (v.pa ≤ pa) && decide (pa < v.pa + v.data.length)).getLast? with
  | some v => v.data.getD (pa - v.pa) 0
  | none => memGet s.ms.sys pa

/-- May a store of n bytes of the hub range change a byte of a register? -/
def hubTouches (s : State) (who : HubAgent) (a n : Nat) : Bool :=
  (List.range n).any fun i => decide ((a + i) % 8 < hubTakes s who ((a + i) / 8 * 8))

/-- A load of n bytes of the hub range: an unaligned one is an access fault (log 108), but where it reads no register (R373: an
unassigned address reads zero). -/
def hubBytes (s : State) (k a n : Nat) : State × Option Nat :=
  if a % n != 0 then
    (if (List.range n).all fun i => hubShows s (hubWho k) ((a + i) / 8 * 8) == some 0 then (s, some 0) else (s, none))
  else
    let (s, x) := hubLoad s (hubWho k) (a - a % 8)
    (s, some (x.toNat / 256 ^ (a % 8) % 256 ^ n))

/-- The causes of a load that fails: an access fault, and a hardware error, of a sector that cannot be read (R292, log 101). -/
def loadFault : Nat := 5
/-- A hardware error. -/
def hardError : Nat := 19

/-- A load of n bytes by a core, or the cause of its exception. A lantern core's addresses below the hub range are its SRAM's; what a
host core reads from the PCIe window the spec does not say. -/
def coreLoad (s : State) (k a n : Nat) : State × Except Nat Nat :=
  if a + n ≤ hbmEnd then
    (if k < 16 then (s, .ok (leNat (memRead (s.lantern k).sram a n)))
     else
       match hostEcc s a n with
       | (s, true) => (s, .error hardError)
       | (s, false) => (s, .ok (leNat ((List.range n).map fun i => hostByte s (a + i)))))
  else if hbmEnd ≤ a && a + n ≤ pcieBase then
    (match hubBytes s k a n with
     | (s, some x) => (s, .ok x)
     | (s, none) => (s, .error loadFault))
  else if 16 ≤ k && pcieBase ≤ a && a + n ≤ paEnd then
    (let (s, x) := s.free
     (s, .ok (x.toNat % 256 ^ n)))
  else (s, .error loadFault)

/-- A store of n bytes by a core; none is an access fault. A register of the hub range takes an aligned store of 8 bytes, or of 4
bytes to its low half (log 108); a store that meets no byte which it may change is ignored (R373, R382). -/
def coreStore (s : State) (k a n : Nat) (x : DWord) : Option State :=
  let b := leBytes n x.toNat
  if a + n ≤ hbmEnd then
    some (if k < 16 then s.modLantern k fun l => { l with sram := memWrite l.sram a b } else hostStore s (k - 16) false a b)
  else if hbmEnd ≤ a && a + n ≤ pcieBase then
    (if a % 8 = 0 && 4 ≤ n then some (hubStore s (hubWho k) a (BitVec.ofNat 64 (leNat b)))
     else if hubTouches s (hubWho k) a n then none else some s)
  else if 16 ≤ k && pcieBase ≤ a && a + n ≤ paEnd then some s
  else none

/-- A load instruction; none for a funct3 that has none. -/
def rvLoad (s : State) (k : Nat) (w : Word) (nx : DWord) : Option State :=
  let f3 := rvF3 w
  let n := 2 ^ (f3 % 4)
  let a := (hubCore s k).get (rvA w) + immI w
  if f3 = 7 then none
  else
    match coreLoad s k a.toNat n with
    | (s, .error n) => some (coreTrap s k n a)
    | (s, .ok v) =>
      let x := BitVec.ofNat 64 v
      let x := if f3 < 4 then (x <<< (64 - 8 * n)).sshiftRight (64 - 8 * n) else x
      some (coreDone s k (rvD w) x nx)

/-- A store instruction; none for a funct3 that has none. -/
def rvStore (s : State) (k : Nat) (w : Word) (nx : DWord) : Option State :=
  let c := hubCore s k
  let a := c.get (rvA w) + immS w
  if 4 ≤ rvF3 w then none
  else
    match coreStore s k a.toNat (2 ^ rvF3 w) (c.get (rvB w)) with
    | some s => some (coreNext s k nx)
    | none => some (coreTrap s k 7 a)

/-! ## Control -/

/-- A jump: its target must be aligned, to 4 bytes for a lantern core and to 2 for a host core. -/
def rvJump (s : State) (k : Nat) (d : BitVec 5) (target nx : DWord) : State :=
  if target.toNat % (if k < 16 then 4 else 2) != 0 then coreTrap s k 0 target
  else coreDone s k d nx target

/-- FENCE of a host core: with w in both sets it orders the hart's stores (R371). -/
def rvFence (s : State) (k : Nat) (w : Word) (nx : DWord) : State :=
  let s := coreNext s k nx
  if 16 ≤ k && w.getLsbD 24 && w.getLsbD 20 then
    s.modMs fun ms => { ms with epochs := tabSet ms.epochs (k - 16) (tabGet 0 ms.epochs (k - 16) + 1) }
  else s

/-! ## Machine-mode registers -/

/-- Does a host core have an interrupt of a queue pending (R375, R382)? -/
def hostIrq (s : State) : Bool := (List.range 16).any fun p => hostLine (s.part p)

/-- What a register reads as; none for one that the model does not hold. -/
def csrRead (s : State) (k csr : Nat) : Option DWord :=
  let c := hubCore s k
  match csr with
  | 0x300 => some (if k < 16 then c.mstatus else c.mstatus ||| 0xA00000000)
  | 0x304 => some c.mie
  | 0x305 => some c.mtvec
  | 0x340 => some c.mscratch
  | 0x341 => some c.mepc
  | 0x342 => some c.mcause
  | 0x343 => some c.mtval
  | 0x344 => some (if 16 ≤ k && hostIrq s then 0x800 else 0)
  | 0xF14 => some (BitVec.ofNat 64 (if k < 16 then k else k - 16))
  | _ => none

/-- A register's value after a write; none for one that is read-only. A host core's mstatus holds the fields of the other modes; MPP
keeps its value where a reserved one is written. -/
def csrPut (c : HubCore) (k csr : Nat) (x : DWord) : Option HubCore :=
  match csr with
  | 0x300 =>
    some (if k < 16 then { c with mstatus := (c.mstatus &&& 0x1800) ||| (x &&& 0x88) }
      else if bitsAt x.toNat 11 2 = 2 then { c with mstatus := (c.mstatus &&& 0x1800) ||| (x &&& 0x7E67AA) }
      else { c with mstatus := x &&& 0x7E7FAA })
  | 0x304 => some { c with mie := x &&& 0x888 }
  | 0x305 => some { c with mtvec := x &&& ~~~2#64 }
  | 0x340 => some { c with mscratch := x }
  | 0x341 => some { c with mepc := x &&& (if k < 16 then ~~~3#64 else ~~~1#64) }
  | 0x342 => some { c with mcause := x }
  | 0x343 => some { c with mtval := x }
  | 0x344 => some c
  | _ => none

/-- CSRRW, CSRRS, CSRRC and their immediate forms; none for a register that the model does not hold. A write of a read-only one is an
illegal instruction. -/
def rvCsr (s : State) (k : Nat) (w : Word) (nx : DWord) : Option State :=
  let c := hubCore s k
  let csr := bitsAt w.toNat 20 12
  let f3 := rvF3 w
  let x : DWord := if 4 ≤ f3 then (rvA w).setWidth 64 else c.get (rvA w)
  match csrRead s k csr with
  | none => none
  | some old =>
    let new := match f3 % 4 with
      | 1 => x
      | 2 => old ||| x
      | _ => old &&& ~~~x
    if f3 % 4 != 1 && rvA w == 0 then some (coreDone s k (rvD w) old nx)
    else
      match csrPut c k csr new with
      | some y => some (coreDone (setHubCore s k y) k (rvD w) old nx)
      | none => some (coreTrap s k 2 (w.setWidth 64))

/-- MRET: MIE takes MPIE, and the core goes on at mepc, a host core in the mode that MPP names; MPP is then user mode. A lantern core
has machine mode only. -/
def coreReturn (k : Nat) (c : HubCore) : HubCore :=
  let y := (c.mstatus &&& ~~~0x88#64) ||| ((c.mstatus >>> 4) &&& 8) ||| 0x80
  if k < 16 then { c with mstatus := y, pc := c.mepc }
  else
    let mpp := BitVec.ofNat 2 (bitsAt c.mstatus.toNat 11 2)
    { c with mstatus := y &&& (if mpp == 3 then ~~~0x1800#64 else ~~~0x21800#64), priv := mpp, pc := c.mepc }

/-- A word of SYSTEM: ECALL, EBREAK, MRET, WFI and, on a host core, WRS (which may end at once), a may-be operation, which writes 0, or
a register access. -/
def rvSystem (s : State) (k : Nat) (w : Word) (nx : DWord) : Option State :=
  if rvF3 w % 4 != 0 then rvCsr s k w nx
  else if w == 0x00000073 then some (coreTrap s k 11 0)
  else if w == 0x00100073 then some (coreTrap s k 3 0)
  else if w == 0x30200073 then some (setHubCore s k (coreReturn k (hubCore s k)))
  else if w == 0x10500073 || (16 ≤ k && (w == 0x00D00073 || w == 0x01D00073)) then some (coreNext s k nx)
  else if 16 ≤ k && rvF3 w = 4 && w &&& 0xB0000000 == 0x80000000 && (w.getLsbD 25 || w &&& 0x03C00000 == 0x01C00000) then
    some (coreDone s k (rvD w) 0 nx)
  else none

/-! ## One instruction -/

/-- The count of leading zeros of an n-bit value, from its highest one. -/
def zerosAbove (n x : Nat) : Nat := if x = 0 then n else n - 1 - Nat.log2 x

/-- The count of trailing zeros of an n-bit value. -/
def zerosBelow (n x : Nat) : Nat := ((List.range n).find? fun i => x / 2 ^ i % 2 = 1).getD n

/-- The ones of an n-bit value. -/
def onesIn (n x : Nat) : Nat := ((List.range n).filter fun i => x / 2 ^ i % 2 = 1).length

/-- A rotation to the right of an n-bit value. -/
def rotBy (n x k : Nat) : Nat := x / 2 ^ (k % n) + x % 2 ^ (k % n) * 2 ^ (n - k % n)

/-- The one-operand bit operations of Zbb (immediate fields 0x600 to 0x605). -/
def rvUnary (imm n x : Nat) : Option Nat :=
  match imm with
  | 0x600 => some (zerosAbove n x)
  | 0x601 => some (zerosBelow n x)
  | 0x602 => some (onesIn n x)
  | _ => none

/-- A word of OP-IMM that RVA23 adds: shifts of a single bit, counts, sign extensions, rotations, bytes. -/
def rvBitImm (x : DWord) (f3 imm : Nat) : Option DWord :=
  let n := imm % 64
  match f3, imm / 64 with
  | 1, 0x0A => some (x ||| (1#64 <<< n))
  | 1, 0x12 => some (x &&& ~~~(1#64 <<< n))
  | 1, 0x1A => some (x ^^^ (1#64 <<< n))
  | 1, 0x18 =>
    (match imm with
     | 0x604 => some ((x.setWidth 8).signExtend 64)
     | 0x605 => some ((x.setWidth 16).signExtend 64)
     | _ => (rvUnary imm 64 x.toNat).map (BitVec.ofNat 64))
  | 5, 0x12 => some (if x.getLsbD n then 1 else 0)
  | 5, 0x18 => some (BitVec.ofNat 64 (rotBy 64 x.toNat n))
  | 5, 0x0A => if imm = 0x287 then some (BitVec.ofNat 64 (leNat ((leBytes 8 x.toNat).map fun b => if b == 0 then 0 else 0xFF))) else none
  | 5, 0x1A => if imm = 0x6B8 then some (BitVec.ofNat 64 (leNat (leBytes 8 x.toNat).reverse)) else none
  | _, _ => none

/-- The same of OP-IMM-32. -/
def rvBitImmW (x : DWord) (f3 imm : Nat) : Option DWord :=
  let a := x.toNat % 2 ^ 32
  match f3, imm / 64 with
  | 1, 0x02 => some (BitVec.ofNat 64 (a * 2 ^ (imm % 64)))
  | 1, 0x18 => (rvUnary imm 32 a).map (BitVec.ofNat 64)
  | 5, 0x18 => if imm % 64 < 32 then some ((BitVec.ofNat 32 (rotBy 32 a imm)).signExtend 64) else none
  | _, _ => none

/-- A word of OP-IMM or OP-IMM-32; none for one that has no meaning. -/
def rvImm (s : State) (k : Nat) (w : Word) (nx : DWord) : Option State :=
  let x := (hubCore s k).get (rvA w)
  let f3 := rvF3 w
  let imm := bitsAt w.toNat 20 12
  let done (r : DWord) : State := coreDone s k (rvD w) r nx
  let more (r : Option DWord) : Option State := if 16 ≤ k then r.map done else none
  if bitsAt w.toNat 0 7 = 0x13 then
    (if f3 % 4 != 1 then some (done (rvAlu f3 false x (immI w)))
     else if bitsAt w.toNat 26 6 = 0 then some (done (rvAlu f3 false x (immI w)))
     else if f3 = 5 && bitsAt w.toNat 26 6 = 16 then some (done (rvAlu 5 true x (immI w)))
     else more (rvBitImm x f3 imm))
  else if f3 = 0 then (rvAluW 0 false x (immI w)).map done
  else if rvF7 w = 0 then (rvAluW f3 false x (immI w)).map done
  else if f3 = 5 && rvF7 w = 32 then (rvAluW 5 true x (immI w)).map done
  else more (rvBitImmW x f3 imm)

/-- A word of OP that RVA23 adds: shifted addition, logic with a complement, bits, extremes, rotations, conditional zero. -/
def rvBits (f7 f3 : Nat) (x y : DWord) : Option DWord :=
  let n := y.toNat % 64
  match f7, f3 with
  | 0x10, 2 => some (x <<< 1 + y)
  | 0x10, 4 => some (x <<< 2 + y)
  | 0x10, 6 => some (x <<< 3 + y)
  | 0x20, 7 => some (x &&& ~~~y)
  | 0x20, 6 => some (x ||| ~~~y)
  | 0x20, 4 => some (~~~(x ^^^ y))
  | 0x05, 4 => some (if x.slt y then x else y)
  | 0x05, 5 => some (if x.ult y then x else y)
  | 0x05, 6 => some (if x.slt y then y else x)
  | 0x05, 7 => some (if x.ult y then y else x)
  | 0x30, 1 => some (BitVec.ofNat 64 (rotBy 64 x.toNat (64 - n)))
  | 0x30, 5 => some (BitVec.ofNat 64 (rotBy 64 x.toNat n))
  | 0x14, 1 => some (x ||| (1#64 <<< n))
  | 0x24, 1 => some (x &&& ~~~(1#64 <<< n))
  | 0x34, 1 => some (x ^^^ (1#64 <<< n))
  | 0x24, 5 => some (if x.getLsbD n then 1 else 0)
  | 0x07, 5 => some (if y == 0 then 0 else x)
  | 0x07, 7 => some (if y == 0 then x else 0)
  | _, _ => none

/-- The same of OP-32; `b` is rs2's number. -/
def rvBitsW (f7 f3 : Nat) (b : BitVec 5) (x y : DWord) : Option DWord :=
  let u : DWord := x &&& 0xFFFFFFFF
  match f7, f3 with
  | 0x04, 0 => some (u + y)
  | 0x10, 2 => some (u <<< 1 + y)
  | 0x10, 4 => some (u <<< 2 + y)
  | 0x10, 6 => some (u <<< 3 + y)
  | 0x04, 4 => if b == 0 then some (x &&& 0xFFFF) else none
  | 0x30, 1 => some ((BitVec.ofNat 32 (rotBy 32 u.toNat (32 - y.toNat % 32))).signExtend 64)
  | 0x30, 5 => some ((BitVec.ofNat 32 (rotBy 32 u.toNat (y.toNat % 32))).signExtend 64)
  | _, _ => none

/-- A word of OP or OP-32; the multiply extension and what RVA23 adds are a host core's. -/
def rvOp (s : State) (k : Nat) (w : Word) (nx : DWord) : Option State :=
  let c := hubCore s k
  let x := c.get (rvA w)
  let y := c.get (rvB w)
  let f3 := rvF3 w
  let wide := bitsAt w.toNat 0 7 = 0x33
  let done (r : DWord) : State := coreDone s k (rvD w) r nx
  let more : Option DWord := if k < 16 then none else if wide then rvBits (rvF7 w) f3 x y else rvBitsW (rvF7 w) f3 (rvB w) x y
  match rvF7 w with
  | 0 => (if wide then some (rvAlu f3 false x y) else rvAluW f3 false x y).map done
  | 32 => (if f3 = 0 || f3 = 5 then (if wide then some (rvAlu f3 true x y) else rvAluW f3 true x y) else more).map done
  | 1 => if 16 ≤ k then (if wide then some (rvMul f3 x y) else rvMulW f3 x y).map done else none
  | _ => more.map done

/-- What an AMO stores; none for a funct5 that has none. -/
def rvAmoOp (f5 : Nat) (n : Nat) (old y : DWord) : Option DWord :=
  let low (v : DWord) : DWord := (v <<< (64 - 8 * n)).sshiftRight (64 - 8 * n)
  let lowU (v : DWord) : DWord := (v <<< (64 - 8 * n)) >>> (64 - 8 * n)
  match f5 with
  | 0x00 => some (old + y)
  | 0x01 => some y
  | 0x04 => some (old ^^^ y)
  | 0x08 => some (old ||| y)
  | 0x0C => some (old &&& y)
  | 0x10 => some (if (low y).slt (low old) then y else old)
  | 0x14 => some (if (low old).slt (low y) then y else old)
  | 0x18 => some (if (lowU y).ult (lowU old) then y else old)
  | 0x1C => some (if (lowU old).ult (lowU y) then y else old)
  | _ => none

/-- A word of AMO on memory that a host core shares: it reads as a load does and stores as a store does. -/
def rvAmo (s : State) (k : Nat) (w : Word) (nx : DWord) : Option State :=
  let c := hubCore s k
  let a := c.get (rvA w)
  let n := 2 ^ rvF3 w
  if k < 16 || rvF3 w != 2 && rvF3 w != 3 then none
  else
    match rvAmoOp (bitsAt w.toNat 27 5) n 0 0 with
    | none => none
    | some _ =>
      if a.toNat % n != 0 then some (coreTrap s k 6 a)
      else if hbmEnd < a.toNat + n then some (coreTrap s k 7 a)
      else
        match coreLoad s k a.toNat n with
        | (s, .error e) => some (coreTrap s k (if e = loadFault then 7 else e) a)
        | (s, .ok v) =>
          let old := BitVec.ofNat 64 v
          let old := (old <<< (64 - 8 * n)).sshiftRight (64 - 8 * n)
          match rvAmoOp (bitsAt w.toNat 27 5) n old (c.get (rvB w)) with
          | some x => (coreStore s k a.toNat n x).map fun s => coreDone s k (rvD w) old nx
          | none => none

/-- A cache-block operation: a block of zeros is stored as a store is; the others change nothing that any agent can see. -/
def rvCbo (s : State) (k : Nat) (w : Word) (nx : DWord) : Option State :=
  let a := (hubCore s k).get (rvA w)
  let b := a.toNat / 64 * 64
  match bitsAt w.toNat 20 12 with
  | 0 => some (coreNext s k nx)
  | 1 => some (coreNext s k nx)
  | 2 => some (coreNext s k nx)
  | 4 => some (if b + 64 ≤ hbmEnd then coreNext (hostStore s (k - 16) false b (List.replicate 64 0)) k nx else coreTrap s k 7 a)
  | _ => none

/-- A core runs a 32-bit word; none for a word that the model does not know. The word of ones is illegal. -/
def runWord (s : State) (k : Nat) (w : Word) (nx : DWord) : Option State :=
  let c := hubCore s k
  match bitsAt w.toNat 0 7 with
  | 0x37 => some (coreDone s k (rvD w) (immU w) nx)
  | 0x17 => some (coreDone s k (rvD w) (c.pc + immU w) nx)
  | 0x6F => some (rvJump s k (rvD w) (c.pc + immJ w) nx)
  | 0x67 => if rvF3 w = 0 then some (rvJump s k (rvD w) ((c.get (rvA w) + immI w) &&& ~~~1#64) nx) else none
  | 0x63 =>
    (rvTaken (rvF3 w) (c.get (rvA w)) (c.get (rvB w))).map fun t =>
      if t then rvJump s k 0 (c.pc + immB w) nx else coreNext s k nx
  | 0x03 => rvLoad s k w nx
  | 0x23 => rvStore s k w nx
  | 0x13 => rvImm s k w nx
  | 0x1B => rvImm s k w nx
  | 0x33 => rvOp s k w nx
  | 0x3B => rvOp s k w nx
  | 0x2F => rvAmo s k w nx
  | 0x0F =>
    if rvF3 w = 0 then some (rvFence s k w nx)
    else if k < 16 then none
    else if rvF3 w = 1 then some (coreNext s k nx)
    else if rvF3 w = 2 && rvD w == 0 then rvCbo s k w nx
    else none
  | 0x73 => rvSystem s k w nx
  | _ => if w == 0xFFFFFFFF then some (coreTrap s k 2 (w.setWidth 64)) else none

/-- A lantern core runs a word of its base set; any other word is an illegal instruction (R367: beyond the base set it runs the four
commands only). -/
def runBase (s : State) (k : Nat) (w : Word) : State :=
  (runWord s k w ((hubCore s k).pc + 4)).getD (coreTrap s k 2 (w.setWidth 64))

end Sys2Proof.Machine
end

