-- ==== Sys2Proof/Machine/Rva.lean ====
section
/-! DEFINITION. The host cores (R1, R3, R371): their short words, loads that complete late as RVWMO allows, and every word of RVA23
that the model does not compute itself, whose effect is a free one (log 10). -/
namespace Sys2Proof.Machine
open Sys2Proof

/-! ## Short words -/

/-- A word of OP-IMM. -/
def mkI (op f3 d a imm : Nat) : Word := BitVec.ofNat 32 (imm % 4096 * 2 ^ 20 + a * 2 ^ 15 + f3 * 2 ^ 12 + d * 2 ^ 7 + op)
/-- A word of OP. -/
def mkR (op f7 f3 d a b : Nat) : Word :=
  BitVec.ofNat 32 (f7 * 2 ^ 25 + b * 2 ^ 20 + a * 2 ^ 15 + f3 * 2 ^ 12 + d * 2 ^ 7 + op)
/-- A store. -/
def mkS (f3 a b imm : Nat) : Word :=
  BitVec.ofNat 32 (imm / 32 % 128 * 2 ^ 25 + b * 2 ^ 20 + a * 2 ^ 15 + f3 * 2 ^ 12 + imm % 32 * 2 ^ 7 + 0x23)
/-- A branch on rs1 and x0, with a signed offset. -/
def mkB (f3 a : Nat) (off : Int) : Word :=
  let i := (off % 8192).toNat
  BitVec.ofNat 32 (bitsAt i 12 1 * 2 ^ 31 + bitsAt i 5 6 * 2 ^ 25 + a * 2 ^ 15 + f3 * 2 ^ 12 + bitsAt i 1 4 * 2 ^ 8 +
    bitsAt i 11 1 * 2 ^ 7 + 0x63)
/-- JAL, with a signed offset. -/
def mkJ (d : Nat) (off : Int) : Word :=
  let i := (off % 2097152).toNat
  BitVec.ofNat 32 (bitsAt i 20 1 * 2 ^ 31 + bitsAt i 1 10 * 2 ^ 21 + bitsAt i 11 1 * 2 ^ 20 + bitsAt i 12 8 * 2 ^ 12 + d * 2 ^ 7 + 0x6F)

/-- An n-bit field as a signed number. -/
def signedAt (n x : Nat) : Int := if x < 2 ^ (n - 1) then x else (x : Int) - 2 ^ n

/-- The six-bit immediate of most short words. -/
def immC (h : Nat) : Int := signedAt 6 (bitsAt h 12 1 * 32 + bitsAt h 2 5)

/-- A signed immediate as a field. -/
def immField (i : Int) : Nat := (i % 4096).toNat

/-- A short word of quadrant 0. -/
def expand0 (h : Nat) : Option Word :=
  let d := bitsAt h 2 3 + 8
  let a := bitsAt h 7 3 + 8
  let word := bitsAt h 10 3 * 8 + bitsAt h 6 1 * 4 + bitsAt h 5 1 * 64
  let dword := bitsAt h 10 3 * 8 + bitsAt h 5 2 * 64
  match bitsAt h 13 3 with
  | 0 =>
    let i := bitsAt h 11 2 * 16 + bitsAt h 7 4 * 64 + bitsAt h 6 1 * 4 + bitsAt h 5 1 * 8
    if i = 0 then none else some (mkI 0x13 0 d 2 i)
  | 2 => some (mkI 0x03 2 d a word)
  | 3 => some (mkI 0x03 3 d a dword)
  | 4 =>
    let i := bitsAt h 6 1 + bitsAt h 5 1 * 2
    (match bitsAt h 10 3 with
     | 0 => some (mkI 0x03 4 d a i)
     | 1 => some (mkI 0x03 (if bitsAt h 6 1 = 0 then 5 else 1) d a (bitsAt h 5 1 * 2))
     | 2 => some (mkS 0 a d i)
     | 3 => if bitsAt h 6 1 = 0 then some (mkS 1 a d (bitsAt h 5 1 * 2)) else none
     | _ => none)
  | 6 => some (mkS 2 a d word)
  | 7 => some (mkS 3 a d dword)
  | _ => none

/-- The register operations of quadrant 1. -/
def expandAlu (h : Nat) : Option Word :=
  let d := bitsAt h 7 3 + 8
  let b := bitsAt h 2 3 + 8
  let n := bitsAt h 12 1 * 32 + bitsAt h 2 5
  match bitsAt h 10 2 with
  | 0 => some (mkI 0x13 5 d d n)
  | 1 => some (mkI 0x13 5 d d (n + 1024))
  | 2 => some (mkI 0x13 7 d d (immField (immC h)))
  | _ =>
    match bitsAt h 12 1, bitsAt h 5 2 with
    | 0, 0 => some (mkR 0x33 32 0 d d b)
    | 0, 1 => some (mkR 0x33 0 4 d d b)
    | 0, 2 => some (mkR 0x33 0 6 d d b)
    | 0, _ => some (mkR 0x33 0 7 d d b)
    | _, 0 => some (mkR 0x3B 32 0 d d b)
    | _, 1 => some (mkR 0x3B 0 0 d d b)
    | _, 2 => some (mkR 0x33 1 0 d d b)
    | _, _ =>
      match bitsAt h 2 3 with
      | 0 => some (mkI 0x13 7 d d 0xFF)
      | 1 => some (mkI 0x13 1 d d 0x604)
      | 2 => some (mkR 0x3B 0x04 4 d d 0)
      | 3 => some (mkI 0x13 1 d d 0x605)
      | 4 => some (mkR 0x3B 0x04 0 d d 0)
      | 5 => some (mkI 0x13 4 d d 0xFFF)
      | _ => none

/-- A short word of quadrant 1. -/
def expand1 (h : Nat) : Option Word :=
  let d := bitsAt h 7 5
  let i := immField (immC h)
  let a := bitsAt h 7 3 + 8
  let off := signedAt 9 (bitsAt h 12 1 * 256 + bitsAt h 10 2 * 8 + bitsAt h 5 2 * 64 + bitsAt h 3 2 * 2 + bitsAt h 2 1 * 32)
  match bitsAt h 13 3 with
  | 0 => some (mkI 0x13 0 d d i)
  | 1 => if d = 0 then none else some (mkI 0x1B 0 d d i)
  | 2 => some (mkI 0x13 0 d 0 i)
  | 3 =>
    if immC h = 0 then (if d % 2 = 1 && d < 16 then some (mkI 0x13 0 0 0 0) else none)
    else if d = 2 then
      some (mkI 0x13 0 2 2 (immField (signedAt 10 (bitsAt h 12 1 * 512 + bitsAt h 6 1 * 16 + bitsAt h 5 1 * 64 + bitsAt h 3 2 * 128 +
        bitsAt h 2 1 * 32))))
    else some (BitVec.ofNat 32 ((immC h % 1048576).toNat * 4096 + d * 128 + 0x37))
  | 4 => expandAlu h
  | 5 =>
    some (mkJ 0 (signedAt 12 (bitsAt h 12 1 * 2048 + bitsAt h 11 1 * 16 + bitsAt h 9 2 * 256 + bitsAt h 8 1 * 1024 + bitsAt h 7 1 * 64 +
      bitsAt h 6 1 * 128 + bitsAt h 3 3 * 2 + bitsAt h 2 1 * 32)))
  | 6 => some (mkB 0 a off)
  | _ => some (mkB 1 a off)

/-- A short word of quadrant 2. -/
def expand2 (h : Nat) : Option Word :=
  let d := bitsAt h 7 5
  let b := bitsAt h 2 5
  match bitsAt h 13 3 with
  | 0 => some (mkI 0x13 1 d d (bitsAt h 12 1 * 32 + b))
  | 2 => if d = 0 then none else some (mkI 0x03 2 d 2 (bitsAt h 12 1 * 32 + bitsAt h 4 3 * 4 + bitsAt h 2 2 * 64))
  | 3 => if d = 0 then none else some (mkI 0x03 3 d 2 (bitsAt h 12 1 * 32 + bitsAt h 5 2 * 8 + bitsAt h 2 3 * 64))
  | 4 =>
    if bitsAt h 12 1 = 0 then
      (if b != 0 then some (mkR 0x33 0 0 d 0 b) else if d = 0 then none else some (mkI 0x67 0 0 d 0))
    else if b != 0 then some (mkR 0x33 0 0 d d b)
    else if d = 0 then some 0x00100073 else some (mkI 0x67 0 1 d 0)
  | 6 => some (mkS 2 2 b (bitsAt h 9 4 * 4 + bitsAt h 7 2 * 64))
  | 7 => some (mkS 3 2 b (bitsAt h 10 3 * 8 + bitsAt h 7 3 * 64))
  | _ => none

/-- The word that a short word stands for; none for one of floating point, or with no meaning. -/
def rvExpand (h : Nat) : Option Word :=
  match h % 4 with
  | 0 => expand0 h
  | 1 => expand1 h
  | 2 => expand2 h
  | _ => none

/-! ## Loads that complete late (RVWMO) -/

/-- The value that a load returns to its register. -/
def HostLoad.value (s : State) (p : HostLoad) : DWord :=
  let x := BitVec.ofNat 64 (leNat ((List.range p.n).map fun i => hostByte s (p.pa + i)))
  if p.signed then (x <<< (64 - 8 * p.n)).sshiftRight (64 - 8 * p.n) else x

/-- The late loads of a host core that pass a test complete, in their order. -/
def completeLoads (s : State) (h : Nat) (f : HostLoad → Bool) : State :=
  let c := s.hart h
  s.setHart h (((c.late.filter f).foldl (fun c p => c.set p.rd (p.value s)) c).keepLate fun p => !f p)

/-- Must a late load complete before a word runs: the word names its register, touches its bytes, or is more than arithmetic, a
branch, a load or a store? -/
def loadMeets (c : HubCore) (w : Word) (p : HostLoad) : Bool :=
  let op := bitsAt w.toNat 0 7
  let names := p.rd == rvD w || p.rd == rvA w || p.rd == rvB w
  let at_ (imm : DWord) : Bool := wordsMeet p.pa p.n (c.get (rvA w) + imm).toNat (2 ^ (rvF3 w % 4))
  match op with
  | 0x03 => names || at_ (immI w)
  | 0x23 => names || at_ (immS w)
  | 0x13 => names
  | 0x1B => names
  | 0x33 => names
  | 0x3B => names
  | 0x37 => names
  | 0x17 => names
  | 0x63 => names
  | 0x67 => names
  | 0x6F => names
  | _ => true

/-- A load of memory goes on without its value: it returns later. Whether it may be read is settled as it issues. -/
def lateLoad (s : State) (h : Nat) (w : Word) (nx : DWord) : Option State :=
  let c := s.hart h
  let a := (c.get (rvA w) + immI w).toNat
  let n := 2 ^ (rvF3 w % 4)
  if bitsAt w.toNat 0 7 != 0x03 || rvF3 w = 7 || hbmEnd < a + n then none
  else
    match coreLoad s (16 + h) a n with
    | (s, .ok _) =>
      let c := s.hart h
      some (s.setHart h { c with late := c.late ++ [{ rd := rvD w, pa := a, n := n, signed := decide (rvF3 w < 4) }], pc := nx })
    | (_, .error _) => none

/-! ## Words whose effect is free -/

/-- The registers of a host core as one list: x, f, v, pc, the mode, the machine-mode registers. -/
def HubCore.flat (c : HubCore) : List DWord :=
  c.x.toList ++ c.f.toList ++ (c.v.toList.flatMap fun (y : BitVec 128) => [y.setWidth 64, (y >>> 64).setWidth 64]) ++
    [c.pc, (c.priv.setWidth 64) ||| (BitVec.ofNat 64 (c.virt.toNat * 4)), c.mstatus, c.mie, c.mtvec, c.mscratch, c.mepc, c.mcause, c.mtval]

/-- A host core with the registers of such a list; x0 stays 0. -/
def HubCore.unflat (c : HubCore) (l : List DWord) : HubCore :=
  let at_ (i : Nat) : DWord := l.getD i 0
  { c with x := Vector.ofFn fun i => if i.val = 0 then 0 else at_ i.val, f := Vector.ofFn fun i => at_ (32 + i.val),
           v := Vector.ofFn fun i => (at_ (65 + 2 * i.val)) ++ (at_ (64 + 2 * i.val)),
           pc := at_ 128, priv := (at_ 129).setWidth 2, virt := (at_ 129).getLsbD 2, mstatus := at_ 130, mie := at_ 131,
           mtvec := at_ 132, mscratch := at_ 133, mepc := at_ 134, mcause := at_ 135, mtval := at_ 136 }

/-- What an instruction reads, one access after the other: its own word, its tables, its data (fuel: the accesses). -/
def freeReads (h : Nat) (s : State) : Nat → List Byte → State × Except (Nat × Nat) (List Byte)
  | 0, got => (s, .ok got)
  | k + 1, got =>
    let c := s.hart h
    match Config.rvReads c.flat c.csrs got with
    | none => (s, .ok got)
    | some (a, n) =>
      match coreLoad s (16 + h) a n with
      | (s, .error e) => (s, .error (e, a))
      | (s, .ok v) => freeReads h s k (got ++ leBytes n v)

/-- What an instruction stores, one access after the other, up to one that fails. -/
def freeStores (h : Nat) (s : State) : List (Nat × List Byte) → State
  | [] => s
  | (a, b) :: r =>
    match coreStore s (16 + h) a b.length (BitVec.ofNat 64 (leNat b)) with
    | some s => freeStores h s r
    | none => coreTrap s (16 + h) 7 (BitVec.ofNat 64 a)

/-- A host core runs an instruction that the model does not compute: floating point, vectors, reservations, and every word outside
machine mode. The spec names the profile and gives no effect of its words; what it reads, what becomes of the registers and what it stores
is free, and each access is made as a host core's (R371, log 10). -/
def runFree (s : State) (h : Nat) (got : List Byte) : State :=
  match freeReads h s 4096 got with
  | (s, .error (e, a)) => coreTrap s (16 + h) e (BitVec.ofNat 64 a)
  | (s, .ok got) =>
    let c := s.hart h
    let (l, csrs, stores, fenced) := Config.rvRuns c.flat c.csrs got
    let s := s.setHart h { c.unflat l with csrs := csrs }
    let s := if fenced then s.modMs fun ms => { ms with epochs := tabSet ms.epochs h (tabGet 0 ms.epochs h + 1) } else s
    freeStores h s stores

/-! ## One instruction -/

/-- The machine external interrupt. -/
def causeExternal : DWord := 0x800000000000000B

/-- Does a host core take an interrupt before its next instruction? Below machine mode MIE does not hold it back. -/
def takesIrq (s : State) (h : Nat) : Bool :=
  ((s.hart h).mstatus.getLsbD 3 || (s.hart h).priv != 3) && (s.hart h).mie.getLsbD 11 && hostIrq s

/-- Does a host core run words as the model computes them: in machine mode, with its own addresses? -/
def HubCore.plain (c : HubCore) : Bool := c.priv == 3 && !c.mstatus.getLsbD 17

/-- A host core runs a word whose bytes it has fetched; `nx` is the address behind it. `late` lets a load return later. -/
def runHostWord (s : State) (h : Nat) (late : Bool) (w : Word) (nx : DWord) : Option State :=
  let s := completeLoads s h (loadMeets (s.hart h) w)
  if late then (lateLoad s h w nx).orElse fun _ => runWord s (16 + h) w nx else runWord s (16 + h) w nx

/-- A host core runs its next instruction, or takes an interrupt. A word of 16 zeros is an illegal instruction. -/
def runHart (s : State) (h : Nat) (late : Bool) : State :=
  let c := s.hart h
  let all (s : State) : State := completeLoads s h fun _ => true
  if takesIrq s h then s.setHart h (c.trap causeExternal 0)
  else if !c.plain then runFree (all s) h []
  else
    let fails (s : State) (n : Nat) : State := coreTrap s (16 + h) (if n = loadFault then 1 else n) c.pc
    match coreLoad s (16 + h) c.pc.toNat 2 with
    | (s, .error n) => fails s n
    | (s, .ok lo) =>
      if lo = 0 then coreTrap s (16 + h) 2 0
      else if lo % 4 != 3 then
        match (rvExpand lo).bind fun w => runHostWord s h late w (c.pc + 2) with
        | some t => t
        | none => runFree (all s) h (leBytes 2 lo)
      else
        match coreLoad s (16 + h) (c.pc.toNat + 2) 2 with
        | (s, .error n) => fails s n
        | (s, .ok hi) =>
          (runHostWord s h late (BitVec.ofNat 32 (hi * 65536 + lo)) (c.pc + 4)).getD (runFree (all s) h (leBytes 4 (hi * 65536 + lo)))

end Sys2Proof.Machine
end

