-- ==== Sys2Proof/Machine/Fetch.lean ====
section
/-! DEFINITION. What a move of the agenda comes to before an instruction runs: who issues, its word, the faults of the fetch
(R17, R71, R249, R283, R310, R341, R343, R367), what the agenda alone settles, and the state in which a given word is the next to run. -/
namespace Sys2Proof.Machine
open Sys2Proof

/-- What a move comes to. -/
inductive Fetched where
  /-- Nothing is left to run: nobody may issue, or the fetch ended in a fault or a stop. -/
  | idle (s : State)
  /-- An instruction runs. -/
  | word (s : State) (i : Instr)

/-! ## Warps and the MCC -/

/-- The fragment of a party that issues next, once every thread with a held posted access is parked (R143). -/
def nextFrag (s : State) (k : Key) (who : Who) : State × Option Ctx :=
  let s := parkHeld s k who
  (s, ((s.party? k who).bind fun p => pickFrag s k who p).bind fun i => ctxAt s k who i)

/-- The MCC of a cluster that may issue. -/
def readyMcc (s : State) (cl : Nat) : Option Key :=
  ((s.runBlocks cl).find? fun b => !b.mccEnded && b.mcc.any fun p => (pickFrag s b.key .mcc p).isSome).map fun b => b.key

/-- A fragment fetches its word: a breakpoint stops it first, then the fetch may fault, then the word may be none (R71). -/
def fetchFrag (c : Ctx) (late : Bool) (s : State) : Fetched :=
  match breakUnit s c with
  | some n => .idle (breakStop c n s)
  | none =>
    match fetchWord c c.f.pc s with
    | (s, .error f) => .idle (raiseAll c f s)
    | (s, .ok w) =>
      match decodeWord w with
      | .ok i => .word { s with turn := .frag c.key c.who c.i, late := late } i
      | .error _ => .idle (if isPrefix w then prefixFault c (flt cILLOP) s else raiseAll c (flt cILLOP) s)

/-- A party issues. -/
def fetchParty (s : State) (k : Key) (who : Who) (late : Bool) : Fetched :=
  match nextFrag s k who with
  | (s, some c) => fetchFrag c late s
  | (s, none) => .idle s

/-- The warp a pipe issues: a 64-wide one only when both of its pipes choose it (R310). -/
def pipeWarp (s : State) (cl p : Nat) : Option (Key × Nat) :=
  match pickWarp s cl p with
  | some (k, n, _) =>
    let twin := p / 2 * 2 + (1 - p % 2)
    if s.widthOf k != 64 || (pickWarp s cl twin).any (fun e => e.1 = k && e.2.1 = n) then some (k, n) else none
  | none => none

/-- A fragment at a BRK. -/
def atBrk (c : Ctx) (s : State) : Option Instr :=
  match (fetchWord c c.f.pc s).2 with
  | .ok w =>
    (match decodeWord w with
     | .ok (.brk sw n) => some (.brk sw n)
     | _ => none)
  | .error _ => none

/-- A pipe of a cluster that froze in this cycle: what it issued then was a BRK that reports behind the others (R343), or came
before the freeze. -/
def frozenIssue (s : State) (cl p : Nat) : Fetched :=
  let u := s.modCluster cl fun c => { c with frozen := false }
  match (pipeWarp u cl p).bind fun e => (nextFrag u e.1 (.warp e.2)).2 with
  | some c =>
    if dbgArm s c.key.part && sameCycle s c && !((s.cluster cl).lastRun.any fun e => e.1 = p) && (breakUnit s c).isNone then
      match atBrk c s with
      | some i => .word { s with turn := .frag c.key c.who c.i, late := false } i
      | none => .idle s
    else .idle s
  | none => .idle s

/-! ## The cores of the hub die (R1, R367, R371) -/

/-- A lantern core fetches its word from its SRAM. -/
def fetchLantern (s : State) (n : Nat) : Fetched :=
  let l := s.lantern n
  if s.hub.halted || 16 ≤ n || l.swait.isSome then .idle s
  else if hbmEnd < l.pc.toNat + 4 then .idle (coreTrap s n 1 l.pc)
  else
    let w := leNat (memRead l.sram l.pc.toNat 4)
    match decodeLantern w with
    | .ok i => .word { s with turn := .lantern n } i
    | .error _ =>
      if bitsAt w 0 7 == 0x0B then .idle (s.modLantern n fun l => l.trap causeIllegal (BitVec.ofNat 64 w))
      else .idle (runBase s n (BitVec.ofNat 32 w))

/-- A host core runs its next word. -/
def fetchHart (s : State) (n : Nat) (late : Bool) : Fetched :=
  .idle (if s.hub.halted || 32 ≤ n then s else runHart s n late)

/-! ## What the device does of its own accord (R285, R289, R290, R292, R324) -/

/-- The L2 gives up a Z line: its zeros go to memory, and with them good sectors. -/
def dropZline (ms : MemSys) (line : Nat) : MemSys :=
  if ms.zlines.contains line then
    { ms with zlines := ms.zlines.filter fun x => x != line, badSect := ms.badSect.filter fun c => c / 4 != line,
              errs := ms.errs.filter fun e => e.1 / 4 != line }
  else ms

/-! ## Moves -/

/-- A pipe that has issued in the vector cycle begins another one: a pipe issues at most once in each (R310). -/
def newVector (s : State) (cl pipe : Nat) : State :=
  if (s.cluster cl).lastRun.any fun e => e.1 = pipe then endVector s cl else s

/-- What a step without an encoding comes to: its operands are in their ranges, and a halted hub, which brings nothing up, knows
only a reset (R378). -/
def fetchEvent (i : Instr) (s : State) : Fetched :=
  if (encode? i).isSome || !i.wf || (s.hub.halted && i != .moduleReset) then .idle s else .word { s with turn := .none } i

/-- What a move of the agenda comes to. -/
def fetch (m : Move) (s : State) : Fetched :=
  match m with
  | .issue (.pipe cl p) late =>
    if (s.cluster cl).frozen then frozenIssue s cl p
    else
      let s := newVector s cl p
      (match pipeWarp s cl p with
       | some (k, n) => fetchParty s k (.warp n) late
       | none => .idle s)
  | .issue (.mcc cl) late =>
    let s := newVector s cl 4
    (match readyMcc s cl with
     | some k => fetchParty s k .mcc late
     | none => .idle s)
  | .issue (.lantern n) _ => fetchLantern s n
  | .issue (.hart n) late => fetchHart s n late
  | .event i => fetchEvent i s
  | .evict n => .idle (s.modMs fun ms => { ms with tlb := ldrop ms.tlb n })
  | .zevict line => .idle (s.modMs fun ms => dropZline ms line)
  | .ievict n => .idle (s.modMs fun ms => { ms with icache := ldrop ms.icache n })
  | .levict n => .idle (s.modMs fun ms => { ms with l1Pois := ldrop ms.l1Pois n })
  | .walk h part asid va => .idle (walkAhead s h part asid va)
  | .decay sector fixable => .idle (decaySector s sector fixable)

/-! ## Placing a word where the next step fetches (log 8) -/

/-- The launch record of the word: one block of one 32-wide warp and an MCC program, both at the fetch block behind a header
at address 0, with what a block may hold. -/
def probeRecord : LaunchRec :=
  { kaddr := 0, caddr := 0, csize := 65536, scratch := 524288, acc := 128, pool := 0, asid := 0, cslr := 0, gx := 1, gy := 1, gz := 1,
    dx := 32, dy := 1, dz := 1, gangsz := 0, flags := 0x30, tlim := 0, whnd := 0, mhnd := 0, trec := 0, tsys := 0, tque := 0,
    paddr := 0, psize := 0, grpmask := 0, stat := 0, slots := List.replicate 8 0, width := 32, c16 := false, win := 64,
    hasMcc := true, mccOff := 1 }

/-- The launch of the word. -/
def probeLaunch : Launch :=
  { part := 0, grid := 1, queue := 0, raddr := 0, lr := probeRecord, next := 1, noMore := true, started := true,
    inRun := false, leaves := false, first := 0, copies := [], bundle := [], sigc := false, sigAddr := 0, sigVal := 0, node := none, begin_ := 0,
    fault := false, peatovf := false, repdiv := false, tlimit := false, energy := 0, sFault := 0, sIo := 0, sExec := 0,
    tend := 0, stage := 0, stuck := none, peat := [], prefix_ := false, groups := [], again := [] }

/-- The translation under which the word is fetched: the first page, to the first page of HBM. -/
def probeEntry : TlbEntry :=
  { holder := 0, asid := 0, part := 0, base := 0, size := 65536, frame := 0, cont := false, r := true, w := true, x := true }

/-- A word of a warp, or of the MCC, is the next to run on cluster 0: its launch, its block and its bytes are in place. -/
def placeWord (s : State) (mcc : Bool) (w : Nat) : State :=
  let b := leBytes 8 w
  let s := s.modMs fun ms =>
    { ms with mem := memWrite ms.mem 64 b, sys := memWrite ms.sys 64 b, tlb := probeEntry :: ms.tlb,
              badSect := ms.badSect.filter (fun x => x != 2), errs := ms.errs.filter (fun e => e.1 != 2),
              zlines := ms.zlines.filter (fun x => x != 0),
              icache := ms.icache.filter fun e => !(e.cluster = 0 && e.asid = 0 && e.part = 0 && (e.va = 64 || e.va = 68)) }
  let s := if (s.cluster 0).frozen then s.modCluster 0 fun c => { c with frozen := false } else s
  let s := if (s.part 0).dbgctl == 0 then s else s.modPart 0 fun q => { q with dbgctl := 0 }
  { s with agenda := .issue (if mcc then .mcc 0 else .pipe 0 0) false :: s.agenda, launches := [probeLaunch],
           blocks := [newBlock probeLaunch { part := 0, grid := 1, blk := 0 } 0 []] }

/-- A command word is the next to run on lantern core 0. -/
def placeCommand (s : State) (w : Nat) : State :=
  let l := s.lantern 0
  let s := s.setLantern 0 { l with sram := memWrite l.sram l.pc.toNat (leBytes 4 w), swait := none }
  let s := if s.hub.halted then s.modHub fun u => { u with halted := false } else s
  { s with agenda := .issue (.lantern 0) false :: s.agenda }

/-- Place a word where the next step fetches: the MCC runs the words that a warp does not (R69), a lantern core those of
R367. -/
def placeNext (s : State) (w : Nat) : State :=
  match decodeWord w with
  | .ok i => placeWord s (!i.warpRuns) w
  | .error _ =>
    match decodeLantern w with
    | .ok _ => placeCommand s w
    | .error _ => placeWord s false w

end Sys2Proof.Machine
end

