-- ==== Sys2Proof/Machine/Dispatch.lean ====
section
/-! DEFINITION. One arm per constructor of Instr: the meaning of each row of the opcode table. -/
namespace Sys2Proof.Machine
open Sys2Proof

/-- The effect of an instruction, or of a step without an encoding, on the machine. -/
def exec (i : Instr) (s : State) : Host.Outcome State Fault Refusal :=
  match i with
  | .nop x1 => Sys2Proof.Machine.execNop x1 s
  | .iadd x1 x2 x3 x4 x5 x6 => Sys2Proof.Machine.execIadd x1 x2 x3 x4 x5 x6 s
  | .iaddSat x1 x2 x3 x4 x5 x6 x7 => Sys2Proof.Machine.execIaddSat x1 x2 x3 x4 x5 x6 x7 s
  | .isub x1 x2 x3 x4 x5 x6 => Sys2Proof.Machine.execIsub x1 x2 x3 x4 x5 x6 s
  | .isubSat x1 x2 x3 x4 x5 x6 x7 => Sys2Proof.Machine.execIsubSat x1 x2 x3 x4 x5 x6 x7 s
  | .iaddImm x1 x2 x3 x4 x5 => Sys2Proof.Machine.execIaddImm x1 x2 x3 x4 x5 s
  | .imul x1 x2 x3 x4 x5 x6 => Sys2Proof.Machine.execImul x1 x2 x3 x4 x5 x6 s
  | .imulh x1 x2 x3 x4 x5 x6 x7 => Sys2Proof.Machine.execImulh x1 x2 x3 x4 x5 x6 x7 s
  | .imad x1 x2 x3 x4 x5 => Sys2Proof.Machine.execImad x1 x2 x3 x4 x5 s
  | .imin x1 x2 x3 x4 x5 x6 x7 => Sys2Proof.Machine.execImin x1 x2 x3 x4 x5 x6 x7 s
  | .imax x1 x2 x3 x4 x5 x6 x7 => Sys2Proof.Machine.execImax x1 x2 x3 x4 x5 x6 x7 s
  | .iabs x1 x2 x3 x4 => Sys2Proof.Machine.execIabs x1 x2 x3 x4 s
  | .iabsSat x1 x2 x3 x4 => Sys2Proof.Machine.execIabsSat x1 x2 x3 x4 s
  | .rndh x1 x2 x3 x4 x5 x6 => Sys2Proof.Machine.execRndh x1 x2 x3 x4 x5 x6 s
  | .andL x1 x2 x3 x4 x5 x6 => Sys2Proof.Machine.execAndL x1 x2 x3 x4 x5 x6 s
  | .orL x1 x2 x3 x4 x5 x6 => Sys2Proof.Machine.execOrL x1 x2 x3 x4 x5 x6 s
  | .xorL x1 x2 x3 x4 x5 x6 => Sys2Proof.Machine.execXorL x1 x2 x3 x4 x5 x6 s
  | .andn x1 x2 x3 x4 x5 x6 => Sys2Proof.Machine.execAndn x1 x2 x3 x4 x5 x6 s
  | .shl x1 x2 x3 x4 x5 x6 => Sys2Proof.Machine.execShl x1 x2 x3 x4 x5 x6 s
  | .shr x1 x2 x3 x4 x5 x6 => Sys2Proof.Machine.execShr x1 x2 x3 x4 x5 x6 s
  | .sar x1 x2 x3 x4 x5 x6 => Sys2Proof.Machine.execSar x1 x2 x3 x4 x5 x6 s
  | .rol x1 x2 x3 x4 x5 x6 => Sys2Proof.Machine.execRol x1 x2 x3 x4 x5 x6 s
  | .shlImm x1 x2 x3 x4 x5 => Sys2Proof.Machine.execShlImm x1 x2 x3 x4 x5 s
  | .shrImm x1 x2 x3 x4 x5 => Sys2Proof.Machine.execShrImm x1 x2 x3 x4 x5 s
  | .sarImm x1 x2 x3 x4 x5 => Sys2Proof.Machine.execSarImm x1 x2 x3 x4 x5 s
  | .rolImm x1 x2 x3 x4 x5 => Sys2Proof.Machine.execRolImm x1 x2 x3 x4 x5 s
  | .popc x1 x2 x3 x4 => Sys2Proof.Machine.execPopc x1 x2 x3 x4 s
  | .clz x1 x2 x3 x4 => Sys2Proof.Machine.execClz x1 x2 x3 x4 s
  | .brev x1 x2 x3 x4 => Sys2Proof.Machine.execBrev x1 x2 x3 x4 s
  | .bfx x1 x2 x3 x4 x5 x6 x7 => Sys2Proof.Machine.execBfx x1 x2 x3 x4 x5 x6 x7 s
  | .bfi x1 x2 x3 x4 x5 => Sys2Proof.Machine.execBfi x1 x2 x3 x4 x5 s
  | .prmb x1 x2 x3 x4 x5 => Sys2Proof.Machine.execPrmb x1 x2 x3 x4 x5 s
  | .lea x1 x2 x3 x4 x5 x6 x7 => Sys2Proof.Machine.execLea x1 x2 x3 x4 x5 x6 x7 s
  | .icmp x1 x2 x3 x4 x5 x6 x7 x8 => Sys2Proof.Machine.execIcmp x1 x2 x3 x4 x5 x6 x7 x8 s
  | .sel x1 x2 x3 x4 x5 x6 x7 => Sys2Proof.Machine.execSel x1 x2 x3 x4 x5 x6 x7 s
  | .plog x1 x2 x3 x4 x5 x6 => Sys2Proof.Machine.execPlog x1 x2 x3 x4 x5 x6 s
  | .pmovGet x1 x2 x3 => Sys2Proof.Machine.execPmovGet x1 x2 x3 s
  | .pmovPut x1 x2 x3 => Sys2Proof.Machine.execPmovPut x1 x2 x3 s
  | .mov x1 x2 x3 x4 => Sys2Proof.Machine.execMov x1 x2 x3 x4 s
  | .movs x1 x2 x3 x4 => Sys2Proof.Machine.execMovs x1 x2 x3 x4 s
  | .movImm x1 x2 x3 x4 => Sys2Proof.Machine.execMovImm x1 x2 x3 x4 s
  | .vsrd x1 x2 x3 x4 => Sys2Proof.Machine.execVsrd x1 x2 x3 x4 s
  | .fadd x1 x2 x3 x4 x5 x6 => Sys2Proof.Machine.execFadd x1 x2 x3 x4 x5 x6 s
  | .fsub x1 x2 x3 x4 x5 x6 => Sys2Proof.Machine.execFsub x1 x2 x3 x4 x5 x6 s
  | .fmul x1 x2 x3 x4 x5 x6 => Sys2Proof.Machine.execFmul x1 x2 x3 x4 x5 x6 s
  | .ffma x1 x2 x3 x4 x5 => Sys2Proof.Machine.execFfma x1 x2 x3 x4 x5 s
  | .fmin x1 x2 x3 x4 x5 x6 => Sys2Proof.Machine.execFmin x1 x2 x3 x4 x5 x6 s
  | .fmax x1 x2 x3 x4 x5 x6 => Sys2Proof.Machine.execFmax x1 x2 x3 x4 x5 x6 s
  | .fscl x1 x2 x3 x4 x5 x6 => Sys2Proof.Machine.execFscl x1 x2 x3 x4 x5 x6 s
  | .fcmp x1 x2 x3 x4 x5 x6 x7 => Sys2Proof.Machine.execFcmp x1 x2 x3 x4 x5 x6 x7 s
  | .hcmp2 x1 x2 x3 x4 x5 x6 x7 x8 => Sys2Proof.Machine.execHcmp2 x1 x2 x3 x4 x5 x6 x7 x8 s
  | .frnd x1 x2 x3 x4 x5 => Sys2Proof.Machine.execFrnd x1 x2 x3 x4 x5 s
  | .hadd2 x1 x2 x3 x4 x5 x6 x7 => Sys2Proof.Machine.execHadd2 x1 x2 x3 x4 x5 x6 x7 s
  | .hmul2 x1 x2 x3 x4 x5 x6 x7 => Sys2Proof.Machine.execHmul2 x1 x2 x3 x4 x5 x6 x7 s
  | .hmin2 x1 x2 x3 x4 x5 x6 x7 => Sys2Proof.Machine.execHmin2 x1 x2 x3 x4 x5 x6 x7 s
  | .hmax2 x1 x2 x3 x4 x5 x6 x7 => Sys2Proof.Machine.execHmax2 x1 x2 x3 x4 x5 x6 x7 s
  | .hfma2 x1 x2 x3 x4 x5 => Sys2Proof.Machine.execHfma2 x1 x2 x3 x4 x5 s
  | .hfma2Bf16 x1 x2 x3 x4 x5 => Sys2Proof.Machine.execHfma2Bf16 x1 x2 x3 x4 x5 s
  | .exp2 x1 x2 x3 x4 => Sys2Proof.Machine.execExp2 x1 x2 x3 x4 s
  | .log2 x1 x2 x3 x4 => Sys2Proof.Machine.execLog2 x1 x2 x3 x4 s
  | .rcp x1 x2 x3 x4 => Sys2Proof.Machine.execRcp x1 x2 x3 x4 s
  | .rsq x1 x2 x3 x4 => Sys2Proof.Machine.execRsq x1 x2 x3 x4 s
  | .sqrt x1 x2 x3 x4 => Sys2Proof.Machine.execSqrt x1 x2 x3 x4 s
  | .sin x1 x2 x3 x4 => Sys2Proof.Machine.execSin x1 x2 x3 x4 s
  | .cos x1 x2 x3 x4 => Sys2Proof.Machine.execCos x1 x2 x3 x4 s
  | .tanh x1 x2 x3 x4 => Sys2Proof.Machine.execTanh x1 x2 x3 x4 s
  | .cvt x1 x2 x3 x4 x5 x6 x7 => Sys2Proof.Machine.execCvt x1 x2 x3 x4 x5 x6 x7 s
  | .cvth2 x1 x2 x3 x4 x5 x6 x7 => Sys2Proof.Machine.execCvth2 x1 x2 x3 x4 x5 x6 x7 s
  | .cvth2Widen x1 x2 x3 x4 x5 => Sys2Proof.Machine.execCvth2Widen x1 x2 x3 x4 x5 s
  | .cvtq x1 x2 x3 x4 x5 => Sys2Proof.Machine.execCvtq x1 x2 x3 x4 x5 s
  | .cvtd x1 x2 x3 x4 x5 => Sys2Proof.Machine.execCvtd x1 x2 x3 x4 x5 s
  | .mono x1 x2 x3 x4 x5 => Sys2Proof.Machine.execMono x1 x2 x3 x4 x5 s
  | .monoi x1 x2 x3 x4 x5 => Sys2Proof.Machine.execMonoi x1 x2 x3 x4 x5 s
  | .dp4 x1 x2 x3 x4 x5 x6 x7 => Sys2Proof.Machine.execDp4 x1 x2 x3 x4 x5 x6 x7 s
  | .dp8 x1 x2 x3 x4 x5 x6 x7 => Sys2Proof.Machine.execDp8 x1 x2 x3 x4 x5 x6 x7 s
  | .dp2h x1 x2 x3 x4 x5 x6 => Sys2Proof.Machine.execDp2h x1 x2 x3 x4 x5 x6 s
  | .dp4eE4m3 x1 x2 x3 x4 x5 x6 => Sys2Proof.Machine.execDp4eE4m3 x1 x2 x3 x4 x5 x6 s
  | .dp4eE5m2 x1 x2 x3 x4 x5 x6 => Sys2Proof.Machine.execDp4eE5m2 x1 x2 x3 x4 x5 x6 s
  | .dp2hBf16 x1 x2 x3 x4 x5 x6 => Sys2Proof.Machine.execDp2hBf16 x1 x2 x3 x4 x5 x6 s
  | .shfl x1 x2 x3 x4 x5 x6 x7 => Sys2Proof.Machine.execShfl x1 x2 x3 x4 x5 x6 x7 s
  | .voteAny x1 x2 x3 x4 => Sys2Proof.Machine.execVoteAny x1 x2 x3 x4 s
  | .voteAll x1 x2 x3 x4 => Sys2Proof.Machine.execVoteAll x1 x2 x3 x4 s
  | .voteBallot x1 x2 x3 x4 => Sys2Proof.Machine.execVoteBallot x1 x2 x3 x4 s
  | .wred x1 x2 x3 x4 x5 => Sys2Proof.Machine.execWred x1 x2 x3 x4 x5 s
  | .wscan x1 x2 x3 x4 x5 => Sys2Proof.Machine.execWscan x1 x2 x3 x4 x5 s
  | .matchL x1 x2 x3 x4 => Sys2Proof.Machine.execMatchL x1 x2 x3 x4 s
  | .brl x1 x2 x3 => Sys2Proof.Machine.execBrl x1 x2 x3 s
  | .jset x1 x2 x3 => Sys2Proof.Machine.execJset x1 x2 x3 s
  | .lcall x1 x2 x3 => Sys2Proof.Machine.execLcall x1 x2 x3 s
  | .join x1 => Sys2Proof.Machine.execJoin x1 s
  | .lret x1 => Sys2Proof.Machine.execLret x1 s
  | .ldg x1 x2 x3 x4 x5 x6 x7 => Sys2Proof.Machine.execLdg x1 x2 x3 x4 x5 x6 x7 s
  | .stg x1 x2 x3 x4 x5 x6 x7 => Sys2Proof.Machine.execStg x1 x2 x3 x4 x5 x6 x7 s
  | .lds x1 x2 x3 x4 x5 x6 => Sys2Proof.Machine.execLds x1 x2 x3 x4 x5 x6 s
  | .sts x1 x2 x3 x4 x5 x6 => Sys2Proof.Machine.execSts x1 x2 x3 x4 x5 x6 s
  | .ldc x1 x2 x3 x4 x5 x6 x7 => Sys2Proof.Machine.execLdc x1 x2 x3 x4 x5 x6 x7 s
  | .atom x1 x2 x3 x4 x5 x6 => Sys2Proof.Machine.execAtom x1 x2 x3 x4 x5 x6 s
  | .acas x1 x2 x3 x4 x5 x6 x7 => Sys2Proof.Machine.execAcas x1 x2 x3 x4 x5 x6 x7 s
  | .red x1 x2 x3 x4 x5 x6 => Sys2Proof.Machine.execRed x1 x2 x3 x4 x5 x6 s
  | .redm x1 x2 x3 x4 x5 => Sys2Proof.Machine.execRedm x1 x2 x3 x4 x5 s
  | .pfg x1 x2 x3 x4 => Sys2Proof.Machine.execPfg x1 x2 x3 x4 s
  | .zline x1 x2 x3 x4 x5 => Sys2Proof.Machine.execZline x1 x2 x3 x4 x5 s
  | .tfill x1 x2 x3 x4 x5 x6 x7 => Sys2Proof.Machine.execTfill x1 x2 x3 x4 x5 x6 x7 s
  | .adrain x1 x2 x3 x4 x5 x6 => Sys2Proof.Machine.execAdrain x1 x2 x3 x4 x5 x6 s
  | .rep x1 x2 x3 x4 x5 x6 => Sys2Proof.Machine.execRep x1 x2 x3 x4 x5 x6 s
  | .limm x1 => Sys2Proof.Machine.execLimm x1 s
  | .sadd x1 x2 x3 x4 => Sys2Proof.Machine.execSadd x1 x2 x3 x4 s
  | .ssub x1 x2 x3 x4 => Sys2Proof.Machine.execSsub x1 x2 x3 x4 s
  | .saddImm x1 x2 x3 x4 => Sys2Proof.Machine.execSaddImm x1 x2 x3 x4 s
  | .smul x1 x2 x3 x4 => Sys2Proof.Machine.execSmul x1 x2 x3 x4 s
  | .smulh x1 x2 x3 x4 x5 => Sys2Proof.Machine.execSmulh x1 x2 x3 x4 x5 s
  | .sand x1 x2 x3 x4 => Sys2Proof.Machine.execSand x1 x2 x3 x4 s
  | .sor x1 x2 x3 x4 => Sys2Proof.Machine.execSor x1 x2 x3 x4 s
  | .sxor x1 x2 x3 x4 => Sys2Proof.Machine.execSxor x1 x2 x3 x4 s
  | .sshl x1 x2 x3 x4 => Sys2Proof.Machine.execSshl x1 x2 x3 x4 s
  | .sshr x1 x2 x3 x4 => Sys2Proof.Machine.execSshr x1 x2 x3 x4 s
  | .ssar x1 x2 x3 x4 => Sys2Proof.Machine.execSsar x1 x2 x3 x4 s
  | .sshlImm x1 x2 x3 x4 => Sys2Proof.Machine.execSshlImm x1 x2 x3 x4 s
  | .sshrImm x1 x2 x3 x4 => Sys2Proof.Machine.execSshrImm x1 x2 x3 x4 s
  | .ssarImm x1 x2 x3 x4 => Sys2Proof.Machine.execSsarImm x1 x2 x3 x4 s
  | .smin x1 x2 x3 x4 x5 => Sys2Proof.Machine.execSmin x1 x2 x3 x4 x5 s
  | .smax x1 x2 x3 x4 x5 => Sys2Proof.Machine.execSmax x1 x2 x3 x4 x5 s
  | .scmp x1 x2 x3 x4 x5 => Sys2Proof.Machine.execScmp x1 x2 x3 x4 x5 s
  | .ssel x1 x2 x3 x4 => Sys2Proof.Machine.execSsel x1 x2 x3 x4 s
  | .smov x1 x2 x3 => Sys2Proof.Machine.execSmov x1 x2 x3 s
  | .spopc x1 x2 x3 => Sys2Proof.Machine.execSpopc x1 x2 x3 s
  | .sclz x1 x2 x3 => Sys2Proof.Machine.execSclz x1 x2 x3 s
  | .smovl x1 x2 x3 => Sys2Proof.Machine.execSmovl x1 x2 x3 s
  | .smovh x1 x2 x3 => Sys2Proof.Machine.execSmovh x1 x2 x3 s
  | .srd x1 x2 x3 => Sys2Proof.Machine.execSrd x1 x2 x3 s
  | .swr x1 x2 x3 => Sys2Proof.Machine.execSwr x1 x2 x3 s
  | .bra x1 x2 => Sys2Proof.Machine.execBra x1 x2 s
  | .brc x1 x2 x3 x4 => Sys2Proof.Machine.execBrc x1 x2 x3 x4 s
  | .call x1 x2 => Sys2Proof.Machine.execCall x1 x2 s
  | .ret x1 => Sys2Proof.Machine.execRet x1 s
  | .jmpi x1 x2 => Sys2Proof.Machine.execJmpi x1 x2 s
  | .exit x1 => Sys2Proof.Machine.execExit x1 s
  | .yield x1 => Sys2Proof.Machine.execYield x1 s
  | .yieldLy x1 => Sys2Proof.Machine.execYieldLy x1 s
  | .pause x1 x2 => Sys2Proof.Machine.execPause x1 x2 s
  | .bar x1 x2 x3 => Sys2Proof.Machine.execBar x1 x2 x3 s
  | .bara x1 x2 x3 x4 => Sys2Proof.Machine.execBara x1 x2 x3 x4 s
  | .barw x1 x2 x3 x4 => Sys2Proof.Machine.execBarw x1 x2 x3 x4 s
  | .barinit x1 x2 x3 x4 => Sys2Proof.Machine.execBarinit x1 x2 x3 x4 s
  | .gbar x1 x2 => Sys2Proof.Machine.execGbar x1 x2 s
  | .waitcmp x1 x2 x3 x4 x5 => Sys2Proof.Machine.execWaitcmp x1 x2 x3 x4 x5 s
  | .fence x1 x2 x3 x4 x5 => Sys2Proof.Machine.execFence x1 x2 x3 x4 x5 s
  | .xfence x1 x2 x3 x4 => Sys2Proof.Machine.execXfence x1 x2 x3 x4 s
  | .sld x1 x2 x3 x4 x5 x6 => Sys2Proof.Machine.execSld x1 x2 x3 x4 x5 x6 s
  | .sst x1 x2 x3 x4 x5 x6 => Sys2Proof.Machine.execSst x1 x2 x3 x4 x5 x6 s
  | .satom x1 x2 x3 x4 x5 x6 => Sys2Proof.Machine.execSatom x1 x2 x3 x4 x5 x6 s
  | .reggive x1 x2 => Sys2Proof.Machine.execReggive x1 x2 s
  | .regtake x1 x2 => Sys2Proof.Machine.execRegtake x1 x2 s
  | .aallocN x1 x2 x3 => Sys2Proof.Machine.execAallocN x1 x2 x3 s
  | .aalloc x1 x2 => Sys2Proof.Machine.execAalloc x1 x2 s
  | .afree x1 x2 => Sys2Proof.Machine.execAfree x1 x2 s
  | .tcfg x1 x2 x3 => Sys2Proof.Machine.execTcfg x1 x2 x3 s
  | .tld x1 x2 x3 => Sys2Proof.Machine.execTld x1 x2 x3 s
  | .tst x1 x2 x3 => Sys2Proof.Machine.execTst x1 x2 x3 s
  | .trel x1 x2 => Sys2Proof.Machine.execTrel x1 x2 s
  | .mma x1 x2 x3 x4 x5 x6 x7 x8 x9 => Sys2Proof.Machine.execMma x1 x2 x3 x4 x5 x6 x7 x8 x9 s
  | .mmaq x1 x2 x3 x4 x5 x6 x7 x8 x9 x10 => Sys2Proof.Machine.execMmaq x1 x2 x3 x4 x5 x6 x7 x8 x9 x10 s
  | .azero x1 x2 => Sys2Proof.Machine.execAzero x1 x2 s
  | .ascale x1 x2 x3 => Sys2Proof.Machine.execAscale x1 x2 x3 s
  | .mred x1 x2 x3 x4 x5 => Sys2Proof.Machine.execMred x1 x2 x3 x4 x5 s
  | .msync x1 => Sys2Proof.Machine.execMsync x1 s
  | .cpa x1 x2 x3 x4 => Sys2Proof.Machine.execCpa x1 x2 x3 x4 s
  | .cpwp x1 x2 x3 => Sys2Proof.Machine.execCpwp x1 x2 x3 s
  | .gth x1 x2 => Sys2Proof.Machine.execGth x1 x2 s
  | .sct x1 x2 => Sys2Proof.Machine.execSct x1 x2 s
  | .selq x1 x2 x3 => Sys2Proof.Machine.execSelq x1 x2 x3 s
  | .selk x1 x2 x3 => Sys2Proof.Machine.execSelk x1 x2 x3 s
  | .clv x1 x2 x3 x4 => Sys2Proof.Machine.execClv x1 x2 x3 x4 s
  | .tkw x1 x2 => Sys2Proof.Machine.execTkw x1 x2 s
  | .tkq x1 x2 x3 => Sys2Proof.Machine.execTkq x1 x2 x3 s
  | .vcall x1 x2 x3 x4 => Sys2Proof.Machine.execVcall x1 x2 x3 x4 s
  | .vforce x1 x2 x3 x4 => Sys2Proof.Machine.execVforce x1 x2 x3 x4 s
  | .vret x1 => Sys2Proof.Machine.execVret x1 s
  | .vretQ x1 x2 => Sys2Proof.Machine.execVretQ x1 x2 s
  | .vlim x1 x2 x3 x4 => Sys2Proof.Machine.execVlim x1 x2 x3 x4 s
  | .vtag x1 x2 x3 x4 => Sys2Proof.Machine.execVtag x1 x2 x3 x4 s
  | .vmeter x1 x2 x3 => Sys2Proof.Machine.execVmeter x1 x2 x3 s
  | .trap x1 x2 => Sys2Proof.Machine.execTrap x1 x2 s
  | .eret x1 x2 x3 => Sys2Proof.Machine.execEret x1 x2 x3 s
  | .brk x1 x2 => Sys2Proof.Machine.execBrk x1 x2 s
  | .trace x1 x2 x3 => Sys2Proof.Machine.execTrace x1 x2 x3 s
  | .mbox x1 x2 => Sys2Proof.Machine.execMbox x1 x2 s
  | .sysc x1 x2 x3 => Sys2Proof.Machine.execSysc x1 x2 x3 s
  | .leaseq x1 x2 => Sys2Proof.Machine.execLeaseq x1 x2 s
  | .rfetch x1 x2 x3 => Sys2Proof.Machine.execRfetch x1 x2 x3 s
  | .bfxt x1 x2 x3 => Sys2Proof.Machine.execBfxt x1 x2 x3 s
  | .swait x1 x2 x3 => Sys2Proof.Machine.execSwait x1 x2 x3 s
  | .disp x1 x2 x3 => Sys2Proof.Machine.execDisp x1 x2 x3 s
  | .swaitWake x1 => Sys2Proof.Machine.execSwaitWake x1 s
  | .performAcc x1 x2 => Sys2Proof.Machine.execPerformAcc x1 x2 s
  | .mergeRed x1 => Sys2Proof.Machine.execMergeRed x1 s
  | .flushCb x1 => Sys2Proof.Machine.execFlushCb x1 s
  | .runElem x1 => Sys2Proof.Machine.execRunElem x1 s
  | .drainPath x1 => Sys2Proof.Machine.execDrainPath x1 s
  | .exportW x1 => Sys2Proof.Machine.execExportW x1 s
  | .importW x1 => Sys2Proof.Machine.execImportW x1 s
  | .postedAccessFault x1 x2 => Sys2Proof.Machine.execPostedAccessFault x1 x2 s
  | .channelPlaceFreed x1 x2 => Sys2Proof.Machine.execChannelPlaceFreed x1 x2 s
  | .chargeProceed x1 x2 => Sys2Proof.Machine.execChargeProceed x1 x2 s
  | .kgroupComplete x1 => Sys2Proof.Machine.execKgroupComplete x1 s
  | .tileWaitResume x1 x2 => Sys2Proof.Machine.execTileWaitResume x1 x2 s
  | .drainWaitResume x1 x2 => Sys2Proof.Machine.execDrainWaitResume x1 x2 s
  | .selectionEngineStart x1 => Sys2Proof.Machine.execSelectionEngineStart x1 s
  | .waveRelease x1 => Sys2Proof.Machine.execWaveRelease x1 s
  | .waitcmpWake x1 => Sys2Proof.Machine.execWaitcmpWake x1 s
  | .waitcmpPoll x1 => Sys2Proof.Machine.execWaitcmpPoll x1 s
  | .pauseEnd x1 => Sys2Proof.Machine.execPauseEnd x1 s
  | .warpFree x1 x2 => Sys2Proof.Machine.execWarpFree x1 x2 s
  | .blockEnd x1 => Sys2Proof.Machine.execBlockEnd x1 s
  | .lamplighterUpdate x1 => Sys2Proof.Machine.execLamplighterUpdate x1 s
  | .trapEntry x1 x2 => Sys2Proof.Machine.execTrapEntry x1 x2 s
  | .faultRecordWrite x1 => Sys2Proof.Machine.execFaultRecordWrite x1 s
  | .fresumeRetry x1 x2 => Sys2Proof.Machine.execFresumeRetry x1 x2 s
  | .fresumeEndLaunch x1 x2 => Sys2Proof.Machine.execFresumeEndLaunch x1 x2 s
  | .breakpointHit x1 => Sys2Proof.Machine.execBreakpointHit x1 s
  | .watchpointHit x1 => Sys2Proof.Machine.execWatchpointHit x1 s
  | .freezeSpread x1 x2 => Sys2Proof.Machine.execFreezeSpread x1 x2 s
  | .debugWindowWrite x1 x2 x3 => Sys2Proof.Machine.execDebugWindowWrite x1 x2 x3 s
  | .pcSample x1 => Sys2Proof.Machine.execPcSample x1 s
  | .launchPk x1 => Sys2Proof.Machine.execLaunchPk x1 s
  | .graphPk x1 => Sys2Proof.Machine.execGraphPk x1 s
  | .signalPk x1 => Sys2Proof.Machine.execSignalPk x1 s
  | .waitPk x1 => Sys2Proof.Machine.execWaitPk x1 s
  | .leasePk x1 => Sys2Proof.Machine.execLeasePk x1 s
  | .resyncPk x1 => Sys2Proof.Machine.execResyncPk x1 s
  | .fwactPk x1 => Sys2Proof.Machine.execFwactPk x1 s
  | .timerecPk x1 => Sys2Proof.Machine.execTimerecPk x1 s
  | .waitSignalFires x1 => Sys2Proof.Machine.execWaitSignalFires x1 s
  | .arbitrationRound x1 => Sys2Proof.Machine.execArbitrationRound x1 s
  | .queueBecomesRunnable x1 => Sys2Proof.Machine.execQueueBecomesRunnable x1 s
  | .taskQueuePlacement x1 => Sys2Proof.Machine.execTaskQueuePlacement x1 s
  | .balancingExchange x1 => Sys2Proof.Machine.execBalancingExchange x1 s
  | .bundleStart x1 x2 => Sys2Proof.Machine.execBundleStart x1 x2 s
  | .launchCompletion x1 x2 => Sys2Proof.Machine.execLaunchCompletion x1 x2 s
  | .graphNodeStart x1 x2 => Sys2Proof.Machine.execGraphNodeStart x1 x2 s
  | .loopConditionRead x1 x2 => Sys2Proof.Machine.execLoopConditionRead x1 x2 s
  | .graphCompletion x1 => Sys2Proof.Machine.execGraphCompletion x1 s
  | .firmwareActivation x1 => Sys2Proof.Machine.execFirmwareActivation x1 s
  | .warpExchange x1 x2 => Sys2Proof.Machine.execWarpExchange x1 x2 s
  | .pendingPromotion x1 x2 => Sys2Proof.Machine.execPendingPromotion x1 x2 s
  | .phaseSliceExpiry x1 => Sys2Proof.Machine.execPhaseSliceExpiry x1 s
  | .phaseSwap x1 => Sys2Proof.Machine.execPhaseSwap x1 s
  | .blockYield x1 => Sys2Proof.Machine.execBlockYield x1 s
  | .forcedSave x1 => Sys2Proof.Machine.execForcedSave x1 s
  | .savedUnitRestore x1 => Sys2Proof.Machine.execSavedUnitRestore x1 s
  | .timeLimitExpiry x1 x2 => Sys2Proof.Machine.execTimeLimitExpiry x1 x2 s
  | .preemptRequest x1 x2 => Sys2Proof.Machine.execPreemptRequest x1 x2 s
  | .queueReset x1 x2 => Sys2Proof.Machine.execQueueReset x1 x2 s
  | .tlbiPage x1 x2 => Sys2Proof.Machine.execTlbiPage x1 x2 s
  | .tlbiRegion x1 x2 => Sys2Proof.Machine.execTlbiRegion x1 x2 s
  | .tlbiAsid x1 x2 => Sys2Proof.Machine.execTlbiAsid x1 x2 s
  | .tlbiPartition x1 x2 => Sys2Proof.Machine.execTlbiPartition x1 x2 s
  | .tlbiComplete x1 => Sys2Proof.Machine.execTlbiComplete x1 s
  | .syscEntryWrite x1 => Sys2Proof.Machine.execSyscEntryWrite x1 s
  | .scactReply x1 x2 => Sys2Proof.Machine.execScactReply x1 x2 s
  | .scactMarkIo x1 x2 => Sys2Proof.Machine.execScactMarkIo x1 x2 s
  | .scactEndLaunch x1 x2 => Sys2Proof.Machine.execScactEndLaunch x1 x2 s
  | .mailboxRecordWrite x1 => Sys2Proof.Machine.execMailboxRecordWrite x1 s
  | .mailboxHeadWrite x1 x2 => Sys2Proof.Machine.execMailboxHeadWrite x1 x2 s
  | .measextWrite x1 => Sys2Proof.Machine.execMeasextWrite x1 s
  | .svnraiseWrite x1 => Sys2Proof.Machine.execSvnraiseWrite x1 s
  | .attestation => Sys2Proof.Machine.execAttestation s
  | .partctlWrite x1 x2 x3 => Sys2Proof.Machine.execPartctlWrite x1 x2 x3 s
  | .hmapWrite x1 => Sys2Proof.Machine.execHmapWrite x1 s
  | .registerWrite x1 x2 x3 => Sys2Proof.Machine.execRegisterWrite x1 x2 x3 s
  | .leaseDecision x1 => Sys2Proof.Machine.execLeaseDecision x1 s
  | .leaseRevocation x1 => Sys2Proof.Machine.execLeaseRevocation x1 s
  | .leaseEnd x1 => Sys2Proof.Machine.execLeaseEnd x1 s
  | .operatingPointChange => Sys2Proof.Machine.execOperatingPointChange s
  | .energyApportion x1 x2 => Sys2Proof.Machine.execEnergyApportion x1 x2 s
  | .moduleReset => Sys2Proof.Machine.execModuleReset s
  | .patrolScrub x1 x2 => Sys2Proof.Machine.execPatrolScrub x1 x2 s
  | .flitReceive x1 x2 x3 => Sys2Proof.Machine.execFlitReceive x1 x2 x3 s
  | .linkRetrainFail x1 => Sys2Proof.Machine.execLinkRetrainFail x1 s
  | .dmaRequest x1 x2 => Sys2Proof.Machine.execDmaRequest x1 x2 s
  | .resultReturn x1 x2 => Sys2Proof.Machine.execResultReturn x1 x2 s
  | .currentBucketRefill => Sys2Proof.Machine.execCurrentBucketRefill s
  | .hostCoreStore x1 x2 x3 x4 => Sys2Proof.Machine.execHostCoreStore x1 x2 x3 x4 s
  | .collectiveGroupAbort x1 x2 => Sys2Proof.Machine.execCollectiveGroupAbort x1 x2 s
  | .fenlinkPortTrained x1 => Sys2Proof.Machine.execFenlinkPortTrained x1 s
  | .backgroundCheck x1 x2 x3 => Sys2Proof.Machine.execBackgroundCheck x1 x2 x3 s
  | .lanternInterrupt x1 x2 => Sys2Proof.Machine.execLanternInterrupt x1 x2 s

end Sys2Proof.Machine
end

