-- ==== Sys2Proof/Machine/Step.lean ====
section
/-! DEFINITION. One step of the machine, and the state in which a given word is the next to run. -/
namespace Sys2Proof.Machine
open Sys2Proof

/-- Run what a move comes to. -/
def runFetched : Fetched → Host.Outcome State Fault Refusal
  | .idle s => .next s
  | .word s i => exec i s

/-- One step: the first move of the agenda, or, when none is left, a fabric cycle passes (log 5); packets of launches that have
ended leave their queues before it (R296). -/
def step (s : State) : Host.Outcome State Fault Refusal :=
  match s.agenda with
  | [] => .next (clockStep (settleEnded s))
  | m :: r => runFetched (fetch m (settleEnded { s with agenda := r }))

/-- The state with an instruction of nbits bits w stored where the next step fetches (log 8). -/
def State.withFetchWord (s : State) (nbits w : Nat) : State := placeNext s (w % 2 ^ nbits % 2 ^ 32)

end Sys2Proof.Machine
end

