-- ==== Sys2Proof/Safety.lean ====
section
/-! DEFINITION. What a safe state and a safe step are, what an instruction may find and what it leaves: the terms the
statements use. -/
namespace Sys2Proof.Machine
open Sys2Proof

/-- Both views of HBM are in canonical form. -/
def memWf (s : State) : Bool := Memory.wf s.ms.mem && Memory.wf s.ms.sys

/-- A step is safe when it answers a next state: the two faults of the model name a turn that `step` never leaves (log 9), and no
arm of `exec` refuses. -/
def safeStep (s : State) : Bool :=
  match step s with
  | .next _ => true
  | _ => false

/-! ## What an instruction finds -/

/-- A word finds nothing that stops it before its effect (R71): the turn is of a fragment, the word is an instruction that
its party runs, every lane register it names lies in the window (R23), none of its registers is pending (R60), and no source
is poisoned in a lane where it takes effect (R75). `g` is its guard, 0 without one. -/
structure Stands (s : State) (c : Ctx) (i : Instr) (rd wr : RegSet) (g : Nat) : Prop where
  turn   : ctx? s = some c
  wf     : i.wf = true
  runs   : runsHere i c.who = true
  window : outsideWindow c.p (rd.or wr) = false
  clear  : ((rd.or wr).or (RegSet.pr g)).meets c.f.pend = false
  clean  : poisonedLanes c.p rd (c.effLanes g) = 0

/-! ## What an instruction leaves -/

/-- The state but for its blocks, its clusters and the debug hits to be passed over. -/
def State.outside (s : State) : State := { s with blocks := [], clusters := [], pass := [] }

/-- A block but for its parties and its count of issues. -/
def Block.shell (b : Block) : Block := { b with warps := [], mcc := none, issues := 0 }

/-- A party but for its registers and their marks, its fragments, its counts of issues and the issues its call records have
counted. -/
def Party.bare (p : Party) : Party :=
  { p with v := Vector.replicate 64 (Vector.replicate 64 0), s := Vector.replicate 128 0, p := Vector.replicate 4 0,
           poisV := Vector.replicate 64 0, poisS := 0, frags := [], lastIssue := 0, issues := 0,
           calls := p.calls.map fun r => { r with fs := 0 } }

/-- An instruction of fragment c has brought s, with block b in place of the fragment's block, to t, and its party satisfies Q.
No other party or block, nothing else of the block and nothing of the device changes; of its party only registers, fragments
and counts do; the cluster counts the issue slots (R238). -/
structure RanParty (s t : State) (c : Ctx) (b : Block) (Q : Party → Prop) : Prop where
  device  : t.outside = s.outside
  others  : ∀ k, k ≠ c.key → t.block? k = s.block? k
  cluster : ∃ l, t.cluster c.cl = { s.cluster c.cl with is := (s.cluster c.cl).is + c.slots, lastRun := l }
  clusters : ∀ n, n ≠ c.cl → t.cluster n = s.cluster n
  block   : ∃ x, t.block? c.key = some x ∧ x.shell = b.shell ∧ ∀ w, w ≠ c.who → x.party? w = b.party? w
  party   : ∃ p, t.party? c.key c.who = some p ∧ p.bare = c.p.bare ∧ Q p

/-- The same where the fragment becomes f, no other fragment changes, and the registers satisfy R. -/
abbrev RanOn (s t : State) (c : Ctx) (b : Block) (f : Frag) (R : Party → Prop) : Prop :=
  RanParty s t c b fun p => p.frags = lmod c.p.frags c.i (fun _ => f) ∧ R p

/-- The word i takes the fault f for every lane of its fragment (R71): nothing else has happened, but that a debug hit passed
over is forgotten. That such a word is counted in no count of issues, those of the cluster among them, is the model's choice (log 86). -/
def Raises (s : State) (c : Ctx) (i : Instr) (f : Flt) : Prop :=
  ∃ u, u.outside = s.outside ∧ u.blocks = s.blocks ∧ u.clusters = s.clusters ∧ exec i s = .next (raiseAll c f u)

/-- The fragment behind an instruction that writes the registers wr: they are pending and their values outstanding; at a switch
marker it parks while a result is outstanding, and else nothing is pending (R60). -/
def Ctx.behind (c : Ctx) (s : State) (sw : BitVec 1) (wr : RegSet) : Frag :=
  let f := { c.f with pc := c.f.pc + 4, pend := c.f.pend.or wr, out := c.f.out.or wr, wait := .run }
  if sw = 1 then (if resultsOut s c.key c.who f then { f with wait := .switch } else { f with pend := RegSet.none }) else f

/-- The lane registers and their marks are as before but for vd in the lanes m, which reads f. -/
def laneResult (c : Ctx) (d : Nat) (m : Lanes) (f : Nat → Word) (p : Party) : Prop :=
  (∀ r L, r < 64 → L < 64 → p.getV r L = if r = d ∧ m.getLsbD L = true then f L else c.p.getV r L) ∧
  p.s = c.p.s ∧ p.p = c.p.p ∧ p.poisS = c.p.poisS ∧
  ∀ r, r < 64 → vget p.poisV r 0 = if r = d then vget c.p.poisV r 0 &&& ~~~m else vget c.p.poisV r 0

/-- The predicates are as before but for pd in the lanes m, which reads f; p0 discards the write. -/
def predResult (c : Ctx) (d : Nat) (m : Lanes) (f : Nat → Bool) (p : Party) : Prop :=
  (∀ r L, r < 4 → L < 64 → p.getP r L = if r = d ∧ d ≠ 0 ∧ m.getLsbD L = true then f L else c.p.getP r L) ∧
  p.v = c.p.v ∧ p.s = c.p.s ∧ p.poisV = c.p.poisV ∧ p.poisS = c.p.poisS

/-- The uniform registers are as before but for those from sd, which read the words of l. -/
def uniformResult (c : Ctx) (d : Nat) (l : List Word) (p : Party) : Prop :=
  (∀ r, r < 128 → p.getS r = if d ≤ r ∧ r < d + l.length then l.getD (r - d) 0 else c.p.getS r) ∧
  p.v = c.p.v ∧ p.p = c.p.p ∧ p.poisV = c.p.poisV

/-! ## The shapes of register words -/

/-- The lane source v[b], or the uniform source s[b] when u is 1 (R76, without a prefix). -/
def Ctx.src (c : Ctx) (b : BitVec 6) (u : BitVec 1) (L : Nat) : Word :=
  if u = 1 then c.p.getS b.toNat else c.p.getV b.toNat L

/-- The registers an L3 word with operands A and B reads. -/
def l3Reads (a b : BitVec 6) (u : BitVec 1) : RegSet :=
  (RegSet.vs a.toNat 1).or (if u = 1 then RegSet.ss b.toNat 1 else RegSet.vs b.toNat 1)

/-- The word i, of switch marker sw, sources rd and guard g, that nothing stops: its fragment goes on behind it, and vd reads
`val` in the lanes where it takes effect (R74). -/
def LaneOp (i : Instr) (sw : BitVec 1) (rd : RegSet) (g : BitVec 2) (d : BitVec 6) (val : Ctx → Nat → Word) : Prop :=
  ∀ s c, Stands s c i rd (RegSet.vs d.toNat 1) g.toNat →
    ∃ t, exec i s = .next t ∧
      RanOn s t c c.b (c.behind s sw (RegSet.vs d.toNat 1)) (laneResult c d.toNat (c.effLanes g.toNat) (val c))

/-- The same with a predicate as the result; a write of p0 is discarded (R21). -/
def PredOp (i : Instr) (sw : BitVec 1) (rd : RegSet) (g d : BitVec 2) (val : Ctx → Nat → Bool) : Prop :=
  ∀ s c, Stands s c i rd (RegSet.pr d.toNat) g.toNat →
    ∃ t, exec i s = .next t ∧
      RanOn s t c c.b (c.behind s sw (RegSet.pr d.toNat)) (predResult c d.toNat (c.effLanes g.toNat) (val c))

/-- The same for a uniform word, whose results are the words from sd. -/
def UniformOp (i : Instr) (sw : BitVec 1) (rd : RegSet) (d : BitVec 7) (n : Nat) (val : State → Ctx → List Word) : Prop :=
  ∀ s c, Stands s c i rd (RegSet.ss d.toNat n) 0 →
    ∃ t, exec i s = .next t ∧
      RanOn s t c c.b (c.behind s sw (RegSet.ss d.toNat n)) (uniformResult c d.toNat (val s c))

/-! ## Runs -/

/-- The state a step starts from: what has ended is settled, and one move, or none, is chosen. -/
def State.choose (s : State) (m : Option Move) : State := { s with agenda := m.toList }

/-- A run: from every state one move, or a fabric cycle when none is chosen, leads to the next. -/
def Run (r : Nat → State) : Prop := ∀ n, ∃ m, step ((r n).choose m) = .next (r (n + 1))

/-- Is a step one that the device owes, when it may be taken (R279)? What hosts, links, other modules and errors do is not; an issue
that translates its posted accesses later, or passes over a fence, is one of two ways to take it. -/
def Move.owed : Move → Bool
  | .issue _ late => !late
  | .event i =>
    match i with
    | .performAcc _ found => !found
    | .swaitWake _ | .mergeRed _ | .flushCb _ | .runElem _ | .drainPath _ | .exportW _ | .importW _ | .channelPlaceFreed _ _
    | .chargeProceed _ _ | .kgroupComplete _ | .tileWaitResume _ _ | .drainWaitResume _ _ | .selectionEngineStart _ | .waveRelease _
    | .waitcmpWake _ | .waitcmpPoll _ | .pauseEnd _ | .warpFree _ _ | .blockEnd _ | .lamplighterUpdate _ | .trapEntry _ _
    | .faultRecordWrite _ | .freezeSpread _ _ | .pcSample _ | .launchPk _ | .graphPk _ | .signalPk _ | .waitPk _ | .leasePk _
    | .resyncPk _ | .fwactPk _ | .timerecPk _ | .waitSignalFires _ | .arbitrationRound _ | .queueBecomesRunnable _
    | .taskQueuePlacement _ | .balancingExchange _ | .bundleStart _ _ | .launchCompletion _ _ | .graphNodeStart _ _
    | .loopConditionRead _ _ | .graphCompletion _ | .firmwareActivation _ | .warpExchange _ _ | .pendingPromotion _ _
    | .phaseSliceExpiry _ | .phaseSwap _ | .blockYield _ | .forcedSave _ | .savedUnitRestore _ | .timeLimitExpiry _ _
    | .tlbiComplete _ | .syscEntryWrite _ | .mailboxRecordWrite _ | .attestation | .leaseEnd _ | .operatingPointChange
    | .resultReturn _ _ => true
    | _ => false
  | _ => false

/-- May a move be taken: does it change anything? -/
def State.may (s : State) (m : Move) : Prop :=
  ∃ t, step (s.choose (some m)) = .next t ∧ t ≠ settleEnded (s.choose none)

/-- Something that waits for a step of the memory machine: an access of a stream queue, a RED of a pool, a REDM, a RED in a partial, a
write of a path buffer, a write that system observers do not see yet, a host write that is not yet imported. -/
inductive Item where
  | access (a : Access)
  | red (r : RedEntry)
  | redm (r : RedEntry)
  | merged (r : RedEntry)
  | path (w : PathWrite)
  | unseen (w : XWrite)
  | hostw (id : Nat)

/-- Does an item wait in a state, and none of the exceptions of R279 holds it: it is not held for fault service, nor behind one that is,
and its party is neither frozen nor saved? -/
def State.waits (s : State) : Item → Prop
  | .access a => ∃ b ∈ s.ms.queue, b.serial = a.serial ∧ b.key = a.key ∧ b.who = a.who ∧ b.lanes = a.lanes ∧
      (stuckAccesses s s.ms.queue).contains b = false ∧ (runCluster s b.key).isSome = true
  | .red x => ∃ y ∈ s.ms.pool, y.serial = x.serial ∧ y.key = x.key ∧ y.who = x.who ∧ y.lane = x.lane ∧
      stuckRed s y = false ∧ (runCluster s y.key).isSome = true
  | .redm x => ∃ y ∈ s.ms.redm, y.serial = x.serial ∧ y.key = x.key ∧ y.who = x.who ∧ y.lane = x.lane ∧
      stuckRedm s y = false ∧ (runCluster s y.key).isSome = true
  | .merged x => ∃ c ∈ s.ms.cb, x ∈ c.owners
  | .path w => w ∈ s.ms.paths
  | .unseen w => XItem.write w ∈ s.ms.exports
  | .hostw id => ∃ v ∈ s.ms.hostw, v.id = id ∧ v.done = false

/-- A fair run (R279): nothing that waits does so for ever, a step of the device that may be taken from some state on for ever is taken,
and time passes. -/
structure Fair (r : Nat → State) : Prop where
  run   : Run r
  empties : ∀ x n, ∃ k, n ≤ k ∧ ¬(r k).waits x
  taken : ∀ m n, m.owed = true → (∀ k, n ≤ k → (r k).may m) → ∃ k, n ≤ k ∧ step ((r k).choose (some m)) = .next (r (k + 1))
  time  : ∀ n, ∃ k, n ≤ k ∧ step ((r k).choose none) = .next (r (k + 1))

/-- Does the scope of a fence of fragment c take in a party (R275)? The partition's launch says which blocks form a gang. -/
def scopeHolds (c : Ctx) (sc : Nat) (k : Key) (who : Who) : Bool :=
  match sc with
  | 0 => k = c.key && who = c.who
  | 1 => k = c.key
  | 2 => k.part = c.key.part && k.grid = c.key.grid && gangNo c.l k == gangNo c.l c.key
  | _ => true

/-- Does a state's first move pass over a fence whose scope takes in a party? -/
def passesOver (s : State) (k : Key) (who : Who) : Bool :=
  match s.agenda with
  | [] => false
  | m :: r =>
    match fetch m (settleEnded { s with agenda := r }) with
    | .word u (.fence _ _ sc _ _) => fencePassed u sc && (ctx? u).any fun c => scopeHolds c sc.toNat k who
    | .word u (.xfence _ sc _ _) => fencePassed u sc && (ctx? u).any fun c => scopeHolds c sc.toNat k who
    | _ => false

/-- A run that a party may observe (R275): it passes over no fence whose scope takes the party in. What the other parties read in it
is an outcome of the program without the fences passed over (log 91). -/
def RunFor (k : Key) (who : Who) (r : Nat → State) : Prop :=
  ∀ n, ∃ m, step ((r n).choose m) = .next (r (n + 1)) ∧ passesOver ((r n).choose m) k who = false

/-- No register has changed. -/
def noResult (c : Ctx) (p : Party) : Prop :=
  p.v = c.p.v ∧ p.s = c.p.s ∧ p.p = c.p.p ∧ p.poisV = c.p.poisV ∧ p.poisS = c.p.poisS

end Sys2Proof.Machine
end

