-- ==== Sys2Proof/Certificates/Slice0/Obligations.lean ====
section
/-! DEFINITION. The statements for the provers, one definition each, with the terms they are written in. -/
namespace Sys2Proof.Machine
open Sys2Proof

/-! ## Terms of the integer statements -/

/-- An exact integer clamped to i32 (SatI32 of R77). -/
def clampI32 (t : Int) : Word := BitVec.ofInt 32 (max (-2 ^ 31) (min (2 ^ 31 - 1) t))
/-- An exact integer clamped to n32 (SatN32 of R77). -/
def clampN32 (t : Int) : Word := BitVec.ofInt 32 (max 0 (min (2 ^ 32 - 1) t))
/-- Bits 63 to 32 of the exact product of two words, extended as the flag says (R77). -/
def highWord (signed : Bool) (x y : Word) : Word :=
  if signed then ((x.signExtend 64 * y.signExtend 64) >>> 32).setWidth 32
  else ((x.setWidth 64 * y.setWidth 64 : DWord) >>> 32).setWidth 32
/-- The relation of a condition code 0 EQ, 1 NE, 2 LT, 3 LE, 4 GT, 5 GE on integers (R85). -/
def holds (c : Nat) (x y : Int) : Bool :=
  match c with
  | 0 => decide (x = y)
  | 1 => decide (x ≠ y)
  | 2 => decide (x < y)
  | 3 => decide (x ≤ y)
  | 4 => decide (x > y)
  | _ => decide (x ≥ y)
/-- The integer a word is under i32 or n32. -/
def asInt (unsigned : Bool) (x : Word) : Int := if unsigned then x.toNat else x.toInt
/-- The party with an address pushed on the return stacks of a set of lanes (R99). -/
def withPushed (p : Party) (m : Lanes) (a : Addr) : Party :=
  { p with rets := Vector.ofFn fun i : Fin 64 => if m.getLsbD i then a :: vget p.rets i [] else vget p.rets i [] }
/-- The party with the top of the return stacks of a set of lanes dropped (R99). -/
def withPopped (p : Party) (m : Lanes) : Party :=
  { p with rets := Vector.ofFn fun i : Fin 64 => if m.getLsbD i then (vget p.rets i []).tail else vget p.rets i [] }
/-- The least significant bit position and the length of the field a control word names (R81). -/
def fieldOf (k : Word) : Nat × Nat := (k.toNat % 32, min (k.toNat / 2 ^ 8 % 64) (32 - k.toNat % 32))

/-! ## Terms of the memory statements -/

/-- The partition of a fragment has no watchpoint in force (R340). -/
def unwatched (s : State) (c : Ctx) : Prop := dbgArm s c.key.part = false ∧ dbgWtrap s c.key.part = false

/-- The access of n bytes at a passes the checks of its issue (R139, R143, R292): pa is its physical address under a cached
translation; none in the scratchpad, and for a posted access that is translated later. -/
def Passes (s : State) (c : Ctx) (sp : Space) (a : DWord) (n : Nat) (r w posted : Bool) (pa : Option Nat) : Prop :=
  addrCheck c sp a n = none ∧
    (if sp = .scratch ∨ (posted = true ∧ s.late = true ∧ sp = .global) then pa = none
     else ∃ e x, pa = some x ∧ (r = true → eccRead s c.key.part x n = (s, false)) ∧
       tlbFind s.ms.tlb c.cl c.key.part c.l.lr.asid (if sp = .const then constVa c a else a.toNat) = some e ∧
       useEntry e (if sp = .const then constVa c a else a.toNat) r w false = .ok x)

/-- The state with accesses appended to the stream queues as one instruction issues them (R269). -/
def withAccesses (s : State) (l : List Access) : State :=
  s.modMs fun ms => { ms with queue := ms.queue ++ l, serial := ms.serial + 1 }

/-- The access of lanes m of the fragment in stream t. -/
def accessOf (s : State) (c : Ctx) (m : Lanes) (t : Nat) (sp : Space) (a : DWord) (pa : Option Nat) (k : AccKind) : Access :=
  { serial := s.ms.serial, key := c.key, who := c.who, lanes := m, stream := t, pc := c.f.pc, space := sp, va := a, pa := pa,
    kind := k, held := none, dbl := c.dbl }

/-- A load through the L1, which policy `.byp` passes by (R145), meets no poisoned word there (R325). -/
def l1Clean (s : State) (c : Ctx) (r w byp : Bool) (pa : Option Nat) (n : Nat) : Prop :=
  r = true → w = false → byp = false → ∀ x, pa = some x → l1Hit s.ms c.cl x n = false

/-- A load of n bytes of the scratchpad at a by lane L in stream t meets no poisoned word (R325): a word with a mark is written whole
by a store of the thread that is on its way before it in the stream, which clears the mark first (R265). -/
def unmarked (s : State) (c : Ctx) (t n L : Nat) (a : DWord) : Prop :=
  ∀ w ∈ c.b.scrPois, 4 * w < a.toNat + n → a.toNat < 4 * w + 4 →
    ∃ y ∈ s.ms.queue, y.key = c.key ∧ y.who = c.who ∧ y.lanes.getLsbD L = true ∧ y.stream = t ∧ y.space = .scratch ∧
      ∃ d, y.kind = .store d ∧ y.va.toNat ≤ 4 * w ∧ 4 * w + 4 ≤ y.va.toNat + d.length

/-- The addresses of a reduction of n bytes pass the checks of its issue in every lane where it takes effect: alignment and range, and
no word lies in a sector that cannot be read, as the tables stand (R139, R143, R292, log 101). -/
def RedPasses (s : State) (c : Ctx) (g a n : Nat) : Prop :=
  ∀ L, L < 64 → (c.effLanes g).getLsbD L = true →
    addrCheck c .global (c.p.getVD a L) n = none ∧ redEcc c (c.p.getVD a L) n s = (s, false)

/-- The LM word i that nothing stops, and whose accesses pass in every lane where it takes effect: it records one access a
lane, lanes ascending, and its fragment goes on (R141, R144, R269). -/
def LaneAccess (i : Instr) (sw : BitVec 1) (rd wr : RegSet) (g : BitVec 2) (a : BitVec 6) (sp : Space) (t n : Nat)
    (r w posted byp : Bool) (ok : State → Ctx → Nat → DWord → Prop) (kind : Ctx → Nat → AccKind) : Prop :=
  ∀ s c (P : Nat → Option Nat), Stands s c i rd wr g.toNat → unwatched s c →
    (∀ L, L < 64 → (c.effLanes g.toNat).getLsbD L = true →
      Passes s c sp (c.p.getVD a.toNat L) n r w posted (P L) ∧ l1Clean s c r w byp (P L) n ∧
        ok s c L (c.p.getVD a.toNat L)) →
    let v := withAccesses s ((laneList (c.effLanes g.toNat)).map fun L =>
      accessOf s c (laneBit L) t sp (c.p.getVD a.toNat L) (P L) (kind c L))
    ∃ u, exec i s = .next u ∧ RanOn v u c c.b (c.behind v sw wr) (noResult c)

/-- The same for a uniform memory word: one access of the whole fragment (R148). -/
def UniformAccess (i : Instr) (sw : BitVec 1) (rd wr : RegSet) (a : BitVec 7) (t n : Nat) (r w posted byp : Bool)
    (kind : Ctx → AccKind) : Prop :=
  ∀ s c pa, Stands s c i rd wr 0 → unwatched s c → Passes s c .global (c.p.getSD a.toNat) n r w posted pa →
    l1Clean s c r w byp pa n →
    let v := withAccesses s [accessOf s c c.f.lanes t .global (c.p.getSD a.toNat) pa (kind c)]
    ∃ u, exec i s = .next u ∧ RanOn v u c c.b (c.behind v sw wr) (noResult c)

/-- The first n bytes of the lane registers from vd in a lane, low register and low byte first (R140, R144). -/
def storeBytes (c : Ctx) (d n L : Nat) : List Byte :=
  (((List.range 4).map fun r => c.p.getV (d + r) L).flatMap fun x => (List.range 4).map fun k => x.extractLsb' (8 * k) 8).take n

/-! ## Terms of the other statements -/

/-- The fragment is held at the instruction until h is over, and nothing else happens (R17, R61, R273). That a held instruction is counted
as an issue only when it goes on is the model's choice (log 86). -/
def Holds (s : State) (c : Ctx) (i : Instr) (h : Hold) : Prop :=
  ∃ u, exec i s = .next u ∧ u.outside = s.outside ∧ u.clusters = s.clusters ∧
    u.blocks = (c.setFrag s fun f => { f with wait := .hold h }).blocks

/-- The fragment issues now, or issues again after it was held at the instruction. -/
def Ctx.issues (c : Ctx) : Prop := c.f.wait = .run ∨ ∃ h, c.f.wait = .hold h

/-- The state in which somebody has asked a cluster for a charge of this fabric cycle, or of the next when the head of this one
has been tried (R358). -/
def withCharge (s : State) (cl : Nat) (who : Charger) (cost : Nat) : State :=
  s.modCluster cl fun c =>
    let x : Charge := { who := who, cost := cost, at_ := if c.tried = some s.fcyc then s.fcyc + 1 else s.fcyc }
    { c with charges := insertCharge x c.charges }

/-- A channel of a cluster on which no restored operation waits for a place and no collective is to end (R199, R225). -/
def Steady (s : State) (cl ch : Nat) : Prop :=
  (∀ e ∈ (s.cluster cl).chBack, e.1 ≠ ch) ∧
    ∀ e ∈ (s.cluster cl).chq, e.1 = ch → ∀ b o, s.op? e.2 = some (b, o) → o.doom = false

/-- No other fragment of the party is parked for a fault. -/
def unparked (c : Ctx) : Prop := ∀ (j : Nat) (f : Frag) (k : Park), j ≠ c.i → c.p.frags[j]? = some f → f.wait ≠ .parked k

/-- The word at a PC is w, read through a cached translation that permits execution (R283): the one that the instruction cache of
the cluster holds for the address, else the one in M, which the cache of state v then holds (R289). -/
def Fetches (s : State) (c : Ctx) (pc : Addr) (w : Nat) (v : State) : Prop :=
  ∃ e pa, tlbFind s.ms.tlb c.cl c.key.part c.l.lr.asid pc.toNat = some e ∧ useEntry e pc.toNat false false true = .ok pa ∧
    let line (x : ILine) : Prop := x.cluster = c.cl ∧ x.asid = c.l.lr.asid ∧ x.part = c.key.part ∧ x.va = pc.toNat
    ((∃ l x r, s.ms.icache = l ++ x :: r ∧ (∀ y ∈ l, ¬line y) ∧ line x ∧ w = x.word.toNat ∧ v = s) ∨
      ((∀ y ∈ s.ms.icache, ¬line y) ∧ eccRead s c.key.part pa 4 = (s, false) ∧ w = leNat (memRead s.ms.mem pa 4) ∧
        v = s.modMs fun ms => { ms with icache := ms.icache ++
          [{ cluster := c.cl, asid := c.l.lr.asid, part := c.key.part, va := pc.toNat, word := BitVec.ofNat 32 w }] }))

/-- The word behind the one at the fragment's PC is w, and v the state once it is fetched. -/
def followedBy (s : State) (c : Ctx) (w : Nat) (v : State) : Prop := Fetches s c (c.f.pc + 4) w v

/-- The fragment's launch neither records nor replays (R350, R351). -/
def unlogged (s : State) (c : Ctx) : Prop :=
  ∀ l ∈ s.launches, l.part = c.key.part → l.grid = c.key.grid → l.recording = false ∧ l.replaying = false

/-- A write of n bytes at pa that M and E take together finds none of its lines in a combining buffer, and no write of its words on
its way to system observers (R152, R276). -/
def wordFree (s : State) (pa n : Nat) : Prop :=
  lineHeld s.ms pa n = false ∧ ∀ w, XItem.write w ∈ s.ms.exports → wordsMeet w.pa w.data.length pa n = false

/-- The state after a round whose work is done: a queue that has nothing left is no longer runnable (R298). -/
def settled (s : State) (p : Nat) : State :=
  (queuesOf (works s p).1 p).foldl (fun t q =>
    if (works s p).2.any (fun e => e.1 = q) then t else t.modQueue q fun u => { u with was := false }) (works s p).1

/-- A round of an enabled partition finds one runnable queue with its work, no saved unit to restore, no held image that may activate
and no unit that waits for room; v is the state once the heads of the queues are read (R296, R297, R333, R396). -/
def OneWork (s : State) (p q : Nat) (v : State) (w : Work) : Prop :=
  queuePart s q = some p ∧ mayArbitrate s p = true ∧ restoreAll s p s.blocks.length = s ∧ activateReady s p = s ∧
    works s p = (v, [(q, w)]) ∧ (v.part p).blocked = none

/-- RUN takes op for the fragment c, which waits to run the next element of its gather, scatter or selection m: its cluster is not
frozen, its block not halted, and no watchpoint is in force (R271, R340). -/
def RunsNext (s : State) (op : Nat) (c : Ctx) (m : MacroRun) : Prop :=
  s.op? op = none ∧ c.f.wait = .rows m ∧ (s.cluster c.cl).frozen = false ∧ c.b.halted = false ∧ unwatched s c ∧
    (s.blocks.findSome? fun b => findFrag s b.key fun f => match f.wait with
      | .rows x => x.op = op && (x.cls == 3 || x.cls == 4 || x.cls == 5 || x.cls == 6)
      | _ => false) = some c

/-- Whether a read of a record passed, without what it gave. -/
def okOf {α : Type} : Except Failed α → Except Failed Unit
  | .ok _ => .ok ()
  | .error f => .error f

/-- An operation is in its turn: nothing on its channel waits for a place or is to end, and no other operation of its block's channel
that has not ended is older, or stands on another cluster (R198, R199). -/
def InTurn (s : State) (b : Block) (o : EngOp) : Prop :=
  Steady s (opHome s o.id) o.ch ∧ olderOpen b o = false ∧ otherHomes s o.key (opHome s o.id) o.ch = []

/-! ## Terms of the special registers -/

/-- The rows of the table of R29: the number of a register and its value, of which SRD writes as many low bits as the register has
(R30). The MCC has the values of R31; PHASE, YREQ, QTM and LEASE are laid out as R34, R35, R313 and R355 say. VMT and VME are read
behind the instruction's own issue (log 50), REGWIN has eight bits for the pool count (log 85), and RVK shows a notified revocation
only (log 74). -/
def specialRows (s : State) (c : Ctx) : List (Nat × Nat) :=
  let cl := s.cluster c.cl
  let p := s.part c.key.part
  let l := p.lease
  let lr := c.l.lr
  let mcc := c.who = .mcc
  let bit (b : Bool) (n : Nat) : Nat := if b then 2 ^ n else 0
  let gang := gangNo c.l c.key
  let record := c.p.top (lowLane c.f.lanes)
  [(0x00, cl.cyc / 10), (0x01, s.dtime),
   (0x02, match c.who with
     | .warp w => w
     | .mcc => 0xFFFFFFFF),
   (0x03, lr.nwarps), (0x04, c.key.blk), (0x05, c.key.blk % lr.gx), (0x06, c.key.blk / lr.gx % lr.gy),
   (0x07, c.key.blk / (lr.gx * lr.gy)), (0x08, c.key.grid), (0x09, if lr.gangsz = 0 then 0xFFFFFFFF else gang),
   (0x0A, if lr.gangsz = 0 then 1 else min lr.gangsz (lr.nblocks - gang * lr.gangsz)), (0x0B, lr.width),
   (0x0C, bit (p.schedctl.getLsbD 0) 1 + bit ((s.queue c.l.queue).qsched.getLsbD 28) 0),
   (0x0D, c.b.pool % 256 * 2 ^ 8 + if mcc then 128 else c.p.win),
   (0x0E, c.f.prg.toNat), (0x0F, c.f.prgpc.toNat), (0x10, c.f.prgx.toNat), (0x11, c.p.fmode.toNat),
   (0x12, bit l.held 31 + bit (l.held && l.notice.isSome) 30 + bit l.pend.isSome 29 + bit s.boost 28),
   (0x13, if p.schedctl.getLsbD 0 then (p.sliceEnd - s.dtime) / 1000 else 0), (0x14, bit c.b.ly 1 + bit c.b.yr 0),
   (0x15, if mcc then 0 else c.p.limT.toNat), (0x16, if mcc then 0 else c.p.limE.toNat), (0x17, if mcc then 0 else c.p.limQ.toNat),
   (0x18, match record with
     | some r => if mcc then 0 else min (r.tacc + (cl.cyc / 10 - r.cyc0)) (2 ^ 32 - 1)
     | none => 0),
   (0x19, match record with
     | some r => if mcc then 0 else
         min (r.eacc + (cl.em - r.em0).toNat * (r.fs + c.slots) / max 1 (cl.is + c.slots - r.is0)) (2 ^ 32 - 1)
     | none => 0),
   (0x1A, c.b.cslr.toNat)] ++ (List.range 8).map fun k => (0x20 + k, (slotOf c.l k).toNat)

/-- The value in the row of a number, 0 where the table has none. -/
def specialRow (s : State) (c : Ctx) (n : Nat) : Nat := (((specialRows s c).find? fun r => r.1 = n).map Prod.snd).getD 0

/-- The special registers of 64 bits in the table of R29. -/
def specialWide (n : Nat) : Prop := n = 0x00 ∨ n = 0x01 ∨ (0x0E ≤ n ∧ n ≤ 0x10) ∨ (0x20 ≤ n ∧ n ≤ 0x27)

/-- The rows of the table of R36 in lane L: LANE, TID and its three coordinates in the block. -/
def laneRows (c : Ctx) (L : Nat) : List Nat :=
  let lr := c.l.lr
  let tid := (match c.who with
    | .warp w => w
    | .mcc => 0) * lr.width + L
  [if lr.c16 then L % 16 else L, tid, tid % lr.dx, tid / lr.dx % lr.dy, tid / (lr.dx * lr.dy)]

/-! ## Terms of the joins -/

/-- Do two fragments have equal progress state (R16), neither running a handler beside one that does not (log 88)? -/
def sameProgress (f g : Frag) : Prop := f.prg = g.prg ∧ f.prgpc = g.prgpc ∧ f.prgx = g.prgx ∧ f.handler = g.handler

/-- The fragments of a party once fragment c has arrived at join record r: its lanes in the record's mask wait there, and its others
go on behind the JOIN as a fragment of their own (R102). -/
def atRecord (c : Ctx) (r : JoinRec) : List Frag :=
  lmod c.p.frags c.i (fun _ => { c.f with lanes := c.f.lanes &&& r.mask, pend := RegSet.none, wait := .join r.id }) ++
    (if c.f.lanes &&& ~~~r.mask = 0 then []
     else [{ c.f with lanes := c.f.lanes &&& ~~~r.mask, pc := c.f.pc + 4, pend := RegSet.none, wait := .run }])

/-- Record r, between l and z in age, is the youngest that a JOIN of fragment c meets (R102). -/
def Meets (c : Ctx) (l z : List JoinRec) (r : JoinRec) : Prop :=
  c.p.joins = l ++ r :: z ∧ (∀ x ∈ l ++ z, x.id ≠ r.id) ∧ r.pc = c.f.pc ∧ r.mask &&& c.f.lanes ≠ 0 ∧
    ∀ x ∈ z, x.pc = c.f.pc → x.mask &&& c.f.lanes = 0

end Sys2Proof.Machine

open Sys2Proof Sys2Proof.Machine
/-! ## Lane and uniform registers -/

/-- R77: the integer arithmetic words complete in every lane that takes effect with the value of their row, and leave every
other register, party, block and the device as they were. -/
def Obligations.IntegerArithmeticResults : Prop :=
  ∀ (sw : BitVec 1) (g : BitVec 2) (d a b e : BitVec 6) (u : BitVec 1) (t : BitVec 2) (k : BitVec 1) (i : BitVec 10),
    LaneOp (.iadd sw g d a b u) sw (l3Reads a b u) g d (fun c L => c.src a 0 L + c.src b u L) ∧
    LaneOp (.isub sw g d a b u) sw (l3Reads a b u) g d (fun c L => c.src a 0 L - c.src b u L) ∧
    LaneOp (.iaddSat sw g d a b u t) sw (l3Reads a b u) g d (fun c L =>
      if t = 1 then clampI32 ((c.src a 0 L).toInt + (c.src b u L).toInt)
      else clampN32 ((c.src a 0 L).toNat + (c.src b u L).toNat)) ∧
    LaneOp (.isubSat sw g d a b u t) sw (l3Reads a b u) g d (fun c L =>
      if t = 1 then clampI32 ((c.src a 0 L).toInt - (c.src b u L).toInt)
      else clampN32 ((c.src a 0 L).toNat - (c.src b u L).toNat)) ∧
    LaneOp (.iaddImm sw g d a i) sw (RegSet.vs a.toNat 1) g d (fun c L => c.src a 0 L + i.signExtend 32) ∧
    LaneOp (.imul sw g d a b u) sw (l3Reads a b u) g d (fun c L => c.src a 0 L * c.src b u L) ∧
    LaneOp (.imulh sw g d a b u t) sw (l3Reads a b u) g d (fun c L => highWord (t = 1) (c.src a 0 L) (c.src b u L)) ∧
    LaneOp (.imad sw d a b e) sw (((RegSet.vs a.toNat 1).or (RegSet.vs b.toNat 1)).or (RegSet.vs e.toNat 1)) 0 d
      (fun c L => c.src a 0 L * c.src b 0 L + c.src e 0 L) ∧
    LaneOp (.imin sw g d a b u k) sw (l3Reads a b u) g d (fun c L =>
      BitVec.ofInt 32 (min (asInt (k = 1) (c.src a 0 L)) (asInt (k = 1) (c.src b u L)))) ∧
    LaneOp (.imax sw g d a b u k) sw (l3Reads a b u) g d (fun c L =>
      BitVec.ofInt 32 (max (asInt (k = 1) (c.src a 0 L)) (asInt (k = 1) (c.src b u L)))) ∧
    LaneOp (.iabs sw g d a) sw (RegSet.vs a.toNat 1) g d (fun c L => BitVec.ofInt 32 (c.src a 0 L).toInt.natAbs) ∧
    LaneOp (.iabsSat sw g d a) sw (RegSet.vs a.toNat 1) g d (fun c L => clampI32 (c.src a 0 L).toInt.natAbs)

/-- R36, R79, R81–R83, R86, R89, R90: shifts, fields, byte permutation, address formation, selection and moves into lanes complete with the
value of their row. SHL, SHR, SAR and ROL are the L3 words of major 0x09 with F = 0 to 3, which shift by B taken whole; their immediate
forms are LI words of major 0x0A with the operation in IMM10[9:7], bits [6:5] zero and the count in [4:0], and accept no LIMM. SEL is the
L3 word of major 0x11 with pS in F[1:0] and F[2] zero; it gives vA where pS is 1, and B elsewhere. VSRD gives its row
of the table of R36, and names no other number. -/
def Obligations.LaneShiftFieldAndMoveResults : Prop :=
  ∀ (sw : BitVec 1) (g p : BitVec 2) (d a b e : BitVec 6) (u k : BitVec 1) (h : BitVec 3) (m : BitVec 5) (i : BitVec 10)
    (n : BitVec 8),
    let word (major low : Nat) : Nat := major * 2 ^ 24 + put sw 30 + put g 22 + put d 16 + put a 10 + low
    let l3 (major f : Nat) : Nat := word major (put b 4 + put u 3 + f)
    decodeWord (l3 0x09 0) = .ok (.shl sw g d a b u) ∧ decodeWord (l3 0x09 1) = .ok (.shr sw g d a b u) ∧
    decodeWord (l3 0x09 2) = .ok (.sar sw g d a b u) ∧ decodeWord (l3 0x09 3) = .ok (.rol sw g d a b u) ∧
    decodeWord (word 0x0A (0 * 2 ^ 7 + m.toNat)) = .ok (.shlImm sw g d a m) ∧
    decodeWord (word 0x0A (1 * 2 ^ 7 + m.toNat)) = .ok (.shrImm sw g d a m) ∧
    decodeWord (word 0x0A (2 * 2 ^ 7 + m.toNat)) = .ok (.sarImm sw g d a m) ∧
    decodeWord (word 0x0A (3 * 2 ^ 7 + m.toNat)) = .ok (.rolImm sw g d a m) ∧
    (i.toNat / 2 ^ 5 % 4 ≠ 0 ∨ 4 ≤ i.toNat / 2 ^ 7 → ∃ x, decodeWord (word 0x0A i.toNat) = .error x) ∧
    limmOk (word 0x0A i.toNat) = false ∧
    decodeWord (l3 0x11 p.toNat) = .ok (.sel sw g d a b u p) ∧ (∃ x, decodeWord (l3 0x11 (4 + p.toNat)) = .error x) ∧
    LaneOp (.shl sw g d a b u) sw (l3Reads a b u) g d (fun c L => c.src a 0 L <<< (c.src b u L).toNat) ∧
    LaneOp (.shr sw g d a b u) sw (l3Reads a b u) g d (fun c L => c.src a 0 L >>> (c.src b u L).toNat) ∧
    LaneOp (.sar sw g d a b u) sw (l3Reads a b u) g d (fun c L => (c.src a 0 L).sshiftRight (c.src b u L).toNat) ∧
    LaneOp (.rol sw g d a b u) sw (l3Reads a b u) g d (fun c L => (c.src a 0 L).rotateLeft (c.src b u L).toNat) ∧
    LaneOp (.shlImm sw g d a m) sw (RegSet.vs a.toNat 1) g d (fun c L => c.src a 0 L <<< m.toNat) ∧
    LaneOp (.shrImm sw g d a m) sw (RegSet.vs a.toNat 1) g d (fun c L => c.src a 0 L >>> m.toNat) ∧
    LaneOp (.sarImm sw g d a m) sw (RegSet.vs a.toNat 1) g d (fun c L => (c.src a 0 L).sshiftRight m.toNat) ∧
    LaneOp (.rolImm sw g d a m) sw (RegSet.vs a.toNat 1) g d (fun c L => (c.src a 0 L).rotateLeft m.toNat) ∧
    LaneOp (.bfx sw g d a b u k) sw (l3Reads a b u) g d (fun c L =>
      let f := fieldOf (c.src b u L)
      let x := (c.src a 0 L).toNat / 2 ^ f.1 % 2 ^ f.2
      if k = 1 then BitVec.ofInt 32 (Int.bmod x (2 ^ f.2)) else BitVec.ofNat 32 x) ∧
    LaneOp (.bfi sw d a b e) sw (((RegSet.vs a.toNat 1).or (RegSet.vs b.toNat 1)).or (RegSet.vs e.toNat 1)) 0 d (fun c L =>
      let f := fieldOf (c.src e 0 L)
      let m : Word := BitVec.ofNat 32 ((2 ^ f.2 - 1) * 2 ^ f.1)
      (c.src a 0 L &&& ~~~m) ||| ((c.src b 0 L <<< f.1) &&& m)) ∧
    LaneOp (.prmb sw d a b e) sw (((RegSet.vs a.toNat 1).or (RegSet.vs b.toNat 1)).or (RegSet.vs e.toNat 1)) 0 d
      (fun c L => prmb (c.src a 0 L) (c.src b 0 L) (c.src e 0 L)) ∧
    LaneOp (.sel sw g d a b u p) sw ((l3Reads a b u).or (RegSet.pr p.toNat)) g d (fun c L =>
      if c.p.getP p.toNat L then c.src a 0 L else c.src b u L) ∧
    LaneOp (.mov sw g d b) sw (RegSet.vs b.toNat 1) g d (fun c L => c.p.getV b.toNat L) ∧
    LaneOp (.movs sw g d b) sw (RegSet.ss b.toNat 1) g d (fun c _ => c.p.getS b.toNat) ∧
    LaneOp (.movImm sw g d i) sw RegSet.none g d (fun _ _ => i.signExtend 32) ∧
    LaneOp (.vsrd sw g d n) sw RegSet.none g d (fun c L => BitVec.ofNat 32 ((laneRows c L).getD n.toNat 0)) ∧
    (n.toNat < 5 → decodeWord (0x16000000 + put sw 30 + put g 22 + put d 16 + put n 0) = .ok (.vsrd sw g d n)) ∧
    (5 ≤ n.toNat → ∃ x, decodeWord (0x16000000 + put sw 30 + put g 22 + put d 16 + put n 0) = .error x) ∧
    (∀ s c, Stands s c (.lea sw g d a b u h)
        ((RegSet.vs a.toNat 2).or (if u = 1 then RegSet.ss b.toNat 1 else RegSet.vs b.toNat 1)) (RegSet.vs d.toNat 2) g.toNat →
      ∃ t, exec (.lea sw g d a b u h) s = .next t ∧
        RanOn s t c c.b (c.behind s sw (RegSet.vs d.toNat 2)) (fun p =>
          p.s = c.p.s ∧ p.p = c.p.p ∧ ∀ r L, r < 64 → L < 64 →
            let x := c.p.getVD a.toNat L + ((c.src b u L).signExtend 64 <<< h.toNat)
            p.getV r L = if (c.effLanes g.toNat).getLsbD L ∧ r = d.toNat then x.setWidth 32
              else if (c.effLanes g.toNat).getLsbD L ∧ r = d.toNat + 1 then (x >>> 32).setWidth 32
              else c.p.getV r L))

/-- R85, R87, R88, R124: compares and the predicate words complete; a compare writes the relation of its operands, PMOV carries
all predicates, p0 is never written. ICMP, PLOG and PMOV are the L3 words of majors 0x10, 0x12 and 0x13, whose reserved types, conditions
and bits refuse a word; PLOG and PMOV accept no prefix. -/
def Obligations.PredicateResults : Prop :=
  ∀ (sw : BitVec 1) (g t p x y o : BitVec 2) (d a b : BitVec 6) (u : BitVec 1) (k : BitVec 3),
    let l3 (major dd aa bb uu f : Nat) : Nat :=
      major * 2 ^ 24 + put sw 30 + put g 22 + dd * 2 ^ 16 + aa * 2 ^ 10 + bb * 2 ^ 4 + uu * 2 ^ 3 + f
    let refused (w : Nat) : Prop := ∃ e, decodeWord w = .error e
    let bare (w : Nat) : Prop := limmOk w = false ∧ repAccepts w = false
    let icmp (dd : Nat) : Nat := l3 0x10 dd a.toNat b.toNat u.toNat k.toNat
    (t.toNat < 2 → k.toNat < 6 → decodeWord (icmp (t.toNat * 4 + p.toNat)) = .ok (.icmp sw g t p a b u k)) ∧
    (2 ≤ t.toNat ∨ 6 ≤ k.toNat → refused (icmp (t.toNat * 4 + p.toNat))) ∧ (16 ≤ d.toNat → refused (icmp d.toNat)) ∧
    decodeWord (l3 0x12 p.toNat x.toNat y.toNat 0 o.toNat) = .ok (.plog sw g p x y o) ∧
    (4 ≤ d.toNat ∨ 4 ≤ a.toNat ∨ 4 ≤ b.toNat ∨ u ≠ 0 → refused (l3 0x12 d.toNat a.toNat b.toNat u.toNat o.toNat)) ∧
    decodeWord (l3 0x13 d.toNat 0 0 0 0) = .ok (.pmovGet sw g d) ∧ decodeWord (l3 0x13 0 a.toNat 0 0 1) = .ok (.pmovPut sw g a) ∧
    (a ≠ 0 ∨ b ≠ 0 ∨ u ≠ 0 → refused (l3 0x13 d.toNat a.toNat b.toNat u.toNat 0)) ∧
    (d ≠ 0 ∨ b ≠ 0 ∨ u ≠ 0 → refused (l3 0x13 d.toNat a.toNat b.toNat u.toNat 1)) ∧
    bare (l3 0x12 d.toNat a.toNat b.toNat u.toNat k.toNat) ∧ bare (l3 0x13 d.toNat a.toNat b.toNat u.toNat k.toNat) ∧
    PredOp (.icmp sw g t p a b u k) sw (l3Reads a b u) g p (fun c L =>
      holds k.toNat (asInt (t = 1) (c.src a 0 L)) (asInt (t = 1) (c.src b u L))) ∧
    PredOp (.fcmp sw g p a b u k) sw (l3Reads a b u) g p (fun c L =>
      relV k.toNat (src fF32 (fmodeFtz c.p.fmode) (c.src a 0 L).toNat) (src fF32 (fmodeFtz c.p.fmode) (c.src b u L).toNat)) ∧
    PredOp (.plog sw g p x y o) sw ((RegSet.pr x.toNat).or (RegSet.pr y.toNat)) g p (fun c L =>
      if o = 0 then c.p.getP x.toNat L && c.p.getP y.toNat L
      else if o = 1 then c.p.getP x.toNat L || c.p.getP y.toNat L
      else if o = 2 then c.p.getP x.toNat L ^^ c.p.getP y.toNat L
      else c.p.getP x.toNat L && !c.p.getP y.toNat L) ∧
    LaneOp (.pmovGet sw g d) sw (((RegSet.pr 1).or (RegSet.pr 2)).or (RegSet.pr 3)) g d (fun c L =>
      BitVec.ofNat 32 (((List.range 4).filter fun r => c.p.getP r L).foldl (fun n r => n + 2 ^ r) 0)) ∧
    (∀ s c, Stands s c (.pmovPut sw g a) (RegSet.vs a.toNat 1) (((RegSet.pr 1).or (RegSet.pr 2)).or (RegSet.pr 3)) g.toNat →
      ∃ t, exec (.pmovPut sw g a) s = .next t ∧
        RanOn s t c c.b (c.behind s sw (((RegSet.pr 1).or (RegSet.pr 2)).or (RegSet.pr 3))) (fun q =>
          q.v = c.p.v ∧ q.s = c.p.s ∧ ∀ r L, r < 4 → L < 64 → q.getP r L =
            if r ≠ 0 ∧ (c.effLanes g.toNat).getLsbD L then (c.p.getV a.toNat L).getLsbD r else c.p.getP r L)) ∧
    (∀ s c, Stands s c (.hcmp2 sw g t p a b u k) (l3Reads a b u) ((RegSet.pr p.toNat).or (RegSet.pr (p.toNat + 1))) g.toNat →
      ∃ v, exec (.hcmp2 sw g t p a b u k) s = .next v ∧
        RanOn s v c c.b (c.behind s sw ((RegSet.pr p.toNat).or (RegSet.pr (p.toNat + 1)))) (fun q =>
          q.v = c.p.v ∧ q.s = c.p.s ∧ ∀ r L, r < 4 → L < 64 → q.getP r L =
            if (r = p.toNat ∨ r = p.toNat + 1) ∧ (c.effLanes g.toNat).getLsbD L then
              let f := if t = 1 then fF16 else fBF16
              let half (w : Word) : Nat := w.toNat / 2 ^ (16 * (r - p.toNat)) % 2 ^ 16
              relV k.toNat (src f (fmodeFtz c.p.fmode) (half (c.src a 0 L))) (src f (fmodeFtz c.p.fmode) (half (c.src b u L)))
            else c.p.getP r L))

/-- R122, R123, R125: the f32, packed-half and special-function words complete in every lane that takes effect. The value of
an arithmetic word is the exact value of its operands, read under FTZ, rounded once by FMODE; a special function gives its
named result, free inside the bound of R125 (log 15). -/
def Obligations.FloatingPointResults : Prop :=
  ∀ (sw : BitVec 1) (g r : BitVec 2) (d a b e : BitVec 6) (u h : BitVec 1),
    let ab := l3Reads a b u
    let va := RegSet.vs a.toNat 1
    let abe := ((RegSet.vs a.toNat 1).or (RegSet.vs b.toNat 1)).or (RegSet.vs e.toNat 1)
    let hf := if h = 1 then fBF16 else fF16
    LaneOp (.fadd sw g d a b u) sw ab g d (fun c L => f32op2 c.p.fmode addV (c.src a 0 L) (c.src b u L)) ∧
    LaneOp (.fsub sw g d a b u) sw ab g d (fun c L =>
      f32op2 c.p.fmode (fun m x y => addV m x y.negate) (c.src a 0 L) (c.src b u L)) ∧
    LaneOp (.fmul sw g d a b u) sw ab g d (fun c L => f32op2 c.p.fmode (fun _ x y => mulV x y) (c.src a 0 L) (c.src b u L)) ∧
    LaneOp (.fmin sw g d a b u) sw ab g d (fun c L => f32op2 c.p.fmode (fun _ x y => minV x y) (c.src a 0 L) (c.src b u L)) ∧
    LaneOp (.fmax sw g d a b u) sw ab g d (fun c L => f32op2 c.p.fmode (fun _ x y => maxV x y) (c.src a 0 L) (c.src b u L)) ∧
    LaneOp (.ffma sw d a b e) sw abe 0 d (fun c L =>
      let m := c.p.fmode
      let v (x : Word) : FV := src fF32 (fmodeFtz m) x.toNat
      BitVec.ofNat 32 (res fF32 (fmodeRnd m) (fmodeFtz m)
        (addV (fmodeRnd m) (mulV (v (c.src a 0 L)) (v (c.src b 0 L))) (v (c.src e 0 L))))) ∧
    LaneOp (.fscl sw g d a b u) sw ab g d (fun c L =>
      let m := c.p.fmode
      BitVec.ofNat 32 (res fF32 (fmodeRnd m) (fmodeFtz m)
        (scaleV (src fF32 (fmodeFtz m) (c.src a 0 L).toNat) (c.src b u L).toInt))) ∧
    LaneOp (.frnd sw g d a r) sw va g d (fun c L =>
      let m := c.p.fmode
      BitVec.ofNat 32 (res fF32 (rndOf r.toNat) (fmodeFtz m)
        (integralV (rndOf r.toNat) (src fF32 (fmodeFtz m) (c.src a 0 L).toNat)))) ∧
    LaneOp (.hadd2 sw g d a b u h) sw ab g d (fun c L => half2 hf c.p.fmode addV (c.src a 0 L) (c.src b u L)) ∧
    LaneOp (.hmul2 sw g d a b u h) sw ab g d (fun c L => half2 hf c.p.fmode (fun _ x y => mulV x y) (c.src a 0 L) (c.src b u L)) ∧
    LaneOp (.hmin2 sw g d a b u h) sw ab g d (fun c L => half2 hf c.p.fmode (fun _ x y => minV x y) (c.src a 0 L) (c.src b u L)) ∧
    LaneOp (.hmax2 sw g d a b u h) sw ab g d (fun c L => half2 hf c.p.fmode (fun _ x y => maxV x y) (c.src a 0 L) (c.src b u L)) ∧
    LaneOp (.hfma2 sw d a b e) sw abe 0 d (fun c L => half3 fF16 c.p.fmode fmaV (c.src a 0 L) (c.src b 0 L) (c.src e 0 L)) ∧
    LaneOp (.hfma2Bf16 sw d a b e) sw abe 0 d (fun c L => half3 fBF16 c.p.fmode fmaV (c.src a 0 L) (c.src b 0 L) (c.src e 0 L)) ∧
    LaneOp (.exp2 sw g d a) sw va g d (fun c L => exp2F32 c.p.fmode (c.src a 0 L)) ∧
    LaneOp (.log2 sw g d a) sw va g d (fun c L => log2F32 c.p.fmode (c.src a 0 L)) ∧
    LaneOp (.rcp sw g d a) sw va g d (fun c L => rcpF32 c.p.fmode (c.src a 0 L)) ∧
    LaneOp (.rsq sw g d a) sw va g d (fun c L => rsqF32 c.p.fmode (c.src a 0 L)) ∧
    LaneOp (.sqrt sw g d a) sw va g d (fun c L => sqrtF32 c.p.fmode (c.src a 0 L)) ∧
    LaneOp (.sin sw g d a) sw va g d (fun c L => sinF32 c.p.fmode (c.src a 0 L)) ∧
    LaneOp (.cos sw g d a) sw va g d (fun c L => cosF32 c.p.fmode (c.src a 0 L)) ∧
    LaneOp (.tanh sw g d a) sw va g d (fun c L => tanhF32 c.p.fmode (c.src a 0 L))

/-- R128, R129, R134–R137: conversions, quantisation, the monotone image and dot products complete in every lane that takes
effect with the value of their row. -/
def Obligations.ConversionAndDotResults : Prop :=
  ∀ (sw : BitVec 1) (g t : BitVec 2) (d a b : BitVec 6) (u h k : BitVec 1) (x y z n : BitVec 3),
    let ab := l3Reads a b u
    let va := RegSet.vs a.toNat 1
    let abd := (l3Reads a b u).or (RegSet.vs d.toNat 1)
    let w := if t = 0 then 32 else 16
    LaneOp (.cvt sw g d a x y z) sw va g d (fun c L => cvt c.p.fmode x.toNat y.toNat z.toNat (c.src a 0 L)) ∧
    LaneOp (.cvth2 sw g d a b u h) sw ab g d (fun c L =>
      let r (v : Word) : Nat := narrowHalf (if h = 1 then fBF16 else fF16) c.p.fmode v
      BitVec.ofNat 32 (r (c.src a 0 L) + 2 ^ 16 * r (c.src b u L))) ∧
    (∀ s c, Stands s c (.cvth2Widen sw g d a h) va (RegSet.vs d.toNat 2) g.toNat →
      ∃ v, exec (.cvth2Widen sw g d a h) s = .next v ∧
        RanOn s v c c.b (c.behind s sw (RegSet.vs d.toNat 2)) (fun p =>
          p.s = c.p.s ∧ p.p = c.p.p ∧ ∀ r L, r < 64 → L < 64 → p.getV r L =
            if (c.effLanes g.toNat).getLsbD L ∧ (r = d.toNat ∨ r = d.toNat + 1) then
              let half : Nat := (c.src a 0 L).toNat / 2 ^ (16 * (r - d.toNat)) % 2 ^ 16
              BitVec.ofNat 32 (res fF32 (fmodeRnd c.p.fmode) (fmodeFtz c.p.fmode)
                (src (if h = 1 then fBF16 else fF16) (fmodeFtz c.p.fmode) half))
            else c.p.getV r L)) ∧
    (∀ s c, Stands s c (.cvtq sw g d a n) va (RegSet.vs d.toNat 1) g.toNat → slotHad (slotOf c.l n.toNat) ≤ c.group →
      ∃ v, exec (.cvtq sw g d a n) s = .next v ∧
        RanOn s v c c.b (c.behind s sw (RegSet.vs d.toNat 1)) (laneResult c d.toNat (c.effLanes g.toNat) (fun L =>
          let f := slotOf c.l n.toNat
          let m := c.effLanes g.toNat
          BitVec.ofNat 32 (convertElem (slotElem f) (slotRnd f) (slotSat f)
            (vF32 (hadLanes (slotHad f) (fun L => if m.getLsbD L then c.p.getV a.toNat L else 0) L)))))) ∧
    LaneOp (.cvtd sw g d a n) sw va g d (fun c L =>
      let e := slotElem (slotOf c.l n.toNat)
      rneF32 (valElem e ((c.src a 0 L).toNat % 2 ^ elemBits e))) ∧
    LaneOp (.mono sw g d a t) sw va g d (fun c L =>
      let v := (c.src a 0 L).toNat % 2 ^ w
      BitVec.ofNat 32 (if v < 2 ^ (w - 1) then v + 2 ^ (w - 1) else 2 ^ w - 1 - v)) ∧
    LaneOp (.monoi sw g d a t) sw va g d (fun c L =>
      let v := (c.src a 0 L).toNat % 2 ^ w
      BitVec.ofNat 32 (if v < 2 ^ (w - 1) then 2 ^ w - 1 - v else v - 2 ^ (w - 1))) ∧
    LaneOp (.dp4 sw g d a b u k) sw abd g d (fun c L =>
      if k = 0 then BitVec.ofInt 32 ((c.src d 0 L).toNat + dotSum 5 4 (c.src a 0 L) (c.src b u L))
      else dotQ c.p.fmode 5 4 (c.src d 0 L) (c.src a 0 L) (c.src b u L)) ∧
    LaneOp (.dp8 sw g d a b u k) sw abd g d (fun c L =>
      if k = 0 then BitVec.ofInt 32 ((c.src d 0 L).toNat + dotSum 6 8 (c.src a 0 L) (c.src b u L))
      else dotQ c.p.fmode 6 8 (c.src d 0 L) (c.src a 0 L) (c.src b u L)) ∧
    LaneOp (.dp2h sw g d a b u) sw abd g d (fun c L => dotE c.p.fmode 0 2 (c.src d 0 L) (c.src a 0 L) (c.src b u L)) ∧
    LaneOp (.dp4eE4m3 sw g d a b u) sw abd g d (fun c L => dotE c.p.fmode 2 4 (c.src d 0 L) (c.src a 0 L) (c.src b u L)) ∧
    LaneOp (.dp4eE5m2 sw g d a b u) sw abd g d (fun c L => dotE c.p.fmode 3 4 (c.src d 0 L) (c.src a 0 L) (c.src b u L)) ∧
    LaneOp (.dp2hBf16 sw g d a b u) sw abd g d (fun c L => dotE c.p.fmode 1 2 (c.src d 0 L) (c.src a 0 L) (c.src b u L))

/-- R118, R32, R117, R137: A pattern that is no NaN, read as a value and rounded by any mode, is the pattern again: conversions to
a format a value has are exact. Rounding to nearest even picks the nearest multiple of the unit, and of two equally near the even
one. A sum, difference or product with a NaN operand is the canonical NaN, whatever FMODE. MONOI inverts MONO, and the unsigned
order of images is the numeric order of the values. -/
def Obligations.FormatArithmeticLaws : Prop :=
  (∀ f ∈ [fF32, fF16, fBF16, fE5M2], ∀ (r : Rnd) (x : Nat), x < 2 ^ (1 + f.eb + f.mb) → valOf f x ≠ .nan →
    roundTo f r (valOf f x) = x) ∧
  (∀ (neg : Bool) (m : Nat) (e q : Int), e < q →
    let u := 2 ^ (q - e).toNat
    let n := roundAt .rne neg m e q
    2 * (n * u) ≤ 2 * m + u ∧ 2 * m ≤ 2 * (n * u) + u ∧ (2 * (n * u) = 2 * m + u ∨ 2 * m = 2 * (n * u) + u → n % 2 = 0)) ∧
  (∀ (m x y : Word), (vF32 x = .nan ∨ vF32 y = .nan) →
    f32op2 m addV x y = 0x7FC00000 ∧ f32op2 m (fun r p q => addV r p q.negate) x y = 0x7FC00000 ∧
    f32op2 m (fun _ p q => mulV p q) x y = 0x7FC00000) ∧
  (∀ w ∈ [(fF32, 32), (fF16, 16), (fBF16, 16)], ∀ x y : Nat, x < 2 ^ w.2 → y < 2 ^ w.2 →
    monoInv w.2 (mono w.2 x) = x ∧
    (valOf w.1 x ≠ .nan → valOf w.1 y ≠ .nan → ltV (valOf w.1 x) (valOf w.1 y) = true → mono w.2 x < mono w.2 y))

/-- R84: RNDH is the L3 word of major 0x07 with F = 0. It writes the four-round hash of the counter vA under the key B, which depends on
nothing else, and for each key the hash is a permutation of the counters. -/
def Obligations.HashIsPermutation : Prop :=
  ∀ (sw : BitVec 1) (g : BitVec 2) (d a b : BitVec 6) (u : BitVec 1),
    let hash (x k : Word) : Word :=
      ((List.range 4).foldl (fun (x, k) _ =>
        let x := (x ^^^ k) * 0x5A3D9E27
        let x := (x ^^^ (x >>> 15)) * 0xC6A4B1D3
        (x ^^^ (x >>> 13), k + 0x6B43A9B5)) (x, k)).1
    decodeWord (0x07 * 2 ^ 24 + put sw 30 + put g 22 + put d 16 + put a 10 + put b 4 + put u 3) = .ok (.rndh sw g d a b u) ∧
    LaneOp (.rndh sw g d a b u) sw (l3Reads a b u) g d (fun c L => hash (c.src a 0 L) (c.src b u L)) ∧
    ∀ k x y : Word, hash x k = hash y k → x = y

/-- R107–R111, R110: The cross-lane words complete among the participants of the fragment, each in its group of W lanes. On
integers WRED.add is the sum of the participants of the group, whatever the tree. -/
def Obligations.CrossLaneAndReductionResults : Prop :=
  (∀ (sw : BitVec 1) (g p q k : BitVec 2) (d a b : BitVec 6) (u : BitVec 1),
    LaneOp (.shfl sw g d a b u k) sw (l3Reads a b u) g d (fun c L =>
      let w := c.group
      let n := (c.src b u L).toNat
      let i := L % w
      let j : Option Nat :=
        if k = 0 then some (n % w) else if k = 1 then (if n ≤ i then some (i - n) else none)
        else if k = 2 then (if i + n < w then some (i + n) else none) else some ((i ^^^ (n % w)) % w)
      match j with
      | some j => if (c.effLanes g.toNat).getLsbD (L - i + j) then c.p.getV a.toNat (L - i + j) else c.p.getV a.toNat L
      | none => c.p.getV a.toNat L) ∧
    PredOp (.voteAny sw g p q) sw (RegSet.pr q.toNat) g p (fun c L =>
      (List.range c.group).any fun j =>
        (c.effLanes g.toNat).getLsbD (L / c.group * c.group + j) && c.p.getP q.toNat (L / c.group * c.group + j)) ∧
    PredOp (.voteAll sw g p q) sw (RegSet.pr q.toNat) g p (fun c L =>
      (List.range c.group).all fun j =>
        !(c.effLanes g.toNat).getLsbD (L / c.group * c.group + j) || c.p.getP q.toNat (L / c.group * c.group + j)) ∧
    LaneOp (.wred sw g d a k) sw (RegSet.vs a.toNat 1) g d (fun c L =>
      (tree (redOp k.toNat c.p.fmode) 6 (groupVals c (c.effLanes g.toNat) a.toNat L)).getD 0) ∧
    LaneOp (.wscan sw g d a k) sw (RegSet.vs a.toNat 1) g d (fun c L =>
      scanTo c (redOp k.toNat c.p.fmode) (c.effLanes g.toNat) a.toNat L) ∧
    (∀ (i : Instr) (rd : RegSet) (f : Ctx → Nat → Nat → Bool),
      (i = .voteBallot sw g d q ∧ rd = RegSet.pr q.toNat ∧ f = (fun c _ j => c.p.getP q.toNat j)) ∨
        (i = .matchL sw g d a ∧ rd = RegSet.vs a.toNat 1 ∧ f = (fun c L j => c.p.getV a.toNat j == c.p.getV a.toNat L)) →
      ∀ s c, Stands s c i rd (RegSet.vs d.toNat (if c.group = 64 then 2 else 1)) g.toNat → (c.group = 64 → d.toNat % 2 = 0) →
        ∃ t, exec i s = .next t ∧
          RanOn s t c c.b (c.behind s sw (RegSet.vs d.toNat (if c.group = 64 then 2 else 1))) (fun r =>
            r.s = c.p.s ∧ r.p = c.p.p ∧ ∀ n L, n < 64 → L < 64 → r.getV n L =
              if (c.effLanes g.toNat).getLsbD L ∧ (n = d.toNat ∨ (c.group = 64 ∧ n = d.toNat + 1)) then
                BitVec.ofNat 32 (ballot c (c.effLanes g.toNat) (f c L) L / 2 ^ (32 * (n - d.toNat)) % 2 ^ 32)
              else c.p.getV n L))) ∧
  (∀ (m : Word) (l : List (Option Word)), l.length = 16 ∨ l.length = 32 ∨ l.length = 64 →
    l.any Option.isSome = true →
    tree (redOp 0 m) 6 l = some (l.foldl (fun t x => t + x.getD 0) 0))

/-- R92, R93, R94, R29–R35: The uniform arithmetic words complete once for the fragment, with the value of their row. SRD writes the
row of the table of R29 to sD, or to its pair where the register has 64 bits, and names no other number; LEASEQ reads the lease
(R260); SWR writes FMODE for the warp, CSLR for the block's next opening, of one vector cycle the warp of the highest WARPID last
(R95), and the progress registers for the fragment; NOP only moves on (R58). Two clauses are the model's choice: an SWR to CSLR by the
MCC yields to a warp's of the same cycle (log 113), and a write of PRG.V = 0 by the MCC drops the macro of the handler, or of the
program, that the writing fragment runs (log 46). -/
def Obligations.UniformRegisterResults : Prop :=
  (∀ (sw : BitVec 1) (d a b : BitVec 7) (i : BitVec 10) (t : BitVec 2) (k : BitVec 1) (n : BitVec 5) (q : BitVec 3)
    (h : BitVec 16),
    let ab := (RegSet.ss a.toNat 1).or (RegSet.ss b.toNat 1)
    let sa := RegSet.ss a.toNat 1
    let x (c : Ctx) : Word := c.p.getS a.toNat
    let y (c : Ctx) : Word := c.p.getS b.toNat
    UniformOp (.sadd sw d a b) sw ab d 1 (fun _ c => [x c + y c]) ∧
    UniformOp (.ssub sw d a b) sw ab d 1 (fun _ c => [x c - y c]) ∧
    UniformOp (.saddImm sw d a i) sw sa d 1 (fun _ c => [x c + i.signExtend 32]) ∧
    UniformOp (.smul sw d a b) sw ab d 1 (fun _ c => [x c * y c]) ∧
    UniformOp (.smulh sw d a b t) sw ab d 1 (fun _ c => [highWord (t = 1) (x c) (y c)]) ∧
    UniformOp (.sand sw d a b) sw ab d 1 (fun _ c => [x c &&& y c]) ∧
    UniformOp (.sor sw d a b) sw ab d 1 (fun _ c => [x c ||| y c]) ∧
    UniformOp (.sxor sw d a b) sw ab d 1 (fun _ c => [x c ^^^ y c]) ∧
    UniformOp (.sshl sw d a b) sw ab d 1 (fun _ c => [x c <<< (y c).toNat]) ∧
    UniformOp (.sshr sw d a b) sw ab d 1 (fun _ c => [x c >>> (y c).toNat]) ∧
    UniformOp (.ssar sw d a b) sw ab d 1 (fun _ c => [(x c).sshiftRight (y c).toNat]) ∧
    UniformOp (.sshlImm sw d a n) sw sa d 1 (fun _ c => [x c <<< n.toNat]) ∧
    UniformOp (.sshrImm sw d a n) sw sa d 1 (fun _ c => [x c >>> n.toNat]) ∧
    UniformOp (.ssarImm sw d a n) sw sa d 1 (fun _ c => [(x c).sshiftRight n.toNat]) ∧
    UniformOp (.smin sw d a b k) sw ab d 1 (fun _ c => [BitVec.ofInt 32 (min (asInt (k = 1) (x c)) (asInt (k = 1) (y c)))]) ∧
    UniformOp (.smax sw d a b k) sw ab d 1 (fun _ c => [BitVec.ofInt 32 (max (asInt (k = 1) (x c)) (asInt (k = 1) (y c)))]) ∧
    UniformOp (.scmp sw d a b q) sw ab d 1 (fun _ c =>
      let r : Bool := if q = 0 then x c = y c else if q = 1 then x c ≠ y c else if q = 2 then (x c).toInt < (y c).toInt
        else if q = 3 then (x c).toInt ≤ (y c).toInt else if q = 4 then (x c).toNat < (y c).toNat else (x c).toNat ≤ (y c).toNat
      [if r then 1 else 0]) ∧
    UniformOp (.ssel sw d a b) sw (ab.or (RegSet.ss d.toNat 1)) d 1 (fun _ c =>
      [if c.p.getS d.toNat ≠ 0 then x c else y c]) ∧
    UniformOp (.smov sw d a) sw sa d 1 (fun _ c => [x c]) ∧
    UniformOp (.spopc sw d a) sw sa d 1 (fun _ c => [BitVec.ofNat 32 ((List.range 32).countP fun j => (x c).getLsbD j)]) ∧
    UniformOp (.sclz sw d a) sw sa d 1 (fun _ c => [if x c = 0 then 32 else BitVec.ofNat 32 (31 - (x c).toNat.log2)]) ∧
    UniformOp (.smovl sw d h) sw RegSet.none d 1 (fun _ _ => [h.setWidth 32]) ∧
    UniformOp (.smovh sw d h) sw (RegSet.ss d.toNat 1) d 1 (fun _ c => [h ++ (c.p.getS d.toNat).setWidth 16])) ∧
  (∀ (sw : BitVec 1) (d a : BitVec 7) (n : BitVec 8),
    (¬specialWide n.toNat → UniformOp (.srd sw d n) sw RegSet.none d 1 (fun s c => [BitVec.ofNat 32 (specialRow s c n.toNat)])) ∧
    (specialWide n.toNat → UniformOp (.srd sw d n) sw RegSet.none d 2 (fun s c =>
      [BitVec.ofNat 32 (specialRow s c n.toNat), BitVec.ofNat 32 (specialRow s c n.toNat / 2 ^ 32)])) ∧
    ((0x1B ≤ n.toNat ∧ n.toNat ≤ 0x1F) ∨ 0x28 ≤ n.toNat →
      ∃ e, decodeWord (0x8F000000 + put sw 30 + put d 17 + put n 0) = .error e) ∧
    (n ≠ 0x0E → n ≠ 0x0F → n ≠ 0x10 → n ≠ 0x11 → n ≠ 0x1A →
      ∃ e, decodeWord (0x8F000100 + put sw 30 + put a 10 + put n 0) = .error e) ∧
    UniformOp (.leaseq sw d) sw RegSet.none d 4 (fun s c =>
      let l := (s.part c.key.part).lease
      let ends := if l.held then min l.endAt (l.notice.getD l.endAt) else 0
      [BitVec.ofNat 32 (specialRow s c 0x12), if l.held then 4400 else 4000, BitVec.ofNat 32 ends,
        BitVec.ofNat 32 (ends / 2 ^ 32)]) ∧
    (∀ s c, Stands s c (.nop sw) RegSet.none RegSet.none 0 →
      ∃ t, exec (.nop sw) s = .next t ∧ RanOn s t c c.b (c.behind s sw RegSet.none) (noResult c)) ∧
    (∀ s c, Stands s c (.swr sw a 0x11) (RegSet.ss a.toNat 1) RegSet.none 0 →
      ∃ t, exec (.swr sw a 0x11) s = .next t ∧
        RanOn s t { c with p := { c.p with fmode := c.p.getS a.toNat &&& 7 } } c.b (c.behind s sw RegSet.none) (noResult c)) ∧
    (∀ s c, Stands s c (.swr sw a 0x1A) (RegSet.ss a.toNat 1) RegSet.none 0 →
      ∃ t, exec (.swr sw a 0x1A) s = .next t ∧
        RanOn s t c (if c.b.cslrNew.isSome = true ∧ c.b.cslrBy.1 = (s.cluster c.cl).vcyc + 1 ∧ whoRank c.who < c.b.cslrBy.2 then c.b
            else { c.b with cslrNew := some (c.p.getS a.toNat &&& 0x003FFF7F),
                            cslrBy := ((s.cluster c.cl).vcyc + 1, whoRank c.who) })
          (c.behind s sw RegSet.none) (noResult c)) ∧
    (∀ s c, Stands s c (.swr sw a 0x0F) (RegSet.ss a.toNat 2) RegSet.none 0 →
      ∃ t, exec (.swr sw a 0x0F) s = .next t ∧
        RanOn s t c c.b { c.behind s sw RegSet.none with prgpc := c.p.getSD a.toNat &&& 0x007FFFFFFFFFFFFF } (noResult c)) ∧
    (∀ s c, Stands s c (.swr sw a 0x10) (RegSet.ss a.toNat 2) RegSet.none 0 →
      ∃ t, exec (.swr sw a 0x10) s = .next t ∧
        RanOn s t c c.b { c.behind s sw RegSet.none with prgx := c.p.getSD a.toNat } (noResult c)) ∧
    (∀ s c, Stands s c (.swr sw a 0x0E) (RegSet.ss a.toNat 2) RegSet.none 0 →
      ∃ t, exec (.swr sw a 0x0E) s = .next t ∧
        RanOn s t c (if c.who = .mcc ∧ (c.p.getSD a.toNat).getLsbD 63 = false then c.b.dropMacro c.f.handler else c.b)
          { c.behind s sw RegSet.none with prg := c.p.getSD a.toNat &&& 0xFFFF0000FFFFFFFF } (noResult c)))

/-! ## Control flow -/

/-- R59, R98, R99: BRA, BRC, CALL and JMPI in range move the whole fragment to their target and change no register; CALL pushes PC
+ 4 in every active lane. A target outside the 55-bit space raises PAGE at the branch, JMPI to an address that is no multiple of
64 raises ALIGN, a call on a full stack and a return on an empty one raise ILLOP; no lane branches, pushes or pops. -/
def Obligations.UniformBranchesAndTheirFaults : Prop :=
  (∀ (sw : BitVec 1) (o : BitVec 24) (q : BitVec 13) (k : BitVec 4) (a : BitVec 7) (s : State) (c : Ctx),
    let t := (c.f.pc.toNat / 64 * 64 : Int) + 64 * o.toInt
    let v := (c.f.pc.toNat / 64 * 64 : Int) + 64 * q.toInt
    let goes (pc : Addr) : Frag := { c.behind s sw RegSet.none with pc := pc }
    (Stands s c (.bra sw o) RegSet.none RegSet.none 0 → 0 ≤ t → t < 2 ^ 55 →
      ∃ u, exec (.bra sw o) s = .next u ∧ RanOn s u c c.b (goes (BitVec.ofInt 55 t)) (noResult c)) ∧
    (Stands s c (.brc sw k a q) (RegSet.ss a.toNat 1) RegSet.none 0 → holds k.toNat (c.p.getS a.toNat).toInt 0 = true →
      0 ≤ v → v < 2 ^ 55 →
      ∃ u, exec (.brc sw k a q) s = .next u ∧ RanOn s u c c.b (goes (BitVec.ofInt 55 v)) (noResult c)) ∧
    (Stands s c (.brc sw k a q) (RegSet.ss a.toNat 1) RegSet.none 0 → holds k.toNat (c.p.getS a.toNat).toInt 0 = false →
      ∃ u, exec (.brc sw k a q) s = .next u ∧ RanOn s u c c.b (goes (c.f.pc + 4)) (noResult c)) ∧
    (Stands s c (.call sw o) RegSet.none RegSet.none 0 → 0 ≤ t → t < 2 ^ 55 →
      (∀ L, L < 64 → c.f.lanes.getLsbD L = true → (vget c.p.rets L []).length < (if c.who = .mcc then 8 else 4)) →
      ∃ u, exec (.call sw o) s = .next u ∧
        RanOn s u { c with p := withPushed c.p c.f.lanes (c.f.pc + 4) } c.b (goes (BitVec.ofInt 55 t)) (noResult c)) ∧
    (Stands s c (.jmpi sw a) (RegSet.ss a.toNat 2) RegSet.none 0 → (c.p.getSD a.toNat).toNat < 2 ^ 55 →
      (c.p.getSD a.toNat).toNat % 64 = 0 →
      ∃ u, exec (.jmpi sw a) s = .next u ∧ RanOn s u c c.b (goes ((c.p.getSD a.toNat).setWidth 55)) (noResult c))) ∧
  (∀ (sw : BitVec 1) (o : BitVec 24) (a : BitVec 7) (s : State) (c : Ctx),
    let t := (c.f.pc.toNat / 64 * 64 : Int) + 64 * o.toInt
    let full := ∃ L, L < 64 ∧ c.f.lanes.getLsbD L = true ∧ (if c.who = .mcc then 8 else 4) ≤ (vget c.p.rets L []).length
    let empty := ∃ L, L < 64 ∧ c.f.lanes.getLsbD L = true ∧ vget c.p.rets L [] = []
    (Stands s c (.bra sw o) RegSet.none RegSet.none 0 → (t < 0 ∨ 2 ^ 55 ≤ t) →
      Raises s c (.bra sw o) { flt cPAGE with addr := BitVec.ofInt 64 t }) ∧
    (Stands s c (.call sw o) RegSet.none RegSet.none 0 → full → Raises s c (.call sw o) (flt cILLOP)) ∧
    (Stands s c (.ret sw) RegSet.none RegSet.none 0 → empty → Raises s c (.ret sw) (flt cILLOP)) ∧
    (Stands s c (.lret sw) RegSet.none RegSet.none 0 → empty → Raises s c (.lret sw) (flt cILLOP)) ∧
    (Stands s c (.jmpi sw a) (RegSet.ss a.toNat 2) RegSet.none 0 → 2 ^ 55 ≤ (c.p.getSD a.toNat).toNat →
      Raises s c (.jmpi sw a) { flt cPAGE with addr := c.p.getSD a.toNat }) ∧
    (Stands s c (.jmpi sw a) (RegSet.ss a.toNat 2) RegSet.none 0 → (c.p.getSD a.toNat).toNat < 2 ^ 55 →
      (c.p.getSD a.toNat).toNat % 64 ≠ 0 → Raises s c (.jmpi sw a) (flt cALIGN)))

/-- R98–R100: RET and LRET pop in every active lane, and each lane goes to the address on top of its own stack. -/
def Obligations.ReturnsGoToEachLanesAddress : Prop :=
  ∀ (sw : BitVec 1) (s : State) (c : Ctx) (i : Instr), (i = .ret sw ∨ i = .lret sw) →
    Stands s c i RegSet.none RegSet.none 0 → c.f.lanes ≠ 0 →
    (∀ L, L < 64 → c.f.lanes.getLsbD L = true → vget c.p.rets L [] ≠ []) →
    ∃ t, exec i s = .next t ∧
      RanParty s t { c with p := withPopped c.p c.f.lanes } c.b (fun p =>
        noResult c p ∧ (∀ j, j < c.p.frags.length → j ≠ c.i → p.frags[j]? = c.p.frags[j]?) ∧
        ∀ L, L < 64 → c.f.lanes.getLsbD L = true → ∃ f ∈ p.frags, f.lanes.getLsbD L = true ∧
          f.pc = (vget c.p.rets L []).headD 0 ∧ f.prg = c.f.prg ∧ (sw = 0 → f.pend = c.f.pend))

/-- R100: BRL and LCALL send the lanes whose guard is true to the target and let the others go on; each part keeps the pending
set. LCALL pushes PC + 4 in the lanes it sends. -/
def Obligations.LaneBranchesSplitTheFragment : Prop :=
  ∀ (sw : BitVec 1) (g : BitVec 2) (o : BitVec 22) (s : State) (c : Ctx) (i : Instr),
    let m := c.effLanes g.toNat
    let t := (c.f.pc.toNat / 64 * 64 : Int) + 64 * o.toInt
    let pushed := i = .lcall sw g o
    let goes (l : Lanes) (pc : Addr) : Frag :=
      let f := { c.f with lanes := l, pc := pc, wait := .run }
      if sw = 1 then (if resultsOut s c.key c.who f then { f with wait := .switch } else { f with pend := RegSet.none }) else f
    (i = .brl sw g o ∨ i = .lcall sw g o) → Stands s c i RegSet.none RegSet.none g.toNat → m ≠ 0 → 0 ≤ t → t < 2 ^ 55 →
    (pushed → ∀ L, L < 64 → m.getLsbD L = true → (vget c.p.rets L []).length < (if c.who = .mcc then 8 else 4)) →
    ∃ u, exec i s = .next u ∧
      RanParty s u { c with p := if pushed then withPushed c.p m (c.f.pc + 4) else c.p } c.b (fun p =>
        noResult c p ∧
        p.frags = (if c.f.lanes &&& ~~~m = 0 then lmod c.p.frags c.i (fun _ => goes m (BitVec.ofInt 55 t))
          else lmod c.p.frags c.i (fun _ => goes m (BitVec.ofInt 55 t)) ++ [goes (c.f.lanes &&& ~~~m) (c.f.pc + 4)]))

/-- R101–R103: JSET adds a record with its target and the lanes whose guard is true, and none when there are no such lanes, even with
eight records live (the order of these two checks is log 87's); a target outside the space raises PAGE in every active lane (log 114).
A JOIN that meets no record, its results returned, goes on with nothing pending. At a record its lanes in the mask arrive and its
others go on. While more lanes must reach the record the fragment waits there; when all live lanes have arrived, of this fragment and
of those that wait, the record is gone and the lanes leave behind the JOIN with nothing pending, those of equal progress state as one
fragment and no others together (a handler's lanes stay apart: log 88). -/
def Obligations.JoinRecordsReconverge : Prop :=
  ∀ (sw : BitVec 1) (g : BitVec 2) (o : BitVec 22) (s : State) (c : Ctx),
    let m := c.effLanes g.toNat
    let t := (c.f.pc.toNat / 64 * 64 : Int) + 64 * o.toInt
    (Stands s c (.jset sw g o) RegSet.none RegSet.none g.toNat → m ≠ 0 → c.p.joins.length < 8 → 0 ≤ t → t < 2 ^ 55 →
      ∃ u, exec (.jset sw g o) s = .next u ∧ ∃ n, (∀ r ∈ c.p.joins, r.id ≠ n) ∧
        RanOn s u { c with p := { c.p with joins := c.p.joins ++ [{ id := n, pc := BitVec.ofInt 55 t, mask := m, arrived := 0 }] } }
          c.b (c.behind s sw RegSet.none) (noResult c)) ∧
    (Stands s c (.jset sw g o) RegSet.none RegSet.none g.toNat → m = 0 →
      ∃ u, exec (.jset sw g o) s = .next u ∧ RanOn s u c c.b (c.behind s sw RegSet.none) (noResult c)) ∧
    (Stands s c (.jset sw g o) RegSet.none RegSet.none g.toNat → m ≠ 0 → c.p.joins.length < 8 → (t < 0 ∨ 2 ^ 55 ≤ t) →
      Raises s c (.jset sw g o) { flt cPAGE with addr := BitVec.ofInt 64 t }) ∧
    (Stands s c (.jset sw g o) RegSet.none RegSet.none g.toNat → m ≠ 0 → 8 ≤ c.p.joins.length →
      Raises s c (.jset sw g o) (flt cILLOP)) ∧
    (Stands s c (.join sw) RegSet.none RegSet.none 0 → resultsOut s c.key c.who c.f = false →
      (∀ r ∈ c.p.joins, r.pc = c.f.pc → r.mask &&& c.f.lanes = 0) →
      ∃ u, exec (.join sw) s = .next u ∧
        RanOn s u c c.b { c.f with pc := c.f.pc + 4, pend := RegSet.none, wait := .run } (noResult c)) ∧
    (∀ l z r, Stands s c (.join sw) RegSet.none RegSet.none 0 → resultsOut s c.key c.who c.f = false → Meets c l z r →
      let all := r.arrived ||| (c.f.lanes &&& r.mask)
      (r.mask &&& c.p.live &&& ~~~all ≠ 0 →
        ∃ u, exec (.join sw) s = .next u ∧
          RanParty s u { c with p := { c.p with joins := l ++ { r with arrived := all } :: z } } c.b (fun p =>
            noResult c p ∧ p.frags = atRecord c r)) ∧
      (r.mask &&& c.p.live ≠ 0 → r.mask &&& c.p.live &&& ~~~all = 0 →
        ∃ u, exec (.join sw) s = .next u ∧
          RanParty s u { c with p := { c.p with joins := l ++ z } } c.b (fun p => noResult c p ∧ ∃ merged,
            let came := (atRecord c r).filter fun f => f.wait = .join r.id
            p.frags = ((atRecord c r).filter fun f => f.wait ≠ .join r.id) ++ merged ∧
            (∀ f ∈ merged, f.pc = c.f.pc + 4 ∧ f.pend = RegSet.none ∧ f.wait = .run ∧
              ∀ L, L < 64 → (f.lanes.getLsbD L = true ↔ ∃ g ∈ came, sameProgress f g ∧ g.lanes.getLsbD L = true)) ∧
            (∀ g ∈ came, ∃ f ∈ merged, sameProgress f g) ∧ merged.Pairwise fun f g => ¬sameProgress f g)))

/-- R104: EXIT ends the lanes of the fragment; a warp with no lane left drains; the MCC's program ends once its array work is
done. -/
def Obligations.ExitEndsTheLanes : Prop :=
  ∀ (sw : BitVec 1) (s : State) (c : Ctx), Stands s c (.exit sw) RegSet.none RegSet.none 0 →
    (∀ n, c.who = .warp n →
      ∃ t p, exec (.exit sw) s = .next t ∧ t.party? c.key c.who = some p ∧ p.exited = c.p.exited ||| c.f.lanes ∧
        p.v = c.p.v ∧ p.p = c.p.p ∧ t.ms = s.ms ∧ (c.p.live &&& ~~~c.f.lanes = 0 → p.ws = .draining)) ∧
    (c.who = .mcc → c.b.flights = [] →
      ∃ t b, exec (.exit sw) s = .next t ∧ t.block? c.key = some b ∧ b.mccEnded = true ∧ t.ms = s.ms ∧
        (b.mcc.map fun p => p.frags) = some [])

/-- R105, R106: a YIELD that acts, its results returned, parks the fragment at the following word with nothing pending; one
that does not act only goes on; PAUSE n stops the fragment behind it from the cycle of the issue on and keeps the pending set. That the
marker of PAUSE.sw empties the set only when the pause ends is log 75. -/
def Obligations.YieldAndPause : Prop :=
  ∀ (sw : BitVec 1) (n : BitVec 10) (s : State) (c : Ctx) (i : Instr) (acts : Bool),
    (i = .yield sw ∧ acts = c.b.yr) ∨ (i = .yieldLy sw ∧ acts = (c.b.yr || c.b.ly)) →
    (Stands s c i RegSet.none RegSet.none 0 → acts = true → resultsOut s c.key c.who c.f = false →
      ∃ t, exec i s = .next t ∧
        RanOn s t c c.b { c.f with pc := c.f.pc + 4, pend := RegSet.none, wait := .yielded } (noResult c)) ∧
    (Stands s c i RegSet.none RegSet.none 0 → acts = false →
      ∃ t, exec i s = .next t ∧ RanOn s t c c.b (c.behind s sw RegSet.none) (noResult c)) ∧
    (Stands s c (.pause sw n) RegSet.none RegSet.none 0 → n ≠ 0 →
      ∃ t, exec (.pause sw n) s = .next t ∧
        RanOn s t c c.b { c.f with pc := c.f.pc + 4, wait := .pause (s.cluster c.cl).cyc n.toNat (sw == 1) } (noResult c)) ∧
    (Stands s c (.pause sw 0) RegSet.none RegSet.none 0 →
      ∃ t, exec (.pause sw 0) s = .next t ∧ RanOn s t c c.b (c.behind s sw RegSet.none) (noResult c))

/-- R23, R24, R112, R113: REGGIVE moves n blocks of eight registers from the window to the pool, and they read zero from then on, also
when they return. REGTAKE, its results returned, enters the FIFO, among those of its vector cycle by WARPID, and waits behind the
instruction with nothing pending; REGTAKE 0 does too (log 121). At the end of the vector cycle the FIFO is served, unless the cluster
is frozen: a request at its head that the pool holds takes its blocks, and its fragment goes on. -/
def Obligations.RegisterPoolMoves : Prop :=
  ∀ (sw : BitVec 1) (n : BitVec 10) (s : State) (c : Ctx) (w : Nat), c.who = .warp w → c.f.lanes = c.p.live →
    (Stands s c (.reggive sw n) RegSet.none RegSet.none 0 → 8 * n.toNat + 16 ≤ c.p.win →
      (RegSet.vs (c.p.win - 8 * n.toNat) (8 * n.toNat)).meets c.f.pend = false →
      ∃ t, exec (.reggive sw n) s = .next t ∧
        RanOn s t { c with p := { c.p with win := c.p.win - 8 * n.toNat } } { c.b with pool := c.b.pool + n.toNat }
          (c.behind s sw RegSet.none) (fun p => p.s = c.p.s ∧ p.p = c.p.p ∧
            ∀ r L, r < 64 → L < 64 → p.getV r L =
              if c.p.win - 8 * n.toNat ≤ r ∧ r < c.p.win then 0 else c.p.getV r L)) ∧
    (Stands s c (.reggive sw n) RegSet.none RegSet.none 0 → c.p.win < 8 * n.toNat + 16 →
      Raises s c (.reggive sw n) (flt cREGWIN)) ∧
    (Stands s c (.regtake sw n) RegSet.none RegSet.none 0 → c.p.win + 8 * n.toNat ≤ 64 →
      resultsOut s c.key c.who c.f = false →
      ∃ t, exec (.regtake sw n) s = .next t ∧
        RanOn s t c { c.b with takers := insertTaker { warp := w, n := n.toNat, at_ := (s.cluster c.cl).vcyc + 1 } c.b.takers }
          { c.f with pc := c.f.pc + 4, pend := RegSet.none, wait := .regtake } (noResult c)) ∧
    (∀ (b : Block) (x : Taker) (rest : List Taker) (q : Party), s.block? b.key = some b → b.place = .resident c.cl →
      b.takers = x :: rest → b.party? (.warp x.warp) = some q →
      (b.pool < x.n → (endVector s c.cl).block? b.key = some b) ∧
      (x.n ≤ b.pool → rest = [] → (s.cluster c.cl).frozen = false → ∃ y, (endVector s c.cl).block? b.key = some y ∧ y.takers = [] ∧ y.pool = b.pool - x.n ∧
        y.party? (.warp x.warp) = some { q with win := q.win + 8 * x.n, frags := q.frags.map fun f =>
          if f.wait = .regtake then { f with wait := .run } else f })) ∧
    (Stands s c (.regtake sw n) RegSet.none RegSet.none 0 → 64 < c.p.win + 8 * n.toNat →
      Raises s c (.regtake sw n) (flt cREGWIN))

/-! ## Memory words -/

/-- R139–R144, R147, R269: loads, stores and ZLINE record one access for each lane that takes effect, in the stream they name,
with the lane's address and, for a store, the first bytes of its data registers; no register or byte of memory changes yet. -/
def Obligations.LaneLoadsAndStoresRecordAccesses : Prop :=
  ∀ (sw : BitVec 1) (g p : BitVec 2) (d a : BitVec 6) (t w : BitVec 4),
    let n := widthBytes w.toNat
    let k := if w.toNat ≤ 4 then 1 else if w.toNat = 5 then 2 else 4
    let vd := RegSet.vs d.toNat k
    let va := RegSet.vs a.toNat 2
    let load (_ : Ctx) (_ : Nat) : AccKind := .load n (w = 1 || w = 3) d.toNat
    let store (c : Ctx) (L : Nat) : AccKind := .store (storeBytes c d.toNat n L)
    LaneAccess (.ldg sw g d a t p w) sw va vd g a .global t.toNat n true false false (p == 3) (fun _ _ _ _ => True) load ∧
    LaneAccess (.lds sw g d a t w) sw va vd g a .scratch t.toNat n true false false false
      (fun s c L x => unmarked s c t.toNat n L x) load ∧
    LaneAccess (.ldc sw g d a t p w) sw va vd g a .const t.toNat n true false false (p == 3) (fun _ _ _ _ => True) load ∧
    LaneAccess (.stg sw g d a t p w) sw (va.or vd) RegSet.none g a .global t.toNat n false true true false (fun _ _ _ _ => True)
      store ∧
    LaneAccess (.sts sw g d a t w) sw (va.or vd) RegSet.none g a .scratch t.toNat n false true true false
      (fun _ c _ x => c.b.overlapsBar x.toNat n = false) store ∧
    LaneAccess (.zline sw g a t p) sw va RegSet.none g a .global t.toNat 128 false true true false (fun _ _ _ _ => True)
      (fun _ _ => .zline) ∧
    (∀ s c, Stands s c (.pfg sw g a p) va RegSet.none g.toNat →
      ∃ u, exec (.pfg sw g a p) s = .next u ∧ RanOn s u c c.b (c.behind s sw RegSet.none) (noResult c))

/-- R148–R153, R269: atomics and uniform accesses record their access; RED puts one entry a lane into its pool and REDM one on
its way to the base die, neither translated yet. -/
def Obligations.AtomicsAndReductionsRecordEntries : Prop :=
  ∀ (sw : BitVec 1) (g p : BitVec 2) (d a : BitVec 6) (t o : BitVec 4) (w : BitVec 1) (e b : BitVec 7) (q : BitVec 3),
    let wide := o = 10 ∨ o = 11
    let n := if wide then 8 else 4
    let k := if wide then 2 else 1
    let va := RegSet.vs a.toNat 2
    let m := if w = 0 then 4 else 8
    let arg (c : Ctx) (r L : Nat) (two : Prop) [Decidable two] : DWord :=
      if two then c.p.getVD r L else (c.p.getV r L).setWidth 64
    LaneAccess (.atom sw g d a t o) sw (va.or (RegSet.vs d.toNat k)) (RegSet.vs d.toNat k) g a .global t.toNat n true true false false
      (fun _ _ _ _ => True) (fun c L => .atom o.toNat n (arg c d.toNat L wide) d.toNat) ∧
    LaneAccess (.acas sw g d a t p w) sw (va.or (RegSet.vs d.toNat (m / 2))) ((RegSet.vs d.toNat (m / 4)).or (RegSet.pr p.toNat))
      g a .global t.toNat m true true false false (fun _ _ _ _ => True)
      (fun c L => .acas m (arg c d.toNat L (w ≠ 0)) (arg c (d.toNat + m / 2) L (w ≠ 0)) p.toNat d.toNat) ∧
    (∀ s c, Stands s c (.red sw g d a t o) (va.or (RegSet.vs d.toNat k)) RegSet.none g.toNat → unwatched s c →
      RedPasses s c g.toNat a.toNat n →
      let v := s.modMs fun ms => { ms with serial := ms.serial + 1, pool := ms.pool ++ (laneList (c.effLanes g.toNat)).map fun L =>
        ({ serial := ms.serial, key := c.key, who := c.who, lane := L, stream := t.toNat, pc := c.f.pc,
           va := c.p.getVD a.toNat L, pa := none, op := o.toNat, x := arg c d.toNat L wide, held := none, dbl := c.dbl } : RedEntry) }
      ∃ u, exec (.red sw g d a t o) s = .next u ∧ RanOn v u c c.b (c.behind v sw RegSet.none) (noResult c)) ∧
    (∀ s c, Stands s c (.redm sw g d a o) (va.or (RegSet.vs d.toNat 1)) RegSet.none g.toNat →
      RedPasses s c g.toNat a.toNat 4 →
      let v := s.modMs fun ms => { ms with serial := ms.serial + 1, redm := ms.redm ++ (laneList (c.effLanes g.toNat)).map fun L =>
        ({ serial := ms.serial, key := c.key, who := c.who, lane := L, stream := 0, pc := c.f.pc,
           va := c.p.getVD a.toNat L, pa := none, op := o.toNat, x := (c.p.getV d.toNat L).setWidth 64, held := none,
           dbl := c.dbl } : RedEntry) }
      ∃ u, exec (.redm sw g d a o) s = .next u ∧
        RanOn v u c { c.b with idem := false } (c.behind v sw RegSet.none) (noResult c)) ∧
    UniformAccess (.sld sw e b t p q) sw (RegSet.ss b.toNat 2) (RegSet.ss e.toNat (if q = 5 then 2 else 1)) b t.toNat
      (widthBytes q.toNat) true false false (p == 3) (fun _ => .loadS (widthBytes q.toNat) (q = 1 || q = 3) e.toNat) ∧
    UniformAccess (.sst sw e b t p q) sw ((RegSet.ss b.toNat 2).or (RegSet.ss e.toNat (if q = 5 then 2 else 1))) RegSet.none b
      t.toNat (widthBytes q.toNat) false true true false
      (fun c => .store ((dwordBytes (c.p.getSD e.toNat)).take (widthBytes q.toNat))) ∧
    UniformAccess (.satom sw e b t p q) sw ((RegSet.ss b.toNat 2).or (RegSet.ss e.toNat 1)) (RegSet.ss e.toNat 1) b t.toNat 4
      true true false false (fun c => .atomS (if q.toNat < 4 then q.toNat else q.toNat + 2) (c.p.getS e.toNat) e.toNat)

/-- R139, R141, R142, R318, R319: An access that is not aligned to its size raises MISALN and one beyond the 55-bit space PAGE,
precisely, in the lanes where it is so; a scratchpad access beyond the block's segment raises PROT. Where lanes of a load are
misaligned and the others pass, the misaligned lanes park at the word as a fragment of their own with MISALN, the accesses of the
others are recorded, and the others go on. -/
def Obligations.AddressChecksAndMisalignment : Prop :=
  (∀ (c : Ctx) (a : DWord) (n : Nat), 0 < n →
    (2 ^ 55 ≤ a.toNat → addrCheck c .global a n = some { flt cPAGE with addr := a }) ∧
    (a.toNat < 2 ^ 55 → ¬ n ∣ a.toNat → addrCheck c .global a n = some (flt cMISALN)) ∧
    (a.toNat < 2 ^ 55 → n ∣ a.toNat → addrCheck c .global a n = none) ∧
    (¬ n ∣ a.toNat → addrCheck c .scratch a n = some (flt cMISALN) ∧ addrCheck c .const a n = some (flt cMISALN)) ∧
    (n ∣ a.toNat → c.b.scrSize < a.toNat + n → addrCheck c .scratch a n = some { flt cPROT with addr := a }) ∧
    (n ∣ a.toNat → a.toNat + n ≤ c.b.scrSize → addrCheck c .scratch a n = none) ∧
    (n ∣ a.toNat → c.l.lr.csize < a.toNat + n → addrCheck c .const a n = some { flt cPROT with addr := accVa c .const a }) ∧
    (n ∣ a.toNat → a.toNat + n ≤ c.l.lr.csize → addrCheck c .const a n = none)) ∧
  (∀ (sw : BitVec 1) (g : BitVec 2) (d a : BitVec 6) (t : BitVec 4) (s : State) (c : Ctx),
    let i := Instr.lds sw g d a t 4
    let m := c.effLanes g.toNat
    let off (L : Nat) : Nat := (c.p.getVD a.toNat L).toNat
    let w := lanesOf fun L => m.getLsbD L && off L % 4 != 0
    let rest := c.f.lanes &&& ~~~w
    Stands s c i (RegSet.vs a.toNat 2) (RegSet.vs d.toNat 1) g.toNat → unwatched s c → handlerOf c.l c.who ≠ 0 →
    c.p.trap.isSome = true → c.f.handler = false → w ≠ 0 → rest ≠ 0 →
    (∀ L, L < 64 → m.getLsbD L = true → off L % 4 = 0 → off L + 4 ≤ c.b.scrSize ∧ scrPoisoned c.b (off L) 4 = false) →
    ∃ u q k r, exec i s = .next u ∧ u.party? c.key c.who = some q ∧ noResult c q ∧
      u.ms.queue = s.ms.queue ++ ((laneList (m &&& ~~~w)).map fun L =>
        accessOf s c (laneBit L) t.toNat .scratch (c.p.getVD a.toNat L) none (.load 4 false d.toNat)) ∧
      q.frags = lmod c.p.frags c.i (fun _ => r) ++ [{ c.f with lanes := w, wait := .parked k }] ∧
      r.lanes = rest ∧ r.pc = c.f.pc + 4 ∧ k.flt.code = cMISALN ∧ k.host = false)

/-! ## Barriers, waits and fences -/

/-- R154–R157, R157, R158, R160, R161: BARINIT makes a word live with GEN and ARR 0, once no write is on its way to it (log 90), or
sets EXP of a live one that has no arrival; BARA
writes GEN and arrives; BAR arrives and waits; neither opens the barrier here. BARW goes on at another GEN and else waits. The
arrival that makes ARR reach EXP opens the barrier in one step: ARR is 0 and GEN one more, and, with WAVE 0, every waiter runs. A
word that is not live raises BARCLOB, and its contents stay. GBAR arrives at a barrier of the gang and waits there; an arrival
before the last opens nothing. -/
def Obligations.BarriersOpenAtTheirCount : Prop :=
  (∀ (sw : BitVec 1) (d a : BitVec 7) (i : BitVec 10) (s : State) (c : Ctx) (y : Bar) (go : Frag),
    let x := ((c.p.getS a.toNat).setWidth 64 + i.signExtend 64).toNat
    let n := (c.p.getS d.toNat).toNat
    let w := memWord c.b.scr x
    let gen := barGen w
    let sa := RegSet.ss a.toNat 1
    let put (l : Block) (v : Word) : Block := { l with scr := memWrite l.scr x (wordBytes v) }
    let bars (f : Bar → Bar) : Block := { c.b with bars := c.b.bars.map fun z => if z.addr = x then f z else z }
    let me : BarWaiter := { key := c.key, who := c.who, lanes := c.f.lanes, gen := gen }
    let alone := c.p.frags = [c.f] ∧ c.issues ∧ c.f.lanes = c.p.live ∧ c.p.arrive = none ∧
      streamEmpty s c.key c.who c.f.lanes (fun _ => true) = true
    let early := y.arrived.contains c.who = false ∧ y.arrived.length < 63 ∧ barArr w + 1 < barExp w
    x % 4 = 0 → x + 4 ≤ c.b.scrSize →
    (Stands s c (.barinit sw d a i) (sa.or (RegSet.ss d.toNat 1)) RegSet.none 0 → c.b.bar? x = none → n < 64 →
      wordBusy s c.key x = true → Holds s c (.barinit sw d a i) (.word x)) ∧
    (Stands s c (.barinit sw d a i) (sa.or (RegSet.ss d.toNat 1)) RegSet.none 0 → c.b.bar? x = none → n < 64 →
      wordBusy s c.key x = false →
      ∃ t, exec (.barinit sw d a i) s = .next t ∧
        RanOn s t c { put c.b (BitVec.ofNat 32 n) with
          scrPois := c.b.scrPois.filter (fun k => k != x / 4), bars := c.b.bars ++ [{ addr := x, arrived := [], waiters := [] }] }
          (c.behind s sw RegSet.none) (noResult c)) ∧
    (Stands s c (.barinit sw d a i) (sa.or (RegSet.ss d.toNat 1)) RegSet.none 0 → c.b.bar? x = some y → n < 64 → barArr w = 0 →
      ∃ t, exec (.barinit sw d a i) s = .next t ∧
        RanOn s t c { put c.b (BitVec.ofNat 32 (gen * 2 ^ 24 + n)) with scrPois := c.b.scrPois.filter (fun k => k != x / 4) }
          (c.behind s sw RegSet.none) (noResult c)) ∧
    (Stands s c (.barinit sw d a i) (sa.or (RegSet.ss d.toNat 1)) RegSet.none 0 → 64 ≤ n →
      Raises s c (.barinit sw d a i) (flt cILLOP)) ∧
    (Stands s c (.bara sw d a i) sa (RegSet.ss d.toNat 1) 0 → c.b.bar? x = some y → alone → early →
      ∃ t, exec (.bara sw d a i) s = .next t ∧
        RanOn s t c (put (bars fun z => { z with arrived := z.arrived ++ [c.who] })
            (BitVec.ofNat 32 (gen * 2 ^ 24 + (barArr w + 1) * 2 ^ 16 + barExp w)))
          (c.behind s sw (RegSet.ss d.toNat 1)) (uniformResult c d.toNat [BitVec.ofNat 32 gen])) ∧
    (Stands s c (.bar sw a i) sa RegSet.none 0 → c.b.bar? x = some y → alone → early → resultsOut s c.key c.who c.f = false →
      ∃ t, exec (.bar sw a i) s = .next t ∧
        RanOn s t c (put (bars fun z => { z with arrived := z.arrived ++ [c.who], waiters := z.waiters ++ [me] })
            (BitVec.ofNat 32 (gen * 2 ^ 24 + (barArr w + 1) * 2 ^ 16 + barExp w)))
          { c.f with pc := c.f.pc + 4, pend := RegSet.none, wait := .bar x gen } (noResult c)) ∧
    (Stands s c (.barw sw d a i) (sa.or (RegSet.ss d.toNat 1)) RegSet.none 0 → c.b.bar? x = some y →
      resultsOut s c.key c.who c.f = false → go = { c.f with pc := c.f.pc + 4, pend := RegSet.none } →
      ∃ t, exec (.barw sw d a i) s = .next t ∧
        if gen = n % 256 then
          RanOn s t c (bars fun z => { z with waiters := z.waiters ++ [me] }) { go with wait := .bar x gen } (noResult c)
        else RanOn s t c c.b { go with wait := .run } (noResult c))) ∧
  (∀ (sw : BitVec 1) (a : BitVec 7) (i : BitVec 10) (s : State) (c : Ctx),
    let x := ((c.p.getS a.toNat).setWidth 64 + i.signExtend 64).toNat
    let w := memWord c.b.scr x
    let gen := (barGen w + 1) % 256
    x % 4 = 0 → x + 4 ≤ c.b.scrSize → Stands s c (.bar sw a i) (RegSet.ss a.toNat 1) RegSet.none 0 →
    (c.b.bar? x = none → Raises s c (.bar sw a i) (flt cBARCLOB)) ∧
    (∀ y, c.b.bar? x = some y → c.p.frags = [c.f] → c.issues → c.f.lanes = c.p.live → c.f.lanes ≠ 0 → c.p.arrive = none →
      streamEmpty s c.key c.who c.f.lanes (fun _ => true) = true → resultsOut s c.key c.who c.f = false →
      y.arrived.contains c.who = false → barArr w + 1 = barExp w → (∀ n, c.who = .warp n → n < 64) → c.b.cslrNew = none → cslrWave c.b.cslr = 0 →
      ∃ t b, exec (.bar sw a i) s = .next t ∧ t.block? c.key = some b ∧ t.ms = s.ms ∧ b.cslrNew = none ∧
        memWord b.scr x = BitVec.ofNat 32 (gen * 2 ^ 24 + barExp w) ∧ b.waves = c.b.waves ∧
        (∀ j, (j < x ∨ x + 4 ≤ j) → memGet b.scr j = memGet c.b.scr j) ∧
        (∃ p, b.party? c.who = some p ∧ noResult c p ∧
          p.frags = [{ c.f with pc := c.f.pc + 4, pend := RegSet.none, wait := .run }]) ∧
        ∀ v ∈ y.waiters, ∀ (n : Nat) (p : Party) (j : Nat) (f : Frag), v.gen ≠ gen → v.who = .warp n → n < 64 → v.who ≠ c.who → c.b.party? v.who = some p →
          p.frags[j]? = some f → f.wait.atBarrier = true → f.lanes &&& v.lanes ≠ 0 →
          ∃ q, b.party? v.who = some q ∧ q.frags[j]? = some { f with wait := .run })) ∧
  (∀ (sw : BitVec 1) (n : BitVec 2) (s : State) (c : Ctx),
    let g := s.gang c.l c.key
    let x := g.bars.getD n.toNat { gen := 0, arrived := [], waiters := [] }
    let me : BarWaiter := { key := c.key, who := c.who, lanes := c.f.lanes, gen := x.gen }
    let v := s.setGang { g with bars := lmod g.bars n.toNat fun y =>
      { y with arrived := y.arrived ++ [(c.key, c.who)], waiters := y.waiters ++ [me] } }
    Stands s c (.gbar sw n) RegSet.none RegSet.none 0 → c.p.frags = [c.f] → c.issues → c.f.lanes = c.p.live →
    c.p.arrive = none → streamEmpty s c.key c.who c.f.lanes (fun _ => true) = true → resultsOut s c.key c.who c.f = false →
    x.arrived.contains (c.key, c.who) = false → x.arrived.length + 1 < gangNeed s c.l c.key → n.toNat < g.bars.length →
    ∃ t, exec (.gbar sw n) s = .next t ∧
      RanOn v t c c.b { c.f with pc := c.f.pc + 4, pend := RegSet.none, wait := .gbar n.toNat x.gen } (noResult c))

/-- R162, R165–R168, R273: WAITCMP, its results returned, reads its word in stream st0 and waits at the instruction for the value.
A release waits until the accesses of its streams are performed and their REDs merged and flushed, and then goes on; an acquire at
.sy waits for its reads and for the host writes ordered before what they read; an acquire below .sy goes on at once. XFENCE waits for
both sides. A fence below .sy may be passed over, for observers outside its scope (R275, log 91). At scope .sy a release with writes
before it that are not yet exported leaves a mark behind them (R276). -/
def Obligations.WaitsAndFences : Prop :=
  (∀ (sw : BitVec 1) (d a b : BitVec 7) (k : BitVec 3) (s : State) (c : Ctx) (pa : Option Nat),
    let va := c.p.getSD a.toNat
    let w : CondWait := { cond := k.toNat, d := d.toNat, b := c.p.getS b.toNat, va := va, gap := 0 }
    let v := withAccesses s [accessOf s c c.f.lanes 0 .global va pa (.waitRead w)]
    Stands s c (.waitcmp sw d a b k) ((RegSet.ss a.toNat 2).or (RegSet.ss b.toNat 1)) (RegSet.ss d.toNat 1) 0 →
    resultsOut s c.key c.who c.f = false → Passes s c .global va 4 true false false pa →
    ∃ t, exec (.waitcmp sw d a b k) s = .next t ∧ RanOn v t c c.b { c.f with wait := .condRead w } (noResult c)) ∧
  (∀ (sw : BitVec 1) (k : BitVec 2) (z : BitVec 3) (l : BitVec 1) (e : BitVec 4) (x y : BitVec 5) (s : State) (c : Ctx),
    let st (n : Nat) : Bool := l == 1 || n == e.toNat
    let fence := Instr.fence sw k z l e
    let both := Instr.xfence sw z x y
    let side (n : Nat) : Bool :=
      if n < 16 then streamsDone c s (fun m => m == n)
      else if n = 21 then !(s.ms.redm.any fun r => r.key = c.key && r.who = c.who && c.f.lanes.getLsbD r.lane)
      else !(s.ms.paths.any fun w => w.path = [Path.cp, .gt, .sl, .mx, .cl].getD (n - 16) .mr && w.key = c.key &&
        observedWrite c.p c.f.lanes w)
    let rel : Bool := decide (2 ≤ k.toNat)
    let acq : Bool := decide (z = 4 ∧ k ≠ 2)
    let done : Bool := (!rel || streamsDone c s st) && (!acq || acquireDone c s st)
    let passed : Prop := s.late = true ∧ z ≠ 4
    let paths := [x.toNat, y.toNat].filterMap pathOf
    let two (n : Nat) : Bool := n == x.toNat || n == y.toNat
    let mark (streams : BitVec 16) (each : Bool) (ps : List Path) : SyMark :=
      { serial := s.ms.serial, key := c.key, who := c.who, lanes := c.f.lanes, streams := streams, each := each, paths := ps,
        obs := (c.p.obs.filter fun o => (o.lanes &&& c.f.lanes) != 0).map fun o => o.op }
    let covers (m : SyMark) : Prop := ∃ w, .write w ∈ s.ms.exports ∧ m.first w = true
    let marked (m : SyMark) : State := (s.modMs fun ms => { ms with exports := ms.exports ++ [.mark m], serial := ms.serial + 1 })
    let onward (i : Instr) (v : State) : Prop :=
      ∃ t, exec i s = .next t ∧ RanOn v t c c.b (c.behind v sw RegSet.none) (noResult c)
    (Stands s c fence RegSet.none RegSet.none 0 →
      (k = 1 → z ≠ 4 → onward fence s) ∧
      ((done = true ∨ passed) → ¬(rel = true ∧ z = 4 ∧ covers (mark (streamBits st) true [])) → onward fence s) ∧
      (done = true → rel = true → z = 4 → covers (mark (streamBits st) true []) → onward fence (marked (mark (streamBits st) true []))) ∧
      (done = false → ¬passed → Holds s c fence (.fence (if rel then streamBits st else 0) (if acq then streamBits st else 0) [] []))) ∧
    (Stands s c both RegSet.none RegSet.none 0 →
      ((side x.toNat = true ∧ side y.toNat = true ∨ passed) → ¬(z = 4 ∧ covers (mark (streamBits two) false paths)) → onward both s) ∧
      (side x.toNat = true → side y.toNat = true → z = 4 → covers (mark (streamBits two) false paths) →
        onward both (marked (mark (streamBits two) false paths))) ∧
      (side x.toNat = false ∨ side y.toNat = false → ¬passed → Holds s c both (.fence (streamBits two) 0 paths [])))) ∧
  (∀ (st : Nat → Bool) (n : Nat), n < 16 → (streamBits st).getLsbD n = st n)

/-! ## The matrix unit -/

/-- R171–R173, R175: TCFG writes the record of an EMPTY tile and clears its count; TREL empties a FULL tile, marks a BUSY one,
does nothing to an EMPTY one; both raise TILESTATE in the other states. A TFILL whose writers fit writes its words, lanes
ascending, counts them, and makes the tile FULL at FILLW and FILLING before; one that would pass FILLW writes nothing, and one that finds
the tile FULL or BUSY waits. That TREL clears the count too is log 40's, since R261 reads it; that the words of a copy's row under way
count at the tile from the row's start is log 98's. -/
def Obligations.TilesAreFilledAndReleased : Prop :=
  (∀ (sw : BitVec 1) (n : BitVec 3) (a : BitVec 7) (s : State) (c : Ctx),
    let x := c.b.tiles.getD n.toNat Tile.start
    let w (k : Nat) : Word := c.p.getS (a.toNat + k)
    let cfg := Instr.tcfg sw n a
    let rel := Instr.trel sw n
    let goes (f : Tile → Tile) : Block := { c.b with tiles := lmod c.b.tiles n.toNat f }
    (Stands s c cfg (RegSet.ss a.toNat 4) RegSet.none 0 → x.st = .empty → shapeOk (w 0) (w 1) (w 3) = true →
      ∃ t, exec cfg s = .next t ∧
        RanOn s t c (goes fun y => { y with w0 := w 0, w1 := w 1, w2 := w 2, w3 := w 3, count := 0 }) (c.behind s sw RegSet.none)
          (noResult c)) ∧
    (Stands s c cfg (RegSet.ss a.toNat 4) RegSet.none 0 → x.st ≠ .empty → Raises s c cfg (flt cTILESTATE)) ∧
    (Stands s c cfg (RegSet.ss a.toNat 4) RegSet.none 0 → x.st = .empty → shapeOk (w 0) (w 1) (w 3) = false →
      Raises s c cfg (flt cTILESHAPE)) ∧
    (Stands s c rel RegSet.none RegSet.none 0 → x.st = .empty →
      ∃ t, exec rel s = .next t ∧ RanOn s t c (goes fun _ => x) (c.behind s sw RegSet.none) (noResult c)) ∧
    (Stands s c rel RegSet.none RegSet.none 0 → x.st = .full →
      ∃ t, exec rel s = .next t ∧
        RanOn s t c (goes fun _ => { x with st := .empty, count := 0 }) (c.behind s sw RegSet.none) (noResult c)) ∧
    (Stands s c rel RegSet.none RegSet.none 0 → x.st = .busy →
      ∃ t, exec rel s = .next t ∧ RanOn s t c (goes fun _ => { x with rel := true }) (c.behind s sw RegSet.none) (noResult c)) ∧
    (Stands s c rel RegSet.none RegSet.none 0 → x.st = .filling ∨ x.st = .loading → Raises s c rel (flt cTILESTATE))) ∧
  (∀ (sw : BitVec 1) (g : BitVec 2) (k : BitVec 3) (a b : BitVec 6) (u : BitVec 1) (w : BitVec 2) (s : State) (c : Ctx),
    let n := 2 ^ w.toNat
    let i := Instr.tfill sw g k a b u w
    let m := c.effLanes g.toNat
    let ls := laneList m
    let at_ (L : Nat) : Nat := (c.src b u L).toNat
    let x := c.b.tiles.getD k.toNat Tile.start
    let bytes (L : Nat) : List Byte := (List.range n).flatMap fun j => wordBytes (c.p.getV (a.toNat + j) L)
    let count := x.count + n * ls.length
    let rd := (RegSet.vs a.toNat n).or (if u = 1 then RegSet.ss b.toNat 1 else RegSet.vs b.toNat 1)
    Stands s c i rd RegSet.none g.toNat → c.b.mcc.isSome = true → m ≠ 0 → k.toNat < c.b.tiles.length →
    (x.st = .empty ∨ x.st = .filling) → (∀ L ∈ ls, at_ L % n = 0 ∧ at_ L + n ≤ 4096) → x.pois = [] →
    (count + tileComing c.b k.toNat ≤ x.w3.toNat % 8192 →
      ∃ t, exec i s = .next t ∧
        RanOn s t c { c.b with tiles := lmod c.b.tiles k.toNat fun y =>
          { y with data := ls.foldl (fun d L => memWrite d (4 * at_ L) (bytes L)) x.data, count := count,
                   st := if count = x.w3.toNat % 8192 then .full else .filling, pois := [] } }
          (c.behind s sw RegSet.none) (noResult c)) ∧
    (x.w3.toNat % 8192 < count + tileComing c.b k.toNat →
      ∃ t b, exec i s = .next t ∧ t.block? c.key = some b ∧ b.tiles = c.b.tiles)) ∧
  (∀ (sw : BitVec 1) (g : BitVec 2) (k : BitVec 3) (a b : BitVec 6) (u : BitVec 1) (w : BitVec 2) (s : State) (c : Ctx),
    let n := 2 ^ w.toNat
    let i := Instr.tfill sw g k a b u w
    let x := c.b.tiles.getD k.toNat Tile.start
    let rd := (RegSet.vs a.toNat n).or (if u = 1 then RegSet.ss b.toNat 1 else RegSet.vs b.toNat 1)
    Stands s c i rd RegSet.none g.toNat → c.b.mcc.isSome = true → c.effLanes g.toNat ≠ 0 → (x.st = .full ∨ x.st = .busy) →
    (∀ L, L < 64 → (c.effLanes g.toNat).getLsbD L = true → (c.src b u L).toNat % n = 0 ∧ (c.src b u L).toNat + n ≤ 4096) →
    ∃ t p, exec i s = .next t ∧ t.outside = s.outside ∧ t.clusters = s.clusters ∧ t.party? c.key c.who = some p ∧ noResult c p ∧
      p.frags = lmod c.p.frags c.i (fun _ => { c.f with wait := .tile k.toNat }))

/-- R176, R177, R178, R189–R191, R179: AALLOC holds the accumulator named, or the lowest free one, at +0 and writes its number;
AFREE frees one whose count is 0; an MRED that still has to read it reads what it held (log 95). A held aN raises TILESTATE before the limit ACC raises ACCOVER. AZERO, ASCALE and MRED enter the
array behind the work already there; MSYNC goes on when none is left and else holds the MCC; an accumulator that is not held
raises TILESTATE. An ADRAIN of an accumulator with nothing outstanding reads elements E to E + n − 1 of it in every lane that
takes effect; before that it waits. -/
def Obligations.AccumulatorsAreHeldAndDrained : Prop :=
  (∀ (sw : BitVec 1) (d n a : BitVec 7) (s : State) (c : Ctx) (k : Nat),
    let named := Instr.aallocN sw d n
    let lowest := Instr.aalloc sw d
    let free := Instr.afree sw a
    let sd := RegSet.ss d.toNat 1
    let zero : Accum := { data := [], pois := [] }
    c.b.mcc.isSome = true →
    (Stands s c named RegSet.none sd 0 → c.b.held n.toNat = false → c.b.accs.length < c.l.lr.acc →
      ∃ t, exec named s = .next t ∧
        RanOn s t c { c.b with accs := tabSet c.b.accs n.toNat zero } (c.behind s sw sd)
          (uniformResult c d.toNat [n.setWidth 32])) ∧
    (Stands s c named RegSet.none sd 0 → c.b.held n.toNat = true → Raises s c named (flt cTILESTATE)) ∧
    (Stands s c named RegSet.none sd 0 → c.b.held n.toNat = false → c.l.lr.acc ≤ c.b.accs.length →
      Raises s c named (flt cACCOVER)) ∧
    (Stands s c lowest RegSet.none sd 0 → c.b.accs.length < c.l.lr.acc → k < 128 → c.b.held k = false →
      (∀ j, j < k → c.b.held j = true) →
      ∃ t, exec lowest s = .next t ∧
        RanOn s t c { c.b with accs := tabSet c.b.accs k zero } (c.behind s sw sd) (uniformResult c d.toNat [BitVec.ofNat 32 k])) ∧
    (Stands s c lowest RegSet.none sd 0 → c.l.lr.acc ≤ c.b.accs.length → Raises s c lowest (flt cACCOVER)) ∧
    (Stands s c free (RegSet.ss a.toNat 1) RegSet.none 0 → c.p.getS a.toNat = BitVec.ofNat 32 k → k < 128 → c.b.held k = true →
      c.b.outstanding k = false →
      ∃ t, exec free s = .next t ∧
        RanOn s t c { c.b with
            accs := tabDel c.b.accs k,
            flights := c.b.flights.map fun x => match x with
              | .reduce rows op e a => if a = k then .reduced rows e (mredVals (c.b.acc k) rows op) else x
              | _ => x }
          (c.behind s sw RegSet.none) (noResult c))) ∧
  (∀ (sw : BitVec 1) (d a o : BitVec 7) (k : BitVec 1) (s : State) (c : Ctx),
    let fly (x : Flight) : Block := { c.b with flights := c.b.flights ++ [x] }
    let scale := Instr.ascale sw d a
    let red := Instr.mred sw d a o k
    (Stands s c (.azero sw d) RegSet.none RegSet.none 0 → c.b.held d.toNat = true →
      ∃ t, exec (.azero sw d) s = .next t ∧ RanOn s t c (fly (.zero d.toNat)) (c.behind s sw RegSet.none) (noResult c)) ∧
    (Stands s c (.azero sw d) RegSet.none RegSet.none 0 → c.b.held d.toNat = false →
      Raises s c (.azero sw d) (flt cTILESTATE)) ∧
    (Stands s c scale (RegSet.ss a.toNat 1) RegSet.none 0 → c.b.held d.toNat = true → (c.b.acc d.toNat).pois = [] →
      ∃ t, exec scale s = .next t ∧
        RanOn s t c (fly (.scale d.toNat (c.p.getS a.toNat))) (c.behind s sw RegSet.none) (noResult c)) ∧
    (Stands s c red RegSet.none RegSet.none 0 → c.b.held d.toNat = true → c.b.held a.toNat = true →
      (c.b.acc a.toNat).pois = [] →
      ∃ t, exec red s = .next t ∧
        RanOn s t c (fly (.reduce (k == 0) o.toNat d.toNat a.toNat)) (c.behind s sw RegSet.none) (noResult c)) ∧
    (Stands s c (.msync sw) RegSet.none RegSet.none 0 → c.b.flights = [] →
      ∃ t, exec (.msync sw) s = .next t ∧ RanOn s t c c.b (c.behind s sw RegSet.none) (noResult c)) ∧
    (Stands s c (.msync sw) RegSet.none RegSet.none 0 → c.b.flights ≠ [] → Holds s c (.msync sw) .array)) ∧
  (∀ (sw : BitVec 1) (g : BitVec 2) (d a b : BitVec 6) (w : BitVec 2) (s : State) (c : Ctx) (k : Nat),
    let n := 2 ^ w.toNat
    let i := Instr.adrain sw g d a b w
    let m := c.effLanes g.toNat
    let e (L : Nat) : Nat := (c.p.getV a.toNat L).toNat
    let wr := RegSet.vs d.toNat n
    Stands s c i ((RegSet.vs a.toNat 1).or (RegSet.ss b.toNat 1)) wr g.toNat → c.b.mcc.isSome = true →
    c.p.getS b.toNat = BitVec.ofNat 32 k → k < 128 → c.b.held k = true →
    (c.b.outstanding k = false → (∀ L, m.getLsbD L = true → e L % n = 0 ∧ e L + n ≤ 4096) → (c.b.acc k).pois = [] →
      ∃ t, exec i s = .next t ∧ RanOn s t c c.b (c.behind s sw wr) (fun p => p.s = c.p.s ∧ p.p = c.p.p ∧
        ∀ r L, r < 64 → L < 64 → p.getV r L =
          if m.getLsbD L = true ∧ d.toNat ≤ r ∧ r < d.toNat + n then memWord (c.b.acc k).data (4 * (e L + (r - d.toNat)))
          else c.p.getV r L)) ∧
    (c.b.outstanding k = true →
      ∃ t p, exec i s = .next t ∧ t.party? c.key c.who = some p ∧ p.v = c.p.v ∧
        p.frags = lmod c.p.frags c.i (fun _ => { c.f with wait := .drain k })))

/-- R37–R39, R173, R180, R174, R183: A fresh TLD makes an EMPTY tile LOADING, a fresh TST becomes a reader of a FULL one, and the
MCC waits at the macro, PRG at row 0, for the charge of the first row. A fresh MMA or MMAQ on a held accumulator and two complete
tiles becomes a reader of both, sets the releases it asks for, and waits, PRG at group 0, for the charge of its first group
(R187). -/
def Obligations.TileMacrosAndProducts : Prop :=
  (∀ (sw : BitVec 1) (n : BitVec 3) (a : BitVec 7) (s : State) (c : Ctx),
    let x := c.b.tiles.getD n.toNat Tile.start
    let w := (List.range 6).map fun i => c.p.getS (a.toNat + i)
    let row := (c.p.getS (a.toNat + 3)).toNat
    let m (cls : Nat) : MacroRun :=
      { cls := cls, op := 0, d := n.toNat, a := a.toNat, words := w, mask := 0, redo := 0, swm := sw == 1 }
    let at_ (cls : Nat) : Frag :=
      { c.f with prg := mkPrg cls 0 0, prgpc := c.f.pc.setWidth 64, prgx := 0, wait := .charge (m cls) }
    let v := withCharge s c.cl (.mcc c.key) (4 * ((row + 63) / 64))
    let reading : Block :=
      { c.b with tiles := lmod c.b.tiles n.toNat fun y => { y with st := .busy, readers := y.readers + 1 },
                 mmac := [{ handler := c.f.handler, tiles := [n.toNat] }] }
    let ok := rowsOk w = true ∧ unwatched s c ∧ c.b.mmac = [] ∧ c.b.halted = false ∧ prgV c.f.prg = false
    (Stands s c (.tld sw n a) (RegSet.ss a.toNat 6) RegSet.none 0 → ok → x.st = .empty →
      ∃ t, exec (.tld sw n a) s = .next t ∧
        RanOn v t c { c.b with tiles := lmod c.b.tiles n.toNat fun y => { y with st := .loading } } (at_ 8) (noResult c)) ∧
    (Stands s c (.tst sw n a) (RegSet.ss a.toNat 6) RegSet.none 0 → ok → x.st = .full →
      ∃ t, exec (.tst sw n a) s = .next t ∧
        RanOn v t c reading (at_ 9) (noResult c)) ∧
    (Stands s c (.tld sw n a) (RegSet.ss a.toNat 6) RegSet.none 0 → unwatched s c → rowsOk w = false →
      Raises s c (.tld sw n a) (flt cTILESHAPE))) ∧
  (∀ (sw : BitVec 1) (n : BitVec 7) (a b q : BitVec 3) (z na ra rb dup : BitVec 1) (s : State) (c : Ctx) (i : Instr) (cls : Nat)
      (slot : BitVec 3),
    (i = .mma sw n a b z na ra rb dup ∧ cls = 1 ∧ slot = 0) ∨ (i = .mmaq sw n a b q z na ra rb dup ∧ cls = 2 ∧ slot = q) →
    let ta := c.b.tiles.getD a.toNat Tile.start
    let tb := c.b.tiles.getD b.toNat Tile.start
    let m : MacroRun :=
      { cls := cls, op := 0, d := 0, a := n.toNat,
        words := [a.setWidth 32, b.setWidth 32, slot.setWidth 32, z.setWidth 32, na.setWidth 32, dup.setWidth 32],
        mask := 0, redo := 0, swm := sw == 1 }
    let area := shRows ta.w0 * shRows tb.w0
    let cycles := max 1 (if shElem ta.w0 = 7 then (area + 127) / 128 else (area + 255) / 256)
    let rd (r : Bool) (y : Tile) : Tile := { y with st := .busy, readers := y.readers + 1, rel := y.rel || r }
    let x : Block := if a = b then c.b.modTile a.toNat (rd (ra == 1 || rb == 1))
      else (c.b.modTile a.toNat (rd (ra == 1))).modTile b.toNat (rd (rb == 1))
    Stands s c i RegSet.none RegSet.none 0 → c.b.held n.toNat = true → ta.rel = false → tb.rel = false →
    mmaShapes ta tb (if cls = 2 then some (slotOf c.l q.toNat) else none) = true →
    (ta.st = .full ∨ ta.st = .busy) → (tb.st = .full ∨ tb.st = .busy) → prgV c.f.prg = false → c.b.mmac = [] → c.b.halted = false →
    (s.cluster c.cl).arrayAt ≤ (s.cluster c.cl).cyc → a.toNat < c.b.tiles.length → b.toNat < c.b.tiles.length →
    ∃ t, exec i s = .next t ∧
      RanOn (withCharge s c.cl (.mcc c.key) (256 * (if dup = 1 then 2 * cycles else cycles))) t c
        { x with mmac := [{ handler := c.f.handler, tiles := [a.toNat, b.toNat] }] }
        { c.f with prg := mkPrg cls 0 0, prgpc := c.f.pc.setWidth 64, prgx := 0, wait := .charge m } (noResult c))

/-! ## Engines -/

/-- R195, R198, R199, R205, R206, R221, R200–R202, R209, R210: A CPA or CLV whose block is valid takes the next sequence number of
its channel, is queued behind the cluster's operations of the channel, writes its ticket to sD and goes on; at a full channel the
fragment waits; an invalid block raises ENGDESC and starts nothing. TKW reads its ticket once and goes on when it is complete and no
failure up to it is latched, having observed the operations up to it; a latched failure is cleared and raised, and the TKW has issued
(log 86); an incomplete ticket waits; an invalid one raises TKBAD. TKQ writes state, progress and element of the record, also of a ticket
that is DONE, and waits for nothing. CPWP writes the write pointer of its channel. That the observer of a DONE ticket observes every
operation of the channel up to it is log 32's. -/
def Obligations.EngineOperationsAndTickets : Prop :=
  (∀ (sw : BitVec 1) (d a : BitVec 7) (f : BitVec 2) (s : State) (c : Ctx) (i : Instr) (ch nth : Nat) (n base cnt : Nat)
      (mods : List Nat),
    let w := (List.range 8).map fun k => c.p.getS (a.toNat + k)
    let g := clvGroup w
    let seq := ((c.b.chan ch).isq + 1) % 2 ^ 28
    let o : EngOp :=
      { id := s.ms.serial, key := c.key, who := c.who, lanes := c.f.lanes, pc := c.f.pc, ch := ch, seq := seq, f := f.toNat,
        words := w, st := .queued, elem := 0, code := 0, errElem := 0, charged := false, waiting := false, nth := nth,
        heldSeq := none, word := 0, doom := false, bundle := false }
    let sd := RegSet.ss d.toNat 1
    let cpa := i = .cpa sw d a f ∧ ch = (c.p.getS (a.toNat + 7)).toNat % 8 ∧ nth = 0
    let clv := i = .clv sw d a f ∧ ch = 8 + (c.p.getS (a.toNat + 5)).toNat / 2 ^ 8 % 4 ∧ nth = tabGet 0 c.b.clvs g
    let ok := (cpa ∧ cpaOk c.b w f.toNat = true ∧ (f = 2 → c.b.mcc.isSome = true)) ∨
      (clv ∧ groupOf c.l g = some (n, base, cnt, mods) ∧ clvOk w f.toNat n = true ∧ c.key.blk < cnt)
    (Stands s c i (RegSet.ss a.toNat 8) sd 0 → ok → chanLoad s c.cl ch < 16 → Steady s c.cl ch → s.op? s.ms.serial = none →
      ∃ t b p, exec i s = .next t ∧ t.outside = s.bump.outside ∧ (∀ k, k ≠ c.key → t.block? k = s.block? k) ∧
        t.block? c.key = some b ∧ b.party? c.who = some p ∧ b.ops = c.b.ops ++ [o] ∧
        b.chans = lmod c.b.chans ch (fun x => { x with isq := seq }) ∧ b.scr = c.b.scr ∧ b.tiles = c.b.tiles ∧
        b.clvs = (if cpa then c.b.clvs else tabSet c.b.clvs g (nth + 1)) ∧
        (t.cluster c.cl).chq = (s.cluster c.cl).chq ++ [(ch, s.ms.serial)] ∧
        p.frags = lmod c.p.frags c.i (fun _ => c.behind s sw sd) ∧
        uniformResult c d.toNat [BitVec.ofNat 32 (ch * 2 ^ 28 + seq)] p) ∧
    (Stands s c i (RegSet.ss a.toNat 8) sd 0 → ok → 16 ≤ chanLoad s c.cl ch →
      ∃ t p, exec i s = .next t ∧ t.party? c.key c.who = some p ∧ noResult c p ∧ t.ms = s.ms ∧
        p.frags = lmod c.p.frags c.i (fun _ => { c.f with wait := .chan ch })) ∧
    (Stands s c i (RegSet.ss a.toNat 8) sd 0 → cpa → (f = 2 → c.b.mcc.isSome = true) → cpaOk c.b w f.toNat = false →
      Raises s c i (flt cENGDESC)) ∧
    (Stands s c i (RegSet.ss a.toNat 8) sd 0 → clv → groupOf c.l g = none → Raises s c i (flt cENGDESC))) ∧
  (∀ (sw : BitVec 1) (d a : BitVec 7) (n : BitVec 3) (s : State) (c : Ctx) (o : EngOp) (q : Nat),
    let t := c.p.getS a.toNat
    let read : Word := match c.f.wait with
      | .hold (.ticket x) => x
      | _ => t
    let ch := read.toNat / 2 ^ 28
    let before (x y : Nat) : Bool := decide ((x + 2 ^ 28 - y % 2 ^ 28) % 2 ^ 28 < 2 ^ 27)
    let seen (t : Word) : List Observed :=
      (c.b.ops.filter fun x => x.ch = t.toNat / 2 ^ 28 && before (t.toNat % 2 ^ 28) x.seq).map fun x =>
        { lanes := c.f.lanes, op := x.id, below := none }
    let saw (l : List Observed) : Ctx := { c with p := { c.p with obs := c.p.obs ++ l } }
    let tkw := Instr.tkw sw a
    let tkq := Instr.tkq sw d a
    let wp := c.b.chan n.toNat
    let wq := wp.wpT.toNat % 2 ^ 28
    let part : List Observed := (c.b.ops.filter fun x => x.ch = n.toNat && before wq x.seq).map fun x =>
      { lanes := c.f.lanes, op := x.id, below := if x.seq = wq then some wp.wpB else none }
    (Stands s c tkw (RegSet.ss a.toNat 1) RegSet.none 0 → resultsOut s c.key c.who c.f = false →
      (c.b.badTicket read = true → Raises s c tkw (flt cTKBAD)) ∧
      (c.b.badTicket read = false → c.b.complete read = false →
        ∃ u p, exec tkw s = .next u ∧ u.party? c.key c.who = some p ∧ noResult c p ∧ u.ms = s.ms ∧
          p.frags = lmod c.p.frags c.i (fun _ => { c.f with wait := .tkw read })) ∧
      (c.b.badTicket read = false → c.b.complete read = true →
        (∀ x, (c.b.chan ch).latch = some x → before (read.toNat % 2 ^ 28) x = false) →
        ∃ u, exec tkw s = .next u ∧
          RanOn s u (saw (seen read)) c.b { c.f with pc := c.f.pc + 4, pend := RegSet.none, wait := .run } (noResult c)) ∧
      (c.b.badTicket read = false → c.b.complete read = true → (c.b.chan ch).latch = some q → before (read.toNat % 2 ^ 28) q = true →
        (c.b.ops.filter fun x => x.ch = ch && x.seq = q) = [o] →
        ∃ l, exec tkw s = .next (account c (raiseAll c { flt o.code with elem := BitVec.ofNat 32 o.errElem }
          (({ s with pass := l } : State).modBlock c.key fun b => b.modChan ch fun x => { x with latch := none })))))
      ∧
    (Stands s c tkq (RegSet.ss a.toNat 1) (RegSet.ss d.toNat 3) 0 →
      (c.b.badTicket t = true → Raises s c tkq (flt cTKBAD)) ∧
      (c.b.badTicket t = false → c.b.record? t = some o → o.st ≠ .done → o.code < 2 ^ 16 →
        ∃ u, exec tkq s = .next u ∧
          RanOn s u c c.b (c.behind s sw (RegSet.ss d.toNat 3)) (uniformResult c d.toNat
            [BitVec.ofNat 32 (o.code * 256 + (match o.st with
               | .done => 0
               | .queued => 1
               | .running => 2
               | .held => 3
               | .failed => 4)), BitVec.ofNat 32 o.elem, BitVec.ofNat 32 o.errElem])) ∧
      (c.b.badTicket t = false → c.b.record? t = some o → o.st = .done → o.code = 0 →
        ∃ u, exec tkq s = .next u ∧
          RanOn s u (saw (seen t)) c.b (c.behind s sw (RegSet.ss d.toNat 3)) (uniformResult c d.toNat
            [0, BitVec.ofNat 32 o.elem, BitVec.ofNat 32 o.errElem])) ∧
      (c.b.badTicket t = false → c.b.record? t = none →
        ∃ u, exec tkq s = .next u ∧
          RanOn s u (saw (seen t)) c.b (c.behind s sw (RegSet.ss d.toNat 3)) (uniformResult c d.toNat [0, 0xFFFFFFFF, 0]))) ∧
    (Stands s c (.cpwp sw d n) RegSet.none (RegSet.ss d.toNat 2) 0 →
      ∃ u, exec (.cpwp sw d n) s = .next u ∧
        RanOn s u (saw part) c.b (c.behind s sw (RegSet.ss d.toNat 2))
          (uniformResult c d.toNat [wp.wpT, BitVec.ofNat 32 wp.wpB])))

/-- R37–R39, R168, R211, R212, R213, R214, R216: A fresh GTH or SCT whose block is valid waits at the instruction, PRG at element
0, for the charge of its first element; an invalid block raises ENGDESC. A fresh SELQ or SELK on a free engine clears its four
results and ACCB, sets KREM to K or K − 1, and waits, PRG at plane 0, element 0, for its first charge; while the engine is busy
the fragment waits in line. An element of a GTH or SCT puts its one write on the `.gt` path, of what the path reads, and PRG moves on;
behind the last the macro is done, and else it waits for the next charge. An element of a selection adds its weight to the count when it
is a candidate of the plane; in the last plane it sets its bit in the mask, and a whole word of the mask goes on the `.sl` path. -/
def Obligations.GathersAndSelections : Prop :=
  (∀ (sw : BitVec 1) (a : BitVec 7) (s : State) (c : Ctx) (i : Instr) (cls : Nat),
    (i = .gth sw a ∧ cls = 3) ∨ (i = .sct sw a ∧ cls = 4) →
    let w := (List.range 6).map fun k => c.p.getS (a.toNat + k)
    let m : MacroRun := { cls := cls, op := s.ms.serial, d := 0, a := a.toNat, words := w, mask := 0, redo := 0, swm := sw == 1 }
    let o : Observed := { lanes := c.f.lanes, op := s.ms.serial, below := none }
    Stands s c i (RegSet.ss a.toNat 6) RegSet.none 0 → unwatched s c → prgV c.f.prg = false → c.b.halted = false →
    (gatOk c.b w = true →
      ∃ t, exec i s = .next t ∧
        RanOn (withCharge s.bump c.cl (.gather c.ref) 8) t { c with p := { c.p with obs := c.p.obs ++ [o] } } c.b
          { c.f with prg := mkPrg cls 0 0, prgpc := c.f.pc.setWidth 64, prgx := 0, wait := .charge m } (noResult c)) ∧
    (gatOk c.b w = false → Raises s c i (flt cENGDESC))) ∧
  (∀ (sw : BitVec 1) (d a : BitVec 7) (s : State) (c : Ctx) (i : Instr) (k : Nat),
    (i = .selq sw d a ∧ k = 0) ∨ (i = .selk sw d a ∧ k = 1) →
    let w := (List.range 16).map fun j => c.p.getS (a.toNat + j)
    let krem : DWord := c.p.getSD (a.toNat + 8) - BitVec.ofNat 64 k
    let cls := 5 + k
    let m (op : Nat) : MacroRun := { cls := cls, op := op, d := d.toNat, a := a.toNat, words := w, mask := 0, redo := 0, swm := sw == 1 }
    let o : Observed := { lanes := c.f.lanes, op := s.ms.serial, below := none }
    let cl := s.cluster c.cl
    let busy := s.modCluster c.cl fun x => { x with selOwner := some c.ref }
    let line := s.modCluster c.cl fun x => { x with selWait := x.selWait ++ [c.ref] }
    Stands s c i (RegSet.ss a.toNat 16) (RegSet.ss d.toNat 4) 0 → unwatched s c → prgV c.f.prg = false → c.b.halted = false →
    (selOk c.b w k d.toNat a.toNat = true → cl.selOwner = none → cl.selWait = [] →
      ∃ t, exec i s = .next t ∧
        RanOn (withCharge busy.bump c.cl (.select c.ref) 1) t { c with p := { c.p with obs := c.p.obs ++ [o] } } c.b
          { c.f with prg := mkPrg cls 0 0, prgpc := c.f.pc.setWidth 64, prgx := 0, wait := .charge (m s.ms.serial) }
          (fun p => p.v = c.p.v ∧ p.p = c.p.p ∧ ∀ r, r < 128 → p.getS r =
            if d.toNat ≤ r ∧ r < d.toNat + 4 then 0
            else if r = a.toNat + 12 then krem.setWidth 32 else if r = a.toNat + 13 then (krem >>> 32).setWidth 32
            else if r = a.toNat + 14 ∨ r = a.toNat + 15 then 0 else c.p.getS r)) ∧
    (selOk c.b w k d.toNat a.toNat = true → cl.selOwner ≠ none ∨ cl.selWait ≠ [] →
      ∃ t, exec i s = .next t ∧ RanOn line t c c.b { c.f with wait := .selection (m 0) } (noResult c)) ∧
    (selOk c.b w k d.toNat a.toNat = false → Raises s c i (flt cENGDESC))) ∧
  (∀ (s v : State) (id : Nat) (c : Ctx) (m : MacroRun) (l : Loc), RunsNext s id c m → m.cls = 3 ∨ m.cls = 4 →
    let e := prgElem c.f.prg
    let w := m.words
    let es := gatES w
    let dense := (w.getD 3 0).toNat + e * es
    let index := (w.getD 2 0).toNat + 4 * e
    let at_ := gatAddr w (pathNat s .gt (.scr c.key index) 4)
    let write (loc : Loc) (data : List Byte) : PathWrite :=
      { path := .gt, op := m.op, key := c.key, who := c.who, lanes := c.f.lanes, pos := e, loc := loc, data := data,
        run := v.ms.serial }
    let behind : Frag := { c.f with prg := clearV (mkPrg m.cls 0 (e + 1)), pc := c.f.pc + 4, wait := .run }
    let goes (x : PathWrite) : Prop := ∃ u p, exec (.runElem id) s = .next u ∧ u.ms.paths = v.ms.paths ++ [x] ∧
      u.ms.mem = v.ms.mem ∧ u.party? c.key c.who = some p ∧ noResult c p ∧
      (e + 1 = gatN w → u.clusters = s.clusters ∧ p.frags = lmod c.p.frags c.i (fun _ =>
        if m.swm then (if resultsOut s c.key c.who behind then { behind with wait := .switch } else { behind with pend := RegSet.none })
        else behind)) ∧
      (e + 1 ≠ gatN w → u.clusters = (withCharge s c.cl (.gather c.ref) 8).clusters ∧ p.frags = lmod c.p.frags c.i (fun _ =>
        { c.f with prg := mkPrg m.cls 0 (e + 1), wait := .charge m }))
    scrPoisoned c.b index 4 = false →
    (m.cls = 3 → elemRead c s (gatSpace w) at_ es = (v, .ok l) → c.b.overlapsBar dense es = false →
      goes (write (.scr c.key dense) (pathRead v .gt l es))) ∧
    (m.cls = 4 → elemWrite c s (gatSpace w) at_ es = (v, .ok l) → (gatSpace w = .scratch → c.b.overlapsBar at_.toNat es = false) →
      scrPoisoned c.b dense es = false → goes (write l (pathRead v .gt (.scr c.key dense) es)))) ∧
  (∀ (s v v2 : State) (id : Nat) (c : Ctx) (m : MacroRun) (l : Loc) (cand : Bool) (img wt : Nat),
    RunsNext s id c m → m.cls = 5 ∨ m.cls = 6 →
    let e := prgElem c.f.prg
    let p := prgPhase c.f.prg
    let w := m.words
    let sd := (c.p.getS m.d).toNat % 2 ^ selW w
    let bit := selW w - 1 - p
    let want := m.cls - 5
    let final := p = selW w
    let chosen : Bool := cand && (if want = 0 then img == sd else decide (sd ≤ img))
    let mask := if final ∧ chosen = true then m.mask ||| (1#32 <<< (e % 32)) else m.mask
    let counts : Bool :=
      cand && (if final then img == sd else img / 2 ^ (bit + 1) == sd / 2 ^ (bit + 1) && img / 2 ^ bit % 2 == want)
    let sum := if counts then c.f.prgx + BitVec.ofNat 64 wt else c.f.prgx
    let whole := final ∧ e % 32 = 31
    let word : PathWrite :=
      { path := .sl, op := m.op, key := c.key, who := c.who, lanes := c.f.lanes, pos := e, loc := l, data := wordBytes mask,
        run := v2.ms.serial }
    p ≤ selW w → (final → e ≤ m.redo) → e + 1 < selN w → selRead c w e s = (v, .ok (cand, img, wt)) →
    (whole → elemWrite c v (selSpace w 10) (pairAt w 4 + BitVec.ofNat 64 (e / 32 * 4)) 4 = (v2, .ok l)) → (¬whole → v2 = v) →
    ∃ u q, exec (.runElem id) s = .next u ∧ u.ms.mem = v2.ms.mem ∧ u.clusters = (withCharge s c.cl (.select c.ref) 1).clusters ∧
      u.ms.paths = v2.ms.paths ++ (if whole then [word] else []) ∧
      u.party? c.key c.who = some q ∧ uniformResult c (m.d + 1) [sat32 sum.toNat] q ∧
      q.frags = lmod c.p.frags c.i (fun _ => { c.f with
        prgx := sum, prg := mkPrg m.cls p (e + 1), wait := .charge { m with mask := if whole then 0 else mask, redo := e + 1 } }))

/-! ## Variant tables -/

/-- R235, R243: a VCALL or VFORCE with a free call record and no record on top of its lanes, and a VTAG, read the table's header
as a 64-byte access of st0 and wait at the instruction; the lowest free record is reserved, with the limits unlimited and the
meters of the cluster at issue. -/
def Obligations.TableInstructionsReadTheHeader : Prop :=
  ∀ (sw : BitVec 1) (d a b : BitVec 7) (s : State) (c : Ctx) (i : Instr) (form n : Nat) (rd : RegSet) (pa : Option Nat),
    (i = .vcall sw d a b ∧ form = 0 ∧ rd = RegSet.ss a.toNat 2) ∨
      (i = .vforce sw d a b ∧ form = 1 ∧ rd = (RegSet.ss a.toNat 2).or (RegSet.ss d.toNat 1)) ∨
      (i = .vtag sw d a b ∧ form = 2 ∧ rd = (RegSet.ss a.toNat 2).or (RegSet.ss b.toNat 1)) →
    let cl := s.cluster c.cl
    let table := c.p.getSD a.toNat
    let t : TableWait :=
      { form := form, d := d.toNat, frac := if form = 2 then 0 else if b = 0 then 16 else b.toNat,
        sel := if form = 2 then c.p.getS b.toNat else c.p.getS d.toNat, table := table, stage := 0, hdr := [], ents := [],
        cr := if form = 2 then 0 else n, cyc0 := cl.cyc / 10, em0 := cl.em, is0 := cl.is + c.slots, elT := 0xFFFFFFFF,
        elE := 0xFFFFFFFF, elQ := 0xFFFF, swm := sw == 1 }
    let v := withAccesses s [accessOf s c c.f.lanes 0 .global table pa .tableRead]
    Stands s c i rd (RegSet.ss d.toNat (if form = 2 then 4 else 1)) 0 →
    (table.toNat % 64 ≠ 0 → (form = 2 ∨ (n < 8 ∧ (∀ r ∈ c.p.calls, r.id ≠ n) ∧ n ∉ c.p.reserved ∧ c.p.topsAgree c.f.lanes = true)) →
      Raises s c i (flt cVTABLE)) ∧
    (Passes s c .global table 64 true false false pa →
      (form = 2 ∨ (n < 8 ∧ (∀ r ∈ c.p.calls, r.id ≠ n) ∧ n ∉ c.p.reserved ∧
        (∀ k, k < n → (∃ r ∈ c.p.calls, r.id = k) ∨ k ∈ c.p.reserved) ∧
        (∀ L, L < 64 → c.f.lanes.getLsbD L = true → vget c.p.callIds L [] = []) ∧ c.f.lanes ≠ 0)) →
      ∃ u, exec i s = .next u ∧
        RanOn v u { c with p := if form = 2 then c.p else { c.p with reserved := c.p.reserved ++ [n] } } c.b
          { c.f with wait := .table t } (noResult c)) ∧
    (form ≠ 2 → (∀ k, k < 8 → (∃ r ∈ c.p.calls, r.id = k) ∨ k ∈ c.p.reserved) → Raises s c i (flt cVDEPTH))

/-- R237: Select takes an entry that fits every limit and whose figure on the optimised axis no fitting entry undercuts, the
lowest such index; a table without FALLBACK yields none exactly when no entry fits. -/
def Obligations.SelectTakesTheLeastFittingEntry : Prop :=
  ∀ (h : List Byte) (ents : List (List Byte × DWord)) (lim : Limits) (opt : Nat),
    let j (i : Nat) := judge h (ents.getD i ([], 0)).1 (ents.getD i ([], 0)).2.toNat
    let axis (i : Nat) : Nat := if opt = 0 then (j i).1 else if opt = 1 then (j i).2.1 else (j i).2.2.1
    let fits (i : Nat) : Prop := i < tabCount h ∧ (j i).1 ≤ lim.t.toNat ∧ (j i).2.1 ≤ lim.e.toNat ∧ (j i).2.2.1 ≤ lim.q.toNat
    ((∃ i, fits i) → ∃ i f, select h ents lim opt = some (i, f) ∧ fits i ∧ f = (if (j i).2.2.2 then 256 else 0) ∧
      ∀ k, fits k → axis i < axis k ∨ (axis i = axis k ∧ i ≤ k)) ∧
    (tabFlag h 1 = false → (¬ ∃ i, fits i) → select h ents lim opt = none)

/-- R238–R240: VRET by exactly the lanes that hold the record on top pops it, restores the limits, posts the update with the time
and energy spent and returns; a fragment without a record raises VDEPTH, and a sector of the table that cannot be read ECCU, precisely
(R292). That the energy counts the VRET's own issue is log 50's, and that the table is looked at as the VRET issues log 101's. -/
def Obligations.VretReturnsAndPostsItsUpdate : Prop :=
  ∀ (sw : BitVec 1) (a : BitVec 7) (s : State) (c : Ctx) (i : Instr) (rd : RegSet) (q : Option (BitVec 16)) (r : CallRec),
    (i = .vret sw ∧ rd = RegSet.none ∧ q = none) ∨
      (i = .vretQ sw a ∧ rd = RegSet.ss a.toNat 1 ∧ q = some ((c.p.getS a.toNat).setWidth 16)) →
    let cl := s.cluster c.cl
    let t := sat32 (r.tacc + (cl.cyc / 10 - r.cyc0))
    let e := sat32 (r.eacc + (cl.em - r.em0).toNat * (r.fs + c.slots) / max 1 (cl.is + c.slots - r.is0))
    let v := withAccesses s [accessOf s c c.f.lanes 0 .global r.table none (.update r.idx t e q)]
    let back : Party :=
      { c.p with limT := r.savT, limE := r.savE, limQ := r.savQ, calls := c.p.calls.filter fun x => x.id != r.id,
                 callIds := Vector.ofFn fun L : Fin 64 =>
                   if c.f.lanes.getLsbD L then (vget c.p.callIds L []).tail else vget c.p.callIds L [] }
    Stands s c i rd RegSet.none 0 → c.f.lanes ≠ 0 → c.f.lanes &&& ~~~c.p.live = 0 →
    ((∀ L, L < 64 → c.f.lanes.getLsbD L = true → vget c.p.callIds L [] = []) → Raises s c i (flt cVDEPTH)) ∧
    (c.p.calls.find? (fun x => x.id = r.id) = some r → unlogged s c →
      (∀ L, L < 64 → c.p.live.getLsbD L = true → (c.f.lanes.getLsbD L = true ↔ (vget c.p.callIds L []).head? = some r.id)) →
      let peek := lampStep c.cl c.key.part c.l.lr.asid c.key.grid r.table r.idx t e q s
      ((∀ w x, peek = (w, .stop x) → x.code ≠ cECCU) →
        ∃ u, exec i s = .next u ∧
          RanOn v u { c with p := back } c.b { c.behind v sw RegSet.none with pc := r.ret } (noResult c)) ∧
      (∀ w x, peek = (w, .stop x) → x.code = cECCU → ∃ l, exec i s = .next (raiseAll c x { w with pass := l })))

/-- R232, R244: VLIM sets the optimised axis and the two other limits; VMETER reads time, energy and limits of the record at a
depth of the stack of the lowest lane, and raises VDEPTH where there is none. That the energy counts VMETER's own issue is log 50's. -/
def Obligations.LimitsAndMeters : Prop :=
  ∀ (sw : BitVec 1) (d a b : BitVec 7) (x : BitVec 2) (s : State) (c : Ctx) (r : CallRec) (n : Nat),
    let u := c.p.getS a.toNat
    let w := c.p.getS b.toNat
    let lim := Instr.vlim sw a b x
    let lims (t e : Word) (q : BitVec 16) : Ctx := { c with p := { c.p with opt := x.toNat, limT := t, limE := e, limQ := q } }
    let meter := Instr.vmeter sw d a
    let cl := s.cluster c.cl
    let st := vget c.p.callIds (lowLane c.f.lanes) []
    (Stands s c lim ((RegSet.ss a.toNat 1).or (RegSet.ss b.toNat 1)) RegSet.none 0 →
      ∃ t, exec lim s = .next t ∧
        RanOn s t (if x = 0 then lims 0xFFFFFFFF u (w.setWidth 16) else if x = 1 then lims u 0xFFFFFFFF (w.setWidth 16)
          else lims u w 0xFFFF) c.b (c.behind s sw RegSet.none) (noResult c)) ∧
    (Stands s c meter (RegSet.ss a.toNat 1) (RegSet.ss d.toNat 5) 0 → st[u.toNat]? = some n →
      c.p.calls.find? (fun y => y.id = n) = some r →
      ∃ t, exec meter s = .next t ∧
        RanOn s t c c.b (c.behind s sw (RegSet.ss d.toNat 5)) (uniformResult c d.toNat
          [sat32 (r.tacc + (cl.cyc / 10 - r.cyc0)),
           sat32 (r.eacc + (cl.em - r.em0).toNat * (r.fs + c.slots) / max 1 (cl.is + c.slots - r.is0)), r.elT, r.elE,
           BitVec.ofNat 32 (r.elQ.toNat + r.idx * 2 ^ 16 + r.bound.toNat * 2 ^ 19 + r.fallb.toNat * 2 ^ 20 +
             r.force.toNat * 2 ^ 21)])) ∧
    (Stands s c meter (RegSet.ss a.toNat 1) (RegSet.ss d.toNat 5) 0 → st[u.toNat]? = none → Raises s c meter (flt cVDEPTH))

/-! ## Traps, faults of words, system words -/

/-- R249–R251, R255, R256, R252, R253: TRAP, and BRK with debug not armed, enter the handler in one step: the fragment's state
goes to the record, s124–s127 receive the trap state, and the fragment stands at the handler's entry with an empty pending set.
ERET in the handler of a live record, its results returned and its lanes those of the record, restores progress and pending set,
returns to ret or nxt and frees the record; without a record it raises ILLOP. A TRAP inside the handler is a double fault: the
fragment is parked for the host cores, and the record that goes to the fault queue has the double-fault flag and both codes. -/
def Obligations.TrapsEnterAndReturn : Prop :=
  (∀ (sw : BitVec 1) (n : BitVec 16) (s : State) (c : Ctx) (i : Instr) (code : Nat),
    (i = .trap sw n ∧ code = 0x62) ∨ (i = .brk sw n ∧ code = 0x60 ∧ dbgArm s c.key.part = false) →
    let r : TrapRec :=
      { lanes := c.f.lanes, pend := c.f.pend, prg := c.f.prg, prgpc := c.f.prgpc, prgx := c.f.prgx, ret := c.f.pc + 4,
        nxt := c.f.pc + 4, code := code }
    Stands s c i RegSet.none RegSet.none 0 → handlerOf c.l c.who ≠ 0 → c.f.handler = false → c.p.trap = none → unparked c →
    ∃ t, exec i s = .next t ∧
      RanOn s t { c with p := { c.p with trap := some r } } c.b
        { c.f with pc := BitVec.ofNat 55 (handlerOf c.l c.who), pend := RegSet.none, wait := .run, handler := true }
        (uniformResult c 124 [BitVec.ofNat 32 (n.toNat * 2 ^ 16 + code), 0, c.f.pc.setWidth 32, (c.f.pc >>> 32).setWidth 32])) ∧
  (∀ (sw r x : BitVec 1) (s : State) (c : Ctx) (t : TrapRec),
    Stands s c (.eret sw r x) RegSet.none RegSet.none 0 → resultsOut s c.key c.who c.f = false →
    (c.p.trap = some t → c.f.handler = true → c.f.lanes = t.lanes &&& ~~~c.p.exited → c.b.mmac = [] → unparked c →
      ∃ u, exec (.eret sw r x) s = .next u ∧
        RanOn s u { c with p := { c.p with trap := none } } c.b
          { c.f with pc := if x = 1 then t.nxt else t.ret, pend := t.pend,
                     prg := if r = 1 then t.prg &&& 0x7FFFFFFFFFFFFFFF else t.prg, prgpc := t.prgpc, prgx := t.prgx,
                     handler := false, wait := .run } (noResult c)) ∧
    (c.p.trap = none → Raises s c (.eret sw r x) (flt cILLOP)) ∧
    (c.p.trap = some t → c.f.lanes ≠ t.lanes &&& ~~~c.p.exited → Raises s c (.eret sw r x) (flt cILLOP))) ∧
  (∀ (sw : BitVec 1) (n : BitVec 16) (s : State) (c : Ctx) (t : TrapRec),
    Stands s c (.trap sw n) RegSet.none RegSet.none 0 → c.f.handler = true → c.p.trap = some t →
    ∃ u p k r, exec (.trap sw n) s = .next u ∧ u.party? c.key c.who = some p ∧ noResult c p ∧ p.trap = some t ∧
      p.frags = lmod c.p.frags c.i (fun _ => { c.f with wait := .parked k }) ∧ k.host = true ∧
      k.seq = some (s.part c.key.part).nextSeq ∧
      (u.part c.key.part).faults = (s.part c.key.part).faults ++ [r] ∧ r.seq = (s.part c.key.part).nextSeq ∧
      r.code = 0x62 ∧ r.code2 = t.code ∧ r.kind.getLsbD 0 = true ∧ r.pc = c.f.pc.setWidth 64)

/-- R256, R342, R343: BRK with debug armed counts as executed, freezes the cluster and reports the stop with n; the fragment stands
behind it. -/
def Obligations.BrkFreezesWhenArmed : Prop :=
  ∀ (sw : BitVec 1) (n : BitVec 16) (s : State) (c : Ctx),
    Stands s c (.brk sw n) RegSet.none RegSet.none 0 → dbgArm s c.key.part = true →
    ∃ t p r, exec (.brk sw n) s = .next t ∧ (t.cluster c.cl).frozen = true ∧ t.party? c.key c.who = some p ∧ noResult c p ∧
      p.frags = (lmod c.p.frags c.i (fun _ => c.behind s sw RegSet.none)).map Frag.stopped ∧ t.ms = s.ms ∧
      (t.part c.key.part).faults = (s.part c.key.part).faults ++ [r] ∧ r.code = 0x60 ∧
      r.ticket = BitVec.ofNat 32 (n.toNat * 65536)

/-- R23, R60, R70, R71, R248: an IADD that is no instruction for its party raises ILLOP; one that is raises REGWIN for a register
outside the window, pending registers or not, and HAZARD for a pending register. MBOX without its grant raises PRIV before
REGWIN and HAZARD are looked for. -/
def Obligations.FaultsOfAWordComeInOrder : Prop :=
  ∀ (sw : BitVec 1) (g : BitVec 2) (d a b : BitVec 6) (u : BitVec 1) (e : BitVec 7) (s : State) (c : Ctx),
    let i := Instr.iadd sw g d a b u
    let names := (l3Reads a b u).or (RegSet.vs d.toNat 1)
    let out := outsideWindow c.p names
    let hit := (names.or (RegSet.pr g.toNat)).meets c.f.pend
    ctx? s = some c →
    (c.who = .mcc → Raises s c i (flt cILLOP)) ∧
    (∀ n, c.who = .warp n → out = true → Raises s c i (flt cREGWIN)) ∧
    (∀ n, c.who = .warp n → out = false → hit = true → Raises s c i (flt cHAZARD)) ∧
    (∀ n, c.who = .warp n → (Instr.mbox sw e).wf = true → c.l.lr.flags.getLsbD 4 = false →
      Raises s c (.mbox sw e) (flt cPRIV))

/-- R75, R318, R325: a word on lane registers whose source is poisoned in some lanes faults there with POISON and takes effect in
the others; a uniform word with a poisoned source faults whole. -/
def Obligations.PoisonFaultsWhereItIsRead : Prop :=
  ∀ (sw : BitVec 1) (g : BitVec 2) (d a : BitVec 6) (x y : BitVec 7) (s : State) (c : Ctx),
    let i := Instr.brev sw g d a
    let w := vget c.p.poisV a.toNat 0 &&& c.effLanes g.toNat
    ctx? s = some c →
    (i.wf = true → runsHere i c.who = true → outsideWindow c.p ((RegSet.vs a.toNat 1).or (RegSet.vs d.toNat 1)) = false →
      (((RegSet.vs a.toNat 1).or (RegSet.vs d.toNat 1)).or (RegSet.pr g.toNat)).meets c.f.pend = false →
      handlerOf c.l c.who ≠ 0 → c.p.trap.isSome = true → c.f.handler = false → w ≠ 0 → c.f.lanes &&& ~~~w ≠ 0 →
      ∃ t p k r, exec i s = .next t ∧ t.party? c.key c.who = some p ∧
        p.frags = lmod c.p.frags c.i (fun _ => r) ++ [{ c.f with lanes := w, wait := .parked k }] ∧ k.flt.code = cPOISON ∧
        r.lanes = c.f.lanes &&& ~~~w ∧ r.pc = c.f.pc + 4 ∧
        ∀ n L, n < 64 → L < 64 → p.getV n L =
          if n = d.toNat ∧ (c.effLanes g.toNat &&& ~~~w).getLsbD L = true then (c.p.getV a.toNat L).reverse else c.p.getV n L) ∧
    ((Instr.smov sw x y).wf = true → runsHere (.smov sw x y) c.who = true →
      ((RegSet.ss y.toNat 1).or (RegSet.ss x.toNat 1)).meets c.f.pend = false → c.p.poisS.getLsbD y.toNat = true →
      c.f.lanes ≠ 0 → Raises s c (.smov sw x y) (flt cPOISON))

/-- R257, R346, R248, R258, R259: TRACE posts its record of 64 bytes at the tail of the trace ring when tracing is enabled for the
launch and the ring has room, counts a drop when it has none, and else has no effect. With the grant, their results returned,
every access performed and nothing left to export, MBOX waits at the hub with its sixteen words and SYSC with its call of eight;
the block is no longer idempotent (R307). That the record of TRACE is written at once, in both views, is log 55's, and that the words of
MBOX and SYSC are those read at issue, before the release is waited for, log 43's. -/
def Obligations.TraceMailboxAndCalls : Prop :=
  (∀ (sw : BitVec 1) (a : BitVec 7) (n : BitVec 9) (s : State) (c : Ctx),
    let i := Instr.trace sw a n
    let q := s.part c.key.part
    let on := q.trctl.getLsbD 31 && c.l.lr.flags.getLsbD 1
    let size := q.trctl.toNat % 2 ^ 16 + 1
    let head := q.trpos.toNat / 2 ^ 16
    let tail := q.trpos.toNat % 2 ^ 16
    let isFull := (tail + 1) % size = head % size
    let bytes := traceBytes 1 0 n.toNat c.key (threadOf c.l.lr.width c.who c.f.lanes) c.f.pc (s.fcyc / 2) c.f.lanes (c.p.getSD a.toNat)
    let room := (s.modMs fun ms => sysWrite ms (q.trbase.toNat + 64 * tail) bytes).modPart c.key.part fun q =>
      { q with trpos := BitVec.ofNat 32 (head * 2 ^ 16 + (tail + 1) % size) }
    let full := s.modPart c.key.part fun q => { q with trdrop := if q.trdrop = 0xFFFFFFFF then q.trdrop else q.trdrop + 1 }
    Stands s c i (RegSet.ss a.toNat 2) RegSet.none 0 →
    ∃ t, exec i s = .next t ∧
      RanOn (if on = false then s else if isFull then full else room) t c c.b (c.behind s sw RegSet.none) (noResult c)) ∧
  (∀ (sw : BitVec 1) (a : BitVec 7) (n : BitVec 9) (s : State) (c : Ctx),
    let words (k : Nat) : List Word := match c.f.wait with
      | .hold (.fence _ _ _ ws) => ws
      | _ => (List.range k).map fun j => c.p.getS (a.toNat + j)
    let b : Block := { c.b with idem := false }
    let call : Call :=
      { seq := none, svc := n.toNat, args := words 8, reg := a.toNat, f := c.ref, pc := c.f.pc, reply := none, io := false }
    resultsOut s c.key c.who c.f = false → streamsDone c s (fun _ => true) = true → s.ms.exports = [] →
    (Stands s c (.mbox sw a) (RegSet.ss a.toNat 16) RegSet.none 0 → c.l.lr.flags.getLsbD 4 = true →
      ∃ t, exec (.mbox sw a) s = .next t ∧
        RanOn (s.modPart c.key.part fun q => { q with mbWait := q.mbWait ++ [c.ref] }) t c b
          { c.f with wait := .mbox (words 16) } (noResult c)) ∧
    (Stands s c (.sysc sw a n) (RegSet.ss a.toNat 8) (RegSet.ss a.toNat 4) 0 → c.l.lr.flags.getLsbD 5 = true →
      ∃ t, exec (.sysc sw a n) s = .next t ∧
        RanOn (s.modPart c.key.part fun q => { q with calls := q.calls ++ [call] }) t c b { c.f with wait := .syscFull }
          (noResult c)))

/-! ## Prefixes -/

/-- R65, R66: LIMM and the IADD or SADD behind it, whose immediate or B field is zero, are one instruction of eight bytes that adds
the sign-extended IMM24; LIMM before a word that accepts none raises ILLOP at the prefix. -/
def Obligations.LimmSuppliesTheImmediate : Prop :=
  ∀ (x : BitVec 24) (sw : BitVec 1) (g : BitVec 2) (d a : BitVec 6) (y z : BitVec 7) (s v : State) (c : Ctx) (w : Nat) (i : Instr),
    let lane := i = .iaddImm sw g d a 0 ∨ i = .iadd sw g d a 0 0
    let goes (wr : RegSet) : Frag := { c.behind s sw wr with pc := c.f.pc + 8 }
    followedBy s c w v → decodeWord w = .ok i → w / 2 ^ 30 % 2 = sw.toNat →
    (limmOk w = true → lane → Stands s c i (RegSet.vs a.toNat 1) (RegSet.vs d.toNat 1) g.toNat →
      ∃ t, exec (.limm x) s = .next t ∧ RanOn v t c c.b (goes (RegSet.vs d.toNat 1))
        (laneResult c d.toNat (c.effLanes g.toNat) fun L => c.p.getV a.toNat L + x.signExtend 32)) ∧
    (limmOk w = true → i = .sadd sw y z 0 → Stands s c i (RegSet.ss z.toNat 1) (RegSet.ss y.toNat 1) 0 →
      ∃ t, exec (.limm x) s = .next t ∧ RanOn v t c c.b (goes (RegSet.ss y.toNat 1))
        (uniformResult c y.toNat [c.p.getS z.toNat + x.signExtend 32])) ∧
    (ctx? s = some c → bodyOf i = none ∨ limmOk w = false →
      exec (.limm x) s = .next (raiseAll { c with len := 8 } (flt cILLOP) v))

/-- R37–R41, R60, R63, R64: a REP of an IADD performs its repeats one a step: repeat i reads and writes the registers of the word
with its stepped fields, once no load of an earlier repeat still owes one of them, PRG names the next repeat, and the last repeat leaves PRG.V clear, the registers of all repeats pending and
the fragment behind the word; a word that fails the issue check raises ILLOP at the REP and nothing is performed. -/
def Obligations.RepPerformsItsRepeatsInOrder : Prop :=
  ∀ (n : BitVec 6) (ed ea eb ec : BitVec 1) (st : BitVec 4) (g : BitVec 2) (d a b : BitVec 6) (u : BitVec 1) (s v : State) (c : Ctx)
      (w i : Nat),
    let rep := Instr.rep n ed ea eb ec st
    let en := [ed == 1, ea == 1, eb == 1, ec == 1]
    let step := st.toNat + 1
    let count := n.toNat + 1
    let j := Instr.iadd 0 g d a b u
    let vd := RegSet.vs d.toNat 1
    let fresh := i = 0 ∧ prgV c.f.prg = false
    let resumed := c.f.prg = mkPrg 7 0 i ∧ c.f.prgpc = c.f.pc.setWidth 64
    let sum := laneResult c d.toNat (c.effLanes g.toNat) fun L => c.p.getV a.toNat L + c.src b u L
    let x := if fresh then 0 else c.f.prgx
    let names := ((l3Reads a b u).or vd).or (RegSet.pr g.toNat)
    let owed := names.meets (comingRegs s c.key c.who c.f.lanes)
    followedBy s c w v →
    (repOk w en count step = true → decodeWord (stepWord w en (i * step)) = .ok j → w / 2 ^ 30 % 2 = 0 →
      Stands s c j (l3Reads a b u) vd g.toNat → unwatched s c → (fresh ∨ resumed) →
      (owed = true → ∃ t, exec rep s = .next t ∧ t.outside = v.outside ∧ t.clusters = s.clusters ∧
        t.blocks = (c.setFrag s fun f => { f with
          prg := mkPrg 7 0 i, prgpc := c.f.pc.setWidth 64, prgx := x, wait := .hold (.coming names) }).blocks) ∧
      (owed = false → i + 1 < count → ∃ t, exec rep s = .next t ∧ RanOn v t c c.b
        { c.f with prg := mkPrg 7 0 (i + 1), prgpc := c.f.pc.setWidth 64, prgx := x, out := c.f.out.or vd, wait := .run } sum) ∧
      (owed = false → i + 1 = count → ∃ t, exec rep s = .next t ∧ RanOn v t c c.b
        { c.f with prg := mkPrg 7 0 i &&& 0x7FFFFFFFFFFFFFFF, prgpc := c.f.pc.setWidth 64, prgx := x, pc := c.f.pc + 8,
                   pend := c.f.pend.or (repWrites c w en count step), out := (c.f.out.or vd).or (repWrites c w en count step),
                   wait := .run } sum)) ∧
    (ctx? s = some c → repOk w en count step = false →
      exec rep s = .next (raiseAll { c with len := 8 } (flt cILLOP) v))

/-! ## Lantern cores -/

/-- R363, R367, R368: what the four command instructions do on lantern core n. BFXT extracts a bit field. SWAIT reads its word and
completes when it is at least the value, else waits; SWAIT_WAKE reads the word of a waiting core again. RFETCH answers 0 where no
whole packet stands at the head, copies a whole one whose body and records pass to SRAM and answers its length; a bad header, body or
record is a command fault of the queue and of the core.
DISP hands a block to a cluster of the die and answers 1, and answers 0 where the launch is held from placement. The command faults
CMDQ, CMDALN and CMDDSC write nothing. An interrupt leaves mepc at the instruction, an SWAIT among them, which waits afresh
(mtvec, mstatus and the other causes are log 4's). -/
def Obligations.LanternCommands : Prop :=
  ∀ (t a d : BitVec 5) (n p : Nat) (s : State),
    let l := s.lantern n
    let ra := l.get a
    let rb := l.get t
    let at0 := s.modQueue ra.toNat fun u => { u with held := none }
    let back (v : State) : State := v.modQueue ra.toNat fun u => { u with held := (s.queue ra.toNat).held }
    let copied (v : State) (pk : List Byte) : State :=
      commandDone (v.setLantern n { v.lantern n with sram := memWrite (v.lantern n).sram rb.toNat pk }) n d (BitVec.ofNat 64 pk.length)
    let begun (v : State) : Prop := (v.queue ra.toNat).launch.isSome = true ∨ (v.graph? ra.toNat).isSome = true
    let desc := descOf (memRead l.sram rb.toNat 64)
    let woken (v : State) (b : List Byte) (va x : DWord) (r : BitVec 5) : State :=
      if x.toNat ≤ leNat b then commandDone (v.setLantern n { v.lantern n with swait := none }) n r (BitVec.ofNat 64 (leNat b))
      else v.setLantern n { v.lantern n with swait := some (va, x, r.toNat) }
    (s.turn = .lantern n →
      (∃ x : DWord, exec (.bfxt t a d) s = .next (commandDone s n d x) ∧
        ∀ j, j < 64 → x.getLsbD j = (decide (j < rb.toNat / 64 % 64) && ra.getLsbD (rb.toNat % 64 + j))) ∧
      (ra.toNat % 8 ≠ 0 → exec (.swait t a d) s = .next (commandTrap s n 0x74)) ∧
      (∀ v b, lanternPart s n = some p → ra.toNat % 8 = 0 → hubRead s p (s.part p).ringAsid ra.toNat 8 = (v, .ok b) →
        exec (.swait t a d) s = .next (woken v b ra rb d)) ∧
      (lanternQueue s n ra = none → exec (.rfetch t a d) s = .next (commandTrap s n 0x72)) ∧
      (lanternQueue s n ra = some p → rb.toNat % 16 ≠ 0 → exec (.rfetch t a d) s = .next (commandTrap s n 0x74)) ∧
      (lanternQueue s n ra = some p → rb.toNat % 16 = 0 →
        (∀ v, readHead at0 p ra.toNat = (v, .empty) → exec (.rfetch t a d) s = .next (commandDone (back v) n d 0)) ∧
        (∀ v k f, readHead at0 p ra.toNat = (v, .bad k f) →
          exec (.rfetch t a d) s = .next (commandTrap (commandFault (back v) p ra.toNat k f) n k)) ∧
        (∀ v x pk, readHead at0 p ra.toNat = (v, .whole x pk) →
          (begun (back v) ∨ (packetType pk ≠ 1 ∧ packetType pk ≠ 2) → exec (.rfetch t a d) s = .next (copied (back v) pk)) ∧
          (∀ w e, ¬begun (back v) →
            (packetType pk = 1 ∧ ∃ y, beginLaunch (back v) p ra.toNat (fieldAt pk 16 8) x pk none = (w, y) ∧ e = okOf y) ∨
              (packetType pk = 2 ∧ ∃ y, readGraph (back v) p (fieldAt pk 16 8) x = (w, y) ∧ e = okOf y) →
            (∀ f, e = .error f → exec (.rfetch t a d) s =
              .next (commandTrap (commandFault ((back v).reading w) p ra.toNat 0x71 f) n 0x71)) ∧
            (e = .ok () → exec (.rfetch t a d) s = .next (copied ((back v).reading w) pk))))) ∧
      (desc = none ∨ (desc.isSome = true ∧ 3 < ra.toNat) → exec (.disp t a d) s = .next (commandTrap s n 0x73)) ∧
      (∀ x, desc = some x → ra.toNat ≤ 3 → lanternQueue s n (BitVec.ofNat 64 x.queue) = none →
        exec (.disp t a d) s = .next (commandTrap s n 0x72)) ∧
      (∀ x r cl, desc = some x → ra.toNat ≤ 3 → lanternQueue s n (BitVec.ofNat 64 x.queue) = some p →
        s.launches.find? (fun l => l.part = p && l.queue = x.queue && l.raddr = x.raddr && l.stage = 0 && !l.placed) = some r →
        s.launch? p r.grid = some r → x.gang = false → x.count = 1 → x.first = r.next → r.lr.gangsz = 0 →
        r.next < r.lr.nblocks →
        (placeHeld s r = true → exec (.disp t a d) s = .next (commandDone s n d 0)) ∧
        (placeHeld s r = false → dieTask s r ra.toNat = some cl →
          ∃ u, exec (.disp t a d) s = .next u ∧
            (u.cluster cl).tasks = (s.cluster cl).tasks ++ [{ part := p, grid := r.grid, blk := r.next }] ∧
            u.lantern n = { l.set d 1 with pc := l.pc + 4 } ∧ (u.launch? p r.grid).map (fun y => y.next) = some (r.next + 1)))) ∧
    (∀ va x r v b, l.swait = some (va, x, r) → s.hub.halted = false → lanternPart s n = some p →
      hubRead s p (s.part p).ringAsid va.toNat 8 = (v, .ok b) →
      exec (.swaitWake n) s = .next (woken v b va x (BitVec.ofNat 5 r))) ∧
    (∀ k, n < 16 → ∃ y, exec (.lanternInterrupt n k) s = .next (s.setLantern n y) ∧ y.mepc = l.pc ∧
      y.mcause = k ||| 0x8000000000000000 ∧ y.swait = none ∧ y.x = l.x ∧ y.sram = l.sram)

/-! ## Steps of the memory machine -/

/-- R267, R269–R272, R290: an access at the head of its queues leaves them and its stream's clock advances. A load gives its lanes what
M holds, narrow words extended; a store and a zero line write M and join X; an atomic or a compare-and-swap of a launch that does not
replay reads and writes M in one step and gives its lane the old value. A scratchpad access reads or writes its block's scratchpad.
An access whose line a combining buffer holds stays, and so does one behind a held access, or a RED that is retried, of its thread and
stream (R143). -/
def Obligations.AccessesPerform : Prop :=
  ∀ (s : State) (i pa : Nat) (a : Access) (l : Launch) (p : Party) (b : Block),
    let e := Instr.performAcc i false
    let behind := heldBefore s a.key a.who a.lanes a.stream a.serial
    let x := memRead s.ms.mem pa
    let old (n : Nat) : DWord := BitVec.ofNat 64 (leNat (x n))
    let went (u : State) (m : Mem) : Prop :=
      u.ms.queue = ldrop s.ms.queue i ∧ u.ms.clocks = lmod s.ms.clocks a.stream (fun k => k + 1) ∧ u.ms.mem = m ∧ u.ms.sys = s.ms.sys
    let wrote (u : State) (data : List Byte) : Prop :=
      went u (memWrite s.ms.mem pa data) ∧ ∃ w, u.ms.exports = s.ms.exports ++ [.write w] ∧ w.pa = pa ∧ w.data = data ∧
        w.key = a.key ∧ w.who = a.who ∧ w.lanes = a.lanes ∧ w.stream = some a.stream
    let has (u : State) (q : Party) : Prop := u.party? a.key a.who = some q
    s.ms.queue[i]? = some a → atHead s.ms.queue i = true → a.held = none → (runCluster s a.key).isSome = true →
    s.launch? a.key.part a.key.grid = some l → l.replaying = false → s.block? a.key = some b → b.party? a.who = some p →
    (behind = true → exec e s = .next s) ∧
    (behind = false → a.space ≠ .scratch → a.pa = some pa → lineHeld s.ms pa a.kind.size = false →
      (∀ n sg d, a.kind = .load n sg d → eccHit s.ms pa n = false →
        ∃ u, exec e s = .next u ∧ went u s.ms.mem ∧ u.ms.exports = s.ms.exports ∧
          has u (putLane p d a.lanes (loadWords n sg (x n)))) ∧
      (∀ n sg d, a.kind = .loadS n sg d → eccHit s.ms pa n = false →
        ∃ u, exec e s = .next u ∧ went u s.ms.mem ∧ u.ms.exports = s.ms.exports ∧ has u (p.setSs d (loadWords n sg (x n)))) ∧
      (∀ data, a.kind = .store data → ∃ u, exec e s = .next u ∧ wrote u data ∧ has u p) ∧
      (a.kind = .zline → ∃ u, exec e s = .next u ∧ wrote u (List.replicate 128 0) ∧ has u p ∧ pa / 128 ∈ u.ms.zlines) ∧
      (∀ o n y d, a.kind = .atom o n y d → eccHit s.ms pa n = false →
        ∃ u, exec e s = .next u ∧ wrote u (leBytes n (atomOp o (old n) y).toNat) ∧
          has u (putLane p d a.lanes (loadWords n false (leBytes n (old n).toNat)))) ∧
      (∀ n y z r d, a.kind = .acas n y z r d → eccHit s.ms pa n = false →
        ∃ u, exec e s = .next u ∧ (if old n = y then wrote u (leBytes n z.toNat) else went u s.ms.mem) ∧
          has u ((putLane p d a.lanes (loadWords n false (leBytes n (old n).toNat))).setP r a.lanes fun _ => old n == y))) ∧
    (behind = false → a.space = .scratch →
      (∀ n sg d, a.kind = .load n sg d → scrPoisoned b a.va.toNat n = false →
        ∃ u, exec e s = .next u ∧ went u s.ms.mem ∧
          has u (putLane p d a.lanes (loadWords n sg (memRead b.scr a.va.toNat n)))) ∧
      (∀ data, a.kind = .store data → b.overlapsBar a.va.toNat data.length = false →
        ∃ u, exec e s = .next u ∧ went u s.ms.mem ∧ has u p ∧
          (u.block? a.key).map (fun y => y.scr) = some (memWrite b.scr a.va.toNat data))) ∧
    (∀ data, a.space ≠ .scratch → a.pa = some pa → a.kind = .store data → lineHeld s.ms pa data.length = true →
      exec e s = .next s)

/-- R241, R242, R152, R271: the update of a VRET at the head of its queues is applied as the Lamplighter computes it, over memory in
which the partials of its lines are collected: the entry's time tag is the sample where it had none, else drawn towards the sample by the table's shift, its stamp is DTIME, and the header counts the update;
what is discarded changes no memory. A tag always lies between the old value and the sample, both included. -/
def Obligations.LamplighterAppliesUpdates : Prop :=
  (∀ (s v : State) (i cl idx : Nat) (a : Access) (l : Launch) (t y : Word) (q : Option (BitVec 16)),
    let e := Instr.lamplighterUpdate i
    let went (u : State) (m : Mem) : Prop :=
      u.ms.queue = ldrop s.ms.queue i ∧ u.ms.clocks = lmod s.ms.clocks a.stream (fun k => k + 1) ∧ u.ms.mem = m
    s.ms.queue[i]? = some a → a.kind = .update idx t y q → atHead s.ms.queue i = true → a.held = none →
    heldBefore s a.key a.who a.lanes a.stream a.serial = false →
    runCluster s a.key = some cl → s.launch? a.key.part a.key.grid = some l → l.replaying = false →
    (∀ bank, lampStep cl a.key.part l.lr.asid a.key.grid a.va idx t y q s = (v, .discard bank) →
      ∃ u, exec e s = .next u ∧ went u v.ms.mem) ∧
    (∀ rd ws, lampStep cl a.key.part l.lr.asid a.key.grid a.va idx t y q s = (v, .writes rd ws) →
      (∃ u, exec e s = .next u ∧ went u (ws.foldl (fun m w => memWrite m w.1 w.2) v.ms.mem)) ∧
      ((∀ pa ∈ rd ++ ws.map (fun w => w.1), lineHeld s.ms pa 64 = false) →
      v.ms.mem = s.ms.mem ∧ ∃ ph pe hdr ent rest, ws = (ph, hdr) :: (pe, ent) :: rest ∧ hdr.length = 64 ∧ ent.length = 64 ∧
        let h := memRead s.ms.mem ph 64
        let x := memRead s.ms.mem pe 64
        tabFlag h 0 = false ∧ idx < tabCount h ∧
        fieldAt ent 8 4 = (if fieldAt x 32 4 = 0 then t.toNat else drawn (fieldAt x 8 4) t.toNat (tabShift h)) ∧
        fieldAt ent 12 4 = (if fieldAt x 32 4 = 0 then y.toNat else drawn (fieldAt x 12 4) y.toNat (tabShift h)) ∧
        fieldAt ent 32 4 = min (fieldAt x 32 4 + 1) (2 ^ 32 - 1) ∧ fieldAt ent 40 8 = s.dtime % 2 ^ 64 ∧
        fieldAt hdr 8 8 = (fieldAt h 8 8 + 1) % 2 ^ 64))) ∧
  ∀ old x sh : Nat, min old x ≤ drawn old x sh ∧ drawn old x sh ≤ max old x

/-- R151, R152, R271, R276, R371, R385: MERGE combines a RED with the partial of its word and operation, or begins one, the lanes of one
RED at one word in ascending order; FLUSH applies a partial to M; DRAIN writes an entry of a path buffer behind no older entry of its
word, or applies a REDM, neither at a line of which a combining buffer holds a partial; each write that reaches M joins X.
EXPORT makes a write visible to system observers, but not before an older write of its word; IMPORT brings a host store into M, but
not before an older one of its word. A store of one of the 32 host cores, and an endpoint's write that is translated, enters the import
set, behind earlier stores of its word and those that a fence of its hart orders; one that is not translated is refused and changes
nothing; a halted hub runs no host core (R378). That IMPORT brings the store into E together with M is log 14's. -/
def Obligations.BuffersReachMemory : Prop :=
  ∀ (s : State) (i cl pa : Nat) (r : RedEntry) (c : Partial) (w : PathWrite) (x : XWrite) (v : HostWrite) (hart : Nat) (fenced : Bool)
      (data : List Byte),
    let n := redBytes r.op
    let joined (u : State) (mem : Mem) (at_ : Nat) (d : List Byte) : Prop :=
      u.ms.mem = memWrite mem at_ d ∧ u.ms.sys = s.ms.sys ∧ ∃ y, u.ms.exports = s.ms.exports ++ [.write y] ∧ y.pa = at_ ∧ y.data = d
    let value (at_ k : Nat) : DWord := BitVec.ofNat 64 (leNat (memRead s.ms.mem at_ k))
    let bytes (o : Nat) (y : DWord) : List Byte := leBytes (redBytes o) y.toNat
    let meets (p m q k : Nat) : Bool := decide (p / 4 * 4 < q + k) && decide (q / 4 * 4 < p + m)
    (s.ms.pool[i]? = some r → runCluster s r.key = some cl →
      (∃ y ∈ s.ms.pool, y.serial = r.serial ∧ y.key = r.key ∧ y.who = r.who ∧ y.lane < r.lane ∧
        meets y.va.toNat (redBytes y.op) r.va.toNat n = true) → exec (.mergeRed i) s = .next s) ∧
    (s.ms.pool[i]? = some r → runCluster s r.key = some cl → r.held = none → r.pa = some pa →
      heldBefore s r.key r.who (laneBit r.lane) r.stream r.serial = false →
      (∀ y ∈ s.ms.pool, y.serial = r.serial → y.key = r.key → y.who = r.who → y.lane < r.lane →
        meets y.va.toNat (redBytes y.op) r.va.toNat n = false) →
      (∀ y ∈ s.ms.cb, y.cluster = cl → y.overlaps pa n = true → y.pa = pa ∧ y.op = r.op) →
      (∀ y ∈ s.ms.cb, y.cluster = cl → y.pa = pa → y.op = r.op →
        ∃ u z, exec (.mergeRed i) s = .next u ∧ u.ms.pool = ldrop s.ms.pool i ∧ u.ms.mem = s.ms.mem ∧ z ∈ u.ms.cb ∧
          z.cluster = cl ∧ z.pa = pa ∧ z.op = r.op ∧ z.val = atomOp r.op y.val r.x ∧ r ∈ z.owners) ∧
      ((∀ y ∈ s.ms.cb, y.cluster ≠ cl) →
        ∃ u, exec (.mergeRed i) s = .next u ∧ u.ms.pool = ldrop s.ms.pool i ∧ u.ms.mem = s.ms.mem ∧
          u.ms.cb = s.ms.cb ++ [{ cluster := cl, pa := pa, op := r.op, val := r.x, owners := [r] }])) ∧
    (s.ms.cb[i]? = some c → c.owners ≠ [] →
      ∃ u, exec (.flushCb i) s = .next u ∧ u.ms.cb = ldrop s.ms.cb i ∧
        joined u s.ms.mem c.pa (bytes c.op (atomOp c.op (value c.pa (redBytes c.op)) c.val))) ∧
    (s.ms.paths[i]? = some w →
      ((∃ j y, j < i ∧ s.ms.paths[j]? = some y ∧ y.path = w.path ∧ y.meets w = true) → exec (.drainPath i) s = .next s) ∧
      ((∀ j y, j < i → s.ms.paths[j]? = some y → y.path = w.path → y.meets w = false) →
        (∀ a, w.loc = .hbm a → lineHeld s.ms a w.data.length = true → exec (.drainPath i) s = .next s) ∧
        (∀ a, w.loc = .hbm a → lineHeld s.ms a w.data.length = false →
          ∃ u, exec (.drainPath i) s = .next u ∧ u.ms.paths = ldrop s.ms.paths i ∧ joined u s.ms.mem a w.data) ∧
        (∀ k o b, w.loc = .scr k o → s.block? k = some b → b.overlapsBar o w.data.length = false →
          ∃ u, exec (.drainPath i) s = .next u ∧ u.ms.paths = ldrop s.ms.paths i ∧ u.ms.mem = s.ms.mem ∧
            (u.block? k).map (fun y => y.scr) = some (memWrite b.scr o w.data)))) ∧
    (s.ms.redm[i]? = some r → r.held = none → r.pa = some pa → (∀ y ∈ s.ms.redm, y.held = none ∧ y.again = false) → lineHeld s.ms pa n = false →
      ∃ u, exec (.drainPath (s.ms.paths.length + i)) s = .next u ∧ u.ms.redm = ldrop s.ms.redm i ∧
        joined u s.ms.mem pa (bytes r.op (atomOp r.op (value pa n) r.x))) ∧
    (s.ms.exports[i]? = some (.write x) →
      (∀ j y, j < i → s.ms.exports[j]? = some (.write y) → meets y.pa y.data.length x.pa x.data.length = true →
        exec (.exportW i) s = .next s) ∧
      (exportHeld s.ms.exports i x = false →
        ∃ u, exec (.exportW i) s = .next u ∧ u.ms.sys = memWrite s.ms.sys x.pa x.data ∧ u.ms.mem = s.ms.mem ∧
          u.ms.exports = dropMarks (ldrop s.ms.exports i))) ∧
    (s.ms.hostw[i]? = some v →
      (∀ j y, j < i → s.ms.hostw[j]? = some y → y.done = false → meets y.pa y.data.length v.pa v.data.length = true →
        exec (.importW i) s = .next s) ∧
      (v.done = false → (∀ j y, j < i → s.ms.hostw[j]? = some y → y.done = false →
          meets y.pa y.data.length v.pa v.data.length = false) → lineHeld s.ms v.pa v.data.length = false →
        (∀ y, .write y ∈ s.ms.exports → meets y.pa y.data.length v.pa v.data.length = false) →
        ∃ u, exec (.importW i) s = .next u ∧ u.ms.mem = memWrite s.ms.mem v.pa v.data ∧
          u.ms.sys = memWrite s.ms.sys v.pa v.data ∧ u.ms.hostw = lmod s.ms.hostw i (fun y => { y with done := true }))) ∧
    (data ≠ [] → pa + data.length ≤ 2 ^ 40 → hart < 32 → s.hub.halted = false →
      (∃ u y, exec (.hostCoreStore hart fenced pa data) s = .next u ∧ u.ms.hostw = s.ms.hostw ++ [y] ∧ y.hart = hart ∧ y.pa = pa ∧
        y.data = data ∧ y.done = false ∧ u.ms.mem = s.ms.mem ∧ u.blocks = s.blocks ∧
        (fenced = true → ∀ z ∈ s.ms.hostw, z.hart = hart → z.epoch ≤ tabGet 0 s.ms.epochs hart → z.id ∈ y.before) ∧
        (∀ z ∈ s.ms.hostw, meets z.pa z.data.length pa data.length = true → z.id ∈ y.before)) ∧
      ∃ u y, exec (.dmaRequest (some pa) data) s = .next u ∧ u.ms.hostw = s.ms.hostw ++ [y] ∧ y.pa = pa ∧ y.data = data ∧
        y.done = false ∧ u.ms.mem = s.ms.mem) ∧
    ((32 ≤ hart ∨ s.hub.halted = true) → exec (.hostCoreStore hart fenced pa data) s = .next s) ∧
    exec (.dmaRequest none data) s = .next s

/-- R60, R143, R162, R163, R323: a posted access whose translation fails after issue is held with an imprecise record of its own PC. A
result returns to its register, and a fragment at a switch marker goes on when none is left; at a frozen cluster it waits in the skid
buffer (R342). A waiter that a write has woken, and a
polling waiter whose interval is over, reads its word again. -/
def Obligations.ResultsWakesAndLateFaults : Prop :=
  ∀ (s v : State) (i cl : Nat) (a : Access) (l : Launch) (f : Flt) (r : FragRef) (g : RegName) (c : Ctx) (w : CondWait) (t pa : Nat),
    let rest := c.f.out.minus (RegSet.one g)
    let goes (u : State) (y : Frag) : Prop :=
      ∃ p, u.party? c.key c.who = some p ∧ noResult c p ∧ p.frags = lmod c.p.frags c.i (fun _ => y)
    let read : Access :=
      { serial := s.ms.serial, key := c.key, who := c.who, lanes := c.f.lanes, stream := 0, pc := c.f.pc, space := .global, va := w.va,
        pa := some pa, kind := .waitRead w, held := none, dbl := c.dbl }
    let reads (j : Instr) : Prop :=
      ∃ u, exec j s = .next u ∧ u.ms.queue = s.ms.queue ++ [read] ∧ goes u { c.f with wait := .condRead w }
    (s.ms.queue[i]? = some a → runCluster s a.key = some cl → s.launch? a.key.part a.key.grid = some l → a.space = .global →
      a.pa = none → a.held = none → a.kind.waits = false → a.kind.rw.1 = false → (∀ idx x y q, a.kind ≠ .update idx x y q) →
      translate s cl a.key.part l.lr.asid a.va.toNat a.kind.rw.1 a.kind.rw.2 false = (v, .error f) →
      ∃ u x, exec (.postedAccessFault .stream i) s = .next u ∧ (u.part a.key.part).faults = (s.part a.key.part).faults ++ [x] ∧
        x.code = f.code ∧ x.pc = a.pc.setWidth 64 ∧ x.kind.getLsbD 1 = true ∧ x.seq = (s.part a.key.part).nextSeq ∧
        (u.ms.queue[i]?).map (fun y => y.held) = some (some x.seq) ∧ u.ms.mem = s.ms.mem) ∧
    (ctxOf s r = some c → stillComing s c g = false → (s.cluster c.cl).frozen = true → (s.cluster c.cl).skid.length < 1024 →
      exec (.resultReturn r g) s = .next (s.setCluster c.cl { s.cluster c.cl with skid := (s.cluster c.cl).skid ++ [(c.ref, g)] })) ∧
    (ctxOf s r = some c → stillComing s c g = false → (s.cluster c.cl).frozen = false →
      (c.f.wait ≠ .switch → ∃ u, exec (.resultReturn r g) s = .next u ∧ u.ms = s.ms ∧ goes u { c.f with out := rest }) ∧
      (c.f.wait = .switch → resultsOut s c.key c.who { c.f with out := rest } = false →
        ∃ u, exec (.resultReturn r g) s = .next u ∧ u.ms = s.ms ∧
          goes u { c.f with out := rest, wait := .run, pend := RegSet.none })) ∧
    (ctxOf s r = some c → (runCluster s r.key).isSome = true → Passes s c .global w.va 4 true false false (some pa) →
      (c.f.wait = .monitor w → (∃ m ∈ s.ms.monitors, c.ref ∈ m.woken) → reads (.waitcmpWake r)) ∧
      (c.f.wait = .poll t w → t + w.gap ≤ s.dtime → reads (.waitcmpPoll r)))

/-! ## Work in progress -/

/-- R187, R199, R203, R207, R208, R209, R213, R222, R224, R225, R271, R352, R356, R358: at the start of a fabric cycle, every charge
that BAL covers having proceeded, BAL and, unless frozen, CYC of every cluster advance. The head of a charge FIFO proceeds when BAL
covers its cost, which is taken, and its element starts; an earlier one, and one of a frozen cluster, waits. A copy whose row passes
its checks puts word after word on the copy path, in scratchpad or in memory, or into its tile, and the write pointer moves over each;
the last word of a row counts the row, for a tile its words too, and the last row completes the ticket. A rank of a collective puts its
chunk on the collective path. The oldest K-group adds its sums to its accumulator, on a frozen cluster too. What waits for a tile, an
accumulator or a place of a channel goes on, a copy once its tile is neither FULL nor BUSY; the first waiting selection starts on the
free engine; an abort fails the collective of a rank, in its turn on its channel, that of a rank which reaches it later too. That a
row of a copy runs word by word, its words in a tile counted as the row ends, is log 98's, and the collective's own compare log 99's. -/
def Obligations.WorkProceeds : Prop :=
  ∀ (s v : State) (cl dup id ch part g j0 : Nat) (x : Charge) (rest : List Charge) (b : Block) (o : EngOp) (r : FragRef) (c : Ctx)
      (m : MacroRun) (key : Key) (f : Flight) (fs : List Flight) (pas : List Nat) (refs : List FragRef) (v0 v1 : State) (co : Coll)
      (n base cnt : Nat) (mods : List Nat),
    let k := s.cluster cl
    let goes (u : State) (y : Frag) : Prop :=
      ∃ p, u.party? c.key c.who = some p ∧ noResult c p ∧ p.frags = lmod c.p.frags c.i (fun _ => y)
    let paid (u : State) : Prop := u.cluster cl = { k with tried := some s.fcyc, bal := k.bal - x.cost, charges := rest }
    let woken (u : State) (w : Wait) : Prop := ∃ y, u.block? key = some y ∧ ∀ who p, b.party? who = some p →
      y.party? who = some { p with frags := p.frags.map fun (z : Frag) => if z.wait = w then { z with wait := .run } else z }
    let local0 := (cpaLocal o.words 0 o.elem).toNat
    let pos := o.elem * cpaRB o.words + 4 * o.word
    let words := cpaRB o.words / 4
    let tl := cpaTile o.words
    let pa := pas.getD o.word 0
    let near : Loc := .scr o.key (local0 + 4 * o.word)
    let row (l : Loc) (data : List Byte) : PathWrite :=
      { path := .cp, op := id, key := o.key, who := o.who, lanes := o.lanes, pos := pos, loc := l, data := data, run := v.ms.serial }
    let ends : Prop := 4 * (o.word + 1) = cpaRB o.words
    let copied (u : State) (y : Block) : Prop :=
      u.ms.mem = v.ms.mem ∧
      (o.f = 0 → u.ms.paths = v.ms.paths ++ [row near (pathRead v .cp (.hbm pa) 4)]) ∧
      (o.f = 1 → u.ms.paths = v.ms.paths ++ [row (.hbm pa) (pathRead v .cp near 4)] ∧ y.idem = false) ∧
      (o.f = 2 → u.ms.paths = v.ms.paths ∧
        (y.tile tl).data = memWrite (b.tile tl).data (4 * (local0 + o.word)) (pathRead v .mx (.hbm pa) 4) ∧
        (y.tile tl).count = (b.tile tl).count + (if ends then words else 0) ∧
        (y.tile tl).st = if ends ∧ (b.tile tl).count + words = (b.tile tl).fillw then .full
          else if o.word = 0 then .filling else (b.tile tl).st) ∧
      (o.ch < b.chans.length →
        (y.chan o.ch).wpT = BitVec.ofNat 32 (o.ch * 2 ^ 28 + o.seq % 2 ^ 28) ∧ pos + 4 ≤ (y.chan o.ch).wpB)
    let home := opHome s o.id
    let out := clvOut o.words o.f
    let first := o.elem * 65536 / out
    let total := clvElems o.words o.f n
    let peers := clvPeers s o
    let doomed (y : EngOp) : Prop := if chanHead s home o.ch = some o.id then
        y = { o with doom := true, st := .failed, code := 0x30, errElem := o.elem, charged := false, waiting := false }
      else y = { o with doom := true }
    (∃ u, exec .currentBucketRefill s = .next u ∧ u.fcyc = s.fcyc + 1 ∧
      ((∀ n y ys, (s.cluster n).charges = y :: ys →
          (s.cluster n).frozen = true ∨ s.fcyc < y.at_ ∨ (s.cluster n).bal < y.cost) → ∀ n,
        (u.cluster n).bal = min 65536 ((s.cluster n).bal + if s.boost then 634 else 576) ∧
        (u.cluster n).cyc = (s.cluster n).cyc + if (s.cluster n).frozen then 0 else if s.boost then 22 else 20)) ∧
    (k.charges = x :: rest →
      (k.frozen = true ∨ s.fcyc < x.at_ → exec (.chargeProceed cl dup) s = .next s) ∧
      (k.frozen = false → x.at_ ≤ s.fcyc →
        (k.bal < x.cost → exec (.chargeProceed cl dup) s = .next (s.setCluster cl { k with tried := some s.fcyc })) ∧
        (x.cost ≤ k.bal →
          (x.who = .chan ch id ∨ x.who = .coll ch id → s.op? id = some (b, o) →
            ∃ u y, exec (.chargeProceed cl dup) s = .next u ∧ paid u ∧
              u.op? id = some (y, { o with charged := true, st := .running })) ∧
          (x.who = .gather r ∨ x.who = .select r → ctxOf s r = some c → c.f.wait = .charge m →
            ∃ u, exec (.chargeProceed cl dup) s = .next u ∧ paid u ∧ goes u { c.f with wait := .rows m })))) ∧
    (s.op? id = some (b, o) → s.block? o.key = some b → o.ch < 8 → o.charged = true → o.waiting = false → o.st = .running → o.f < 3 →
      b.place = .resident home → (s.cluster home).frozen = false → opCtx s home o = some c → InTurn s b o → o.doom = false →
      (o.f = 2 → tl < b.tiles.length) →
      (if o.word = 0 then
          wordPlaces c (decide (o.f ≠ 1)) (decide (o.f = 1)) words (cpaGlobal o.words o.elem) s [] = (v0, .ok pas) ∧
          (o.f = 0 → b.overlapsBar local0 (cpaRB o.words) = false) ∧ (o.f = 1 → scrPoisoned b local0 (cpaRB o.words) = false) ∧
          (o.f = 2 → tileStep (b.tile tl) (tileComing b tl + words) = some true)
        else v0 = s ∧ pas = o.pas) →
      (if o.f = 1 then v = v0 else eccRead v0 o.key.part pa 4 = (v1, false) ∧ v = v1.modMs fun ms => collect ms pa 4) →
      (¬ends → ∃ u y, exec (.runElem id) s = .next u ∧ copied u y ∧
        u.op? id = some (y, { o with word := o.word + 1, pas := pas })) ∧
      (ends → o.elem + 1 ≠ cpaRows o.words → ∃ u y, exec (.runElem id) s = .next u ∧ copied u y ∧
        u.op? id = some (y, { o with elem := o.elem + 1, charged := false, word := 0, pas := [] })) ∧
      (ends → o.elem + 1 = cpaRows o.words → ∃ u y z, exec (.runElem id) s = .next u ∧ copied u y ∧
        u.op? id = some (y, z) ∧ z.st = .done ∧ z.elem = o.elem + 1 ∧ (o.ch < b.chans.length → (y.chan o.ch).csq = o.seq))) ∧
    (s.op? id = some (b, o) → s.block? o.key = some b → 8 ≤ o.ch → o.charged = true → o.waiting = false → o.st = .running →
      (s.cluster home).frozen = false → opCtx s home o = some c → InTurn s b o → o.doom = false →
      groupOf c.l (clvGroup o.words) = some (n, base, cnt, mods) →
      ((clvGroup o.words, o.nth) ∈ c.l.aborts → ∃ u y z, exec (.runElem id) s = .next u ∧ u.op? id = some (y, z) ∧ doomed z) ∧
      ((clvGroup o.words, o.nth) ∉ c.l.aborts → clvLinked s mods = true → (∀ e ∈ peers, e.2.st ≠ .held) → s.coll? o = some co →
        clvChunk co c peers base (base + o.key.blk) n o s = (v, none) → o.elem + 1 < chunks (total * out) →
        (∃ u y, exec (.runElem id) s = .next u ∧ u.ms.paths = v.ms.paths ∧ u.ms.mem = v.ms.mem ∧
          u.op? id = some (y, { o with elem := o.elem + 1, charged := false }) ∧ y.idem = false) ∧
        ∃ ws, v.ms.paths = s.ms.paths ++ ws ∧ ws.length = min (65536 / out) (total - first) ∧
          ∀ j w, ws[j]? = some w → w.path = .cl ∧ w.op = o.id ∧ w.key = o.key ∧ w.who = o.who ∧ w.pos = (first + j) * out ∧
            ∃ t t1 x, clvElem co peers base (base + o.key.blk) n o (first + j) t = (t1, .ok x) ∧
              t.ms.paths = s.ms.paths ++ ws.take j ∧ (j = 0 → t = s) ∧ w.data = leBytes out x)) ∧
    (s.block? key = some b → b.cluster?.isSome = true → b.flights = f :: fs →
      (∃ u, exec (.kgroupComplete key) s = .next u ∧ u.block? key = some (applyFlight { b with flights := fs } f) ∧
        u.outside = s.outside ∧ u.clusters = s.clusters) ∧
      ∀ a mm n fresh sums tiles last i j, f = .group a mm n fresh sums tiles last → i < mm → j < n → mm ≤ 64 → n ≤ 64 →
        ((applyFlight { b with flights := fs } f).acc a).elem (64 * i + j) =
          if fresh then sums.getD (n * i + j) 0 else addF32rne ((b.acc a).elem (64 * i + j)) (sums.getD (n * i + j) 0)) ∧
    (s.block? key = some b →
      (∃ u y, exec (.tileWaitResume key j0) s = .next u ∧ woken u (.tile j0) ∧ u.outside = s.outside ∧ u.block? key = some y ∧
        y.ops = b.ops.map fun z =>
          if z.waiting = true ∧ cpaTile z.words = j0 ∧ (b.tile j0).st ≠ .full ∧ (b.tile j0).st ≠ .busy then
            { z with waiting := false, st := .running, errElem := 0 }
          else z) ∧
      (b.outstanding j0 = true → exec (.drainWaitResume key j0) s = .next s) ∧
      (b.outstanding j0 = false → ∃ u, exec (.drainWaitResume key j0) s = .next u ∧ woken u (.drain j0) ∧ u.outside = s.outside)) ∧
    (k.selOwner = none → k.selWait = r :: refs → k.frozen = false → ctxOf s r = some c → c.cl = cl → c.f.wait = .selection m →
      prgV c.f.prg = false → c.b.halted = false →
      ∃ u p n, exec (.selectionEngineStart cl) s = .next u ∧ (u.cluster cl).selOwner = some c.ref ∧ (u.cluster cl).selWait = refs ∧
        u.party? c.key c.who = some p ∧ n.words = m.words ∧
        p.frags = lmod c.p.frags c.i (fun _ =>
          { c.f with prg := mkPrg m.cls 0 0, prgpc := c.f.pc.setWidth 64, prgx := 0, wait := .charge n })) ∧
    (k.chWait.find? (fun e => e.1 = ch) = some (ch, r) →
      (16 ≤ chanLoad s cl ch → exec (.channelPlaceFreed cl ch) s = .next s) ∧
      (chanLoad s cl ch < 16 → ctxOf s r = some c → c.f.wait = .chan ch →
        ∃ u, exec (.channelPlaceFreed cl ch) s = .next u ∧ goes u { c.f with wait := .run } ∧
          (u.cluster cl).chWait = k.chWait.filter fun e => e.2 != r)) ∧
    (groupClvs s part g = [] → exec (.collectiveGroupAbort part g) s = .next s) ∧
    (groupClvs s part g = [(b, o)] → s.op? o.id = some (b, o) → s.block? o.key = some b → InTurn s b o →
      ∃ u y z, exec (.collectiveGroupAbort part g) s = .next u ∧ u.op? o.id = some (y, z) ∧ doomed z ∧
        (u.launch? part b.key.grid).map (fun x => x.aborts.contains (g, o.nth)) = some true)

/-- R15, R60, R104, R106, R158, R249–R251: the first wave of barrier waiters whose time has come is released. A pause ends when its count
has run out, and its switch marker follows (that the marker of PAUSE.sw waits for the end of the pause is log 75's). A parked fragment enters the handler when the trap record is free: the record keeps
its lanes, pending set, progress and return PCs, s124 to s127 the trap state. A draining warp is FREE when its last access is
acknowledged and its tickets are over. A block ends when its warps are FREE, its MCC has ended and nothing of it is left. -/
def Obligations.WaitsAndBlocksEnd : Prop :=
  ∀ (s : State) (key : Key) (b : Block) (cl n t i : Nat) (w : Wave) (wl ws : List Wave) (x : BarWaiter) (p : Party) (r : FragRef)
      (c : Ctx) (sw : Bool) (l : Launch) (who : Who) (f : Frag) (k : Park),
    let now : Frag := { c.f with wait := .run }
    let goes (u : State) (y : Frag) : Prop :=
      u.ms = s.ms ∧ ∃ p, u.party? c.key c.who = some p ∧ noResult c p ∧ p.frags = lmod c.p.frags c.i (fun _ => y)
    (s.block? key = some b → runCluster s key = some cl →
      ((∀ v ∈ b.waves, (s.cluster cl).cyc < v.due) → exec (.waveRelease key) s = .next s) ∧
      (b.waves = wl ++ w :: ws → (∀ v ∈ wl, (s.cluster cl).cyc < v.due) → w.due ≤ (s.cluster cl).cyc →
        ∃ u y, exec (.waveRelease key) s = .next u ∧ u.outside = s.outside ∧ u.block? key = some y ∧ y.waves = wl ++ ws ∧
        (∀ z ∈ w.waiters, ∀ q, y.party? z.who = some q → ∀ g ∈ q.frags, g.wait.atBarrier = true → g.lanes &&& z.lanes = 0) ∧
        (w.waiters = [x] → b.party? x.who = some p → y.party? x.who = some (p.setBarWait x.lanes .run)))) ∧
    (ctxOf s r = some c → c.f.wait = .pause t n sw →
      ((s.cluster c.cl).cyc < t + 10 * n → exec (.pauseEnd r) s = .next s) ∧
      (t + 10 * n ≤ (s.cluster c.cl).cyc → ∃ u, exec (.pauseEnd r) s = .next u ∧
        goes u (if sw = false then now else if resultsOut s c.key c.who now then { now with wait := .switch }
          else { now with pend := RegSet.none }))) ∧
    (s.launch? key.part key.grid = some l → s.party? key who = some p →
      (p.trap.isSome = true → exec (.trapEntry key who) s = .next s) ∧
      (p.trap = none → nextTrapped p = some i → p.frags[i]? = some f → f.wait = .parked k →
        ∃ u q, exec (.trapEntry key who) s = .next u ∧ u.outside = s.outside ∧ u.party? key who = some q ∧
          q.trap = some { lanes := f.lanes, pend := f.pend, prg := f.prg, prgpc := f.prgpc, prgx := f.prgx, ret := k.retPc,
                          nxt := f.pc + (if k.pfx then 8 else 4), code := k.flt.code } ∧
          q.frags = lmod p.frags i (fun _ =>
            { f with pc := BitVec.ofNat 55 (handlerOf l who), pend := RegSet.none, wait := .run, handler := true }) ∧
          q.v = p.v ∧ q.p = p.p ∧
          (∀ j, j < 124 → q.getS j = p.getS j) ∧
          q.getS 124 = BitVec.ofNat 32 (k.timm.toNat * 65536 + k.pfx.toNat * 256 + k.flt.code) ∧ q.getS 125 = k.flt.elem ∧
          q.getS 126 = f.pc.setWidth 32 ∧ q.getS 127 = (f.pc >>> 32).setWidth 32)) ∧
    (s.block? key = some b → b.warps[n]? = some p → p.ws = .draining →
      (acknowledged s key (.warp n) = false → exec (.warpFree key n) s = .next s) ∧
      (acknowledged s key (.warp n) = true → (∀ o ∈ b.ops, o.who = .warp n → o.st.over = true) →
        ∃ u, exec (.warpFree key n) s = .next u ∧ u.outside = s.outside ∧
          u.party? key (.warp n) = some { p with ws := .free, frags := [] })) ∧
    (s.block? key = some b →
      ((∃ p ∈ b.warps, p.ws ≠ .free) ∨ b.started = false ∨ b.flights ≠ [] → exec (.blockEnd key) s = .next s) ∧
      (b.started = true → copiesLeft s b = false → (∀ p ∈ b.warps, p.ws = .free) → (b.mcc = none ∨ b.mccEnded = true) →
        acknowledged s key .mcc = true → b.flights = [] → (∀ o ∈ b.ops, o.st.over = true) →
        ∃ u, exec (.blockEnd key) s = .next u ∧ u.block? key = none ∧ u.ms.mem = s.ms.mem ∧
          ∀ j, j ≠ key → (u.block? j).isSome = (s.block? j).isSome))

/-! ## The fault queue, debugging, and checks of storage -/

/-- R292, R293, R320–R324, R341–R344, R346, R372: the oldest waiting fault record is written at the ring's tail, or sets OVF while the
ring is full or disabled. FRESUME with ACT 0 releases the parked fragments, or the held operation, of its record; with ACT 1 the
launch loses its blocks and completes with fault status; without an open record it does nothing, and an answer for a block that is
halted or saved waits for it. An armed breakpoint or watch hit
stops the fragment before its word, freezes the cluster and reports. BCAST spreads a freeze, at an element boundary. The debug window
selects a block while one of the partition is frozen or saved, and writes one that is. A due sampling period is taken. A background or
patrol check counts what it corrects and marks what it cannot; the device account takes the energy of the scrub. The model's choices: a
record enters both views at once (log 109), the place of a context's words in the window is log 21's and what a write makes of some of
them log 106's, and the scrub is charged to the partition scrubPart names (log 26) by a free amount (log 102). -/
def Obligations.FaultsDebuggingAndChecks : Prop :=
  ∀ (s : State) (p cl n a sector off id : Nat) (seq : Word) (x : FaultRec) (key : Key) (who : Who) (lanes : Lanes) (q : Party)
      (b : Block) (o : EngOp) (l : Launch) (c : Ctx) (w : Nat) (i : Instr) (bd : Body) (val : DWord) (r : Nat) (fd : Finding)
      (fz : Freeze) (s2 : State) (act : Bool) (t1 : Posted) (t2 n2 : Nat),
    let d := s.part p
    let size := d.fqctl.toNat % 2 ^ 16 + 1
    let tail := d.fqtail.toNat
    let full := d.fqctl.getLsbD 31 = false ∨ (tail + 1) % size = d.fqhead.toNat % size
    let write := Instr.faultRecordWrite p
    let stops (j : Instr) (v : State) (code : Nat) (el : Word) (at_ : Nat) (src : Nat) : Prop :=
      ∃ u y z, exec j s = .next u ∧ u.ms = v.ms ∧ (u.cluster c.cl).frozen = true ∧ u.party? c.key c.who = some z ∧ noResult c z ∧
        z.frags = (lmod c.p.frags c.i (fun _ => { c.f with wait := .stopped })).map Frag.stopped ∧
        (u.part c.key.part).faults = (s.part c.key.part).faults ++ [y] ∧ y.code = code ∧ y.elem = el ∧ y.pc = c.f.pc.setWidth 64 ∧
        y.addr = BitVec.ofNat 64 at_ ∧ y.ticket = BitVec.ofNat 32 (src * 2048 + n * 256) ∧
        (u.part c.key.part).dbgctl.getLsbD 28 = true
    let s1 : State := { s with turn := .frag c.key c.who c.i, late := false }
    let c1 : Ctx := { c with sw := w / 2 ^ 30 % 2 == 1 }
    let k := s.cluster cl
    let per := 2 ^ (d.sampctl.toNat % 32)
    let due := d.sampctl.getLsbD 31 = true ∧ 10 ≤ d.sampctl.toNat % 32 ∧ d.sampctl.toNat % 32 ≤ 24 ∧ k.frozen = false ∧
      k.sample + per ≤ k.cyc / 10
    let win : Key := { part := p, grid := d.winGrid.toNat, blk := d.winBlk.toNat }
    let word0 := Config.windowElement off
    let word1 := Config.windowElement (off + 4)
    let val32 : Word := val.setWidth 32
    let counts (v : State) (part j : Nat) : State := v.modPart part fun y => { y with health := lmod y.health j fun h => h + 1 }
    let answers (v : Bool) : Instr := if v = true then .fresumeEndLaunch p seq else .fresumeRetry p seq
    let live : Prop := s.block? key = some b ∧ b.halted = false ∧ b.cluster? ≠ none
    let found := scrubFinds s sector fd
    let home := Config.scrubPart sector % 16
    (d.faults.find? (fun y => !y.written) = some x →
      (full → exec write s = .next (s.modPart p fun y => { y with fqctl := y.fqctl ||| 0x40000000 })) ∧
      (¬full → d.fqbase.toNat + 64 * tail + 64 ≤ 2 ^ 40 → wordFree s (d.fqbase.toNat + 64 * tail) 64 → ∃ u, exec write s = .next u ∧
        u.ms.mem = memWrite s.ms.mem (d.fqbase.toNat + 64 * tail) (recordBytes x) ∧
        u.ms.sys = memWrite s.ms.sys (d.fqbase.toNat + 64 * tail) (recordBytes x) ∧
        (u.part p).fqtail = BitVec.ofNat 16 ((tail + 1) % size) ∧
        (∀ y ∈ (u.part p).faults, y.seq = x.seq → y.written = true) ∧ u.blocks = s.blocks)) ∧
    (d.faults.find? (fun y => !y.written) = none → exec write s = .next s) ∧
    (openRecord s p seq = none → exec (.fresumeRetry p seq) s = .next s ∧ exec (.fresumeEndLaunch p seq) s = .next s) ∧
    (openRecord s p seq = some x →
      (x.target.key? = some key → s.block? key = some b → b.halted = true ∨ b.cluster? = none → draining s x.target = false →
        ∃ u, exec (answers act) s = .next u ∧ openRecord u p seq = none ∧ u.ms = s.ms ∧
          u.block? key = some { b with answers := b.answers ++ [(seq, act)] }) ∧
      (x.target = .party key who lanes → live → s.party? key who = some q →
        ∃ u, exec (.fresumeRetry p seq) s = .next u ∧ openRecord u p seq = none ∧ u.ms = s.ms ∧
          u.party? key who = some { q with frags := q.frags.map fun f => match f.wait with
            | .parked y => if y.seq = some seq then { f with wait := .run } else f
            | _ => f }) ∧
      (x.target = .posted t1 t2 key who n2 → live ∨ (s.block? key = some b ∧ draining s x.target = true) →
        ∃ u, exec (.fresumeRetry p seq) s = .next u ∧ openRecord u p seq = none ∧ u.ms.mem = s.ms.mem ∧
          u.ms.queue = s.ms.queue.map fun y => if y.held = some seq then { y with held := none, pa := none } else y) ∧
      (x.target = .engine key id → live → s.op? id = some (b, o) → o.st = .held → o.doom = false → Steady s (opHome s id) o.ch →
        ∃ u y, exec (.fresumeRetry p seq) s = .next u ∧ openRecord u p seq = none ∧ u.op? id = some (y, { o with
          st := if chanHead s (opHome s id) o.ch = some id then .running else .queued, heldSeq := none, code := 0, errElem := 0, charged := false })) ∧
      (x.target = .party key who lanes → live → s.launch? p x.grid.toNat = some l →
        ∃ u y, exec (.fresumeEndLaunch p seq) s = .next u ∧ openRecord u p seq = none ∧
          (∀ z ∈ u.blocks, z.key.part = p → z.key.grid ≠ x.grid.toNat) ∧ u.launch? p x.grid.toNat = some y ∧ y.fault = true ∧
          y.noMore = true ∧ u.ms.mem = s.ms.mem)) ∧
    (ctxOf s c.ref = some c → aboutToIssue s c = true →
      (breakUnit s c = none → exec (.breakpointHit c.ref) s = .next s) ∧
      (breakUnit s c = some n → dbgArm s c.key.part = true →
        stops (.breakpointHit c.ref) s 0x60 (BitVec.ofNat 32 c.elem) 0 1) ∧
      (breakUnit s c = none → Fetches s1 c c.f.pc w s2 → decodeWord w = .ok i → bodyOf i = some bd → i.wf = true →
        runsHere i c.who = true → bd.illop c1 = false → bd.grant c1 = true → outsideWindow c.p ((bd.reads c1).or (bd.writes c1)) = false →
        (((bd.reads c1).or (bd.writes c1)).or (RegSet.pr bd.guard)).meets c.f.pend = false → dbgArm s c.key.part = true →
        watchHit s2 c.key.part c.ref (bd.touch s2 c1 (if bd.perLane then c1.effLanes bd.guard else c.f.lanes)) = some (n, a) →
        stops (.watchpointHit c.ref) s2 0x61 (BitVec.ofNat 32 (bd.elem c1)) a 2)) ∧
    (d.dbgctl.getLsbD 30 = false → exec (.freezeSpread p cl) s = .next s) ∧
    (midway s cl = true → exec (.freezeSpread p cl) s = .next s) ∧
    (d.dbgctl.getLsbD 30 = true → d.dbgctl.getLsbD 28 = true → fz ∈ d.freezes → cl ∉ fz.clusters → x ∈ d.faults → x.seq ∈ fz.seqs →
      b ∈ s.blocks → b.key.part = p → b.key.grid = x.grid.toNat → b.place = .resident cl → midway s cl = false →
      ∃ u, exec (.freezeSpread p cl) s = .next u ∧ (u.cluster cl).frozen = true ∧ u.ms = s.ms ∧
        { fz with clusters := fz.clusters ++ [cl] } ∈ (u.part p).freezes ∧
        u.blocks = s.blocks.map fun y => if y.place = .resident cl then y.mapFrags Frag.stopped else y) ∧
    ((∀ y ∈ s.blocks, y.key.part = p → frozenBlock s y = false ∧ y.cluster? ≠ none) →
      exec (.debugWindowWrite p off val) s = .next s) ∧
    (b ∈ s.blocks → b.key.part = p → b.cluster? = none ∨ frozenBlock s b = true →
      exec (.debugWindowWrite p 0 val) s =
        .next (s.modPart p fun y => { y with winGrid := val.setWidth 32, winBlk := (val >>> 32).setWidth 32 })) ∧
    (off ≠ 0 → s.block? win = some b →
      (windowOpen s b = false → exec (.debugWindowWrite p off val) s = .next s) ∧
      (windowOpen s b = true → exec (.debugWindowWrite p off val) s =
        .next (putWordOf (putWordOf s win word0 (val.setWidth 32)) win word1 ((val >>> 32).setWidth 32))) ∧
      (windowOpen s b = true → (∀ j ∈ [word0, word1], (∀ y, j ≠ .gangBar y) ∧ ∀ y z, j ≠ .heldVa y z) →
        ∃ u, exec (.debugWindowWrite p off val) s = .next u ∧ u.outside = s.outside ∧ u.clusters = s.clusters ∧
          u.block? win = some (putCtx (putCtx b word0 (val.setWidth 32)) word1 ((val >>> 32).setWidth 32)))) ∧
    (b.party? who = some q → r < 128 → (putCtx b (.storage (.uniform who r)) 0).party? who = some (q.setS r 0)) ∧
    (b.warps[n]? = some q → q.win ≤ a → (putCtx b (.storage (.lane n a off)) 7).party? (.warp n) = some q) ∧
    (putCtx b .pool 7 = b ∧ (putCtx b .cslr val32).cslr = cslrWrite val32 ∧ (putCtx b .idem val32).idem = val32.getLsbD 0) ∧
    (s.ownerOf cl = some p →
      (¬due → exec (.pcSample cl) s = .next s) ∧
      (due → ∃ u, exec (.pcSample cl) s = .next u ∧ (u.cluster cl).sample = k.cyc / 10 / per * per ∧ u.blocks = s.blocks ∧
        ((∀ j, (s.part j).trctl.getLsbD 31 = false) → u.ms = s.ms))) ∧
    (s.block? key = some b → b.party? who = some q → r < 128 → q.ws ≠ .free →
      exec (.backgroundCheck key (.uniform who r) .clean) s = .next s ∧
      exec (.backgroundCheck key (.uniform who r) .corrected) s = .next (counts s key.part 0) ∧
      ∃ u, exec (.backgroundCheck key (.uniform who r) .uncorrectable) s = .next u ∧
        u.party? key who = some { q with poisS := q.poisS ||| 1#128 <<< r } ∧
        (u.part key.part).health = lmod (s.part key.part).health 1 (fun h => h + 1)) ∧
    (2 ^ 35 ≤ sector → exec (.patrolScrub sector fd) s = .next s) ∧
    (sector < 2 ^ 35 → sector / 4 ∉ s.ms.zlines → found ≠ .uncorrectable ∨ sector ∉ s.ms.badSect ∧ sectorBusy s sector = false →
      ∃ u, exec (.patrolScrub sector fd) s = .next u ∧ u.blocks = s.blocks ∧ u.ms.mem = s.ms.mem ∧
        (u.part home).deveacc = (s.part home).deveacc + Config.freeValue s.fresh ∧
        (u.part home).health = (match found with
          | .clean => (s.part home).health
          | .corrected => lmod (s.part home).health 0 (fun h => h + 1)
          | .uncorrectable => lmod (s.part home).health 1 (fun h => h + 1)) ∧
        u.ms.badSect = if found = .uncorrectable then s.ms.badSect ++ [sector] else s.ms.badSect)

/-! ## Packets -/

/-- R296–R299, R363, R364, R369, R370, R398: a round of one runnable queue acts on the packet at its head, and the queue's pass advances
by its stride; a LAUNCH places one unit. SIGNAL sets or adds to its word; WAIT is consumed when its word has reached the value, and else
sets BLK; LEASE makes the request; RESYNC writes the summary; FWACT keeps the running firmware when the image fails; one that verifies
is held while a save image blocks it, with HOLD 3, and else activates; TIMEREC stores DTIME; GRAPH begins its walk. A packet that is consumed adds its length to RPTR and clears BLK; an access that
fails halts the queue. A WAIT whose signal fires is consumed. A queue that becomes runnable takes no lower pass than the lowest. The
model's choices: HOLD is 1 or 2 by the MAGIC of the image (log 68), and the lantern cores' writes enter both views at once (log 109). -/
def Obligations.PacketsAct : Prop :=
  ∀ (s v u x y : State) (p q a g n va pa low lay : Nat) (pk b data : List Byte) (ns : List Node) (f : Failed) (l : Launch) (cl len : Nat)
      (w : Nat × DWord × Nat),
    let z := noteRunnable v p [q]
    let eff := effTickets z p [q] q
    let acts (ty : Nat) (j : Instr) : Prop := OneWork s p q v (.packet a pk) → packetType pk = ty →
      exec j s = .next (settled (chargeQueue (process (endRun z p) p q a pk) q eff 1) p)
    let asid := (y.part p).ringAsid
    let at16 := fieldAt pk 16 8
    let value := fieldAt pk 24 8
    let off (e : State) : State := consume e p q (packetLen pk)
    let base := (y.queue q).base
    (acts 2 (.graphPk q) ∧ acts 3 (.signalPk q) ∧ acts 4 (.waitPk q) ∧ acts 5 (.leasePk q) ∧ acts 6 (.resyncPk q) ∧
      acts 7 (.fwactPk q) ∧ acts 8 (.timerecPk q) ∧ ∀ ty, acts ty (.arbitrationRound p)) ∧
    (mayArbitrate s p = false → exec (.arbitrationRound p) s = .next s) ∧
    (OneWork s p q v (.unit a pk) → tryUnit z p q (.unit a pk) = (u, .placed g n) →
      exec (.launchPk q) s =
        .next (settled (chargeQueue (noteRun (u.unblock p q) p g n true) q eff n) p)) ∧
    (launchAt y p q = some l → placeHeld y l = false → l.lr.gangsz = 0 → fewestTasks y p l.lr = some cl →
      (tryUnit y p q (.unit a pk)).2 = .placed l.grid 1 ∧
        ((tryUnit y p q (.unit a pk)).1.cluster cl).tasks =
          (y.cluster cl).tasks ++ [{ part := p, grid := l.grid, blk := l.next }]) ∧
    (packetType pk = 3 →
      (fieldAt pk 32 1 = 0 → hubWrite y p asid at16 (leBytes 8 value) = (u, none) → process y p q a pk = off (tickHub u)) ∧
      (fieldAt pk 32 1 = 1 → hubRead y p asid at16 8 = (x, .ok b) →
        hubWrite x p asid at16 (leBytes 8 (leNat b + value % 2 ^ 64)) = (u, none) → process y p q a pk = off (tickHub u))) ∧
    (packetType pk = 4 → hubRead y p asid at16 8 = (u, .ok b) →
      (value ≤ leNat b % 2 ^ 64 → process y p q a pk = off u) ∧
      (leNat b % 2 ^ 64 < value → ((process y p q a pk).queue q).blk = true ∧
        ((process y p q a pk).queue q).wait = some (at16, BitVec.ofNat 64 value, fieldAt pk 32 2))) ∧
    (packetType pk = 5 →
      ((y.part p).lease.held = false → (y.part p).lease.pend = none →
        process y p q a pk = off ((y.modPart p fun r => { r with lease := { r.lease with
          pend := some (min 50000 (fieldAt pk 16 4), value, asid) } }).modHub fun h => { h with leaseQ := h.leaseQ ++ [p] })) ∧
      ((y.part p).lease.held = true → (y.part p).lease.stuck = false → hubWrite y p asid value (leBytes 4 2) = (u, none) →
        process y p q a pk = off ((tickHub u).modPart p fun r => { r with lease := { r.lease with owed := [] } }))) ∧
    (packetType pk = 6 → packetSigc pk = false → hubWrite y p asid at16 (summary y p) = (u, none) → process y p q a pk = off u) ∧
    (packetType pk = 7 →
      let slot := fieldAt pk 16 1
      (imgOk y.hub (y.hub.flash slot) = false → packetSigc pk = false →
        process y p q a pk = off (y.modPart p fun r => { r with
          hold := if fieldAt (imgHeader (y.hub.flash slot)) 0 4 = 0xA9B00700 then 1 else 2, holdLay := 0, holdQ := q })) ∧
      (imgOk y.hub (y.hub.flash slot) = true → blockingLayout y p slot = some lay →
        ((process y p q a pk).part p).fwPending = (y.part p).fwPending ++ [(slot, q)] ∧
        (process y p q a pk).hub.meas = measurements (y.hub.flash slot) ∧ (process y p q a pk).hub.image = y.hub.image ∧
        ((y.part p).fwPending = [] → holdNow (process y p q a pk) p = (3, lay, q))) ∧
      (imgOk y.hub (y.hub.flash slot) = true → blockingLayout y p slot = none → (y.queue q).held = some (a, pk) →
        packetSigc pk = false → ∃ e, process y p q a pk = off e ∧ e.hub.meas = measurements (y.hub.flash slot) ∧
          e.hub.image = slot ∧ e.hub.layouts = Config.fwLayouts e.hub.fwver ∧ e.hub.hostStart = y.hub.hostStart ∧ e.ms = y.ms)) ∧
    (packetType pk = 8 → hubWrite y p asid at16 (leBytes 8 (y.fcyc / 2)) = (u, none) → process y p q a pk = off (tickHub u)) ∧
    (packetType pk = 2 → readGraph y p at16 a = (u, .ok ns) → u.graph? q = none →
      ∃ h, (process y p q a pk).graph? q = some h ∧ h.nodes = ns ∧ h.part = p ∧ (∀ j, (h.run j).st = 0) ∧
        ((process y p q a pk).queue q).held = some (a, pk)) ∧
    ((y.queue q).wiped = false → hubRead y p asid (base + 8) 8 = (x, .ok b) →
      (hubWrite x p asid (base + 8) (leBytes 8 (leNat b + len)) = (u, none) →
        consume y p q len = (u.setQueue q (u.queue q).leave).unblock p q ∧ (u.queue q).leave.blk = false) ∧
      (hubWrite x p asid (base + 8) (leBytes 8 (leNat b + len)) = (u, some f) →
        ((consume y p q len).queue q).halt = true ∧ ∃ r, ((consume y p q len).part p).faults = (u.part p).faults ++ [r] ∧
          r.code = 0x71 ∧ r.grid = 0 ∧ r.blk = BitVec.ofNat 32 q ∧ r.addr = BitVec.ofNat 64 f.1)) ∧
    (va + data.length ≤ 2 ^ 55 → pa + data.length ≤ 2 ^ 40 →
      (∀ j, j < data.length → translate y 260 p asid (va + j) false true false = (y, .ok (pa + j)) ∧ wordFree y (pa + j) 1) →
      ∃ e, hubWrite y p asid va data = (e, none) ∧ e.ms.mem = memWrite y.ms.mem pa data ∧ e.ms.sys = memWrite y.ms.sys pa data) ∧
    ((y.queue q).wait = some w → queuePart y q = some p → (y.queue q).halt = false → y.hub.halted = false →
      hubRead y p asid w.1 8 = (u, .ok b) →
      (leNat b % 2 ^ 64 < w.2.1.toNat → exec (.waitSignalFires q) y = .next u) ∧
      (w.2.1.toNat ≤ leNat b % 2 ^ 64 → readHead u p q = (x, .whole a pk) → exec (.waitSignalFires q) y = .next (off x))) ∧
    (queuePart y q = some p → mayArbitrate y p = true → (y.queue q).was = false →
      ∀ ws, works y p = (u, ws) → (∃ e ∈ ws, e.1 = q) →
        lowestPass u ((ws.map fun e => e.1).filter fun j => (u.queue j).was) = some low →
        exec (.queueBecomesRunnable q) y =
          .next (u.setQueue q { u.queue q with was := true, qpass := BitVec.ofNat 64 (max (u.queue q).qpass.toNat low) }))

/-! ## Placement, graphs and completion -/

/-- R10, R32, R43, R288, R300–R303, R306, R333, R347, R361, R366: the head entry of a task queue is placed when the cluster has room: a
block of its launch's warps, one fragment a warp at the fetch block behind the header, its scratchpad clear. An exchange moves the
last entry of a deep task queue to its neighbour. The parts of a bundle start when its first run of rounds is over and its
blocks are placed, but for those that wait for others of it to end (log 60). A launch that is done
writes its time record and status and retires; one that passes its time limit ends with FAULT and TLIMIT. A graph node starts when it
is the lowest that may; a loop reads its word, and issues its body again or completes; a graph whose nodes are complete retires. A held
firmware image activates when no save image blocks it. QRST clears HALT and BLK and sets RPTR to WPTR. The model's choices: which blocks
of the first round a bundle's start waits for (log 60), an exchange at the cycles that 256 divides (log 61), and a time record or status
written at address 0 too (log 78). -/
def Obligations.PlacementGraphsAndCompletion : Prop :=
  ∀ (s u v x : State) (cl die i p g q j a slot : Nat) (k : Key) (l : Launch) (h : Graph) (pk bs : List Byte) (y : DWord) (val : DWord),
    let place := Instr.taskQueuePlacement cl
    let at_ (n : Nat) : Nat := die * 64 + n
    let depth (n : Nat) : Nat := (s.cluster (at_ n)).tasks.length
    let lo := (i + 63) % 64
    let hi := (i + 1) % 64
    let thr := balThr s (at_ i)
    let isOf (b : Block) : Bool := b.key.part = p && b.key.grid = g
    let e1 := beginCompletion s l
    let left := l.replaying && !l.fault && l.peat.any fun z => !z.used
    let l1 : Launch := { l with stage := 1, tend := s.dtime, fault := l.fault || left,
                                repdiv := l.repdiv || left || (l.replaying && l.prefix_) }
    let next (e : State) (st : Nat) : State := e.modLaunch p g fun z => { z with stage := st }
    let n := h.node j
    let node := Instr.graphNodeStart q j
    let loop := Instr.loopConditionRead q j
    let now (e : State) (st : Nat) : Prop := ∃ z, e.graph? q = some z ∧ (z.run j).st = st
    let it := (h.run j).iter + if (h.run j).st = 3 then 1 else 0
    let ending := (s.modGraph q fun z => { z with stage := max 1 z.stage }).modGraph q fun z => { z with stage := 2 }
    let clear := setSched (setSched s q 30 false) q 29 false
    let dropped := if (clear.queue q).held.isSome then clear.modQueue q fun z => { z with wiped := true } else dropHead clear p q
    let ready := (s.part p).fwPending.find? fun e => (blockingLayout s p e.1).isNone && !(s.queue e.2).halt
    (taskHead s cl = some (k, l) →
      (fits s cl l.lr = false → exec place s = .next s) ∧
      (fits s cl l.lr = true → s.block? k = none → l.copies = [] → ∃ u b, exec place s = .next u ∧
        (u.cluster cl).tasks = (s.cluster cl).tasks.filter (fun z => z != k) ∧ u.block? k = some b ∧ b.place = .resident cl ∧
        b.started = l.started ∧ b.scr = [] ∧ b.scrSize = l.lr.scratch ∧ b.cslr = l.lr.cslr ∧ b.pool = l.lr.pool ∧
        b.mcc.isSome = l.lr.hasMcc ∧ b.warps.length = l.lr.nwarps ∧
        ∀ w ∈ b.warps, w.win = l.lr.win ∧ w.exited = 0 ∧ w.limT = 0xFFFFFFFF ∧ w.limE = 0xFFFFFFFF ∧ w.limQ = 0xFFFF ∧
          w.frags.map (fun f => (f.lanes, f.pc, f.prg)) = [(widthMask l.lr.width, BitVec.ofNat 55 (l.lr.kaddr + 64), 0)])) ∧
    (s.fcyc % 256 = 0 → die < 4 → tabGet 0 s.exch die ≠ s.fcyc → i < 64 → thr ≠ 0 → depth hi + thr < depth i →
      depth i ≤ depth lo + thr → depth lo ≤ depth i + balThr s (at_ lo) → s.ownerOf (at_ i) = s.ownerOf (at_ hi) →
      ∃ u, exec (.balancingExchange die) s = .next u ∧ (u.cluster (at_ i)).tasks = (s.cluster (at_ i)).tasks.dropLast ∧
        tabGet 0 u.exch die = s.fcyc) ∧
    ((s.fcyc % 256 ≠ 0 ∨ tabGet 0 s.exch die = s.fcyc) → exec (.balancingExchange die) s = .next s) ∧
    (s.launch? p g = some l →
      (l.started = true ∨ l.inRun = true ∨ l.next = 0 ∨ firstWaits s l = true → exec (.bundleStart p g) s = .next s) ∧
      (l.started = false → l.inRun = false → 0 < l.next → firstWaits s l = false → l.stage = 0 → l.copies = [] →
        ∃ u, exec (.bundleStart p g) s = .next u ∧ u.launch? p g = some { l with started := true } ∧
          u.blocks = s.blocks.map (fun b => if isOf b then { b with started := true } else b)) ∧
      (l.stage = 0 → launchDone s l = false → exec (.launchCompletion p g) s = .next s) ∧
      (l.stage = 0 → launchDone s l = true → s.hub.halted = false → l.stuck = none → l.sigc = false →
        hubWrite e1 p l.lr.asid l.lr.trec (timeRecord l1) = (u, none) →
        hubWrite (next u 2) p l.lr.asid l.lr.stat (launchStatus l1) = (v, none) →
        (next u 2).launch? p g = some { l1 with stage := 2 } → (next v 3).launch? p g = some { l1 with stage := 3 } →
        ∃ t, exec (.launchCompletion p g) s = .next t ∧ t.launch? p g = none ∧ t.ms = v.ms ∧ t.blocks = v.blocks) ∧
      (overTime s l = false → exec (.timeLimitExpiry p g) s = .next s) ∧
      (overTime s l = true → ∃ t z, exec (.timeLimitExpiry p g) s = .next t ∧ t.launch? p g = some z ∧ z.fault = true ∧
        z.tlimit = true ∧ z.noMore = true ∧ ∀ b ∈ t.blocks, isOf b = false)) ∧
    (s.graph? q = some h → mayWalk s h = true →
      (h.lowest j = true → j < h.runs.length →
        (n.kind = 1 → ∃ t z, exec node s = .next t ∧ t.graph? q = some z ∧ (z.run j).st = 1 ∧ z.units = h.units ++ [j]) ∧
        (n.kind = 2 → signalWord s h.part n.addr n.value n.op = (u, none) → u.graph? q = some h →
          ∃ t, exec node s = .next t ∧ now t 2 ∧ t.ms = u.ms) ∧
        (n.kind = 3 → readWord64 s h.part n.addr = (u, .ok y) → u.graph? q = some h →
          ∃ t, exec node s = .next t ∧ now t (if n.value.toNat ≤ y.toNat then 2 else 1)) ∧
        (n.kind = 4 → ∃ t, exec node s = .next t ∧ now t 1)) ∧
      (n.kind = 4 → j < h.runs.length → (h.run j).st = 1 ∨ bodyDone h j = true →
        (n.value.toNat % 2 ^ 32 ≠ 0 → n.value.toNat % 2 ^ 32 ≤ it →
          ∃ t z, exec loop s = .next t ∧ t.graph? q = some z ∧ (z.run j).st = 2 ∧ z.lmax = true) ∧
        (n.value.toNat % 2 ^ 32 = 0 ∨ it < n.value.toNat % 2 ^ 32 →
          hubRead s h.part (s.part h.part).ringAsid n.addr 4 = (u, .ok bs) → u.graph? q = some h →
          (leNat bs = 0 → ∃ t, exec loop s = .next t ∧ now t 2) ∧
          (leNat bs ≠ 0 → ∃ t z, exec loop s = .next t ∧ t.graph? q = some z ∧ (z.run j).st = 3 ∧ (n.holds j = false → (z.run j).iter = it) ∧
            ∀ m, m < h.nodes.length → m < h.runs.length → m ≠ j → n.holds m = true → (z.run m).st = 0))) ∧
      ((∃ m ∈ h.level none, (h.run m).st ≠ 2) → exec (.graphCompletion q) s = .next s) ∧
      ((∀ m ∈ h.level none, (h.run m).st = 2) → h.stat = 0 → h.sigc = false → (ending.queue q).held = some (a, pk) →
        consume ending h.part q (packetLen pk) = u → (u.queue q).held = none →
        ∃ t, exec (.graphCompletion q) s = .next t ∧ t.graph? q = none ∧ t.ms = u.ms)) ∧
    (s.hub.halted = false →
      (ready = none → exec (.firmwareActivation p) s = .next s) ∧
      (ready = some (slot, q) → readHead s p q = (u, .whole a pk) → packetSigc pk = false → u.hub = s.hub →
        ∃ t, exec (.firmwareActivation p) s = .next t ∧ (t.part p).fwPending = (u.part p).fwPending.filter (fun e => e.2 != q) ∧
          t.hub.image = slot ∧ t.hub.layouts = Config.fwLayouts t.hub.fwver ∧
          t.hub.fwver = BitVec.ofNat 32 (fieldAt (imgHeader (s.hub.flash slot)) 8 4) ∧
          ∀ m, m < 16 → (t.lantern m).pc = BitVec.ofNat 64 (imgStage (imgHeader (s.hub.flash slot)) 0).addr)) ∧
    (val.getLsbD 0 = false → exec (.queueReset q val) s = .next s) ∧
    (val.getLsbD 0 = true → q < 4096 → queuePart s q = some p →
      ((clear.queue q).ringOk = false → ∃ t, exec (.queueReset q val) s = .next t ∧ (t.queue q).halt = false ∧ (t.queue q).blk = false ∧
        t.ms = s.ms) ∧
      (hubRead dropped p (dropped.part p).ringAsid (dropped.queue q).base 8 = (u, .ok bs) → (clear.queue q).ringOk = true →
        hubWrite u p (dropped.part p).ringAsid ((dropped.queue q).base + 8) bs = (x, none) →
        exec (.queueReset q val) s = .next x))

/-! ## Active sets, phases and saves -/

/-- R105, R308, R309, R311–R314, R326–R330, R349, R396: an active warp that waits changes places with the longest-ready pending one; a
pending warp enters a set with room at once, and after 4096 issue cycles takes the place of the busiest. The slice of a phase context
that expires asks its resident blocks to yield when the other context has work, and else starts again; the swap changes the context.
PREEMPT sets YR in the targeted blocks and starts their deadlines. A block that has yielded, or whose deadline has come, is halted;
once it rests it is saved where it fits, its context as it was, its call records with what was spent before the save, and its request
is done. A saved block is restored to its cluster. A cluster's energy goes to its blocks by their issues, and what is left to the device
account, with a free part that in-field tests and ballast have taken (log 102). -/
def Obligations.ActiveSetsPhasesAndSaves : Prop :=
  ∀ (s t : State) (cl pipe p spent : Nat) (i o : WarpName) (pi po : Party) (key : Key) (b : Block) (l : Launch) (pl : Place) (val : Word),
    let k := s.cluster cl
    let d := s.part p
    let swapped (j : Instr) (a z : WarpName) : Prop := ∃ u, exec j s = .next u ∧ u.ms = s.ms ∧
      (∀ q, u.party? z.1 (.warp z.2) = some q → q.ws = .active ∧ q.issues = 0) ∧
      (a ≠ z → ∀ q, u.party? a.1 (.warp a.2) = some q → q.ws = .pending)
    let active := warpsOf s cl pipe fun q => q.ws = .active
    let expires := phsw s p = true ∧ d.expired = none ∧ d.sliceEnd ≤ s.dtime ∧ s.hub.halted = false
    let saved (j : Instr) : Prop := ∃ u y, exec j s = .next u ∧ u.block? key = some y ∧ y.place = pl ∧ y.yr = false ∧ y.ly = false ∧
      y.halted = false ∧ y.ops = b.ops.map saveOp ∧ y.scr = b.scr ∧ y.tiles = b.tiles ∧ y.accs = b.accs ∧ y.bars = b.bars ∧ y.chans = b.chans ∧
      key ∉ (u.part key.part).target ∧ y.cslr = b.cslr ∧ y.cslrBy = (0, 0) ∧
      y.takers.map (fun z => (z.warp, z.n, z.at_)) = b.takers.map (fun z => (z.warp, z.n, 0)) ∧
      (∀ (n : Nat) (q : Party), b.warps[n]? = some q → ∃ w : Party, y.warps[n]? = some w ∧ w.v = q.v ∧ w.s = q.s ∧ w.p = q.p ∧ w.fmode = q.fmode ∧
        w.joins = q.joins ∧ w.rets = q.rets ∧ w.trap = q.trap ∧
        (q.ws ≠ .free → q.ws ≠ .draining → w.calls = q.calls.map fun z => { z with tacc := (spentT k z).toNat, eacc := (spentE k z).toNat }))
    let em := k.em + BitVec.ofNat 64 spent
    let dev := (Config.freeValue s.fresh).toNat % (spent + 1)
    let gain := (em - k.emBase - BitVec.ofNat 64 dev).toNat
    let here := s.blocks.filter fun z => z.place = .resident cl
    let owner := (s.ownerOf cl).getD 0
    let rest := { s with fresh := s.fresh + 1 }.setCluster cl { k with em := em, emBase := em }
    (k.frozen = true → exec (.warpExchange cl pipe) s = .next s ∧ exec (.pendingPromotion cl pipe) s = .next s) ∧
    (k.frozen = false → longestReady s cl pipe = some (i, pi) →
      (exchangeOut s cl pipe (llthrOf s cl) = some (o, po) → swapped (.warpExchange cl pipe) o i) ∧
      (exchangeOut s cl pipe (llthrOf s cl) = none → exec (.warpExchange cl pipe) s = .next s) ∧
      (active.length < 8 → ∃ u, exec (.pendingPromotion cl pipe) s = .next u ∧ u.ms = s.ms ∧
        ∀ q, u.party? i.1 (.warp i.2) = some q → q.ws = .active) ∧
      (8 ≤ active.length → 40960 + pi.since - 1 ≤ k.cyc → busiest s cl pipe = some (o, po) → swapped (.pendingPromotion cl pipe) o i) ∧
      (8 ≤ active.length → k.cyc < 40960 + pi.since - 1 → exec (.pendingPromotion cl pipe) s = .next s)) ∧
    (¬expires → exec (.phaseSliceExpiry p) s = .next s) ∧
    (expires → otherWork s p = true → ∃ u, exec (.phaseSliceExpiry p) s = .next u ∧ (u.part p).expired = some d.sliceEnd ∧
      u.blocks = s.blocks.map fun z =>
        if z.cluster?.isSome = true ∧ inPhase s p d.phase z = true then { z with ly := true } else z) ∧
    (expires → otherWork s p = false →
      exec (.phaseSliceExpiry p) s = .next (s.setPart p { d with sliceEnd := s.dtime + qtmNs d d.phase })) ∧
    (d.expired = none ∨ swapReady s p = false → exec (.phaseSwap p) s = .next s) ∧
    (d.expired.isSome = true → swapReady s p = true → s.hub.halted = false → swap s p = some t →
      exec (.phaseSwap p) s = .next t ∧ (t.part p).phase = 1 - d.phase ∧ (t.part p).expired = none) ∧
    (s.block? key = some b → runCluster s key = some cl → s.launch? key.part key.grid = some l → blockMayEnd s b = false →
      (b.yr = false → b.ly = false → exec (.blockYield key) s = .next s) ∧
      (b.halted = false → b.yielded = false → exec (.blockYield key) s = .next s) ∧
      (b.yr = false → b.ly = true → b.halted = false → b.yielded = true → ∃ u y, exec (.blockYield key) s = .next u ∧
        u.block? key = some y ∧ y.halted = true ∧ y.place = b.place ∧ u.ms = s.ms) ∧
      (b.yr = true → b.halted = true → unitHere s l key = [b] → b.dest ≠ 2 → quiet s b = true → savePlace s b l.lr (some cl) b.dest = some pl →
        saved (.blockYield key) ∧ saved (.forcedSave key)) ∧
      (b.yr = true → b.halted = false → (∀ n, b.deadline = some n → k.cyc < n) → exec (.forcedSave key) s = .next s)) ∧
    (restoreOne s p = none → exec (.savedUnitRestore p) s = .next s) ∧
    (savedUnits s p = [b] → s.launch? p b.key.grid = some l → unitOf s l b.key = [b] → s.block? b.key = some b →
      b.place = .shadow cl → fits s cl l.lr = true → b.answers = [] →
      ∃ u y, exec (.savedUnitRestore p) s = .next u ∧ u.block? b.key = some y ∧ y.place = .resident cl ∧ y.scr = b.scr ∧
        y.tiles = b.tiles ∧ y.accs = b.accs) ∧
    (16 ≤ p → exec (.preemptRequest p val) s = .next s) ∧
    (p < 16 → val.getLsbD 31 = true →
      (d.prectl.getLsbD 31 = true → exec (.preemptRequest p val) s = .next s) ∧
      (d.prectl.getLsbD 31 = false → bitsAt val.toNat 28 2 = 3 →
        exec (.preemptRequest p val) s = .next (s.setPart p { d with prectl := d.prectl ||| 0x08000000 })) ∧
      (d.prectl.getLsbD 31 = false → bitsAt val.toNat 28 2 ≠ 3 → ∃ u, exec (.preemptRequest p val) s = .next u ∧ u.ms = s.ms ∧
        (u.part p).prectl.getLsbD 31 = !(targets s p (bitsAt val.toNat 28 2)).isEmpty ∧
        (b ∈ targets s p (bitsAt val.toNat 28 2) → s.block? key = some b → b.place = .resident cl →
          u.block? key = some { b with
            yr := true, dest := bitsAt val.toNat 28 2,
            deadline := some (k.cyc + if val.getLsbD 30 then 0 else 10 * d.ydl.toNat) }))) ∧
    (256 ≤ cl → exec (.energyApportion cl spent) s = .next s) ∧
    (cl < 256 → here = [] → exec (.energyApportion cl spent) s =
      .next (rest.modPart owner fun q => { q with deveacc := q.deveacc + BitVec.ofNat 64 (dev + gain) })) ∧
    (cl < 256 → here = [b] → s.launch? b.key.part b.key.grid = some l → ∃ u, exec (.energyApportion cl spent) s = .next u ∧
      (u.launch? b.key.part b.key.grid).map (fun z => z.energy) = some (l.energy + gain * b.issues / max 1 b.issues) ∧
      (u.part owner).deveacc = (s.part owner).deveacc + BitVec.ofNat 64 (dev + (gain - gain * b.issues / max 1 b.issues)) ∧
      (u.cluster cl).em = em ∧ (u.cluster cl).emBase = em)


/-- R101, R102, R105, R308, R311, R312, R314, R326, R327, R331, R349, R396: where these complete. JSET of a target in range with a free
record adds a record for its lanes and goes on. JOIN with its results returned leaves each lane at the record it waits for or behind
the JOIN. A pending warp that has been ready longest enters the active set, for one that gives way or when there is room. An expired
slice asks its blocks to yield when the other context has work; the swap, when every outgoing block fits somewhere, runs the other
context. A block that has yielded to a phase is halted; one at rest whose save was asked for is saved; a saved block is restored where
it fits. A request to pre-empt is taken up, and spent energy is on the meter. -/
def Obligations.JoinsExchangesPhasesAndSavesComplete : Prop :=
  (∀ (s : State) (c : Ctx) (sw : BitVec 1) (g : BitVec 2) (o : BitVec 22),
    let t : Int := c.f.pc.toNat / 64 * 64 + 64 * o.toInt
    Stands s c (.jset sw g o) RegSet.none RegSet.none g.toNat → c.effLanes g.toNat ≠ 0 → c.p.joins.length < 8 → 0 ≤ t → t < 2 ^ 55 →
    ∃ u, exec (.jset sw g o) s = .next u ∧ ∃ p, u.party? c.key c.who = some p ∧ noResult c p ∧
      (∃ n, p.joins = c.p.joins ++ [{ id := n, pc := BitVec.ofInt 55 t, mask := c.effLanes g.toNat, arrived := 0 }]) ∧
      p.frags = lmod c.p.frags c.i (fun _ => c.behind s sw RegSet.none)) ∧
  (∀ (s : State) (c : Ctx) (sw : BitVec 1), Stands s c (.join sw) RegSet.none RegSet.none 0 → resultsOut s c.key c.who c.f = false →
    (∀ x ∈ c.p.joins, ∀ y ∈ c.p.joins, x.id = y.id → x.pc = y.pc) →
    ∃ u, exec (.join sw) s = .next u ∧ ∃ p, u.party? c.key c.who = some p ∧ noResult c p ∧
      ∀ L, c.f.lanes.getLsbD L = true → ∃ f ∈ p.frags, f.lanes.getLsbD L = true ∧
        (f.pc = c.f.pc + 4 ∨ ∃ r ∈ c.p.joins, r.pc = c.f.pc ∧ f.wait = .join r.id)) ∧
  (∀ (s : State) (cl pipe : Nat) (i o : WarpName) (pi po : Party),
    let enters (j : Instr) : Prop := ∃ u, exec j s = .next u ∧
      u.party? i.1 (.warp i.2) = some { pi with ws := .active, issues := 0, since := 0 }
    let changes (j : Instr) : Prop := ∃ u, exec j s = .next u ∧
      u.party? i.1 (.warp i.2) = some { pi with ws := .active, issues := 0, since := 0 } ∧
      u.party? o.1 (.warp o.2) = some { po with ws := .pending, since := 0 }
    (s.cluster cl).frozen = false → longestReady s cl pipe = some (i, pi) → s.party? i.1 (.warp i.2) = some pi →
    ((warpsOf s cl pipe fun q => q.ws = .active).length < 8 → enters (.pendingPromotion cl pipe)) ∧
    (s.party? o.1 (.warp o.2) = some po → i ≠ o →
      (exchangeOut s cl pipe (llthrOf s cl) = some (o, po) → changes (.warpExchange cl pipe)) ∧
      (8 ≤ (warpsOf s cl pipe fun q => q.ws = .active).length → 40960 + pi.since - 1 ≤ (s.cluster cl).cyc →
        busiest s cl pipe = some (o, po) → changes (.pendingPromotion cl pipe)))) ∧
  (∀ (s : State) (p : Nat), s.hub.halted = false →
    (phsw s p = true → (s.part p).expired = none → (s.part p).sliceEnd ≤ s.dtime → otherWork s p = true →
      ∃ u, exec (.phaseSliceExpiry p) s = .next u ∧ (u.part p).expired = some (s.part p).sliceEnd ∧
        ∀ b ∈ u.blocks, b.cluster?.isSome = true → inPhase s p (s.part p).phase b = true → b.ly = true) ∧
    ((s.part p).expired.isSome = true → swapReady s p = true → (swap s p).isSome = true →
      ∃ u, exec (.phaseSwap p) s = .next u ∧ (u.part p).phase = 1 - (s.part p).phase ∧ (u.part p).expired = none)) ∧
  (∀ (s : State) (key : Key) (b : Block) (cl : Nat) (l : Launch) (pl : Place),
    s.block? key = some b → runCluster s key = some cl → s.launch? key.part key.grid = some l → blockMayEnd s b = false →
    (b.yr = false → b.ly = true → b.halted = false → b.yielded = true →
      ∃ u, exec (.blockYield key) s = .next u ∧ ∃ y, u.block? key = some y ∧ y.halted = true) ∧
    (b.yr = true → b.halted = true → unitHere s l key = [b] → b.dest ≠ 2 → quiet s b = true →
      savePlace s b l.lr (some cl) b.dest = some pl →
      ∃ u, exec (.forcedSave key) s = .next u ∧ ∃ y, u.block? key = some y ∧ y.place = pl ∧ y.yr = false)) ∧
  (∀ (s : State) (b : Block) (cl : Nat) (l : Launch),
    s.block? b.key = some b → s.launch? b.key.part b.key.grid = some l → savedUnits s b.key.part = [b] → unitOf s l b.key = [b] →
    b.place = .shadow cl → fits s cl l.lr = true → b.answers = [] →
    ∃ u, exec (.savedUnitRestore b.key.part) s = .next u ∧ ∃ y, u.block? b.key = some y ∧ y.place = .resident cl) ∧
  (∀ (s : State) (p : Nat) (val : Word), p < 16 → val.getLsbD 31 = true → bitsAt val.toNat 28 2 ≠ 3 →
    (s.part p).prectl.getLsbD 31 = false →
    ∃ u, exec (.preemptRequest p val) s = .next u ∧ (u.part p).target = (targets s p (bitsAt val.toNat 28 2)).map fun b => b.key) ∧
  ∀ (s : State) (cl spent : Nat), cl < 256 →
    ∃ u, exec (.energyApportion cl spent) s = .next u ∧ (u.cluster cl).em = (s.cluster cl).em + BitVec.ofNat 64 spent ∧
      (u.cluster cl).emBase = (s.cluster cl).em + BitVec.ofNat 64 spent

/-! ## Host registers -/

/-- R258, R259, R281, R287, R373–R375, R378, R379, R381, R382: an invalidation request that names another partition's ASID sets ERR and
does nothing; else GO is set, and once the earlier writes of the host core that asked are done the covered translations are gone and GO
reads 0; a load or atomic that issued before, and that the new tables refuse, goes first. A system-call
entry is written at the ring's tail while the ring is enabled and not full; its reply goes to the waiting fragment, once its cluster runs, a mark makes the
wait I/O, and an end takes the launch's blocks; a number that is not open is ignored. An arrived mailbox record takes the next slot
when one is free; HEAD moves over records that are there, else ERR is set. MEASEXT extends MEAS9; SVNRAISE only raises MINSVN; the
attestation report that ATTGO asks for is signed by the scheme of R376 under the modulus in IDCERT. A configuration write of an enabled
partition is refused. HMAP is fixed once LOCK is 1. A register write that is unaligned, or that its agent does not reach, is ignored,
and every one while the hub is halted. The model's choices: what TLBICTL leaves open, with the loads that go before it (log 52), the
place of the modulus and a free salt (log 18), unaligned and unreached writes (log 71), and a call entry that enters both views at once
(log 109). -/
def Obligations.HostRegisters : Prop :=
  ∀ (s : State) (p k : Nat) (asid : BitVec 10) (seq : Word) (c : Call) (x : Ctx) (l : Launch) (h : BitVec 16) (r : FragRef)
      (rest : List FragRef) (data : List Word) (digest : BitVec 256) (val : DWord) (w : Word) (who : HubAgent) (addr : BitVec 48)
      (off : Nat) (v u : State) (no : Bool),
    let d := s.part p
    let inv (kind : Nat) (j : Instr) : Prop :=
      let named := BitVec.ofNat 32 (kind * 1024 + asid.toNat) ||| (d.tlbictl &&& 0x40000000)
      let own := kind = 3 ∨ asidPart s asid.toNat = p
      (16 ≤ p ∨ d.tlbiGo = true → exec j s = .next s) ∧
      (p < 16 → d.tlbiGo = false → ¬own → exec j s = .next (s.setPart p { d with tlbictl := named ||| 0x40000000 })) ∧
      (p < 16 → d.tlbiGo = false → own → exec j s = .next (s.setPart p { d with
        tlbictl := named ||| 0x80000000, tlbiWait := (s.ms.hostw.filter fun v => !v.done && agentHart who = some v.hart).map fun v => v.id }))
    let va := d.tlbiva.toNat
    let name := d.tlbictl.toNat % 1024
    let cov := tlbiOf s p (d.tlbictl.toNat / 1024 % 4) name
    let gone := s.modMs fun ms => { ms with tlb := ms.tlb.filter fun e => !tlbiCovers s p (d.tlbictl.toNat / 1024 % 4) name va e }
    let pending := ∃ y ∈ s.ms.hostw, y.id ∈ d.tlbiWait ∧ y.done = false
    let covered (e : TlbEntry) : Prop := match d.tlbictl.toNat / 1024 % 4 with
      | 0 => e.asid = name ∧ e.size ≠ 2 ^ 29 ∧ e.base ≤ va ∧ va < e.base + e.size
      | 1 => e.asid = name ∧ e.base / 2 ^ 29 = va / 2 ^ 29
      | 2 => e.asid = name
      | _ => e.part = p ∨ asidPart s e.asid = p
    let size := d.scctl.toNat % 4096 + 1
    let head := d.scpos.toNat / 65536
    let tail := d.scpos.toNat % 65536
    let at_ := d.scbase.toNat + 64 * tail
    let full := d.scctl.getLsbD 31 = false ∨ (tail + 1) % size = head % size
    let entry := callBytes d.nextCall c (threadOf x.l.lr.width x.who x.f.lanes)
    let calls (f : Call → Call) : State := s.setPart p { d with calls := d.calls.map fun y => if y.seq = some seq then f y else y }
    let replied := calls fun y => { y with reply := some d.scrply }
    let mhead := d.mbpos.toNat / 65536
    let mtail := d.mbpos.toNat % 65536
    let pc (reg : PartReg) : Instr := .partctlWrite p reg val
    let refused : Host.Outcome State Fault Refusal := .next (s.modHub fun u => { u with parterr := true })
    let reg (o : Nat) : Instr := .registerWrite who (BitVec.ofNat 48 (0x010000010000 + p * 0x1000 + o)) val
    inv 0 (.tlbiPage ⟨who, p⟩ asid) ∧ inv 1 (.tlbiRegion ⟨who, p⟩ asid) ∧ inv 2 (.tlbiAsid ⟨who, p⟩ asid) ∧ inv 3 (.tlbiPartition ⟨who, p⟩ asid) ∧
    (agentHart (.host k) = some k ∧ agentHart (.lantern k) = none) ∧
    (d.tlbiGo = false ∨ pending → exec (.tlbiComplete p) s = .next s) ∧
    (d.tlbiGo = true → ¬pending → renewReads gone cov = (v, no) →
      (no = true ∨ (renewRows v cov).2 = true → exec (.tlbiComplete p) s = .next s) ∧
      (no = false → renewRows v cov = (u, false) → ∃ t, exec (.tlbiComplete p) s = .next t ∧ (t.part p).tlbiGo = false ∧
        t.ms.mem = u.ms.mem ∧ t.ms.tlb = u.ms.tlb ∧ t.blocks = u.blocks ∧
        ∀ y ∈ t.ms.queue, cov y.key = true → y.kind.rw.1 = false ∨ y.kind.waits = true → y.pa = none)) ∧
    (d.tlbiGo = true → ¬pending →
      (∀ y ∈ s.ms.queue, cov y.key = true → y.kind.rw.1 = false ∨ y.kind.waits = true ∨ y.pa = none) →
      (∀ y ∈ s.blocks, cov y.key = true → ∀ o ∈ y.ops, o.word = 0) →
      ∃ t, exec (.tlbiComplete p) s = .next t ∧ (t.part p).tlbiGo = false ∧ t.ms.mem = s.ms.mem ∧ t.blocks = s.blocks ∧
        ∀ e, e ∈ t.ms.tlb ↔ e ∈ s.ms.tlb ∧ ¬covered e) ∧
    (waitingCall s p = none → exec (.syscEntryWrite p) s = .next s) ∧
    (waitingCall s p = some c → ctxOf s c.f = some x →
      (full → exec (.syscEntryWrite p) s = .next s) ∧
      (¬full → at_ + entry.length ≤ 2 ^ 40 → wordFree s at_ entry.length → ∃ u, exec (.syscEntryWrite p) s = .next u ∧
        u.ms.mem = memWrite s.ms.mem at_ entry ∧ u.ms.sys = memWrite s.ms.sys at_ entry ∧
        (u.part p).scpos = BitVec.ofNat 32 (head * 65536 + (tail + 1) % size) ∧ (u.part p).nextCall = d.nextCall + 1 ∧
        u.party? x.key x.who = some { x.p with frags := lmod x.p.frags x.i fun _ => { x.f with wait := .sysc d.nextCall } })) ∧
    (openCall s p seq = none →
      exec (.scactReply p seq) s = .next s ∧ exec (.scactMarkIo p seq) s = .next s ∧ exec (.scactEndLaunch p seq) s = .next s) ∧
    (openCall s p seq = some c →
      (runCluster s c.f.key = none → exec (.scactReply p seq) s = .next replied) ∧
      ((runCluster s c.f.key).isSome = true → ctxOf replied c.f = some x → acquireDone x replied (fun _ => true) = true →
        ∃ u, exec (.scactReply p seq) s = .next u ∧ u.ms = s.ms ∧ openCall u p seq = none ∧
          u.party? x.key x.who = some { x.p.setSs c.reg d.scrply with
            frags := lmod x.p.frags x.i fun _ => { x.f with
              pc := x.pcNext, pend := RegSet.ss c.reg 4, out := x.f.out.or (RegSet.ss c.reg 4), wait := .run } }) ∧
      exec (.scactMarkIo p seq) s = .next (calls fun y => { y with io := true }) ∧
      (s.launch? p c.f.key.grid = some l → ∃ u y, exec (.scactEndLaunch p seq) s = .next u ∧ u.ms.mem = s.ms.mem ∧
        (∀ z ∈ u.blocks, z.key.part = p → z.key.grid ≠ c.f.key.grid) ∧ u.launch? p c.f.key.grid = some y ∧ y.fault = true)) ∧
    (d.mbWait = [] → exec (.mailboxRecordWrite p) s = .next s) ∧
    (d.mbWait = r :: rest →
      (64 ≤ (mtail + 65536 - mhead) % 65536 → exec (.mailboxRecordWrite p) s = .next s) ∧
      ((mtail + 65536 - mhead) % 65536 < 64 → ctxOf s r = some x → x.f.wait = .mbox data →
        ∃ u, exec (.mailboxRecordWrite p) s = .next u ∧ u.ms = s.ms ∧ (u.part p).mbWait = rest ∧
          (u.part p).mbpos = BitVec.ofNat 32 (mhead * 65536 + (mtail + 1) % 65536) ∧
          (u.part p).slots = lmod d.slots (mtail % 64) (fun _ =>
            { data := data, grid := BitVec.ofNat 32 x.key.grid, blk := BitVec.ofNat 32 x.key.blk,
              thread := threadOf x.l.lr.width x.who x.f.lanes, dtime := BitVec.ofNat 64 s.dtime }) ∧
          u.party? x.key x.who = some { x.p with
            frags := lmod x.p.frags x.i fun _ => { x.f with pc := x.pcNext, pend := RegSet.none, wait := .run } })) ∧
    exec (.mailboxHeadWrite p h) s = .next (s.setPart p
      (if (h.toNat + 65536 - mhead) % 65536 ≤ (mtail + 65536 - mhead) % 65536 then
        { d with mbpos := BitVec.ofNat 32 (h.toNat * 65536 + mtail) }
      else { d with mbctl := d.mbctl ||| 0x40000000 })) ∧
    (s.hub.halted = true → exec (.measextWrite digest) s = .next s ∧ exec (.svnraiseWrite w) s = .next s ∧
      exec (.registerWrite who addr val) s = .next s) ∧
    (s.hub.halted = false → exec (.measextWrite digest) s = .next (s.modHub fun u => { u with
        meas := lmod u.meas 9 fun m => digestReg (sha256 (digestBytes m ++ digestBytes digest)) }) ∧
      exec (.svnraiseWrite w) s = .next (s.modHub fun u => { u with minsvn := BitVec.ofNat 32 (max u.minsvn.toNat w.toNat) })) ∧
    (s.hub.attgo = false ∨ s.hub.halted = true → exec .attestation s = .next s) ∧
    (s.hub.attgo = true → s.hub.halted = false → s.hub.meas.length = 10 → ∃ b, exec .attestation s =
        .next ({ s with fresh := s.fresh + 4 }.modHub fun u => { u with attbuf := b, attgo := false }) ∧
      memRead b 0 376 = leBytes 4 0xA9A70001 ++ wordBytes s.hub.fwver ++ wordBytes s.hub.svn ++ leBytes 4 0 ++ leBytes 8 s.dtime ++
        digestBytes s.hub.nonce ++ s.hub.meas.flatMap digestBytes ∧
      let modulus := memRead s.hub.idcert 0 384
      let salt := (List.range 4).flatMap fun j => leBytes 8 (Config.freeValue (s.fresh + j)).toNat
      ∀ i, i < 384 → memGet b (376 + i) =
        (pssSign modulus (Config.identityExponent (beNat modulus)) salt (memRead b 0 376)).getD i 0) ∧
    (p < 16 → d.partctl.getLsbD 31 = true →
      exec (pc (.clus k)) s = refused ∧ exec (pc .pq) s = refused ∧
      (val.toNat % 65536 ≠ d.partctl.toNat % 65536 → exec (pc .ctl) s = refused) ∧
      (val.toNat % 65536 = d.partctl.toNat % 65536 → val.getLsbD 31 = false →
        (disableOk s p = false → exec (pc .ctl) s = refused) ∧
        (disableOk s p = true → exec (pc .ctl) s = .next (s.setPart p { d with partctl := val &&& 0xFFFF })))) ∧
    (p < 16 → d.partctl.getLsbD 31 = false →
      exec (pc (.clus k)) s = .next (s.setPart p { d with pclus := lmod d.pclus k fun _ => val }) ∧
      exec (pc .pq) s = .next (s.setPart p { d with pq := val.setWidth 32 &&& 0x0FFF1FFF }) ∧
      (val.getLsbD 31 = false → exec (pc .ctl) s = .next (s.setPart p { d with partctl := val &&& 0xFFFF })) ∧
      (val.getLsbD 31 = true → enableOk s p { d with partctl := val &&& 0x8000FFFF } = false → exec (pc .ctl) s = refused) ∧
      (val.getLsbD 31 = true → enableOk s p { d with partctl := val &&& 0x8000FFFF } = true →
        exec (pc .ctl) s = .next (s.setPart p { d with partctl := val &&& 0x8000FFFF, nextGrid := 1 }))) ∧
    (s.hub.hmap.getLsbD 31 = true → exec (.hmapWrite w) s = .next s) ∧
    (s.hub.hmap.getLsbD 31 = false → ∃ u, exec (.hmapWrite w) s = .next u ∧ u.hub.hmap = w &&& 0x80000001 ∧ u.blocks = s.blocks ∧
      (w.getLsbD 0 = s.hub.hmap.getLsbD 0 → u.ms = s.ms)) ∧
    (addr.toNat % 8 ≠ 0 → exec (.registerWrite who addr val) s = .next s) ∧
    (p < 16 → off < 512 → s.hub.halted = false →
      (reaches s p who = false → exec (reg (8 * off)) s = .next s) ∧
      (reaches s p who = true →
        exec (reg 0x008) s = .next (s.setPart p { d with llthr := val.setWidth 32 &&& 0xFFFF }) ∧
        exec (reg 0x010) s = .next (s.setPart p { d with qtm0 := val.setWidth 32 &&& 0xFFFFFF }) ∧
        exec (reg 0x050) s = .next (s.setPart p { d with fqhead := val.setWidth 16 }) ∧
        exec (reg 0x080) s = .next (s.setPart p { d with ydl := val.setWidth 32 }) ∧
        exec (reg 0x088) s = .next (s.setPart p { d with pretgt := val.setWidth 32 }) ∧
        exec (reg 0x0C0) s = .next (s.setPart p { d with tlbiva := val &&& 0x007FFFFFFFFFFFFF }))) ∧
    (s.hub.halted = false → exec (.registerWrite (.host k) 0x010000013060 (w.setWidth 64 <<< 32)) s = exec (.fresumeRetry 3 w) s) ∧
    exec (.registerWrite (.lantern k) (BitVec.ofNat 48 (0x010000000000 + 8 * off % 0x10000)) val) s = .next s

/-! ## Power and links -/

/-- R352–R354, R376–R379, R383: the arbiter grants the oldest lease request while the module power, times 1.1, is at most 4.6 kW, and
writes 1, with the rails then at the boosted point; else it writes 2. Above 4.6 kW it notifies the leases that do not end within 200 µs,
and writes 3, from which the notice runs. A lease ends at its granted or its notified end, whichever comes first, and is written 4. The rails are at the boosted point while a lease is held. A reset of the module starts the first image that verifies, the
one of the higher SVN first; when none does, the hub is halted and FAULTN is low. A flit with a bad CRC or a SEQ out of order asks for
a replay; one with a reserved TYPE, or for another module when it terminates here, is dropped and counted; one that does not is sent on
with the next SEQ of its port, and kept there; else it is delivered. A port that fails retraining is down, and a port that has trained is
up. The model's choices: training clears DOWN (log 72), RVK shows a revocation once its 3 is written (log 74), and which modules end
here, and the port to the others, are free (log 17). -/
def Obligations.PowerBootAndLinks : Prop :=
  ∀ (s : State) (p mw port us sig asid : Nat) (rest : List Nat) (hdr : DWord) (payload : BitVec 512),
    let d := s.part p
    let leased (f : LeaseState → LeaseState) : State := s.setPart p { d with lease := f d.lease }
    let taken := s.modHub fun u => { u with leaseQ := rest }
    let svnA := fieldAt (imgHeader s.hub.flashA) 4 4
    let svnB := fieldAt (imgHeader s.hub.flashB) 4 4
    let first := if svnA < svnB then 1 else 0
    let ok (slot : Nat) : Bool := imgOk s.hub (s.hub.flash slot)
    let starts (slot : Nat) : Prop := ∃ u, exec .moduleReset s = .next u ∧ u.hub.image = slot ∧ u.hub.halted = false ∧
      u.hub.fwver.toNat = fieldAt (imgHeader (s.hub.flash slot)) 8 4 ∧ u.hub.meas = measurements (s.hub.flash slot) ∧
      u.hub.minsvn = s.hub.minsvn ∧ u.blocks = [] ∧ u.launches = [] ∧
      (∀ n, n < 16 → (u.lantern n).pc.toNat = (imgStage (imgHeader (s.hub.flash slot)) 0).addr) ∧
      ∀ n g, n < 32 → (imgStages (imgHeader (s.hub.flash slot))).find? (fun y => y.target = 1) = some g → (u.hart n).pc.toNat = g.addr
    let z := s.port port
    let bad := flitCrc hdr payload ≠ hdr.setWidth 16 ∨ hdr.toNat / 65536 % 65536 ≠ z.nextRx.toNat
    let dst := hdr.toNat / 2 ^ 54
    let away := dst ≠ s.hub.flid.toNat
    let dropped := 3 ≤ hdr.toNat / 2 ^ 40 % 16 ∨ (away ∧ Config.linkEnds dst = true)
    let taken1 : State := s.modPort port fun y => { y with nextRx := y.nextRx + 1 }
    let next := Config.linkPort dst % 16
    let sealed (y : Port) : DWord :=
      let g := (hdr &&& 0xFFFFFFFF00000000) ||| BitVec.ofNat 64 (y.nextTx.toNat * 65536)
      g ||| (flitCrc g payload).setWidth 64
    let ends := min d.lease.endAt (d.lease.notice.getD d.lease.endAt)
    let gets : Instr := .flitReceive port hdr payload
    (s.hub.leaseQ = [] → exec (.leaseDecision mw) s = .next s) ∧
    (s.hub.leaseQ = p :: rest → d.lease.pend = some (us, sig, asid) →
      (mw * 11 ≤ 46000000 → exec (.leaseDecision mw) s = .next (leaseWrite ({ taken with boost := true }.setPart p { d with
        lease := { d.lease with
          pend := none, held := true, endAt := s.dtime + 1000 * us, rvk := false, notice := none, sig := sig, asid := asid } })
          p asid sig 1)) ∧
      (46000000 < mw * 11 → exec (.leaseDecision mw) s = .next (leaseWrite (taken.setPart p { d with lease := { d.lease with
        pend := none } }) p asid sig 2))) ∧
    (mw ≤ 4600000 → exec (.leaseRevocation mw) s = .next s) ∧
    (4600000 < mw → p < 16 → d.lease.held = true → d.lease.rvk = false → (∀ q, q < 16 → q ≠ p → (s.part q).lease.held = false) →
      (d.lease.endAt ≤ s.dtime + 200000 → exec (.leaseRevocation mw) s = .next s) ∧
      (s.dtime + 200000 < d.lease.endAt → exec (.leaseRevocation mw) s =
        .next (leaseWrite (leased fun x => { x with rvk := true }) p d.lease.asid d.lease.sig 3))) ∧
    (d.lease.held = false ∨ s.dtime < ends → exec (.leaseEnd p) s = .next s) ∧
    (d.lease.held = true → ends ≤ s.dtime → exec (.leaseEnd p) s =
      .next (leaseWrite (leased fun x => { x with held := false, rvk := false, notice := none }) p d.lease.asid d.lease.sig 4)) ∧
    (∀ x y, d.lease.stuck = false → hubWrite s p asid sig (leBytes 4 us) = (x, none) → y = (tickHub x).part p →
      leaseWrite s p asid sig us = (tickHub x).setPart p { y with lease := { y.lease with
        owed := [],
        notice := if us = 3 ∧ y.lease.held = true ∧ y.lease.rvk = true then some ((tickHub x).dtime + 200000) else y.lease.notice } }) ∧
    (d.lease.stuck = true → leaseWrite s p asid sig us = leased fun x => { x with owed := x.owed ++ [(asid, sig, us)] }) ∧
    exec .operatingPointChange s = .next { s with boost := s.parts.any fun (e : Nat × Partition) => e.2.lease.held } ∧
    (ok 0 = false → ok 1 = false →
      exec .moduleReset s = .next ((resetKeeping s).modHub fun u => { u with halted := true, faultn := false })) ∧
    (ok first = true → starts first) ∧
    (ok first = false → ok (1 - first) = true → starts (1 - first)) ∧
    (port < 16 →
      (z.en = false ∨ z.up = false → exec gets s = .next s) ∧
      (z.en = true → z.up = true →
        (bad → exec gets s = .next (s.modPort port fun y => { y with replays := y.replays + 1 })) ∧
        (¬bad → dropped → exec gets s = .next (s.modPort port fun y => { y with
          nextRx := y.nextRx + 1, drop := if y.drop = 0xFFFFFFFF then y.drop else y.drop + 1 })) ∧
        (¬bad → ¬dropped → away → exec gets s = .next (taken1.modPort next fun y => { y with
          nextTx := y.nextTx + 1, retry := (y.retry ++ [(sealed y, payload)]).drop (y.retry.length + 1 - 65535) })) ∧
        (¬bad → ¬dropped → ¬away → exec gets s = .next (s.modPort port fun y => { y with
          nextRx := y.nextRx + 1, rx := y.rx ++ [(hdr, payload)] }))) ∧
      (z.en = true → exec (.linkRetrainFail port) s = .next (s.modPort port fun y => { y with up := false, down := true })) ∧
      (z.en = true → s.hub.halted = false →
        exec (.fenlinkPortTrained port) s = .next (s.modPort port fun y => { y with up := true, down := false })) ∧
      (z.en = false ∨ s.hub.halted = true → exec (.fenlinkPortTrained port) s = .next s))

/-! ## Encodings -/

/-- R51–R70, R367: the word of every well-formed instruction, with every operand at every value its field admits, is decoded to that
instruction. -/
def Obligations.DecodeOfEncodeIsTheInstruction : Prop :=
  ∀ (i : Instr) (w : Nat), i.wf = true → encode? i = some w → w < 2 ^ 32 ∧ decodeTableWord 32 w = some i

/-- R70: a word that is decoded is the word of its instruction, whose limits hold: no two words stand for one instruction, and no bit
of a word is dropped. -/
def Obligations.EncodeOfDecodeIsTheWord : Prop :=
  ∀ (w : Nat) (i : Instr), w < 2 ^ 32 → decodeTableWord 32 w = some i → i.wf = true ∧ encode? i = some w

/-- R58, R59, R63, R66, R111, R181, R184, R191, R367 and the opcode map: words written out from the encodings stand for their
instructions, and a reserved bit or major refuses a word. -/
def Obligations.WordsOfTheOpcodeMap : Prop :=
  decodeTableWord 32 0x00000000 = some (.nop 0) ∧
  decodeTableWord 32 0x40000000 = some (.nop 1) ∧
  decodeTableWord 32 0x00000001 = none ∧
  decodeTableWord 32 0b00000001000001010000110001110000 = some (.iadd 0 0 5 3 7 0) ∧
  decodeTableWord 32 0x2B081000 = some (.matchL 0 0 8 4) ∧
  decodeTableWord 32 0xAA060000 = some (.trel 0 3) ∧
  decodeTableWord 32 0xAF000000 = some (.msync 0) ∧
  decodeTableWord 32 0x17000000 = none ∧
  decodeTableWord 32 0x0020818B = some (.rfetch 2 1 3)

/-- R78, R80: AND, OR, XOR and ANDN are the L3 words of major 0x08 with F = 0, 1, 2 and 3, and compute bitwise vA AND B, vA OR B,
vA XOR B and vA AND NOT B. POPC, CLZ and BREV are the L3 words of major 0x0B with F = 0, 1 and 2, whose B and U are zero; they give the
number of one bits, the number of zero bits above the highest one bit (32 for 0), and the bits reversed. -/
def Obligations.BitwiseAndBitCountWords : Prop :=
  ∀ (sw : BitVec 1) (g : BitVec 2) (d a b : BitVec 6) (u : BitVec 1),
    let l3 (major f : Nat) : Nat := major * 2 ^ 24 + put sw 30 + put g 22 + put d 16 + put a 10 + f
    let both (f : Nat) : Nat := l3 0x08 (put b 4 + put u 3 + f)
    decodeWord (both 0) = .ok (.andL sw g d a b u) ∧ decodeWord (both 1) = .ok (.orL sw g d a b u) ∧
    decodeWord (both 2) = .ok (.xorL sw g d a b u) ∧ decodeWord (both 3) = .ok (.andn sw g d a b u) ∧
    decodeWord (l3 0x0B 0) = .ok (.popc sw g d a) ∧ decodeWord (l3 0x0B 1) = .ok (.clz sw g d a) ∧
    decodeWord (l3 0x0B 2) = .ok (.brev sw g d a) ∧
    (b ≠ 0 ∨ u ≠ 0 → ∀ f, f < 3 → ∃ e, decodeWord (l3 0x0B (put b 4 + put u 3 + f)) = .error e) ∧
    LaneOp (.andL sw g d a b u) sw (l3Reads a b u) g d (fun c L => c.src a 0 L &&& c.src b u L) ∧
    LaneOp (.orL sw g d a b u) sw (l3Reads a b u) g d (fun c L => c.src a 0 L ||| c.src b u L) ∧
    LaneOp (.xorL sw g d a b u) sw (l3Reads a b u) g d (fun c L => c.src a 0 L ^^^ c.src b u L) ∧
    LaneOp (.andn sw g d a b u) sw (l3Reads a b u) g d (fun c L => c.src a 0 L &&& ~~~(c.src b u L)) ∧
    LaneOp (.popc sw g d a) sw (RegSet.vs a.toNat 1) g d (fun c L =>
      BitVec.ofNat 32 ((List.range 32).countP fun j => (c.src a 0 L).getLsbD j)) ∧
    LaneOp (.clz sw g d a) sw (RegSet.vs a.toNat 1) g d (fun c L =>
      if c.src a 0 L = 0 then 32 else BitVec.ofNat 32 (31 - (c.src a 0 L).toNat.log2)) ∧
    LaneOp (.brev sw g d a) sw (RegSet.vs a.toNat 1) g d (fun c L => (c.src a 0 L).reverse)

/-- R52, R69: a warp executes L-class words and every U-class major except 0x28–0x2F; the MCC executes the U-class majors 0x00–0x1F,
0x20–0x22, 0x25–0x26, 0x28–0x2F, 0x35 and 0x3A–0x3C and no others; a party that meets any other word raises ILLOP at it. -/
def Obligations.WordsOfEachParty : Prop :=
  (∀ w i, w < 2 ^ 32 → decodeWord w = .ok i →
    let major := w / 2 ^ 24 % 64
    (i.warpRuns = true ↔ w / 2 ^ 31 = 0 ∨ major < 0x28 ∨ 0x2F < major) ∧
    (i.mccRuns = true ↔ w / 2 ^ 31 = 1 ∧ (major ≤ 0x1F ∨ (0x20 ≤ major ∧ major ≤ 0x22) ∨ (0x25 ≤ major ∧ major ≤ 0x26) ∨
      (0x28 ≤ major ∧ major ≤ 0x2F) ∨ major = 0x35 ∨ (0x3A ≤ major ∧ major ≤ 0x3C)))) ∧
  ∀ s c i w, ctx? s = some c → i.wf = true → encode? i = some w → decodeWord w = .ok i → runsHere i c.who = false →
    Raises s c i (flt cILLOP)

/-! ## The whole machine -/

/-- R17, R51, R70, R71, R283, R289, R310, R367, R371: where the agenda names a pipe or an MCC that may issue, and the word fetched at
the PC of its fragment decodes to an instruction, the step is that instruction, run for that fragment; where it decodes to none, the
step takes ILLOP at it, at a prefix with the word behind it. Where the agenda names a lantern core, the same of its SRAM, a word of its
command opcode that is none being an illegal instruction, and of a base instruction of it or a word of a host core; a step without an encoding happens as it is named, a halted hub knowing a
reset only; and with nothing left a fabric cycle passes (the agenda is the model's: log 5). Before each step the packets of ended
launches have left their queues. -/
def Obligations.StepRunsTheDecodedInstruction : Prop :=
  ∀ (s x y : State) (l : List Move) (cl pipe n w : Nat) (late : Bool) (key : Key) (who : Who) (c : Ctx) (i : Instr),
    let v : State := settleEnded { s with agenda := l }
    let core := v.lantern n
    let p := newVector v cl pipe
    let m := newVector v cl 4
    let runs (z : State) : Prop := nextFrag z key who = (x, some c) → breakUnit x c = none → Fetches x c c.f.pc w y →
      (decodeWord w = .ok i → i.wf = true ∧ step s = exec i { y with turn := .frag c.key c.who c.i, late := late }) ∧
      (∀ e, decodeWord w = .error e → step s = .next (raiseAll (if isPrefix w = true then { c with len := 8 } else c) (flt cILLOP) y))
    (s.agenda = .issue (.pipe cl pipe) late :: l → (v.cluster cl).frozen = false →
      (pipeWarp p cl pipe = some (key, n) → who = .warp n → runs p) ∧ (pipeWarp p cl pipe = none → step s = .next p)) ∧
    (s.agenda = .issue (.mcc cl) late :: l →
      (readyMcc m cl = some key → who = .mcc → runs m) ∧ (readyMcc m cl = none → step s = .next m)) ∧
    (s.agenda = .issue (.lantern n) late :: l → n < 16 → v.hub.halted = false → core.swait = none → core.pc.toNat + 4 ≤ 2 ^ 40 →
      w = leNat (memRead core.sram core.pc.toNat 4) →
      (decodeLantern w = .ok i → i.wf = true ∧ step s = exec i { v with turn := .lantern n }) ∧
      (∀ e, decodeLantern w = .error e → w % 128 = 0x0B → step s = .next (v.setLantern n (core.trap 2 (BitVec.ofNat 64 w)))) ∧
      (w % 128 ≠ 0x0B → step s = .next (runBase v n (BitVec.ofNat 32 w)))) ∧
    (s.agenda = .issue (.hart n) late :: l → n < 32 → v.hub.halted = false → step s = .next (runHart v n late)) ∧
    (s.agenda = .event i :: l → encode? i = none → i.wf = true → v.hub.halted = false ∨ i = .moduleReset →
      step s = exec i { v with turn := .none }) ∧
    (s.agenda = [] → step s = .next (clockStep (settleEnded s)))

/-- R268, R281, R287, R293–R295, R320, R326, R340, R346, R356, R361, R373–R375, R379, R382: what reset leaves where the spec states a
value: partition 0 enabled with the whole device, the others disabled; BALTHR 4, LLTHR 256, YDL 40 000, SCRUBP 86 400; every other
register of a partition's and of a queue's tables 0; buckets full; measurements and HMAP 0; ports disabled; the memory machine empty,
with E equal to M. -/
def Obligations.ResetValues : Prop :=
  ∀ (p q cl n : Nat), p < 16 → q < 4096 → cl < 256 → n < 16 →
    let s := State.reset
    let d := s.part p
    let u := s.queue q
    d.partctl = (if p = 0 then 0x8000FFFF else 0) ∧ d.pclus = List.replicate 4 (if p = 0 then BitVec.allOnes 64 else 0) ∧
    d.pq = (if p = 0 then 4096 else 0) ∧ d.schedctl = 4 <<< 8 ∧ d.llthr = 256 ∧ d.qtm0 = 0 ∧ d.qtm1 = 0 ∧ d.phovr = 0 ∧
    d.fqbase = 0 ∧ d.fqctl = 0 ∧ d.fqhead = 0 ∧ d.fqtail = 0 ∧ d.ydl = 40000 ∧ d.pretgt = 0 ∧ d.prectl = 0 ∧ d.savebase = 0 ∧
    d.savesz = 0 ∧ d.tlbiva = 0 ∧ d.tlbictl = 0 ∧ d.dbgctl = 0 ∧ d.bpc = List.replicate 8 0 ∧ d.wpa = List.replicate 8 0 ∧
    d.wpl = List.replicate 8 0 ∧ d.trbase = 0 ∧ d.trctl = 0 ∧ d.trpos = 0 ∧ d.trdrop = 0 ∧ d.sampctl = 0 ∧ d.scbase = 0 ∧
    d.scctl = 0 ∧ d.scpos = 0 ∧ d.scrply = List.replicate 4 0 ∧ d.mbpos = 0 ∧ d.mbctl = 0 ∧ u.qsched = 0 ∧ u.qpass = 0 ∧
    u.qring = 0 ∧ (s.cluster cl).bal = 65536 ∧ s.hub.hmap = 0 ∧ s.hub.scrubp = 86400 ∧ s.hub.parterr = false ∧
    s.hub.meas = List.replicate 10 0 ∧ (s.port n).en = false ∧ s.ms.mem = s.ms.sys ∧ s.ms.queue = [] ∧ s.ms.pool = [] ∧
    s.ms.redm = [] ∧ s.ms.cb = [] ∧ s.ms.paths = [] ∧ s.ms.hostw = [] ∧ (∀ c ∈ s.ms.clocks, c = 0)

/-- At reset both views of memory are in canonical form: the invariant below has a start. -/
def Obligations.ResetMemoryIsCanonical : Prop := memWf State.reset = true

/-- The invariant of memory: every step, from every state whose two views of HBM are in canonical form, leaves them so. -/
def Obligations.StepKeepsMemoryCanonical : Prop :=
  ∀ s t, memWf s = true → step s = .next t → memWf t = true
end

