-- ==== Sys2Proof/Laws/Tables.lean ====
section
/-! SUPPORT. Lists, vectors, tables and sets of lanes: reading after writing. -/
namespace Sys2Proof.Machine
open Sys2Proof

/-! ## Vectors and lists -/

theorem vget_vset {α : Type} {n : Nat} (v : Vector α n) (i j : Nat) (x d : α) :
    vget (vset v i x) j d = if i = j ∧ j < n then x else vget v j d := by
  unfold vget vset
  by_cases hj : j < n
  · by_cases hi : i < n
    · by_cases e : i = j <;> simp [hi, hj, e, Vector.getElem_set]
    · have : i ≠ j := by omega
      simp [hi, hj, this]
  · simp [hj]

@[simp] theorem vget_vset_same {α : Type} {n : Nat} (v : Vector α n) (i : Nat) (x d : α) (h : i < n) :
    vget (vset v i x) i d = x := by simp [vget_vset, h]

theorem vget_vset_ne {α : Type} {n : Nat} (v : Vector α n) (i j : Nat) (x d : α) (h : i ≠ j) :
    vget (vset v i x) j d = vget v j d := by simp [vget_vset, h]

@[simp] theorem vget_ofFn {α : Type} {n : Nat} (f : Fin n → α) (i : Nat) (d : α) (h : i < n) :
    vget (Vector.ofFn f) i d = f ⟨i, h⟩ := by simp [vget, h]

@[simp] theorem vget_replicate {α : Type} {n : Nat} (x : α) (i : Nat) (d : α) :
    vget (Vector.replicate n x) i d = if i < n then x else d := by
  unfold vget; split <;> simp

theorem lmod_getElem? {α : Type} (l : List α) (i j : Nat) (f : α → α) :
    (lmod l i f)[j]? = if i = j then l[j]?.map f else l[j]? := by
  induction l generalizing i j with
  | nil => simp [lmod]
  | cons a r ih => cases i <;> cases j <;> simp [lmod, ih]

@[simp] theorem lmod_length {α : Type} (l : List α) (i : Nat) (f : α → α) : (lmod l i f).length = l.length := by
  induction l generalizing i with
  | nil => rfl
  | cons a r ih => cases i <;> simp [lmod, ih]

theorem lmod_same {α : Type} (l : List α) (i : Nat) (f : α → α) (x : α) (h : l[i]? = some x) :
    (lmod l i f)[i]? = some (f x) := by simp [lmod_getElem?, h]

theorem lmod_lmod {α : Type} (l : List α) (i : Nat) (f g : α → α) :
    lmod (lmod l i f) i g = lmod l i (g ∘ f) := by
  induction l generalizing i with
  | nil => rfl
  | cons a r ih => cases i <;> simp [lmod, ih]

theorem lmod_id {α : Type} (l : List α) (i : Nat) : lmod l i id = l := by
  induction l generalizing i with
  | nil => rfl
  | cons a r ih => cases i <;> simp [lmod, ih]

/-! ## Tables -/

@[simp] theorem tabGet_tabSet_same {α : Type} (d : α) (t : Tab α) (n : Nat) (x : α) : tabGet d (tabSet t n x) n = x := by
  induction t with
  | nil => simp [tabSet, tabGet]
  | cons e r ih =>
    obtain ⟨k, v⟩ := e
    simp only [tabSet]
    split
    · simp [tabGet]
    · split
      · simp [tabGet]
      · rename_i _ h
        have : k ≠ n := fun e => h e.symm
        simp [tabGet, this, ih]

theorem tabGet_tabSet_ne {α : Type} (d : α) (t : Tab α) (n m : Nat) (x : α) (h : n ≠ m) :
    tabGet d (tabSet t n x) m = tabGet d t m := by
  induction t with
  | nil => simp [tabSet, tabGet, h]
  | cons e r ih =>
    obtain ⟨k, v⟩ := e
    simp only [tabSet]
    split
    · simp [tabGet, h]
    · split
      · rename_i _ hk
        subst hk
        simp [tabGet, h]
      · simp [tabGet, ih]

theorem tabGet_tabSet {α : Type} (d : α) (t : Tab α) (n m : Nat) (x : α) :
    tabGet d (tabSet t n x) m = if n = m then x else tabGet d t m := by
  split
  · subst_vars; simp
  · exact tabGet_tabSet_ne d t n m x ‹_›

/-! ## Lanes -/

theorem getLsbD_laneBit (L j : Nat) : (laneBit L).getLsbD j = (decide (j < 64) && decide (j = L)) := by
  unfold laneBit
  by_cases h : j < 64
  · rw [BitVec.getLsbD_shiftLeft]
    by_cases e : j = L
    · subst e; simp [h]
    · simp only [h, e, decide_false, Bool.and_false]
      by_cases lt : j < L
      · simp [lt]
      · have : j - L ≠ 0 := by omega
        simp [lt, h, BitVec.getLsbD_one, this]
  · rw [BitVec.getLsbD_of_ge _ _ (by omega)]; simp [h]

theorem foldl_or_getLsbD (f : Nat → Bool) (n : Nat) (j : Nat) (m : Lanes) :
    ((List.range n).foldl (fun m L => if f L then m ||| (1#64 <<< L) else m) m).getLsbD j =
      (m.getLsbD j || (decide (j < n) && decide (j < 64) && f j)) := by
  induction n with
  | zero => simp
  | succ k ih =>
    rw [List.range_succ, List.foldl_append, List.foldl_cons, List.foldl_nil]
    split
    · rename_i h
      have e : (1#64 <<< k).getLsbD j = (decide (j < 64) && decide (j = k)) := getLsbD_laneBit k j
      rw [BitVec.getLsbD_or, ih, e]
      by_cases jk : j = k
      · subst jk; simp [h]
      · have : (j < k + 1) = (j < k) := by simp; omega
        simp [jk, this]
    · rename_i h
      rw [ih]
      by_cases jk : j = k
      · subst jk; simp [h]
      · have : (j < k + 1) = (j < k) := by simp; omega
        simp [this]

@[simp] theorem getLsbD_lanesOf (f : Nat → Bool) (j : Nat) : (lanesOf f).getLsbD j = (decide (j < 64) && f j) := by
  unfold lanesOf
  rw [foldl_or_getLsbD]
  by_cases h : j < 64 <;> simp [h]

theorem mem_laneList (m : Lanes) (L : Nat) : L ∈ laneList m ↔ m.getLsbD L = true := by
  unfold laneList
  simp only [List.mem_filter, List.mem_range]
  constructor
  · exact fun h => h.2
  · intro h
    refine ⟨?_, h⟩
    rcases Nat.lt_or_ge L 64 with l | l
    · exact l
    · rw [BitVec.getLsbD_of_ge _ _ l] at h
      exact absurd h (by simp)

theorem laneList_zero : laneList 0 = [] := by decide

end Sys2Proof.Machine
end

