-- ==== Sys2Proof/Laws/State.lean ====
section
/-! SUPPORT. What each update of the state leaves: one lemma for each field and each update, and one for each way of reading
the state that an update does not touch. -/
namespace Sys2Proof.Machine
open Sys2Proof

/-! ## modMs -/

@[simp] theorem modMs_agenda (s : State) (f : MemSys → MemSys) : (s.modMs f).agenda = s.agenda := rfl
@[simp] theorem modMs_fresh (s : State) (f : MemSys → MemSys) : (s.modMs f).fresh = s.fresh := rfl
@[simp] theorem modMs_turn (s : State) (f : MemSys → MemSys) : (s.modMs f).turn = s.turn := rfl
@[simp] theorem modMs_late (s : State) (f : MemSys → MemSys) : (s.modMs f).late = s.late := rfl
@[simp] theorem modMs_pass (s : State) (f : MemSys → MemSys) : (s.modMs f).pass = s.pass := rfl
@[simp] theorem modMs_fcyc (s : State) (f : MemSys → MemSys) : (s.modMs f).fcyc = s.fcyc := rfl
@[simp] theorem modMs_rail (s : State) (f : MemSys → MemSys) : (s.modMs f).rail = s.rail := rfl
@[simp] theorem modMs_boost (s : State) (f : MemSys → MemSys) : (s.modMs f).boost = s.boost := rfl
@[simp] theorem modMs_ms (s : State) (f : MemSys → MemSys) : (s.modMs f).ms = f s.ms := rfl
@[simp] theorem modMs_blocks (s : State) (f : MemSys → MemSys) : (s.modMs f).blocks = s.blocks := rfl
@[simp] theorem modMs_gangs (s : State) (f : MemSys → MemSys) : (s.modMs f).gangs = s.gangs := rfl
@[simp] theorem modMs_launches (s : State) (f : MemSys → MemSys) : (s.modMs f).launches = s.launches := rfl
@[simp] theorem modMs_graphs (s : State) (f : MemSys → MemSys) : (s.modMs f).graphs = s.graphs := rfl
@[simp] theorem modMs_clusters (s : State) (f : MemSys → MemSys) : (s.modMs f).clusters = s.clusters := rfl
@[simp] theorem modMs_parts (s : State) (f : MemSys → MemSys) : (s.modMs f).parts = s.parts := rfl
@[simp] theorem modMs_queues (s : State) (f : MemSys → MemSys) : (s.modMs f).queues = s.queues := rfl
@[simp] theorem modMs_lanterns (s : State) (f : MemSys → MemSys) : (s.modMs f).lanterns = s.lanterns := rfl
@[simp] theorem modMs_harts (s : State) (f : MemSys → MemSys) : (s.modMs f).harts = s.harts := rfl
@[simp] theorem modMs_ports (s : State) (f : MemSys → MemSys) : (s.modMs f).ports = s.ports := rfl
@[simp] theorem modMs_hub (s : State) (f : MemSys → MemSys) : (s.modMs f).hub = s.hub := rfl
@[simp] theorem modMs_peats (s : State) (f : MemSys → MemSys) : (s.modMs f).peats = s.peats := rfl
@[simp] theorem modMs_exch (s : State) (f : MemSys → MemSys) : (s.modMs f).exch = s.exch := rfl
@[simp] theorem modMs_colls (s : State) (f : MemSys → MemSys) : (s.modMs f).colls = s.colls := rfl
@[simp] theorem modMs_cluster_read (s : State) (f : MemSys → MemSys) (x : Nat) : (s.modMs f).cluster x = s.cluster x := rfl
@[simp] theorem modMs_part_read (s : State) (f : MemSys → MemSys) (x : Nat) : (s.modMs f).part x = s.part x := rfl
@[simp] theorem modMs_queue_read (s : State) (f : MemSys → MemSys) (x : Nat) : (s.modMs f).queue x = s.queue x := rfl
@[simp] theorem modMs_lantern_read (s : State) (f : MemSys → MemSys) (x : Nat) : (s.modMs f).lantern x = s.lantern x := rfl
@[simp] theorem modMs_hart_read (s : State) (f : MemSys → MemSys) (x : Nat) : (s.modMs f).hart x = s.hart x := rfl
@[simp] theorem modMs_port_read (s : State) (f : MemSys → MemSys) (x : Nat) : (s.modMs f).port x = s.port x := rfl
@[simp] theorem modMs_dtime_read (s : State) (f : MemSys → MemSys) : (s.modMs f).dtime = s.dtime := rfl
@[simp] theorem modMs_block_read (s : State) (f : MemSys → MemSys) (x : Key) : (s.modMs f).block? x = s.block? x := rfl
@[simp] theorem modMs_launch_read (s : State) (f : MemSys → MemSys) (x y : Nat) : (s.modMs f).launch? x y = s.launch? x y := rfl
@[simp] theorem modMs_party_read (s : State) (f : MemSys → MemSys) (x : Key) (y : Who) : (s.modMs f).party? x y = s.party? x y := rfl

/-! ## modHub -/

@[simp] theorem modHub_agenda (s : State) (f : Hub → Hub) : (s.modHub f).agenda = s.agenda := rfl
@[simp] theorem modHub_fresh (s : State) (f : Hub → Hub) : (s.modHub f).fresh = s.fresh := rfl
@[simp] theorem modHub_turn (s : State) (f : Hub → Hub) : (s.modHub f).turn = s.turn := rfl
@[simp] theorem modHub_late (s : State) (f : Hub → Hub) : (s.modHub f).late = s.late := rfl
@[simp] theorem modHub_pass (s : State) (f : Hub → Hub) : (s.modHub f).pass = s.pass := rfl
@[simp] theorem modHub_fcyc (s : State) (f : Hub → Hub) : (s.modHub f).fcyc = s.fcyc := rfl
@[simp] theorem modHub_rail (s : State) (f : Hub → Hub) : (s.modHub f).rail = s.rail := rfl
@[simp] theorem modHub_boost (s : State) (f : Hub → Hub) : (s.modHub f).boost = s.boost := rfl
@[simp] theorem modHub_ms (s : State) (f : Hub → Hub) : (s.modHub f).ms = s.ms := rfl
@[simp] theorem modHub_blocks (s : State) (f : Hub → Hub) : (s.modHub f).blocks = s.blocks := rfl
@[simp] theorem modHub_gangs (s : State) (f : Hub → Hub) : (s.modHub f).gangs = s.gangs := rfl
@[simp] theorem modHub_launches (s : State) (f : Hub → Hub) : (s.modHub f).launches = s.launches := rfl
@[simp] theorem modHub_graphs (s : State) (f : Hub → Hub) : (s.modHub f).graphs = s.graphs := rfl
@[simp] theorem modHub_clusters (s : State) (f : Hub → Hub) : (s.modHub f).clusters = s.clusters := rfl
@[simp] theorem modHub_parts (s : State) (f : Hub → Hub) : (s.modHub f).parts = s.parts := rfl
@[simp] theorem modHub_queues (s : State) (f : Hub → Hub) : (s.modHub f).queues = s.queues := rfl
@[simp] theorem modHub_lanterns (s : State) (f : Hub → Hub) : (s.modHub f).lanterns = s.lanterns := rfl
@[simp] theorem modHub_harts (s : State) (f : Hub → Hub) : (s.modHub f).harts = s.harts := rfl
@[simp] theorem modHub_ports (s : State) (f : Hub → Hub) : (s.modHub f).ports = s.ports := rfl
@[simp] theorem modHub_hub (s : State) (f : Hub → Hub) : (s.modHub f).hub = f s.hub := rfl
@[simp] theorem modHub_peats (s : State) (f : Hub → Hub) : (s.modHub f).peats = s.peats := rfl
@[simp] theorem modHub_exch (s : State) (f : Hub → Hub) : (s.modHub f).exch = s.exch := rfl
@[simp] theorem modHub_colls (s : State) (f : Hub → Hub) : (s.modHub f).colls = s.colls := rfl
@[simp] theorem modHub_cluster_read (s : State) (f : Hub → Hub) (x : Nat) : (s.modHub f).cluster x = s.cluster x := rfl
@[simp] theorem modHub_part_read (s : State) (f : Hub → Hub) (x : Nat) : (s.modHub f).part x = s.part x := rfl
@[simp] theorem modHub_queue_read (s : State) (f : Hub → Hub) (x : Nat) : (s.modHub f).queue x = s.queue x := rfl
@[simp] theorem modHub_lantern_read (s : State) (f : Hub → Hub) (x : Nat) : (s.modHub f).lantern x = s.lantern x := rfl
@[simp] theorem modHub_hart_read (s : State) (f : Hub → Hub) (x : Nat) : (s.modHub f).hart x = s.hart x := rfl
@[simp] theorem modHub_port_read (s : State) (f : Hub → Hub) (x : Nat) : (s.modHub f).port x = s.port x := rfl
@[simp] theorem modHub_dtime_read (s : State) (f : Hub → Hub) : (s.modHub f).dtime = s.dtime := rfl
@[simp] theorem modHub_block_read (s : State) (f : Hub → Hub) (x : Key) : (s.modHub f).block? x = s.block? x := rfl
@[simp] theorem modHub_launch_read (s : State) (f : Hub → Hub) (x y : Nat) : (s.modHub f).launch? x y = s.launch? x y := rfl
@[simp] theorem modHub_party_read (s : State) (f : Hub → Hub) (x : Key) (y : Who) : (s.modHub f).party? x y = s.party? x y := rfl

/-! ## setCluster -/

@[simp] theorem setCluster_agenda (s : State) (c : Nat) (v : Cluster) : (s.setCluster c v).agenda = s.agenda := rfl
@[simp] theorem setCluster_fresh (s : State) (c : Nat) (v : Cluster) : (s.setCluster c v).fresh = s.fresh := rfl
@[simp] theorem setCluster_turn (s : State) (c : Nat) (v : Cluster) : (s.setCluster c v).turn = s.turn := rfl
@[simp] theorem setCluster_late (s : State) (c : Nat) (v : Cluster) : (s.setCluster c v).late = s.late := rfl
@[simp] theorem setCluster_pass (s : State) (c : Nat) (v : Cluster) : (s.setCluster c v).pass = s.pass := rfl
@[simp] theorem setCluster_fcyc (s : State) (c : Nat) (v : Cluster) : (s.setCluster c v).fcyc = s.fcyc := rfl
@[simp] theorem setCluster_rail (s : State) (c : Nat) (v : Cluster) : (s.setCluster c v).rail = s.rail := rfl
@[simp] theorem setCluster_boost (s : State) (c : Nat) (v : Cluster) : (s.setCluster c v).boost = s.boost := rfl
@[simp] theorem setCluster_ms (s : State) (c : Nat) (v : Cluster) : (s.setCluster c v).ms = s.ms := rfl
@[simp] theorem setCluster_blocks (s : State) (c : Nat) (v : Cluster) : (s.setCluster c v).blocks = s.blocks := rfl
@[simp] theorem setCluster_gangs (s : State) (c : Nat) (v : Cluster) : (s.setCluster c v).gangs = s.gangs := rfl
@[simp] theorem setCluster_launches (s : State) (c : Nat) (v : Cluster) : (s.setCluster c v).launches = s.launches := rfl
@[simp] theorem setCluster_graphs (s : State) (c : Nat) (v : Cluster) : (s.setCluster c v).graphs = s.graphs := rfl
@[simp] theorem setCluster_clusters (s : State) (c : Nat) (v : Cluster) : (s.setCluster c v).clusters = tabSet s.clusters c v := rfl
@[simp] theorem setCluster_parts (s : State) (c : Nat) (v : Cluster) : (s.setCluster c v).parts = s.parts := rfl
@[simp] theorem setCluster_queues (s : State) (c : Nat) (v : Cluster) : (s.setCluster c v).queues = s.queues := rfl
@[simp] theorem setCluster_lanterns (s : State) (c : Nat) (v : Cluster) : (s.setCluster c v).lanterns = s.lanterns := rfl
@[simp] theorem setCluster_harts (s : State) (c : Nat) (v : Cluster) : (s.setCluster c v).harts = s.harts := rfl
@[simp] theorem setCluster_ports (s : State) (c : Nat) (v : Cluster) : (s.setCluster c v).ports = s.ports := rfl
@[simp] theorem setCluster_hub (s : State) (c : Nat) (v : Cluster) : (s.setCluster c v).hub = s.hub := rfl
@[simp] theorem setCluster_peats (s : State) (c : Nat) (v : Cluster) : (s.setCluster c v).peats = s.peats := rfl
@[simp] theorem setCluster_exch (s : State) (c : Nat) (v : Cluster) : (s.setCluster c v).exch = s.exch := rfl
@[simp] theorem setCluster_colls (s : State) (c : Nat) (v : Cluster) : (s.setCluster c v).colls = s.colls := rfl
@[simp] theorem setCluster_part_read (s : State) (c : Nat) (v : Cluster) (x : Nat) : (s.setCluster c v).part x = s.part x := rfl
@[simp] theorem setCluster_queue_read (s : State) (c : Nat) (v : Cluster) (x : Nat) : (s.setCluster c v).queue x = s.queue x := rfl
@[simp] theorem setCluster_lantern_read (s : State) (c : Nat) (v : Cluster) (x : Nat) : (s.setCluster c v).lantern x = s.lantern x := rfl
@[simp] theorem setCluster_hart_read (s : State) (c : Nat) (v : Cluster) (x : Nat) : (s.setCluster c v).hart x = s.hart x := rfl
@[simp] theorem setCluster_port_read (s : State) (c : Nat) (v : Cluster) (x : Nat) : (s.setCluster c v).port x = s.port x := rfl
@[simp] theorem setCluster_dtime_read (s : State) (c : Nat) (v : Cluster) : (s.setCluster c v).dtime = s.dtime := rfl
@[simp] theorem setCluster_block_read (s : State) (c : Nat) (v : Cluster) (x : Key) : (s.setCluster c v).block? x = s.block? x := rfl
@[simp] theorem setCluster_launch_read (s : State) (c : Nat) (v : Cluster) (x y : Nat) : (s.setCluster c v).launch? x y = s.launch? x y := rfl
@[simp] theorem setCluster_party_read (s : State) (c : Nat) (v : Cluster) (x : Key) (y : Who) : (s.setCluster c v).party? x y = s.party? x y := rfl

/-! ## modCluster -/

@[simp] theorem modCluster_agenda (s : State) (c : Nat) (f : Cluster → Cluster) : (s.modCluster c f).agenda = s.agenda := rfl
@[simp] theorem modCluster_fresh (s : State) (c : Nat) (f : Cluster → Cluster) : (s.modCluster c f).fresh = s.fresh := rfl
@[simp] theorem modCluster_turn (s : State) (c : Nat) (f : Cluster → Cluster) : (s.modCluster c f).turn = s.turn := rfl
@[simp] theorem modCluster_late (s : State) (c : Nat) (f : Cluster → Cluster) : (s.modCluster c f).late = s.late := rfl
@[simp] theorem modCluster_pass (s : State) (c : Nat) (f : Cluster → Cluster) : (s.modCluster c f).pass = s.pass := rfl
@[simp] theorem modCluster_fcyc (s : State) (c : Nat) (f : Cluster → Cluster) : (s.modCluster c f).fcyc = s.fcyc := rfl
@[simp] theorem modCluster_rail (s : State) (c : Nat) (f : Cluster → Cluster) : (s.modCluster c f).rail = s.rail := rfl
@[simp] theorem modCluster_boost (s : State) (c : Nat) (f : Cluster → Cluster) : (s.modCluster c f).boost = s.boost := rfl
@[simp] theorem modCluster_ms (s : State) (c : Nat) (f : Cluster → Cluster) : (s.modCluster c f).ms = s.ms := rfl
@[simp] theorem modCluster_blocks (s : State) (c : Nat) (f : Cluster → Cluster) : (s.modCluster c f).blocks = s.blocks := rfl
@[simp] theorem modCluster_gangs (s : State) (c : Nat) (f : Cluster → Cluster) : (s.modCluster c f).gangs = s.gangs := rfl
@[simp] theorem modCluster_launches (s : State) (c : Nat) (f : Cluster → Cluster) : (s.modCluster c f).launches = s.launches := rfl
@[simp] theorem modCluster_graphs (s : State) (c : Nat) (f : Cluster → Cluster) : (s.modCluster c f).graphs = s.graphs := rfl
@[simp] theorem modCluster_clusters (s : State) (c : Nat) (f : Cluster → Cluster) : (s.modCluster c f).clusters = tabSet s.clusters c (f (s.cluster c)) := rfl
@[simp] theorem modCluster_parts (s : State) (c : Nat) (f : Cluster → Cluster) : (s.modCluster c f).parts = s.parts := rfl
@[simp] theorem modCluster_queues (s : State) (c : Nat) (f : Cluster → Cluster) : (s.modCluster c f).queues = s.queues := rfl
@[simp] theorem modCluster_lanterns (s : State) (c : Nat) (f : Cluster → Cluster) : (s.modCluster c f).lanterns = s.lanterns := rfl
@[simp] theorem modCluster_harts (s : State) (c : Nat) (f : Cluster → Cluster) : (s.modCluster c f).harts = s.harts := rfl
@[simp] theorem modCluster_ports (s : State) (c : Nat) (f : Cluster → Cluster) : (s.modCluster c f).ports = s.ports := rfl
@[simp] theorem modCluster_hub (s : State) (c : Nat) (f : Cluster → Cluster) : (s.modCluster c f).hub = s.hub := rfl
@[simp] theorem modCluster_peats (s : State) (c : Nat) (f : Cluster → Cluster) : (s.modCluster c f).peats = s.peats := rfl
@[simp] theorem modCluster_exch (s : State) (c : Nat) (f : Cluster → Cluster) : (s.modCluster c f).exch = s.exch := rfl
@[simp] theorem modCluster_colls (s : State) (c : Nat) (f : Cluster → Cluster) : (s.modCluster c f).colls = s.colls := rfl
@[simp] theorem modCluster_part_read (s : State) (c : Nat) (f : Cluster → Cluster) (x : Nat) : (s.modCluster c f).part x = s.part x := rfl
@[simp] theorem modCluster_queue_read (s : State) (c : Nat) (f : Cluster → Cluster) (x : Nat) : (s.modCluster c f).queue x = s.queue x := rfl
@[simp] theorem modCluster_lantern_read (s : State) (c : Nat) (f : Cluster → Cluster) (x : Nat) : (s.modCluster c f).lantern x = s.lantern x := rfl
@[simp] theorem modCluster_hart_read (s : State) (c : Nat) (f : Cluster → Cluster) (x : Nat) : (s.modCluster c f).hart x = s.hart x := rfl
@[simp] theorem modCluster_port_read (s : State) (c : Nat) (f : Cluster → Cluster) (x : Nat) : (s.modCluster c f).port x = s.port x := rfl
@[simp] theorem modCluster_dtime_read (s : State) (c : Nat) (f : Cluster → Cluster) : (s.modCluster c f).dtime = s.dtime := rfl
@[simp] theorem modCluster_block_read (s : State) (c : Nat) (f : Cluster → Cluster) (x : Key) : (s.modCluster c f).block? x = s.block? x := rfl
@[simp] theorem modCluster_launch_read (s : State) (c : Nat) (f : Cluster → Cluster) (x y : Nat) : (s.modCluster c f).launch? x y = s.launch? x y := rfl
@[simp] theorem modCluster_party_read (s : State) (c : Nat) (f : Cluster → Cluster) (x : Key) (y : Who) : (s.modCluster c f).party? x y = s.party? x y := rfl

/-! ## setPart -/

@[simp] theorem setPart_agenda (s : State) (p : Nat) (v : Partition) : (s.setPart p v).agenda = s.agenda := rfl
@[simp] theorem setPart_fresh (s : State) (p : Nat) (v : Partition) : (s.setPart p v).fresh = s.fresh := rfl
@[simp] theorem setPart_turn (s : State) (p : Nat) (v : Partition) : (s.setPart p v).turn = s.turn := rfl
@[simp] theorem setPart_late (s : State) (p : Nat) (v : Partition) : (s.setPart p v).late = s.late := rfl
@[simp] theorem setPart_pass (s : State) (p : Nat) (v : Partition) : (s.setPart p v).pass = s.pass := rfl
@[simp] theorem setPart_fcyc (s : State) (p : Nat) (v : Partition) : (s.setPart p v).fcyc = s.fcyc := rfl
@[simp] theorem setPart_rail (s : State) (p : Nat) (v : Partition) : (s.setPart p v).rail = s.rail := rfl
@[simp] theorem setPart_boost (s : State) (p : Nat) (v : Partition) : (s.setPart p v).boost = s.boost := rfl
@[simp] theorem setPart_ms (s : State) (p : Nat) (v : Partition) : (s.setPart p v).ms = s.ms := rfl
@[simp] theorem setPart_blocks (s : State) (p : Nat) (v : Partition) : (s.setPart p v).blocks = s.blocks := rfl
@[simp] theorem setPart_gangs (s : State) (p : Nat) (v : Partition) : (s.setPart p v).gangs = s.gangs := rfl
@[simp] theorem setPart_launches (s : State) (p : Nat) (v : Partition) : (s.setPart p v).launches = s.launches := rfl
@[simp] theorem setPart_graphs (s : State) (p : Nat) (v : Partition) : (s.setPart p v).graphs = s.graphs := rfl
@[simp] theorem setPart_clusters (s : State) (p : Nat) (v : Partition) : (s.setPart p v).clusters = s.clusters := rfl
@[simp] theorem setPart_parts (s : State) (p : Nat) (v : Partition) : (s.setPart p v).parts = tabSet s.parts p v := rfl
@[simp] theorem setPart_queues (s : State) (p : Nat) (v : Partition) : (s.setPart p v).queues = s.queues := rfl
@[simp] theorem setPart_lanterns (s : State) (p : Nat) (v : Partition) : (s.setPart p v).lanterns = s.lanterns := rfl
@[simp] theorem setPart_harts (s : State) (p : Nat) (v : Partition) : (s.setPart p v).harts = s.harts := rfl
@[simp] theorem setPart_ports (s : State) (p : Nat) (v : Partition) : (s.setPart p v).ports = s.ports := rfl
@[simp] theorem setPart_hub (s : State) (p : Nat) (v : Partition) : (s.setPart p v).hub = s.hub := rfl
@[simp] theorem setPart_peats (s : State) (p : Nat) (v : Partition) : (s.setPart p v).peats = s.peats := rfl
@[simp] theorem setPart_exch (s : State) (p : Nat) (v : Partition) : (s.setPart p v).exch = s.exch := rfl
@[simp] theorem setPart_colls (s : State) (p : Nat) (v : Partition) : (s.setPart p v).colls = s.colls := rfl
@[simp] theorem setPart_cluster_read (s : State) (p : Nat) (v : Partition) (x : Nat) : (s.setPart p v).cluster x = s.cluster x := rfl
@[simp] theorem setPart_queue_read (s : State) (p : Nat) (v : Partition) (x : Nat) : (s.setPart p v).queue x = s.queue x := rfl
@[simp] theorem setPart_lantern_read (s : State) (p : Nat) (v : Partition) (x : Nat) : (s.setPart p v).lantern x = s.lantern x := rfl
@[simp] theorem setPart_hart_read (s : State) (p : Nat) (v : Partition) (x : Nat) : (s.setPart p v).hart x = s.hart x := rfl
@[simp] theorem setPart_port_read (s : State) (p : Nat) (v : Partition) (x : Nat) : (s.setPart p v).port x = s.port x := rfl
@[simp] theorem setPart_dtime_read (s : State) (p : Nat) (v : Partition) : (s.setPart p v).dtime = s.dtime := rfl
@[simp] theorem setPart_block_read (s : State) (p : Nat) (v : Partition) (x : Key) : (s.setPart p v).block? x = s.block? x := rfl
@[simp] theorem setPart_launch_read (s : State) (p : Nat) (v : Partition) (x y : Nat) : (s.setPart p v).launch? x y = s.launch? x y := rfl
@[simp] theorem setPart_party_read (s : State) (p : Nat) (v : Partition) (x : Key) (y : Who) : (s.setPart p v).party? x y = s.party? x y := rfl

/-! ## modPart -/

@[simp] theorem modPart_agenda (s : State) (p : Nat) (f : Partition → Partition) : (s.modPart p f).agenda = s.agenda := rfl
@[simp] theorem modPart_fresh (s : State) (p : Nat) (f : Partition → Partition) : (s.modPart p f).fresh = s.fresh := rfl
@[simp] theorem modPart_turn (s : State) (p : Nat) (f : Partition → Partition) : (s.modPart p f).turn = s.turn := rfl
@[simp] theorem modPart_late (s : State) (p : Nat) (f : Partition → Partition) : (s.modPart p f).late = s.late := rfl
@[simp] theorem modPart_pass (s : State) (p : Nat) (f : Partition → Partition) : (s.modPart p f).pass = s.pass := rfl
@[simp] theorem modPart_fcyc (s : State) (p : Nat) (f : Partition → Partition) : (s.modPart p f).fcyc = s.fcyc := rfl
@[simp] theorem modPart_rail (s : State) (p : Nat) (f : Partition → Partition) : (s.modPart p f).rail = s.rail := rfl
@[simp] theorem modPart_boost (s : State) (p : Nat) (f : Partition → Partition) : (s.modPart p f).boost = s.boost := rfl
@[simp] theorem modPart_ms (s : State) (p : Nat) (f : Partition → Partition) : (s.modPart p f).ms = s.ms := rfl
@[simp] theorem modPart_blocks (s : State) (p : Nat) (f : Partition → Partition) : (s.modPart p f).blocks = s.blocks := rfl
@[simp] theorem modPart_gangs (s : State) (p : Nat) (f : Partition → Partition) : (s.modPart p f).gangs = s.gangs := rfl
@[simp] theorem modPart_launches (s : State) (p : Nat) (f : Partition → Partition) : (s.modPart p f).launches = s.launches := rfl
@[simp] theorem modPart_graphs (s : State) (p : Nat) (f : Partition → Partition) : (s.modPart p f).graphs = s.graphs := rfl
@[simp] theorem modPart_clusters (s : State) (p : Nat) (f : Partition → Partition) : (s.modPart p f).clusters = s.clusters := rfl
@[simp] theorem modPart_parts (s : State) (p : Nat) (f : Partition → Partition) : (s.modPart p f).parts = tabSet s.parts p (f (s.part p)) := rfl
@[simp] theorem modPart_queues (s : State) (p : Nat) (f : Partition → Partition) : (s.modPart p f).queues = s.queues := rfl
@[simp] theorem modPart_lanterns (s : State) (p : Nat) (f : Partition → Partition) : (s.modPart p f).lanterns = s.lanterns := rfl
@[simp] theorem modPart_harts (s : State) (p : Nat) (f : Partition → Partition) : (s.modPart p f).harts = s.harts := rfl
@[simp] theorem modPart_ports (s : State) (p : Nat) (f : Partition → Partition) : (s.modPart p f).ports = s.ports := rfl
@[simp] theorem modPart_hub (s : State) (p : Nat) (f : Partition → Partition) : (s.modPart p f).hub = s.hub := rfl
@[simp] theorem modPart_peats (s : State) (p : Nat) (f : Partition → Partition) : (s.modPart p f).peats = s.peats := rfl
@[simp] theorem modPart_exch (s : State) (p : Nat) (f : Partition → Partition) : (s.modPart p f).exch = s.exch := rfl
@[simp] theorem modPart_colls (s : State) (p : Nat) (f : Partition → Partition) : (s.modPart p f).colls = s.colls := rfl
@[simp] theorem modPart_cluster_read (s : State) (p : Nat) (f : Partition → Partition) (x : Nat) : (s.modPart p f).cluster x = s.cluster x := rfl
@[simp] theorem modPart_queue_read (s : State) (p : Nat) (f : Partition → Partition) (x : Nat) : (s.modPart p f).queue x = s.queue x := rfl
@[simp] theorem modPart_lantern_read (s : State) (p : Nat) (f : Partition → Partition) (x : Nat) : (s.modPart p f).lantern x = s.lantern x := rfl
@[simp] theorem modPart_hart_read (s : State) (p : Nat) (f : Partition → Partition) (x : Nat) : (s.modPart p f).hart x = s.hart x := rfl
@[simp] theorem modPart_port_read (s : State) (p : Nat) (f : Partition → Partition) (x : Nat) : (s.modPart p f).port x = s.port x := rfl
@[simp] theorem modPart_dtime_read (s : State) (p : Nat) (f : Partition → Partition) : (s.modPart p f).dtime = s.dtime := rfl
@[simp] theorem modPart_block_read (s : State) (p : Nat) (f : Partition → Partition) (x : Key) : (s.modPart p f).block? x = s.block? x := rfl
@[simp] theorem modPart_launch_read (s : State) (p : Nat) (f : Partition → Partition) (x y : Nat) : (s.modPart p f).launch? x y = s.launch? x y := rfl
@[simp] theorem modPart_party_read (s : State) (p : Nat) (f : Partition → Partition) (x : Key) (y : Who) : (s.modPart p f).party? x y = s.party? x y := rfl

/-! ## setQueue -/

@[simp] theorem setQueue_agenda (s : State) (q : Nat) (v : Queue) : (s.setQueue q v).agenda = s.agenda := rfl
@[simp] theorem setQueue_fresh (s : State) (q : Nat) (v : Queue) : (s.setQueue q v).fresh = s.fresh := rfl
@[simp] theorem setQueue_turn (s : State) (q : Nat) (v : Queue) : (s.setQueue q v).turn = s.turn := rfl
@[simp] theorem setQueue_late (s : State) (q : Nat) (v : Queue) : (s.setQueue q v).late = s.late := rfl
@[simp] theorem setQueue_pass (s : State) (q : Nat) (v : Queue) : (s.setQueue q v).pass = s.pass := rfl
@[simp] theorem setQueue_fcyc (s : State) (q : Nat) (v : Queue) : (s.setQueue q v).fcyc = s.fcyc := rfl
@[simp] theorem setQueue_rail (s : State) (q : Nat) (v : Queue) : (s.setQueue q v).rail = s.rail := rfl
@[simp] theorem setQueue_boost (s : State) (q : Nat) (v : Queue) : (s.setQueue q v).boost = s.boost := rfl
@[simp] theorem setQueue_ms (s : State) (q : Nat) (v : Queue) : (s.setQueue q v).ms = s.ms := rfl
@[simp] theorem setQueue_blocks (s : State) (q : Nat) (v : Queue) : (s.setQueue q v).blocks = s.blocks := rfl
@[simp] theorem setQueue_gangs (s : State) (q : Nat) (v : Queue) : (s.setQueue q v).gangs = s.gangs := rfl
@[simp] theorem setQueue_launches (s : State) (q : Nat) (v : Queue) : (s.setQueue q v).launches = s.launches := rfl
@[simp] theorem setQueue_graphs (s : State) (q : Nat) (v : Queue) : (s.setQueue q v).graphs = s.graphs := rfl
@[simp] theorem setQueue_clusters (s : State) (q : Nat) (v : Queue) : (s.setQueue q v).clusters = s.clusters := rfl
@[simp] theorem setQueue_parts (s : State) (q : Nat) (v : Queue) : (s.setQueue q v).parts = s.parts := rfl
@[simp] theorem setQueue_queues (s : State) (q : Nat) (v : Queue) : (s.setQueue q v).queues = tabSet s.queues q v := rfl
@[simp] theorem setQueue_lanterns (s : State) (q : Nat) (v : Queue) : (s.setQueue q v).lanterns = s.lanterns := rfl
@[simp] theorem setQueue_harts (s : State) (q : Nat) (v : Queue) : (s.setQueue q v).harts = s.harts := rfl
@[simp] theorem setQueue_ports (s : State) (q : Nat) (v : Queue) : (s.setQueue q v).ports = s.ports := rfl
@[simp] theorem setQueue_hub (s : State) (q : Nat) (v : Queue) : (s.setQueue q v).hub = s.hub := rfl
@[simp] theorem setQueue_peats (s : State) (q : Nat) (v : Queue) : (s.setQueue q v).peats = s.peats := rfl
@[simp] theorem setQueue_exch (s : State) (q : Nat) (v : Queue) : (s.setQueue q v).exch = s.exch := rfl
@[simp] theorem setQueue_colls (s : State) (q : Nat) (v : Queue) : (s.setQueue q v).colls = s.colls := rfl
@[simp] theorem setQueue_cluster_read (s : State) (q : Nat) (v : Queue) (x : Nat) : (s.setQueue q v).cluster x = s.cluster x := rfl
@[simp] theorem setQueue_part_read (s : State) (q : Nat) (v : Queue) (x : Nat) : (s.setQueue q v).part x = s.part x := rfl
@[simp] theorem setQueue_lantern_read (s : State) (q : Nat) (v : Queue) (x : Nat) : (s.setQueue q v).lantern x = s.lantern x := rfl
@[simp] theorem setQueue_hart_read (s : State) (q : Nat) (v : Queue) (x : Nat) : (s.setQueue q v).hart x = s.hart x := rfl
@[simp] theorem setQueue_port_read (s : State) (q : Nat) (v : Queue) (x : Nat) : (s.setQueue q v).port x = s.port x := rfl
@[simp] theorem setQueue_dtime_read (s : State) (q : Nat) (v : Queue) : (s.setQueue q v).dtime = s.dtime := rfl
@[simp] theorem setQueue_block_read (s : State) (q : Nat) (v : Queue) (x : Key) : (s.setQueue q v).block? x = s.block? x := rfl
@[simp] theorem setQueue_launch_read (s : State) (q : Nat) (v : Queue) (x y : Nat) : (s.setQueue q v).launch? x y = s.launch? x y := rfl
@[simp] theorem setQueue_party_read (s : State) (q : Nat) (v : Queue) (x : Key) (y : Who) : (s.setQueue q v).party? x y = s.party? x y := rfl

/-! ## modQueue -/

@[simp] theorem modQueue_agenda (s : State) (q : Nat) (f : Queue → Queue) : (s.modQueue q f).agenda = s.agenda := rfl
@[simp] theorem modQueue_fresh (s : State) (q : Nat) (f : Queue → Queue) : (s.modQueue q f).fresh = s.fresh := rfl
@[simp] theorem modQueue_turn (s : State) (q : Nat) (f : Queue → Queue) : (s.modQueue q f).turn = s.turn := rfl
@[simp] theorem modQueue_late (s : State) (q : Nat) (f : Queue → Queue) : (s.modQueue q f).late = s.late := rfl
@[simp] theorem modQueue_pass (s : State) (q : Nat) (f : Queue → Queue) : (s.modQueue q f).pass = s.pass := rfl
@[simp] theorem modQueue_fcyc (s : State) (q : Nat) (f : Queue → Queue) : (s.modQueue q f).fcyc = s.fcyc := rfl
@[simp] theorem modQueue_rail (s : State) (q : Nat) (f : Queue → Queue) : (s.modQueue q f).rail = s.rail := rfl
@[simp] theorem modQueue_boost (s : State) (q : Nat) (f : Queue → Queue) : (s.modQueue q f).boost = s.boost := rfl
@[simp] theorem modQueue_ms (s : State) (q : Nat) (f : Queue → Queue) : (s.modQueue q f).ms = s.ms := rfl
@[simp] theorem modQueue_blocks (s : State) (q : Nat) (f : Queue → Queue) : (s.modQueue q f).blocks = s.blocks := rfl
@[simp] theorem modQueue_gangs (s : State) (q : Nat) (f : Queue → Queue) : (s.modQueue q f).gangs = s.gangs := rfl
@[simp] theorem modQueue_launches (s : State) (q : Nat) (f : Queue → Queue) : (s.modQueue q f).launches = s.launches := rfl
@[simp] theorem modQueue_graphs (s : State) (q : Nat) (f : Queue → Queue) : (s.modQueue q f).graphs = s.graphs := rfl
@[simp] theorem modQueue_clusters (s : State) (q : Nat) (f : Queue → Queue) : (s.modQueue q f).clusters = s.clusters := rfl
@[simp] theorem modQueue_parts (s : State) (q : Nat) (f : Queue → Queue) : (s.modQueue q f).parts = s.parts := rfl
@[simp] theorem modQueue_queues (s : State) (q : Nat) (f : Queue → Queue) : (s.modQueue q f).queues = tabSet s.queues q (f (s.queue q)) := rfl
@[simp] theorem modQueue_lanterns (s : State) (q : Nat) (f : Queue → Queue) : (s.modQueue q f).lanterns = s.lanterns := rfl
@[simp] theorem modQueue_harts (s : State) (q : Nat) (f : Queue → Queue) : (s.modQueue q f).harts = s.harts := rfl
@[simp] theorem modQueue_ports (s : State) (q : Nat) (f : Queue → Queue) : (s.modQueue q f).ports = s.ports := rfl
@[simp] theorem modQueue_hub (s : State) (q : Nat) (f : Queue → Queue) : (s.modQueue q f).hub = s.hub := rfl
@[simp] theorem modQueue_peats (s : State) (q : Nat) (f : Queue → Queue) : (s.modQueue q f).peats = s.peats := rfl
@[simp] theorem modQueue_exch (s : State) (q : Nat) (f : Queue → Queue) : (s.modQueue q f).exch = s.exch := rfl
@[simp] theorem modQueue_colls (s : State) (q : Nat) (f : Queue → Queue) : (s.modQueue q f).colls = s.colls := rfl
@[simp] theorem modQueue_cluster_read (s : State) (q : Nat) (f : Queue → Queue) (x : Nat) : (s.modQueue q f).cluster x = s.cluster x := rfl
@[simp] theorem modQueue_part_read (s : State) (q : Nat) (f : Queue → Queue) (x : Nat) : (s.modQueue q f).part x = s.part x := rfl
@[simp] theorem modQueue_lantern_read (s : State) (q : Nat) (f : Queue → Queue) (x : Nat) : (s.modQueue q f).lantern x = s.lantern x := rfl
@[simp] theorem modQueue_hart_read (s : State) (q : Nat) (f : Queue → Queue) (x : Nat) : (s.modQueue q f).hart x = s.hart x := rfl
@[simp] theorem modQueue_port_read (s : State) (q : Nat) (f : Queue → Queue) (x : Nat) : (s.modQueue q f).port x = s.port x := rfl
@[simp] theorem modQueue_dtime_read (s : State) (q : Nat) (f : Queue → Queue) : (s.modQueue q f).dtime = s.dtime := rfl
@[simp] theorem modQueue_block_read (s : State) (q : Nat) (f : Queue → Queue) (x : Key) : (s.modQueue q f).block? x = s.block? x := rfl
@[simp] theorem modQueue_launch_read (s : State) (q : Nat) (f : Queue → Queue) (x y : Nat) : (s.modQueue q f).launch? x y = s.launch? x y := rfl
@[simp] theorem modQueue_party_read (s : State) (q : Nat) (f : Queue → Queue) (x : Key) (y : Who) : (s.modQueue q f).party? x y = s.party? x y := rfl

/-! ## setLantern -/

@[simp] theorem setLantern_agenda (s : State) (n : Nat) (v : HubCore) : (s.setLantern n v).agenda = s.agenda := rfl
@[simp] theorem setLantern_fresh (s : State) (n : Nat) (v : HubCore) : (s.setLantern n v).fresh = s.fresh := rfl
@[simp] theorem setLantern_turn (s : State) (n : Nat) (v : HubCore) : (s.setLantern n v).turn = s.turn := rfl
@[simp] theorem setLantern_late (s : State) (n : Nat) (v : HubCore) : (s.setLantern n v).late = s.late := rfl
@[simp] theorem setLantern_pass (s : State) (n : Nat) (v : HubCore) : (s.setLantern n v).pass = s.pass := rfl
@[simp] theorem setLantern_fcyc (s : State) (n : Nat) (v : HubCore) : (s.setLantern n v).fcyc = s.fcyc := rfl
@[simp] theorem setLantern_rail (s : State) (n : Nat) (v : HubCore) : (s.setLantern n v).rail = s.rail := rfl
@[simp] theorem setLantern_boost (s : State) (n : Nat) (v : HubCore) : (s.setLantern n v).boost = s.boost := rfl
@[simp] theorem setLantern_ms (s : State) (n : Nat) (v : HubCore) : (s.setLantern n v).ms = s.ms := rfl
@[simp] theorem setLantern_blocks (s : State) (n : Nat) (v : HubCore) : (s.setLantern n v).blocks = s.blocks := rfl
@[simp] theorem setLantern_gangs (s : State) (n : Nat) (v : HubCore) : (s.setLantern n v).gangs = s.gangs := rfl
@[simp] theorem setLantern_launches (s : State) (n : Nat) (v : HubCore) : (s.setLantern n v).launches = s.launches := rfl
@[simp] theorem setLantern_graphs (s : State) (n : Nat) (v : HubCore) : (s.setLantern n v).graphs = s.graphs := rfl
@[simp] theorem setLantern_clusters (s : State) (n : Nat) (v : HubCore) : (s.setLantern n v).clusters = s.clusters := rfl
@[simp] theorem setLantern_parts (s : State) (n : Nat) (v : HubCore) : (s.setLantern n v).parts = s.parts := rfl
@[simp] theorem setLantern_queues (s : State) (n : Nat) (v : HubCore) : (s.setLantern n v).queues = s.queues := rfl
@[simp] theorem setLantern_lanterns (s : State) (n : Nat) (v : HubCore) : (s.setLantern n v).lanterns = tabSet s.lanterns n v := rfl
@[simp] theorem setLantern_harts (s : State) (n : Nat) (v : HubCore) : (s.setLantern n v).harts = s.harts := rfl
@[simp] theorem setLantern_ports (s : State) (n : Nat) (v : HubCore) : (s.setLantern n v).ports = s.ports := rfl
@[simp] theorem setLantern_hub (s : State) (n : Nat) (v : HubCore) : (s.setLantern n v).hub = s.hub := rfl
@[simp] theorem setLantern_peats (s : State) (n : Nat) (v : HubCore) : (s.setLantern n v).peats = s.peats := rfl
@[simp] theorem setLantern_exch (s : State) (n : Nat) (v : HubCore) : (s.setLantern n v).exch = s.exch := rfl
@[simp] theorem setLantern_colls (s : State) (n : Nat) (v : HubCore) : (s.setLantern n v).colls = s.colls := rfl
@[simp] theorem setLantern_cluster_read (s : State) (n : Nat) (v : HubCore) (x : Nat) : (s.setLantern n v).cluster x = s.cluster x := rfl
@[simp] theorem setLantern_part_read (s : State) (n : Nat) (v : HubCore) (x : Nat) : (s.setLantern n v).part x = s.part x := rfl
@[simp] theorem setLantern_queue_read (s : State) (n : Nat) (v : HubCore) (x : Nat) : (s.setLantern n v).queue x = s.queue x := rfl
@[simp] theorem setLantern_hart_read (s : State) (n : Nat) (v : HubCore) (x : Nat) : (s.setLantern n v).hart x = s.hart x := rfl
@[simp] theorem setLantern_port_read (s : State) (n : Nat) (v : HubCore) (x : Nat) : (s.setLantern n v).port x = s.port x := rfl
@[simp] theorem setLantern_dtime_read (s : State) (n : Nat) (v : HubCore) : (s.setLantern n v).dtime = s.dtime := rfl
@[simp] theorem setLantern_block_read (s : State) (n : Nat) (v : HubCore) (x : Key) : (s.setLantern n v).block? x = s.block? x := rfl
@[simp] theorem setLantern_launch_read (s : State) (n : Nat) (v : HubCore) (x y : Nat) : (s.setLantern n v).launch? x y = s.launch? x y := rfl
@[simp] theorem setLantern_party_read (s : State) (n : Nat) (v : HubCore) (x : Key) (y : Who) : (s.setLantern n v).party? x y = s.party? x y := rfl

/-! ## setHart -/

@[simp] theorem setHart_agenda (s : State) (n : Nat) (v : HubCore) : (s.setHart n v).agenda = s.agenda := rfl
@[simp] theorem setHart_fresh (s : State) (n : Nat) (v : HubCore) : (s.setHart n v).fresh = s.fresh := rfl
@[simp] theorem setHart_turn (s : State) (n : Nat) (v : HubCore) : (s.setHart n v).turn = s.turn := rfl
@[simp] theorem setHart_late (s : State) (n : Nat) (v : HubCore) : (s.setHart n v).late = s.late := rfl
@[simp] theorem setHart_pass (s : State) (n : Nat) (v : HubCore) : (s.setHart n v).pass = s.pass := rfl
@[simp] theorem setHart_fcyc (s : State) (n : Nat) (v : HubCore) : (s.setHart n v).fcyc = s.fcyc := rfl
@[simp] theorem setHart_rail (s : State) (n : Nat) (v : HubCore) : (s.setHart n v).rail = s.rail := rfl
@[simp] theorem setHart_boost (s : State) (n : Nat) (v : HubCore) : (s.setHart n v).boost = s.boost := rfl
@[simp] theorem setHart_ms (s : State) (n : Nat) (v : HubCore) : (s.setHart n v).ms = s.ms := rfl
@[simp] theorem setHart_blocks (s : State) (n : Nat) (v : HubCore) : (s.setHart n v).blocks = s.blocks := rfl
@[simp] theorem setHart_gangs (s : State) (n : Nat) (v : HubCore) : (s.setHart n v).gangs = s.gangs := rfl
@[simp] theorem setHart_launches (s : State) (n : Nat) (v : HubCore) : (s.setHart n v).launches = s.launches := rfl
@[simp] theorem setHart_graphs (s : State) (n : Nat) (v : HubCore) : (s.setHart n v).graphs = s.graphs := rfl
@[simp] theorem setHart_clusters (s : State) (n : Nat) (v : HubCore) : (s.setHart n v).clusters = s.clusters := rfl
@[simp] theorem setHart_parts (s : State) (n : Nat) (v : HubCore) : (s.setHart n v).parts = s.parts := rfl
@[simp] theorem setHart_queues (s : State) (n : Nat) (v : HubCore) : (s.setHart n v).queues = s.queues := rfl
@[simp] theorem setHart_lanterns (s : State) (n : Nat) (v : HubCore) : (s.setHart n v).lanterns = s.lanterns := rfl
@[simp] theorem setHart_harts (s : State) (n : Nat) (v : HubCore) : (s.setHart n v).harts = tabSet s.harts n v := rfl
@[simp] theorem setHart_ports (s : State) (n : Nat) (v : HubCore) : (s.setHart n v).ports = s.ports := rfl
@[simp] theorem setHart_hub (s : State) (n : Nat) (v : HubCore) : (s.setHart n v).hub = s.hub := rfl
@[simp] theorem setHart_peats (s : State) (n : Nat) (v : HubCore) : (s.setHart n v).peats = s.peats := rfl
@[simp] theorem setHart_exch (s : State) (n : Nat) (v : HubCore) : (s.setHart n v).exch = s.exch := rfl
@[simp] theorem setHart_colls (s : State) (n : Nat) (v : HubCore) : (s.setHart n v).colls = s.colls := rfl
@[simp] theorem setHart_cluster_read (s : State) (n : Nat) (v : HubCore) (x : Nat) : (s.setHart n v).cluster x = s.cluster x := rfl
@[simp] theorem setHart_part_read (s : State) (n : Nat) (v : HubCore) (x : Nat) : (s.setHart n v).part x = s.part x := rfl
@[simp] theorem setHart_queue_read (s : State) (n : Nat) (v : HubCore) (x : Nat) : (s.setHart n v).queue x = s.queue x := rfl
@[simp] theorem setHart_lantern_read (s : State) (n : Nat) (v : HubCore) (x : Nat) : (s.setHart n v).lantern x = s.lantern x := rfl
@[simp] theorem setHart_port_read (s : State) (n : Nat) (v : HubCore) (x : Nat) : (s.setHart n v).port x = s.port x := rfl
@[simp] theorem setHart_dtime_read (s : State) (n : Nat) (v : HubCore) : (s.setHart n v).dtime = s.dtime := rfl
@[simp] theorem setHart_block_read (s : State) (n : Nat) (v : HubCore) (x : Key) : (s.setHart n v).block? x = s.block? x := rfl
@[simp] theorem setHart_launch_read (s : State) (n : Nat) (v : HubCore) (x y : Nat) : (s.setHart n v).launch? x y = s.launch? x y := rfl
@[simp] theorem setHart_party_read (s : State) (n : Nat) (v : HubCore) (x : Key) (y : Who) : (s.setHart n v).party? x y = s.party? x y := rfl

/-! ## modPort -/

@[simp] theorem modPort_agenda (s : State) (n : Nat) (f : Port → Port) : (s.modPort n f).agenda = s.agenda := rfl
@[simp] theorem modPort_fresh (s : State) (n : Nat) (f : Port → Port) : (s.modPort n f).fresh = s.fresh := rfl
@[simp] theorem modPort_turn (s : State) (n : Nat) (f : Port → Port) : (s.modPort n f).turn = s.turn := rfl
@[simp] theorem modPort_late (s : State) (n : Nat) (f : Port → Port) : (s.modPort n f).late = s.late := rfl
@[simp] theorem modPort_pass (s : State) (n : Nat) (f : Port → Port) : (s.modPort n f).pass = s.pass := rfl
@[simp] theorem modPort_fcyc (s : State) (n : Nat) (f : Port → Port) : (s.modPort n f).fcyc = s.fcyc := rfl
@[simp] theorem modPort_rail (s : State) (n : Nat) (f : Port → Port) : (s.modPort n f).rail = s.rail := rfl
@[simp] theorem modPort_boost (s : State) (n : Nat) (f : Port → Port) : (s.modPort n f).boost = s.boost := rfl
@[simp] theorem modPort_ms (s : State) (n : Nat) (f : Port → Port) : (s.modPort n f).ms = s.ms := rfl
@[simp] theorem modPort_blocks (s : State) (n : Nat) (f : Port → Port) : (s.modPort n f).blocks = s.blocks := rfl
@[simp] theorem modPort_gangs (s : State) (n : Nat) (f : Port → Port) : (s.modPort n f).gangs = s.gangs := rfl
@[simp] theorem modPort_launches (s : State) (n : Nat) (f : Port → Port) : (s.modPort n f).launches = s.launches := rfl
@[simp] theorem modPort_graphs (s : State) (n : Nat) (f : Port → Port) : (s.modPort n f).graphs = s.graphs := rfl
@[simp] theorem modPort_clusters (s : State) (n : Nat) (f : Port → Port) : (s.modPort n f).clusters = s.clusters := rfl
@[simp] theorem modPort_parts (s : State) (n : Nat) (f : Port → Port) : (s.modPort n f).parts = s.parts := rfl
@[simp] theorem modPort_queues (s : State) (n : Nat) (f : Port → Port) : (s.modPort n f).queues = s.queues := rfl
@[simp] theorem modPort_lanterns (s : State) (n : Nat) (f : Port → Port) : (s.modPort n f).lanterns = s.lanterns := rfl
@[simp] theorem modPort_harts (s : State) (n : Nat) (f : Port → Port) : (s.modPort n f).harts = s.harts := rfl
@[simp] theorem modPort_ports (s : State) (n : Nat) (f : Port → Port) : (s.modPort n f).ports = tabSet s.ports n (f (s.port n)) := rfl
@[simp] theorem modPort_hub (s : State) (n : Nat) (f : Port → Port) : (s.modPort n f).hub = s.hub := rfl
@[simp] theorem modPort_peats (s : State) (n : Nat) (f : Port → Port) : (s.modPort n f).peats = s.peats := rfl
@[simp] theorem modPort_exch (s : State) (n : Nat) (f : Port → Port) : (s.modPort n f).exch = s.exch := rfl
@[simp] theorem modPort_colls (s : State) (n : Nat) (f : Port → Port) : (s.modPort n f).colls = s.colls := rfl
@[simp] theorem modPort_cluster_read (s : State) (n : Nat) (f : Port → Port) (x : Nat) : (s.modPort n f).cluster x = s.cluster x := rfl
@[simp] theorem modPort_part_read (s : State) (n : Nat) (f : Port → Port) (x : Nat) : (s.modPort n f).part x = s.part x := rfl
@[simp] theorem modPort_queue_read (s : State) (n : Nat) (f : Port → Port) (x : Nat) : (s.modPort n f).queue x = s.queue x := rfl
@[simp] theorem modPort_lantern_read (s : State) (n : Nat) (f : Port → Port) (x : Nat) : (s.modPort n f).lantern x = s.lantern x := rfl
@[simp] theorem modPort_hart_read (s : State) (n : Nat) (f : Port → Port) (x : Nat) : (s.modPort n f).hart x = s.hart x := rfl
@[simp] theorem modPort_dtime_read (s : State) (n : Nat) (f : Port → Port) : (s.modPort n f).dtime = s.dtime := rfl
@[simp] theorem modPort_block_read (s : State) (n : Nat) (f : Port → Port) (x : Key) : (s.modPort n f).block? x = s.block? x := rfl
@[simp] theorem modPort_launch_read (s : State) (n : Nat) (f : Port → Port) (x y : Nat) : (s.modPort n f).launch? x y = s.launch? x y := rfl
@[simp] theorem modPort_party_read (s : State) (n : Nat) (f : Port → Port) (x : Key) (y : Who) : (s.modPort n f).party? x y = s.party? x y := rfl

/-! ## modBlock -/

@[simp] theorem modBlock_agenda (s : State) (k : Key) (f : Block → Block) : (s.modBlock k f).agenda = s.agenda := rfl
@[simp] theorem modBlock_fresh (s : State) (k : Key) (f : Block → Block) : (s.modBlock k f).fresh = s.fresh := rfl
@[simp] theorem modBlock_turn (s : State) (k : Key) (f : Block → Block) : (s.modBlock k f).turn = s.turn := rfl
@[simp] theorem modBlock_late (s : State) (k : Key) (f : Block → Block) : (s.modBlock k f).late = s.late := rfl
@[simp] theorem modBlock_pass (s : State) (k : Key) (f : Block → Block) : (s.modBlock k f).pass = s.pass := rfl
@[simp] theorem modBlock_fcyc (s : State) (k : Key) (f : Block → Block) : (s.modBlock k f).fcyc = s.fcyc := rfl
@[simp] theorem modBlock_rail (s : State) (k : Key) (f : Block → Block) : (s.modBlock k f).rail = s.rail := rfl
@[simp] theorem modBlock_boost (s : State) (k : Key) (f : Block → Block) : (s.modBlock k f).boost = s.boost := rfl
@[simp] theorem modBlock_ms (s : State) (k : Key) (f : Block → Block) : (s.modBlock k f).ms = s.ms := rfl
@[simp] theorem modBlock_blocks (s : State) (k : Key) (f : Block → Block) : (s.modBlock k f).blocks = s.blocks.map fun b => if b.key = k then f b else b := rfl
@[simp] theorem modBlock_gangs (s : State) (k : Key) (f : Block → Block) : (s.modBlock k f).gangs = s.gangs := rfl
@[simp] theorem modBlock_launches (s : State) (k : Key) (f : Block → Block) : (s.modBlock k f).launches = s.launches := rfl
@[simp] theorem modBlock_graphs (s : State) (k : Key) (f : Block → Block) : (s.modBlock k f).graphs = s.graphs := rfl
@[simp] theorem modBlock_clusters (s : State) (k : Key) (f : Block → Block) : (s.modBlock k f).clusters = s.clusters := rfl
@[simp] theorem modBlock_parts (s : State) (k : Key) (f : Block → Block) : (s.modBlock k f).parts = s.parts := rfl
@[simp] theorem modBlock_queues (s : State) (k : Key) (f : Block → Block) : (s.modBlock k f).queues = s.queues := rfl
@[simp] theorem modBlock_lanterns (s : State) (k : Key) (f : Block → Block) : (s.modBlock k f).lanterns = s.lanterns := rfl
@[simp] theorem modBlock_harts (s : State) (k : Key) (f : Block → Block) : (s.modBlock k f).harts = s.harts := rfl
@[simp] theorem modBlock_ports (s : State) (k : Key) (f : Block → Block) : (s.modBlock k f).ports = s.ports := rfl
@[simp] theorem modBlock_hub (s : State) (k : Key) (f : Block → Block) : (s.modBlock k f).hub = s.hub := rfl
@[simp] theorem modBlock_peats (s : State) (k : Key) (f : Block → Block) : (s.modBlock k f).peats = s.peats := rfl
@[simp] theorem modBlock_exch (s : State) (k : Key) (f : Block → Block) : (s.modBlock k f).exch = s.exch := rfl
@[simp] theorem modBlock_colls (s : State) (k : Key) (f : Block → Block) : (s.modBlock k f).colls = s.colls := rfl
@[simp] theorem modBlock_cluster_read (s : State) (k : Key) (f : Block → Block) (x : Nat) : (s.modBlock k f).cluster x = s.cluster x := rfl
@[simp] theorem modBlock_part_read (s : State) (k : Key) (f : Block → Block) (x : Nat) : (s.modBlock k f).part x = s.part x := rfl
@[simp] theorem modBlock_queue_read (s : State) (k : Key) (f : Block → Block) (x : Nat) : (s.modBlock k f).queue x = s.queue x := rfl
@[simp] theorem modBlock_lantern_read (s : State) (k : Key) (f : Block → Block) (x : Nat) : (s.modBlock k f).lantern x = s.lantern x := rfl
@[simp] theorem modBlock_hart_read (s : State) (k : Key) (f : Block → Block) (x : Nat) : (s.modBlock k f).hart x = s.hart x := rfl
@[simp] theorem modBlock_port_read (s : State) (k : Key) (f : Block → Block) (x : Nat) : (s.modBlock k f).port x = s.port x := rfl
@[simp] theorem modBlock_dtime_read (s : State) (k : Key) (f : Block → Block) : (s.modBlock k f).dtime = s.dtime := rfl
@[simp] theorem modBlock_launch_read (s : State) (k : Key) (f : Block → Block) (x y : Nat) : (s.modBlock k f).launch? x y = s.launch? x y := rfl

/-! ## modLaunch -/

@[simp] theorem modLaunch_agenda (s : State) (p g : Nat) (f : Launch → Launch) : (s.modLaunch p g f).agenda = s.agenda := rfl
@[simp] theorem modLaunch_fresh (s : State) (p g : Nat) (f : Launch → Launch) : (s.modLaunch p g f).fresh = s.fresh := rfl
@[simp] theorem modLaunch_turn (s : State) (p g : Nat) (f : Launch → Launch) : (s.modLaunch p g f).turn = s.turn := rfl
@[simp] theorem modLaunch_late (s : State) (p g : Nat) (f : Launch → Launch) : (s.modLaunch p g f).late = s.late := rfl
@[simp] theorem modLaunch_pass (s : State) (p g : Nat) (f : Launch → Launch) : (s.modLaunch p g f).pass = s.pass := rfl
@[simp] theorem modLaunch_fcyc (s : State) (p g : Nat) (f : Launch → Launch) : (s.modLaunch p g f).fcyc = s.fcyc := rfl
@[simp] theorem modLaunch_rail (s : State) (p g : Nat) (f : Launch → Launch) : (s.modLaunch p g f).rail = s.rail := rfl
@[simp] theorem modLaunch_boost (s : State) (p g : Nat) (f : Launch → Launch) : (s.modLaunch p g f).boost = s.boost := rfl
@[simp] theorem modLaunch_ms (s : State) (p g : Nat) (f : Launch → Launch) : (s.modLaunch p g f).ms = s.ms := rfl
@[simp] theorem modLaunch_blocks (s : State) (p g : Nat) (f : Launch → Launch) : (s.modLaunch p g f).blocks = s.blocks := rfl
@[simp] theorem modLaunch_gangs (s : State) (p g : Nat) (f : Launch → Launch) : (s.modLaunch p g f).gangs = s.gangs := rfl
@[simp] theorem modLaunch_launches (s : State) (p g : Nat) (f : Launch → Launch) : (s.modLaunch p g f).launches = s.launches.map fun l => if l.part = p && l.grid = g then f l else l := rfl
@[simp] theorem modLaunch_graphs (s : State) (p g : Nat) (f : Launch → Launch) : (s.modLaunch p g f).graphs = s.graphs := rfl
@[simp] theorem modLaunch_clusters (s : State) (p g : Nat) (f : Launch → Launch) : (s.modLaunch p g f).clusters = s.clusters := rfl
@[simp] theorem modLaunch_parts (s : State) (p g : Nat) (f : Launch → Launch) : (s.modLaunch p g f).parts = s.parts := rfl
@[simp] theorem modLaunch_queues (s : State) (p g : Nat) (f : Launch → Launch) : (s.modLaunch p g f).queues = s.queues := rfl
@[simp] theorem modLaunch_lanterns (s : State) (p g : Nat) (f : Launch → Launch) : (s.modLaunch p g f).lanterns = s.lanterns := rfl
@[simp] theorem modLaunch_harts (s : State) (p g : Nat) (f : Launch → Launch) : (s.modLaunch p g f).harts = s.harts := rfl
@[simp] theorem modLaunch_ports (s : State) (p g : Nat) (f : Launch → Launch) : (s.modLaunch p g f).ports = s.ports := rfl
@[simp] theorem modLaunch_hub (s : State) (p g : Nat) (f : Launch → Launch) : (s.modLaunch p g f).hub = s.hub := rfl
@[simp] theorem modLaunch_peats (s : State) (p g : Nat) (f : Launch → Launch) : (s.modLaunch p g f).peats = s.peats := rfl
@[simp] theorem modLaunch_exch (s : State) (p g : Nat) (f : Launch → Launch) : (s.modLaunch p g f).exch = s.exch := rfl
@[simp] theorem modLaunch_colls (s : State) (p g : Nat) (f : Launch → Launch) : (s.modLaunch p g f).colls = s.colls := rfl
@[simp] theorem modLaunch_cluster_read (s : State) (p g : Nat) (f : Launch → Launch) (x : Nat) : (s.modLaunch p g f).cluster x = s.cluster x := rfl
@[simp] theorem modLaunch_part_read (s : State) (p g : Nat) (f : Launch → Launch) (x : Nat) : (s.modLaunch p g f).part x = s.part x := rfl
@[simp] theorem modLaunch_queue_read (s : State) (p g : Nat) (f : Launch → Launch) (x : Nat) : (s.modLaunch p g f).queue x = s.queue x := rfl
@[simp] theorem modLaunch_lantern_read (s : State) (p g : Nat) (f : Launch → Launch) (x : Nat) : (s.modLaunch p g f).lantern x = s.lantern x := rfl
@[simp] theorem modLaunch_hart_read (s : State) (p g : Nat) (f : Launch → Launch) (x : Nat) : (s.modLaunch p g f).hart x = s.hart x := rfl
@[simp] theorem modLaunch_port_read (s : State) (p g : Nat) (f : Launch → Launch) (x : Nat) : (s.modLaunch p g f).port x = s.port x := rfl
@[simp] theorem modLaunch_dtime_read (s : State) (p g : Nat) (f : Launch → Launch) : (s.modLaunch p g f).dtime = s.dtime := rfl
@[simp] theorem modLaunch_block_read (s : State) (p g : Nat) (f : Launch → Launch) (x : Key) : (s.modLaunch p g f).block? x = s.block? x := rfl
@[simp] theorem modLaunch_party_read (s : State) (p g : Nat) (f : Launch → Launch) (x : Key) (y : Who) : (s.modLaunch p g f).party? x y = s.party? x y := rfl

/-! ## modParty -/

@[simp] theorem modParty_agenda (s : State) (k : Key) (w : Who) (f : Party → Party) : (s.modParty k w f).agenda = s.agenda := rfl
@[simp] theorem modParty_fresh (s : State) (k : Key) (w : Who) (f : Party → Party) : (s.modParty k w f).fresh = s.fresh := rfl
@[simp] theorem modParty_turn (s : State) (k : Key) (w : Who) (f : Party → Party) : (s.modParty k w f).turn = s.turn := rfl
@[simp] theorem modParty_late (s : State) (k : Key) (w : Who) (f : Party → Party) : (s.modParty k w f).late = s.late := rfl
@[simp] theorem modParty_pass (s : State) (k : Key) (w : Who) (f : Party → Party) : (s.modParty k w f).pass = s.pass := rfl
@[simp] theorem modParty_fcyc (s : State) (k : Key) (w : Who) (f : Party → Party) : (s.modParty k w f).fcyc = s.fcyc := rfl
@[simp] theorem modParty_rail (s : State) (k : Key) (w : Who) (f : Party → Party) : (s.modParty k w f).rail = s.rail := rfl
@[simp] theorem modParty_boost (s : State) (k : Key) (w : Who) (f : Party → Party) : (s.modParty k w f).boost = s.boost := rfl
@[simp] theorem modParty_ms (s : State) (k : Key) (w : Who) (f : Party → Party) : (s.modParty k w f).ms = s.ms := rfl
@[simp] theorem modParty_blocks (s : State) (k : Key) (w : Who) (f : Party → Party) : (s.modParty k w f).blocks = s.blocks.map fun b => if b.key = k then b.modParty w f else b := rfl
@[simp] theorem modParty_gangs (s : State) (k : Key) (w : Who) (f : Party → Party) : (s.modParty k w f).gangs = s.gangs := rfl
@[simp] theorem modParty_launches (s : State) (k : Key) (w : Who) (f : Party → Party) : (s.modParty k w f).launches = s.launches := rfl
@[simp] theorem modParty_graphs (s : State) (k : Key) (w : Who) (f : Party → Party) : (s.modParty k w f).graphs = s.graphs := rfl
@[simp] theorem modParty_clusters (s : State) (k : Key) (w : Who) (f : Party → Party) : (s.modParty k w f).clusters = s.clusters := rfl
@[simp] theorem modParty_parts (s : State) (k : Key) (w : Who) (f : Party → Party) : (s.modParty k w f).parts = s.parts := rfl
@[simp] theorem modParty_queues (s : State) (k : Key) (w : Who) (f : Party → Party) : (s.modParty k w f).queues = s.queues := rfl
@[simp] theorem modParty_lanterns (s : State) (k : Key) (w : Who) (f : Party → Party) : (s.modParty k w f).lanterns = s.lanterns := rfl
@[simp] theorem modParty_harts (s : State) (k : Key) (w : Who) (f : Party → Party) : (s.modParty k w f).harts = s.harts := rfl
@[simp] theorem modParty_ports (s : State) (k : Key) (w : Who) (f : Party → Party) : (s.modParty k w f).ports = s.ports := rfl
@[simp] theorem modParty_hub (s : State) (k : Key) (w : Who) (f : Party → Party) : (s.modParty k w f).hub = s.hub := rfl
@[simp] theorem modParty_peats (s : State) (k : Key) (w : Who) (f : Party → Party) : (s.modParty k w f).peats = s.peats := rfl
@[simp] theorem modParty_exch (s : State) (k : Key) (w : Who) (f : Party → Party) : (s.modParty k w f).exch = s.exch := rfl
@[simp] theorem modParty_colls (s : State) (k : Key) (w : Who) (f : Party → Party) : (s.modParty k w f).colls = s.colls := rfl
@[simp] theorem modParty_cluster_read (s : State) (k : Key) (w : Who) (f : Party → Party) (x : Nat) : (s.modParty k w f).cluster x = s.cluster x := rfl
@[simp] theorem modParty_part_read (s : State) (k : Key) (w : Who) (f : Party → Party) (x : Nat) : (s.modParty k w f).part x = s.part x := rfl
@[simp] theorem modParty_queue_read (s : State) (k : Key) (w : Who) (f : Party → Party) (x : Nat) : (s.modParty k w f).queue x = s.queue x := rfl
@[simp] theorem modParty_lantern_read (s : State) (k : Key) (w : Who) (f : Party → Party) (x : Nat) : (s.modParty k w f).lantern x = s.lantern x := rfl
@[simp] theorem modParty_hart_read (s : State) (k : Key) (w : Who) (f : Party → Party) (x : Nat) : (s.modParty k w f).hart x = s.hart x := rfl
@[simp] theorem modParty_port_read (s : State) (k : Key) (w : Who) (f : Party → Party) (x : Nat) : (s.modParty k w f).port x = s.port x := rfl
@[simp] theorem modParty_dtime_read (s : State) (k : Key) (w : Who) (f : Party → Party) : (s.modParty k w f).dtime = s.dtime := rfl
@[simp] theorem modParty_launch_read (s : State) (k : Key) (w : Who) (f : Party → Party) (x y : Nat) : (s.modParty k w f).launch? x y = s.launch? x y := rfl

/-! ## modFrag -/

@[simp] theorem modFrag_agenda (s : State) (k : Key) (w : Who) (i : Nat) (f : Frag → Frag) : (s.modFrag k w i f).agenda = s.agenda := rfl
@[simp] theorem modFrag_fresh (s : State) (k : Key) (w : Who) (i : Nat) (f : Frag → Frag) : (s.modFrag k w i f).fresh = s.fresh := rfl
@[simp] theorem modFrag_turn (s : State) (k : Key) (w : Who) (i : Nat) (f : Frag → Frag) : (s.modFrag k w i f).turn = s.turn := rfl
@[simp] theorem modFrag_late (s : State) (k : Key) (w : Who) (i : Nat) (f : Frag → Frag) : (s.modFrag k w i f).late = s.late := rfl
@[simp] theorem modFrag_pass (s : State) (k : Key) (w : Who) (i : Nat) (f : Frag → Frag) : (s.modFrag k w i f).pass = s.pass := rfl
@[simp] theorem modFrag_fcyc (s : State) (k : Key) (w : Who) (i : Nat) (f : Frag → Frag) : (s.modFrag k w i f).fcyc = s.fcyc := rfl
@[simp] theorem modFrag_rail (s : State) (k : Key) (w : Who) (i : Nat) (f : Frag → Frag) : (s.modFrag k w i f).rail = s.rail := rfl
@[simp] theorem modFrag_boost (s : State) (k : Key) (w : Who) (i : Nat) (f : Frag → Frag) : (s.modFrag k w i f).boost = s.boost := rfl
@[simp] theorem modFrag_ms (s : State) (k : Key) (w : Who) (i : Nat) (f : Frag → Frag) : (s.modFrag k w i f).ms = s.ms := rfl
@[simp] theorem modFrag_blocks (s : State) (k : Key) (w : Who) (i : Nat) (f : Frag → Frag) : (s.modFrag k w i f).blocks = s.blocks.map fun b => if b.key = k then b.modParty w (fun p => p.modFrag i f) else b := rfl
@[simp] theorem modFrag_gangs (s : State) (k : Key) (w : Who) (i : Nat) (f : Frag → Frag) : (s.modFrag k w i f).gangs = s.gangs := rfl
@[simp] theorem modFrag_launches (s : State) (k : Key) (w : Who) (i : Nat) (f : Frag → Frag) : (s.modFrag k w i f).launches = s.launches := rfl
@[simp] theorem modFrag_graphs (s : State) (k : Key) (w : Who) (i : Nat) (f : Frag → Frag) : (s.modFrag k w i f).graphs = s.graphs := rfl
@[simp] theorem modFrag_clusters (s : State) (k : Key) (w : Who) (i : Nat) (f : Frag → Frag) : (s.modFrag k w i f).clusters = s.clusters := rfl
@[simp] theorem modFrag_parts (s : State) (k : Key) (w : Who) (i : Nat) (f : Frag → Frag) : (s.modFrag k w i f).parts = s.parts := rfl
@[simp] theorem modFrag_queues (s : State) (k : Key) (w : Who) (i : Nat) (f : Frag → Frag) : (s.modFrag k w i f).queues = s.queues := rfl
@[simp] theorem modFrag_lanterns (s : State) (k : Key) (w : Who) (i : Nat) (f : Frag → Frag) : (s.modFrag k w i f).lanterns = s.lanterns := rfl
@[simp] theorem modFrag_harts (s : State) (k : Key) (w : Who) (i : Nat) (f : Frag → Frag) : (s.modFrag k w i f).harts = s.harts := rfl
@[simp] theorem modFrag_ports (s : State) (k : Key) (w : Who) (i : Nat) (f : Frag → Frag) : (s.modFrag k w i f).ports = s.ports := rfl
@[simp] theorem modFrag_hub (s : State) (k : Key) (w : Who) (i : Nat) (f : Frag → Frag) : (s.modFrag k w i f).hub = s.hub := rfl
@[simp] theorem modFrag_peats (s : State) (k : Key) (w : Who) (i : Nat) (f : Frag → Frag) : (s.modFrag k w i f).peats = s.peats := rfl
@[simp] theorem modFrag_exch (s : State) (k : Key) (w : Who) (i : Nat) (f : Frag → Frag) : (s.modFrag k w i f).exch = s.exch := rfl
@[simp] theorem modFrag_colls (s : State) (k : Key) (w : Who) (i : Nat) (f : Frag → Frag) : (s.modFrag k w i f).colls = s.colls := rfl
@[simp] theorem modFrag_cluster_read (s : State) (k : Key) (w : Who) (i : Nat) (f : Frag → Frag) (x : Nat) : (s.modFrag k w i f).cluster x = s.cluster x := rfl
@[simp] theorem modFrag_part_read (s : State) (k : Key) (w : Who) (i : Nat) (f : Frag → Frag) (x : Nat) : (s.modFrag k w i f).part x = s.part x := rfl
@[simp] theorem modFrag_queue_read (s : State) (k : Key) (w : Who) (i : Nat) (f : Frag → Frag) (x : Nat) : (s.modFrag k w i f).queue x = s.queue x := rfl
@[simp] theorem modFrag_lantern_read (s : State) (k : Key) (w : Who) (i : Nat) (f : Frag → Frag) (x : Nat) : (s.modFrag k w i f).lantern x = s.lantern x := rfl
@[simp] theorem modFrag_hart_read (s : State) (k : Key) (w : Who) (i : Nat) (f : Frag → Frag) (x : Nat) : (s.modFrag k w i f).hart x = s.hart x := rfl
@[simp] theorem modFrag_port_read (s : State) (k : Key) (w : Who) (i : Nat) (f : Frag → Frag) (x : Nat) : (s.modFrag k w i f).port x = s.port x := rfl
@[simp] theorem modFrag_dtime_read (s : State) (k : Key) (w : Who) (i : Nat) (f : Frag → Frag) : (s.modFrag k w i f).dtime = s.dtime := rfl
@[simp] theorem modFrag_launch_read (s : State) (k : Key) (w : Who) (i : Nat) (f : Frag → Frag) (x y : Nat) : (s.modFrag k w i f).launch? x y = s.launch? x y := rfl

/-! ## bump -/

@[simp] theorem bump_agenda (s : State) : (s.bump).agenda = s.agenda := rfl
@[simp] theorem bump_fresh (s : State) : (s.bump).fresh = s.fresh := rfl
@[simp] theorem bump_turn (s : State) : (s.bump).turn = s.turn := rfl
@[simp] theorem bump_late (s : State) : (s.bump).late = s.late := rfl
@[simp] theorem bump_pass (s : State) : (s.bump).pass = s.pass := rfl
@[simp] theorem bump_fcyc (s : State) : (s.bump).fcyc = s.fcyc := rfl
@[simp] theorem bump_rail (s : State) : (s.bump).rail = s.rail := rfl
@[simp] theorem bump_boost (s : State) : (s.bump).boost = s.boost := rfl
@[simp] theorem bump_ms (s : State) : (s.bump).ms = { s.ms with serial := s.ms.serial + 1 } := rfl
@[simp] theorem bump_blocks (s : State) : (s.bump).blocks = s.blocks := rfl
@[simp] theorem bump_gangs (s : State) : (s.bump).gangs = s.gangs := rfl
@[simp] theorem bump_launches (s : State) : (s.bump).launches = s.launches := rfl
@[simp] theorem bump_graphs (s : State) : (s.bump).graphs = s.graphs := rfl
@[simp] theorem bump_clusters (s : State) : (s.bump).clusters = s.clusters := rfl
@[simp] theorem bump_parts (s : State) : (s.bump).parts = s.parts := rfl
@[simp] theorem bump_queues (s : State) : (s.bump).queues = s.queues := rfl
@[simp] theorem bump_lanterns (s : State) : (s.bump).lanterns = s.lanterns := rfl
@[simp] theorem bump_harts (s : State) : (s.bump).harts = s.harts := rfl
@[simp] theorem bump_ports (s : State) : (s.bump).ports = s.ports := rfl
@[simp] theorem bump_hub (s : State) : (s.bump).hub = s.hub := rfl
@[simp] theorem bump_peats (s : State) : (s.bump).peats = s.peats := rfl
@[simp] theorem bump_exch (s : State) : (s.bump).exch = s.exch := rfl
@[simp] theorem bump_colls (s : State) : (s.bump).colls = s.colls := rfl
@[simp] theorem bump_cluster_read (s : State) (x : Nat) : (s.bump).cluster x = s.cluster x := rfl
@[simp] theorem bump_part_read (s : State) (x : Nat) : (s.bump).part x = s.part x := rfl
@[simp] theorem bump_queue_read (s : State) (x : Nat) : (s.bump).queue x = s.queue x := rfl
@[simp] theorem bump_lantern_read (s : State) (x : Nat) : (s.bump).lantern x = s.lantern x := rfl
@[simp] theorem bump_hart_read (s : State) (x : Nat) : (s.bump).hart x = s.hart x := rfl
@[simp] theorem bump_port_read (s : State) (x : Nat) : (s.bump).port x = s.port x := rfl
@[simp] theorem bump_dtime_read (s : State) : (s.bump).dtime = s.dtime := rfl
@[simp] theorem bump_block_read (s : State) (x : Key) : (s.bump).block? x = s.block? x := rfl
@[simp] theorem bump_launch_read (s : State) (x y : Nat) : (s.bump).launch? x y = s.launch? x y := rfl
@[simp] theorem bump_party_read (s : State) (x : Key) (y : Who) : (s.bump).party? x y = s.party? x y := rfl

/-! ## Reading what was written -/

theorem setCluster_cluster (s : State) (c d : Nat) (v : Cluster) :
    (s.setCluster c v).cluster d = if c = d then v else s.cluster d := tabGet_tabSet _ _ _ _ _
theorem modCluster_cluster (s : State) (c d : Nat) (f : Cluster → Cluster) :
    (s.modCluster c f).cluster d = if c = d then f (s.cluster c) else s.cluster d := tabGet_tabSet _ _ _ _ _
theorem setPart_part (s : State) (p q : Nat) (v : Partition) :
    (s.setPart p v).part q = if p = q then v else s.part q := by
  simp only [State.part, State.setPart]
  exact tabGet_tabSet _ _ _ _ _
theorem modPart_part (s : State) (p q : Nat) (f : Partition → Partition) :
    (s.modPart p f).part q = if p = q then f (s.part p) else s.part q := setPart_part s p q _
theorem setQueue_queue (s : State) (p q : Nat) (v : Queue) :
    (s.setQueue p v).queue q = if p = q then v else s.queue q := tabGet_tabSet _ _ _ _ _
theorem modQueue_queue (s : State) (p q : Nat) (f : Queue → Queue) :
    (s.modQueue p f).queue q = if p = q then f (s.queue p) else s.queue q := tabGet_tabSet _ _ _ _ _
theorem setLantern_lantern (s : State) (p q : Nat) (v : HubCore) :
    (s.setLantern p v).lantern q = if p = q then v else s.lantern q := tabGet_tabSet _ _ _ _ _
theorem setHart_hart (s : State) (p q : Nat) (v : HubCore) :
    (s.setHart p v).hart q = if p = q then v else s.hart q := tabGet_tabSet _ _ _ _ _
theorem modPort_port (s : State) (p q : Nat) (f : Port → Port) :
    (s.modPort p f).port q = if p = q then f (s.port p) else s.port q := tabGet_tabSet _ _ _ _ _

@[simp] theorem modCluster_cluster_same (s : State) (c : Nat) (f : Cluster → Cluster) :
    (s.modCluster c f).cluster c = f (s.cluster c) := by simp [modCluster_cluster]
@[simp] theorem modPart_part_same (s : State) (p : Nat) (f : Partition → Partition) :
    (s.modPart p f).part p = f (s.part p) := by simp [modPart_part]
@[simp] theorem modQueue_queue_same (s : State) (p : Nat) (f : Queue → Queue) :
    (s.modQueue p f).queue p = f (s.queue p) := by simp [modQueue_queue]
@[simp] theorem setLantern_lantern_same (s : State) (p : Nat) (v : HubCore) :
    (s.setLantern p v).lantern p = v := by simp [setLantern_lantern]
@[simp] theorem setHart_hart_same (s : State) (p : Nat) (v : HubCore) :
    (s.setHart p v).hart p = v := by simp [setHart_hart]
@[simp] theorem modPort_port_same (s : State) (p : Nat) (f : Port → Port) :
    (s.modPort p f).port p = f (s.port p) := by simp [modPort_port]

end Sys2Proof.Machine
end

