-- ==== Sys2Proof/Laws/Blocks.lean ====
section
/-! SUPPORT. Blocks, parties and fragments: reading after a change of one of them. -/
namespace Sys2Proof.Machine
open Sys2Proof

/-! ## Blocks -/

theorem find_map_key (l : List Block) (k k' : Key) (f : Block → Block) (hf : ∀ b, (f b).key = b.key) :
    (l.map fun b => if b.key = k then f b else b).find? (fun b => b.key = k') =
      if k = k' then (l.find? fun b => b.key = k').map f else l.find? fun b => b.key = k' := by
  induction l with
  | nil => simp
  | cons b r ih =>
    rw [List.map_cons, List.find?_cons, List.find?_cons]
    by_cases hk : b.key = k
    · by_cases hk' : b.key = k'
      · have e : k = k' := hk ▸ hk'
        simp [hk, hk', hf, e]
      · have e : ¬ k = k' := fun e => hk' (hk.trans e)
        simp only [e, if_false] at ih
        simp [hk, hf, e, ih]
    · by_cases hk' : b.key = k'
      · have e : ¬ k = k' := fun e => hk (hk'.trans e.symm)
        have e' : ¬ k' = k := fun h => e h.symm
        simp [hk', e, e']
      · simp [hk, hk', ih]

/-- A block after a change of a block that keeps its key. -/
theorem modBlock_block (s : State) (k k' : Key) (f : Block → Block) (hf : ∀ b, (f b).key = b.key) :
    (s.modBlock k f).block? k' = if k = k' then (s.block? k').map f else s.block? k' :=
  find_map_key s.blocks k k' f hf

theorem modBlock_block_ne (s : State) (k k' : Key) (f : Block → Block) (hf : ∀ b, (f b).key = b.key) (h : k ≠ k') :
    (s.modBlock k f).block? k' = s.block? k' := by simp [modBlock_block s k k' f hf, h]

theorem block_key {s : State} {k : Key} {b : Block} (h : s.block? k = some b) : b.key = k := by
  have := List.find?_some h
  simpa using this

/-! ## Parties -/

@[simp] theorem Block.modParty_key (b : Block) (w : Who) (f : Party → Party) : (b.modParty w f).key = b.key := by
  cases w <;> rfl
@[simp] theorem Block.modParty_place (b : Block) (w : Who) (f : Party → Party) : (b.modParty w f).place = b.place := by
  cases w <;> rfl
@[simp] theorem Block.modParty_started (b : Block) (w : Who) (f : Party → Party) : (b.modParty w f).started = b.started := by
  cases w <;> rfl
@[simp] theorem Block.modParty_mccEnded (b : Block) (w : Who) (f : Party → Party) : (b.modParty w f).mccEnded = b.mccEnded := by
  cases w <;> rfl
@[simp] theorem Block.modParty_cslr (b : Block) (w : Who) (f : Party → Party) : (b.modParty w f).cslr = b.cslr := by
  cases w <;> rfl
@[simp] theorem Block.modParty_cslrNew (b : Block) (w : Who) (f : Party → Party) : (b.modParty w f).cslrNew = b.cslrNew := by
  cases w <;> rfl
@[simp] theorem Block.modParty_yr (b : Block) (w : Who) (f : Party → Party) : (b.modParty w f).yr = b.yr := by
  cases w <;> rfl
@[simp] theorem Block.modParty_ly (b : Block) (w : Who) (f : Party → Party) : (b.modParty w f).ly = b.ly := by
  cases w <;> rfl
@[simp] theorem Block.modParty_deadline (b : Block) (w : Who) (f : Party → Party) : (b.modParty w f).deadline = b.deadline := by
  cases w <;> rfl
@[simp] theorem Block.modParty_dest (b : Block) (w : Who) (f : Party → Party) : (b.modParty w f).dest = b.dest := by
  cases w <;> rfl
@[simp] theorem Block.modParty_pool (b : Block) (w : Who) (f : Party → Party) : (b.modParty w f).pool = b.pool := by
  cases w <;> rfl
@[simp] theorem Block.modParty_takers (b : Block) (w : Who) (f : Party → Party) : (b.modParty w f).takers = b.takers := by
  cases w <;> rfl
@[simp] theorem Block.modParty_scr (b : Block) (w : Who) (f : Party → Party) : (b.modParty w f).scr = b.scr := by
  cases w <;> rfl
@[simp] theorem Block.modParty_scrSize (b : Block) (w : Who) (f : Party → Party) : (b.modParty w f).scrSize = b.scrSize := by
  cases w <;> rfl
@[simp] theorem Block.modParty_scrPois (b : Block) (w : Who) (f : Party → Party) : (b.modParty w f).scrPois = b.scrPois := by
  cases w <;> rfl
@[simp] theorem Block.modParty_bars (b : Block) (w : Who) (f : Party → Party) : (b.modParty w f).bars = b.bars := by
  cases w <;> rfl
@[simp] theorem Block.modParty_waves (b : Block) (w : Who) (f : Party → Party) : (b.modParty w f).waves = b.waves := by
  cases w <;> rfl
@[simp] theorem Block.modParty_tiles (b : Block) (w : Who) (f : Party → Party) : (b.modParty w f).tiles = b.tiles := by
  cases w <;> rfl
@[simp] theorem Block.modParty_accs (b : Block) (w : Who) (f : Party → Party) : (b.modParty w f).accs = b.accs := by
  cases w <;> rfl
@[simp] theorem Block.modParty_flights (b : Block) (w : Who) (f : Party → Party) : (b.modParty w f).flights = b.flights := by
  cases w <;> rfl
@[simp] theorem Block.modParty_mmac (b : Block) (w : Who) (f : Party → Party) : (b.modParty w f).mmac = b.mmac := by
  cases w <;> rfl
@[simp] theorem Block.modParty_chans (b : Block) (w : Who) (f : Party → Party) : (b.modParty w f).chans = b.chans := by
  cases w <;> rfl
@[simp] theorem Block.modParty_ops (b : Block) (w : Who) (f : Party → Party) : (b.modParty w f).ops = b.ops := by
  cases w <;> rfl
@[simp] theorem Block.modParty_clvs (b : Block) (w : Who) (f : Party → Party) : (b.modParty w f).clvs = b.clvs := by
  cases w <;> rfl
@[simp] theorem Block.modParty_idem (b : Block) (w : Who) (f : Party → Party) : (b.modParty w f).idem = b.idem := by
  cases w <;> rfl
@[simp] theorem Block.modParty_issues (b : Block) (w : Who) (f : Party → Party) : (b.modParty w f).issues = b.issues := by
  cases w <;> rfl
@[simp] theorem Block.modParty_savedAt (b : Block) (w : Who) (f : Party → Party) : (b.modParty w f).savedAt = b.savedAt := by
  cases w <;> rfl
@[simp] theorem Block.modParty_halted (b : Block) (w : Who) (f : Party → Party) : (b.modParty w f).halted = b.halted := by
  cases w <;> rfl
@[simp] theorem Block.modParty_bySwap (b : Block) (w : Who) (f : Party → Party) : (b.modParty w f).bySwap = b.bySwap := by
  cases w <;> rfl

/-- A party of a block after a change of one of its parties. -/
theorem Block.modParty_party (b : Block) (w w' : Who) (f : Party → Party) :
    (b.modParty w f).party? w' = if w = w' then (b.party? w').map f else b.party? w' := by
  cases w <;> cases w' <;> simp [Block.modParty, Block.party?, lmod_getElem?]

theorem modParty_block (s : State) (k k' : Key) (w : Who) (f : Party → Party) :
    (s.modParty k w f).block? k' = if k = k' then (s.block? k').map fun b => b.modParty w f else s.block? k' :=
  modBlock_block s k k' _ fun b => Block.modParty_key b w f

/-- A party after a change of a party. -/
theorem modParty_party (s : State) (k k' : Key) (w w' : Who) (f : Party → Party) :
    (s.modParty k w f).party? k' w' = if k = k' ∧ w = w' then (s.party? k' w').map f else s.party? k' w' := by
  unfold State.party?
  rw [modParty_block]
  by_cases e : k = k'
  · simp only [e, if_true, true_and]
    cases s.block? k' with
    | none => simp
    | some b => simp [Block.modParty_party]
  · simp [e]

theorem modParty_party_same (s : State) (k : Key) (w : Who) (f : Party → Party) :
    (s.modParty k w f).party? k w = (s.party? k w).map f := by simp [modParty_party]

theorem modBlock_party (s : State) (k k' : Key) (w : Who) (f : Block → Block) (hf : ∀ b, (f b).key = b.key)
    (hp : ∀ b, (f b).party? w = b.party? w) : (s.modBlock k f).party? k' w = s.party? k' w := by
  unfold State.party?
  rw [modBlock_block s k k' f hf]
  by_cases e : k = k'
  · subst e
    cases s.block? k with
    | none => simp
    | some b => simp [hp]
  · simp [e]

theorem party_of_block {s : State} {k : Key} {b : Block} (h : s.block? k = some b) (w : Who) :
    s.party? k w = b.party? w := by simp [State.party?, h]

/-! ## Fragments -/

@[simp] theorem Party.modFrag_frags (p : Party) (i : Nat) (f : Frag → Frag) : (p.modFrag i f).frags = lmod p.frags i f := rfl

theorem modFrag_party_same (s : State) (k : Key) (w : Who) (i : Nat) (f : Frag → Frag) :
    (s.modFrag k w i f).party? k w = (s.party? k w).map fun p => p.modFrag i f := modParty_party_same s k w _

/-! ## Launches -/

theorem find_map_launch (l : List Launch) (p g p' g' : Nat) (f : Launch → Launch)
    (hf : ∀ x, (f x).part = x.part ∧ (f x).grid = x.grid) :
    (l.map fun x => if x.part = p && x.grid = g then f x else x).find? (fun x => x.part = p' && x.grid = g') =
      if p = p' ∧ g = g' then (l.find? fun x => x.part = p' && x.grid = g').map f
      else l.find? fun x => x.part = p' && x.grid = g' := by
  induction l with
  | nil => simp
  | cons x r ih =>
    rw [List.map_cons, List.find?_cons, List.find?_cons]
    by_cases hx : x.part = p ∧ x.grid = g
    · by_cases hx' : x.part = p' ∧ x.grid = g'
      · have e : p = p' ∧ g = g' := ⟨hx.1 ▸ hx'.1, hx.2 ▸ hx'.2⟩
        simp [hx, hx', hf, e]
      · have e : ¬ (p = p' ∧ g = g') := fun e => hx' ⟨hx.1.trans e.1, hx.2.trans e.2⟩
        simp only [e, if_false] at ih
        have hb : (decide (x.part = p') && decide (x.grid = g')) = false := by
          simpa [Bool.and_eq_false_iff, Decidable.not_and_iff_or_not] using hx'
        have hm : (decide (x.part = p) && decide (x.grid = g)) = true := by simp [hx]
        simp only [hm, if_true, (hf x).1, (hf x).2, hb, ih, e, if_false]
    · have hm : (decide (x.part = p) && decide (x.grid = g)) = false := by
        simpa [Bool.and_eq_false_iff, Decidable.not_and_iff_or_not] using hx
      by_cases hx' : x.part = p' ∧ x.grid = g'
      · have e : ¬ (p = p' ∧ g = g') := fun e => hx ⟨hx'.1.trans e.1.symm, hx'.2.trans e.2.symm⟩
        have hb : (decide (x.part = p') && decide (x.grid = g')) = true := by simp [hx']
        simp only [hm, hb, e, if_false, Bool.false_eq_true]
      · have hb : (decide (x.part = p') && decide (x.grid = g')) = false := by
          simpa [Bool.and_eq_false_iff, Decidable.not_and_iff_or_not] using hx'
        simp only [hm, hb, if_false, Bool.false_eq_true, ih]

/-- A launch after a change of a launch that keeps its name. -/
theorem modLaunch_launch (s : State) (p g p' g' : Nat) (f : Launch → Launch)
    (hf : ∀ x, (f x).part = x.part ∧ (f x).grid = x.grid) :
    (s.modLaunch p g f).launch? p' g' = if p = p' ∧ g = g' then (s.launch? p' g').map f else s.launch? p' g' :=
  find_map_launch s.launches p g p' g' f hf

end Sys2Proof.Machine
end

