-- ==== Sys2Proof/Laws/Registers.lean ====
section
/-! SUPPORT. Registers: reading after writing, and what a write of a register leaves (R21, R325). -/
namespace Sys2Proof.Machine
open Sys2Proof

/-! ## Lane registers -/

theorem Party.setV_getV (p : Party) (r : Nat) (m : Lanes) (f : Nat → Word) (r' L : Nat) (hr : r' < 64) (hL : L < 64) :
    (p.setV r m f).getV r' L = if r' = r ∧ m.getLsbD L = true then f L else p.getV r' L := by
  unfold Party.setV Party.getV
  simp only [vget_vset]
  by_cases e : r = r'
  · subst e
    simp only [hr, and_self, if_true, true_and]
    rw [vget_ofFn _ _ _ hL]
  · have e' : ¬ r' = r := fun h => e h.symm
    simp [e, e']

/-! ## Uniform registers -/

theorem Party.setS_getS (p : Party) (r r' : Nat) (x : Word) (hr : r' < 128) :
    (p.setS r x).getS r' = if r' = r then x else p.getS r' := by
  unfold Party.setS Party.getS
  simp only [vget_vset]
  by_cases e : r = r'
  · simp [e, hr]
  · have e' : ¬ r' = r := fun h => e h.symm
    simp [e, e']

theorem Party.setSs_getS (p : Party) (r r' : Nat) (l : List Word) (hr : r' < 128) :
    (p.setSs r l).getS r' = if r ≤ r' ∧ r' < r + l.length then l.getD (r' - r) 0 else p.getS r' := by
  induction l generalizing p r with
  | nil =>
    rw [if_neg (by simp only [List.length_nil]; omega)]
    rfl
  | cons x xs ih =>
    simp only [Party.setSs]
    rw [ih, Party.setS_getS p r r' x hr]
    simp only [List.length_cons]
    by_cases e : r' = r
    · subst e
      rw [if_neg (by omega), if_pos rfl, if_pos (by omega)]
      simp
    · by_cases h : r + 1 ≤ r' ∧ r' < r + 1 + xs.length
      · have : r' - r = (r' - (r + 1)) + 1 := by omega
        rw [if_pos h, if_pos (by omega), this, List.getD_cons_succ]
      · rw [if_neg h, if_neg e, if_neg (by omega)]

/-! ## Predicates -/

theorem Party.setP_getP (p : Party) (r : Nat) (m : Lanes) (f : Nat → Bool) (r' L : Nat) (hr : r' < 4) (hL : L < 64) :
    (p.setP r m f).getP r' L = if r' = r ∧ r ≠ 0 ∧ m.getLsbD L = true then f L else p.getP r' L := by
  unfold Party.setP Party.getP
  by_cases z : r = 0
  · simp [z]
  · simp only [z, if_false, ne_eq, not_false_eq_true, true_and, vget_vset]
    by_cases e : r = r'
    · subst e
      simp only [hr, and_self, if_true, true_and, getLsbD_lanesOf, hL, decide_true, Bool.true_and]
      by_cases hm : m.getLsbD L = true <;> simp [hm, z]
    · have e' : ¬ r' = r := fun h => e h.symm
      simp [e, e']

/-- p0 reads true whatever is written to it (R21). -/
theorem Party.getP_zero (p : Party) (L : Nat) : p.getP 0 L = true := rfl

/-! ## What a write of a register leaves -/

@[simp] theorem Party.setV_s (p : Party) (r : Nat) (m : Lanes) (f : Nat → Word) : (p.setV r m f).s = p.s := rfl
@[simp] theorem Party.setV_p (p : Party) (r : Nat) (m : Lanes) (f : Nat → Word) : (p.setV r m f).p = p.p := rfl
@[simp] theorem Party.setV_poisS (p : Party) (r : Nat) (m : Lanes) (f : Nat → Word) : (p.setV r m f).poisS = p.poisS := rfl
@[simp] theorem Party.setV_win (p : Party) (r : Nat) (m : Lanes) (f : Nat → Word) : (p.setV r m f).win = p.win := rfl
@[simp] theorem Party.setV_exited (p : Party) (r : Nat) (m : Lanes) (f : Nat → Word) : (p.setV r m f).exited = p.exited := rfl
@[simp] theorem Party.setV_all (p : Party) (r : Nat) (m : Lanes) (f : Nat → Word) : (p.setV r m f).all = p.all := rfl
@[simp] theorem Party.setV_frags (p : Party) (r : Nat) (m : Lanes) (f : Nat → Word) : (p.setV r m f).frags = p.frags := rfl
@[simp] theorem Party.setV_joins (p : Party) (r : Nat) (m : Lanes) (f : Nat → Word) : (p.setV r m f).joins = p.joins := rfl
@[simp] theorem Party.setV_rets (p : Party) (r : Nat) (m : Lanes) (f : Nat → Word) : (p.setV r m f).rets = p.rets := rfl
@[simp] theorem Party.setV_fmode (p : Party) (r : Nat) (m : Lanes) (f : Nat → Word) : (p.setV r m f).fmode = p.fmode := rfl
@[simp] theorem Party.setV_limT (p : Party) (r : Nat) (m : Lanes) (f : Nat → Word) : (p.setV r m f).limT = p.limT := rfl
@[simp] theorem Party.setV_limE (p : Party) (r : Nat) (m : Lanes) (f : Nat → Word) : (p.setV r m f).limE = p.limE := rfl
@[simp] theorem Party.setV_limQ (p : Party) (r : Nat) (m : Lanes) (f : Nat → Word) : (p.setV r m f).limQ = p.limQ := rfl
@[simp] theorem Party.setV_opt (p : Party) (r : Nat) (m : Lanes) (f : Nat → Word) : (p.setV r m f).opt = p.opt := rfl
@[simp] theorem Party.setV_calls (p : Party) (r : Nat) (m : Lanes) (f : Nat → Word) : (p.setV r m f).calls = p.calls := rfl
@[simp] theorem Party.setV_reserved (p : Party) (r : Nat) (m : Lanes) (f : Nat → Word) : (p.setV r m f).reserved = p.reserved := rfl
@[simp] theorem Party.setV_callIds (p : Party) (r : Nat) (m : Lanes) (f : Nat → Word) : (p.setV r m f).callIds = p.callIds := rfl
@[simp] theorem Party.setV_trap (p : Party) (r : Nat) (m : Lanes) (f : Nat → Word) : (p.setV r m f).trap = p.trap := rfl
@[simp] theorem Party.setV_arrive (p : Party) (r : Nat) (m : Lanes) (f : Nat → Word) : (p.setV r m f).arrive = p.arrive := rfl
@[simp] theorem Party.setV_obs (p : Party) (r : Nat) (m : Lanes) (f : Nat → Word) : (p.setV r m f).obs = p.obs := rfl
@[simp] theorem Party.setV_ws (p : Party) (r : Nat) (m : Lanes) (f : Nat → Word) : (p.setV r m f).ws = p.ws := rfl
@[simp] theorem Party.setV_pipe (p : Party) (r : Nat) (m : Lanes) (f : Nat → Word) : (p.setV r m f).pipe = p.pipe := rfl
@[simp] theorem Party.setV_slot (p : Party) (r : Nat) (m : Lanes) (f : Nat → Word) : (p.setV r m f).slot = p.slot := rfl
@[simp] theorem Party.setV_half (p : Party) (r : Nat) (m : Lanes) (f : Nat → Word) : (p.setV r m f).half = p.half := rfl
@[simp] theorem Party.setV_lastIssue (p : Party) (r : Nat) (m : Lanes) (f : Nat → Word) : (p.setV r m f).lastIssue = p.lastIssue := rfl
@[simp] theorem Party.setV_issues (p : Party) (r : Nat) (m : Lanes) (f : Nat → Word) : (p.setV r m f).issues = p.issues := rfl
@[simp] theorem Party.setV_since (p : Party) (r : Nat) (m : Lanes) (f : Nat → Word) : (p.setV r m f).since = p.since := rfl

@[simp] theorem Party.setS_v (p : Party) (r : Nat) (x : Word) : (p.setS r x).v = p.v := rfl
@[simp] theorem Party.setS_p (p : Party) (r : Nat) (x : Word) : (p.setS r x).p = p.p := rfl
@[simp] theorem Party.setS_poisV (p : Party) (r : Nat) (x : Word) : (p.setS r x).poisV = p.poisV := rfl
@[simp] theorem Party.setS_win (p : Party) (r : Nat) (x : Word) : (p.setS r x).win = p.win := rfl
@[simp] theorem Party.setS_exited (p : Party) (r : Nat) (x : Word) : (p.setS r x).exited = p.exited := rfl
@[simp] theorem Party.setS_all (p : Party) (r : Nat) (x : Word) : (p.setS r x).all = p.all := rfl
@[simp] theorem Party.setS_frags (p : Party) (r : Nat) (x : Word) : (p.setS r x).frags = p.frags := rfl
@[simp] theorem Party.setS_joins (p : Party) (r : Nat) (x : Word) : (p.setS r x).joins = p.joins := rfl
@[simp] theorem Party.setS_rets (p : Party) (r : Nat) (x : Word) : (p.setS r x).rets = p.rets := rfl
@[simp] theorem Party.setS_fmode (p : Party) (r : Nat) (x : Word) : (p.setS r x).fmode = p.fmode := rfl
@[simp] theorem Party.setS_limT (p : Party) (r : Nat) (x : Word) : (p.setS r x).limT = p.limT := rfl
@[simp] theorem Party.setS_limE (p : Party) (r : Nat) (x : Word) : (p.setS r x).limE = p.limE := rfl
@[simp] theorem Party.setS_limQ (p : Party) (r : Nat) (x : Word) : (p.setS r x).limQ = p.limQ := rfl
@[simp] theorem Party.setS_opt (p : Party) (r : Nat) (x : Word) : (p.setS r x).opt = p.opt := rfl
@[simp] theorem Party.setS_calls (p : Party) (r : Nat) (x : Word) : (p.setS r x).calls = p.calls := rfl
@[simp] theorem Party.setS_reserved (p : Party) (r : Nat) (x : Word) : (p.setS r x).reserved = p.reserved := rfl
@[simp] theorem Party.setS_callIds (p : Party) (r : Nat) (x : Word) : (p.setS r x).callIds = p.callIds := rfl
@[simp] theorem Party.setS_trap (p : Party) (r : Nat) (x : Word) : (p.setS r x).trap = p.trap := rfl
@[simp] theorem Party.setS_arrive (p : Party) (r : Nat) (x : Word) : (p.setS r x).arrive = p.arrive := rfl
@[simp] theorem Party.setS_obs (p : Party) (r : Nat) (x : Word) : (p.setS r x).obs = p.obs := rfl
@[simp] theorem Party.setS_ws (p : Party) (r : Nat) (x : Word) : (p.setS r x).ws = p.ws := rfl
@[simp] theorem Party.setS_pipe (p : Party) (r : Nat) (x : Word) : (p.setS r x).pipe = p.pipe := rfl
@[simp] theorem Party.setS_slot (p : Party) (r : Nat) (x : Word) : (p.setS r x).slot = p.slot := rfl
@[simp] theorem Party.setS_half (p : Party) (r : Nat) (x : Word) : (p.setS r x).half = p.half := rfl
@[simp] theorem Party.setS_lastIssue (p : Party) (r : Nat) (x : Word) : (p.setS r x).lastIssue = p.lastIssue := rfl
@[simp] theorem Party.setS_issues (p : Party) (r : Nat) (x : Word) : (p.setS r x).issues = p.issues := rfl
@[simp] theorem Party.setS_since (p : Party) (r : Nat) (x : Word) : (p.setS r x).since = p.since := rfl

@[simp] theorem Party.setSD_v (p : Party) (r : Nat) (x : DWord) : (p.setSD r x).v = p.v := rfl
@[simp] theorem Party.setSD_p (p : Party) (r : Nat) (x : DWord) : (p.setSD r x).p = p.p := rfl
@[simp] theorem Party.setSD_poisV (p : Party) (r : Nat) (x : DWord) : (p.setSD r x).poisV = p.poisV := rfl
@[simp] theorem Party.setSD_win (p : Party) (r : Nat) (x : DWord) : (p.setSD r x).win = p.win := rfl
@[simp] theorem Party.setSD_exited (p : Party) (r : Nat) (x : DWord) : (p.setSD r x).exited = p.exited := rfl
@[simp] theorem Party.setSD_all (p : Party) (r : Nat) (x : DWord) : (p.setSD r x).all = p.all := rfl
@[simp] theorem Party.setSD_frags (p : Party) (r : Nat) (x : DWord) : (p.setSD r x).frags = p.frags := rfl
@[simp] theorem Party.setSD_joins (p : Party) (r : Nat) (x : DWord) : (p.setSD r x).joins = p.joins := rfl
@[simp] theorem Party.setSD_rets (p : Party) (r : Nat) (x : DWord) : (p.setSD r x).rets = p.rets := rfl
@[simp] theorem Party.setSD_fmode (p : Party) (r : Nat) (x : DWord) : (p.setSD r x).fmode = p.fmode := rfl
@[simp] theorem Party.setSD_limT (p : Party) (r : Nat) (x : DWord) : (p.setSD r x).limT = p.limT := rfl
@[simp] theorem Party.setSD_limE (p : Party) (r : Nat) (x : DWord) : (p.setSD r x).limE = p.limE := rfl
@[simp] theorem Party.setSD_limQ (p : Party) (r : Nat) (x : DWord) : (p.setSD r x).limQ = p.limQ := rfl
@[simp] theorem Party.setSD_opt (p : Party) (r : Nat) (x : DWord) : (p.setSD r x).opt = p.opt := rfl
@[simp] theorem Party.setSD_calls (p : Party) (r : Nat) (x : DWord) : (p.setSD r x).calls = p.calls := rfl
@[simp] theorem Party.setSD_reserved (p : Party) (r : Nat) (x : DWord) : (p.setSD r x).reserved = p.reserved := rfl
@[simp] theorem Party.setSD_callIds (p : Party) (r : Nat) (x : DWord) : (p.setSD r x).callIds = p.callIds := rfl
@[simp] theorem Party.setSD_trap (p : Party) (r : Nat) (x : DWord) : (p.setSD r x).trap = p.trap := rfl
@[simp] theorem Party.setSD_arrive (p : Party) (r : Nat) (x : DWord) : (p.setSD r x).arrive = p.arrive := rfl
@[simp] theorem Party.setSD_obs (p : Party) (r : Nat) (x : DWord) : (p.setSD r x).obs = p.obs := rfl
@[simp] theorem Party.setSD_ws (p : Party) (r : Nat) (x : DWord) : (p.setSD r x).ws = p.ws := rfl
@[simp] theorem Party.setSD_pipe (p : Party) (r : Nat) (x : DWord) : (p.setSD r x).pipe = p.pipe := rfl
@[simp] theorem Party.setSD_slot (p : Party) (r : Nat) (x : DWord) : (p.setSD r x).slot = p.slot := rfl
@[simp] theorem Party.setSD_half (p : Party) (r : Nat) (x : DWord) : (p.setSD r x).half = p.half := rfl
@[simp] theorem Party.setSD_lastIssue (p : Party) (r : Nat) (x : DWord) : (p.setSD r x).lastIssue = p.lastIssue := rfl
@[simp] theorem Party.setSD_issues (p : Party) (r : Nat) (x : DWord) : (p.setSD r x).issues = p.issues := rfl
@[simp] theorem Party.setSD_since (p : Party) (r : Nat) (x : DWord) : (p.setSD r x).since = p.since := rfl

@[simp] theorem Party.setSs_v (p : Party) (r : Nat) (l : List Word) : (p.setSs r l).v = p.v := by
  induction l generalizing p r with
  | nil => rfl
  | cons x xs ih => simp [Party.setSs, ih]
@[simp] theorem Party.setSs_p (p : Party) (r : Nat) (l : List Word) : (p.setSs r l).p = p.p := by
  induction l generalizing p r with
  | nil => rfl
  | cons x xs ih => simp [Party.setSs, ih]
@[simp] theorem Party.setSs_poisV (p : Party) (r : Nat) (l : List Word) : (p.setSs r l).poisV = p.poisV := by
  induction l generalizing p r with
  | nil => rfl
  | cons x xs ih => simp [Party.setSs, ih]
@[simp] theorem Party.setSs_win (p : Party) (r : Nat) (l : List Word) : (p.setSs r l).win = p.win := by
  induction l generalizing p r with
  | nil => rfl
  | cons x xs ih => simp [Party.setSs, ih]
@[simp] theorem Party.setSs_exited (p : Party) (r : Nat) (l : List Word) : (p.setSs r l).exited = p.exited := by
  induction l generalizing p r with
  | nil => rfl
  | cons x xs ih => simp [Party.setSs, ih]
@[simp] theorem Party.setSs_all (p : Party) (r : Nat) (l : List Word) : (p.setSs r l).all = p.all := by
  induction l generalizing p r with
  | nil => rfl
  | cons x xs ih => simp [Party.setSs, ih]
@[simp] theorem Party.setSs_frags (p : Party) (r : Nat) (l : List Word) : (p.setSs r l).frags = p.frags := by
  induction l generalizing p r with
  | nil => rfl
  | cons x xs ih => simp [Party.setSs, ih]
@[simp] theorem Party.setSs_joins (p : Party) (r : Nat) (l : List Word) : (p.setSs r l).joins = p.joins := by
  induction l generalizing p r with
  | nil => rfl
  | cons x xs ih => simp [Party.setSs, ih]
@[simp] theorem Party.setSs_rets (p : Party) (r : Nat) (l : List Word) : (p.setSs r l).rets = p.rets := by
  induction l generalizing p r with
  | nil => rfl
  | cons x xs ih => simp [Party.setSs, ih]
@[simp] theorem Party.setSs_fmode (p : Party) (r : Nat) (l : List Word) : (p.setSs r l).fmode = p.fmode := by
  induction l generalizing p r with
  | nil => rfl
  | cons x xs ih => simp [Party.setSs, ih]
@[simp] theorem Party.setSs_limT (p : Party) (r : Nat) (l : List Word) : (p.setSs r l).limT = p.limT := by
  induction l generalizing p r with
  | nil => rfl
  | cons x xs ih => simp [Party.setSs, ih]
@[simp] theorem Party.setSs_limE (p : Party) (r : Nat) (l : List Word) : (p.setSs r l).limE = p.limE := by
  induction l generalizing p r with
  | nil => rfl
  | cons x xs ih => simp [Party.setSs, ih]
@[simp] theorem Party.setSs_limQ (p : Party) (r : Nat) (l : List Word) : (p.setSs r l).limQ = p.limQ := by
  induction l generalizing p r with
  | nil => rfl
  | cons x xs ih => simp [Party.setSs, ih]
@[simp] theorem Party.setSs_opt (p : Party) (r : Nat) (l : List Word) : (p.setSs r l).opt = p.opt := by
  induction l generalizing p r with
  | nil => rfl
  | cons x xs ih => simp [Party.setSs, ih]
@[simp] theorem Party.setSs_calls (p : Party) (r : Nat) (l : List Word) : (p.setSs r l).calls = p.calls := by
  induction l generalizing p r with
  | nil => rfl
  | cons x xs ih => simp [Party.setSs, ih]
@[simp] theorem Party.setSs_reserved (p : Party) (r : Nat) (l : List Word) : (p.setSs r l).reserved = p.reserved := by
  induction l generalizing p r with
  | nil => rfl
  | cons x xs ih => simp [Party.setSs, ih]
@[simp] theorem Party.setSs_callIds (p : Party) (r : Nat) (l : List Word) : (p.setSs r l).callIds = p.callIds := by
  induction l generalizing p r with
  | nil => rfl
  | cons x xs ih => simp [Party.setSs, ih]
@[simp] theorem Party.setSs_trap (p : Party) (r : Nat) (l : List Word) : (p.setSs r l).trap = p.trap := by
  induction l generalizing p r with
  | nil => rfl
  | cons x xs ih => simp [Party.setSs, ih]
@[simp] theorem Party.setSs_arrive (p : Party) (r : Nat) (l : List Word) : (p.setSs r l).arrive = p.arrive := by
  induction l generalizing p r with
  | nil => rfl
  | cons x xs ih => simp [Party.setSs, ih]
@[simp] theorem Party.setSs_obs (p : Party) (r : Nat) (l : List Word) : (p.setSs r l).obs = p.obs := by
  induction l generalizing p r with
  | nil => rfl
  | cons x xs ih => simp [Party.setSs, ih]
@[simp] theorem Party.setSs_ws (p : Party) (r : Nat) (l : List Word) : (p.setSs r l).ws = p.ws := by
  induction l generalizing p r with
  | nil => rfl
  | cons x xs ih => simp [Party.setSs, ih]
@[simp] theorem Party.setSs_pipe (p : Party) (r : Nat) (l : List Word) : (p.setSs r l).pipe = p.pipe := by
  induction l generalizing p r with
  | nil => rfl
  | cons x xs ih => simp [Party.setSs, ih]
@[simp] theorem Party.setSs_slot (p : Party) (r : Nat) (l : List Word) : (p.setSs r l).slot = p.slot := by
  induction l generalizing p r with
  | nil => rfl
  | cons x xs ih => simp [Party.setSs, ih]
@[simp] theorem Party.setSs_half (p : Party) (r : Nat) (l : List Word) : (p.setSs r l).half = p.half := by
  induction l generalizing p r with
  | nil => rfl
  | cons x xs ih => simp [Party.setSs, ih]
@[simp] theorem Party.setSs_lastIssue (p : Party) (r : Nat) (l : List Word) : (p.setSs r l).lastIssue = p.lastIssue := by
  induction l generalizing p r with
  | nil => rfl
  | cons x xs ih => simp [Party.setSs, ih]
@[simp] theorem Party.setSs_issues (p : Party) (r : Nat) (l : List Word) : (p.setSs r l).issues = p.issues := by
  induction l generalizing p r with
  | nil => rfl
  | cons x xs ih => simp [Party.setSs, ih]
@[simp] theorem Party.setSs_since (p : Party) (r : Nat) (l : List Word) : (p.setSs r l).since = p.since := by
  induction l generalizing p r with
  | nil => rfl
  | cons x xs ih => simp [Party.setSs, ih]

@[simp] theorem Party.setP_v (p : Party) (r : Nat) (m : Lanes) (f : Nat → Bool) : (p.setP r m f).v = p.v := by
  unfold Party.setP
  split <;> rfl
@[simp] theorem Party.setP_s (p : Party) (r : Nat) (m : Lanes) (f : Nat → Bool) : (p.setP r m f).s = p.s := by
  unfold Party.setP
  split <;> rfl
@[simp] theorem Party.setP_poisV (p : Party) (r : Nat) (m : Lanes) (f : Nat → Bool) : (p.setP r m f).poisV = p.poisV := by
  unfold Party.setP
  split <;> rfl
@[simp] theorem Party.setP_poisS (p : Party) (r : Nat) (m : Lanes) (f : Nat → Bool) : (p.setP r m f).poisS = p.poisS := by
  unfold Party.setP
  split <;> rfl
@[simp] theorem Party.setP_win (p : Party) (r : Nat) (m : Lanes) (f : Nat → Bool) : (p.setP r m f).win = p.win := by
  unfold Party.setP
  split <;> rfl
@[simp] theorem Party.setP_exited (p : Party) (r : Nat) (m : Lanes) (f : Nat → Bool) : (p.setP r m f).exited = p.exited := by
  unfold Party.setP
  split <;> rfl
@[simp] theorem Party.setP_all (p : Party) (r : Nat) (m : Lanes) (f : Nat → Bool) : (p.setP r m f).all = p.all := by
  unfold Party.setP
  split <;> rfl
@[simp] theorem Party.setP_frags (p : Party) (r : Nat) (m : Lanes) (f : Nat → Bool) : (p.setP r m f).frags = p.frags := by
  unfold Party.setP
  split <;> rfl
@[simp] theorem Party.setP_joins (p : Party) (r : Nat) (m : Lanes) (f : Nat → Bool) : (p.setP r m f).joins = p.joins := by
  unfold Party.setP
  split <;> rfl
@[simp] theorem Party.setP_rets (p : Party) (r : Nat) (m : Lanes) (f : Nat → Bool) : (p.setP r m f).rets = p.rets := by
  unfold Party.setP
  split <;> rfl
@[simp] theorem Party.setP_fmode (p : Party) (r : Nat) (m : Lanes) (f : Nat → Bool) : (p.setP r m f).fmode = p.fmode := by
  unfold Party.setP
  split <;> rfl
@[simp] theorem Party.setP_limT (p : Party) (r : Nat) (m : Lanes) (f : Nat → Bool) : (p.setP r m f).limT = p.limT := by
  unfold Party.setP
  split <;> rfl
@[simp] theorem Party.setP_limE (p : Party) (r : Nat) (m : Lanes) (f : Nat → Bool) : (p.setP r m f).limE = p.limE := by
  unfold Party.setP
  split <;> rfl
@[simp] theorem Party.setP_limQ (p : Party) (r : Nat) (m : Lanes) (f : Nat → Bool) : (p.setP r m f).limQ = p.limQ := by
  unfold Party.setP
  split <;> rfl
@[simp] theorem Party.setP_opt (p : Party) (r : Nat) (m : Lanes) (f : Nat → Bool) : (p.setP r m f).opt = p.opt := by
  unfold Party.setP
  split <;> rfl
@[simp] theorem Party.setP_calls (p : Party) (r : Nat) (m : Lanes) (f : Nat → Bool) : (p.setP r m f).calls = p.calls := by
  unfold Party.setP
  split <;> rfl
@[simp] theorem Party.setP_reserved (p : Party) (r : Nat) (m : Lanes) (f : Nat → Bool) : (p.setP r m f).reserved = p.reserved := by
  unfold Party.setP
  split <;> rfl
@[simp] theorem Party.setP_callIds (p : Party) (r : Nat) (m : Lanes) (f : Nat → Bool) : (p.setP r m f).callIds = p.callIds := by
  unfold Party.setP
  split <;> rfl
@[simp] theorem Party.setP_trap (p : Party) (r : Nat) (m : Lanes) (f : Nat → Bool) : (p.setP r m f).trap = p.trap := by
  unfold Party.setP
  split <;> rfl
@[simp] theorem Party.setP_arrive (p : Party) (r : Nat) (m : Lanes) (f : Nat → Bool) : (p.setP r m f).arrive = p.arrive := by
  unfold Party.setP
  split <;> rfl
@[simp] theorem Party.setP_obs (p : Party) (r : Nat) (m : Lanes) (f : Nat → Bool) : (p.setP r m f).obs = p.obs := by
  unfold Party.setP
  split <;> rfl
@[simp] theorem Party.setP_ws (p : Party) (r : Nat) (m : Lanes) (f : Nat → Bool) : (p.setP r m f).ws = p.ws := by
  unfold Party.setP
  split <;> rfl
@[simp] theorem Party.setP_pipe (p : Party) (r : Nat) (m : Lanes) (f : Nat → Bool) : (p.setP r m f).pipe = p.pipe := by
  unfold Party.setP
  split <;> rfl
@[simp] theorem Party.setP_slot (p : Party) (r : Nat) (m : Lanes) (f : Nat → Bool) : (p.setP r m f).slot = p.slot := by
  unfold Party.setP
  split <;> rfl
@[simp] theorem Party.setP_half (p : Party) (r : Nat) (m : Lanes) (f : Nat → Bool) : (p.setP r m f).half = p.half := by
  unfold Party.setP
  split <;> rfl
@[simp] theorem Party.setP_lastIssue (p : Party) (r : Nat) (m : Lanes) (f : Nat → Bool) : (p.setP r m f).lastIssue = p.lastIssue := by
  unfold Party.setP
  split <;> rfl
@[simp] theorem Party.setP_issues (p : Party) (r : Nat) (m : Lanes) (f : Nat → Bool) : (p.setP r m f).issues = p.issues := by
  unfold Party.setP
  split <;> rfl
@[simp] theorem Party.setP_since (p : Party) (r : Nat) (m : Lanes) (f : Nat → Bool) : (p.setP r m f).since = p.since := by
  unfold Party.setP
  split <;> rfl

end Sys2Proof.Machine
end

