-- ==== Sys2Proof/Laws/Issue.lean ====
section
/-! SUPPORT. What the shared operations of an issuing word do: the count of the issue, the fragment's move, and the whole
issue of a word that nothing stops. -/
namespace Sys2Proof.Machine
open Sys2Proof

/-! ## Contexts -/

/-- What a context says of the state it was taken from. -/
structure CtxIn (s : State) (c : Ctx) : Prop where
  block : s.block? c.key = some c.b
  party : s.party? c.key c.who = some c.p
  frag  : c.p.frags[c.i]? = some c.f
  len   : c.len = 4
  limm  : c.limm = none
  rep   : c.rep = 0
  sw    : c.sw = false
  place : c.b.place = .resident c.cl

theorem ctxAt_in {s : State} {k : Key} {w : Who} {i : Nat} {c : Ctx} (h : ctxAt s k w i = some c) : CtxIn s c := by
  unfold ctxAt at h
  split at h
  · cases h
  · rename_i b hb
    split at h
    · rename_i p l cl hp hl hc
      split at h
      · rename_i f hf
        simp only [Option.some.injEq] at h
        subst h
        exact ⟨hb, by rw [party_of_block hb]; exact hp, hf, rfl, rfl, rfl, rfl, hc⟩
      · cases h
    · cases h

theorem ctx_in {s : State} {c : Ctx} (h : ctx? s = some c) : CtxIn s c := by
  unfold ctx? at h
  split at h
  · exact ctxAt_in h
  · cases h

/-! ## Register sets -/

@[simp] theorem RegSet.or_isNone (a b : RegSet) : (a.or b).isNone = (a.isNone && b.isNone) := by
  have key : ∀ {n : Nat} (x y : BitVec n), (x ||| y == 0#n) = ((x == 0#n) && (y == 0#n)) := by
    intro n x y
    rw [Bool.eq_iff_iff]
    simp only [beq_iff_eq, Bool.and_eq_true]
    exact BitVec.or_eq_zero_iff
  simp only [RegSet.or, RegSet.isNone]
  have e := fun {n : Nat} (x y : BitVec n) => key x y
  simp only [BitVec.ofNat_eq_ofNat] at *
  rw [e, e, e]
  simp only [Bool.and_assoc, Bool.and_comm, Bool.and_left_comm]

/-! ## After the effect -/

/-- The bookkeeping of an issue on the issuing party: last issue, issues, issues of the call records. -/
def countIssue (c : Ctx) (t : Nat) (p : Party) : Party :=
  { p with lastIssue := t, issues := p.issues + 1,
           calls := p.calls.map fun r =>
             if ((laneList c.f.lanes).flatMap fun L => vget c.p.callIds L []).contains r.id then { r with fs := r.fs + c.slots }
             else r }

/-- The bookkeeping of an issue on the cluster. -/
def countSlots (c : Ctx) (cl : Cluster) : Cluster :=
  { cl with is := cl.is + c.slots,
            lastRun := (c.pipes.map fun n => (n, c.ref, c.f.pc, c.f.lanes)) ++ cl.lastRun.filter fun e => !c.pipes.contains e.1 }

/-- The bookkeeping of an issue on the block. -/
def Block.issued (n : Nat) (b : Block) : Block := { b with issues := b.issues + n }

/-- The count of an issue, written as one change of the cluster, the block and the party. -/
theorem account_eq (c : Ctx) (s : State) :
    account c s =
      ((s.modCluster c.cl (countSlots c)).modBlock c.key (Block.issued c.slots)).modParty c.key c.who
        (countIssue c ((s.cluster c.cl).is + c.slots)) := by
  have e : ((s.modCluster c.cl (countSlots c)).cluster c.cl).is = (s.cluster c.cl).is + c.slots := by
    rw [modCluster_cluster_same]
    rfl
  rw [← e]
  rfl

/-- The count of an issue leaves the device, the other blocks and the other clusters. -/
theorem account_outside (c : Ctx) (s : State) : (account c s).outside = s.outside := rfl

theorem account_block_ne (c : Ctx) (s : State) (k : Key) (h : k ≠ c.key) : (account c s).block? k = s.block? k := by
  rw [account_eq, modParty_block, if_neg fun e => h e.symm, modBlock_block _ _ _ (Block.issued c.slots) (fun _ => rfl), if_neg fun e => h e.symm]
  rfl

theorem account_cluster (c : Ctx) (s : State) :
    (∃ l, (account c s).cluster c.cl = { s.cluster c.cl with is := (s.cluster c.cl).is + c.slots, lastRun := l }) ∧
      ∀ n, n ≠ c.cl → (account c s).cluster n = s.cluster n := by
  rw [account_eq]
  refine ⟨⟨(countSlots c (s.cluster c.cl)).lastRun, ?_⟩, fun n h => ?_⟩
  · simp only [modParty_cluster_read, modBlock_cluster_read, modCluster_cluster_same]
    rfl
  · simp only [modParty_cluster_read, modBlock_cluster_read, modCluster_cluster]
    rw [if_neg fun e => h e.symm]

theorem account_block (c : Ctx) (s : State) (b : Block) (h : s.block? c.key = some b) :
    ∃ t, (account c s).block? c.key =
      some ((b.issued c.slots).modParty c.who (countIssue c t)) := by
  refine ⟨(s.cluster c.cl).is + c.slots, ?_⟩
  have e : (s.modCluster c.cl (countSlots c)).block? c.key = some b := h
  rw [account_eq, modParty_block, if_pos rfl, modBlock_block _ _ _ (Block.issued c.slots) (fun _ => rfl), if_pos rfl, e]
  rfl

@[simp] theorem countIssue_bare (c : Ctx) (t : Nat) (p : Party) : (countIssue c t p).bare = p.bare := by
  unfold countIssue Party.bare
  simp only [List.map_map, Party.mk.injEq, true_and, and_true]
  apply List.map_congr_left
  intro r _
  simp only [Function.comp]
  split <;> rfl

@[simp] theorem Block.issued_shell (b : Block) (n : Nat) : (b.issued n).shell = b.shell := rfl
@[simp] theorem Block.modParty_shell (b : Block) (w : Who) (f : Party → Party) : (b.modParty w f).shell = b.shell := by
  cases w <;> rfl

theorem Block.issued_party (b : Block) (n : Nat) (w : Who) : (b.issued n).party? w = b.party? w := by
  cases w <;> rfl

/-- The end of an instruction in which no lane faulted: the fragment moves to the following word. -/
theorem finish_seq (c : Ctx) (sw : Bool) (wr : RegSet) (s : State) :
    finish c sw wr [] .seq s = moveOn c sw wr .seq (account c s) := by simp [finish]

/-- The registers and marks of a party are those of another. -/
def sameRegs (p q : Party) : Prop := q.v = p.v ∧ q.s = p.s ∧ q.p = p.p ∧ q.poisV = p.poisV ∧ q.poisS = p.poisS

/-- An issue is counted and its fragment becomes f: the registers are those of the party before, and everything else is as it
was. -/
theorem account_ran (c : Ctx) (s : State) (b : Block) (p : Party) (f : Frag) (hb : s.block? c.key = some b)
    (hp : s.party? c.key c.who = some p) (hbare : p.bare = c.p.bare) {g : Frag}
    (hfr : p.frags = lmod c.p.frags c.i fun _ => g) :
    RanOn s ((account c s).modFrag c.key c.who c.i fun _ => f) c b f (sameRegs p) := by
  obtain ⟨t, hab⟩ := account_block c s b hb
  have hbp : b.party? c.who = some p := by rw [← party_of_block hb]; exact hp
  have hap : (account c s).party? c.key c.who = some (countIssue c t p) := by
    rw [party_of_block hab, Block.modParty_party, if_pos rfl, Block.issued_party, hbp]
    rfl
  refine ⟨account_outside c s, fun k hk => ?_, ?_, fun n hn => ?_, ?_, ?_⟩
  · unfold State.modFrag
    rw [modParty_block, if_neg fun e => hk e.symm]
    exact account_block_ne c s k hk
  · simp only [modFrag_cluster_read]
    exact (account_cluster c s).1
  · simp only [modFrag_cluster_read]
    exact (account_cluster c s).2 n hn
  · refine ⟨((b.issued c.slots).modParty c.who (countIssue c t)).modParty c.who fun q => q.modFrag c.i fun _ => f, ?_, by simp,
      fun w hw' => ?_⟩
    · unfold State.modFrag
      rw [modParty_block, if_pos rfl, hab]
      rfl
    · rw [Block.modParty_party, if_neg fun e => hw' e.symm, Block.modParty_party, if_neg fun e => hw' e.symm]
      exact Block.issued_party b _ w
  · refine ⟨(countIssue c t p).modFrag c.i fun _ => f, ?_, ?_, ?_, rfl, rfl, rfl, rfl, rfl⟩
    · rw [modFrag_party_same, hap]
      rfl
    · have : ∀ (q : Party) g, (q.modFrag c.i g).bare = q.bare := fun _ _ => rfl
      rw [this, countIssue_bare, hbare]
    · show lmod (countIssue c t p).frags c.i _ = _
      have : (countIssue c t p).frags = p.frags := rfl
      rw [this, hfr, lmod_lmod]
      rfl

theorem account_party (c : Ctx) (s : State) (p : Party) (hp : s.party? c.key c.who = some p) :
    ∃ t, (account c s).party? c.key c.who = some (countIssue c t p) := by
  cases hb : s.block? c.key with
  | none => simp [State.party?, hb] at hp
  | some b =>
    obtain ⟨t, hab⟩ := account_block c s b hb
    refine ⟨t, ?_⟩
    have hbp : b.party? c.who = some p := by rw [← party_of_block hb]; exact hp
    rw [party_of_block hab, Block.modParty_party, if_pos rfl, Block.issued_party, hbp]
    rfl

theorem resultsOut_ms {s t : State} (h : t.ms = s.ms) (k : Key) (w : Who) (f : Frag) :
    resultsOut t k w f = resultsOut s k w f := by simp [resultsOut, h]

/-- The fragment g behind an instruction of the context: Ctx.behind of the fragment as the effect left it. -/
def Ctx.behindOf (c : Ctx) (s : State) (sw : BitVec 1) (wr : RegSet) (g : Frag) : Frag :=
  let f := { g with pc := c.f.pc + 4, pend := g.pend.or wr, out := g.out.or wr, wait := .run }
  if sw = 1 then (if resultsOut s c.key c.who f then { f with wait := .switch } else { f with pend := RegSet.none }) else f

theorem Ctx.behindOf_self (c : Ctx) (s : State) (sw : BitVec 1) (wr : RegSet) : c.behindOf s sw wr c.f = c.behind s sw wr := rfl

/-- The end of an instruction in which no lane faulted (R60); g is the fragment as the effect left it. -/
theorem finish_ran (c : Ctx) (sw : BitVec 1) (wr : RegSet) (s : State) (b : Block) (p : Party) (g : Frag) (hl : c.len = 4)
    (hb : s.block? c.key = some b) (hp : s.party? c.key c.who = some p) (hf : p.frags[c.i]? = some g)
    (hbare : p.bare = c.p.bare) (hfr : p.frags = lmod c.p.frags c.i fun _ => g) :
    RanOn s (finish c (sw == 1) wr [] .seq s) c b (c.behindOf s sw wr g) (sameRegs p) := by
  rw [finish_seq]
  obtain ⟨t, hap⟩ := account_party c s p hp
  have hmove : moveOn c (sw == 1) wr .seq (account c s) =
      (account c s).modFrag c.key c.who c.i fun _ =>
        advance (account c s) c (sw == 1) wr g.lanes (c.f.pc + BitVec.ofNat 55 c.len) g := by
    unfold moveOn
    rw [hap]
    have : (countIssue c t p).frags[c.i]? = some g := hf
    simp only [Option.bind_some, this]
  have hadv : advance (account c s) c (sw == 1) wr g.lanes (c.f.pc + BitVec.ofNat 55 c.len) g = c.behindOf s sw wr g := by
    have e : ∀ f, resultsOut (account c s) c.key c.who f = resultsOut s c.key c.who f := fun f => resultsOut_ms rfl _ _ f
    unfold advance atMarker Ctx.behindOf
    simp only [e, hl, beq_iff_eq]
    rfl
  rw [hmove, hadv]
  exact account_ran c s b p _ hb hp hbare hfr

theorem lmod_self {α : Type} (l : List α) (i : Nat) (x : α) (h : l[i]? = some x) : lmod l i (fun _ => x) = l := by
  induction l generalizing i with
  | nil => rfl
  | cons a r ih =>
    cases i with
    | zero =>
      have : a = x := by simpa using h
      simp [lmod, this]
    | succ n => simp [lmod, ih n (by simpa using h)]

/-! ## The issue of a word -/

/-- A word that nothing stops runs its body. -/
theorem issue_runs (i : Instr) (sw : BitVec 1) (b : Body) (s : State) (c : Ctx) (hc : ctx? s = some c)
    (hwf : i.wf = true) (hr : runsHere i c.who = true) (hg : b.grant { c with sw := sw == 1 } = true)
    (hwin : outsideWindow c.p ((b.reads { c with sw := sw == 1 }).or (b.writes { c with sw := sw == 1 })) = false)
    (hhaz : (((b.reads { c with sw := sw == 1 }).or (b.writes { c with sw := sw == 1 })).or (RegSet.pr b.guard)).meets
      c.f.pend = false)
    (hwatch : watchHit s c.key.part c.ref (b.touch s { c with sw := sw == 1 }
      (if b.perLane then c.effLanes b.guard else c.f.lanes)) = none)
    (hi : b.illop { c with sw := sw == 1 } = false := by rfl) :
    issue i sw b s =
      .next (runBody { c with sw := sw == 1 } (sw == 1) b s) := by
  unfold issue
  rw [hc]
  show Host.Outcome.next (issueAt c i (sw == 1) b s) = _
  congr 1
  unfold issueAt
  simp only [hwf, hr, hg, hi, hwin, hhaz, Bool.and_self, Bool.or_false, Bool.not_true, Bool.false_eq_true, if_false]
  have e : watchHit s c.key.part (Ctx.ref { c with sw := sw == 1 }) (b.touch s { c with sw := sw == 1 }
      (if b.perLane then Ctx.effLanes { c with sw := sw == 1 } b.guard else c.f.lanes)) = none := hwatch
  rw [e]

theorem watchHit_nil (s : State) (p : Nat) (r : FragRef) : watchHit s p r [] = none := by
  unfold watchHit
  split <;> rfl

@[simp] theorem clearPass_outside (c : Ctx) (s : State) : (clearPass c s).outside = s.outside := by
  unfold clearPass
  split <;> rfl
@[simp] theorem clearPass_block (c : Ctx) (s : State) (k : Key) : (clearPass c s).block? k = s.block? k := by
  unfold clearPass
  split <;> rfl
@[simp] theorem clearPass_party (c : Ctx) (s : State) (k : Key) (w : Who) : (clearPass c s).party? k w = s.party? k w := by
  unfold clearPass
  split <;> rfl
@[simp] theorem clearPass_cluster (c : Ctx) (s : State) (n : Nat) : (clearPass c s).cluster n = s.cluster n := by
  unfold clearPass
  split <;> rfl
@[simp] theorem clearPass_ms (c : Ctx) (s : State) : (clearPass c s).ms = s.ms := by
  unfold clearPass
  split <;> rfl
@[simp] theorem clearPass_part (c : Ctx) (s : State) (n : Nat) : (clearPass c s).part n = s.part n := by
  unfold clearPass
  split <;> rfl

theorem Ctx.effLanes_zero (c : Ctx) : c.effLanes 0 = c.f.lanes := by
  unfold Ctx.effLanes Party.predLanes
  rw [if_pos rfl, BitVec.and_allOnes]

/-- Replacing the state from which an issue started by one that agrees where it matters. -/
theorem RanOn.of_eq {s u t : State} {c : Ctx} {b b' : Block} {f : Frag} {R : Party → Prop} (h : RanOn u t c b f R)
    (ho : u.outside = s.outside) (hk : ∀ k, k ≠ c.key → u.block? k = s.block? k) (hc : ∀ n, u.cluster n = s.cluster n)
    (hs : b.shell = b'.shell) (hp : ∀ w, w ≠ c.who → b.party? w = b'.party? w) : RanOn s t c b' f R := by
  obtain ⟨k1, k2, ⟨l, k3⟩, k4, ⟨x, kx, ks, kw⟩, k6⟩ := h
  refine ⟨k1.trans ho, fun k hk' => (k2 k hk').trans (hk k hk'), ⟨l, ?_⟩, fun n hn => (k4 n hn).trans (hc n),
    ⟨x, kx, ks.trans hs, fun w hw => (kw w hw).trans (hp w hw)⟩, k6⟩
  rw [k3, hc]

theorem RanOn.imp {s t : State} {c : Ctx} {b : Block} {f : Frag} {R S : Party → Prop} (h : RanOn s t c b f R)
    (hi : ∀ p, R p → S p) : RanOn s t c b f S := by
  obtain ⟨k1, k2, k3, k4, k5, p, p1, p2, p3, p4⟩ := h
  exact ⟨k1, k2, k3, k4, k5, p, p1, p2, p3, hi p p4⟩

theorem outside_ms {s t : State} (h : t.outside = s.outside) : t.ms = s.ms := by
  have : t.outside.ms = s.outside.ms := by rw [h]
  exact this

theorem Ctx.behindOf_ms {s u : State} (h : u.ms = s.ms) (c : Ctx) (sw : BitVec 1) (wr : RegSet) (g : Frag) :
    c.behindOf u sw wr g = c.behindOf s sw wr g := by
  unfold Ctx.behindOf
  simp only [resultsOut_ms h]

/-- A word that nothing stops and whose effect is done (R71, R75): it leaves block b with party p and fragment g, and the device
as u has it; the fragment is behind the word. -/
theorem issue_done (i : Instr) (sw : BitVec 1) (b : Body) (s u : State) (c : Ctx) (x : Block) (p : Party) (g : Frag)
    (st : Stands s c i (b.reads { c with sw := sw == 1 }) (b.writes { c with sw := sw == 1 }) b.guard)
    (hg : b.grant { c with sw := sw == 1 } = true)
    (ht : ∀ m, watchHit s c.key.part c.ref (b.touch s { c with sw := sw == 1 } m) = none)
    (hpl : b.perLane = true ∨ b.guard = 0)
    (hrun : b.run { c with sw := sw == 1 } (c.effLanes b.guard) s = .done u [] .seq)
    (hb : u.block? c.key = some x) (hp : x.party? c.who = some p) (hf : p.frags[c.i]? = some g)
    (hbare : p.bare = c.p.bare) (hfr : p.frags = lmod c.p.frags c.i fun _ => g)
    (hi : b.illop { c with sw := sw == 1 } = false := by rfl) :
    ∃ t, issue i sw b s = .next t ∧
      RanOn u t c x (c.behindOf u sw (b.writes { c with sw := sw == 1 }) g) (sameRegs p) := by
  obtain ⟨hc, hwf, hr, hwin, hhaz, hcl⟩ := st
  have hin := ctx_in hc
  refine ⟨_, issue_runs i sw b s c hc hwf hr hg hwin hhaz (ht _) hi, ?_⟩
  have heff : (if b.perLane then c.effLanes b.guard else c.f.lanes) = c.effLanes b.guard := by
    rcases hpl with h | h
    · rw [if_pos h]
    · rw [h, Ctx.effLanes_zero]; split <;> rfl
  have hbody : runBody { c with sw := sw == 1 } (sw == 1) b s =
      finish { c with sw := sw == 1 } (sw == 1) (b.writes { c with sw := sw == 1 }) [] .seq
        (clearPass { c with sw := sw == 1 } u) := by
    unfold runBody
    have e1 : (if b.perLane then Ctx.effLanes { c with sw := sw == 1 } b.guard else c.f.lanes) = c.effLanes b.guard := heff
    simp only [e1]
    have e2 : (if b.ownPoison then (0 : Lanes)
        else poisonedLanes c.p (b.reads { c with sw := sw == 1 }) (c.effLanes b.guard)) = 0 := by
      split
      · rfl
      · exact hcl
    simp only [e2]
    have e3 : (c.effLanes b.guard &&& ~~~(0 : Lanes)) = c.effLanes b.guard := BitVec.and_allOnes
    simp only [e3, bne_self_eq_false, Bool.and_false, Bool.false_eq_true, if_false]
    rw [hrun, laneList_zero]
    rfl
  rw [hbody]
  have key := finish_ran { c with sw := sw == 1 } sw (b.writes { c with sw := sw == 1 }) (clearPass { c with sw := sw == 1 } u) x p g
    hin.len ((clearPass_block _ _ _).trans hb) (by rw [clearPass_party, party_of_block hb]; exact hp) hf hbare hfr
  have low : RanOn (clearPass { c with sw := sw == 1 } u) _ c x
      (c.behindOf (clearPass { c with sw := sw == 1 } u) sw (b.writes { c with sw := sw == 1 }) g) (sameRegs p) :=
    ⟨key.device, key.others, key.cluster, key.clusters, key.block, key.party⟩
  rw [Ctx.behindOf_ms (s := u) (clearPass_ms _ _)] at low
  exact low.of_eq (clearPass_outside _ _) (fun k _ => clearPass_block _ _ k) (fun n => clearPass_cluster _ _ n) rfl fun _ _ => rfl

/-- A word whose effect is a change of its party's registers (R71, R75): the fragment is behind it, the registers are as F
makes them, and everything else is as it was. -/
theorem issue_registers (i : Instr) (sw : BitVec 1) (b : Body) (s : State) (c : Ctx) (F : Party → Party)
    (st : Stands s c i (b.reads { c with sw := sw == 1 }) (b.writes { c with sw := sw == 1 }) b.guard)
    (hg : b.grant { c with sw := sw == 1 } = true)
    (ht : ∀ s c m, b.touch s c m = [])
    (hpl : b.perLane = true ∨ b.guard = 0)
    (hF : (F c.p).bare = c.p.bare ∧ (F c.p).frags = c.p.frags)
    (hrun : ∀ u, u.outside = s.outside → (∀ n, u.cluster n = s.cluster n) →
      b.run { c with sw := sw == 1 } (c.effLanes b.guard) u = .done (u.modParty c.key c.who F) [] .seq)
    (hi : b.illop { c with sw := sw == 1 } = false := by rfl) :
    ∃ t, issue i sw b s = .next t ∧
      RanOn s t c c.b (c.behind s sw (b.writes { c with sw := sw == 1 })) (sameRegs (F c.p)) := by
  have hin := ctx_in st.turn
  have hb : (s.modParty c.key c.who F).block? c.key = some (c.b.modParty c.who F) := by
    rw [modParty_block, if_pos rfl, hin.block]
    rfl
  have hbp : c.b.party? c.who = some c.p := by rw [← party_of_block hin.block]; exact hin.party
  have hp : (c.b.modParty c.who F).party? c.who = some (F c.p) := by
    rw [Block.modParty_party, if_pos rfl, hbp]
    rfl
  obtain ⟨t, h1, h2⟩ := issue_done i sw b s _ c _ (F c.p) c.f st hg (fun m => by rw [ht]; exact watchHit_nil _ _ _) hpl
    (hrun _ rfl fun _ => rfl) hb hp (by rw [hF.2]; exact hin.frag) hF.1
    (by rw [hF.2, lmod_self _ _ _ hin.frag]) hi
  refine ⟨t, h1, ?_⟩
  rw [Ctx.behindOf_ms (s := s) (by simp), Ctx.behindOf_self] at h2
  exact RanOn.of_eq (s := s) (b' := c.b) h2 rfl
    (fun k hk => by rw [modParty_block, if_neg fun e => hk e.symm])
    (fun n => by rw [modParty_cluster_read])
    (by simp) (fun w hw => by rw [Block.modParty_party, if_neg fun e => hw e.symm])

end Sys2Proof.Machine
end

