-- ==== Sys2Proof/Laws/Memory.lean ====
section
/-! SUPPORT. Byte memory: reading after writing, and that every write keeps the canonical form. -/
namespace Sys2Proof.Machine
open Sys2Proof

/-! ## The canonical form -/

theorem memFrom_mono (m : Mem) (a b : Nat) (h : a ≤ b) (w : memFrom b m = true) : memFrom a m = true := by
  cases m with
  | nil => rfl
  | cons e r =>
    obtain ⟨x, v⟩ := e
    simp only [memFrom, Bool.and_eq_true, decide_eq_true_eq] at *
    exact ⟨⟨by omega, w.1.2⟩, w.2⟩

/-- Writing a byte keeps the form, from any address not above the one written. -/
theorem memFrom_memSet (m : Mem) (lo x : Nat) (b : Byte) (h : lo ≤ x) (w : memFrom lo m = true) :
    memFrom lo (memSet m x b) = true := by
  induction m generalizing lo with
  | nil =>
    unfold memSet
    split
    · rfl
    · simp_all [memFrom]
  | cons e r ih =>
    obtain ⟨a, c⟩ := e
    simp only [memFrom, Bool.and_eq_true, decide_eq_true_eq] at w
    obtain ⟨⟨ha, hc⟩, hr⟩ := w
    unfold memSet
    split
    · split
      · simp only [memFrom, Bool.and_eq_true, decide_eq_true_eq]; exact ⟨⟨ha, hc⟩, hr⟩
      · simp only [memFrom, Bool.and_eq_true, decide_eq_true_eq]
        refine ⟨⟨h, by simp_all⟩, ⟨by omega, hc⟩, hr⟩
    · split
      · split
        · exact memFrom_mono r lo (a + 1) (by omega) hr
        · simp only [memFrom, Bool.and_eq_true, decide_eq_true_eq]
          subst_vars
          exact ⟨⟨h, by simp_all⟩, hr⟩
      · simp only [memFrom, Bool.and_eq_true, decide_eq_true_eq]
        exact ⟨⟨ha, hc⟩, ih (a + 1) (by omega) hr⟩

theorem memSet_wf (m : Mem) (x : Nat) (b : Byte) (w : Memory.wf m = true) : Memory.wf (memSet m x b) = true :=
  memFrom_memSet m 0 x b (Nat.zero_le x) w

/-- Writing bytes keeps the canonical form. -/
theorem memWrite_wf (m : Mem) (a : Nat) (l : List Byte) (w : Memory.wf m = true) : Memory.wf (memWrite m a l) = true := by
  induction l generalizing m a with
  | nil => exact w
  | cons b r ih => exact ih (memSet m a b) (a + 1) (memSet_wf m a b w)

theorem empty_wf : Memory.wf [] = true := rfl

/-! ## Reading after writing -/

/-- A byte below every listed address reads 0. -/
theorem memGet_below (m : Mem) (lo x : Nat) (w : memFrom lo m = true) (h : x < lo) : memGet m x = 0 := by
  cases m with
  | nil => rfl
  | cons e r =>
    obtain ⟨a, c⟩ := e
    simp only [memFrom, Bool.and_eq_true, decide_eq_true_eq] at w
    simp only [memGet]
    rw [if_neg (by omega), if_pos (by omega)]

theorem memGet_memSet_from (m : Mem) (lo x y : Nat) (b : Byte) (w : memFrom lo m = true) :
    memGet (memSet m x b) y = if x = y then b else memGet m y := by
  induction m generalizing lo with
  | nil =>
    unfold memSet
    split
    · by_cases e : x = y <;> simp [memGet, *]
    · by_cases e : x = y
      · subst e; simp [memGet]
      · have : ¬ y = x := fun h => e h.symm
        simp [memGet, e, this]
  | cons e r ih =>
    obtain ⟨a, c⟩ := e
    simp only [memFrom, Bool.and_eq_true, decide_eq_true_eq] at w
    obtain ⟨⟨ha, hc⟩, hr⟩ := w
    unfold memSet
    split
    · split
      · by_cases e : x = y
        · subst e
          simp only [memGet, if_true, *]
          rw [if_neg (by omega)]
        · simp [e]
      · by_cases e : x = y
        · subst e; simp [memGet]
        · have : ¬ y = x := fun h => e h.symm
          simp only [memGet, if_neg this, if_neg e]
          split
          · rw [if_neg (by omega), if_pos (by omega)]
          · rfl
    · split
      · rename_i _ hx
        subst hx
        by_cases e : x = y
        · subst e
          rw [if_pos rfl]
          split
          · rename_i hb
            rw [memGet_below r (x + 1) x hr (by omega), hb]
          · simp [memGet]
        · have ne : ¬ y = x := fun h => e h.symm
          rw [if_neg e]
          split
          · simp only [memGet, if_neg ne]
            split
            · exact memGet_below r (x + 1) y hr (by omega)
            · rfl
          · simp only [memGet, if_neg ne]
      · simp only [memGet]
        rw [ih (a + 1) hr]
        by_cases e : x = y
        · subst e
          rw [if_neg (by omega), if_neg (by omega), if_pos rfl, if_pos rfl]
        · simp only [if_neg e]

/-- A byte reads what was written to it last. -/
theorem memGet_memSet (m : Mem) (x y : Nat) (b : Byte) (w : Memory.wf m = true) :
    memGet (memSet m x b) y = if x = y then b else memGet m y := memGet_memSet_from m 0 x y b w

/-- After a write of bytes each of them reads as written and every other byte as before. -/
theorem memGet_memWrite (m : Mem) (a y : Nat) (l : List Byte) (w : Memory.wf m = true) :
    memGet (memWrite m a l) y = if a ≤ y ∧ y < a + l.length then l.getD (y - a) 0 else memGet m y := by
  induction l generalizing m a with
  | nil =>
    rw [if_neg (by simp only [List.length_nil]; omega)]
    rfl
  | cons b r ih =>
    simp only [memWrite]
    rw [ih (memSet m a b) (a + 1) (memSet_wf m a b w), memGet_memSet m a y b w]
    simp only [List.length_cons]
    by_cases e : a = y
    · subst e
      rw [if_neg (by omega), if_pos (by omega)]
      simp
    · by_cases h : a + 1 ≤ y ∧ y < a + 1 + r.length
      · rw [if_pos h, if_pos (by omega)]
        have : y - a = (y - (a + 1)) + 1 := by omega
        rw [this, List.getD_cons_succ]
      · rw [if_neg h, if_neg e, if_neg (by omega)]

theorem memRead_length (m : Mem) (a n : Nat) : (memRead m a n).length = n := by
  induction n generalizing a with
  | zero => rfl
  | succ k ih => simp [memRead, ih]

/-- Byte i of a read is the byte at that distance. -/
theorem memRead_getD (m : Mem) (a n i : Nat) (h : i < n) : (memRead m a n).getD i 0 = memGet m (a + i) := by
  induction n generalizing a i with
  | zero => omega
  | succ k ih =>
    cases i with
    | zero => simp [memRead]
    | succ j =>
      simp only [memRead, List.getD_cons_succ]
      rw [ih (a + 1) j (by omega)]
      congr 1
      omega

/-- A read of bytes just written gives them. -/
theorem memRead_memWrite (m : Mem) (a : Nat) (l : List Byte) (w : Memory.wf m = true) :
    memRead (memWrite m a l) a l.length = l := by
  apply List.ext_getElem
  · exact memRead_length _ _ _
  · intro i h1 h2
    have e := memRead_getD (memWrite m a l) a l.length i h2
    rw [memGet_memWrite m a (a + i) l w, if_pos (by omega)] at e
    have : a + i - a = i := by omega
    rw [this] at e
    rw [List.getD_eq_getElem?_getD, List.getElem?_eq_getElem h1] at e
    rw [List.getD_eq_getElem?_getD, List.getElem?_eq_getElem h2] at e
    simpa using e

/-- Memories in canonical form that read alike are equal. -/
theorem mem_ext (m n : Mem) (lo : Nat) (hm : memFrom lo m = true) (hn : memFrom lo n = true)
    (h : ∀ a, memGet m a = memGet n a) : m = n := by
  induction m generalizing n lo with
  | nil =>
    cases n with
    | nil => rfl
    | cons e r =>
      obtain ⟨b, d⟩ := e
      have := h b
      simp only [memFrom, Bool.and_eq_true, bne_iff_ne, ne_eq] at hn
      simp only [memGet, if_true] at this
      exact absurd this.symm hn.1.2
  | cons e r ih =>
    obtain ⟨a, c⟩ := e
    simp only [memFrom, Bool.and_eq_true, bne_iff_ne, ne_eq, decide_eq_true_eq] at hm
    cases n with
    | nil =>
      have := h a
      simp only [memGet, if_true] at this
      exact absurd this hm.1.2
    | cons f q =>
      obtain ⟨b, d⟩ := f
      simp only [memFrom, Bool.and_eq_true, bne_iff_ne, ne_eq, decide_eq_true_eq] at hn
      have hab : a = b := by
        rcases Nat.lt_trichotomy a b with l | l | l
        · have := h a
          simp only [memGet, if_true] at this
          rw [if_neg (by omega), if_pos l] at this
          exact absurd this hm.1.2
        · exact l
        · have := h b
          simp only [memGet, if_true] at this
          rw [if_neg (by omega), if_pos l] at this
          exact absurd this.symm hn.1.2
      subst hab
      have hcd : c = d := by simpa [memGet] using h a
      subst hcd
      congr 1
      refine ih q (a + 1) hm.2 hn.2 fun x => ?_
      by_cases hx : x < a + 1
      · rw [memGet_below r (a + 1) x hm.2 hx, memGet_below q (a + 1) x hn.2 hx]
      · have := h x
        simp only [memGet] at this
        rwa [if_neg (by omega), if_neg (by omega), if_neg (by omega), if_neg (by omega)] at this

end Sys2Proof.Machine
end

