-- ==== Sys2Proof/Laws/Shapes.lean ====
section
/-! SUPPORT. The shapes of register words: what a word does whose body writes one lane register, one predicate, or uniform
registers. -/
namespace Sys2Proof.Machine
open Sys2Proof

/-! ## Registers of a party -/

theorem laneResult_setV {c : Ctx} {d : Nat} {m : Lanes} {f : Nat → Word} {q : Party}
    (h : sameRegs (c.p.setV d m f) q) : laneResult c d m f q := by
  obtain ⟨hv, hs, hp, hpv, hps⟩ := h
  refine ⟨fun r L hr hL => ?_, hs, hp, hps, fun r hr => ?_⟩
  · have : q.getV r L = (c.p.setV d m f).getV r L := by unfold Party.getV; rw [hv]
    rw [this, Party.setV_getV c.p d m f r L hr hL]
  · rw [hpv]
    show vget (vset _ _ _) r 0 = _
    rw [vget_vset]
    by_cases e : d = r
    · subst e; simp [hr]
    · have e' : ¬ r = d := fun h => e h.symm
      simp [e, e']

theorem predResult_setP {c : Ctx} {d : Nat} {m : Lanes} {f : Nat → Bool} {q : Party}
    (h : sameRegs (c.p.setP d m f) q) : predResult c d m f q := by
  obtain ⟨hv, hs, hp, hpv, hps⟩ := h
  refine ⟨fun r L hr hL => ?_, by simpa using hv, by simpa using hs, by simpa using hpv, by simpa using hps⟩
  have : q.getP r L = (c.p.setP d m f).getP r L := by unfold Party.getP; rw [hp]
  rw [this, Party.setP_getP c.p d m f r L hr hL]

theorem uniformResult_setSs {c : Ctx} {d : Nat} {l : List Word} {q : Party}
    (h : sameRegs (c.p.setSs d l) q) : uniformResult c d l q := by
  obtain ⟨hv, hs, hp, hpv, hps⟩ := h
  refine ⟨fun r hr => ?_, by simpa using hv, by simpa using hp, by simpa using hpv⟩
  have : q.getS r = (c.p.setSs d l).getS r := by unfold Party.getS; rw [hs]
  rw [this, Party.setSs_getS c.p d r l hr]

theorem setV_bare (p : Party) (r : Nat) (m : Lanes) (f : Nat → Word) : (p.setV r m f).bare = p.bare := rfl
theorem setP_bare (p : Party) (r : Nat) (m : Lanes) (f : Nat → Bool) : (p.setP r m f).bare = p.bare := by
  unfold Party.setP; split <;> rfl
theorem setS_bare (p : Party) (r : Nat) (x : Word) : (p.setS r x).bare = p.bare := rfl
theorem setSs_bare (p : Party) (r : Nat) (l : List Word) : (p.setSs r l).bare = p.bare := by
  induction l generalizing p r with
  | nil => rfl
  | cons x xs ih => exact (ih _ _).trans (setS_bare p r x)

/-! ## Shapes -/

/-- What a body must be for a register word: legal in every launch, no grant asked, no access watched, its registers and guard those named. -/
structure Plain (b : Body) (rd wr : RegSet) (g : Nat) : Prop where
  reads  : ∀ c, c.limm = none → b.reads c = rd
  writes : ∀ c, b.writes c = wr
  guard  : b.guard = g
  lanes  : b.perLane = true ∨ b.guard = 0
  grant  : ∀ c, b.grant c = true
  touch  : ∀ s c m, b.touch s c m = []
  illop  : ∀ c, b.illop c = false

theorem register_op {i : Instr} {sw : BitVec 1} {rd wr : RegSet} {g : Nat} {b : Body} (he : ∀ s, exec i s = issue i sw b s)
    (hb : Plain b rd wr g) (s : State) (c : Ctx) (F : Party → Party) (st : Stands s c i rd wr g)
    (hF : (F c.p).bare = c.p.bare ∧ (F c.p).frags = c.p.frags)
    (hrun : ∀ u, u.outside = s.outside → (∀ n, u.cluster n = s.cluster n) →
      b.run { c with sw := sw == 1 } (c.effLanes g) u = .done (u.modParty c.key c.who F) [] .seq) :
    ∃ t, exec i s = .next t ∧ RanOn s t c c.b (c.behind s sw wr) (sameRegs (F c.p)) := by
  have hl : c.limm = none := (ctx_in st.turn).limm
  rw [he]
  have h1 := hb.reads { c with sw := sw == 1 } hl
  have h2 := hb.writes { c with sw := sw == 1 }
  have := issue_registers i sw b s c F (by rw [h1, h2, hb.guard]; exact st) (hb.grant _) hb.touch hb.lanes hF
    (by rw [hb.guard]; exact hrun) (hb.illop _)
  rw [h2] at this
  exact this

theorem lane_op {i : Instr} {sw : BitVec 1} {rd : RegSet} {g : BitVec 2} {d : BitVec 6} {val : Ctx → Nat → Word} (b : Body)
    (he : ∀ s, exec i s = issue i sw b s) (hb : Plain b rd (RegSet.vs d.toNat 1) g.toNat)
    (hrun : ∀ (c : Ctx) (m : Lanes) (s : State), c.limm = none →
      ∃ f, b.run { c with sw := sw == 1 } m s = .done (s.modParty c.key c.who fun p => p.setV d.toNat m f) [] .seq ∧
        ∀ L, f L = val c L) :
    LaneOp i sw rd g d val := by
  intro s c st
  have hl : c.limm = none := (ctx_in st.turn).limm
  have hr : ∀ m u, b.run { c with sw := sw == 1 } m u =
      .done (u.modParty c.key c.who fun p => p.setV d.toNat m (val c)) [] .seq := by
    intro m u
    obtain ⟨f, hf, hv⟩ := hrun c m u hl
    rw [hf, funext hv]
  obtain ⟨t, h1, h2⟩ := register_op he hb s c (fun p => p.setV d.toNat (c.effLanes g.toNat) (val c)) st
    ⟨setV_bare _ _ _ _, rfl⟩ (fun u _ _ => hr _ u)
  exact ⟨t, h1, h2.imp fun _ => laneResult_setV⟩

theorem pred_op {i : Instr} {sw : BitVec 1} {rd : RegSet} {g d : BitVec 2} {val : Ctx → Nat → Bool} (b : Body)
    (he : ∀ s, exec i s = issue i sw b s) (hb : Plain b rd (RegSet.pr d.toNat) g.toNat)
    (hrun : ∀ (c : Ctx) (m : Lanes) (s : State), c.limm = none →
      ∃ f, b.run { c with sw := sw == 1 } m s = .done (s.modParty c.key c.who fun p => p.setP d.toNat m f) [] .seq ∧
        ∀ L, f L = val c L) :
    PredOp i sw rd g d val := by
  intro s c st
  have hl : c.limm = none := (ctx_in st.turn).limm
  have hr : ∀ m u, b.run { c with sw := sw == 1 } m u =
      .done (u.modParty c.key c.who fun p => p.setP d.toNat m (val c)) [] .seq := by
    intro m u
    obtain ⟨f, hf, hv⟩ := hrun c m u hl
    rw [hf, funext hv]
  obtain ⟨t, h1, h2⟩ := register_op he hb s c (fun p => p.setP d.toNat (c.effLanes g.toNat) (val c)) st
    ⟨setP_bare _ _ _ _, by simp⟩ (fun u _ _ => hr _ u)
  exact ⟨t, h1, h2.imp fun _ => predResult_setP⟩

theorem uniform_op {i : Instr} {sw : BitVec 1} {rd : RegSet} {d : BitVec 7} {n : Nat} {val : State → Ctx → List Word} (b : Body)
    (he : ∀ s, exec i s = issue i sw b s) (hb : Plain b rd (RegSet.ss d.toNat n) 0)
    (hrun : ∀ (c : Ctx) (m : Lanes) (s u : State), c.limm = none → u.outside = s.outside →
      (∀ n, u.cluster n = s.cluster n) →
      ∃ F, b.run { c with sw := sw == 1 } m u = .done (u.modParty c.key c.who F) [] .seq ∧
        ∀ p, F p = p.setSs d.toNat (val s c)) :
    UniformOp i sw rd d n val := by
  intro s c st
  have hl : c.limm = none := (ctx_in st.turn).limm
  obtain ⟨t, h1, h2⟩ := register_op he hb s c (fun p => p.setSs d.toNat (val s c)) st ⟨setSs_bare _ _ _, by simp⟩
    (fun u ho hcl => by
      obtain ⟨F, hF, hv⟩ := hrun c (c.effLanes 0) s u hl ho hcl
      rw [hF, funext hv])
  exact ⟨t, h1, h2.imp fun _ => uniformResult_setSs⟩

/-! ## The bodies of the integer chapter -/

theorem useB_limm {c : Ctx} (h : c.limm = none) (b : BitVec 6) (u : BitVec 1) :
    c.useB b.toNat (u == 1) = if u = 1 then RegSet.ss b.toNat 1 else RegSet.vs b.toNat 1 := by simp [Ctx.useB, h]

theorem opB_limm {c : Ctx} (h : c.limm = none) (b : BitVec 6) (u : BitVec 1) (L : Nat) :
    c.opB b.toNat (u == 1) L = c.src b u L := by simp [Ctx.opB, Ctx.src, h]

theorem alu_plain (g : BitVec 2) (d a b : BitVec 6) (u : BitVec 1) (f : Word → Word → Word) :
    Plain (alu g d a b u f) (l3Reads a b u) (RegSet.vs d.toNat 1) g.toNat := by
  refine ⟨fun c h => ?_, fun _ => rfl, rfl, .inl rfl, fun _ => rfl, fun _ _ _ => rfl, fun _ => rfl⟩
  simp only [alu, l3Reads, useB_limm h]

theorem alu_op {i : Instr} {sw : BitVec 1} {g : BitVec 2} {d a b : BitVec 6} {u : BitVec 1} {f h : Word → Word → Word}
    (he : ∀ s, exec i s = issue i sw (alu g d a b u f) s) (hv : ∀ x y, f x y = h x y) :
    LaneOp i sw (l3Reads a b u) g d fun c L => h (c.src a 0 L) (c.src b u L) := by
  refine lane_op _ he (alu_plain g d a b u f) fun c m s hl => ⟨_, rfl, fun L => ?_⟩
  have e : (Ctx.opB { c with sw := sw == 1 } b.toNat (u == 1) L) = c.src b u L := opB_limm hl b u L
  show f (c.p.getV a.toNat L) (Ctx.opB _ _ _ _) = _
  rw [e, hv]
  rfl

theorem alu1_op {i : Instr} {sw : BitVec 1} {g : BitVec 2} {d a : BitVec 6} {f h : Word → Word}
    (he : ∀ s, exec i s = issue i sw (alu1 g d a f) s) (hv : ∀ x, f x = h x) :
    LaneOp i sw (RegSet.vs a.toNat 1) g d fun c L => h (c.src a 0 L) := by
  refine lane_op _ he ⟨fun _ _ => rfl, fun _ => rfl, rfl, .inl rfl, fun _ => rfl, fun _ _ _ => rfl, fun _ => rfl⟩
    fun c m s _ => ⟨_, rfl, fun L => hv _⟩

theorem alu4_op {i : Instr} {sw : BitVec 1} {d a b e : BitVec 6} {f : Ctx → Word → Word → Word → Word}
    {h : Ctx → Word → Word → Word → Word}
    (he : ∀ s, exec i s = issue i sw (alu4 d a b e f) s) (hv : ∀ c x y z, f { c with sw := sw == 1 } x y z = h c x y z) :
    LaneOp i sw (((RegSet.vs a.toNat 1).or (RegSet.vs b.toNat 1)).or (RegSet.vs e.toNat 1)) 0 d
      fun c L => h c (c.src a 0 L) (c.src b 0 L) (c.src e 0 L) := by
  refine lane_op _ he ⟨fun _ _ => rfl, fun _ => rfl, rfl, .inl rfl, fun _ => rfl, fun _ _ _ => rfl, fun _ => rfl⟩
    fun c m s _ => ⟨_, rfl, fun L => hv c _ _ _⟩

theorem ualu_op {i : Instr} {sw : BitVec 1} {d a b : BitVec 7} {f h : Word → Word → Word}
    (he : ∀ s, exec i s = issue i sw (ualu d a b f) s) (hv : ∀ x y, f x y = h x y) :
    UniformOp i sw ((RegSet.ss a.toNat 1).or (RegSet.ss b.toNat 1)) d 1
      fun _ c => [h (c.p.getS a.toNat) (c.p.getS b.toNat)] := by
  refine uniform_op _ he ⟨fun c hl => ?_, fun _ => rfl, rfl, .inr rfl, fun _ => rfl, fun _ _ _ => rfl, fun _ => rfl⟩
    fun c m s u hl _ _ => ⟨_, rfl, fun p => ?_⟩
  · simp [ualu, Ctx.useSB, hl]
  · simp only [Ctx.opSB, hl, Option.getD_none, hv]
    rfl

theorem ualu1_op {i : Instr} {sw : BitVec 1} {d a : BitVec 7} {f h : Word → Word}
    (he : ∀ s, exec i s = issue i sw (ualu1 d a f) s) (hv : ∀ x, f x = h x) :
    UniformOp i sw (RegSet.ss a.toNat 1) d 1 fun _ c => [h (c.p.getS a.toNat)] := by
  refine uniform_op _ he ⟨fun _ _ => rfl, fun _ => rfl, rfl, .inr rfl, fun _ => rfl, fun _ _ _ => rfl, fun _ => rfl⟩
    fun c m s u _ _ _ => ⟨_, rfl, fun p => by rw [hv]; rfl⟩

end Sys2Proof.Machine
end

