-- ==== Sys2Proof/Tests/Slice0.lean ====
section
/-! SUPPORT. Tests: words decode as the spec's encodings say, ill-formed terms are refused, and every statement's hypotheses are met by
a concrete state. -/
set_option Elab.async false
namespace Sys2Proof.Tests
open Sys2Proof Sys2Proof.Machine

/-! ## Small states -/

/-- The block of the probe. -/
def key : Key := { part := 0, grid := 1, blk := 0 }
/-- Cluster 0 holds one block of a 32-wide warp and an MCC, both at address 64, and its first page is mapped. -/
def base : State := { State.reset.withFetchWord 32 0 with agenda := [] }
/-- The turn is the warp's. -/
def warp : State := { base with turn := .frag key (.warp 0) 0 }
/-- The turn is the MCC's. -/
def mcc : State := { base with turn := .frag key .mcc 0 }
/-- Does the fragment whose turn it is satisfy P? -/
def who (s : State) (P : Ctx → Bool) : Bool := (ctx? s).any P
/-- Does nothing stop the word, as Stands says? -/
def stands (s : State) (i : Instr) (rd wr : RegSet) (g : Nat := 0) : Bool :=
  who s fun c => i.wf && runsHere i c.who && !outsideWindow c.p (rd.or wr) &&
    !((rd.or wr).or (RegSet.pr g)).meets c.f.pend && poisonedLanes c.p rd (c.effLanes g) == 0
/-- Change the party whose turn it is. -/
def onParty (s : State) (f : Party → Party) : State :=
  match ctx? s with
  | some c => c.modP s f
  | none => s
/-- Change its fragment. -/
def onFrag (s : State) (f : Frag → Frag) : State := onParty s fun p => { p with frags := p.frags.map f }
/-- Change the block. -/
def onBlock (s : State) (f : Block → Block) : State := s.modBlock key f
/-- Set a uniform register of the party. -/
def setS (s : State) (r : Nat) (x : Word) : State := onParty s fun p => p.setS r x
/-- Set a register pair of the party to a 64-bit value. -/
def setSD (s : State) (r : Nat) (x : DWord) : State := onParty s fun p => p.setSD r x
/-- Set a lane register in every lane. -/
def setV (s : State) (r : Nat) (f : Nat → Word) : State := onParty s fun p => p.setV r (BitVec.allOnes 64) f
/-- Change the launch. -/
def onLaunch (s : State) (f : Launch → Launch) : State := { s with launches := s.launches.map f }
/-- Every lane below 64 satisfies P. -/
def lanes (P : Nat → Bool) : Bool := (List.range 64).all P

/-- The check is Stands. -/
theorem stands_sound {s : State} {i : Instr} {rd wr : RegSet} {g : Nat} (h : stands s i rd wr g = true) :
    ∃ c, Stands s c i rd wr g := by
  unfold stands who at h
  cases hc : ctx? s with
  | none => simp [hc] at h
  | some c =>
    simp only [hc, Option.any_some, Bool.and_eq_true, Bool.not_eq_true', beq_iff_eq] at h
    exact ⟨c, hc, h.1.1.1.1, h.1.1.1.2, h.1.1.2, h.1.2, h.2⟩

/-- Every word of a list stands. -/
def allStand (s : State) (l : List (Instr × RegSet × RegSet)) : Bool := l.all fun e => stands s e.1 e.2.1 e.2.2

/-! ## Registers of lanes and of warps -/

/-- vd of the lane words. -/
def vd : RegSet := RegSet.vs 4 1
/-- va. -/
def va : RegSet := RegSet.vs 2 1
/-- Sources va and vb of the lane words. -/
def vab : RegSet := l3Reads 2 6 0
/-- Sources va and sb. -/
def vasb : RegSet := l3Reads 2 6 1
/-- Sources va, vb, vc. -/
def vabc : RegSet := ((RegSet.vs 2 1).or (RegSet.vs 6 1)).or (RegSet.vs 8 1)

theorem test_integer_words_stand : allStand warp
    [(.iadd 0 0 4 2 6 0, vab, vd), (.iadd 1 0 4 2 6 1, vasb, vd), (.isub 0 0 4 2 6 0, vab, vd), (.iaddSat 0 0 4 2 6 0 1, vab, vd),
     (.isubSat 0 0 4 2 6 0 2, vab, vd), (.iaddImm 0 0 4 2 0x200, va, vd), (.imul 0 0 4 2 6 0, vab, vd),
     (.imulh 0 0 4 2 6 0 1, vab, vd), (.imad 0 4 2 6 8, vabc, vd), (.imin 0 0 4 2 6 0 1, vab, vd), (.imax 0 0 4 2 6 0 0, vab, vd),
     (.iabs 0 0 4 2, va, vd), (.iabsSat 0 0 4 2, va, vd), (.iadd 0 0 63 63 63 0, l3Reads 63 63 0, RegSet.vs 63 1)] = true := by
  decide +kernel

theorem test_shift_field_and_move_words_stand : allStand warp
    [(.shl 0 0 4 2 6 0, vab, vd), (.shr 0 0 4 2 6 0, vab, vd), (.sar 0 0 4 2 6 0, vab, vd), (.rol 0 0 4 2 6 0, vab, vd),
     (.shlImm 0 0 4 2 31, va, vd), (.shrImm 0 0 4 2 31, va, vd), (.sarImm 0 0 4 2 31, va, vd), (.rolImm 0 0 4 2 31, va, vd),
     (.bfx 0 0 4 2 6 0 1, vab, vd), (.bfi 0 4 2 6 8, vabc, vd), (.prmb 0 4 2 6 8, vabc, vd), (.rndh 0 0 4 2 6 0, vab, vd),
     (.sel 0 0 4 2 6 0 1, vab.or (RegSet.pr 1), vd), (.mov 0 0 4 6, RegSet.vs 6 1, vd), (.movs 0 0 4 6, RegSet.ss 6 1, vd),
     (.movImm 0 0 4 0x3FF, RegSet.none, vd), (.vsrd 0 0 4 4, RegSet.none, vd),
     (.lea 0 0 4 2 6 0 7, (RegSet.vs 2 2).or (RegSet.vs 6 1), RegSet.vs 4 2)] = true := by
  decide +kernel

theorem test_bitwise_and_bit_count_words_stand : allStand warp
    [(.andL 0 0 4 2 6 0, vab, vd), (.orL 0 0 4 2 6 1, vasb, vd), (.xorL 0 0 4 2 6 0, vab, vd), (.andn 0 0 4 2 6 0, vab, vd),
     (.popc 0 0 4 2, va, vd), (.clz 0 0 4 2, va, vd), (.brev 0 0 4 2, va, vd)] = true := by
  decide +kernel

theorem test_predicate_words_stand : allStand warp
    [(.icmp 0 0 0 1 2 6 0 5, vab, RegSet.pr 1), (.icmp 0 0 0 0 2 6 0 0, vab, RegSet.pr 0), (.fcmp 0 0 1 2 6 0 5, vab, RegSet.pr 1),
     (.plog 0 0 1 2 3 3, (RegSet.pr 2).or (RegSet.pr 3), RegSet.pr 1),
     (.pmovGet 0 0 4, ((RegSet.pr 1).or (RegSet.pr 2)).or (RegSet.pr 3), vd),
     (.pmovPut 0 0 2, va, ((RegSet.pr 1).or (RegSet.pr 2)).or (RegSet.pr 3)),
     (.hcmp2 0 0 1 1 2 6 0 5, vab, (RegSet.pr 1).or (RegSet.pr 2))] = true := by
  decide +kernel

theorem test_floating_words_stand : allStand warp
    [(.fadd 0 0 4 2 6 0, vab, vd), (.fsub 0 0 4 2 6 0, vab, vd), (.fmul 0 0 4 2 6 0, vab, vd), (.fmin 0 0 4 2 6 0, vab, vd),
     (.fmax 0 0 4 2 6 0, vab, vd), (.ffma 0 4 2 6 8, vabc, vd), (.fscl 0 0 4 2 6 0, vab, vd), (.frnd 0 0 4 2 3, va, vd),
     (.hadd2 0 0 4 2 6 0 1, vab, vd), (.hmul2 0 0 4 2 6 0 0, vab, vd), (.hmin2 0 0 4 2 6 0 1, vab, vd),
     (.hmax2 0 0 4 2 6 0 0, vab, vd), (.hfma2 0 4 2 6 8, vabc, vd), (.hfma2Bf16 0 4 2 6 8, vabc, vd), (.exp2 0 0 4 2, va, vd),
     (.log2 0 0 4 2, va, vd), (.rcp 0 0 4 2, va, vd), (.rsq 0 0 4 2, va, vd), (.sqrt 0 0 4 2, va, vd), (.sin 0 0 4 2, va, vd),
     (.cos 0 0 4 2, va, vd), (.tanh 0 0 4 2, va, vd)] = true := by
  decide +kernel

theorem test_conversion_and_dot_words_stand : allStand warp
    [(.cvt 0 0 4 2 0 4 0, va, vd), (.cvth2 0 0 4 2 6 0 1, vab, vd), (.cvth2Widen 0 0 4 2 1, va, RegSet.vs 4 2),
     (.cvtq 0 0 4 2 7, va, vd), (.cvtd 0 0 4 2 7, va, vd), (.mono 0 0 4 2 0, va, vd), (.monoi 0 0 4 2 2, va, vd),
     (.dp4 0 0 4 2 6 0 0, vab.or vd, vd), (.dp8 0 0 4 2 6 0 1, vab.or vd, vd), (.dp2h 0 0 4 2 6 0, vab.or vd, vd),
     (.dp4eE4m3 0 0 4 2 6 0, vab.or vd, vd), (.dp4eE5m2 0 0 4 2 6 0, vab.or vd, vd), (.dp2hBf16 0 0 4 2 6 0, vab.or vd, vd)] = true ∧
    who warp (fun c => decide (slotHad (slotOf c.l 7) ≤ c.group)) = true := by
  decide +kernel

theorem test_format_laws_have_operands : valOf fF16 0x3C00 ≠ .nan ∧ valOf fE5M2 0x7B ≠ .nan ∧ (-1 : Int) < 0 ∧
    vF32 0x7FC00000 = .nan ∧ ltV (valOf fF32 0xBF800000) (valOf fF32 0x3F800000) = true ∧ rndh 0 0 = rndh 0 0 ∧
    ([some (1 : Word)] ++ List.replicate 15 none).any Option.isSome = true := by
  decide +kernel

theorem test_cross_lane_words_stand : allStand warp
    [(.shfl 0 0 4 2 6 0 3, vab, vd), (.voteAny 0 0 1 2, RegSet.pr 2, RegSet.pr 1), (.voteAll 0 0 1 2, RegSet.pr 2, RegSet.pr 1),
     (.wred 0 0 4 2 0, va, vd), (.wscan 0 0 4 2 1, va, vd), (.voteBallot 0 0 4 2, RegSet.pr 2, vd), (.matchL 0 0 5 2, va, RegSet.vs 5 1)]
      = true ∧
    (let wide := onLaunch warp fun l => { l with lr := { l.lr with width := 64 } }
     allStand wide [(.voteBallot 0 0 4 2, RegSet.pr 2, RegSet.vs 4 2), (.matchL 0 0 4 2, va, RegSet.vs 4 2)] = true ∧
       who wide (fun c => c.group = 64) = true) := by
  decide +kernel

/-- sd of the uniform words. -/
def sd : RegSet := RegSet.ss 4 1
/-- sa. -/
def sa : RegSet := RegSet.ss 2 1
/-- Sources sa and sb. -/
def sab : RegSet := (RegSet.ss 2 1).or (RegSet.ss 6 1)

/-- The uniform words, with what they read and write. -/
def uniformWords : List (Instr × RegSet × RegSet) :=
  [(.sadd 0 4 2 6, sab, sd), (.ssub 0 4 2 6, sab, sd), (.saddImm 0 4 2 0x200, sa, sd), (.smul 0 4 2 6, sab, sd),
   (.smulh 0 4 2 6 2, sab, sd), (.sand 0 4 2 6, sab, sd), (.sor 0 4 2 6, sab, sd), (.sxor 0 4 2 6, sab, sd),
   (.sshl 0 4 2 6, sab, sd), (.sshr 0 4 2 6, sab, sd), (.ssar 0 4 2 6, sab, sd), (.sshlImm 0 4 2 31, sa, sd),
   (.sshrImm 0 4 2 31, sa, sd), (.ssarImm 0 4 2 31, sa, sd), (.smin 0 4 2 6 1, sab, sd), (.smax 0 4 2 6 0, sab, sd),
   (.scmp 0 4 2 6 5, sab, sd), (.ssel 0 4 2 6, sab.or sd, sd), (.smov 0 4 2, sa, sd), (.spopc 0 4 2, sa, sd),
   (.sclz 0 4 2, sa, sd), (.smovl 0 4 0xFFFF, RegSet.none, sd), (.smovh 0 4 0xFFFF, sd, sd), (.srd 0 4 8, RegSet.none, sd),
   (.leaseq 0 4, RegSet.none, RegSet.ss 4 4), (.nop 0, RegSet.none, RegSet.none)]

theorem test_uniform_words_stand : allStand warp uniformWords = true ∧
    allStand warp [(.swr 0 2 0x11, sa, RegSet.none), (.swr 0 2 0x1A, sa, RegSet.none), (.swr 0 2 0x0F, RegSet.ss 2 2, RegSet.none),
      (.swr 0 2 0x10, RegSet.ss 2 2, RegSet.none), (.swr 0 2 0x0E, RegSet.ss 2 2, RegSet.none)] = true ∧
    allStand mcc [(.swr 0 2 0x0E, RegSet.ss 2 2, RegSet.none), (.srd 0 4 0, RegSet.none, RegSet.ss 4 2)] = true := by
  decide +kernel

/-! ## Control flow -/

/-- The fragment stands at an address. -/
def atPc (s : State) (pc : Addr) : State := onFrag s fun f => { f with pc := pc }
/-- Every return stack of the party holds k addresses. -/
def withRets (s : State) (k : Nat) : State := onParty s fun p => { p with rets := Vector.replicate 64 (List.replicate k 128) }
/-- The target of a branch by o blocks. -/
def target (c : Ctx) (o : Int) : Int := (c.f.pc.toNat / 64 * 64 : Int) + 64 * o
/-- Every active lane has this many return addresses. -/
def depth (s : State) (k : Nat) : Bool := who s fun c => lanes fun L => !c.f.lanes.getLsbD L || (vget c.p.rets L []).length == k
/-- No register. -/
def none2 : RegSet := RegSet.none

theorem test_branches_reach : allStand warp [(.bra 0 1, none2, none2), (.bra 0 (-1), none2, none2), (.call 0 (-1), none2, none2)] = true ∧
    who warp (fun c => decide (target c (-1) = 0) && decide (target c (2 ^ 23 - 1) < 2 ^ 55)) = true ∧
    stands warp (.brc 0 0 2 (-1)) sa none2 = true ∧ stands warp (.brc 0 1 2 1) sa none2 = true ∧
    who warp (fun c => holds 0 (c.p.getS 2).toInt 0 && !holds 1 (c.p.getS 2).toInt 0) = true ∧
    stands (withRets warp 3) (.call 0 1) none2 none2 = true ∧ depth (withRets warp 3) 3 = true ∧
    stands (withRets mcc 7) (.call 0 1) none2 none2 = true ∧ depth (withRets mcc 7) 7 = true ∧
    stands (setSD warp 2 (2 ^ 55 - 64)) (.jmpi 0 2) (RegSet.ss 2 2) none2 = true ∧
    who (setSD warp 2 (2 ^ 55 - 64)) (fun c => c.p.getSD 2 = 2 ^ 55 - 64) = true := by
  decide +kernel

theorem test_branches_fault : stands warp (.bra 0 (-2)) none2 none2 = true ∧ who warp (fun c => decide (target c (-2) < 0)) = true ∧
    (let s := atPc warp (2 ^ 55 - 64)
     stands s (.bra 0 1) none2 none2 = true ∧ who s (fun c => target c 1 = 2 ^ 55) = true) ∧
    stands (withRets warp 4) (.call 0 1) none2 none2 = true ∧ depth (withRets warp 4) 4 = true ∧
    stands (withRets mcc 8) (.call 0 1) none2 none2 = true ∧ depth (withRets mcc 8) 8 = true ∧
    allStand warp [(.ret 0, none2, none2), (.lret 0, none2, none2)] = true ∧ depth warp 0 = true ∧
    stands (setSD warp 2 (2 ^ 55)) (.jmpi 0 2) (RegSet.ss 2 2) none2 = true ∧
    who (setSD warp 2 (2 ^ 55)) (fun c => c.p.getSD 2 = 2 ^ 55) = true ∧
    stands (setSD warp 2 1) (.jmpi 0 2) (RegSet.ss 2 2) none2 = true ∧ who (setSD warp 2 1) (fun c => c.p.getSD 2 = 1) = true := by
  decide +kernel

theorem test_returns_have_addresses : allStand (withRets warp 1) [(.ret 0, none2, none2), (.lret 1, none2, none2)] = true ∧
    depth (withRets warp 1) 1 = true ∧ who (withRets warp 1) (fun c => c.f.lanes != 0) = true := by
  decide +kernel

theorem test_lane_branches_split : allStand warp [(.brl 0 0 1, none2, none2), (.lcall 1 0 (-1), none2, none2)] = true ∧
    who warp (fun c => c.effLanes 0 != 0 && decide (target c (-1) = 0)) = true ∧ depth warp 0 = true ∧
    (let s := onParty warp fun p => p.setP 1 0xFF fun _ => true
     stands s (.brl 0 1 1) none2 none2 1 = true ∧ stands s (.lcall 0 1 1) none2 none2 1 = true ∧
       who s (fun c => c.effLanes 1 == 0xFF && (c.f.lanes &&& ~~~c.effLanes 1) != 0) = true) := by
  decide +kernel

/-- k join records, the first at the fragment's PC with its lanes. -/
def withJoins (s : State) (k : Nat) : State :=
  onParty s fun p => { p with joins := (List.range k).map fun i => { id := i, pc := 64, mask := 0xFFFFFFFF, arrived := 0 } }

theorem test_joins_have_records : stands (withJoins warp 7) (.jset 0 0 1) none2 none2 = true ∧
    who (withJoins warp 7) (fun c => c.p.joins.length == 7 && c.effLanes 0 != 0) = true ∧
    stands (withJoins warp 8) (.jset 0 0 1) none2 none2 = true ∧ who (withJoins warp 8) (fun c => c.p.joins.length == 8) = true ∧
    stands warp (.join 0) none2 none2 = true ∧
    who warp (fun c => !resultsOut warp c.key c.who c.f && c.p.joins.isEmpty) = true ∧
    stands (withJoins warp 1) (.join 0) none2 none2 = true ∧
    who (withJoins warp 1) (fun c => !resultsOut (withJoins warp 1) c.key c.who c.f && c.p.joins.all (fun r =>
      r.pc == c.f.pc && r.mask == c.f.lanes && c.p.frags.all fun f => f.wait != .join r.id) && c.f.lanes != 0 &&
        (c.f.lanes &&& ~~~c.p.live) == 0) = true := by
  decide +kernel

theorem test_exits_end : stands warp (.exit 0) none2 none2 = true ∧ who warp (fun c => (c.p.live &&& ~~~c.f.lanes) == 0) = true ∧
    stands mcc (.exit 0) none2 none2 = true ∧ who mcc (fun c => c.b.flights.isEmpty) = true := by
  decide +kernel

theorem test_yields_and_pauses : allStand warp [(.yield 0, none2, none2), (.yieldLy 0, none2, none2), (.pause 0 1, none2, none2),
      (.pause 1 0x3FF, none2, none2), (.pause 0 0, none2, none2)] = true ∧
    who warp (fun c => !c.b.yr && !c.b.ly && !resultsOut warp c.key c.who c.f) = true ∧
    (let s := onBlock warp fun b => { b with yr := true }
     stands s (.yield 0) none2 none2 = true ∧ who s (fun c => c.b.yr) = true) ∧
    (let s := onBlock warp fun b => { b with ly := true }
     stands s (.yieldLy 0) none2 none2 = true ∧ who s (fun c => !c.b.yr && c.b.ly) = true) := by
  decide +kernel

theorem test_register_pool_moves : allStand warp [(.reggive 0 6, none2, none2), (.reggive 0 7, none2, none2), (.regtake 0 1, none2, none2)]
      = true ∧
    who warp (fun c => c.f.lanes == c.p.live && c.p.win == 64 && !(RegSet.vs 16 48).meets c.f.pend && c.b.takers.isEmpty) = true ∧
    (let s := onBlock (onParty warp fun p => { p with win := 56 }) fun b => { b with pool := 1 }
     stands s (.regtake 0 1) none2 none2 = true ∧
       who s (fun c => c.p.win == 56 && c.b.pool == 1 && c.f.lanes == c.p.live && !resultsOut s c.key c.who c.f &&
         c.p.frags.all fun f => f.wait != .regtake) = true) := by
  decide +kernel

/-! ## Memory words -/

/-- The pair vd2 holds an address in every lane. -/
def atV (s : State) (a : Word) : State := setV s 2 fun _ => a
/-- An access of every lane through vd2 passes. -/
def passes (s : State) (sp : Space) (a : DWord) (n : Nat) (r w posted : Bool) (pa : Option Nat) : Bool :=
  who s fun c => (addrCheck c sp a n).isNone &&
    (if sp = .scratch ∨ (posted = true ∧ s.late = true ∧ sp = .global) then pa.isNone
     else (tlbFind s.ms.tlb c.cl c.key.part c.l.lr.asid (if sp = .const then constVa c a else a.toNat)).any fun e =>
       pa.any fun x => (!r || decide (eccRead s c.key.part x n = (s, false))) &&
         (match useEntry e (if sp = .const then constVa c a else a.toNat) r w false with
          | .ok y => decide (x = y)
          | _ => false))
/-- No watchpoint is in force. -/
def calm (s : State) : Bool := who s fun c => !dbgArm s c.key.part && !dbgWtrap s c.key.part

/-- The check is Passes. -/
theorem passes_sound {s : State} {sp : Space} {a : DWord} {n : Nat} {r w posted : Bool} {pa : Option Nat}
    (h : passes s sp a n r w posted pa = true) : ∃ c, ctx? s = some c ∧ Passes s c sp a n r w posted pa := by
  unfold passes who at h
  cases hc : ctx? s with
  | none => simp [hc] at h
  | some c =>
    refine ⟨c, rfl, ?_⟩
    simp only [hc, Option.any_some, Bool.and_eq_true, Option.isNone_iff_eq_none] at h
    refine ⟨h.1, ?_⟩
    have h2 := h.2
    split
    · rename_i hif
      rw [if_pos hif] at h2
      simpa using h2
    · rename_i hif
      rw [if_neg hif] at h2
      cases ht : tlbFind s.ms.tlb c.cl c.key.part c.l.lr.asid (if sp = .const then constVa c a else a.toNat) with
      | none => simp [ht] at h2
      | some e =>
        cases pa with
        | none => simp [ht] at h2
        | some x =>
          simp only [ht, Option.any_some, Bool.and_eq_true, Bool.or_eq_true, Bool.not_eq_true', decide_eq_true_eq] at h2
          refine ⟨e, x, rfl, fun hr => by simpa [hr] using h2.1, rfl, ?_⟩
          have h3 := h2.2
          split at h3
          · rename_i y hy
            rw [hy, of_decide_eq_true h3]
          · exact absurd h3 (by simp)

theorem test_loads_and_stores_pass : allStand (atV warp 0xFFF0)
    [(.ldg 0 0 4 2 15 0 6, RegSet.vs 2 2, RegSet.vs 4 4), (.ldg 0 0 4 2 0 0 0, RegSet.vs 2 2, vd), (.lds 0 0 4 2 0 6, RegSet.vs 2 2, RegSet.vs 4 4),
     (.ldc 0 0 4 2 0 0 5, RegSet.vs 2 2, RegSet.vs 4 2), (.stg 0 0 4 2 0 0 6, (RegSet.vs 2 2).or (RegSet.vs 4 4), none2),
     (.sts 0 0 4 2 0 4, (RegSet.vs 2 2).or vd, none2), (.pfg 0 0 2 0, RegSet.vs 2 2, none2)] = true ∧
    calm (atV warp 0xFFF0) = true ∧
    passes warp .global 0xFFF0 16 true false false (some 0xFFF0) = true ∧ passes warp .scratch 0x7FFF0 16 true false false none = true ∧
    passes warp .const 0xFFF8 8 true false false (some 0xFFF8) = true ∧ passes warp .global 0xFFF0 16 false true true (some 0xFFF0) = true ∧
    stands (atV warp 0xFF80) (.zline 0 0 2 0 0) (RegSet.vs 2 2) none2 = true ∧
    passes warp .global 0xFF80 128 false true true (some 0xFF80) = true ∧
    passes { warp with late := true } .global 0xFFFFFFFFFFFF0 16 false true true none = true ∧
    who warp (fun c => !scrPoisoned c.b 0x7FFF0 16 && !c.b.overlapsBar 0xFFF0 4) = true := by
  decide +kernel

theorem test_atomics_pass : allStand (atV warp 0xFFF8)
    [(.atom 0 0 4 2 0 10, (RegSet.vs 2 2).or (RegSet.vs 4 2), RegSet.vs 4 2), (.atom 0 0 4 2 0 0, (RegSet.vs 2 2).or vd, vd),
     (.acas 0 0 4 2 0 1 0, (RegSet.vs 2 2).or (RegSet.vs 4 2), vd.or (RegSet.pr 1)),
     (.acas 0 0 4 2 0 1 1, (RegSet.vs 2 2).or (RegSet.vs 4 4), (RegSet.vs 4 2).or (RegSet.pr 1)),
     (.red 0 0 4 2 0 0, (RegSet.vs 2 2).or vd, none2), (.redm 0 0 4 2 0, (RegSet.vs 2 2).or vd, none2)] = true ∧
    calm (atV warp 0xFFF8) = true ∧ passes warp .global 0xFFF8 8 true true false (some 0xFFF8) = true ∧
    passes warp .global 0xFFF8 4 true true false (some 0xFFF8) = true ∧
    who warp (fun c => (addrCheck c .global 0xFFF8 4).isNone) = true ∧
    (let s := setSD warp 2 0xFFF8
     allStand s [(.sld 0 4 2 0 0 5, RegSet.ss 2 2, RegSet.ss 4 2), (.sst 0 4 2 0 0 5, (RegSet.ss 2 2).or (RegSet.ss 4 2), none2),
       (.satom 0 4 2 0 0 7, (RegSet.ss 2 2).or sd, sd)] = true ∧ who s (fun c => c.p.getSD 2 == 0xFFF8) = true) := by
  decide +kernel

/-- A trap record of no lanes. -/
def trapRec : TrapRec := { lanes := 0, pend := RegSet.none, prg := 0, prgpc := 0, prgx := 0, ret := 0, nxt := 0, code := 1 }
/-- The launch has handlers, at address 256. -/
def handled (s : State) : State := onLaunch s fun l => { l with lr := { l.lr with whnd := 256, mhnd := 256 } }
/-- The trap record of the party is in use. -/
def trapped (s : State) : State := onParty s fun p => { p with trap := some trapRec }

theorem test_address_checks : (16 : Nat) ∣ 0x7FFF0 ∧ ¬16 ∣ 0x7FFF1 ∧ who warp (fun c => c.b.scrSize == 0x80000 && c.l.lr.csize == 65536) = true ∧
    (let s := trapped (handled (setV warp 2 fun L => BitVec.ofNat 32 L))
     let off : Lanes := lanesOf fun L => L % 4 != 0
     stands s (.lds 0 0 4 2 0 4) (RegSet.vs 2 2) vd = true ∧
       who s (fun c => c.p.trap.isSome && !c.f.handler && (c.effLanes 0 &&& off) != 0 && (c.f.lanes &&& ~~~off) != 0 &&
         handlerOf c.l c.who != 0 && lanes fun L => (c.p.getVD 2 L).toNat == (if L < 32 then L else (c.p.getVD 2 L).toNat) &&
           !scrPoisoned c.b L 4) = true) := by
  decide +kernel

/-! ## Barriers, waits and fences -/

/-- A barrier word: generation, arrivals, expected arrivals. -/
def barWord (gen arr exp : Nat) : Word := BitVec.ofNat 32 (gen * 2 ^ 24 + arr * 2 ^ 16 + exp)
/-- The last scratchpad word is a live barrier with the word w, and s2 of the party holds its address. -/
def withBar (s : State) (w : Word) (arrived : List Who := []) : State :=
  onBlock (setS s 2 0x7FFFC) fun b =>
    { b with scr := memWrite b.scr 0x7FFFC (wordBytes w), bars := [{ addr := 0x7FFFC, arrived := arrived, waiters := [] }] }
/-- The party is one fragment of all its lanes, with nothing outstanding. -/
def alone (s : State) : Bool :=
  who s fun c => decide (c.p.frags = [c.f]) && c.f.wait == .run && c.f.lanes == c.p.live && c.p.arrive.isNone &&
    streamEmpty s c.key c.who c.f.lanes (fun _ => true) && !resultsOut s c.key c.who c.f
/-- The barrier word of s2 + 0, and whether it is live. -/
def barAt (s : State) (w : Word) (live : Bool) : Bool :=
  who s fun c => (c.p.getS 2).toNat == 0x7FFFC && decide (0x7FFFC + 4 ≤ c.b.scrSize) && memWord c.b.scr 0x7FFFC == w &&
    (c.b.bar? 0x7FFFC).isSome == live

theorem test_barrier_words_stand :
    (let s := setS (setS warp 2 0x7FFFC) 4 63
     stands s (.barinit 0 4 2 0) (sa.or sd) none2 = true ∧ barAt s 0 false = true ∧ who s (fun c => c.p.getS 4 == 63) = true ∧
       stands s (.bar 0 2 0) sa none2 = true) ∧
    (let s := setS (setS warp 2 0x7FFFC) 4 64
     stands s (.barinit 0 4 2 0) (sa.or sd) none2 = true ∧ who s (fun c => c.p.getS 4 == 64) = true) ∧
    (let s := withBar warp (barWord 255 0 3)
     stands s (.barinit 0 4 2 0) (sa.or sd) none2 = true ∧ barAt s (barWord 255 0 3) true = true ∧
       barArr (barWord 255 0 3) = 0 ∧ stands s (.barw 0 4 2 0) (sa.or sd) none2 = true ∧ barGen (barWord 255 0 3) ≠ 0) ∧
    (let s := withBar warp (barWord 0 1 3) [.mcc]
     allStand s [(.bara 0 4 2 0, sa, sd), (.bar 0 2 0, sa, none2), (.barw 0 4 2 0, sa.or sd, none2)] = true ∧
       barAt s (barWord 0 1 3) true = true ∧ alone s = true ∧ barArr (barWord 0 1 3) + 1 < barExp (barWord 0 1 3) ∧
       barGen (barWord 0 1 3) = 0) := by
  decide +kernel

/-- The block has a second warp that waits at the barrier, in generation 5. -/
def waiting (s : State) : State :=
  onBlock s fun b =>
    { b with warps := b.warps ++ b.warps.map fun p => { p with frags := p.frags.map fun f => { f with wait := .bar 0x7FFFC 5 } },
             bars := b.bars.map fun y => { y with waiters := [{ key := key, who := .warp 1, lanes := 0xFFFFFFFF, gen := 5 }] } }

theorem test_barrier_opens :
    (let s := waiting (withBar warp (barWord 5 1 2) [.warp 1])
     stands s (.bar 0 2 0) sa none2 = true ∧ barAt s (barWord 5 1 2) true = true ∧ alone s = true ∧
       barArr (barWord 5 1 2) + 1 = barExp (barWord 5 1 2) ∧
       who s (fun c => c.f.lanes != 0 && c.b.cslrNew.isNone && cslrWave c.b.cslr == 0 &&
         (c.b.party? (.warp 1)).any fun p => p.frags.any fun f => f.wait.atBarrier && (f.lanes &&& 0xFFFFFFFF) != 0) = true) ∧
    stands warp (.gbar 0 3) none2 none2 = true ∧ alone warp = true ∧
    who warp (fun c => decide (3 < (warp.gang c.l c.key).bars.length) && decide (1 < gangNeed warp c.l c.key)) = true := by
  decide +kernel

/-- A load of the fragment is queued in stream 0. -/
def queued (s : State) : State :=
  match ctx? s with
  | some c => withAccesses s [accessOf s c c.f.lanes 0 .global 0 (some 0) (.load 4 false 4)]
  | none => s

theorem test_waits_and_fences :
    stands warp (.waitcmp 0 4 2 6 5) ((RegSet.ss 2 2).or (RegSet.ss 6 1)) sd = true ∧
    who warp (fun c => !resultsOut warp c.key c.who c.f && c.p.getSD 2 == 0) = true ∧
    passes warp .global 0 4 true false false (some 0) = true ∧
    allStand warp [(.fence 0 1 0 1 0, none2, none2), (.fence 0 2 0 1 0, none2, none2), (.fence 0 2 4 0 15, none2, none2),
      (.fence 0 3 0 1 0, none2, none2), (.xfence 0 0 0 21, none2, none2), (.xfence 0 4 20 15, none2, none2)] = true ∧
    who warp (fun c => streamsDone c warp fun _ => true) = true ∧ warp.ms.exports = [] ∧ warp.ms.redm = [] ∧ warp.ms.paths = [] ∧
    (let s := queued warp
     allStand s [(.fence 0 2 0 1 0, none2, none2), (.fence 0 3 4 0 0, none2, none2), (.xfence 0 0 0 21, none2, none2)] = true ∧
       who s (fun c => !streamsDone c s fun n => n == 0) = true) ∧
    (let s : State := warp.modMs fun ms => { ms with exports :=
       [.mark { serial := 0, key := key, who := .mcc, lanes := 1, streams := 1, each := false, paths := [], obs := [] }] }
     stands s (.fence 0 2 4 1 0) none2 none2 = true ∧ who s (fun c => streamsDone c s fun _ => true) = true ∧ s.ms.exports ≠ []) := by
  decide +kernel

/-! ## The matrix unit -/

/-- Change tile t of the block. -/
def onTile (s : State) (t : Nat) (f : Tile → Tile) : State := onBlock s fun b => { b with tiles := lmod b.tiles t f }
/-- A tile in a state, of one row and element, its one word counted. -/
def tileIn (s : State) (t : Nat) (st : TileState) : State := onTile s t fun y => { y with st := st, w3 := 1 }
/-- Tile t is in this state. -/
def tileIs (s : State) (t : Nat) (st : TileState) : Bool := who s fun c => (c.b.tiles.getD t Tile.start).st == st

theorem test_tile_words_stand :
    (let s := setS mcc 7 1
     stands s (.tcfg 0 7 4) (RegSet.ss 4 4) none2 = true ∧ tileIs s 7 .empty = true ∧ shapeOk 0 0 1 = true) ∧
    stands mcc (.tcfg 0 7 4) (RegSet.ss 4 4) none2 = true ∧ shapeOk 0 0 0 = false ∧ shapeOk 0 0 4097 = false ∧
    ([TileState.empty, .full, .busy, .filling, .loading].all fun st =>
      stands (tileIn mcc 7 st) (.trel 0 7) none2 none2 && tileIs (tileIn mcc 7 st) 7 st) = true ∧
    stands (tileIn mcc 7 .busy) (.tcfg 0 7 4) (RegSet.ss 4 4) none2 = true ∧
    ([32, 64, 31].all fun n =>
      let s := setV (onTile warp 7 fun y => { y with w3 := BitVec.ofNat 32 n }) 6 fun L => BitVec.ofNat 32 (4064 + L % 32)
      stands s (.tfill 0 0 7 4 6 0 0) (vd.or (RegSet.vs 6 1)) none2 && tileIs s 7 .empty &&
        who s fun c => c.b.mcc.isSome && c.effLanes 0 != 0 && c.b.tiles.length == 8 &&
          (laneList (c.effLanes 0)).length == 32 && (laneList (c.effLanes 0)).all fun L => decide ((c.p.getV 6 L).toNat + 1 ≤ 4096))
      = true := by
  decide +kernel

/-- The block holds the accumulators below k. -/
def holding (s : State) (k : Nat) : State :=
  onBlock s fun b => { b with accs := (List.range k).map fun i => (i, { data := [], pois := [] }) }
/-- The launch may hold k accumulators. -/
def limit (s : State) (k : Nat) : State := onLaunch s fun l => { l with lr := { l.lr with acc := k } }
/-- The accumulators below k, and no others, are held. -/
def holds? (s : State) (k : Nat) : Bool :=
  who s fun c => c.b.mcc.isSome && c.b.accs.length == k && !c.b.held k && (List.range k).all fun i => c.b.held i && !c.b.outstanding i

theorem test_accumulator_words_stand :
    (let s := holding mcc 127
     allStand s [(.aallocN 0 4 127, none2, sd), (.aalloc 0 4, none2, sd), (.aallocN 0 4 0, none2, sd)] = true ∧ holds? s 127 = true) ∧
    (let s := limit (holding mcc 1) 1
     allStand s [(.aallocN 0 4 1, none2, sd), (.aalloc 0 4, none2, sd)] = true ∧ holds? s 1 = true ∧
       who s (fun c => c.l.lr.acc == 1) = true) ∧
    (let s := setS (holding mcc 128) 2 127
     allStand s [(.afree 0 2, sa, none2), (.azero 0 127, none2, none2), (.ascale 0 127 2, sa, none2), (.mred 0 127 127 2 0, none2, none2),
       (.msync 0, none2, none2)] = true ∧ who s (fun c => c.b.held 127 && !c.b.outstanding 127 && c.p.getS 2 == 127 &&
         c.b.flights.isEmpty && (c.b.acc 127).pois.isEmpty) = true) ∧
    stands mcc (.azero 0 0) none2 none2 = true ∧ who mcc (fun c => !c.b.held 0) = true ∧
    (let s := onBlock (holding mcc 1) fun b => { b with flights := [.zero 0] }
     stands s (.msync 0) none2 none2 = true ∧ who s (fun c => !c.b.flights.isEmpty) = true) ∧
    (let s := setV (holding warp 1) 2 fun _ => 4092
     stands s (.adrain 0 0 4 2 2 2) (va.or sa) (RegSet.vs 4 4) = true ∧
       who s (fun c => c.b.mcc.isSome && c.p.getS 2 == 0 && c.b.held 0 && !c.b.outstanding 0 && (c.b.acc 0).pois.isEmpty &&
         (laneList (c.effLanes 0)).all fun L => c.p.getV 2 L == 4092) = true) ∧
    (let s := onBlock (holding warp 1) fun b => { b with flights := [.zero 0] }
     stands s (.adrain 0 0 4 2 2 2) (va.or sa) (RegSet.vs 4 4) = true ∧ who s (fun c => c.b.outstanding 0) = true) := by
  decide +kernel

/-- The six words of a tile transfer of 16 rows of 1024 bytes. -/
def rows : List Word := [0, 0, 0, 1024, 16, 0]
/-- s4–s9 hold them. -/
def withRows (s : State) (n : Word) : State := setS (setS s 7 n) 8 16

theorem test_tile_macros_and_products_stand :
    (let s := withRows mcc 1024
     stands s (.tld 0 7 4) (RegSet.ss 4 6) none2 = true ∧ tileIs s 7 .empty = true ∧ calm s = true ∧ rowsOk rows = true ∧
       who s (fun c => decide ((List.range 6).map (fun i => c.p.getS (4 + i)) = rows) && c.b.mmac.isEmpty && !c.b.halted &&
         !prgV c.f.prg) = true) ∧
    (let s := tileIn (withRows mcc 1024) 7 .full
     stands s (.tst 0 7 4) (RegSet.ss 4 6) none2 = true ∧ tileIs s 7 .full = true ∧ calm s = true) ∧
    stands (withRows mcc 1028) (.tld 0 7 4) (RegSet.ss 4 6) none2 = true ∧ rowsOk [0, 0, 0, 1028, 16, 0] = false ∧
    (let s := tileIn (tileIn (holding mcc 128) 7 .full) 0 .busy
     allStand s [(.mma 0 127 7 0 1 0 1 0 0, none2, none2), (.mma 0 127 7 7 1 0 1 0 1, none2, none2)] = true ∧
       who s (fun c =>
         let ta := c.b.tiles.getD 7 Tile.start
         let tb := c.b.tiles.getD 0 Tile.start
         c.b.held 127 && !ta.rel && !tb.rel && mmaShapes ta tb none && !prgV c.f.prg && c.b.mmac.isEmpty && !c.b.halted &&
           decide ((s.cluster c.cl).arrayAt ≤ (s.cluster c.cl).cyc) && c.b.tiles.length == 8) = true) ∧
    (let s := onLaunch (onTile (onTile (holding mcc 128) 7 fun y => { y with st := .full, w3 := 1, w0 := 0x10000000 }) 6 fun y =>
       { y with st := .full, w3 := 1, w0 := 0x10000000 }) fun l =>
         { l with lr := { l.lr with slots := List.replicate 8 (1 : DWord) } }
     stands s (.mmaq 0 127 7 6 1 1 0 0 0 0) none2 none2 = true ∧
       who s (fun c => mmaShapes (c.b.tiles.getD 7 Tile.start) (c.b.tiles.getD 6 Tile.start) (some (slotOf c.l 1))) = true) := by
  decide +kernel

/-! ## Engines -/

/-- Registers s8 and up hold the words of an operand block. -/
def withBlock (s : State) (l : List Word) : State := onParty s fun p => p.setSs 8 l
/-- A valid copy of one row of four bytes, on channel 7. -/
def cpaWords : List Word := [0, 0, 0, 4, 0, 0, 0, 7]
/-- The launch has group 0 bound to one rank. -/
def grouped (s : State) : State := onLaunch s fun l => { l with groups := [(0, 1, 0, 1, [])] }
/-- Sixteen operations stand on a channel of the cluster. -/
def full (s : State) (ch : Nat) : State := s.modCluster 0 fun c => { c with chq := (List.range 16).map fun i => (ch, i) }
/-- An operation of channel 7, sequence number 1, in a state. -/
def op (st : Tick) : EngOp :=
  { id := 9, key := key, who := .warp 0, lanes := 0xFFFFFFFF, pc := 64, ch := 7, seq := 1, f := 0, words := cpaWords, st := st,
    elem := 0, code := if st = .failed then 0x44 else 0, errElem := 0, charged := false, waiting := false, nth := 0, heldSeq := none,
    word := 0, doom := false, bundle := false }
/-- It stands first on its channel of the cluster. -/
def onChannel (s : State) (ch : Nat) : State := s.modCluster 0 fun c => { c with chq := [(ch, 9)] }
/-- Is a channel of a cluster steady, as Steady says? -/
def steady (s : State) (cl ch : Nat) : Bool :=
  (s.cluster cl).chBack.all (fun e => e.1 != ch) &&
    (s.cluster cl).chq.all fun e => e.1 != ch || (match s.op? e.2 with
      | some (_, o) => !o.doom
      | none => true)
/-- The block has it, with csq operations of the channel complete. -/
def withOp (s : State) (st : Tick) (csq : Nat) (latch : Option Nat) : State :=
  onBlock s fun b => { b with ops := [op st], chans := lmod b.chans 7 fun x => { x with isq := 1, csq := csq, latch := latch } }

theorem test_channel_operations_stand :
    (let s := withBlock warp cpaWords
     stands s (.cpa 0 4 8 0) (RegSet.ss 8 8) sd = true ∧ stands (full s 7) (.cpa 0 4 8 0) (RegSet.ss 8 8) sd = true ∧
       who s (fun c => cpaOk c.b cpaWords 0 && (c.p.getS 15).toNat % 8 == 7 && c.b.mcc.isSome &&
         decide ((List.range 8).map (fun k => c.p.getS (8 + k)) = cpaWords)) = true) ∧
    stands warp (.cpa 0 4 8 0) (RegSet.ss 8 8) sd = true ∧ who warp (fun c => !cpaOk c.b (List.replicate 8 0) 0) = true ∧
    (let s := withBlock (grouped warp) [0, 0, 0, 0, 1, 0x300, 0, 0]
     stands s (.clv 0 4 8 0) (RegSet.ss 8 8) sd = true ∧ stands (full s 11) (.clv 0 4 8 0) (RegSet.ss 8 8) sd = true ∧
       who s (fun c => groupOf c.l 0 == some (1, 0, 1, []) && clvOk [0, 0, 0, 0, 1, 0x300, 0, 0] 0 1 && c.key.blk == 0) = true) ∧
    stands warp (.clv 0 4 8 0) (RegSet.ss 8 8) sd = true ∧ who warp (fun c => (groupOf c.l 0).isNone) = true := by
  decide +kernel

theorem test_tickets_stand :
    (let s := setS warp 2 0x70000001
     let t : Word := 0x70000001
     let tkq : Instr := .tkq 0 4 2
     let tkw : Instr := .tkw 0 2
     stands s tkw sa none2 = true ∧ stands s tkq sa (RegSet.ss 4 3) = true ∧
       who s (fun c => c.b.badTicket t && !resultsOut s c.key c.who c.f) = true ∧
       (let r := withOp s .running 0 none
        stands r tkw sa none2 = true ∧ stands r tkq sa (RegSet.ss 4 3) = true ∧
          who r (fun c => !c.b.badTicket t && !c.b.complete t && decide (c.b.record? t = some (op .running))) = true) ∧
       (let r := withOp s .done 1 none
        stands r tkw sa none2 = true ∧ who r (fun c => !c.b.badTicket t && c.b.complete t && (c.b.chan 7).latch.isNone) = true) ∧
       (let r := withOp s .failed 1 (some 1)
        stands r tkw sa none2 = true ∧ who r (fun c => !c.b.badTicket t && c.b.complete t && (c.b.chan 7).latch == some 1 &&
          decide ((c.b.ops.filter fun x => x.ch = 7 && x.seq = 1) = [op .failed])) = true)) ∧
    stands warp (.tkq 0 4 2) sa (RegSet.ss 4 3) = true ∧ who warp (fun c => !c.b.badTicket 0 && (c.b.record? 0).isNone) = true ∧
    stands warp (.cpwp 0 4 7) none2 (RegSet.ss 4 2) = true := by
  decide +kernel

theorem test_gathers_and_selections_stand :
    (let s := withBlock warp [0, 0, 0, 0, 131072, 0]
     allStand s [(.gth 0 8, RegSet.ss 8 6, none2), (.sct 0 8, RegSet.ss 8 6, none2)] = true ∧ calm s = true ∧
       who s (fun c => gatOk c.b [0, 0, 0, 0, 131072, 0] && !prgV c.f.prg && !c.b.halted) = true) ∧
    stands warp (.gth 0 8) (RegSet.ss 8 6) none2 = true ∧ who warp (fun c => !gatOk c.b (List.replicate 6 0)) = true ∧
    (let s := withBlock warp [0, 0, 0, 0, 0, 0, 12, 0, 1]
     let w : List Word := [0, 0, 0, 0, 0, 0, 12, 0, 1, 0, 0, 0, 0, 0, 0, 0]
     let cl := s.modCluster 0 fun x => { x with selOwner := some { key := key, who := .mcc, lane := 0 } }
     allStand s [(.selq 0 4 8, RegSet.ss 8 16, RegSet.ss 4 4), (.selk 0 24 8, RegSet.ss 8 16, RegSet.ss 24 4)] = true ∧
       who s (fun c => selOk c.b w 0 4 8 && selOk c.b w 1 24 8 && (s.cluster c.cl).selOwner.isNone &&
         (s.cluster c.cl).selWait.isEmpty) = true ∧
       stands cl (.selq 0 4 8) (RegSet.ss 8 16) (RegSet.ss 4 4) = true ∧ who cl (fun c => (cl.cluster c.cl).selOwner.isSome) = true) ∧
    stands warp (.selk 0 24 8) (RegSet.ss 8 16) (RegSet.ss 24 4) = true ∧
    who warp (fun c => !selOk c.b (List.replicate 16 0) 1 24 8) = true := by
  decide +kernel

/-! ## Variant tables -/

/-- A call record. -/
def callRec (id : Nat) : CallRec :=
  { id := id, table := 0, idx := 0, bound := true, fallb := false, force := false, ret := 128, savT := 0, savE := 0, savQ := 0,
    elT := 0, elE := 0, elQ := 0, opt := 0, cyc0 := 0, em0 := 0, is0 := 0, fs := 0, tacc := 0, eacc := 0 }
/-- The party holds k call records; the last is on top of every lane. -/
def withCalls (s : State) (k : Nat) : State :=
  onParty s fun p =>
    { p with calls := (List.range k).map callRec, callIds := Vector.replicate 64 (if k = 0 then [] else [k - 1]) }
/-- Every lane's stack of records is this. -/
def stackIs (s : State) (l : List Nat) : Bool := who s fun c => lanes fun L => decide (vget c.p.callIds L [] = l)
/-- The table instructions, with what they read and write. -/
def tableWords : List (Instr × RegSet × RegSet) :=
  [(.vcall 0 4 2 15, RegSet.ss 2 2, sd), (.vforce 0 4 2 0, (RegSet.ss 2 2).or sd, sd), (.vtag 0 4 2 6, (RegSet.ss 2 2).or (RegSet.ss 6 1), RegSet.ss 4 4)]

theorem test_table_words_stand :
    (let s := setSD (onParty warp fun p => { p with calls := (List.range 7).map callRec }) 2 0xFFC0
     allStand s tableWords = true ∧ stackIs s [] = true ∧ passes s .global 0xFFC0 64 true false false (some 0xFFC0) = true ∧
       who s (fun c => (c.p.calls.all fun r => r.id != 7) && !c.p.reserved.contains 7 && c.f.lanes != 0 &&
         ((List.range 7).all fun k => c.p.calls.any fun r => r.id == k)) = true) ∧
    (let s := setSD warp 2 32
     allStand s tableWords = true ∧ who s (fun c => (c.p.getSD 2).toNat % 64 != 0 && c.p.topsAgree c.f.lanes && c.p.calls.isEmpty &&
       c.p.reserved.isEmpty) = true) ∧
    (let s := withCalls warp 8
     allStand s tableWords = true ∧ who s (fun c => (List.range 8).all fun k => c.p.calls.any fun r => r.id == k) = true) := by
  decide +kernel

theorem test_select_has_tables :
    (judge [1] [] 0).1 = 0 ∧ tabCount [1] = 1 ∧ tabCount [0] = 0 ∧ tabFlag [0] 1 = false ∧
      (select [1] [([], 0)] { t := 0xFFFFFFFF, e := 0xFFFFFFFF, q := 0xFFFF } 0).isSome = true ∧
      select [0] [] { t := 0, e := 0, q := 0 } 0 = none := by
  decide +kernel

theorem test_returns_and_meters_stand :
    allStand warp [(.vret 0, none2, none2), (.vretQ 0 2, sa, none2)] = true ∧ stackIs warp [] = true ∧
    who warp (fun c => c.f.lanes != 0 && (c.f.lanes &&& ~~~c.p.live) == 0) = true ∧
    (let s := withCalls warp 8
     allStand s [(.vret 0, none2, none2), (.vretQ 1 2, sa, none2), (.vmeter 0 4 2, sa, RegSet.ss 4 5)] = true ∧ stackIs s [7] = true ∧
       who s (fun c => decide (c.p.calls.find? (fun x => x.id = 7) = some (callRec 7)) && c.f.lanes == c.p.live && c.p.getS 2 == 0 &&
         s.launches.all fun l => !l.recording && !l.replaying) = true ∧
       stands (setS s 2 1) (.vmeter 0 4 2) sa (RegSet.ss 4 5) = true) ∧
    allStand warp [(.vlim 0 2 6 0, sab, none2), (.vlim 0 2 6 1, sab, none2), (.vlim 0 2 6 2, sab, none2),
      (.vmeter 0 4 2, sa, RegSet.ss 4 5)] = true := by
  decide +kernel

/-! ## Traps, faults of words, system words -/

/-- The fragment runs in the handler, its party's trap record holding its lanes. -/
def inHandler (s : State) : State :=
  onParty s fun p =>
    { p with trap := some { trapRec with lanes := 0xFFFFFFFF }, frags := p.frags.map fun f => { f with handler := true } }
/-- Debugging is armed. -/
def armed (s : State) : State := s.modPart 0 fun q => { q with dbgctl := 0x80000000 }

theorem test_traps_stand :
    (let s := handled warp
     allStand s [(.trap 0 0xFFFF, none2, none2), (.brk 0 1, none2, none2)] = true ∧
       who s (fun c => handlerOf c.l c.who != 0 && !c.f.handler && c.p.trap.isNone && !dbgArm s c.key.part && c.p.frags.length == 1)
         = true) ∧
    (let s := inHandler (handled warp)
     allStand s [(.eret 0 1 0, none2, none2), (.eret 1 0 1, none2, none2), (.trap 0 7, none2, none2)] = true ∧
       who s (fun c => c.p.trap.isSome && c.f.handler && c.f.lanes == (0xFFFFFFFF &&& ~~~c.p.exited) && c.b.mmac.isEmpty &&
         c.f.wait == .run && !resultsOut s c.key c.who c.f && c.p.frags.length == 1) = true) ∧
    stands warp (.eret 0 0 0) none2 none2 = true ∧ stands (trapped warp) (.eret 0 0 0) none2 none2 = true ∧
    who (trapped warp) (fun c => c.f.lanes != 0) = true ∧ stands (armed warp) (.brk 0 1) none2 none2 = true ∧
    dbgArm (armed warp) 0 = true := by
  decide +kernel

theorem test_faults_of_a_word_have_states : who mcc (fun c => c.who == .mcc) = true ∧
    who (onParty warp fun p => { p with win := 4 }) (fun c => outsideWindow c.p (vab.or vd)) = true ∧
    who (onFrag warp fun f => { f with pend := vd }) (fun c => !outsideWindow c.p (vab.or vd) && (vab.or vd).meets c.f.pend) = true ∧
    (Instr.mbox 0 4).wf = true ∧ who (onLaunch warp fun l => { l with lr := { l.lr with flags := 0 } }) (fun c => !c.l.lr.flags.getLsbD 4)
      = true := by
  decide +kernel

theorem test_poison_has_states :
    (let s := onParty (trapped (handled warp)) fun p => { p with poisV := vset p.poisV 2 0xFF, poisS := sMask 2 1 }
     who s (fun c => (Instr.brev 0 0 4 2).wf && runsHere (.brev 0 0 4 2) c.who && !outsideWindow c.p (va.or vd) &&
       !(va.or vd).meets c.f.pend && handlerOf c.l c.who != 0 && c.p.trap.isSome && !c.f.handler &&
       (vget c.p.poisV 2 0 &&& c.effLanes 0) != 0 && (c.f.lanes &&& ~~~vget c.p.poisV 2 0) != 0 &&
       runsHere (.smov 0 4 2) c.who && !(sa.or sd).meets c.f.pend && c.p.poisS.getLsbD 2 && c.f.lanes != 0) = true) := by
  decide +kernel

/-- Tracing is enabled for the launch, on a ring of n + 1 records. -/
def traced (s : State) (n : Word) : State :=
  (onLaunch s fun l => { l with lr := { l.lr with flags := 0x32 } }).modPart 0 fun q => { q with trctl := 0x80000000 ||| n }

theorem test_trace_and_calls_stand : stands warp (.trace 0 2 511) (RegSet.ss 2 2) none2 = true ∧
    stands (traced warp 1) (.trace 0 2 511) (RegSet.ss 2 2) none2 = true ∧ stands (traced warp 0) (.trace 0 2 0) (RegSet.ss 2 2) none2 = true ∧
    who (traced warp 0) (fun c => c.l.lr.flags.getLsbD 1 && ((traced warp 0).part 0).trctl.getLsbD 31) = true ∧
    stands warp (.mbox 0 112) (RegSet.ss 112 16) none2 = true ∧ stands warp (.sysc 0 120 511) (RegSet.ss 120 8) (RegSet.ss 120 4) = true ∧
    who warp (fun c => !resultsOut warp c.key c.who c.f && streamsDone c warp (fun _ => true) && c.l.lr.flags.getLsbD 4 &&
      c.l.lr.flags.getLsbD 5) = true ∧ warp.ms.exports = [] := by
  decide +kernel

/-! ## Prefixes -/

/-- The word behind the PC is w. -/
def behind (s : State) (w : Nat) : State := s.modMs fun ms => { ms with mem := memWrite ms.mem 68 (leBytes 4 w) }
/-- Is w the word at a PC, read from memory? -/
def fetches (s : State) (c : Ctx) (pc : Addr) (w : Nat) : Bool :=
  s.ms.icache.isEmpty && (tlbFind s.ms.tlb c.cl c.key.part c.l.lr.asid pc.toNat).any fun e =>
    match useEntry e pc.toNat false false true with
    | .ok pa => decide (eccRead s c.key.part pa 4 = (s, false)) && w == leNat (memRead s.ms.mem pa 4)
    | _ => false
/-- The state once the instruction cache holds it. -/
def cached (s : State) (c : Ctx) (pc : Addr) (w : Nat) : State :=
  s.modMs fun ms => { ms with icache := ms.icache ++
    [{ cluster := c.cl, asid := c.l.lr.asid, part := c.key.part, va := pc.toNat, word := BitVec.ofNat 32 w }] }
/-- The check is Fetches. -/
theorem fetches_sound {s : State} {c : Ctx} {pc : Addr} {w : Nat} (h : fetches s c pc w = true) :
    Fetches s c pc w (cached s c pc w) := by
  unfold fetches at h
  simp only [Bool.and_eq_true, List.isEmpty_iff] at h
  obtain ⟨hi, ht⟩ := h
  cases hf : tlbFind s.ms.tlb c.cl c.key.part c.l.lr.asid pc.toNat with
  | none => simp [hf] at ht
  | some e =>
    simp only [hf, Option.any_some] at ht
    split at ht
    · rename_i pa hu
      simp only [Bool.and_eq_true, decide_eq_true_eq, beq_iff_eq] at ht
      exact ⟨e, pa, hf, hu, .inr ⟨by simp [hi], ht.1, ht.2, rfl⟩⟩
    · exact absurd ht (by simp)
/-- It is read behind the PC. -/
def followed (s : State) (w : Nat) : Bool := who s fun c => fetches s c (c.f.pc + 4) w

theorem test_prefixes_stand :
    followed (behind warp 0x03040800) 0x03040800 = true ∧ decodeTableWord 32 0x03040800 = some (.iaddImm 0 0 4 2 0) ∧
    limmOk 0x03040800 = true ∧ stands (behind warp 0x03040800) (.iaddImm 0 0 4 2 0) va vd = true ∧
    followed (behind warp 0x01040800) 0x01040800 = true ∧ decodeTableWord 32 0x01040800 = some (.iadd 0 0 4 2 0 0) ∧
    limmOk 0x01040800 = true ∧ limmOk 0 = false ∧ followed warp 0 = true ∧
    (let w := 0x01040860
     let s := behind warp w
     followed s w = true ∧ decodeTableWord 32 w = some (.iadd 0 0 4 2 6 0) ∧ repOk w [true, true, true, false] 58 1 = true ∧
       stands s (.iadd 0 0 4 2 6 0) vab vd = true ∧ calm s = true ∧ who s (fun c => !prgV c.f.prg) = true ∧
       stepWord w [true, true, true, false] 0 = w ∧ repOk w [true, true, true, false] 64 16 = false ∧
       (let r := onFrag s fun f => { f with prg := mkPrg 7 0 57, prgpc := 64 }
        let j : Instr := .iadd 0 0 61 59 63 0
        decodeTableWord 32 (stepWord w [true, true, true, false] 57) = some j ∧
          stands r j (l3Reads 59 63 0) (RegSet.vs 61 1) = true)) := by
  decide +kernel

theorem test_adds_have_prefixes : (∃ w, encode? (.sadd 0 4 2 0) = some w ∧ limmOk w = true ∧ followed (behind warp w) w = true ∧
    stands (behind warp w) (.sadd 0 4 2 0) sa sd = true) := by
  exact ⟨_, rfl, by decide +kernel, by decide +kernel, by decide +kernel⟩

/-! ## Lantern cores -/

/-- The hub's first page is mapped. -/
def hubMapped (s : State) : State :=
  s.modMs fun ms => { ms with tlb := { probeEntry with holder := 260 } :: ms.tlb }
/-- The state after an instruction. -/
def after (i : Instr) (s : State) : State :=
  match exec i s with
  | .next t => t
  | _ => s
/-- Bytes of HBM. -/
def poke (s : State) (a : Nat) (b : List Byte) : State := s.modMs fun ms => { ms with mem := memWrite ms.mem a b }
/-- Does a read of the hub pass, and what does it give? -/
def reads (s : State) (p va n : Nat) : Option Nat :=
  match hubRead s p (s.part p).ringAsid va n with
  | (_, .ok b) => some (leNat b)
  | _ => none
/-- Queue 0 of partition 0, enabled, with a ring of 256 units at 0x1000 whose data are these packets. -/
def ring (s : State) (data : List Byte) : State :=
  poke ((hubMapped s).setQueue 0 { Queue.reset with qring := 0x1008, qsched := 0x80000000 }) 0x1000
    (leBytes 8 data.length ++ List.replicate 56 0 ++ data)
/-- A packet of a type, a length, and its body. -/
def packet (ty len : Nat) (body : List Byte) : List Byte := 0 :: leBytes 2 (len / 16) ++ [BitVec.ofNat 8 ty] ++ List.replicate 12 0 ++ body
/-- What stands at the head of queue 0: 0 nothing, a fault's code, or a whole packet of a type. -/
def headKind (s : State) : Nat × Nat :=
  match (readHead s 0 0).2 with
  | .empty => (0, 0)
  | .bad c _ => (1, c)
  | .whole _ pk => (2, packetType pk)
/-- Lantern core 0 has the turn, with x1 and x2. -/
def lantern0 (s : State) (a b : DWord) : State :=
  { s with turn := .lantern 0, lanterns := [(0, ((HubCore.reset.set 1 a).set 2 b))] }

theorem test_swait_has_states :
    lanternPart State.reset 0 = some 0 ∧
    (let s := lantern0 (poke (hubMapped State.reset) 0x2000 [5]) 0x2000 5
     s.turn = .lantern 0 ∧ ((s.lantern 0).get 1).toNat % 8 = 0 ∧ reads s 0 0x2000 8 = some 5 ∧
       ((after (.swait 2 1 3) s).lantern 0).get 3 = 5) ∧
    ((lantern0 State.reset 0x2001 0).lantern 0).get 1 = 0x2001#64 ∧
    (let s := State.reset.setLantern 0 { HubCore.reset with swait := some (0x2000, 6, 3) }
     s.hub.halted = false ∧ reads (poke (hubMapped s) 0x2000 [5]) 0 0x2000 8 = some 5) := by
  decide +kernel

theorem test_rfetch_has_states :
    lanternQueue State.reset 0 4096 = none ∧ lanternQueue State.reset 0 4095 = some 0 ∧
    headKind (ring State.reset []) = (0, 0) ∧ headKind (ring State.reset (packet 9 32 (List.replicate 16 0))) = (1, 0x71) ∧
    headKind (ring State.reset (packet 8 32 (leBytes 8 0x2000 ++ List.replicate 8 0))) = (2, 8) := by
  decide +kernel

/-- A launch of the probe, begun and with no unit placed. -/
def begun (s : State) : State :=
  { s with launches := s.launches.map fun l => { l with next := 0, noMore := false, raddr := 0x2000 }, blocks := [] }

theorem test_disp_has_states :
    (descOf (List.replicate 64 0)).isNone = true ∧
    (let b := leBytes 8 0x2000 ++ leBytes 4 0 ++ [1] ++ List.replicate 51 0
     let s := begun base
     (descOf b).any (fun x => x.raddr = 0x2000 && !x.gang && x.count = 1 && x.first = 0 && x.queue = 0) = true ∧
       s.launches.any (fun r => r.part = 0 && r.queue = 0 && r.raddr = 0x2000 && r.stage = 0 && !r.placed && r.lr.gangsz = 0 &&
         decide (r.next < r.lr.nblocks) && !placeHeld s r && placeHeld (s.modPart 0 fun q => { q with prectl := 0x80000000, pretgt := 1 }) r
         && dieTask s r 3 == some 192) = true) := by
  decide +kernel

/-! ## Steps of the memory machine -/

/-- An access of lane 0 of the warp. -/
def anAccess (sp : Space) (va : DWord) (pa : Option Nat) (k : AccKind) : Access :=
  { serial := 0, key := key, who := .warp 0, lanes := 1, stream := 0, pc := 64, space := sp, va := va, pa := pa, kind := k, held := none,
    dbl := none }
/-- It stands in the queues. -/
def waits (s : State) (a : Access) : State := s.modMs fun ms => { ms with queue := [a] }
/-- It is at its head, of a running launch that does not replay. -/
def mayPerform (s : State) (a : Access) : Bool :=
  let s := waits s a
  atHead s.ms.queue 0 && a.held.isNone && (runCluster s a.key).isSome && (s.launch? a.key.part a.key.grid).any (fun l => !l.replaying) &&
    (s.block? a.key).any (fun b => (b.party? a.who).isSome && !scrPoisoned b a.va.toNat 4 && !b.overlapsBar a.va.toNat 4) &&
    !eccHit s.ms 0x3000 4
/-- A partial of a cluster in the combining buffers. -/
def aPartial (cl pa : Nat) : Partial := { cluster := cl, pa := pa, op := 0, val := 7, owners := [] }
/-- Lane 0 of a register of the warp. -/
def lane0 (s : State) (r : Nat) : Word := ((s.party? key (.warp 0)).map fun p => p.getV r 0).getD 0
/-- Four bytes of HBM. -/
def word32 (s : State) (a : Nat) : Nat := leNat (memRead s.ms.mem a 4)

theorem test_accesses_perform :
    (let s := poke base 0x3000 [0xF0, 1, 2, 3]
     let a := anAccess .global 0x3000 (some 0x3000)
     mayPerform s (a (.load 4 false 7)) = true ∧ lineHeld s.ms 0x3000 4 = false ∧
       lane0 (after (.performAcc 0 false) (waits s (a (.load 1 true 7)))) 7 = 0xFFFFFFF0 ∧
       (exec (.performAcc 0 false) (waits s (a (.loadS 4 false 7))) matches .next _) ∧
       word32 (after (.performAcc 0 false) (waits s (a (.store [9])))) 0x3000 = 0x03020109 ∧
       word32 (after (.performAcc 0 false) (waits s (a .zline))) 0x3000 = 0 ∧
       word32 (after (.performAcc 0 false) (waits s (a (.atom 0 4 0x10 7)))) 0x3000 = 0x03020200 ∧
       word32 (after (.performAcc 0 false) (waits s (a (.acas 4 0x030201F0 5 1 7)))) 0x3000 = 5 ∧
       word32 (after (.performAcc 0 false) (waits s (a (.acas 4 0 5 1 7)))) 0x3000 = 0x030201F0) ∧
    (let s := onBlock base fun b => { b with scr := [⟨0x100, 5⟩] }
     mayPerform s (anAccess .scratch 0x100 none (.load 4 false 7)) = true ∧
       lane0 (after (.performAcc 0 false) (waits s (anAccess .scratch 0x100 none (.load 4 false 7)))) 7 = 5) ∧
    lineHeld (base.modMs fun ms => { ms with cb := [aPartial 0 0x3040] }).ms 0x3000 4 = true := by
  decide +kernel

/-- Table 0x8000, with one entry, for the Lamplighter of cluster 0: COUNT 1, SHIFT 3, and the entry's counts n. -/
def tableBytes (n : Nat) : List Byte :=
  [1, 0, 3] ++ List.replicate 61 0 ++ (List.replicate 8 0 ++ leBytes 4 800 ++ leBytes 4 80 ++ List.replicate 16 0 ++ leBytes 4 n ++ List.replicate 28 0)
/-- What an update of it comes to: 1 discarded, 2 written, with the new time tag. -/
def lamp (s : State) : Nat × Nat :=
  match (lampStep 0 0 0 1 0x8000 0 1600 160 none s).2 with
  | .discard _ => (1, 0)
  | .writes _ ws => (2, fieldAt ((ws.map fun w => w.2).getD 1 []) 8 4)
  | .stop _ => (0, 0)

theorem test_updates_apply :
    (let a := anAccess .global 0x8000 none (.update 0 1600 160 none)
     mayPerform base a = true) ∧ lamp base = (1, 0) ∧ lamp (poke base 0x8000 (tableBytes 0)) = (2, 1600) ∧
    lamp (poke base 0x8000 (tableBytes 1)) = (2, 900) ∧ drawn 800 1600 3 = 900 ∧ drawn 1600 800 3 = 1500 := by
  decide +kernel

/-- A RED of lane 0 of the warp. -/
def aRed (pa : Nat) : RedEntry :=
  { serial := 0, key := key, who := .warp 0, lane := 0, stream := 0, pc := 64, va := 0x3000, pa := some pa, op := 0, x := 5, held := none, dbl := none }
/-- A write of an engine. -/
def aPath (l : Loc) : PathWrite := { path := .cp, op := 0, key := key, who := .warp 0, lanes := 1, pos := 0, loc := l, data := [1, 2, 3, 4] }
/-- A write that system observers do not see. -/
def aWrite (pa : Nat) : XWrite :=
  { serial := 0, key := key, who := .warp 0, lanes := 1, stream := some 0, path := none, op := 0, pa := pa, data := [1, 2, 3, 4] }
/-- A store of a host core. -/
def aStore (n pa : Nat) : HostWrite := { id := n, hart := 0, epoch := 0, pa := pa, data := [6, 7], done := false, before := [] }

theorem test_buffers_reach_memory :
    (let s := base.modMs fun ms => { ms with pool := [aRed 0x3000], cb := [{ aPartial 0 0x3000 with owners := [aRed 0x3000] }, aPartial 1 0x3000] }
     runCluster s key = some 0 ∧ redBytes 0 = 4 ∧ (s.ms.cb.all fun y => y.cluster != 0 || !y.overlaps 0x3000 4 || (y.pa == 0x3000 && y.op == 0)) = true ∧
       ((after (.mergeRed 0) s).ms.cb.map fun y => (y.cluster, y.val)) = [(0, 12), (1, 7)] ∧ word32 (after (.flushCb 0) s) 0x3000 = 7) ∧
    (let s := base.modMs fun ms => { ms with pool := [aRed 0x3000], cb := [aPartial 1 0x3000] }
     ((after (.mergeRed 0) s).ms.cb.map fun y => (y.cluster, y.val)) = [(1, 7), (0, 5)]) ∧
    (let s := base.modMs fun ms => { ms with
       paths := [aPath (.hbm 0x3000), aPath (.hbm 0x3002), aPath (.scr key 8)], redm := [aRed 0x3004] }
     (aPath (.hbm 0x3000)).meets (aPath (.hbm 0x3002)) = true ∧ (aPath (.hbm 0x3000)).meets (aPath (.scr key 8)) = false ∧
       (aPath (.hbm 0x3002)).meets (aPath (.scr key 8)) = false ∧ word32 (after (.drainPath 0) s) 0x3000 = 0x04030201 ∧
       word32 (after (.drainPath 3) s) 0x3004 = 5 ∧
       ((after (.drainPath 2) s).block? key).any (fun b => leNat (memRead b.scr 8 4) == 0x04030201) = true) ∧
    (let s := base.modMs fun ms => { ms with
       exports := [.write (aWrite 0x3000), .write (aWrite 0x3002)], hostw := [aStore 1 0x3000, aStore 2 0x3001] }
     exportHeld s.ms.exports 0 (aWrite 0x3000) = false ∧ leNat (memRead (after (.exportW 0) s).ms.sys 0x3000 4) = 0x04030201 ∧
       (after (.exportW 1) s).ms.exports.length = 2 ∧ word32 (after (.importW 0) s) 0x3000 = 0x0706 ∧
       word32 (after (.importW 1) s) 0x3000 = 0 ∧ (after (.hostCoreStore 0 true (2 ^ 40 - 1) [1]) s).ms.hostw.length = 3 ∧
       (after (.hostCoreStore 0 true (2 ^ 40) [1]) s).ms.hostw.length = 2) := by
  decide +kernel

/-- The wait of a WAITCMP on the word at 0x3000. -/
def aWait : CondWait := { cond := 0, d := 1, b := 0, va := 0x3000, gap := 256 }

theorem test_late_faults_and_results :
    (let a := anAccess .global 0x20000 none (.store [1])
     mayPerform base a = true ∧ a.kind.waits = false ∧
       (match (translate (waits base a) 0 0 0 0x20000 a.kind.rw.1 a.kind.rw.2 false).2 with
        | .error f => f.code
        | .ok _ => 0) = 0x10) ∧
    (let s := onFrag warp fun f => { f with out := vd, wait := .switch }
     who s (fun c => (ctxOf s c.ref).any fun d => decide (d.f = c.f)) = true ∧
       who s (fun c => !stillComing s c (.v 4) && resultsOut s c.key c.who { c.f with out := c.f.out.minus (RegSet.one (.v 5)) } &&
         !resultsOut s c.key c.who { c.f with out := (c.f.out.minus (RegSet.one (.v 4))).minus (RegSet.one (.v 5)) }) = true) ∧
    (let s := onFrag warp fun f => { f with wait := .poll 0 aWait }
     passes s .global 0x3000 4 true false false (some 0x3000) = true ∧ 0 + aWait.gap ≤ ({ s with fcyc := 512 } : State).dtime) ∧
    (let s := onFrag warp fun f => { f with wait := .monitor aWait }
     who s (fun c => (({ slice := 0, pa := 0x3000, waiters := [c.ref], woken := [c.ref] } : Monitor).woken).contains c.ref) = true) := by
  decide +kernel

/-! ## Work in progress -/

/-- The cluster's FIFO holds one charge that arrived in this fabric cycle. -/
def charging (s : State) (w : Charger) (cost : Nat) : State :=
  s.modCluster 0 fun c => { c with charges := [{ who := w, cost := cost, at_ := s.fcyc }] }
/-- A macro with its words. -/
def aMacro (words : List Word) : MacroRun := { cls := 1, op := 3, d := 4, a := 8, words := words, mask := 0, redo := 0, swm := false }
/-- The turn's fragment. -/
def ref0 : FragRef := { key := key, who := .warp 0, lane := 0 }
/-- Replace the operation of the block. -/
def withRun (s : State) (o : EngOp) : State := onBlock s fun b => { b with ops := [o] }

theorem test_charges_proceed :
    (let s := charging (onFrag warp fun f => { f with wait := .charge (aMacro [0]) }) (.gather ref0) 65536
     let k := s.cluster 0
     k.frozen = false ∧ k.bal = 65536 ∧ (ctxOf s ref0).any (fun c => decide (c.f.wait = .charge (aMacro [0]))) = true ∧
       ((after (.chargeProceed 0 1) s).cluster 0).bal = 0 ∧ who (after (.chargeProceed 0 1) s) (fun c => decide (c.f.wait = .rows (aMacro [0]))) = true) ∧
    (let s := charging (withRun warp (op .queued)) (.chan 7 9) 65537
     (s.op? 9).any (fun e => decide (e.2 = op .queued)) = true ∧ ((after (.chargeProceed 0 1) s).cluster 0).bal = 65536) ∧
    ((after (.chargeProceed 0 1) (charging (withRun warp (op .queued)) (.chan 7 9) 16)).op? 9).any (fun e => e.2.st == .running) = true ∧
    ((after .currentBucketRefill ((warp.modCluster 0 fun c => { c with bal := 64000 }).modCluster 1 fun c => { c with bal := 64960 })).cluster 0).bal = 64576 ∧
    ((after .currentBucketRefill (warp.modCluster 1 fun c => { c with bal := 64961 })).cluster 1).bal = 65536 := by
  decide +kernel

/-- A running row of a copy may read its words. -/
def rowReads (s : State) (o : EngOp) : Bool :=
  (s.op? 9).any (fun e => decide (e.2 = o)) && o.charged && !o.waiting && o.st == .running &&
    (s.block? key).any (fun b => decide (b.place = .resident (opHome s 9)) && !b.overlapsBar (cpaLocal o.words 0 o.elem).toNat 4) &&
    !(s.cluster (opHome s 9)).frozen &&
    (opCtx s (opHome s 9) o).any fun c => match (wordPlaces c true false 1 (cpaGlobal o.words o.elem) s []).2 with
      | .ok l => decide (l = [0])
      | _ => false

theorem test_copies_and_sums :
    (let o : EngOp := { op .running with charged := true }
     let m : EngOp := { o with words := [0, 0, 0, 4, 1, 4, 4, 7] }
     rowReads (withRun warp o) o = true ∧ rowReads (withRun warp m) m = true ∧ o.elem + 1 = cpaRows o.words ∧ m.elem + 1 < cpaRows m.words ∧
       ((after (.runElem 9) (withRun warp o)).op? 9).any (fun e => e.2.st == .done) = true ∧
       ((after (.runElem 9) (withRun warp m)).op? 9).any (fun e => e.2.st == .running && e.2.elem == 1) = true ∧
       who warp (fun c => decide (7 < c.b.chans.length)) = true) ∧
    (let f (fresh : Bool) : Flight := .group 1 2 2 fresh [0, 0, 0, 0x3F800000] [] false
     let s := onBlock (holding warp 2) fun b => { b with flights := [f true, f false] }
     let t := after (.kgroupComplete key) s
     let u := after (.kgroupComplete key) t
     (t.block? key).any (fun b => (b.acc 1).elem 65 == 0x3F800000) = true ∧ (u.block? key).any (fun b => (b.acc 1).elem 65 == 0x40000000) = true ∧
       (s.block? key).any (fun b => b.outstanding 1) = true ∧ (u.block? key).any (fun b => !b.outstanding 1) = true) := by
  decide +kernel

theorem test_engine_places_free :
    (let s := (onFrag warp fun f => { f with wait := .selection (aMacro [0]) }).modCluster 0 fun c => { c with selWait := [ref0] }
     who s (fun c => c.cl == 0 && decide (c.f.wait = .selection (aMacro [0])) && !prgV c.f.prg) = true ∧ (s.cluster 0).selOwner = none ∧
       ((after (.selectionEngineStart 0) s).cluster 0).selWait = []) ∧
    (let s := (onFrag warp fun f => { f with wait := .chan 7 }).modCluster 0 fun c =>
       { c with chWait := [(7, ref0)], chq := (List.range 15).map fun i => (7, i) }
     (s.cluster 0).chWait.find? (fun e => e.1 = 7) = some (7, ref0) ∧ ((s.cluster 0).chq.filter fun e => e.1 = 7).length = 15 ∧
       ((after (.channelPlaceFreed 0 7) s).cluster 0).chWait = [] ∧ ((after (.channelPlaceFreed 0 7) (full s 7)).cluster 0).chWait = [(7, ref0)]) ∧
    (let o : EngOp := { op .running with ch := 8, words := [0, 0, 0, 0, 1, 0x300, 0, 0] }
     let s := withRun (grouped warp) o
     let t := onChannel s 8
     groupClvs warp 0 0 = [] ∧ (groupClvs s 0 0).map (fun e => (e.1.key, e.2)) = [(key, o)] ∧ steady s 0 8 = true ∧ steady t 0 8 = true ∧
       chanHead s 0 8 = none ∧ ((after (.collectiveGroupAbort 0 0) s).op? 9).any (fun e => e.2.doom && e.2.code == 0) = true ∧
       chanHead t 0 8 = some 9 ∧ ((after (.collectiveGroupAbort 0 0) t).op? 9).any (fun e => e.2.code == 0x30) = true) := by
  decide +kernel

/-! ## Waits and the end of a block -/

theorem test_waves_and_pauses :
    (let x : BarWaiter := { key := key, who := .warp 0, lanes := 0xFFFFFFFF, gen := 5 }
     let s := onBlock (onFrag warp fun f => { f with wait := .bar 0 5 }) fun b => { b with waves := [{ due := 0, waiters := [x] }] }
     runCluster s key = some 0 ∧ (s.cluster 0).cyc = 0 ∧ who (after (.waveRelease key) s) (fun c => c.f.wait == .run && c.b.waves.isEmpty) = true ∧
       who (after (.waveRelease key) (onBlock s fun b => { b with waves := [{ due := 1, waiters := [x] }] })) (fun c => c.b.waves.length == 1)
         = true) ∧
    (let s := (onFrag warp fun f => { f with wait := .pause 0 2 true, pend := vd }).modCluster 0 fun c => { c with cyc := 20 }
     (ctxOf s ref0).any (fun c => decide (c.f.wait = .pause 0 2 true)) = true ∧
       who (after (.pauseEnd ref0) s) (fun c => c.f.wait == .run && c.f.pend == RegSet.none) = true ∧
       who (after (.pauseEnd ref0) (s.modCluster 0 fun c => { c with cyc := 19 })) (fun c => c.f.wait != .run) = true) := by
  decide +kernel

/-- A fragment parked for its handler. -/
def aPark : Park :=
  { flt := { code := 0x50, elem := 3, addr := 0, level := 0, mal := false }, host := false, seq := none, posted := false, timm := 9,
    pfx := true, retPc := 72 }

theorem test_trap_entry_and_ends :
    (let s := onFrag (handled warp) fun f => { f with wait := .parked aPark }
     (s.party? key (.warp 0)).any (fun p => p.trap.isNone && nextTrapped p == some 0) = true ∧
       ((after (.trapEntry key (.warp 0)) s).party? key (.warp 0)).any (fun p => p.getS 124 == 0x90150 && p.getS 125 == 3 && p.getS 126 == 64 &&
         p.trap.any fun t => t.nxt == 72 && t.ret == 72 && t.lanes == 0xFFFFFFFF) = true) ∧
    ((trapped warp).party? key (.warp 0)).any (fun p => p.trap.isSome) = true := by
  decide +kernel

theorem test_blocks_end :
    (let s := onParty warp fun p => { p with ws := .draining, frags := [] }
     acknowledged s key (.warp 0) = true ∧ acknowledged (queued warp) key (.warp 0) = false ∧
       ((after (.warpFree key 0) s).party? key (.warp 0)).any (fun p => p.ws == .free) = true) ∧
    (let s := onBlock (onParty warp fun p => { p with ws := .free, frags := [] }) fun b => { b with mccEnded := true }
     (s.block? key).any (fun b => b.started && !copiesLeft s b && b.mccEnded && b.flights.isEmpty && (b.ops.all fun o => o.st.over)) = true ∧
       acknowledged s key .mcc = true ∧ ((after (.blockEnd key) s).block? key).isNone = true) ∧
    ((after (.blockEnd key) warp).block? key).isSome = true := by
  decide +kernel

/-! ## The fault queue, debugging, and checks of storage -/

/-- A fault record of the probe's launch, with its number. -/
def aFault (seq : Word) (t : FTarget) (written : Bool) : FaultRec :=
  { seq := seq, code := 0x50, code2 := 0, kind := 0, elem := 0, asid := 0, pc := 64, addr := 0, grid := 1, blk := 0, thread := 0, ticket := 0,
    dtime := 0, written := written, answered := false, target := t }
/-- The record of lane 0 of the warp. -/
def ofWarp (written : Bool) : FaultRec := aFault 5 (.party key (.warp 0) 1) written
/-- Partition 0 has the records, and a ring of n + 1 records at 0x3000, enabled. -/
def withFaults (s : State) (l : List FaultRec) (n : Word) : State :=
  s.modPart 0 fun q => { q with faults := l, fqbase := 0x3000, fqctl := 0x80000000 ||| n, nextSeq := 6 }

theorem test_fault_records :
    (let s := withFaults base [ofWarp false] 1
     let t := after (.faultRecordWrite 0) s
     ((s.part 0).faults.find? fun y => !y.written) = some (ofWarp false) ∧ (t.part 0).fqtail = 1 ∧
       leNat (memRead t.ms.mem 0x3000 4) = 5 ∧ ((after (.faultRecordWrite 0) (withFaults t [ofWarp false] 1)).part 0).fqctl.getLsbD 30 = true) ∧
    ((after (.faultRecordWrite 0) (withFaults base [ofWarp false] 0)).part 0).fqctl.getLsbD 30 = true ∧
    (after (.faultRecordWrite 0) (withFaults base [ofWarp true] 1) = withFaults base [ofWarp true] 1) := by
  decide +kernel

theorem test_resumes :
    (let s := withFaults (onFrag warp fun f => { f with wait := .parked { aPark with seq := some 5 } }) [ofWarp true] 1
     let t := after (.fresumeRetry 0 5) s
     let u := after (.fresumeEndLaunch 0 5) s
     openRecord s 0 6 = none ∧ openRecord s 0 5 = some (ofWarp true) ∧ openRecord t 0 5 = none ∧ who t (fun c => c.f.wait == .run) = true ∧
       (u.launch? 0 1).all (fun l => l.fault) = true ∧ u.blocks = []) ∧
    (let r := aFault 5 (.engine key 9) true
     let s := onChannel (withFaults (withRun warp { op .held with heldSeq := some 5 }) [r] 1) 7
     openRecord s 0 5 = some r ∧ steady s 0 7 = true ∧ opHome s 9 = 0 ∧ ((after (.fresumeRetry 0 5) s).op? 9).any (fun e => e.2.st == .running) = true) := by
  decide +kernel

/-- Breakpoint or watchpoint unit 0 is enabled, and debugging armed. -/
def broken (s : State) (addr : DWord) : State :=
  s.modPart 0 fun q => { q with dbgctl := 0xD0000100, bpc := lmod q.bpc 0 fun _ => addr }
/-- Watchpoint 7 covers the word at 0x3000. -/
def watched (s : State) : State :=
  s.modPart 0 fun q => { q with dbgctl := 0x80000080, wpa := lmod q.wpa 7 (fun _ => 0x3000), wpl := lmod q.wpl 7 (fun _ => 0x80000004) }
/-- The word at the PC of the warp would hit it. -/
def watches (s : State) (w : Nat) (i : Instr) (at_ : Nat) : Bool :=
  who s fun c =>
    let s1 : State := { s with turn := .frag c.key c.who c.i, late := false }
    let c1 : Ctx := { c with sw := w / 2 ^ 30 % 2 == 1 }
    let s2 := cached s1 c c.f.pc w
    fetches s1 c c.f.pc w && i.wf && runsHere i c.who && aboutToIssue s c && (breakUnit s c).isNone && dbgArm s c.key.part &&
      (match bodyOf i with
       | some d => !d.illop c1 && d.grant c1 && !outsideWindow c.p ((d.reads c1).or (d.writes c1)) &&
           !(((d.reads c1).or (d.writes c1)).or (RegSet.pr d.guard)).meets c.f.pend &&
           watchHit s2 c.key.part c.ref (d.touch s2 c1 (if d.perLane then c1.effLanes d.guard else c.f.lanes)) == some (7, at_)
       | none => false)

theorem test_stops :
    (let s := broken warp 64
     who s (fun c => aboutToIssue s c && breakUnit s c == some 0 && dbgArm s c.key.part) = true ∧
       ((after (.breakpointHit ref0) s).cluster 0).frozen = true ∧
       (let b := after (.breakpointHit ref0) s
        b.blocks.any (fun b => b.key.part = 0 && b.key.grid = 1 && decide (b.place = .resident 0)) = true ∧
          (let t := (b.setCluster 0 { b.cluster 0 with frozen := false }).modPart 0 fun q =>
             { q with freezes := q.freezes.map fun f => { f with clusters := [1] } }
           ((t.part 0).faults.any fun x => (t.part 0).freezes.any fun f => f.seqs.contains x.seq && !f.clusters.contains 0 && x.grid == 1)
             = true ∧ midway t 0 = false ∧ ((after (.freezeSpread 0 0) t).cluster 0).frozen = true ∧
             (let m := onFrag t fun f => { f with wait := .rows (aMacro [0]) }
              midway { m with blocks := m.blocks.map fun b => b.mapFrags fun f => { f with wait := .rows (aMacro [0]) } } 0 = true)))) ∧
    who (broken warp 68) (fun c => (breakUnit (broken warp 68) c).isNone) = true := by
  decide +kernel

theorem test_watch_stops :
    (let i : Instr := .stg 0 0 4 2 0 0 0
     let w := (encode? i).getD 0
     let s := poke (setV (watched warp) 2 fun _ => 0x3002) 64 (leBytes 4 w)
     decodeTableWord 32 w = some i ∧ watches s w i 0x3002 = true ∧ watches (setV s 2 fun _ => 0x3004) w i 0x3002 = false ∧
       ((after (.watchpointHit ref0) s).part 0).faults.length = 1) := by
  decide +kernel

theorem test_window_samples_checks :
    (let u := warp.modCluster 0 fun c => { c with frozen := true }
     let s := after (.debugWindowWrite 0 0 0x0000000000000001) u
     (warp.blocks.all fun y => !frozenBlock warp y && y.cluster?.isSome) = true ∧ (u.blocks.any fun y => frozenBlock u y) = true ∧
       (s.part 0).winGrid = 1 ∧ (s.block? { part := 0, grid := (s.part 0).winGrid.toNat, blk := (s.part 0).winBlk.toNat }).any (fun b => windowOpen s b)
       = true ∧ who warp (fun c => !windowOpen warp c.b) = true) ∧
    (let s := (warp.modPart 0 fun q => { q with sampctl := 0x8000000A }).modCluster 0 fun c => { c with cyc := 10240 }
     s.ownerOf 0 = some 0 ∧ ((after (.pcSample 0) s).cluster 0).sample = 1024 ∧ (s.part 1).trctl.getLsbD 31 = false ∧
       ((after (.pcSample 0) (s.modCluster 0 fun c => { c with cyc := 10239 })).cluster 0).sample = 0) ∧
    ((after (.backgroundCheck key (.uniform (.warp 0) 127) .uncorrectable) warp).party? key (.warp 0)).any (fun p => p.poisS.getLsbD 127) = true ∧
    (after (.patrolScrub (2 ^ 35 - 1) .uncorrectable) warp).ms.badSect = [2 ^ 35 - 1] := by
  decide +kernel

/-! ## Packets -/

/-- Has the partition one runnable queue, 0, with a packet or a unit of a type? -/
def oneWork (s : State) (ty : Nat) : Bool :=
  queuePart s 0 == some 0 && mayArbitrate s 0 && decide (restoreAll s 0 s.blocks.length = s) && decide (activateReady s 0 = s) &&
    (match works s 0 with
     | (v, [(q, .packet _ pk)]) => q == 0 && packetType pk == ty && (v.part 0).blocked.isNone
     | (v, [(q, .unit _ pk)]) => q == 0 && packetType pk == ty && (v.part 0).blocked.isNone
     | _ => false)
/-- A SIGNAL, WAIT, LEASE, RESYNC, FWACT or TIMEREC packet of 64 bytes. -/
def small (ty : Nat) (body : List Byte) : List Byte := packet ty 64 (body ++ List.replicate (48 - body.length) 0)
/-- A WAIT for 0x3000 to reach a value, a SIGNAL of it. -/
def waitPk (n : Nat) : List Byte := small 4 (leBytes 8 0x3000 ++ leBytes 8 n ++ leBytes 8 77)
def signalPk (op n : Nat) : List Byte := small 3 (leBytes 8 0x3000 ++ leBytes 8 n ++ leBytes 1 op)
/-- RPTR of the ring. -/
def rptr (s : State) : Nat := leNat (memRead s.ms.mem 0x1008 8)
/-- The word of SIGNAL and WAIT. -/
def word64 (s : State) : Nat := leNat (memRead s.ms.mem 0x3000 8)
/-- A ring with the word at a value. -/
def ringAt (n : Nat) (pk : List Byte) : State := poke (ring State.reset pk) 0x3000 (leBytes 8 n)

theorem test_packets_signal_and_wait :
    oneWork (ringAt 0 (signalPk 0 9)) 3 = true ∧
    (let t := after (.signalPk 0) (ringAt 5 (signalPk 0 9))
     word64 t = 9 ∧ rptr t = 64) ∧
    word64 (after (.signalPk 0) (ringAt 5 (signalPk 1 9))) = 14 ∧
    (let t := after (.waitPk 0) (ringAt 9 (waitPk 9))
     rptr t = 64 ∧ (t.queue 0).blk = false) ∧
    (let t := after (.waitPk 0) (ringAt 8 (waitPk 9))
     rptr t = 0 ∧ (t.queue 0).blk = true ∧ (t.queue 0).wait = some (0x3000, 9, 77) ∧ t.hub.halted = false ∧
       rptr (after (.waitSignalFires 0) t) = 0 ∧ rptr (after (.waitSignalFires 0) (poke t 0x3000 [9])) = 64) ∧
    mayArbitrate (State.reset.modHub fun u => { u with halted := true }) 0 = false := by
  decide +kernel

theorem test_packets_lease_resync_firmware :
    oneWork (ringAt 0 (small 5 (leBytes 8 100 ++ leBytes 8 0x3000))) 5 = true ∧
    (let t := after (.leasePk 0) (ringAt 0 (small 5 (leBytes 8 60000 ++ leBytes 8 0x3000)))
     (t.part 0).lease.pend = some (50000, 0x3000, 0) ∧ t.hub.leaseQ = [0] ∧ rptr t = 64) ∧
    (let s := (ringAt 0 (small 5 (leBytes 8 100 ++ leBytes 8 0x3000))).modPart 0 fun q => { q with lease := { q.lease with held := true } }
     word64 (after (.leasePk 0) s) = 2) ∧
    rptr (after (.resyncPk 0) (ringAt 0 (small 6 (leBytes 8 0x3000)))) = 64 ∧
    (let t := after (.timerecPk 0) ({ ringAt 0 (small 8 (leBytes 8 0x3000)) with fcyc := 10 } : State)
     word64 t = 5 ∧ rptr t = 64) ∧
    (let s := ringAt 0 (small 7 [1])
     let t := after (.fwactPk 0) s
     imgOk s.hub (s.hub.flash 1) = false ∧ (s.part 0).fwPending = [] ∧ (t.part 0).hold = 2 ∧ rptr t = 64) := by
  decide +kernel

theorem test_packets_launch_graph_faults :
    (let s := (begun (ring base (packet 1 96 (List.replicate 80 0)))).modQueue 0 fun u => { u with launch := some 1 }
     oneWork s 1 = true ∧ (launchAt s 0 0).any (fun l => !placeHeld s l && l.lr.gangsz = 0 && fewestTasks s 0 l.lr == some 0) = true ∧
       ((after (.launchPk 0) s).cluster 0).tasks = [key]) ∧
    (let n : List Byte := leBytes 4 1 ++ List.replicate 60 0 ++ (leBytes 8 2 ++ List.replicate 56 0)
     let s := poke (ring State.reset (packet 2 64 (leBytes 8 0x3000 ++ List.replicate 40 0))) 0x3000 n
     oneWork s 2 = true ∧ (after (.graphPk 0) s).graphs.length = 1) ∧
    (let s := (ring State.reset []).modMs fun ms => { ms with tlb := ms.tlb.map fun e => { e with w := false } }
     let t := consume s 0 0 64
     (s.queue 0).wiped = false ∧ reads s 0 0x1008 8 = some 0 ∧ (t.queue 0).halt = true ∧ (t.part 0).faults.length = 1) ∧
    (let s := hubMapped State.reset
     (List.range 8).all (fun j => match translate s 260 0 0 (0xFFF8 + j) false true false with
       | (t, .ok pa) => decide (t = s) && pa == 0xFFF8 + j
       | _ => false) = true) ∧
    (let s := ringAt 9 (waitPk 9)
     queuePart s 0 = some 0 ∧ (s.queue 0).was = false ∧ ((works s 0).2.map fun e => e.1) = [0] ∧
       (let u := (s.setQueue 1 { s.queue 0 with was := true, qpass := 7 })
        lowestPass u [1] = some 7 ∧ ((after (.queueBecomesRunnable 0) u).queue 0).qpass = 7)) := by
  decide +kernel

/-- The lantern core fetches the packet at the head of queue 0: 0 when it traps, else the bytes it has; and the queue's HALT. -/
def fetchedAs (s : State) : Nat × Bool :=
  let t := after (.rfetch 2 1 3) (lantern0 s 0 0x1000)
  (if (t.lantern 0).mcause = 0 then ((t.lantern 0).get 3).toNat else 0, (t.queue 0).halt)
/-- A GRAPH packet is at the head, its record these bytes. -/
def graph0 (body : List Byte) : State := poke (ring State.reset (packet 2 64 (leBytes 8 0x3000 ++ List.replicate 40 0))) 0x3000 body

theorem test_fetched_packets :
    (let n : List Byte := leBytes 4 1 ++ List.replicate 60 0 ++ (leBytes 8 2 ++ List.replicate 56 0)
     let l := ring base (packet 1 96 (List.replicate 80 0))
     let b := (begun l).modQueue 0 fun u => { u with launch := some 1 }
     fetchedAs (ring State.reset []) = (0, false) ∧ fetchedAs (ringAt 0 (signalPk 0 9)) = (64, false) ∧
       headKind (graph0 n) = (2, 2) ∧ fetchedAs (graph0 n) = (64, false) ∧ fetchedAs (graph0 []) = (0, true) ∧
       headKind l = (2, 1) ∧ fetchedAs l = (0, true) ∧ (b.queue 0).launch.isSome = true ∧ fetchedAs b = (96, false) ∧
       (after (.rfetch 2 1 3) (lantern0 (ring State.reset []) 0 0x1000)).lanterns.all (fun e => e.2.mcause = 0) = true) := by
  decide +kernel

/-! ## Placement, graphs and completion -/

/-- Cluster 0 has the task entry of the launch's block. -/
def tasked (s : State) (n : Nat) : State :=
  s.modCluster 0 fun c => { c with tasks := (List.range n).map fun i => { part := 0, grid := 1, blk := i } }

theorem test_placement :
    (let s := tasked (begun base) 1
     (taskHead s 0).any (fun e => e.1 == key && fits s 0 e.2.lr && (s.block? e.1).isNone && e.2.copies.isEmpty) = true ∧
       (let t := after (.taskQueuePlacement 0) s
        (t.cluster 0).tasks = [] ∧ (t.block? key).any (fun b => decide (b.place = .resident 0) && b.warps.length == 1 && b.scrSize == 0x80000) = true)) ∧
    (taskHead (tasked base 1) 0).any (fun e => !fits base 0 e.2.lr) = true := by
  decide +kernel

theorem test_balancing :
    (let s := tasked base 5
     let d (n : Nat) : Nat := (s.cluster n).tasks.length
     balThr s 0 = 4 ∧ balThr s 63 = 4 ∧ s.fcyc = 0 ∧ d 0 = 5 ∧ d 1 + 4 < d 0 ∧ d 63 + 4 < d 0 ∧ s.ownerOf 0 = s.ownerOf 1) ∧
    (let s := { (tasked base 5).modCluster 63 (fun c => { c with tasks := [key] }) with fcyc := 256 }
     let d (n : Nat) : Nat := (s.cluster n).tasks.length
     tabGet 0 s.exch 0 ≠ s.fcyc ∧ d 0 ≤ d 63 + 4 ∧ d 63 ≤ d 0 + 4 ∧
       ((after (.balancingExchange 0) s).cluster 1).tasks.length = 1 ∧ ((after (.balancingExchange 0) s).cluster 0).tasks.length = 4) := by
  decide +kernel

theorem test_launch_completes :
    (let s := onLaunch { hubMapped base with blocks := [] } fun l => { l with lr := { l.lr with trec := 0x3000, stat := 0x3100 } }
     (s.launch? 0 1).any (fun l => l.stage == 0 && launchDone s l && l.stuck.isNone && !l.sigc && !l.inRun && l.next == 1 && l.copies.isEmpty
       && !overTime s l) = true ∧
       (let e := beginCompletion s probeLaunch
        (match hubWrite e 0 0 0x3000 (List.replicate 64 0) with
         | (u, none) => (hubWrite u 0 0 0x3100 (List.replicate 16 0)).2.isNone
         | _ => false) = true) ∧ ((after (.launchCompletion 0 1) s).launch? 0 1).isNone = true) ∧
    (base.launch? 0 1).any (fun l => l.stage == 0 && !launchDone base l) = true ∧
    (let s := { onLaunch base (fun l => { l with lr := { l.lr with tlim := 1 } }) with fcyc := 2000000 }
     (s.launch? 0 1).any (fun l => overTime s l) = true ∧ (after (.timeLimitExpiry 0 1) s).blocks = [] ∧
       ((after (.timeLimitExpiry 0 1) s).launch? 0 1).all (fun l => l.tlimit) = true) ∧
    (let s := onLaunch (onBlock base fun b => { b with started := false }) fun l => { l with started := false }
     (after (.bundleStart 0 1) s).blocks.all (fun b => b.started) = true) := by
  decide +kernel

/-- A node of a kind, on the word at 0x3000. -/
def aNode (kind : Nat) (value : DWord) : Node := { kind := kind, body := false, pred := 0, addr := 0x3000, value := value, op := 0 }
/-- A walk of queue 0 over these nodes. -/
def aGraph (l : List Node) (runs : List NodeRun) : Graph :=
  { queue := 0, part := 0, nodes := l, runs := runs, sigc := false, sigAddr := 0, sigVal := 0, stat := 0, fault := false,
    lmax := false, energy := 0, units := [], stage := 0 }
/-- The machine has it. -/
def walking (s : State) (l : List Node) (runs : List NodeRun) : State := { s with graphs := [aGraph l runs] }
/-- The states of its nodes. -/
def nodeStates (s : State) : List Nat := ((s.graph? 0).map fun g => g.runs.map fun r => r.st).getD []

theorem test_graph_nodes :
    (let run (st it : Nat) : NodeRun := { st := st, iter := it }
     let s := ringAt 5 (packet 2 64 (List.replicate 48 0))
     let one (n : Node) (st : Nat) : State := walking s [n] [run st 0]
     (one (aNode 1 0) 0).graphs.all (fun g => mayWalk s g && g.lowest 0) = true ∧
       nodeStates (after (.graphNodeStart 0 0) (one (aNode 1 0) 0)) = [1] ∧ nodeStates (after (.graphNodeStart 0 0) (one (aNode 2 9) 0)) = [2] ∧
       nodeStates (after (.graphNodeStart 0 0) (one (aNode 3 5) 0)) = [2] ∧ nodeStates (after (.graphNodeStart 0 0) (one (aNode 3 6) 0)) = [1] ∧
       nodeStates (after (.graphNodeStart 0 0) (one (aNode 4 0) 0)) = [1] ∧
       (after (.loopConditionRead 0 0) (one (aNode 4 1) 3)).graphs.all (fun g => g.lmax && (g.run 0).st == 2) = true ∧
       (one (aNode 4 1) 3).graphs.all (fun g => bodyDone g 0) = true ∧
       (after (.loopConditionRead 0 0) (one (aNode 4 0) 1)).graphs.all (fun g => (g.run 0).st == 3) = true ∧
       (let z := poke s 0x3000 [0]
        nodeStates (after (.loopConditionRead 0 0) (walking z [aNode 4 0] [run 1 0])) = [2]) ∧
       (one (aNode 1 0) 1).graphs.all (fun g => (g.level none).any fun m => (g.run m).st != 2) = true ∧
       (let d := (one (aNode 1 0) 2).modQueue 0 fun u => { u with held := some (0x1040, packet 2 64 (List.replicate 48 0)) }
        (after (.graphCompletion 0) d).graphs = [] ∧ rptr (after (.graphCompletion 0) d) = 64)) := by
  decide +kernel

theorem test_queue_reset :
    (let s := ringAt 0 (signalPk 0 9)
     let h := s.modQueue 0 fun u => { u with qsched := u.qsched ||| 0x60000000 }
     (h.queue 0).halt = true ∧ (h.queue 0).blk = true ∧ queuePart h 0 = some 0 ∧ (h.queue 0).ringOk = true ∧ (h.queue 1).ringOk = false ∧
       (let t := after (.queueReset 0 1) h
        (t.queue 0).halt = false ∧ (t.queue 0).blk = false ∧ rptr t = 64)) := by
  decide +kernel

/-! ## Firmware -/

/-- A flash device with an image of SVN 3 and version 32: no body, one empty stage at 0x100, signed under the prime 2^528 + 381. -/
def flash : Mem :=
  memWrite (memWrite (memWrite [] 840 (leBytes 8 0x100)) 448 (beBytes 384
    (0xe03d31c31ec45676aa4a62247120f4b5c38654e8915b8cb3c730b6ec6c323951 * 2 ^ 272 +
      0x404a88e53a0e385926c571a16ca70a27fe7f07c0d15d294d979a00e796ba9617523d)))
    0 (leBytes 4 0xA9B00700 ++ leBytes 4 3 ++ leBytes 4 32 ++ leBytes 4 0 ++ leBytes 4 1 ++ List.replicate 44 0 ++ beBytes 384 (2 ^ 528 + 381))
/-- The hub has these images, and the fuses name the key of this one. -/
def signed (a b : Mem) : Hub :=
  { State.reset.hub with flashA := a, flashB := b, keyhash := 0xf0c502abfe775f192b18cca1b84cd0333578e2c8c1b3f1810233b932a1af1348 }
/-- The check sees the fuses alone. -/
theorem imgOk_signed (a b m : Mem) : imgOk (signed a b) m = imgOk (signed [] []) m := rfl
theorem signed_flash (a b : Mem) : (signed a b).flash 0 = a ∧ (signed a b).flash 1 = b := ⟨rfl, rfl⟩

theorem test_image_verifies : imgOk (signed [] []) flash = true := by decide +kernel

/-- An image of a higher SVN that does not verify. -/
def badFlash : Mem := memWrite [] 4 [9]

theorem test_images_to_start :
    (let u := signed flash []
     ¬fieldAt (imgHeader u.flashA) 4 4 < fieldAt (imgHeader u.flashB) 4 4 ∧ imgOk u (u.flash 0) = true) ∧
    (let u := signed badFlash flash
     ¬fieldAt (imgHeader u.flashA) 4 4 < fieldAt (imgHeader u.flashB) 4 4 ∧ imgOk u (u.flash 0) = false ∧ imgOk u (u.flash 1) = true) ∧
    (let u := signed badFlash badFlash
     imgOk u (u.flash 0) = false ∧ imgOk u (u.flash 1) = false) := by
  refine ⟨⟨by decide +kernel, ?_⟩, ⟨by decide +kernel, by decide +kernel, ?_⟩, by decide +kernel, by decide +kernel⟩ <;>
    simp only [(signed_flash _ _).1, (signed_flash _ _).2, imgOk_signed, test_image_verifies]

theorem test_activation_has_states :
    (let s := (ringAt 0 (small 7 [])).modPart 0 fun r => { r with fwPending := [(0, 0)] }
     s.hub.halted = false ∧ (s.queue 0).halt = false ∧ blockingLayout s 0 0 = none ∧ headKind s = (2, 7) ∧
       ((after (.firmwareActivation 0) s).part 0).fwPending = []) := by
  decide +kernel

/-! ## Active sets, phases and saves -/

/-- The block has a second warp on the pipe, pending, and ready since the given time. -/
def pendingToo (s : State) (since : Nat) (more : Nat := 0) : State :=
  onBlock s fun b =>
    let others := (List.range more).flatMap fun i => b.warps.map fun p => { p with slot := 8 + i, issues := i }
    { b with warps := b.warps ++ others ++ b.warps.map fun p => { p with ws := .pending, since := since, slot := 20 } }
/-- The states of the block's warps. -/
def warpStates (s : State) : List WarpState := ((s.block? key).map fun b => b.warps.map fun p => p.ws).getD []

theorem test_active_sets :
    (let s := pendingToo (onFrag base fun f => f) 1
     (longestReady s 0 0).any (fun e => e.1 == (key, 1)) = true ∧ (exchangeOut s 0 0 (llthrOf s 0)).isNone = true ∧
       (warpsOf s 0 0 fun q => q.ws = .active).length = 1 ∧ warpStates (after (.pendingPromotion 0 0) s) = [.active, .active]) ∧
    (let s := onBlock (pendingToo base 1) fun b => { b with warps := lmod b.warps 0 fun p => { p with since := 5 } }
     let t := s.modCluster 0 fun c => { c with cyc := 2565 }
     (exchangeOut t 0 0 (llthrOf t 0)).any (fun e => e.1 == (key, 0)) = true ∧ warpStates (after (.warpExchange 0 0) t) = [.pending, .active] ∧
       warpStates (after (.warpExchange 0 0) (s.modCluster 0 fun c => { c with cyc := 2564 })) = [.active, .pending]) ∧
    (let s := pendingToo base 1 7
     (warpsOf s 0 0 fun q => q.ws = .active).length = 8 ∧ (busiest s 0 0).any (fun e => e.1 == (key, 7)) = true ∧
       warpStates (after (.pendingPromotion 0 0) (s.modCluster 0 fun c => { c with cyc := 40960 })) =
         List.replicate 7 .active ++ [.pending, .active] ∧
       warpStates (after (.pendingPromotion 0 0) (s.modCluster 0 fun c => { c with cyc := 40959 })) = List.replicate 8 .active ++ [.pending]) := by
  decide +kernel

/-- Phases are switched on. -/
def phased (s : State) : State := s.modPart 0 fun q => { q with schedctl := 1, qtm0 := 10, qtm1 := 20 }
/-- Queue 0, of the other context, has a packet. -/
def otherRuns : State :=
  { phased (ringAt 0 (signalPk 0 9)) with launches := base.launches.map (fun (l : Launch) => { l with queue := 1 }), blocks := base.blocks, clusters := base.clusters }.modQueue 0 fun u =>
    { u with qsched := 0x90000000, was := true }

theorem test_phases :
    otherWork (phased base) 0 = false ∧ phsw (phased base) 0 = true ∧ ((after (.phaseSliceExpiry 0) (phased base)).part 0).sliceEnd = 10000 ∧
    otherWork otherRuns 0 = true ∧
    (let t := after (.phaseSliceExpiry 0) otherRuns
     (t.part 0).expired = some 0 ∧ t.blocks.all (fun b => b.ly) = true ∧ swapReady t 0 = false ∧
       (let u := t.modBlock key fun b => { b with halted := true }
        swapReady u 0 = true ∧ (swap u 0).isSome = true ∧ ((after (.phaseSwap 0) u).part 0).phase = 1)) := by
  decide +kernel

theorem test_saves_and_restores :
    (let s := onBlock base fun b => { b with halted := true, yr := true, dest := 0 }
     let t := after (.blockYield key) s
     (s.block? key).any (fun b => !blockMayEnd s b && quiet s b && (s.launch? 0 1).any fun l =>
       decide (savePlace s b l.lr (some 0) b.dest = some (.shadow 0))) = true ∧
       (t.block? key).any (fun b => decide (b.place = .shadow 0)) = true ∧
       ((savedUnits t 0).map fun b => b.key) = [key] ∧ (t.block? key).any (fun b => (t.launch? 0 1).any fun l =>
         decide (unitOf t l key = [b]) && fits t 0 l.lr) = true ∧
       ((after (.savedUnitRestore 0) t).block? key).any (fun b => decide (b.place = .resident 0)) = true ∧ (restoreOne s 0).isNone = true) ∧
    (let s := onBlock (onFrag base fun f => { f with wait := .yielded }) fun b => { b with ly := true, yr := false, mccEnded := true }
     let y := onBlock s fun b => { b with warps := b.warps.map fun p => { p with frags := p.frags.map fun f => { f with wait := .yielded } } }
     (y.block? key).any (fun b => b.ly && !b.yr && !b.halted && b.yielded) = true ∧
       ((after (.blockYield key) y).block? key).any (fun b => b.halted) = true) ∧
    (base.block? key).any (fun b => !b.halted && !b.yielded && !b.yr && !b.ly) = true ∧
    ((onBlock base fun b => { b with yr := true, deadline := some 1 }).block? key).any (fun b => b.yr && !b.halted &&
      b.deadline.all fun n => decide ((base.cluster 0).cyc < n)) = true := by
  decide +kernel

theorem test_preemption_and_energy :
    (let s := base.modPart 0 fun q => { q with pretgt := 1 }
     let t := after (.preemptRequest 0 0x90000000) s
     ((targets s 0 1).map fun b => b.key) = [key] ∧ (t.part 0).prectl.getLsbD 31 = true ∧
       (t.block? key).any (fun b => b.yr && b.dest == 1 && b.deadline == some 400000) = true ∧
       ((after (.preemptRequest 0 0xC0000000) s).block? key).any (fun b => b.deadline == some 0) = true ∧
       ((after (.preemptRequest 0 0xB0000000) s).part 0).prectl.getLsbD 27 = true) ∧
    ((base.blocks.filter fun z => z.place = .resident 0).map (fun b => b.key) = [key] ∧ (base.launch? 0 1).isSome = true ∧
      (base.blocks.filter fun z => z.place = .resident 1) = []) := by
  decide +kernel

/-! ## Host registers -/

/-- ASID 5 belongs to partition 2. -/
def owned (s : State) : State := poke s 0x28 [1, 0, 0, 0, 0, 0, 0, 0x20]

theorem test_invalidations :
    asidPart (owned State.reset) 5 = 2 ∧ asidPart (owned State.reset) 4 = 0 ∧ (State.reset.part 0).tlbiGo = false ∧
    ((after (.tlbiAsid ⟨.host 0, 0⟩ 5) (owned State.reset)).part 0).tlbictl = 0x40000805 ∧
    (let s := (hubMapped base).modPart 0 fun q => { q with tlbictl := 0x80000000, tlbiva := 65535 }
     let b := s.modPart 0 fun q => { q with tlbiva := 65536 }
     (s.part 0).tlbiGo = true ∧ (after (.tlbiComplete 0) s).ms.tlb = [] ∧ (after (.tlbiComplete 0) b).ms.tlb.length = 2 ∧
       ((after (.tlbiComplete 0) s).part 0).tlbiGo = false ∧
       (let w := s.modMs fun ms => { ms with hostw := [aStore 1 0] }
        let v := w.modPart 0 fun q => { q with tlbiWait := [1] }
        ((after (.tlbiComplete 0) v).part 0).tlbiGo = true ∧ ((after (.tlbiComplete 0) w).part 0).tlbiGo = false)) := by
  decide +kernel

/-- A system call of lane 0 of the warp, with its number. -/
def aCall (seq : Option Word) : Call :=
  { seq := seq, svc := 3, args := List.replicate 8 0, reg := 120, f := ref0, pc := 64, reply := none, io := false }
/-- Partition 0 has the call, and a ring of n + 1 entries at 0x3000. -/
def calling (s : State) (c : Call) (n : Word) : State :=
  s.modPart 0 fun q => { q with calls := [c], scbase := 0x3000, scctl := 0x80000000 ||| n, scrply := [1, 2, 3, 4] }

theorem test_system_calls :
    (let s := calling (onFrag warp fun f => { f with wait := .syscFull }) (aCall none) 1
     let t := after (.syscEntryWrite 0) s
     waitingCall s 0 = some (aCall none) ∧ (t.part 0).scpos = 1 ∧ (t.part 0).nextCall = 1 ∧ leNat (memRead t.ms.mem 0x3004 2) = 3 ∧
       ((after (.syscEntryWrite 0) (calling s (aCall none) 0)).part 0).scpos = 0) ∧
    (let s := calling (onFrag warp fun f => { f with wait := .sysc 7 }) (aCall (some 7)) 1
     let t := after (.scactReply 0 7) s
     openCall s 0 7 = some (aCall (some 7)) ∧ (openCall s 0 8).isNone = true ∧
       (t.party? key (.warp 0)).any (fun p => p.getS 120 == 1 && p.getS 123 == 4) = true ∧
       ((after (.scactMarkIo 0 7) s).part 0).calls.all (fun c => c.io) = true ∧
       who s (fun c => acquireDone c s fun _ => true) = true ∧ (after (.scactEndLaunch 0 7) s).blocks = []) ∧
    (openCall warp 0 0).isNone = true ∧ (waitingCall warp 0).isNone = true := by
  decide +kernel

theorem test_mailbox :
    (let s := (onFrag warp fun f => { f with wait := .mbox [1, 2] }).modPart 0 fun q => { q with mbWait := [ref0], mbpos := 0x0000003F }
     let t := after (.mailboxRecordWrite 0) s
     (t.part 0).mbpos = 64 ∧ (t.part 0).slots.getD 63 { data := [], grid := 0, blk := 0, thread := 0, dtime := 0 } =
       { data := [1, 2], grid := 1, blk := 0, thread := 0, dtime := 0 } ∧
       ((after (.mailboxRecordWrite 0) (s.modPart 0 fun q => { q with mbpos := 64 })).part 0).mbWait = [ref0] ∧
       ((after (.mailboxHeadWrite 0 64) t).part 0).mbpos = 0x400040 ∧ ((after (.mailboxHeadWrite 0 65) t).part 0).mbctl = 0x40000000) := by
  decide +kernel

theorem test_configuration :
    (let p (reg : PartReg) (v : DWord) (s : State) : State := after (.partctlWrite 0 reg v) s
     let off := p .ctl 0xFFFF State.reset
     (State.reset.part 0).partctl.getLsbD 31 = true ∧ (p .ctl 0x80000001 State.reset).hub.parterr = true ∧ (p .pq 0 State.reset).hub.parterr = true ∧
       (p (.clus 3) 0 State.reset).hub.parterr = true ∧ disableOk State.reset 0 = true ∧ disableOk base 0 = false ∧
       (off.part 0).partctl = 0xFFFF ∧ off.hub.parterr = false ∧ ((p (.clus 3) 5 off).part 0).pclus.getD 3 0 = 5 ∧
       enableOk off 0 { off.part 0 with partctl := 0x8000FFFF } = true ∧ enableOk off 0 { off.part 0 with partctl := 0x80000000 } = false ∧
       ((p .ctl 0x80000001 off).part 0).partctl = 0x80000001 ∧ ((p .pq 0xFFFFFFFF off).part 0).pq = 0x0FFF1FFF) ∧
    (let m (v : Word) (s : State) : State := after (.hmapWrite v) s
     (m 0x80000000 base).hub.hmap = 0x80000000 ∧ (m 0x80000000 base).ms.mem = base.ms.mem ∧ (m 1 (m 0x80000000 base)).hub.hmap = 0x80000000 ∧
       (m 1 base).hub.hmap = 1) ∧
    reaches State.reset 0 (.host 0) = true ∧ reaches State.reset 0 (.lantern 15) = true ∧ reaches State.reset 1 (.lantern 0) = false ∧
    ((after (.registerWrite (.lantern 15) 0x010000010008 0x12345) State.reset).part 0).llthr = 0x2345 ∧
    ((after (.registerWrite (.lantern 15) 0x010000011008 0x12345) State.reset).part 1).llthr = 256 ∧
    State.reset.hub.meas.length = 10 := by
  decide +kernel

/-! ## Power and links -/

theorem test_leases :
    (let s := (hubMapped State.reset).modPart 0 fun q => { q with lease := { q.lease with pend := some (1000, 0x3000, 0) } }
     let q := s.modHub fun u => { u with leaseQ := [0] }
     let g := after (.leaseDecision 4181818) q
     let r := after (.leaseDecision 4181819) q
     (g.part 0).lease.held = true ∧ (g.part 0).lease.endAt = 1000000 ∧ word32 g 0x3000 = 1 ∧ word32 r 0x3000 = 2 ∧ (r.part 0).lease.held = false ∧
       (after .operatingPointChange g).boost = true ∧ (after .operatingPointChange r).boost = false ∧
       (List.range 16).all (fun n => n == 0 || !(g.part n).lease.held) = true ∧
       word32 (after (.leaseRevocation 4600001) g) 0x3000 = 3 ∧ ((after (.leaseRevocation 4600001) g).part 0).lease.notice = some 200000 ∧
       (let n := { after (.leaseRevocation 4600001) g with fcyc := 400000 }
        word32 (after (.leaseEnd 0) n) 0x3000 = 4 ∧ word32 (after (.leaseEnd 0) { n with fcyc := 399999 }) 0x3000 = 3) ∧
       word32 (after (.leaseRevocation 4600000) g) 0x3000 = 1 ∧
       word32 (after (.leaseEnd 0) { g with fcyc := 2000000 }) 0x3000 = 4 ∧ word32 (after (.leaseEnd 0) { g with fcyc := 1999999 }) 0x3000 = 1 ∧
       (g.part 0).lease.stuck = false) := by
  decide +kernel

theorem test_ports :
    (let p (z : Port) : State := { State.reset with ports := [(15, z)] }
     let on : Port := { Port.reset with en := true, up := true, nextRx := 7 }
     let s := p on
     (s.port 15).en = true ∧ (s.port 15).up = true ∧ s.hub.halted = false ∧
       ((after (.linkRetrainFail 15) s).port 15).down = true ∧ ((after (.linkRetrainFail 15) s).port 15).up = false ∧
       ((after (.fenlinkPortTrained 15) (p { on with up := false })).port 15).up = true ∧
       ((after (.fenlinkPortTrained 15) (p Port.reset)).port 15).up = false) := by
  decide +kernel

/-- A header: its CRC, SEQ 7, a TYPE and a DST. -/
def header (c : BitVec 16) (ty : Nat) (d : Nat := 0) : DWord :=
  BitVec.ofNat 64 (c.toNat + 7 * 2 ^ 16 + ty * 2 ^ 40 + d * 2 ^ 54)

theorem header_bytes (c : BitVec 16) (ty m : Nat) (h : ty < 16) (hm : m < 1024) :
    (leBytes 8 (header c ty m).toNat).drop 2 = (leBytes 8 (header 0 ty m).toNat).drop 2 := by
  have hc := c.isLt
  have e (d : BitVec 16) (hd : d.toNat < 2 ^ 16) : (header d ty m).toNat = d.toNat + (7 * 2 ^ 16 + ty * 2 ^ 40 + m * 2 ^ 54) := by
    unfold header; rw [BitVec.toNat_ofNat, Nat.mod_eq_of_lt (by omega)]; omega
  rw [e c hc, e 0 (by decide)]
  simp only [leBytes, List.drop_succ_cons, List.drop_zero, List.cons.injEq, and_true]
  have k : (c.toNat + (7 * 2 ^ 16 + ty * 2 ^ 40 + m * 2 ^ 54)) / 256 / 256 =
      ((0 : BitVec 16).toNat + (7 * 2 ^ 16 + ty * 2 ^ 40 + m * 2 ^ 54)) / 256 / 256 := by
    have : (0 : BitVec 16).toNat = 0 := rfl
    omega
  rw [k]
  simp

theorem header_good (ty m : Nat) (h : ty < 16) (hm : m < 1024) : ∃ c, flitCrc (header c ty m) 0 = (header c ty m).setWidth 16 := by
  refine ⟨flitCrc (header 0 ty m) 0, ?_⟩
  have e (c : BitVec 16) : (header c ty m).setWidth 16 = c := by
    apply BitVec.eq_of_toNat_eq
    have hc := c.isLt
    unfold header; rw [BitVec.toNat_setWidth, BitVec.toNat_ofNat, Nat.mod_eq_of_lt (a := _ + _) (by omega)]; omega
  rw [e]
  unfold flitCrc flitBytes
  rw [header_bytes _ _ _ h hm]

theorem header_fields (c : BitVec 16) (ty m : Nat) (h : ty < 16) (hm : m < 1024) :
    (header c ty m).toNat / 65536 % 65536 = 7 ∧ (header c ty m).toNat / 2 ^ 40 % 16 = ty ∧ (header c ty m).toNat / 2 ^ 54 = m := by
  have hc := c.isLt
  have e : (header c ty m).toNat = c.toNat + 7 * 2 ^ 16 + ty * 2 ^ 40 + m * 2 ^ 54 := by
    unfold header; rw [BitVec.toNat_ofNat, Nat.mod_eq_of_lt (by omega)]
  rw [e]
  refine ⟨?_, ?_, ?_⟩ <;> omega

/-- A flit that is delivered, one that is dropped, one out of order: the port waits for 7, the module's number is 0. -/
theorem test_flits : (∃ c, flitCrc (header c 2) 0 = (header c 2).setWidth 16 ∧ (header c 2).toNat / 65536 % 65536 = 7 ∧
      (header c 2).toNat / 2 ^ 40 % 16 = 2 ∧ (header c 2).toNat / 2 ^ 54 = State.reset.hub.flid.toNat) ∧
    (∃ c, flitCrc (header c 3) 0 = (header c 3).setWidth 16 ∧ (header c 3).toNat / 65536 % 65536 = 7 ∧ 3 ≤ (header c 3).toNat / 2 ^ 40 % 16) ∧
    (0x00060000 : DWord).toNat / 65536 % 65536 ≠ 7 := by
  refine ⟨?_, ?_, by decide⟩
  · obtain ⟨c, h⟩ := header_good 2 0 (by decide) (by decide)
    have f := header_fields c 2 0 (by decide) (by decide)
    exact ⟨c, h, f.1, f.2.1, f.2.2⟩
  · obtain ⟨c, h⟩ := header_good 3 0 (by decide) (by decide)
    have f := header_fields c 3 0 (by decide) (by decide)
    exact ⟨c, h, f.1, Nat.le_of_eq f.2.1.symm⟩

/-- A flit for another module: it is dropped when module 1 ends here, and sent on when it does not (log 17). -/
theorem test_flits_for_others : ∃ c, flitCrc (header c 1 1) 0 = (header c 1 1).setWidth 16 ∧ (header c 1 1).toNat / 65536 % 65536 = 7 ∧
    (header c 1 1).toNat / 2 ^ 40 % 16 = 1 ∧ (header c 1 1).toNat / 2 ^ 54 = 1 ∧ (1 : Nat) ≠ State.reset.hub.flid.toNat ∧
    Config.linkPort 1 % 16 < 16 := by
  obtain ⟨c, h⟩ := header_good 1 1 (by decide) (by decide)
  have f := header_fields c 1 1 (by decide) (by decide)
  exact ⟨c, h, f.1, f.2.1, f.2.2, by decide, by omega⟩

/-! ## Words and fragments that wait -/

theorem test_joins_split_and_wait :
    stands warp (.jset 0 1 1) none2 none2 1 = true ∧ who warp (fun c => c.effLanes 1 == 0 && c.p.joins.isEmpty) = true ∧
    stands (withJoins warp 7) (.jset 0 0 (-2)) none2 none2 = true ∧ who warp (fun c => decide (target c (-2) < 0)) = true ∧
    (let s := onParty (onFrag warp fun f => { f with lanes := 0xF }) fun p =>
       { p with joins := [{ id := 0, pc := 128, mask := 0xF, arrived := 0 }, { id := 1, pc := 64, mask := 0xFF, arrived := 0 }] }
     stands s (.join 0) none2 none2 = true ∧ who s (fun c => !resultsOut s c.key c.who c.f && c.f.lanes == 0xF &&
       (0xFF &&& c.p.live &&& ~~~(0 ||| c.f.lanes)) != 0 && decide (c.f.pc = 64)) = true) ∧
    (let s := onParty warp fun p => { p with joins := [{ id := 0, pc := 128, mask := 0xF, arrived := 0 }] }
     stands s (.join 0) none2 none2 = true ∧ who s (fun c => !resultsOut s c.key c.who c.f && decide (c.f.pc ≠ 128)) = true) := by
  decide +kernel

theorem test_pool_serves :
    (let s := onBlock (onFrag (onParty warp fun p => { p with win := 56 }) fun f => { f with wait := .regtake }) fun b =>
       { b with pool := 1, takers := [{ warp := 0, n := 1, at_ := 0 }] }
     (s.block? key).any (fun b => decide (b.place = .resident 0) && decide (b.takers = [{ warp := 0, n := 1, at_ := 0 }]) &&
       (b.party? (.warp 0)).isSome && b.pool == 1) = true ∧
       ((endVector s 0).block? key).any (fun b => b.takers.isEmpty && b.pool == 0) = true ∧
       ((endVector s 0).party? key (.warp 0)).any (fun p => p.win == 64) = true ∧
       (let t := onBlock s fun b => { b with pool := 0 }
        ((endVector t 0).block? key).any (fun b => b.takers.length == 1) = true)) := by
  decide +kernel

theorem test_l1_is_clean : warp.ms.l1Pois = [] ∧ l1Hit warp.ms 0 0xFFF0 16 = false := by
  decide +kernel

theorem test_barinit_is_held :
    (let s := setS (setS warp 2 0x7FFFC) 4 63
     let t := s.modMs fun ms => { ms with paths := [aPath (.scr key 0x7FFFD)] }
     stands t (.barinit 0 4 2 0) (sa.or sd) none2 = true ∧ barAt t 0 false = true ∧ who t (fun c => wordBusy t c.key 0x7FFFC) = true ∧
       who s (fun c => !wordBusy s c.key 0x7FFFC) = true) := by
  decide +kernel

/-- A mark of a `.sy` release of the warp, and a write that it covers. -/
def aMark (each : Bool) (ps : List Path) : SyMark :=
  { serial := 0, key := key, who := .warp 0, lanes := 0xFFFFFFFF, streams := 0xFFFF, each := each, paths := ps, obs := [] }

theorem test_fences_pass_and_hold :
    (let w := { warp with late := true }
     let s := queued w
     stands s (.fence 0 3 1 1 0) none2 none2 = true ∧ who s (fun c => !(streamsDone c s fun _ => true)) = true ∧ s.late = true ∧
       stands s (.xfence 0 1 0 21) none2 none2 = true) ∧
    (let s := warp.modMs fun ms => { ms with exports := [.write (aWrite 0x3000)] }
     allStand s [(.fence 0 2 4 1 0, none2, none2), (.xfence 0 4 0 1, none2, none2)] = true ∧
       who s (fun c => streamsDone c s (fun _ => true) && acquireDone c s fun _ => true) = true ∧
       (aMark true []).first (aWrite 0x3000) = true ∧ (aMark false []).first (aWrite 0x3000) = true) ∧
    (let s := warp.modMs fun ms => { ms with hostw := [aStore 1 0x3000, { aStore 2 0x3100 with done := true, before := [1] }],
                                             seen := [{ key := key, who := .warp 0, lanes := 1, stream := 0, id := 2 }] }
     stands s (.fence 0 3 4 1 0) none2 none2 = true ∧ who s (fun c => streamsDone c s (fun _ => true) && !acquireDone c s fun _ => true)
       = true) := by
  decide +kernel

theorem test_channel_is_steady :
    (let s := withBlock warp cpaWords
     steady s 0 7 = true ∧ steady (full s 7) 0 11 = true ∧ chanLoad s 0 7 = 0 ∧ chanLoad (full s 7) 0 7 = 16 ∧ (s.op? s.ms.serial).isNone
       = true) := by
  decide +kernel

theorem test_words_read_at_issue :
    (let s := onFrag warp fun f => { f with wait := .hold (.fence 0xFFFF 0 [] (List.replicate 16 5)) }
     stands s (.mbox 0 112) (RegSet.ss 112 16) none2 = true ∧ who s (fun c => !resultsOut s c.key c.who c.f &&
       streamsDone c s fun _ => true) = true) := by
  decide +kernel

theorem test_repeat_owes_a_load :
    (let w := 0x01040860
     let s := onFrag (behind warp w) fun f => { f with prg := mkPrg 7 0 57, prgpc := 64 }
     let t := match ctx? s with
       | some c => withAccesses s [accessOf s c c.f.lanes 0 .global 0 (some 0) (.load 4 false 61)]
       | none => s
     let j : Instr := .iadd 0 0 61 59 63 0
     followed t w = true ∧ stands t j (l3Reads 59 63 0) (RegSet.vs 61 1) = true ∧ calm t = true ∧
       who t (fun c => (RegSet.vs 61 1).meets (comingRegs t c.key c.who c.f.lanes)) = true) := by
  decide +kernel

/-! ## Accesses, engines and packets that wait -/

/-- A held access of lane 0 that issued before anAccess. -/
def aHeld : Access := { anAccess .global 0x4000 none (.store [1]) with held := some 3 }

theorem test_held_accesses_hold_back :
    (let a := { anAccess .global 0x3000 (some 0x3000) (.store [9]) with serial := 1 }
     let s := base.modMs fun ms => { ms with queue := [aHeld, a] }
     heldBefore s a.key a.who a.lanes a.stream a.serial = true ∧ a.held = none ∧ (after (.performAcc 1 false) s).ms.queue.length = 2 ∧
       (let t := base.modMs fun ms => { ms with queue := [a] }
        heldBefore t a.key a.who a.lanes a.stream a.serial = false ∧ atHead t.ms.queue 0 = true)) ∧
    (let s := (waits base (anAccess .global 0x3000 (some 0x3000) (.store [9]))).modMs fun ms => { ms with cb := [aPartial 1 0x3040] }
     lineHeld s.ms 0x3000 1 = true ∧ (after (.performAcc 0 false) s).ms.queue.length = 1) := by
  decide +kernel

theorem test_merges_ascend :
    (let r : RedEntry := { aRed 0x3000 with lane := 1 }
     let s := base.modMs fun ms => { ms with pool := [r, aRed 0x3000] }
     ((s.ms.pool.any fun y => y.serial == r.serial && decide (y.lane < r.lane) && wordsMeet y.va.toNat 4 r.va.toNat 4) = true) ∧
       (after (.mergeRed 0) s).ms.pool.length = 2 ∧ (after (.mergeRed 1) s).ms.pool.length = 1) ∧
    (let s := base.modMs fun ms => { ms with paths := [aPath (.hbm 0x3000)], cb := [aPartial 1 0x3040], redm := [aRed 0x3100] }
     lineHeld s.ms 0x3000 4 = true ∧ (after (.drainPath 0) s).ms.paths.length = 1 ∧ lineHeld s.ms 0x3100 4 = false ∧
       (s.ms.redm.all fun y => y.held.isNone) = true ∧ (after (.drainPath 1) s).ms.redm = []) ∧
    (let s := base.modMs fun ms => { ms with hostw := [aStore 1 0x3000] }
     wordsMeet 0x3000 2 0x3002 2 = true ∧ lineHeld s.ms 0x3000 2 = false ∧ base.hub.halted = false ∧
       (after (.hostCoreStore 31 true 0x3002 [1]) s).ms.hostw.length = 2 ∧ (after (.hostCoreStore 32 true 0x3002 [1]) s).ms.hostw.length = 1 ∧
       (after (.dmaRequest (some 0x3000) [1]) s).ms.hostw.length = 2) := by
  decide +kernel

theorem test_lamp_collects :
    (let s := (poke base 0x8000 (tableBytes 1)).modMs fun ms => { ms with cb := [aPartial 1 0x8048] }
     lineHeld s.ms 0x8040 64 = true ∧ (lampStep 0 0 0 1 0x8000 0 1600 160 none s).1.ms.cb = []) ∧
    lineHeld (poke base 0x8000 (tableBytes 1)).ms 0x8040 64 = false := by
  decide +kernel

theorem test_replies_wait_in_the_skid :
    (let s := (onFrag warp fun f => { f with out := vd }).modCluster 0 fun c => { c with frozen := true }
     who s (fun c => !stillComing s c (.v 4)) = true ∧ (s.cluster 0).skid.length < 1024 ∧
       ((after (.resultReturn ref0 (.v 4)) s).cluster 0).skid = [(ref0, .v 4)]) := by
  decide +kernel

theorem test_refill_finds_no_charge_to_pay :
    (let s := charging base (.chan 7 9) 65537
     (s.cluster 0).bal < 65537 ∧ ((after .currentBucketRefill s).cluster 0).charges.length = 1) ∧
    (let s := charging base (.chan 7 9) 16
     (after .currentBucketRefill s).fcyc = 1 ∧ ((after .currentBucketRefill s).cluster 0).charges = []) := by
  decide +kernel

theorem test_copies_go_word_by_word :
    (let o : EngOp := { op .running with charged := true, words := [0, 0, 0, 8, 0, 0, 0, 7] }
     let s := withRun warp o
     rowReads s o = true ∧ cpaRB o.words = 8 ∧ cpaRows o.words = 1 ∧ steady s 0 7 = true ∧
       (opCtx s 0 o).any (fun c => (match (wordPlaces c true false 2 (cpaGlobal o.words 0) s []).2 with
         | .ok l => decide (l = [0, 4])
         | _ => false) && !c.b.overlapsBar (cpaLocal o.words 0 0).toNat 8 && (match (elemRead c s .global (cpaGlobal o.words 0) 4).2 with
           | .ok _ => true
           | _ => false)) = true ∧
       (let t := after (.runElem 9) s
        (t.op? 9).any (fun e => e.2.word == 1 && e.2.st == .running) = true ∧
          ((after (.runElem 9) t).op? 9).any (fun e => e.2.word == 0 && e.2.st == .done) = true)) := by
  decide +kernel

theorem test_copies_wait_for_tiles :
    (let s := onTile (withRun warp { op .held with f := 2, waiting := true, words := [0, 0, 0x3000, 4, 0, 0, 0, 7] }) 3 fun y => { y with st := .full }
     let e := onTile s 3 fun y => { y with st := .empty }
     cpaTile [0, 0, 0x3000, 4, 0, 0, 0, 7] = 3 ∧ (s.block? key).any (fun b => (b.tile 3).st == .full) = true ∧
       ((after (.tileWaitResume key 3) s).op? 9).any (fun x => x.2.waiting) = true ∧
       ((after (.tileWaitResume key 3) e).op? 9).any (fun x => !x.2.waiting) = true) := by
  decide +kernel

theorem test_later_waves_may_go_first :
    (let s := onBlock base fun b => { b with waves := [{ due := 9, waiters := [] }, { due := 0, waiters := [] }] }
     runCluster s key = some 0 ∧ (s.cluster 0).cyc = 0 ∧
       ((after (.waveRelease key) s).block? key).any (fun b => decide (b.waves = [{ due := 9, waiters := [] }])) = true) := by
  decide +kernel

theorem test_answers_wait_for_halted_blocks :
    (let s := withFaults (onBlock base fun b => { b with halted := true }) [ofWarp true] 1
     openRecord s 0 5 = some (ofWarp true) ∧ (ofWarp true).target.key? = some key ∧ (s.block? key).any (fun b => b.halted) = true ∧
       ((after (.fresumeRetry 0 5) s).block? key).any (fun b => decide (b.answers = [(5, false)])) = true ∧
       ((after (.fresumeEndLaunch 0 5) s).block? key).any (fun b => decide (b.answers = [(5, true)])) = true) := by
  decide +kernel

theorem test_scrubs :
    scrubFinds base 5 .clean = .clean ∧ (base.ms.zlines = []) ∧ sectorBusy base 5 = false ∧ base.ms.badSect = [] ∧
    (let s := base.modMs fun ms => { ms with errs := [(5, true), (6, false)] }
     scrubFinds s 5 .clean = .corrected ∧ scrubFinds s 6 .clean = .uncorrectable ∧
       (after (.patrolScrub 6 .clean) s).ms.badSect = [6]) ∧
    (after (.patrolScrub (2 ^ 35) .uncorrectable) base).ms.badSect = [] := by
  decide +kernel

/-- A version of firmware accepts the layouts of its release: an image of another layout blocks it. -/
theorem test_images_block (h : Config.fwLayouts 0 = []) :
    (let s := poke (onBlock base fun b => { b with place := .image 0x20000 0x10000 }) 0x20004 [1]
     blockingLayout s 0 0 = some 1) := by
  have e : imageLayouts (poke (onBlock base fun b => { b with place := .image 0x20000 0x10000 }) 0x20004 [1]) 0 = [1] := by decide +kernel
  have v : BitVec.ofNat 32 (fieldAt (imgHeader (base.hub.flash 0)) 8 4) = 0 := by decide +kernel
  simp only [blockingLayout, e]
  have k : BitVec.ofNat 32 (fieldAt (imgHeader
      ((poke (onBlock base fun b => { b with place := .image 0x20000 0x10000 }) 0x20004 [1]).hub.flash 0)) 8 4) = 0 := by decide +kernel
  rw [k, h]
  decide

theorem test_hub_writes_find_words_free :
    (let s := hubMapped base
     lineHeld s.ms 0x3000 64 = false ∧ s.ms.exports = []) := by
  decide +kernel

theorem test_bundles_wait_for_their_blocks :
    (let s := { onLaunch (tasked base 1) (fun l => { l with started := false, first := 1 }) with blocks := [] }
     s.launches.all (fun l => firstWaits s l) = true ∧ (base.launches.all fun l => !firstWaits base l) = true ∧
       (after (.bundleStart 0 1) s).launches.all (fun l => !l.started) = true) := by
  decide +kernel

theorem test_replays_that_leave_entries :
    (let z : PeatEntry := { kind := 0, blk := 0, thread := 0, pc := 64, bank := 0, vals := [], used := false }
     let l : Launch := { probeLaunch with peat := [z], prefix_ := true }
     ((l.peat.any fun z => !z.used) && !l.fault) = true) := by
  decide +kernel

/-! ## Parties, cores of the hub die and registers -/

theorem test_completions_have_states :
    stands (withJoins warp 7) (.jset 0 0 1) none2 none2 = true ∧ who (withJoins warp 7) (fun c => c.effLanes 0 != 0 && c.p.joins.length == 7 &&
      decide (0 ≤ target c 1) && decide (target c 1 < 2 ^ 55)) = true ∧
    (let s := withJoins warp 8
     stands s (.join 0) none2 none2 = true ∧ who s (fun c => !resultsOut s c.key c.who c.f && c.p.joins.all fun x =>
       c.p.joins.all fun y => x.id != y.id || x.pc == y.pc) = true) ∧
    (let s := pendingToo base 1
     (s.cluster 0).frozen = false ∧ (longestReady s 0 0).any (fun e => e.1 == (key, 1) && decide (s.party? key (.warp 1) = some e.2)) = true ∧
       (warpsOf s 0 0 fun q => q.ws = .active).length < 8) ∧
    (let t := (onBlock (pendingToo base 1) fun b => { b with warps := lmod b.warps 0 fun p => { p with since := 5 } }).modCluster 0 fun c =>
       { c with cyc := 2565 }
     (exchangeOut t 0 0 (llthrOf t 0)).any (fun e => e.1 == (key, 0) && decide (t.party? key (.warp 0) = some e.2)) = true ∧
       ((after (.warpExchange 0 0) t).party? key (.warp 1)).any (fun p => p.ws == .active && p.since == 0) = true) ∧
    (let t := (pendingToo base 1 7).modCluster 0 fun c => { c with cyc := 40960 }
     (busiest t 0 0).any (fun e => e.1 == (key, 7) && decide (t.party? key (.warp 7) = some e.2)) = true ∧
       (longestReady t 0 0).any (fun e => e.1 == (key, 8) && e.2.since == 1) = true) ∧
    otherRuns.hub.halted = false ∧ phsw otherRuns 0 = true ∧ (otherRuns.part 0).expired = none ∧ (otherRuns.part 0).sliceEnd = 0 ∧
    (let s := onBlock base fun b => { b with halted := true, yr := true, dest := 0 }
     (s.block? key).any (fun b => (s.launch? 0 1).any fun l => decide (unitHere s l key = [b]) && b.dest != 2) = true ∧
       ((after (.forcedSave key) s).block? key).any (fun b => decide (b.place = .shadow 0) && !b.yr) = true ∧
       ((after (.blockYield key) s).block? key).all (fun b => b.answers.isEmpty) = true) ∧
    ((after (.preemptRequest 0 0x90000000) (base.modPart 0 fun q => { q with pretgt := 1 })).part 0).target = [key] ∧
    ((after (.energyApportion 256 7) base).cluster 256).em = 0 ∧
    ((after (.preemptRequest 16 0x90000000) base).part 16).prectl = 0 := by
  decide +kernel

theorem test_translations_wait_for_reads :
    (let s := (hubMapped base).modPart 0 fun q => { q with tlbictl := 0x80000000, tlbiva := 65535 }
     let w := waits s (anAccess .global 0x3000 (some 0x3000) (.load 4 false 7))
     let cov := tlbiOf w 0 0 0
     cov key = true ∧ (renewReads { w with ms := { w.ms with tlb := [] } } cov).2 = true ∧
       (renewReads { s with ms := { s.ms with tlb := [] } } cov).2 = false ∧
       (renewRows { s with ms := { s.ms with tlb := [] } } cov).2 = false ∧ ((after (.tlbiComplete 0) w).part 0).tlbiGo = true) ∧
    ((after (.tlbiAsid ⟨.host 0, 16⟩ 5) base).part 16).tlbictl = 0 := by
  decide +kernel

theorem test_a_halted_hub_writes_nothing :
    (let h := State.reset.modHub fun u => { u with halted := true, attgo := true }
     (after (.measextWrite 1) h).hub.meas = List.replicate 10 0 ∧ (after (.svnraiseWrite 3) h).hub.minsvn = 0 ∧
       ((after (.registerWrite (.host 0) 0x010000010008 5) h).part 0).llthr = 256 ∧ (after .attestation h).hub.attgo = true) ∧
    (after (.svnraiseWrite 3) State.reset).hub.minsvn = 3 ∧ State.reset.hub.attgo = false ∧
    (State.reset.modHub fun u => { u with attgo := true }).hub.meas.length = 10 ∧
    ((after (.registerWrite (.lantern 0) 0x010000000040 5) State.reset).hub) = State.reset.hub := by
  decide +kernel

theorem test_replies_wait_for_their_cluster :
    (let s := (calling (onFrag warp fun f => { f with wait := .sysc 7 }) (aCall (some 7)) 1).modCluster 0 fun c => { c with frozen := true }
     runCluster s key = none ∧ ((after (.scactReply 0 7) s).part 0).calls.all (fun c => c.reply.isSome) = true) := by
  decide +kernel

theorem test_step_runs_cores_of_the_hub :
    (let s : State := { (State.reset.setLantern 3 { HubCore.reset with sram := memWrite [] 0 (leBytes 4 0x00500093) }) with
       agenda := [.issue (.lantern 3) false] }
     s.hub.halted = false ∧ (match step s with
       | .next t => decide ((t.lantern 3).get 1 = 5) && decide ((t.lantern 3).pc = 4)
       | _ => false) = true) ∧
    (let s : State := { State.reset.modMs (fun ms => { ms with sys := memWrite ms.sys 0 (leBytes 4 0x00500093) }) with agenda := [.issue (.hart 31) false] }
     (match step s with
       | .next t => decide ((t.hart 31).get 1 = 5)
       | _ => false) = true) ∧
    (let s : State := { State.reset.modHub (fun u => { u with halted := true }) with agenda := [.event .currentBucketRefill] }
     (match step s with
      | .next t => t.fcyc == 0
      | _ => false) = true) := by
  decide +kernel

/-! ## Joins that complete, waits on tiles and tickets, elements of the engines -/

/-- Lanes 0xFFFF stand at the JOIN with the turn; the others wait at its record. -/
def joining : State :=
  onParty (withJoins warp 1) fun p =>
    { p with joins := p.joins.map (fun r => { r with arrived := 0xFFFF0000 }),
             frags := p.frags.flatMap fun f => [{ f with lanes := 0xFFFF }, { f with lanes := 0xFFFF0000, wait := .join 0 }] }
/-- The record that a JOIN meets has these lanes to come and these at it. -/
def atJoin (s : State) (P : Ctx → JoinRec → Bool) : Bool :=
  stands s (.join 0) none2 none2 && who s fun c => !resultsOut s c.key c.who c.f && c.p.joins.length == 1 &&
    c.p.joins.all fun r => decide (r.pc = c.f.pc) && (r.mask &&& c.f.lanes) != 0 && P c r
/-- The lanes and waits of the fragments of the turn's party. -/
def fragsOf (s : State) : List (Lanes × Wait) := ((s.party? key (.warp 0)).map fun p => p.frags.map fun f => (f.lanes, f.wait)).getD []

theorem test_joins_complete :
    (let last (c : Ctx) (r : JoinRec) : Bool := (r.mask &&& c.p.live &&& ~~~(r.arrived ||| (c.f.lanes &&& r.mask))) == 0
     atJoin joining last = true ∧ fragsOf (after (.join 0) joining) = [(0xFFFFFFFF, .run)] ∧
       (let s := onParty (withJoins warp 1) fun p => { p with joins := p.joins.map fun r => { r with mask := 0xFFFF } }
        atJoin s (fun c r => last c r && (atRecord c r).length == 2) = true ∧
          fragsOf (after (.join 0) s) = [(0xFFFF0000, .run), (0xFFFF, .run)]) ∧
       (let s := onParty joining fun p => { p with joins := p.joins.map fun r => { r with arrived := 0 } }
        atJoin s (fun c r => !last c r) = true ∧
          fragsOf (after (.join 0) s) = [(0xFFFF, .join 0), (0xFFFF0000, .join 0)])) := by
  decide +kernel

theorem test_fills_and_tickets_wait :
    (let s := tileIn (setV warp 6 fun L => BitVec.ofNat 32 L) 7 .full
     stands s (.tfill 0 0 7 4 6 0 0) (vd.or (RegSet.vs 6 1)) none2 = true ∧ tileIs s 7 .full = true ∧
       who s (fun c => c.b.mcc.isSome && c.effLanes 0 != 0) = true ∧
       fragsOf (after (.tfill 0 0 7 4 6 0 0) s) = [(0xFFFFFFFF, .tile 7)]) ∧
    (let s := withOp (setS warp 2 0x70000001) .done 1 none
     stands s (.tkq 0 4 2) sa (RegSet.ss 4 3) = true ∧
       who s (fun c => !c.b.badTicket 0x70000001 && decide (c.b.record? 0x70000001 = some (op .done))) = true) ∧
    (let s := onFrag (withOp (setS warp 2 9) .done 1 none) fun f => { f with wait := .hold (.ticket 0x70000001) }
     stands s (.tkw 0 2) sa none2 = true ∧
       who s (fun c => !c.b.badTicket 0x70000001 && c.b.complete 0x70000001 && !resultsOut s c.key c.who c.f) = true ∧
       fragsOf (after (.tkw 0 2) s) = [(0xFFFFFFFF, .run)]) := by
  decide +kernel

/-- The fragment waits to run element e of phase p of a macro of a class with these words. -/
def running (cls p e : Nat) (words : List Word) : State :=
  onFrag warp fun f => { f with prg := mkPrg cls p e, prgpc := 64, wait := .rows { aMacro words with cls := cls, redo := e } }
/-- RUN takes operation 3 for the fragment whose turn it is, as RunsNext says. -/
def runsNext (s : State) : Bool :=
  calm s && who s fun c => (s.op? 3).isNone && !(s.cluster c.cl).frozen && !c.b.halted &&
    (s.blocks.findSome? fun b => findFrag s b.key fun f => match f.wait with
      | .rows x => x.op = 3 && (x.cls == 3 || x.cls == 4 || x.cls == 5 || x.cls == 6)
      | _ => false).any fun d => decide (d.f = c.f) && decide (d.b = c.b) && decide (d.who = c.who)
/-- Does a place of an element pass, with the state unchanged? -/
def same {α : Type} (s : State) (x : State × Except Flt α) : Bool :=
  decide (x.1 = s) && (match x.2 with
    | .ok _ => true
    | .error _ => false)

theorem test_gathered_elements :
    (let w : List Word := [0x3000, 0, 0, 0x100, 2, 0]
     [3, 4].all (fun cls => [0, 1].all fun e =>
       let s := running cls 0 e w
       let t := after (.runElem 3) s
       runsNext s && gatN w == 2 && gatES w == 2 && who s (fun c => !scrPoisoned c.b (4 * e) 4 && !scrPoisoned c.b (0x100 + 2 * e) 2 &&
         !c.b.overlapsBar (0x100 + 2 * e) 2 && same s (elemRead c s (gatSpace w) (gatAddr w 0) 2) &&
         same s (elemWrite c s (gatSpace w) (gatAddr w 0) 2)) && t.ms.paths.length == 1 &&
         fragsOf t == [(0xFFFFFFFF, if e = 1 then .run else .charge { aMacro w with cls := cls, redo := e })]) = true) := by
  decide +kernel

theorem test_selected_elements :
    (let w : List Word := [0, 0, 0, 0, 0x3000, 0, 64, 0, 1, 0, 0, 0, 0, 0, 0, 0]
     [5, 6].all (fun cls => [(0, 3), (selW w, 30), (selW w, 31)].all fun x =>
       let s := running cls x.1 x.2 w
       runsNext s && decide (x.2 + 1 < selN w) && who s (fun c => same s (selRead c w x.2 s) &&
         same s (elemWrite c s (selSpace w 10) (pairAt w 4 + BitVec.ofNat 64 (x.2 / 32 * 4)) 4)) &&
         (after (.runElem 3) s).ms.paths.length == (if x.2 = 31 then 1 else 0)) = true) := by
  decide +kernel

/-- A running copy of a row of two words at 0x3000, in a direction, from or at a local address. -/
def aCpa (f : Nat) (at_ : Word) : EngOp := { op .running with charged := true, f := f, words := [0x3000, 0, at_, 8, 0, 0, 0, 7] }
/-- It is first on its channel, in its turn, of a block with a context. -/
def inTurn (s : State) (o : EngOp) : Bool :=
  opHome s 9 == 0 && steady s 0 o.ch && decide (otherHomes s key 0 o.ch = []) && (opCtx s 0 o).isSome &&
    (s.op? 9).any fun e => decide (e.2 = o) && !olderOpen e.1 o

theorem test_copies_of_every_direction :
    (let o := aCpa 1 0x100
     let s := onChannel (withRun warp o) 7
     inTurn s o = true ∧ (opCtx s 0 o).any (fun c => same s (wordPlaces c false true 2 0x3000 s []) && !scrPoisoned c.b 0x100 8) = true ∧
       ((after (.runElem 9) s).op? 9).any (fun e => e.2.word == 1 && !e.1.idem) = true) ∧
    (let o := aCpa 2 0x3000
     let s := onTile (onChannel (withRun warp o) 7) 3 fun y => { y with w3 := 2 }
     let t := after (.runElem 9) s
     let u := after (.runElem 9) t
     inTurn s o = true ∧ cpaTile o.words = 3 ∧ (opCtx s 0 o).any (fun c => same s (wordPlaces c true false 2 0x3000 s []) &&
         tileStep (c.b.tile 3) (tileComing c.b 3 + 2) == some true) = true ∧
       (t.op? 9).any (fun e => (e.1.tile 3).st == .filling && (e.1.tile 3).count == 0 && (e.1.chan 7).wpB == 4) = true ∧
       (u.op? 9).any (fun e => (e.1.tile 3).st == .full && (e.1.tile 3).count == 2 && (e.1.chan 7).wpB == 8) = true) := by
  decide +kernel

/-- A rank of a broadcast of 16385 words from rank 1, which is done; its charge has proceeded. -/
def aClv : EngOp := { op .running with charged := true, ch := 8, f := 3, words := [0, 0, 0, 0, 16385, 0x10003, 0, 0] }
/-- The collective: rank 1 had one word, 7, and zeros. -/
def aColl : Coll := { part := 0, grid := 1, group := 0, nth := 0, seed := 0, sent := [(1, [7])] }
/-- It runs. -/
def collective : State :=
  { onChannel (withRun (onLaunch warp fun l => { l with groups := [(0, 2, 0, 2, [])] }) aClv) 8 with colls := [aColl] }

/-- The rank's word of element k of chunk 0 has its place where the first page is mapped. -/
theorem clv_place {c : Ctx} {t : State} {k : Nat} (h : c.cl = 0 ∧ c.key.part = 0 ∧ c.l.lr.asid = 0) (ht : t.ms.tlb = [probeEntry])
    (hk : k < 16384) : elemWrite c t .global (pairAt aClv.words 2 + BitVec.ofNat 64 (k * 4)) 4 = (t, .ok (.hbm (k * 4))) := by
  obtain ⟨h1, h2, h3⟩ := h
  have e : (pairAt aClv.words 2 + BitVec.ofNat 64 (k * 4)).toNat = k * 4 := by
    have : pairAt aClv.words 2 = 0 := by decide
    rw [this]; simp; omega
  have f : tlbFind [probeEntry] 0 0 0 (k * 4) = some probeEntry := by
    have b : k * 4 < 65536 := by omega
    have m : tlbMatches [probeEntry] 0 0 0 (k * 4) = [probeEntry] := by
      refine List.filter_eq_self.2 fun e he => ?_
      rw [List.mem_singleton.1 he]
      simpa [probeEntry] using b
    rw [tlbFind, m]
    rfl
  have u : useEntry probeEntry (k * 4) false true false = .ok (k * 4) := by
    have m : (0 + (k * 4 - 0)) % 2 ^ 48 = k * 4 := by omega
    have b : ¬hbmEnd ≤ k * 4 := by
      have : 65536 ≤ hbmEnd := by decide
      omega
    simp only [useEntry, probeEntry, m, if_neg b]
    rfl
  simp only [elemWrite, resolve, addrCheck, e, Machine.translate, tlbPick, h1, h2, h3, ht, f, u]
  rw [if_neg (by omega), if_neg (by simp)]
  rfl
/-- Its word is what rank 1 left. -/
theorem clv_word (peers : List (Block × EngOp)) (t : State) (e : Nat) : clvElem aColl peers 0 0 2 aClv e t = (t, .ok ([7].getD e 0)) := by
  rfl
/-- The whole chunk is written. -/
theorem clv_chunk {c : Ctx} {s : State} (peers : List (Block × EngOp)) (h : c.cl = 0 ∧ c.key.part = 0 ∧ c.l.lr.asid = 0) (hs : s.ms.tlb = [probeEntry]) :
    (clvChunk aColl c peers 0 0 2 aClv s).2 = none := by
  have go (l : List Nat) (t : State) (ht : t.ms.tlb = [probeEntry]) (hl : ∀ k ∈ l, k < 16384) :
      (l.foldl (fun (x : State × Option (EngOp × Flt)) k =>
        match x with
        | (s, some f) => (s, some f)
        | (s, none) =>
          (match clvElem aColl peers 0 0 2 aClv (0 + k) s with
           | (s, .error f) => (s, some f)
           | (s, .ok v) =>
             (match elemWrite c s .global (pairAt aClv.words 2 + BitVec.ofNat 64 ((0 + k) * 4)) 4 with
              | (s, .error f) => (s, some (aClv, f))
              | (s, .ok l) =>
                (pathWrite s { path := .cl, op := aClv.id, key := aClv.key, who := aClv.who, lanes := aClv.lanes,
                               pos := (0 + k) * 4, loc := l, data := leBytes 4 v }, none)))) (t, none)).2 = none := by
    induction l generalizing t with
    | nil => rfl
    | cons k r ih =>
      simp only [List.foldl_cons, clv_word peers, Nat.zero_add, clv_place h ht (hl k (by simp))]
      simp only [Nat.zero_add] at ih
      exact ih _ ht fun x hx => hl x (by simp [hx])
  exact go (List.range 16384) s hs (by simp)

theorem test_collective_elements :
    inTurn collective aClv = true ∧ collective.coll? aClv = some aColl ∧ clvLinked collective [] = true ∧
    ((clvPeers collective aClv).all fun e => e.2.st != .held) = true ∧ 0 + 1 < chunks (clvElems aClv.words 3 2 * clvOut aClv.words 3) ∧
    (opCtx collective 0 aClv).any (fun c => c.cl == 0 && c.key.part == 0 && c.l.lr.asid == 0 && c.key.blk == 0 && c.l.aborts.isEmpty &&
      groupOf c.l 0 == some (2, 0, 2, [])) = true ∧ collective.ms.tlb = [probeEntry] ∧ clvGroup aClv.words = 0 ∧
    (let s := onLaunch collective fun l => { l with aborts := [(0, 0)] }
     inTurn s aClv = true ∧ (opCtx s 0 aClv).any (fun c => decide (((0 : Nat), (0 : Nat)) ∈ c.l.aborts)) = true ∧
       ((after (.runElem 9) s).op? 9).any (fun e => e.2.st == .failed && e.2.code == 0x30) = true) := by
  decide +kernel

theorem test_tables_of_a_bad_sector :
    (let s := (poke base 0x8000 (tableBytes 1)).modMs fun ms => { ms with badSect := [0x8000 / 32] }
     (match (lampStep 0 0 0 1 0x8000 0 1600 160 none s).2 with
      | .stop x => x.code == cECCU
      | _ => false) = true) ∧
    (match (lampStep 0 0 0 1 0x8000 0 1600 160 none (poke base 0x8000 (tableBytes 1))).2 with
     | .stop _ => false
     | _ => true) = true := by
  decide +kernel

theorem test_marks_that_stop_no_load :
    (let s := (atV warp 0x3000).modMs fun ms => { ms with l1Pois := [(0, 0xC00)] }
     stands s (.ldg 0 0 4 2 15 3 4) (RegSet.vs 2 2) vd = true ∧ l1Hit s.ms 0 0x3000 4 = true ∧
       passes s .global 0x3000 4 true false false (some 0x3000) = true ∧
       (after (.ldg 0 0 4 2 15 3 4) s).ms.queue.length = 32) ∧
    (let y := { anAccess .scratch 0x100 none (.store [1, 2, 3, 4]) with lanes := 0xFFFFFFFF }
     let s := waits (onBlock (atV warp 0x100) fun b => { b with scrPois := [0x40] }) y
     stands s (.lds 0 0 4 2 0 4) (RegSet.vs 2 2) vd = true ∧ y.va.toNat ≤ 4 * 0x40 ∧ 4 * 0x40 + 4 ≤ y.va.toNat + 4 ∧
       (after (.lds 0 0 4 2 0 4) s).ms.queue.length = 33) := by
  decide +kernel

theorem test_halted_events_are_resets : (Instr.moduleReset.wf = true ∧ encode? .moduleReset = none) := by
  decide +kernel

/-- Operands of a step without an encoding that name nothing of this machine. -/
theorem test_illformed_events :
    ((Instr.preemptRequest 16 0).wf || (Instr.energyApportion 256 0).wf || (Instr.queueReset 4096 0).wf || (Instr.channelPlaceFreed 256 0).wf ||
      (Instr.channelPlaceFreed 0 12).wf || (Instr.balancingExchange 4).wf || (Instr.linkRetrainFail 16).wf || (Instr.swaitWake 16).wf ||
      (Instr.hostCoreStore 32 false 0 [0]).wf || (Instr.patrolScrub (2 ^ 35) .clean).wf || (Instr.collectiveGroupAbort 0 64).wf ||
      (Instr.warpExchange 0 4).wf || (Instr.partctlWrite 16 .pq 0).wf || (Instr.blockEnd { part := 16, grid := 0, blk := 0 }).wf) = false ∧
    ((Instr.preemptRequest 15 0).wf && (Instr.energyApportion 255 0).wf && (Instr.queueReset 4095 0).wf && (Instr.channelPlaceFreed 255 11).wf &&
      (Instr.balancingExchange 3).wf && (Instr.linkRetrainFail 15).wf && (Instr.swaitWake 15).wf && (Instr.hostCoreStore 31 false 0 [0]).wf &&
      (Instr.patrolScrub (2 ^ 35 - 1) .clean).wf && (Instr.collectiveGroupAbort 0 63).wf && (Instr.warpExchange 0 3).wf) = true := by
  decide +kernel

theorem test_leases_boost :
    (let s := (hubMapped State.reset).modPart 0 fun q => { q with lease := { q.lease with pend := some (1000, 0x3000, 0) } }
     (after (.leaseDecision 0) (s.modHub fun u => { u with leaseQ := [0] })).boost = true) := by
  decide +kernel

/-! ## Words

A word of every encoding, put together from the fixed bits and the field positions that the opcode map gives (R51–R70, R367). -/

theorem test_words_0 : [
    (0x00000000, .nop 0), (0x01454A70, .iadd 0 1 5 18 39 0), (0x01EED069, .iaddSat 0 3 46 52 6 1 1), (0x02DAEE38, .isub 0 3 26 59 35 1),
    (0x02325D62, .isubSat 0 0 50 23 22 0 2), (0x039756CE, .iaddImm 0 2 23 21 718), (0x44EC5248, .imul 1 3 44 20 36 1),
    (0x44D4FA22, .imulh 1 3 20 62 34 0 2), (0x4556E512, .imad 1 21 46 20 18), (0x06F3A461, .imin 0 3 51 41 6 0 1),
    (0x06C7089B, .imax 0 3 7 2 9 1 1), (0x46DB2804, .iabs 1 3 27 10), (0x0623CC05, .iabsSat 0 0 35 51),
    (0x47FEDB30, .rndh 1 3 62 54 51 0), (0x48ECC698, .andL 1 3 44 49 41 1), (0x488AFEB1, .orL 1 2 10 63 43 0),
    (0x085C82CA, .xorL 0 1 28 32 44 1), (0x4868BDBB, .andn 1 1 40 47 27 1), (0x496E90C0, .shl 1 1 46 36 12 0),
    (0x496062E9, .shr 1 1 32 24 46 1), (0x095E83C2, .sar 0 1 30 32 60 0), (0x49A30BDB, .rol 1 2 35 2 61 1),
    (0x4AC31C14, .shlImm 1 3 3 7 20), (0x0A1C2094, .shrImm 0 0 28 8 20)].all
    (fun e : Nat × Instr => decodeTableWord 32 e.1 == some e.2) = true := by
  decide +kernel

theorem test_words_1 : [
    (0x4A013105, .sarImm 1 0 1 12 5), (0x4A786D8E, .rolImm 1 1 56 27 14), (0x4B9BBC00, .popc 1 2 27 47), (0x4BDAD801, .clz 1 3 26 54),
    (0x4B8E0402, .brev 1 2 14 1), (0x0C84AA00, .bfx 0 2 4 42 32 0 0), (0x0D190EAD, .bfi 0 6 16 58 45), (0x4E386BD5, .prmb 1 14 6 47 21),
    (0x0FA84086, .lea 0 2 40 16 8 0 6), (0x50C3A203, .icmp 1 3 0 3 40 32 0 3), (0x11ACE379, .sel 0 2 44 56 55 1 1),
    (0x12430003, .plog 0 1 3 0 0 3), (0x131D0000, .pmovGet 0 0 29), (0x53C09001, .pmovPut 1 3 36), (0x54C30180, .mov 1 3 3 24),
    (0x54460098, .movs 1 1 6 9), (0x55C50250, .movImm 1 3 5 592), (0x16C80004, .vsrd 0 3 8 4), (0x58073128, .fadd 1 0 7 12 18 1),
    (0x188B8291, .fsub 0 2 11 32 41 0), (0x18F41EEA, .fmul 0 3 52 7 46 1), (0x59A10BDF, .ffma 1 40 16 47 31),
    (0x5AEFD878, .fmin 1 3 47 54 7 1), (0x5A55E611, .fmax 1 1 21 57 33 0)].all
    (fun e : Nat × Instr => decodeTableWord 32 e.1 == some e.2) = true := by
  decide +kernel

theorem test_words_2 : [
    (0x1A59929A, .fscl 0 1 25 36 41 1), (0x5B832E59, .fcmp 1 2 3 11 37 1 1), (0x5BC94123, .hcmp2 1 3 2 1 16 18 0 3),
    (0x1C257800, .frnd 0 0 37 30 0), (0x1DD28500, .hadd2 0 3 18 33 16 0 0), (0x1D904541, .hmul2 0 2 16 17 20 0 0),
    (0x5D3F4C7E, .hmin2 1 0 63 19 7 1 1), (0x1DDB42E7, .hmax2 0 3 27 16 46 0 1), (0x1EF3846F, .hfma2 0 60 56 17 47),
    (0x5F0836A4, .hfma2Bf16 1 2 3 26 36), (0x203BF800, .exp2 0 0 59 62), (0x20B34801, .log2 0 2 51 18), (0x20B7B402, .rcp 0 2 55 45),
    (0x60D8B003, .rsq 1 3 24 44), (0x604BD804, .sqrt 1 1 11 54), (0x2070E005, .sin 0 1 48 56), (0x205DC806, .cos 0 1 29 50),
    (0x20C7C007, .tanh 0 3 7 48), (0x243C1292, .cvt 0 0 60 4 5 1 2), (0x25DB5FE8, .cvth2 0 3 27 23 62 1 0),
    (0x65322003, .cvth2Widen 1 0 50 8 1), (0x26140830, .cvtq 0 0 20 2 3), (0x66F86C61, .cvtd 1 3 56 27 6),
    (0x66F93C02, .mono 1 3 57 15 0)].all
    (fun e : Nat × Instr => decodeTableWord 32 e.1 == some e.2) = true := by
  decide +kernel

theorem test_words_3 : [
    (0x2635A423, .monoi 0 0 53 41 2), (0x27D70FB0, .dp4 0 3 23 3 59 0 0), (0x27CA127B, .dp8 0 3 10 4 39 1 1),
    (0x679521EC, .dp2h 1 2 21 8 30 1), (0x67E2602D, .dp4eE4m3 1 3 34 24 2 1), (0x27F9F83E, .dp4eE5m2 0 3 57 62 3 1),
    (0x67D443C7, .dp2hBf16 1 3 20 16 60 0), (0x68912CC1, .shfl 1 2 17 11 12 0 1), (0x69800000, .voteAny 1 2 0 0),
    (0x69420401, .voteAll 1 1 2 1), (0x29F80402, .voteBallot 0 3 56 1), (0x2AFE6803, .wred 0 3 62 26 3),
    (0x6A24C806, .wscan 1 0 36 50 2), (0x2B2A6C00, .matchL 0 0 42 27), (0x6CE91122, .brl 1 3 2691362), (0x2D272167, .jset 0 0 2564455),
    (0x2E759DB5, .lcall 0 1 3513781), (0x6F000000, .join 1), (0x6F000001, .lret 1), (0x30A27933, .ldg 0 2 34 30 4 3 3),
    (0x71F63272, .stg 1 3 54 12 9 3 2), (0x326FF302, .lds 0 1 47 60 12 2), (0x3357BA82, .sts 0 1 23 46 10 2),
    (0x3420B1B4, .ldc 0 0 32 44 6 3 4)].all
    (fun e : Nat × Instr => decodeTableWord 32 e.1 == some e.2) = true := by
  decide +kernel

theorem test_words_4 : [
    (0x759A0AC3, .atom 1 2 26 2 11 3), (0x362A33B4, .acas 0 0 42 12 14 3 0), (0x377060C2, .red 0 1 48 24 3 2),
    (0x3830F004, .redm 0 0 48 60 4), (0x79404010, .pfg 1 1 16 1), (0x3AC02320, .zline 0 3 8 12 2), (0x3CC70A01, .tfill 0 3 7 2 32 0 1),
    (0x3DC25508, .adrain 0 3 2 21 16 0), (0x8041A800, .rep 16 0 1 1 0 10), (0x8175449B, .limm 7685275), (0xC40B8158, .sadd 1 5 96 43),
    (0x840B3031, .ssub 0 5 76 6), (0xC5A41067, .saddImm 1 82 4 103), (0x86C56AA8, .smul 0 98 90 85), (0x86289202, .smulh 0 20 36 64 2),
    (0xC7AEF748, .sand 1 87 61 105), (0x87402DD9, .sor 0 32 11 59), (0x873BCE62, .sxor 0 29 115 76), (0x88F736C8, .sshl 0 123 77 89),
    (0xC80330C1, .sshr 1 1 76 24), (0x881FD35A, .ssar 0 15 116 107), (0x890FC018, .sshlImm 0 7 112 24),
    (0x89150517, .sshrImm 0 10 65 23), (0xC9C82A1D, .ssarImm 1 100 10 29)].all
    (fun e : Nat × Instr => decodeTableWord 32 e.1 == some e.2) = true := by
  decide +kernel

theorem test_words_5 : [
    (0x8AFAE368, .smin 0 125 56 109 0), (0xCA63930B, .smax 1 49 100 97 1), (0x8BD8B302, .scmp 0 108 44 96 2),
    (0xCC416D40, .ssel 1 32 91 40), (0xCD02D000, .smov 1 1 52), (0x8D6BFC01, .spopc 0 53 127), (0xCDCC9402, .sclz 1 102 37),
    (0xCEAC555E, .smovl 1 86 21854), (0xCE63717C, .smovh 1 49 29052), (0xCF6E0018, .srd 1 55 24), (0x8F00D11A, .swr 0 52 26),
    (0x905B6A43, .bra 0 5990979), (0x91320FD0, .brc 0 3 16 4048), (0xD2B72EA6, .call 1 12005030), (0x93000000, .ret 0),
    (0x94017800, .jmpi 0 94), (0x95000000, .exit 0), (0x96000000, .yield 0), (0xD6000001, .yieldLy 1), (0x97000273, .pause 0 627),
    (0xD801595E, .bar 1 86 350), (0x99937B90, .bara 0 73 94 912), (0x9AA0F0EB, .barw 0 80 60 235), (0xDBF51345, .barinit 1 122 68 837)].all
    (fun e : Nat × Instr => decodeTableWord 32 e.1 == some e.2) = true := by
  decide +kernel

theorem test_words_6 : [
    (0xDC000002, .gbar 1 2), (0x9D414961, .waitcmp 0 32 82 44 1), (0x9E00A003, .fence 0 2 4 0 3), (0x9F004110, .xfence 0 2 8 16),
    (0xA0189282, .sld 0 12 36 10 0 2), (0xE1790212, .sst 1 60 64 8 1 2), (0xA28833E3, .satom 0 68 12 15 2 3),
    (0xA30000C8, .reggive 0 200), (0xE4000051, .regtake 1 81), (0xE5C400C2, .aallocN 1 98 66), (0xA5820000, .aalloc 0 65),
    (0xE6014400, .afree 1 81), (0xE80D1000, .tcfg 1 6 68), (0xE909E000, .tld 1 4 120), (0xA9079001, .tst 0 3 100),
    (0xEA0C0000, .trel 1 6), (0xAB3A70C8, .mma 0 29 1 6 1 1 0 0 1), (0xAC69D448, .mmaq 0 52 7 2 4 0 1 0 0 1), (0xEDC00000, .azero 1 96),
    (0xAD488801, .ascale 0 36 34), (0xAE1A3008, .mred 0 13 12 1 0), (0xEF000000, .msync 1), (0xF0566000, .cpa 1 43 24 0),
    (0xF1940006, .cpwp 1 74 6)].all
    (fun e : Nat × Instr => decodeTableWord 32 e.1 == some e.2) = true := by
  decide +kernel

theorem test_words_7 : [
    (0xF201D000, .gth 1 116), (0xB2004801, .sct 0 18), (0xF3843800, .selq 1 66 14), (0xB3782801, .selk 0 60 10),
    (0xB4463002, .clv 0 35 12 2), (0xF5007800, .tkw 1 30), (0xF5773401, .tkq 1 59 77), (0xB63A0870, .vcall 0 29 2 14),
    (0xF6214061, .vforce 1 16 80 12), (0xB7000000, .vret 0), (0xF7006801, .vretQ 1 26), (0xF80030E1, .vlim 1 12 28 1),
    (0xF9B9F0E0, .vtag 1 92 124 28), (0xF90A4801, .vmeter 1 5 18), (0xFA001290, .trap 1 4752), (0xBB000002, .eret 0 1 0),
    (0xFB019DA9, .brk 1 40361), (0xFC00F004, .trace 1 120 4), (0xBD007800, .mbox 0 60), (0xBE00E198, .sysc 0 112 408),
    (0xFF007000, .leaseq 1 56), (0x01DB060B, .rfetch 29 22 12), (0x0105918B, .bfxt 16 11 3), (0x0026AE8B, .swait 2 13 29)].all
    (fun e : Nat × Instr => decodeTableWord 32 e.1 == some e.2) = true := by
  decide +kernel

theorem test_words_8 : [
    (0x0075B10B, .disp 7 11 2)].all
    (fun e : Nat × Instr => decodeTableWord 32 e.1 == some e.2) = true := by
  decide +kernel

/-! ## Limits on fields -/

/-- Terms that break one limit each (R48, R52–R70 and the rules of the words). -/
theorem test_illformed_0 : [
    .iaddSat 0 0 0 0 0 0 0, .iaddSat 0 0 0 0 0 0 3, .isubSat 0 0 0 0 0 0 3, .imulh 0 0 0 0 0 0 0, .lea 0 0 1 2 0 0 0,
    .lea 0 0 2 63 0 0 0, .icmp 0 0 2 0 0 0 0 0, .icmp 0 0 0 0 0 0 0 6, .vsrd 0 0 0 5, .fcmp 0 0 0 0 0 0 6, .hcmp2 0 0 0 1 0 0 0 0,
    .hcmp2 0 0 1 3 0 0 0 0, .hcmp2 0 0 1 1 0 0 0 6, .cvt 0 0 0 0 7 0 0, .cvt 0 0 0 0 0 7 0, .cvt 0 0 0 0 0 0 5, .cvth2Widen 0 0 1 0 0,
    .mono 0 0 0 0 3, .monoi 0 0 0 0 3, .ldg 0 0 0 0 0 0 7, .ldg 0 0 0 1 0 0 4, .ldg 0 0 1 0 0 0 5, .stg 0 0 0 0 0 0 1,
    .stg 0 0 0 1 0 0 0, .stg 0 0 1 0 0 0 5, .lds 0 0 0 1 0 4, .sts 0 0 0 0 0 3, .ldc 0 0 2 0 0 0 6, .atom 0 0 0 0 0 12,
    .atom 0 0 0 1 0 0, .atom 0 0 1 0 0 10, .acas 0 0 0 1 0 0 0].all (fun i : Instr => !i.wf) = true := by
  decide +kernel

/-- Terms that break one limit each (R48, R52–R70 and the rules of the words). -/
theorem test_illformed_1 : [
    .acas 0 0 1 0 0 0 0, .acas 0 0 2 0 0 0 1, .red 0 0 0 0 0 9, .red 0 0 0 1 0 0, .red 0 0 1 0 0 10, .redm 0 0 0 0 6, .redm 0 0 0 1 0,
    .pfg 0 0 1 0, .zline 0 0 1 0 0, .tfill 0 0 0 1 0 0 2, .adrain 0 0 1 0 0 2, .smulh 0 0 0 0 0, .scmp 0 0 0 0 6, .srd 0 0 27,
    .srd 0 0 40, .srd 0 1 0, .swr 0 0 0, .swr 0 1 14, .brc 0 6 0 0, .jmpi 0 1, .waitcmp 0 0 0 0 7, .waitcmp 0 0 1 0 0, .fence 0 0 0 0 0,
    .fence 0 1 5 0 0, .fence 0 1 0 1 1, .xfence 0 5 0 0, .xfence 0 0 22 0, .xfence 0 0 0 22, .sld 0 0 0 0 0 6, .sld 0 0 1 0 0 0,
    .sld 0 1 0 0 0 5, .sst 0 0 0 0 0 1].all (fun i : Instr => !i.wf) = true := by
  decide +kernel

/-- Terms that break one limit each (R48, R52–R70 and the rules of the words). -/
theorem test_illformed_2 : [
    .sst 0 0 1 0 0 0, .sst 0 1 0 0 0 5, .satom 0 0 1 0 0 0, .tcfg 0 0 2, .tld 0 0 1, .tld 0 0 124, .tst 0 0 1, .tst 0 0 124,
    .mred 0 0 0 3 0, .cpa 0 0 0 3, .cpa 0 0 1 0, .cpa 0 0 122 0, .cpwp 0 127 0, .gth 0 1, .gth 0 124, .sct 0 1, .sct 0 124, .selq 0 0 1,
    .selq 0 0 114, .selq 0 125 0, .selk 0 0 1, .selk 0 0 114, .selk 0 125 0, .clv 0 0 1 0, .clv 0 0 122 0, .tkq 0 126 0, .vcall 0 0 1 0,
    .vcall 0 0 0 16, .vforce 0 0 1 0, .vforce 0 0 0 16, .vlim 0 0 0 3, .vtag 0 0 1 0].all (fun i : Instr => !i.wf) = true := by
  decide +kernel

/-- Terms that break one limit each (R48, R52–R70 and the rules of the words). -/
theorem test_illformed_3 : [
    .vtag 0 125 0 0, .vmeter 0 124 0, .trace 0 1 0, .mbox 0 2, .mbox 0 116, .sysc 0 2 0, .sysc 0 124 0, .leaseq 0 2].all (fun i : Instr => !i.wf) = true := by
  decide +kernel

/-! ## Encodings and the whole machine -/

theorem test_round_trips_have_words : (Instr.iadd 0 1 2 3 4 1).wf = true ∧ (encode? (.iadd 0 1 2 3 4 1)).isSome = true ∧
    (encode? (.disp 1 2 3)).isSome = true ∧ decodeTableWord 32 0x01000000 = some (.iadd 0 0 0 0 0 0) := by
  decide +kernel

theorem test_parties_have_words :
    (match decodeWord 0xA8000000 with
     | .ok i => i.mccRuns && !i.warpRuns
     | .error _ => false) = true ∧
    who warp (fun c => !runsHere (.trel 0 3) c.who) = true ∧ (encode? (.trel 0 3)).isSome = true ∧ (Instr.trel 0 3).wf = true ∧
    who mcc (fun c => !runsHere (.iadd 0 0 0 0 0 0) c.who) = true := by
  decide +kernel

/-- The next move is an issue. -/
def moves (s : State) (a : Agent) : State := { s with agenda := [.issue a false] }

theorem test_step_runs_words :
    (let s := poke base 64 (leBytes 4 0x01000000)
     let x (w : Who) : Bool := match nextFrag s key w with
       | (t, some c) => decide (t = s) && (breakUnit t c).isNone && fetches t c 64 0x01000000 && c.f.pc == 64
       | _ => false
     settleEnded s = s ∧ newVector s 0 0 = s ∧ newVector s 0 4 = s ∧ pipeWarp s 0 0 = some (key, 0) ∧ readyMcc s 0 = some key ∧
       x (.warp 0) = true ∧ x .mcc = true ∧ pipeWarp s 0 1 = none ∧ readyMcc s 1 = none ∧
       (match step (moves s (.pipe 0 0)) with
        | .next t => t.blocks.all (fun b => b.warps.all fun p => p.frags.all fun f => f.pc == 68)
        | _ => false) = true) ∧
    (let s := moves (State.reset.setLantern 15 { HubCore.reset with sram := memWrite [] 0 (leBytes 4 0x0020818B) }) (.lantern 15)
     s.hub.halted = false ∧ (s.lantern 15).swait = none ∧ (match decodeLantern (leNat (memRead (s.lantern 15).sram 0 4)) with
       | .ok _ => true
       | .error _ => false) = true) ∧
    encode? .currentBucketRefill = none ∧ (match step { base with agenda := [.event .currentBucketRefill] } with
      | .next t => t.fcyc == 1 && decide (t.agenda = [])
      | _ => false) = true := by
  decide +kernel

theorem test_undecodable_words :
    (∃ e, decodeWord 0x0A000020 = .error e) ∧ (∃ e, decodeLantern 0x0000700B = .error e) ∧ 0x0000700B % 128 = 0x0B ∧
    (match step (moves (poke base 64 (leBytes 4 0x0A000020)) (.pipe 0 0)) with
     | .next t => t.blocks.all (fun b => b.warps.all fun p => p.frags.all fun f => f.pc == 64 && f.wait != .run)
     | _ => false) = true ∧
    (match step (moves (State.reset.setLantern 15 { HubCore.reset with sram := memWrite [] 0 (leBytes 4 0x0000700B) }) (.lantern 15)) with
     | .next t => (t.lantern 15).mcause == 2
     | _ => false) = true := by
  refine ⟨⟨_, rfl⟩, ⟨_, rfl⟩, ?_⟩
  decide +kernel

theorem test_step_keeps_memory : memWf base = true ∧ (∃ t, step base = .next t) := by
  refine ⟨by decide +kernel, ?_⟩
  have h : (match step base with | .next _ => true | _ => false) = true := by decide +kernel
  revert h
  cases step base with
  | next t => exact fun _ => ⟨t, rfl⟩
  | fault f => exact fun h => Bool.noConfusion h
  | refused r => exact fun h => Bool.noConfusion h

/-- The probe of an encoded word: the very next step after reset runs it. -/
theorem test_fetch_word :
    (match step (State.reset.withFetchWord 32 0x01000000) with
     | .next t => t.blocks.all (fun b => b.warps.all fun p => p.frags.all fun f => f.pc == 68)
     | _ => false) = true := by
  decide +kernel

/-- Words with one reserved value or bit (R70, R79, R80, R85–R88). -/
theorem test_reserved_words : [0x10080000, 0x100C0000, 0x10000006, 0x10000007, 0x10100000, 0x12040000, 0x12001000, 0x12000040, 0x12000008,
    0x13000400, 0x13000010, 0x13000008, 0x13010001, 0x13000011, 0x13000009, 0x0A000020, 0x0A000200, 0x11000004, 0x0B000010, 0x0B000008].all
    (fun w => decodeTableWord 32 w == none) = true := by
  decide +kernel

end Sys2Proof.Tests
end

section
/-! O56. A party that meets a word it does not run raises ILLOP, but the fault of a macro-instruction carries the element that its
progress state names (R39, R336). -/
namespace Sys2Proof.Machine
open Sys2Proof

/-! ## A word of another party -/

/-- R52, R71: ILLOP comes before any other fault, marked with the element at which the body issues. -/
theorem issue_not_run {i : Instr} {s : State} {c : Ctx} (sw : BitVec 1) (b : Body) (hc : ctx? s = some c)
    (hr : runsHere i c.who = false) :
    issue i sw b s = .next (raiseAll c (b.mark { c with sw := sw == 1 } (flt cILLOP)) s) := by
  have hi : issueAt c i (sw == 1) b s = raiseAll c (b.mark { c with sw := sw == 1 } (flt cILLOP)) s := by
    simp only [issueAt, hr, Bool.and_false, Bool.not_false, Bool.true_or, if_true]
    rfl
  simp only [issue, hc, hi]

/-- R69: TLD at a party that does not run it, at the element where it would resume. -/
theorem tld_not_run {s : State} {c : Ctx} {sw : BitVec 1} {t : BitVec 3} {a : BitVec 7} (hc : ctx? s = some c)
    (hr : runsHere (.tld sw t a) c.who = false) :
    exec (.tld sw t a) s = .next (raiseAll c (fltAt cILLOP (resumeElem clTLD c)) s) :=
  issue_not_run sw (bTld t a) hc hr

/-! ## The record of a fault that no handler takes (R319) -/

theorem ctx_launch {s : State} {c : Ctx} (h : ctx? s = some c) : s.launch? c.key.part c.key.grid = some c.l := by
  unfold ctx? at h
  split at h
  · unfold ctxAt at h
    repeat' split at h
    all_goals cases h
    assumption
  · cases h

theorem addRecord_faults (s : State) (p : Nat) (mk : Word → FaultRec) :
    ((addRecord s p mk).part p).faults = (s.part p).faults ++ [mk (s.part p).nextSeq] := by
  rw [addRecord, modPart_part_same]

@[simp] theorem tryEnter_part (s : State) (k : Key) (w : Who) (n : Nat) : (tryEnter s k w).part n = s.part n := by
  unfold tryEnter
  repeat' split
  all_goals rfl

theorem park_faults {s : State} {k : Key} {w : Who} {i : Nat} {l : Launch} {p : Party} {g : Frag}
    (hl : s.launch? k.part k.grid = some l) (hh : handlerOf l w = 0) (hp : s.party? k w = some p) (hg : p.frags[i]? = some g)
    (m : Lanes) (f : Flt) (timm : BitVec 16) (pfx : Bool) (ret : Addr) :
    ∃ r : FaultRec, r.elem = f.elem ∧
      ((park s k w i m f timm pfx ret).part k.part).faults = (s.part k.part).faults ++ [r] := by
  simp only [park, hl, hp, hg, hh, Option.bind_some, Option.map_some, beq_self_eq_true, Bool.or_true, Bool.true_or, if_true]
  rw [addRecord_faults]
  exact ⟨_, rfl, rfl⟩

theorem raiseAll_faults {s : State} {c : Ctx} {l : Launch} {p : Party} {g : Frag}
    (hl : s.launch? c.key.part c.key.grid = some l) (hh : handlerOf l c.who = 0) (hp : s.party? c.key c.who = some p)
    (hg : p.frags[c.i]? = some g) (f : Flt) :
    ∃ r : FaultRec, r.elem = f.elem ∧
      ((raiseAll c f s).part c.key.part).faults = (s.part c.key.part).faults ++ [r] := by
  rw [raiseAll, raise, tryEnter_part]
  exact park_faults hl hh hp hg _ f _ _ _

theorem outside_launches {s t : State} (h : t.outside = s.outside) : t.launches = s.launches := by
  have : t.outside.launches = s.outside.launches := by rw [h]
  exact this

theorem outside_parts {s t : State} (h : t.outside = s.outside) : t.parts = s.parts := by
  have : t.outside.parts = s.outside.parts := by rw [h]
  exact this

/-- Where no handler takes the fault, its record tells the elements of two faults apart: a word raises one of them only. -/
theorem Raises.elem_eq {s : State} {c : Ctx} {i : Instr} {f g : Flt} (hc : ctx? s = some c) (hh : handlerOf c.l c.who = 0)
    (he : exec i s = .next (raiseAll c f s)) (h : Raises s c i g) : f.elem = g.elem := by
  obtain ⟨u, ho, hb, -, hu⟩ := h
  have hin := ctx_in hc
  have hl := ctx_launch hc
  have hul : u.launch? c.key.part c.key.grid = some c.l := by
    rw [← hl, State.launch?, State.launch?, outside_launches ho]
  have hup : u.party? c.key c.who = some c.p := by
    rw [← hin.party, State.party?, State.party?, State.block?, State.block?, hb]
  have huf : u.part c.key.part = s.part c.key.part := by rw [State.part, State.part, outside_parts ho]
  obtain ⟨x, hx, hsx⟩ := raiseAll_faults hl hh hin.party hin.frag f
  obtain ⟨y, hy, huy⟩ := raiseAll_faults hul hh hup hin.frag g
  have same : raiseAll c f s = raiseAll c g u := by
    rw [he] at hu
    exact Host.Outcome.next.inj hu
  rw [same, huy, huf, List.append_cancel_left_eq, List.cons.injEq] at hsx
  rw [← hx, ← hy, hsx.1]

/-! ## The counterexample -/

/-- A warp without a handler at a PC that its PRG names, class TLD and element 5, as software may write it (R42). -/
def warpInTld : State :=
  { State.reset.withFetchWord 32 0 with turn := .frag { part := 0, grid := 1, blk := 0 } (.warp 0) 0 }.modFrag
    { part := 0, grid := 1, blk := 0 } (.warp 0) 0 fun f => { f with prg := mkPrg clTLD 0 5, prgpc := f.pc.setWidth 64 }

theorem warpInTld_context : ∃ c, ctx? warpInTld = some c ∧ c.who = .warp 0 ∧ handlerOf c.l c.who = 0 ∧ resumeElem clTLD c = 5 := by
  have h : (ctx? warpInTld).any (fun c => decide (c.who = .warp 0 ∧ handlerOf c.l c.who = 0 ∧ resumeElem clTLD c = 5)) = true := by
    decide +kernel
  obtain ⟨c, hc, h⟩ := (Option.any_eq_true _ _).1 h
  exact ⟨c, hc, of_decide_eq_true h⟩

/-- Refutes O56: a warp at whose PC the progress state of a TLD stands at element 5 meets the word `TLD t0, s0` (0xA9000000),
which it does not run (R69). The ILLOP it raises names element 5, not the plain fault of element 0 that the statement asks for, and
its record shows it. -/
theorem not_wordsOfEachParty : ¬ Obligations.WordsOfEachParty := by
  unfold Obligations.WordsOfEachParty
  rintro ⟨-, illop⟩
  obtain ⟨c, hc, hw, hh, he⟩ := warpInTld_context
  have hr : runsHere (.tld 0 0 0) c.who = false := by rw [hw]; rfl
  have raised := illop warpInTld c (.tld 0 0 0) 0xA9000000 hc rfl rfl rfl hr
  have elem := raised.elem_eq hc hh (tld_not_run hc hr)
  rw [he] at elem
  exact absurd elem (by decide)

end Sys2Proof.Machine
end

section
/-! SUPPORT. The words of the lane formats: where their fields stand, and what the decoder makes of the majors 0x07 to 0x0B,
0x10 to 0x13 and 0x16. -/
namespace Sys2Proof.Machine
open Sys2Proof

/-! ## Candidates of a major (R70) -/

/-- A word no candidate of which stands is refused (R70). -/
theorem firstOf_refuses {cls op : Nat} {l : List (Option Instr)} (h : ∀ x ∈ l, x = none) :
    firstOf cls op l = .error (.reservedField cls op) := by
  induction l with
  | nil => rfl
  | cons x r ih =>
    obtain rfl := h x List.mem_cons_self
    exact ih fun y hy => h y (List.mem_cons_of_mem _ hy)

/-- An instruction outside its limits is no candidate. -/
theorem okIf_illformed {i : Instr} (h : i.wf = false) (c : Bool) : okIf c i = none := by
  rw [okIf, h, Bool.and_false]; rfl

/-- A first candidate within its limits is the instruction. -/
theorem firstOf_wellformed {cls op : Nat} {i : Instr} (h : i.wf = true) (r : List (Option Instr)) :
    firstOf cls op (okIf true i :: r) = .ok i := by
  rw [okIf, h]; rfl

/-! ## Fields of a word (R51, R55) -/

theorem toNat_ne_zero {n : Nat} {x : BitVec n} (h : x ≠ 0) : x.toNat ≠ 0 := by
  simpa [← BitVec.toNat_inj] using h

theorem fld_eq {w lo n : Nat} {x : BitVec n} (h : bitsAt w lo n = x.toNat) : fld w lo n = x := by
  simp [fld, h]

/-- A field above the low k bits of a sum reads the part above. -/
theorem bitsAt_above {y k : Nat} (hy : y < 2 ^ k) (x lo n : Nat) : bitsAt (x * 2 ^ k + y) (k + lo) n = bitsAt x lo n := by
  have : (x * 2 ^ k + y) / 2 ^ k = x := by
    rw [Nat.add_comm, Nat.add_mul_div_right _ _ (Nat.two_pow_pos k), Nat.div_eq_of_lt hy, Nat.zero_add]
  rw [bitsAt, Nat.pow_add, ← Nat.div_div_eq_div_mul, this, bitsAt]

/-- A field within the low k bits of a sum reads the part below. -/
theorem bitsAt_below {k lo n : Nat} (h : lo + n ≤ k) (x y : Nat) : bitsAt (x * 2 ^ k + y) lo n = bitsAt y lo n := by
  obtain ⟨m, rfl⟩ := Nat.exists_eq_add_of_le h
  have e : x * 2 ^ (lo + n + m) = 2 ^ lo * (2 ^ n * (x * 2 ^ m)) := by
    rw [Nat.pow_add, Nat.pow_add]; ac_rfl
  rw [bitsAt, e, Nat.mul_add_div (Nat.two_pow_pos lo), Nat.mul_add_mod, bitsAt]

/-- An L-class word by its fields, those of D, A and the bits below A as numbers (R55). -/
def laneWord (major : Nat) (sw : BitVec 1) (g : BitVec 2) (d a low : Nat) : Nat :=
  major * 2 ^ 24 + put sw 30 + put g 22 + d * 2 ^ 16 + a * 2 ^ 10 + low

/-- The ten bits below A of an L3 word: B, U and F (R55). -/
def l3Low (b u f : Nat) : Nat := b * 2 ^ 4 + u * 2 ^ 3 + f

/-- The word of format L3 with the numbers of its fields added up. -/
def l3Nat (sw : BitVec 1) (g : BitVec 2) (major d a b u f : Nat) : Nat :=
  major * 2 ^ 24 + put sw 30 + put g 22 + d * 2 ^ 16 + a * 2 ^ 10 + b * 2 ^ 4 + u * 2 ^ 3 + f

theorem l3Low_lt {b u f : Nat} (hb : b < 64) (hu : u < 2) (hf : f < 8) : l3Low b u f < 1024 := by
  rw [l3Low]; omega

theorem l3Low_of_ne {b : BitVec 6} {u : BitVec 1} (h : b ≠ 0 ∨ u ≠ 0) (f : Nat) : 8 ≤ l3Low b.toNat u.toNat f := by
  have := h.imp toNat_ne_zero toNat_ne_zero
  rw [l3Low]; omega

/-- The fields of an L-class word are at their places. -/
structure LaneWord (w major : Nat) (sw : BitVec 1) (g : BitVec 2) (d a low : Nat) : Prop where
  cls : bitsAt w 31 1 = 0
  op : bitsAt w 24 6 = major
  sw : fld w 30 1 = sw
  g : fld w 22 2 = g
  atD : ∀ j n, j + n ≤ 6 → bitsAt w (16 + j) n = bitsAt d j n
  atA : ∀ j n, j + n ≤ 6 → bitsAt w (10 + j) n = bitsAt a j n
  atLow : ∀ j n, j + n ≤ 10 → bitsAt w j n = bitsAt low j n
  atTail : ∀ j n, j + n ≤ 16 → bitsAt w j n = bitsAt (a * 2 ^ 10 + low) j n

theorem LaneWord.decode {w major d a low : Nat} {sw : BitVec 1} {g : BitVec 2} (h : LaneWord w major sw g d a low) :
    decodeWord w = decodeL major w := by
  rw [decodeWord, h.cls, h.op]; rfl

theorem LaneWord.fld_d {w major a low : Nat} {sw : BitVec 1} {g : BitVec 2} {d : BitVec 6}
    (h : LaneWord w major sw g d.toNat a low) : fld w 16 6 = d :=
  fld_eq (by rw [h.atD 0 6 (by decide), bitsAt]; omega)

theorem LaneWord.fld_a {w major d low : Nat} {sw : BitVec 1} {g : BitVec 2} {a : BitVec 6}
    (h : LaneWord w major sw g d a.toNat low) : fld w 10 6 = a :=
  fld_eq (by rw [h.atA 0 6 (by decide), bitsAt]; omega)

theorem LaneWord.fld_b {w major d a f : Nat} {sw : BitVec 1} {g : BitVec 2} {b : BitVec 6} {u : BitVec 1}
    (h : LaneWord w major sw g d a (l3Low b.toNat u.toNat f)) (hf : f < 8) : fld w 4 6 = b :=
  fld_eq (by rw [h.atLow 4 6 (by decide), bitsAt, l3Low]; omega)

theorem LaneWord.fld_u {w major d a f : Nat} {sw : BitVec 1} {g : BitVec 2} {b : BitVec 6} {u : BitVec 1}
    (h : LaneWord w major sw g d a (l3Low b.toNat u.toNat f)) (hf : f < 8) : fld w 3 1 = u :=
  fld_eq (by rw [h.atLow 3 1 (by decide), bitsAt, l3Low]; omega)

theorem LaneWord.at_f {w major d a b u f : Nat} {sw : BitVec 1} {g : BitVec 2}
    (h : LaneWord w major sw g d a (l3Low b u f)) (hf : f < 8) : bitsAt w 0 3 = f := by
  rw [h.atLow 0 3 (by decide), bitsAt, l3Low]; omega

theorem LaneWord.all_low {w major d a low : Nat} {sw : BitVec 1} {g : BitVec 2} (h : LaneWord w major sw g d a low)
    (hl : low < 1024) : bitsAt w 0 10 = low := by
  rw [h.atLow 0 10 (by decide), bitsAt]; omega

theorem laneWord_fields (sw : BitVec 1) (g : BitVec 2) {major d a low : Nat} (hm : major < 64) (hd : d < 64) (ha : a < 64)
    (hl : low < 1024) : LaneWord (laneWord major sw g d a low) major sw g d a low := by
  have hsw := sw.isLt
  have hg := g.isLt
  have above_d : laneWord major sw g d a low =
      ((sw.toNat * 2 ^ 6 + major) * 2 ^ 2 + g.toNat) * 2 ^ 22 + (d * 2 ^ 16 + a * 2 ^ 10 + low) := by
    simp only [laneWord, put]; omega
  have at_d : laneWord major sw g d a low =
      (((sw.toNat * 2 ^ 6 + major) * 2 ^ 2 + g.toNat) * 2 ^ 6 + d) * 2 ^ 16 + (a * 2 ^ 10 + low) := by
    rw [above_d]; omega
  have at_a : laneWord major sw g d a low =
      ((((sw.toNat * 2 ^ 6 + major) * 2 ^ 2 + g.toNat) * 2 ^ 6 + d) * 2 ^ 6 + a) * 2 ^ 10 + low := by
    rw [at_d]; omega
  refine ⟨?_, ?_, fld_eq ?_, fld_eq ?_, fun j n h => ?_, fun j n h => ?_, fun j n h => ?_, fun j n h => ?_⟩
  · rw [above_d, bitsAt]; omega
  · rw [above_d, bitsAt]; omega
  · rw [above_d, bitsAt]; omega
  · rw [above_d, bitsAt]; omega
  · rw [at_d, bitsAt_above (by omega), bitsAt_below h]
  · rw [at_a, bitsAt_above hl, bitsAt_below h]
  · rw [at_a, bitsAt_below h]
  · rw [at_d, bitsAt_below h]

/-- The operands of a word of format L3 whose D is a lane register (R55). -/
structure L3Word (w major : Nat) (sw : BitVec 1) (g : BitVec 2) (d a b : BitVec 6) (u : BitVec 1) (f : Nat) : Prop where
  decode : decodeWord w = decodeL major w
  sw : fld w 30 1 = sw
  g : fld w 22 2 = g
  d : fld w 16 6 = d
  a : fld w 10 6 = a
  b : fld w 4 6 = b
  u : fld w 3 1 = u
  f : bitsAt w 0 3 = f

theorem l3Word_fields {major f : Nat} (hm : major < 64) (hf : f < 8) (sw : BitVec 1) (g : BitVec 2) (d a b : BitVec 6) (u : BitVec 1) :
    L3Word (laneWord major sw g d.toNat a.toNat (l3Low b.toNat u.toNat f)) major sw g d a b u f :=
  have h := laneWord_fields sw g hm d.isLt a.isLt (l3Low_lt b.isLt u.isLt hf)
  ⟨h.decode, h.sw, h.g, h.fld_d, h.fld_a, h.fld_b hf, h.fld_u hf, h.at_f hf⟩

theorem l3Nat_eq (sw : BitVec 1) (g : BitVec 2) (major d a b u f : Nat) :
    l3Nat sw g major d a b u f = laneWord major sw g d a (l3Low b u f) := by
  simp only [l3Nat, laneWord, l3Low]; omega

theorem l3Nat_fields (sw : BitVec 1) (g : BitVec 2) {major d a b u f : Nat} (hm : major < 64) (hd : d < 64) (ha : a < 64) (hb : b < 64)
    (hu : u < 2) (hf : f < 8) : LaneWord (l3Nat sw g major d a b u f) major sw g d a (l3Low b u f) := by
  rw [l3Nat_eq]
  exact laneWord_fields sw g hm hd ha (l3Low_lt hb hu hf)

/-! ## Majors 0x07 to 0x0B and 0x11 by their low bits (R78–R80, R84, R86) -/

section
variable {w f : Nat} {sw : BitVec 1} {g : BitVec 2} {d a b : BitVec 6} {u : BitVec 1}

theorem L3Word.decode_hash (h : L3Word w 0x07 sw g d a b u f) :
    decodeWord w = firstOf 0 7 [okIf (f == 0) (.rndh sw g d a b u)] := by
  rw [h.decode]
  show decodeL07 w = _
  simp only [decodeL07, h.sw, h.g, h.d, h.a, h.b, h.u, h.f]

theorem decode_rndh (sw : BitVec 1) (g : BitVec 2) (d a b : BitVec 6) (u : BitVec 1) :
    decodeWord (l3Nat sw g 0x07 d.toNat a.toNat b.toNat u.toNat 0) = .ok (.rndh sw g d a b u) := by
  rw [l3Nat_eq]
  exact (l3Word_fields (by decide) (by decide) sw g d a b u).decode_hash

theorem L3Word.decode_logic (h : L3Word w 0x08 sw g d a b u f) :
    decodeWord w = firstOf 0 8 [okIf (f == 0) (.andL sw g d a b u), okIf (f == 1) (.orL sw g d a b u),
      okIf (f == 2) (.xorL sw g d a b u), okIf (f == 3) (.andn sw g d a b u)] := by
  rw [h.decode]
  show decodeL08 w = _
  simp only [decodeL08, h.sw, h.g, h.d, h.a, h.b, h.u, h.f]

theorem L3Word.decode_shift (h : L3Word w 0x09 sw g d a b u f) :
    decodeWord w = firstOf 0 9 [okIf (f == 0) (.shl sw g d a b u), okIf (f == 1) (.shr sw g d a b u),
      okIf (f == 2) (.sar sw g d a b u), okIf (f == 3) (.rol sw g d a b u)] := by
  rw [h.decode]
  show decodeL09 w = _
  simp only [decodeL09, h.sw, h.g, h.d, h.a, h.b, h.u, h.f]

theorem L3Word.decode_select (h : L3Word w 0x11 sw g d a b u f) :
    decodeWord w = firstOf 0 17 [okIf (f / 4 == 0) (.sel sw g d a b u (BitVec.ofNat 2 f))] := by
  have hf : w / 2 ^ 0 % 2 ^ 3 = f := h.f
  have zero : bitsAt w 2 1 = f / 4 := by rw [bitsAt]; omega
  have p : fld w 0 2 = BitVec.ofNat 2 f := fld_eq (by rw [bitsAt, BitVec.toNat_ofNat]; omega)
  rw [h.decode]
  show decodeL11 w = _
  simp only [decodeL11, h.sw, h.g, h.d, h.a, h.b, h.u, zero, p]

theorem LaneWord.decode_shiftImm {low : Nat} (h : LaneWord w 0x0A sw g d.toNat a.toNat low) (hl : low < 1024) :
    decodeWord w = firstOf 0 10 [okIf (low / 32 == 0) (.shlImm sw g d a (BitVec.ofNat 5 low)),
      okIf (low / 32 == 4) (.shrImm sw g d a (BitVec.ofNat 5 low)), okIf (low / 32 == 8) (.sarImm sw g d a (BitVec.ofNat 5 low)),
      okIf (low / 32 == 12) (.rolImm sw g d a (BitVec.ofNat 5 low))] := by
  have op : bitsAt w 5 5 = low / 32 := by rw [h.atLow 5 5 (by decide), bitsAt]; omega
  have count : fld w 0 5 = BitVec.ofNat 5 low := fld_eq (by rw [h.atLow 0 5 (by decide), bitsAt, BitVec.toNat_ofNat]; omega)
  rw [h.decode]
  show decodeL0A w = _
  simp only [decodeL0A, h.sw, h.g, h.fld_d, h.fld_a, op, count]

/-- The operation of a shift by an immediate count stands in IMM10[9:7], the count in its five low bits (R79). -/
theorem decode_shiftImm_count (sw : BitVec 1) (g : BitVec 2) (d a : BitVec 6) (m : BitVec 5) {o : Nat} (ho : o < 8) :
    decodeWord (laneWord 0x0A sw g d.toNat a.toNat (o * 2 ^ 7 + m.toNat)) =
      firstOf 0 10 [okIf (4 * o == 0) (.shlImm sw g d a m), okIf (4 * o == 4) (.shrImm sw g d a m),
        okIf (4 * o == 8) (.sarImm sw g d a m), okIf (4 * o == 12) (.rolImm sw g d a m)] := by
  have low : o * 2 ^ 7 + m.toNat < 1024 := by omega
  have op : (o * 2 ^ 7 + m.toNat) / 32 = 4 * o := by omega
  have count : BitVec.ofNat 5 (o * 2 ^ 7 + m.toNat) = m := BitVec.eq_of_toNat_eq (by rw [BitVec.toNat_ofNat]; omega)
  rw [(laneWord_fields sw g (by decide) d.isLt a.isLt low).decode_shiftImm low, op, count]

theorem decode_shiftImm_refused (sw : BitVec 1) (g : BitVec 2) (d a : BitVec 6) {i : BitVec 10}
    (h : i.toNat / 2 ^ 5 % 4 ≠ 0 ∨ 4 ≤ i.toNat / 2 ^ 7) :
    ∃ x, decodeWord (laneWord 0x0A sw g d.toNat a.toNat i.toNat) = .error x := by
  refine ⟨_, ((laneWord_fields sw g (by decide) d.isLt a.isLt i.isLt).decode_shiftImm i.isLt).trans (firstOf_refuses ?_)⟩
  simp [okIf]; omega

theorem limmOk_shiftImm (sw : BitVec 1) (g : BitVec 2) (d a : BitVec 6) (i : BitVec 10) :
    limmOk (laneWord 0x0A sw g d.toNat a.toNat i.toNat) = false := by
  have h := laneWord_fields sw g (major := 0x0A) (by decide) d.isLt a.isLt i.isLt
  simp [limmOk, h.cls, h.op]

theorem decode_sel (sw : BitVec 1) (g p : BitVec 2) (d a b : BitVec 6) (u : BitVec 1) :
    decodeWord (laneWord 0x11 sw g d.toNat a.toNat (l3Low b.toNat u.toNat p.toNat)) = .ok (.sel sw g d a b u p) := by
  have zero : p.toNat / 4 = 0 := by omega
  rw [(l3Word_fields (by decide) (by omega) sw g d a b u).decode_select, zero, BitVec.ofNat_toNat, BitVec.setWidth_eq]
  rfl

theorem decode_sel_refused (sw : BitVec 1) (g p : BitVec 2) (d a b : BitVec 6) (u : BitVec 1) :
    ∃ x, decodeWord (laneWord 0x11 sw g d.toNat a.toNat (l3Low b.toNat u.toNat (4 + p.toNat))) = .error x := by
  have one : (4 + p.toNat) / 4 = 1 := by omega
  rw [(l3Word_fields (by decide) (by omega) sw g d a b u).decode_select, one]
  exact ⟨_, rfl⟩

theorem decode_vsrd (sw : BitVec 1) (g : BitVec 2) (d : BitVec 6) (n : BitVec 8) :
    decodeWord (0x16000000 + put sw 30 + put g 22 + put d 16 + put n 0) =
      firstOf 0 22 [okIf true (.vsrd sw g d n)] := by
  have word : 0x16000000 + put sw 30 + put g 22 + put d 16 + put n 0 = laneWord 0x16 sw g d.toNat 0 n.toNat := by
    simp [laneWord, put]
  have h := laneWord_fields sw g (major := 0x16) (low := n.toNat) (by decide) d.isLt (a := 0) (by decide) (by omega)
  have zero : bitsAt (laneWord 0x16 sw g d.toNat 0 n.toNat) 8 8 = 0 := by rw [h.atTail 8 8 (by decide), bitsAt]; omega
  have num : fld (laneWord 0x16 sw g d.toNat 0 n.toNat) 0 8 = n := fld_eq (by rw [h.atLow 0 8 (by decide), bitsAt]; omega)
  rw [word, h.decode]
  show decodeL16 _ = _
  simp only [decodeL16, h.sw, h.g, h.fld_d, zero, num]
  rfl

theorem decode_vsrd_table (sw : BitVec 1) (g : BitVec 2) (d : BitVec 6) {n : BitVec 8} (hn : n.toNat < 5) :
    decodeWord (0x16000000 + put sw 30 + put g 22 + put d 16 + put n 0) = .ok (.vsrd sw g d n) := by
  have wf : (Instr.vsrd sw g d n).wf = true := decide_eq_true hn
  rw [decode_vsrd]
  exact firstOf_wellformed wf []

theorem decode_vsrd_refused (sw : BitVec 1) (g : BitVec 2) (d : BitVec 6) {n : BitVec 8} (hn : 5 ≤ n.toNat) :
    ∃ x, decodeWord (0x16000000 + put sw 30 + put g 22 + put d 16 + put n 0) = .error x := by
  have illformed : (Instr.vsrd sw g d n).wf = false := decide_eq_false (by omega)
  rw [decode_vsrd, okIf_illformed illformed]
  exact ⟨_, rfl⟩

theorem LaneWord.decode_count {low : Nat} (h : LaneWord w 0x0B sw g d.toNat a.toNat low) (hl : low < 1024) :
    decodeWord w = firstOf 0 11 [okIf (low == 0) (.popc sw g d a), okIf (low == 1) (.clz sw g d a),
      okIf (low == 2) (.brev sw g d a)] := by
  rw [h.decode]
  show decodeL0B w = _
  simp only [decodeL0B, h.sw, h.g, h.fld_d, h.fld_a, h.all_low hl]

end

/-! ## Majors 0x10, 0x12 and 0x13 (R85, R87, R88) -/

section
variable {w : Nat} {sw : BitVec 1} {g : BitVec 2}

theorem LaneWord.decode_icmp {d : Nat} {a b : BitVec 6} {u : BitVec 1} {k : BitVec 3} (hd : d < 64)
    (h : LaneWord w 0x10 sw g d a.toNat (l3Low b.toNat u.toNat k.toNat)) :
    decodeWord w = firstOf 0 16 [okIf (d / 16 == 0) (.icmp sw g (BitVec.ofNat 2 (d / 4)) (BitVec.ofNat 2 d) a b u k)] := by
  have zero : bitsAt w 20 2 = d / 16 := by rw [h.atD 4 2 (by decide), bitsAt]; omega
  have t : fld w 18 2 = BitVec.ofNat 2 (d / 4) := fld_eq ((h.atD 2 2 (by decide)).trans (BitVec.toNat_ofNat ..).symm)
  have p : fld w 16 2 = BitVec.ofNat 2 d := fld_eq (by rw [h.atD 0 2 (by decide), bitsAt, BitVec.toNat_ofNat]; omega)
  have cond : fld w 0 3 = k := fld_eq (h.at_f k.isLt)
  rw [h.decode]
  show decodeL10 w = _
  simp only [decodeL10, h.sw, h.g, h.fld_a, h.fld_b k.isLt, h.fld_u k.isLt, zero, t, p, cond]

theorem LaneWord.decode_plog {d a b u : Nat} {o : BitVec 2} (hd : d < 64) (ha : a < 64) (hb : b < 64) (hu : u < 2)
    (h : LaneWord w 0x12 sw g d a (l3Low b u o.toNat)) :
    decodeWord w = firstOf 0 18 [okIf (d / 4 == 0 && a / 4 == 0 && b / 4 == 0 && 2 * u == 0)
      (.plog sw g (BitVec.ofNat 2 d) (BitVec.ofNat 2 a) (BitVec.ofNat 2 b) o)] := by
  have zd : bitsAt w 18 4 = d / 4 := by rw [h.atD 2 4 (by decide), bitsAt]; omega
  have za : bitsAt w 12 4 = a / 4 := by rw [h.atA 2 4 (by decide), bitsAt]; omega
  have zb : bitsAt w 6 4 = b / 4 := by rw [h.atLow 6 4 (by decide), bitsAt, l3Low]; omega
  have zu : bitsAt w 2 2 = 2 * u := by rw [h.atLow 2 2 (by decide), bitsAt, l3Low]; omega
  have d' : fld w 16 2 = BitVec.ofNat 2 d := fld_eq (by rw [h.atD 0 2 (by decide), bitsAt, BitVec.toNat_ofNat]; omega)
  have a' : fld w 10 2 = BitVec.ofNat 2 a := fld_eq (by rw [h.atA 0 2 (by decide), bitsAt, BitVec.toNat_ofNat]; omega)
  have b' : fld w 4 2 = BitVec.ofNat 2 b := fld_eq (by rw [h.atLow 4 2 (by decide), bitsAt, l3Low, BitVec.toNat_ofNat]; omega)
  have o' : fld w 0 2 = o := fld_eq (by rw [h.atLow 0 2 (by decide), bitsAt, l3Low]; omega)
  rw [h.decode]
  show decodeL12 w = _
  simp only [decodeL12, h.sw, h.g, zd, za, zb, zu, d', a', b', o']

theorem LaneWord.decode_pmov {d a : BitVec 6} {low : Nat} (hl : low < 1024) (h : LaneWord w 0x13 sw g d.toNat a.toNat low) :
    decodeWord w = firstOf 0 19 [okIf (a.toNat * 2 ^ 10 + low == 0) (.pmovGet sw g d),
      okIf (d.toNat == 0 && low == 1) (.pmovPut sw g a)] := by
  have zero : bitsAt w 0 16 = a.toNat * 2 ^ 10 + low := by rw [h.atTail 0 16 (by decide), bitsAt]; omega
  have zd : bitsAt w 16 6 = d.toNat := by rw [h.atD 0 6 (by decide), bitsAt]; omega
  rw [h.decode]
  show decodeL13 w = _
  simp only [decodeL13, h.sw, h.g, h.fld_d, h.fld_a, h.all_low hl, zero, zd]

end

section
variable (sw : BitVec 1) (g : BitVec 2)

theorem ofNat_toNat_pair (t p : BitVec 2) :
    BitVec.ofNat 2 ((t.toNat * 4 + p.toNat) / 4) = t ∧ BitVec.ofNat 2 (t.toNat * 4 + p.toNat) = p :=
  ⟨BitVec.eq_of_toNat_eq (by rw [BitVec.toNat_ofNat]; omega), BitVec.eq_of_toNat_eq (by rw [BitVec.toNat_ofNat]; omega)⟩

/-- An ICMP word whose D field is below 16 stands when its type and its condition do. -/
theorem decode_icmp_pair (t p : BitVec 2) (a b : BitVec 6) (u : BitVec 1) (k : BitVec 3) :
    decodeWord (l3Nat sw g 0x10 (t.toNat * 4 + p.toNat) a.toNat b.toNat u.toNat k.toNat) =
      firstOf 0 16 [okIf true (.icmp sw g t p a b u k)] := by
  have hd : t.toNat * 4 + p.toNat < 64 := by omega
  have zero : (t.toNat * 4 + p.toNat) / 16 = 0 := by omega
  obtain ⟨ht, hp⟩ := ofNat_toNat_pair t p
  rw [(l3Nat_fields sw g (by decide) hd a.isLt b.isLt u.isLt k.isLt).decode_icmp hd, zero, ht, hp]
  rfl

theorem decode_icmp (t p : BitVec 2) (a b : BitVec 6) (u : BitVec 1) (k : BitVec 3) (ht : t.toNat < 2) (hk : k.toNat < 6) :
    decodeWord (l3Nat sw g 0x10 (t.toNat * 4 + p.toNat) a.toNat b.toNat u.toNat k.toNat) = .ok (.icmp sw g t p a b u k) := by
  have wf : (Instr.icmp sw g t p a b u k).wf = true := Bool.and_eq_true_iff.2 ⟨decide_eq_true ht, decide_eq_true hk⟩
  rw [decode_icmp_pair]
  exact firstOf_wellformed wf []

theorem decode_icmp_reserved (t p : BitVec 2) (a b : BitVec 6) (u : BitVec 1) (k : BitVec 3) (h : 2 ≤ t.toNat ∨ 6 ≤ k.toNat) :
    ∃ e, decodeWord (l3Nat sw g 0x10 (t.toNat * 4 + p.toNat) a.toNat b.toNat u.toNat k.toNat) = .error e := by
  have illformed : (Instr.icmp sw g t p a b u k).wf = false :=
    Bool.and_eq_false_iff.2 (h.imp (fun ht => decide_eq_false (by omega)) fun hk => decide_eq_false (by omega))
  rw [decode_icmp_pair, okIf_illformed illformed]
  exact ⟨_, rfl⟩

theorem decode_icmp_refused (d a b : BitVec 6) (u : BitVec 1) (k : BitVec 3) (h : 16 ≤ d.toNat) :
    ∃ e, decodeWord (l3Nat sw g 0x10 d.toNat a.toNat b.toNat u.toNat k.toNat) = .error e := by
  refine ⟨_, ((l3Nat_fields sw g (by decide) d.isLt a.isLt b.isLt u.isLt k.isLt).decode_icmp d.isLt).trans (firstOf_refuses ?_)⟩
  simp [okIf]; omega

theorem decode_plog (p x y o : BitVec 2) :
    decodeWord (l3Nat sw g 0x12 p.toNat x.toNat y.toNat 0 o.toNat) = .ok (.plog sw g p x y o) := by
  have hp := p.isLt
  have hx := x.isLt
  have hy := y.isLt
  have h := l3Nat_fields sw g (major := 0x12) (d := p.toNat) (a := x.toNat) (b := y.toNat) (u := 0) (f := o.toNat)
    (by decide) (by omega) (by omega) (by omega) (by decide) (by omega)
  rw [h.decode_plog (by omega) (by omega) (by omega) (by decide), Nat.div_eq_of_lt hp, Nat.div_eq_of_lt hx, Nat.div_eq_of_lt hy]
  simp only [BitVec.ofNat_toNat, BitVec.setWidth_eq]
  rfl

theorem decode_plog_refused (d a b : BitVec 6) (u : BitVec 1) (o : BitVec 2) (h : 4 ≤ d.toNat ∨ 4 ≤ a.toNat ∨ 4 ≤ b.toNat ∨ u ≠ 0) :
    ∃ e, decodeWord (l3Nat sw g 0x12 d.toNat a.toNat b.toNat u.toNat o.toNat) = .error e := by
  have nonzero := h.imp_right (Or.imp_right (Or.imp_right toNat_ne_zero))
  have word := l3Nat_fields sw g (major := 0x12) (f := o.toNat) (by decide) d.isLt a.isLt b.isLt u.isLt (by omega)
  refine ⟨_, (word.decode_plog d.isLt a.isLt b.isLt u.isLt).trans (firstOf_refuses ?_)⟩
  simp [okIf]; omega

theorem decode_pmov (d a b : BitVec 6) (u : BitVec 1) {f : Nat} (hf : f < 8) :
    decodeWord (l3Nat sw g 0x13 d.toNat a.toNat b.toNat u.toNat f) =
      firstOf 0 19 [okIf (a.toNat * 2 ^ 10 + l3Low b.toNat u.toNat f == 0) (.pmovGet sw g d),
        okIf (d.toNat == 0 && l3Low b.toNat u.toNat f == 1) (.pmovPut sw g a)] :=
  (l3Nat_fields sw g (by decide) d.isLt a.isLt b.isLt u.isLt hf).decode_pmov (l3Low_lt b.isLt u.isLt hf)

theorem decode_pmovGet (d : BitVec 6) : decodeWord (l3Nat sw g 0x13 d.toNat 0 0 0 0) = .ok (.pmovGet sw g d) :=
  decode_pmov sw g d 0 0 0 (by decide)

theorem decode_pmovPut (a : BitVec 6) : decodeWord (l3Nat sw g 0x13 0 a.toNat 0 0 1) = .ok (.pmovPut sw g a) :=
  decode_pmov sw g 0 a 0 0 (by decide)

theorem decode_pmovGet_refused (d a b : BitVec 6) (u : BitVec 1) (h : a ≠ 0 ∨ b ≠ 0 ∨ u ≠ 0) :
    ∃ e, decodeWord (l3Nat sw g 0x13 d.toNat a.toNat b.toNat u.toNat 0) = .error e := by
  have nonzero := h.imp toNat_ne_zero (Or.imp toNat_ne_zero toNat_ne_zero)
  refine ⟨_, (decode_pmov sw g d a b u (by decide)).trans (firstOf_refuses ?_)⟩
  simp [okIf, l3Low]; omega

theorem decode_pmovPut_refused (d a b : BitVec 6) (u : BitVec 1) (h : d ≠ 0 ∨ b ≠ 0 ∨ u ≠ 0) :
    ∃ e, decodeWord (l3Nat sw g 0x13 d.toNat a.toNat b.toNat u.toNat 1) = .error e := by
  have nonzero := h.imp toNat_ne_zero (Or.imp toNat_ne_zero toNat_ne_zero)
  refine ⟨_, (decode_pmov sw g d a b u (by decide)).trans (firstOf_refuses ?_)⟩
  simp [okIf, l3Low]; omega

/-- PLOG and PMOV accept neither LIMM nor REP (R67). -/
theorem plog_pmov_bare (d a b : BitVec 6) (u : BitVec 1) (k : BitVec 3) {major : Nat} (hm : major = 0x12 ∨ major = 0x13) :
    limmOk (l3Nat sw g major d.toNat a.toNat b.toNat u.toNat k.toNat) = false ∧
      repAccepts (l3Nat sw g major d.toNat a.toNat b.toNat u.toNat k.toNat) = false := by
  have h := l3Nat_fields sw g (major := major) (by omega) d.isLt a.isLt b.isLt u.isLt k.isLt
  rcases hm with rfl | rfl
  · simp [limmOk, repAccepts, h.cls, h.op]
  · simp [limmOk, repAccepts, h.cls, h.op]

end

end Sys2Proof.Machine
end

section
/-! SUPPORT. Shapes of register words: moves, compares, and words that write two or three registers of a lane. -/
namespace Sys2Proof.Machine
open Sys2Proof

theorem move_op {i : Instr} {sw : BitVec 1} {rd : RegSet} {g : BitVec 2} {d : BitVec 6} {r : Ctx → RegSet}
    {f val : Ctx → Nat → Word}
    (he : ∀ s, exec i s = issue i sw (laneMove g d r f) s) (hr : ∀ c, c.limm = none → r c = rd)
    (hv : ∀ c L, c.limm = none → f { c with sw := sw == 1 } L = val c L) : LaneOp i sw rd g d val :=
  lane_op _ he ⟨hr, fun _ => rfl, rfl, .inl rfl, fun _ => rfl, fun _ _ _ => rfl, fun _ => rfl⟩
    fun c _ _ hl => ⟨_, rfl, fun L => hv c L hl⟩

/-- The value of a lane word matters only where the word stands. -/
theorem LaneOp.congr {i : Instr} {sw : BitVec 1} {rd : RegSet} {g : BitVec 2} {d : BitVec 6} {val val' : Ctx → Nat → Word}
    (h : LaneOp i sw rd g d val) (hv : ∀ s c, Stands s c i rd (RegSet.vs d.toNat 1) g.toNat → val c = val' c) :
    LaneOp i sw rd g d val' := by
  intro s c st
  rw [← hv s c st]
  exact h s c st

theorem PredOp.congr {i : Instr} {sw : BitVec 1} {rd : RegSet} {g d : BitVec 2} {val val' : Ctx → Nat → Bool}
    (h : PredOp i sw rd g d val) (hv : ∀ s c, Stands s c i rd (RegSet.pr d.toNat) g.toNat → val c = val' c) :
    PredOp i sw rd g d val' := by
  intro s c st
  rw [← hv s c st]
  exact h s c st

theorem cmp_plain (g p : BitVec 2) (a b : BitVec 6) (u : BitVec 1) (f : Ctx → Word → Word → Bool) :
    Plain (cmpBody g p a b u f) (l3Reads a b u) (RegSet.pr p.toNat) g.toNat := by
  refine ⟨fun c h => ?_, fun _ => rfl, rfl, .inl rfl, fun _ => rfl, fun _ _ _ => rfl, fun _ => rfl⟩
  simp only [cmpBody, l3Reads, useB_limm h]

theorem cmp_op {i : Instr} {sw : BitVec 1} {g p : BitVec 2} {a b : BitVec 6} {u : BitVec 1} {f h : Ctx → Word → Word → Bool}
    (he : ∀ s, exec i s = issue i sw (cmpBody g p a b u f) s) (hv : ∀ c x y, f { c with sw := sw == 1 } x y = h c x y) :
    PredOp i sw (l3Reads a b u) g p fun c L => h c (c.src a 0 L) (c.src b u L) := by
  refine pred_op _ he (cmp_plain g p a b u f) fun c m s hl => ⟨_, rfl, fun L => ?_⟩
  rw [opB_limm (c := { c with sw := sw == 1 }) hl]
  exact hv c _ _

theorem sameRegs_getV {p q : Party} (h : sameRegs p q) (r L : Nat) : q.getV r L = p.getV r L := by
  obtain ⟨hv, -⟩ := h
  rw [Party.getV, Party.getV, hv]

theorem sameRegs_getP {p q : Party} (h : sameRegs p q) (r L : Nat) : q.getP r L = p.getP r L := by
  obtain ⟨-, -, hp, -⟩ := h
  rw [Party.getP, Party.getP, hp]

/-- Write a pair of lane registers in a set of lanes, low word first. -/
def Party.setVD (p : Party) (r : Nat) (m : Lanes) (f : Nat → DWord) : Party :=
  (p.setV r m fun L => (f L).setWidth 32).setV (r + 1) m fun L => (f L >>> 32).setWidth 32

theorem Party.setVD_getV (p : Party) (r : Nat) (m : Lanes) (f : Nat → DWord) {r' L : Nat} (hr : r' < 64) (hL : L < 64) :
    (p.setVD r m f).getV r' L = if m.getLsbD L ∧ r' = r then (f L).setWidth 32
      else if m.getLsbD L ∧ r' = r + 1 then (f L >>> 32).setWidth 32 else p.getV r' L := by
  rw [Party.setVD, Party.setV_getV _ _ _ _ _ _ hr hL, Party.setV_getV _ _ _ _ _ _ hr hL]
  by_cases high : r' = r + 1
  · simp [high]
  · simp [high, and_comm]

/-- Write p1, p2 and p3 in a set of lanes, each from its own bit of a word of the lane. -/
def Party.setPs (p : Party) (m : Lanes) (f : Nat → Word) : Party :=
  ((p.setP 1 m fun L => (f L).getLsbD 1).setP 2 m fun L => (f L).getLsbD 2).setP 3 m fun L => (f L).getLsbD 3

theorem Party.setPs_getP (p : Party) (m : Lanes) (f : Nat → Word) {r L : Nat} (hr : r < 4) (hL : L < 64) :
    (p.setPs m f).getP r L = if r ≠ 0 ∧ m.getLsbD L then (f L).getLsbD r else p.getP r L := by
  simp only [Party.setPs, Party.setP_getP _ _ _ _ r L hr hL]
  rcases r with _ | _ | _ | _ | r
  · simp
  · simp
  · simp
  · simp
  · omega

end Sys2Proof.Machine
end

section
/-! O7 and O55. The hash of RNDH, the logic words and the bit counts (R78, R80, R84). -/
namespace Sys2Proof.Machine
open Sys2Proof

/-! ## RNDH (R84) -/

/-- Multiplication by a word that has an inverse modulo 2^32 loses nothing. -/
theorem mul_injective_of_inverse {m n x y : Word} (h : m * n = 1) (e : x * m = y * m) : x = y := by
  have cancel (z : Word) : z * m * n = z := by rw [BitVec.mul_assoc, h]; exact BitVec.mul_one z
  rw [← cancel x, e, cancel]

/-- The xor of a word with its own shift right loses nothing: from the top down, each bit is changed by a bit already known. -/
theorem xor_shift_injective {k : Nat} (hk : 0 < k) {x y : Word} (e : x ^^^ x >>> k = y ^^^ y >>> k) : x = y := by
  have top (n : Nat) : ∀ j, 32 ≤ j + n → x.getLsbD j = y.getLsbD j := by
    induction n with
    | zero => intro j hj; rw [BitVec.getLsbD_of_ge x j hj, BitVec.getLsbD_of_ge y j hj]
    | succ n ih =>
      intro j hj
      have bit : (x ^^^ x >>> k).getLsbD j = (y ^^^ y >>> k).getLsbD j := by rw [e]
      rw [BitVec.getLsbD_xor, BitVec.getLsbD_xor, BitVec.getLsbD_ushiftRight, BitVec.getLsbD_ushiftRight, ih (k + j) (by omega)] at bit
      exact Bool.xor_left_inj.1 bit
  exact BitVec.eq_of_getLsbD_eq fun j _ => top 32 j (by omega)

theorem rndhRound_injective {k x y : Word} (e : rndhRound x k = rndhRound y k) : x = y := by
  have second := mul_injective_of_inverse (n := 0x2B0FCE5B) (by decide) (xor_shift_injective (by decide) e)
  have first := mul_injective_of_inverse (n := 0xEE33F197) (by decide) (xor_shift_injective (by decide) second)
  exact (BitVec.xor_left_inj k).1 first

theorem rndh_injective {k x y : Word} (e : rndh x k = rndh y k) : x = y :=
  rndhRound_injective (rndhRound_injective (rndhRound_injective (rndhRound_injective e)))

/-- Settles O7: an RNDH word runs the model's hash, and none of its four rounds maps two counters to
one: each is made of xors with a known word, products with odd constants and xors with an own shift. -/
theorem hashIsPermutation : Obligations.HashIsPermutation := by
  intro sw g d a b u hash
  have fold (x k : Word) : rndh x k = hash x k := rfl
  refine ⟨decode_rndh sw g d a b u, alu_op (fun _ => rfl) fold, fun k x y e => ?_⟩
  rw [← fold, ← fold] at e
  exact rndh_injective e

/-! ## Bit counts (R80) -/

theorem popc_eq (x : Word) : popc x = BitVec.ofNat 32 ((List.range 32).countP fun j => x.getLsbD j) := by
  rw [popc, List.countP_eq_length_filter]

theorem getLsbD_log2 {x : Word} (h : x ≠ 0) : x.getLsbD x.toNat.log2 = true := by
  rw [BitVec.getLsbD, Nat.testBit_log2 (toNat_ne_zero h)]

theorem getLsbD_above_log2 {x : Word} {j : Nat} (h : x.toNat.log2 < j) : x.getLsbD j = false :=
  Nat.testBit_lt_two_pow (Nat.lt_of_lt_of_le Nat.lt_log2_self (Nat.pow_le_pow_right (by decide) h))

/-- Counting down from bit 31, the first one bit is the one that the logarithm names. -/
theorem clz_eq (x : Word) : clz x = if x = 0 then 32 else BitVec.ofNat 32 (31 - x.toNat.log2) := by
  rw [clz]
  split
  · next h => subst h; rfl
  · next h =>
    have top : x.toNat.log2 < 32 := (Nat.log2_lt (toNat_ne_zero h)).2 x.isLt
    have first : (List.range 32).find? (fun i => x.getLsbD (31 - i)) = some (31 - x.toNat.log2) := by
      rw [List.find?_range_eq_some]
      refine ⟨?_, ?_, ?_⟩
      · rw [Nat.sub_sub_self (by omega)]; exact getLsbD_log2 h
      · rw [List.mem_range]; omega
      · intro j hj
        rw [getLsbD_above_log2 (by omega)]; rfl
    rw [first]; rfl

/-- Settles O55: each word runs its value function, and the counts of one bits and of leading zeros are those of the statement. -/
theorem bitwiseAndBitCountWords : Obligations.BitwiseAndBitCountWords := by
  intro sw g d a b u l3 both
  have logic (f : Nat) (hf : f < 8) := (l3Word_fields (major := 0x08) (by decide) hf sw g d a b u).decode_logic
  have count (low : Nat) (hl : low < 1024) := (laneWord_fields sw g (major := 0x0B) (by decide) d.isLt a.isLt hl).decode_count hl
  refine ⟨logic 0 (by decide), logic 1 (by decide), logic 2 (by decide), logic 3 (by decide),
    count 0 (by decide), count 1 (by decide), count 2 (by decide), fun hbu f hf => ?_,
    alu_op (fun _ => rfl) fun _ _ => rfl, alu_op (fun _ => rfl) fun _ _ => rfl, alu_op (fun _ => rfl) fun _ _ => rfl,
    alu_op (h := fun x y => x &&& ~~~y) (fun _ => rfl) fun _ _ => rfl,
    alu1_op (fun _ => rfl) popc_eq, alu1_op (fun _ => rfl) clz_eq, alu1_op (fun _ => rfl) fun _ => rfl⟩
  have beyond := l3Low_of_ne hbu f
  exact ⟨_, (count _ (l3Low_lt b.isLt u.isLt (by omega))).trans (firstOf_refuses (by simp [okIf]; omega))⟩

end Sys2Proof.Machine
end

section
/-! O2. Shifts, fields, moves and addresses. -/
namespace Sys2Proof.Machine
open Sys2Proof

/-! ## Shifts (R79) -/

theorem shlOp_eq (x y : Word) : shlOp x y = x <<< y.toNat := by
  rw [shlOp]
  split
  · next h => exact (BitVec.shiftLeft_eq_zero h).symm
  · rfl

theorem shrOp_eq (x y : Word) : shrOp x y = x >>> y.toNat := by
  rw [shrOp]
  split
  · next h => exact (BitVec.ushiftRight_eq_zero h).symm
  · rfl

/-- From 31 places on, an arithmetic shift leaves the sign alone. -/
theorem sarOp_eq (x y : Word) : sarOp x y = x.sshiftRight y.toNat := by
  rw [sarOp]
  rcases Nat.le_total y.toNat 31 with h | h
  · rw [Nat.min_eq_left h]
  · rw [Nat.min_eq_right h]
    ext j hj
    rw [BitVec.getElem_sshiftRight, BitVec.getElem_sshiftRight]
    by_cases z : j = 0
    · subst z
      by_cases e : y.toNat = 31
      · simp [e]
      · rw [dif_pos (by omega), dif_neg (by omega)]; rfl
    · rw [dif_neg (by omega), dif_neg (by omega)]

theorem rolOp_eq (x y : Word) : rolOp x y = x.rotateLeft y.toNat := BitVec.rotateLeft_mod_eq_rotateLeft

theorem toNat_count (m : BitVec 5) : (m.setWidth 32 : Word).toNat = m.toNat := by
  rw [BitVec.toNat_setWidth]; omega

theorem shlOp_count (x : Word) (m : BitVec 5) : shlOp x (m.setWidth 32) = x <<< m.toNat := by rw [shlOp_eq, toNat_count]
theorem shrOp_count (x : Word) (m : BitVec 5) : shrOp x (m.setWidth 32) = x >>> m.toNat := by rw [shrOp_eq, toNat_count]
theorem sarOp_count (x : Word) (m : BitVec 5) : sarOp x (m.setWidth 32) = x.sshiftRight m.toNat := by rw [sarOp_eq, toNat_count]
theorem rolOp_count (x : Word) (m : BitVec 5) : rolOp x (m.setWidth 32) = x.rotateLeft m.toNat := by rw [rolOp_eq, toNat_count]

/-! ## Fields (R81) -/

theorem field_fits (k : Word) : fieldLen k + fieldPos k ≤ 32 := by
  rw [fieldLen, fieldPos]; omega

/-- The field, before its sign is extended. -/
theorem toNat_masked_field (x k : Word) :
    ((x &&& fieldMask k) >>> fieldPos k).toNat = x.toNat / 2 ^ fieldPos k % 2 ^ fieldLen k := by
  have small : (2 ^ fieldLen k - 1) * 2 ^ fieldPos k < 2 ^ 32 := by
    calc (2 ^ fieldLen k - 1) * 2 ^ fieldPos k < 2 ^ fieldLen k * 2 ^ fieldPos k :=
          Nat.mul_lt_mul_of_pos_right (Nat.sub_lt (Nat.two_pow_pos _) Nat.one_pos) (Nat.two_pow_pos _)
      _ = 2 ^ (fieldLen k + fieldPos k) := (Nat.pow_add ..).symm
      _ ≤ 2 ^ 32 := Nat.pow_le_pow_right (by decide) (field_fits k)
  rw [BitVec.toNat_ushiftRight, BitVec.toNat_and, fieldMask, BitVec.toNat_ofNat, Nat.mod_eq_of_lt small, Nat.shiftRight_and_distrib,
    Nat.shiftRight_eq_div_pow, Nat.shiftRight_eq_div_pow, Nat.mul_div_cancel _ (Nat.two_pow_pos _), Nat.and_two_pow_sub_one_eq_mod]

/-- Ones above the low l bits of a field of l bits subtract 2^l. -/
theorem or_ones_above {y : Word} {l : Nat} (hl : l ≤ 32) (hy : y.toNat < 2 ^ l) :
    y ||| ~~~(BitVec.ofNat 32 (2 ^ l - 1)) = BitVec.ofInt 32 (y.toNat - 2 ^ l) := by
  have disjoint : y &&& ~~~(BitVec.ofNat 32 (2 ^ l - 1)) = 0 := by
    refine BitVec.eq_of_getLsbD_eq fun j hj => ?_
    rw [BitVec.getLsbD_and, BitVec.getLsbD_not, BitVec.getLsbD_ofNat, Nat.testBit_two_pow_sub_one]
    by_cases h : j < l
    · simp [h, hj]
    · have : y.getLsbD j = false :=
        Nat.testBit_lt_two_pow (Nat.lt_of_lt_of_le hy (Nat.pow_le_pow_right (by decide) (Nat.le_of_not_lt h)))
      simp [this]
  have bound : 2 ^ l ≤ 2 ^ 32 := Nat.pow_le_pow_right (by decide) hl
  rw [← BitVec.add_eq_or_of_and_eq_zero _ _ disjoint]
  apply BitVec.eq_of_toNat_eq
  rw [BitVec.toNat_add, BitVec.toNat_not, BitVec.toNat_ofNat, BitVec.toNat_ofInt]
  have cast : ((2 : Int) ^ l) = ((2 ^ l : Nat) : Int) := by push_cast; rfl
  rw [cast]
  generalize 2 ^ l = m at *
  omega

/-- The top bit of a field of l bits tells whether it lies in the upper half. -/
theorem testBit_top {n l : Nat} (hl : l ≠ 0) (hn : n < 2 ^ l) : n.testBit (l - 1) = decide (2 ^ (l - 1) ≤ n) := by
  obtain ⟨j, rfl⟩ := Nat.exists_eq_succ_of_ne_zero hl
  rw [Nat.succ_sub_one, Nat.testBit_eq_decide_div_mod_eq, decide_eq_decide]
  have : n / 2 ^ j < 2 := by rw [Nat.div_lt_iff_lt_mul (Nat.two_pow_pos j)]; rw [Nat.pow_succ] at hn; omega
  rw [Nat.mod_eq_of_lt this, ← Nat.one_le_div_iff (Nat.two_pow_pos j)]
  omega

/-- A field of l bits as a signed number: its upper half is negative. -/
theorem bmod_field {n l : Nat} (hl : 0 < l) (hn : n < 2 ^ l) :
    Int.bmod n (2 ^ l) = if 2 ^ (l - 1) ≤ n then (n : Int) - 2 ^ l else n := by
  obtain ⟨j, rfl⟩ := Nat.exists_eq_add_of_lt hl
  have double : 2 ^ (0 + j + 1) = 2 * 2 ^ j := by rw [Nat.zero_add, Nat.pow_succ, Nat.mul_comm]
  have cast : (2 : Int) ^ (0 + j + 1) = ((2 * 2 ^ j : Nat) : Int) := by rw [← double]; push_cast; rfl
  rw [Int.bmod, cast, double, Nat.add_sub_cancel, Nat.zero_add]
  rw [double] at hn
  generalize 2 ^ j = m at *
  rw [Int.emod_eq_of_lt (by omega) (by omega)]
  split <;> split <;> omega

/-- BFX gives the field, and BFX.i32 the field as a signed number. -/
theorem bfx_eq (signed : Bool) (x k : Word) : bfx signed x k =
    if signed then BitVec.ofInt 32 (Int.bmod (x.toNat / 2 ^ fieldPos k % 2 ^ fieldLen k : Nat) (2 ^ fieldLen k))
    else BitVec.ofNat 32 (x.toNat / 2 ^ fieldPos k % 2 ^ fieldLen k) := by
  have value := toNat_masked_field x k
  have len : fieldLen k ≤ 32 := Nat.le_trans (Nat.le_add_right _ _) (field_fits k)
  rw [bfx]
  generalize (x &&& fieldMask k) >>> fieldPos k = y at *
  generalize fieldLen k = l at *
  have small : y.toNat < 2 ^ l := value ▸ Nat.mod_lt _ (Nat.two_pow_pos l)
  cases signed with
  | false => simp [← value]
  | true =>
    rw [← value]
    simp only [Bool.true_and, if_true]
    rcases Nat.eq_zero_or_pos l with rfl | pos
    · have : y = 0 := BitVec.eq_of_toNat_eq (by simpa using small)
      subst this; simp
    · have sign : y.getLsbD (l - 1) = decide (2 ^ (l - 1) ≤ y.toNat) := testBit_top (by omega) small
      rw [bmod_field pos small, sign]
      by_cases h : 2 ^ (l - 1) ≤ y.toNat
      · simp [h, Nat.pos_iff_ne_zero.1 pos, or_ones_above len small]
      · simp [h]

theorem bfx_op (sw : BitVec 1) (g : BitVec 2) (d a b : BitVec 6) (u k : BitVec 1) :
    LaneOp (.bfx sw g d a b u k) sw (l3Reads a b u) g d fun c L =>
      let f := fieldOf (c.src b u L)
      let x := (c.src a 0 L).toNat / 2 ^ f.1 % 2 ^ f.2
      if k = 1 then BitVec.ofInt 32 (Int.bmod x (2 ^ f.2)) else BitVec.ofNat 32 x := by
  have op : LaneOp (.bfx sw g d a b u k) sw (l3Reads a b u) g d fun c L => bfx (k == 1) (c.src a 0 L) (c.src b u L) :=
    alu_op (fun _ => rfl) fun _ _ => rfl
  refine op.congr fun s c _ => funext fun L => (bfx_eq ..).trans ?_
  simp only [beq_iff_eq]
  rfl

/-! ## Moves and addresses (R83, R86, R89, R90) -/

theorem imm_limm {c : Ctx} (h : c.limm = none) {n : Nat} (i : BitVec n) : c.imm i = i.signExtend 32 := by
  rw [Ctx.imm, h]; rfl

theorem sel_op (sw : BitVec 1) (g p : BitVec 2) (d a b : BitVec 6) (u : BitVec 1) :
    LaneOp (.sel sw g d a b u p) sw ((l3Reads a b u).or (RegSet.pr p.toNat)) g d fun c L =>
      if c.p.getP p.toNat L then c.src a 0 L else c.src b u L := by
  refine lane_op (bSel g d a b u p) (fun _ => rfl)
    ⟨fun c h => ?_, fun _ => rfl, rfl, .inl rfl, fun _ => rfl, fun _ _ _ => rfl, fun _ => rfl⟩ fun c m s hl => ⟨_, rfl, fun L => ?_⟩
  · simp only [bSel, l3Reads, useB_limm h]
  · rw [opB_limm (c := { c with sw := sw == 1 }) hl]
    rfl

/-- The table of R36 for a warp, the only party that runs VSRD (R69). -/
theorem vsrRead_eq {c : Ctx} {w : Nat} (hw : c.who = .warp w) (n L : Nat) :
    vsrRead c n L = BitVec.ofNat 32 ((laneRows c L).getD n 0) := by
  simp only [vsrRead, laneRows, hw]
  rcases n with _ | _ | _ | _ | _ | n <;> rfl

theorem runsHere_vsrd {sw : BitVec 1} {g : BitVec 2} {d : BitVec 6} {n : BitVec 8} {who : Who}
    (h : runsHere (.vsrd sw g d n) who = true) : ∃ w, who = .warp w := by
  cases who with
  | warp w => exact ⟨w, rfl⟩
  | mcc => cases h

theorem vsrd_op (sw : BitVec 1) (g : BitVec 2) (d : BitVec 6) (n : BitVec 8) :
    LaneOp (.vsrd sw g d n) sw RegSet.none g d fun c L => BitVec.ofNat 32 ((laneRows c L).getD n.toNat 0) := by
  have op : LaneOp (.vsrd sw g d n) sw RegSet.none g d fun c L => vsrRead c n.toNat L :=
    move_op (fun _ => rfl) (fun _ _ => rfl) fun _ _ _ => rfl
  refine op.congr fun s c st => ?_
  obtain ⟨w, hw⟩ := runsHere_vsrd st.runs
  exact funext fun L => vsrRead_eq hw n.toNat L

/-- The address that LEA forms in a lane (R83). -/
def leaAddr (c : Ctx) (a b : BitVec 6) (u : BitVec 1) (h : BitVec 3) (L : Nat) : DWord :=
  c.p.getVD a.toNat L + ((c.src b u L).signExtend 64 <<< h.toNat)

theorem lea_plain (g : BitVec 2) (d a b : BitVec 6) (u : BitVec 1) (h : BitVec 3) :
    Plain (bLea g d a b u h) ((RegSet.vs a.toNat 2).or (if u = 1 then RegSet.ss b.toNat 1 else RegSet.vs b.toNat 1))
      (RegSet.vs d.toNat 2) g.toNat :=
  ⟨fun c hl => by simp only [bLea, useB_limm hl], fun _ => rfl, rfl, .inl rfl, fun _ => rfl, fun _ _ _ => rfl, fun _ => rfl⟩

theorem bLea_run {c : Ctx} (hl : c.limm = none) (g : BitVec 2) (d a b : BitVec 6) (u : BitVec 1) (h : BitVec 3) (sw : Bool) (m : Lanes)
    (s : State) : (bLea g d a b u h).run { c with sw := sw } m s =
      .done (s.modParty c.key c.who fun p => p.setVD d.toNat m (leaAddr c a b u h)) [] .seq := by
  simp only [bLea, opB_limm (c := { c with sw := sw }) hl]
  rfl

theorem lea_op (sw : BitVec 1) (g : BitVec 2) (d a b : BitVec 6) (u : BitVec 1) (h : BitVec 3) (s : State) (c : Ctx)
    (st : Stands s c (.lea sw g d a b u h)
      ((RegSet.vs a.toNat 2).or (if u = 1 then RegSet.ss b.toNat 1 else RegSet.vs b.toNat 1)) (RegSet.vs d.toNat 2) g.toNat) :
    ∃ t, exec (.lea sw g d a b u h) s = .next t ∧
      RanOn s t c c.b (c.behind s sw (RegSet.vs d.toNat 2)) fun p => p.s = c.p.s ∧ p.p = c.p.p ∧ ∀ r L, r < 64 → L < 64 →
        p.getV r L = if (c.effLanes g.toNat).getLsbD L ∧ r = d.toNat then (leaAddr c a b u h L).setWidth 32
          else if (c.effLanes g.toNat).getLsbD L ∧ r = d.toNat + 1 then (leaAddr c a b u h L >>> 32).setWidth 32
          else c.p.getV r L := by
  have hl : c.limm = none := (ctx_in st.turn).limm
  obtain ⟨t, run, ran⟩ := register_op (fun _ => rfl) (lea_plain g d a b u h) s c
    (fun p => p.setVD d.toNat (c.effLanes g.toNat) (leaAddr c a b u h)) st ⟨rfl, rfl⟩
    fun v _ _ => bLea_run hl g d a b u h (sw == 1) (c.effLanes g.toNat) v
  refine ⟨t, run, ran.imp fun p same => ?_⟩
  have regs := sameRegs_getV same
  obtain ⟨-, hs, hp, -⟩ := same
  exact ⟨hs, hp, fun r L hr hL => (regs r L).trans (Party.setVD_getV _ _ _ _ hr hL)⟩

/-- Settles O2: the decoder's maps of the majors give the encodings. Every word but LEA runs one of the shapes of lane words, with
the value function of its row; LEA writes the two halves of its sum. -/
theorem laneShiftFieldAndMoveResults : Obligations.LaneShiftFieldAndMoveResults := by
  intro sw g p d a b e u k h m i n word l3
  have shift (f : Nat) (hf : f < 8) := (l3Word_fields (major := 0x09) (by decide) hf sw g d a b u).decode_shift
  have imm (o : Nat) (ho : o < 8) := decode_shiftImm_count sw g d a m ho
  exact ⟨shift 0 (by decide), shift 1 (by decide), shift 2 (by decide), shift 3 (by decide),
    imm 0 (by decide), imm 1 (by decide), imm 2 (by decide), imm 3 (by decide), decode_shiftImm_refused sw g d a,
    limmOk_shiftImm sw g d a i, decode_sel sw g p d a b u, decode_sel_refused sw g p d a b u,
    alu_op (fun _ => rfl) shlOp_eq, alu_op (fun _ => rfl) shrOp_eq, alu_op (fun _ => rfl) sarOp_eq, alu_op (fun _ => rfl) rolOp_eq,
    alu1_op (fun _ => rfl) fun x => shlOp_count x m, alu1_op (fun _ => rfl) fun x => shrOp_count x m,
    alu1_op (fun _ => rfl) fun x => sarOp_count x m, alu1_op (fun _ => rfl) fun x => rolOp_count x m,
    bfx_op sw g d a b u k, alu4_op (h := fun _ => bfi) (fun _ => rfl) fun _ _ _ _ => rfl,
    alu4_op (h := fun _ => prmb) (fun _ => rfl) fun _ _ _ _ => rfl, sel_op sw g p d a b u,
    move_op (fun _ => rfl) (fun _ hl => useB_limm hl b 0) fun _ L hl => opB_limm hl b 0 L,
    move_op (fun _ => rfl) (fun _ hl => useB_limm hl b 1) fun _ L hl => opB_limm hl b 1 L,
    move_op (fun _ => rfl) (fun _ _ => rfl) fun _ _ hl => imm_limm hl i, vsrd_op sw g d n,
    decode_vsrd_table sw g d, decode_vsrd_refused sw g d, lea_op sw g d a b u h⟩

end Sys2Proof.Machine
end

section
/-! O3. Compares and predicate words. -/
namespace Sys2Proof.Machine
open Sys2Proof

/-! ## Relations and predicate operations (R85, R87, R88) -/

theorem asInt_inj (unsigned : Bool) (x y : Word) : asInt unsigned x = asInt unsigned y ↔ x = y := by
  cases unsigned with
  | false => exact BitVec.toInt_inj
  | true => exact Int.ofNat_inj.trans BitVec.toNat_inj

theorem relation_eq {c : Nat} (hc : c < 6) (unsigned : Bool) (x y : Word) :
    relation c unsigned x y = holds c (asInt unsigned x) (asInt unsigned y) := by
  have lt : (if unsigned then decide (x.toNat < y.toNat) else decide (x.toInt < y.toInt)) =
      decide (asInt unsigned x < asInt unsigned y) := by
    cases unsigned with
    | false => rfl
    | true => simp [asInt]
  have eq : (x == y) = decide (asInt unsigned x = asInt unsigned y) := by
    rw [Bool.eq_iff_iff, beq_iff_eq, decide_eq_true_iff, asInt_inj]
  have ne : (x != y) = decide (asInt unsigned x ≠ asInt unsigned y) := by
    rw [bne, eq, decide_not]
  simp only [relation, holds, lt, eq, ne]
  generalize asInt unsigned x = m
  generalize asInt unsigned y = n
  rw [Bool.eq_iff_iff]
  rcases c with _ | _ | _ | _ | _ | _ | c
  · rfl
  · rfl
  · rfl
  · simp; omega
  · simp; omega
  · simp
  · omega

theorem plogOp_eq (o : BitVec 2) (x y : Bool) : plogOp o.toNat x y =
    if o = 0 then x && y else if o = 1 then x || y else if o = 2 then x ^^ y else x && !y := by
  decide +revert

/-- The four predicates of a lane as bits of a number (R88). -/
theorem predicate_bits (p : Party) (L : Nat) : 1 + 2 * (p.getP 1 L).toNat + 4 * (p.getP 2 L).toNat + 8 * (p.getP 3 L).toNat =
    ((List.range 4).filter fun r => p.getP r L).foldl (fun n r => n + 2 ^ r) 0 := by
  have all : List.range 4 = [0, 1, 2, 3] := rfl
  rw [all]
  simp only [List.filter, Party.getP_zero]
  generalize p.getP 1 L = x
  generalize p.getP 2 L = y
  generalize p.getP 3 L = z
  decide +revert

/-! ## The words -/

theorem icmp_op (sw : BitVec 1) (g t p : BitVec 2) (a b : BitVec 6) (u : BitVec 1) (k : BitVec 3) :
    PredOp (.icmp sw g t p a b u k) sw (l3Reads a b u) g p fun c L =>
      holds k.toNat (asInt (t = 1) (c.src a 0 L)) (asInt (t = 1) (c.src b u L)) := by
  have op : PredOp (.icmp sw g t p a b u k) sw (l3Reads a b u) g p fun c L =>
      relation k.toNat (t == 1) (c.src a 0 L) (c.src b u L) :=
    cmp_op (h := fun _ => relation k.toNat (t == 1)) (fun _ => rfl) fun _ _ _ => rfl
  refine op.congr fun s c st => funext fun L => ?_
  have hk : k.toNat < 6 := by simpa using (Bool.and_eq_true_iff.1 st.wf).2
  exact relation_eq hk ..

theorem plog_op (sw : BitVec 1) (g p x y o : BitVec 2) :
    PredOp (.plog sw g p x y o) sw ((RegSet.pr x.toNat).or (RegSet.pr y.toNat)) g p fun c L =>
      if o = 0 then c.p.getP x.toNat L && c.p.getP y.toNat L
      else if o = 1 then c.p.getP x.toNat L || c.p.getP y.toNat L
      else if o = 2 then c.p.getP x.toNat L ^^ c.p.getP y.toNat L
      else c.p.getP x.toNat L && !c.p.getP y.toNat L :=
  pred_op (bPlog g p x y o) (fun _ => rfl)
    ⟨fun _ _ => rfl, fun _ => rfl, rfl, .inl rfl, fun _ => rfl, fun _ _ _ => rfl, fun _ => rfl⟩
    fun _ _ _ _ => ⟨_, rfl, fun _ => plogOp_eq ..⟩

theorem pmovGet_op (sw : BitVec 1) (g : BitVec 2) (d : BitVec 6) :
    LaneOp (.pmovGet sw g d) sw (((RegSet.pr 1).or (RegSet.pr 2)).or (RegSet.pr 3)) g d fun c L =>
      BitVec.ofNat 32 (((List.range 4).filter fun r => c.p.getP r L).foldl (fun n r => n + 2 ^ r) 0) :=
  lane_op (bPmovGet g d) (fun _ => rfl)
    ⟨fun _ _ => rfl, fun _ => rfl, rfl, .inl rfl, fun _ => rfl, fun _ _ _ => rfl, fun _ => rfl⟩
    fun c _ _ _ => ⟨_, rfl, fun L => congrArg (BitVec.ofNat 32) (predicate_bits c.p L)⟩

theorem pmovPut_op (sw : BitVec 1) (g : BitVec 2) (a : BitVec 6) (s : State) (c : Ctx)
    (st : Stands s c (.pmovPut sw g a) (RegSet.vs a.toNat 1) (((RegSet.pr 1).or (RegSet.pr 2)).or (RegSet.pr 3)) g.toNat) :
    ∃ t, exec (.pmovPut sw g a) s = .next t ∧
      RanOn s t c c.b (c.behind s sw (((RegSet.pr 1).or (RegSet.pr 2)).or (RegSet.pr 3))) fun q =>
        q.v = c.p.v ∧ q.s = c.p.s ∧ ∀ r L, r < 4 → L < 64 → q.getP r L =
          if r ≠ 0 ∧ (c.effLanes g.toNat).getLsbD L then (c.p.getV a.toNat L).getLsbD r else c.p.getP r L := by
  have plain : Plain (bPmovPut g a) (RegSet.vs a.toNat 1) (((RegSet.pr 1).or (RegSet.pr 2)).or (RegSet.pr 3)) g.toNat :=
    ⟨fun _ _ => rfl, fun _ => rfl, rfl, .inl rfl, fun _ => rfl, fun _ _ _ => rfl, fun _ => rfl⟩
  obtain ⟨t, run, ran⟩ := register_op (fun _ => rfl) plain s c
    (fun q => q.setPs (c.effLanes g.toNat) (c.p.getV a.toNat)) st
    ⟨by simp only [Party.setPs, setP_bare], by simp [Party.setPs]⟩ fun _ _ _ => rfl
  refine ⟨t, run, ran.imp fun q same => ?_⟩
  have preds := sameRegs_getP same
  obtain ⟨hv, hs, -⟩ := same
  exact ⟨hv.trans (by simp [Party.setPs]), hs.trans (by simp [Party.setPs]),
    fun r L hr hL => (preds r L).trans (Party.setPs_getP _ _ _ hr hL)⟩

/-- The relation that HCMP2 writes in a lane for half i of its operands (R124). -/
def halfRel (c : Ctx) (t : BitVec 2) (a b : BitVec 6) (u : BitVec 1) (k : BitVec 3) (i L : Nat) : Bool :=
  let f := if t = 1 then fF16 else fBF16
  let half (w : Word) : Nat := w.toNat / 2 ^ (16 * i) % 2 ^ 16
  relV k.toNat (src f (fmodeFtz c.p.fmode) (half (c.src a 0 L))) (src f (fmodeFtz c.p.fmode) (half (c.src b u L)))

theorem hcmp2_plain (g t p : BitVec 2) (a b : BitVec 6) (u : BitVec 1) (k : BitVec 3) :
    Plain (bHcmp2 g t p a b u k) (l3Reads a b u) ((RegSet.pr p.toNat).or (RegSet.pr (p.toNat + 1))) g.toNat :=
  ⟨(cmp_plain g p a b u fun _ _ _ => false).reads, fun _ => rfl, rfl, .inl rfl, fun _ => rfl, fun _ _ _ => rfl, fun _ => rfl⟩

theorem bHcmp2_run {c : Ctx} (hl : c.limm = none) (g t p : BitVec 2) (a b : BitVec 6) (u : BitVec 1) (k : BitVec 3) (sw : Bool)
    (m : Lanes) (s : State) : (bHcmp2 g t p a b u k).run { c with sw := sw } m s =
      .done (s.modParty c.key c.who fun q =>
        (q.setP p.toNat m (halfRel c t a b u k 0)).setP (p.toNat + 1) m (halfRel c t a b u k 1)) [] .seq := by
  simp only [bHcmp2, opB_limm (c := { c with sw := sw }) hl, beq_iff_eq]
  rfl

theorem hcmp2_op (sw : BitVec 1) (g t p : BitVec 2) (a b : BitVec 6) (u : BitVec 1) (k : BitVec 3) (s : State) (c : Ctx)
    (st : Stands s c (.hcmp2 sw g t p a b u k) (l3Reads a b u) ((RegSet.pr p.toNat).or (RegSet.pr (p.toNat + 1))) g.toNat) :
    ∃ v, exec (.hcmp2 sw g t p a b u k) s = .next v ∧
      RanOn s v c c.b (c.behind s sw ((RegSet.pr p.toNat).or (RegSet.pr (p.toNat + 1)))) fun q =>
        q.v = c.p.v ∧ q.s = c.p.s ∧ ∀ r L, r < 4 → L < 64 → q.getP r L =
          if (r = p.toNat ∨ r = p.toNat + 1) ∧ (c.effLanes g.toNat).getLsbD L then halfRel c t a b u k (r - p.toNat) L
          else c.p.getP r L := by
  have hp : p.toNat ≠ 0 := by
    have wf : (p == 1 || p == 2) = true := (Bool.and_eq_true_iff.1 (Bool.and_eq_true_iff.1 st.wf).1).2
    rintro z
    rw [BitVec.eq_of_toNat_eq (y := 0) z] at wf
    cases wf
  have hl : c.limm = none := (ctx_in st.turn).limm
  obtain ⟨v, run, ran⟩ := register_op (fun _ => rfl) (hcmp2_plain g t p a b u k) s c
    (fun q => (q.setP p.toNat (c.effLanes g.toNat) (halfRel c t a b u k 0)).setP (p.toNat + 1) (c.effLanes g.toNat)
      (halfRel c t a b u k 1)) st ⟨by simp only [setP_bare], by simp⟩
    fun x _ _ => bHcmp2_run hl g t p a b u k (sw == 1) (c.effLanes g.toNat) x
  refine ⟨v, run, ran.imp fun q same => ?_⟩
  have preds := sameRegs_getP same
  obtain ⟨hv, hs, -⟩ := same
  refine ⟨hv.trans (by simp), hs.trans (by simp), fun r L hr hL => ?_⟩
  rw [preds, Party.setP_getP _ _ _ _ _ _ hr hL, Party.setP_getP _ _ _ _ _ _ hr hL]
  by_cases high : r = p.toNat + 1
  · simp [high]
  · by_cases low : r = p.toNat
    · simp [low, hp]
    · simp [high, low]

/-- Settles O3: compares and PLOG write one predicate by the shape of predicate words, PMOV and HCMP2 write several, one after another,
and a write of p0 is discarded. -/
theorem predicateResults : Obligations.PredicateResults := by
  intro sw g t p x y o d a b u k l3 refused bare icmp
  exact ⟨decode_icmp sw g t p a b u k, decode_icmp_reserved sw g t p a b u k, decode_icmp_refused sw g d a b u k,
    decode_plog sw g p x y o, decode_plog_refused sw g d a b u o, decode_pmovGet sw g d, decode_pmovPut sw g a,
    decode_pmovGet_refused sw g d a b u, decode_pmovPut_refused sw g d a b u,
    plog_pmov_bare sw g d a b u k (.inl rfl), plog_pmov_bare sw g d a b u k (.inr rfl),
    icmp_op sw g t p a b u k,
    cmp_op (h := fun c v w => relV k.toNat (src fF32 (fmodeFtz c.p.fmode) v.toNat) (src fF32 (fmodeFtz c.p.fmode) w.toNat))
      (fun _ => rfl) fun _ _ _ => rfl,
    plog_op sw g p x y o, pmovGet_op sw g d, pmovPut_op sw g a, hcmp2_op sw g t p a b u k⟩

end Sys2Proof.Machine
end
